-- ==== Sys2Proof/Word.lean ====
section
/-! DEFINITION. The word types of the BLX-4 and their plainest arithmetic (R3, R5). -/

namespace Sys2Proof

/-- One byte of memory (R3). -/
abbrev Byte := BitVec 8
/-- A V register's width (R21). -/
abbrev W32 := BitVec 32
/-- An S register's, pair's or queue entry's width (R21, R194). -/
abbrev W64 := BitVec 64
/-- A register number as an instruction field holds it (R81). -/
abbrev RegNo := BitVec 8

/-- bits(x, hi, lo) of R5. -/
def bits (x : Nat) (hi lo : Nat) : Nat := (x >>> lo) % 2 ^ (hi + 1 - lo)

/-- A pair read as 64 bits: the even register holds the low word (R3, R207). -/
def pairWord (lo hi : W32) : W64 := hi ++ lo

/-- The low word of a 64-bit value. -/
def loWord (x : W64) : W32 := x.truncate 32

/-- The high word of a 64-bit value. -/
def hiWord (x : W64) : W32 := (x >>> 32).truncate 32

end Sys2Proof
end

