-- ==== Sys2Proof/Syntax.lean ====
section
/-! DEFINITION. The instructions and events of the BLX-4: one constructor of Instr per row of
spec/opcode_table.json. Instructions carry the guard, the lookahead count and typed operands of
their encoding tables; events carry what names the thing that moves, and events that come from
outside the device carry their data. -/

namespace Sys2Proof

/-- The guard and lookahead fields every instruction shares (R79, R85, R86). -/
structure Hd where
  pg : BitVec 3 := 0
  pn : Bool := false
  la : BitVec 4 := 0
  deriving DecidableEq, Repr

/-- The integer types of Table 10-1. -/
inductive IntTy where | i32 | n32 | i64 | n64
  deriving DecidableEq, Repr

/-- Operand width of the bitwise forms: `.b32` or `.b64` (R214). -/
inductive BW where | b32 | b64
  deriving DecidableEq, Repr

/-- The last source of a form that accepts an immediate (R211). -/
inductive Src where
  | reg (r : RegNo)
  | imm8 (v : BitVec 8)
  | imm32 (v : BitVec 32)
  deriving DecidableEq, Repr

/-- The last source of a form of classes 0x3 to 0x5: a register, or the 32 bits of IMM32 (R211). -/
inductive FSrc where
  | reg (r : RegNo)
  | imm (v : BitVec 32)
  deriving DecidableEq, Repr

/-- A displacement: signed imm8 in C, or signed IMM32 (R272). -/
inductive Disp where
  | d8 (v : BitVec 8)
  | d32 (v : BitVec 32)
  deriving DecidableEq, Repr

/-- Rounding modes of Table 3-2. -/
inductive Rnd where | rne | rz | ru | rd
  deriving DecidableEq, Repr

/-- Scopes of R82. -/
inductive Scope where | core | clu | die | dev | sys
  deriving DecidableEq, Repr

/-- Integer conditions of Table 10-3. -/
inductive ICc where | eq | ne | lt | le | gt | ge
  deriving DecidableEq, Repr

/-- Floating conditions of Table 10-3. -/
inductive FCc where | eq | ne | lt | le | gt | ge | nan | num
  deriving DecidableEq, Repr

/-- Predicate operations of Table 10-3. -/
inductive PlogOp where | and | or | xor | andn
  deriving DecidableEq, Repr

/-- Load sizes of Table 13-2. -/
inductive LdSz where | n8 | i8 | n16 | i16 | b32 | b64 | b128
  deriving DecidableEq, Repr

/-- Store sizes of Table 13-2. -/
inductive StSz where | b8 | b16 | b32 | b64 | b128
  deriving DecidableEq, Repr

/-- 16-bit floating formats (R218). -/
inductive F16Ty where | f16 | bf16
  deriving DecidableEq, Repr

/-- 8-bit floating formats (R53). -/
inductive F8Ty where | e4m3 | e5m2
  deriving DecidableEq, Repr

/-- Conversion types of Table 10-5. -/
inductive CvtTy where
  | i8 | n8 | i16 | n16 | i32 | n32 | i64 | n64 | f32 | f16 | bf16 | e4m3 | e5m2
  deriving DecidableEq, Repr

/-- Element types `unpack` widens (Table 10-6). -/
inductive UnpackTy where | f16 | bf16 | e4m3 | e5m2
  deriving DecidableEq, Repr

/-- Operations of the cross-lane reductions and scans (R226). -/
inductive RedOp where
  | addI | addN | addF (r : Rnd) | minI | minN | minF | maxI | maxN | maxF | andB | orB | xorB
  deriving DecidableEq, Repr

/-- Reuse classes of Table 11-6. -/
inductive Reuse where | normal | stream | keep | bypass
  deriving DecidableEq, Repr

/-- Sizes of handle accesses (R267). -/
inductive HSz where | b32 | b64 | b128
  deriving DecidableEq, Repr

/-- Barrier levels of `barinit` and `barinv` (R189). -/
inductive Level where | blk | clu | grid
  deriving DecidableEq, Repr

/-- A barrier count: a register, or IMM32 of the 96-bit form (R189). -/
inductive Count where
  | reg (a : RegNo)
  | imm (v : BitVec 32)
  deriving DecidableEq, Repr

/-- Budget classes of Table 5-4. -/
inductive BClass where | grp | cox | mma | bank | eddy | coll | copy | hbm | far | flit
  deriving DecidableEq, Repr

/-- Matrix A formats (Table 19-3). -/
inductive AFmt where | e4m3 | e5m2 | bf16
  deriving DecidableEq, Repr

/-- The order flags and scope of an access or command (R273, R301). -/
structure Ord where
  acq : Bool := false
  rel : Bool := false
  scope : Scope := .core
  deriving DecidableEq, Repr

/-- Operands of an integer form with one source and no immediate. -/
structure IUn where
  ty : IntTy
  sat : Bool := false
  d : RegNo
  a : RegNo
  deriving DecidableEq, Repr

/-- Operands of an integer form with two sources, the last of which may be immediate. -/
structure IBin where
  ty : IntTy
  sat : Bool := false
  d : RegNo
  a : RegNo
  b : Src
  deriving DecidableEq, Repr

/-- Operands of an integer form with three sources, the last of which may be immediate. -/
structure ITri where
  ty : IntTy
  d : RegNo
  a : RegNo
  b : RegNo
  c : Src
  deriving DecidableEq, Repr

/-- Operands of a bitwise form with one source. -/
structure BUn where
  bw : BW
  d : RegNo
  a : RegNo
  deriving DecidableEq, Repr

/-- Operands of a bitwise form with two sources. -/
structure BBin where
  bw : BW
  d : RegNo
  a : RegNo
  b : Src
  deriving DecidableEq, Repr

/-- Operands of an FP32 form with one source. -/
structure FUn where
  rnd : Rnd
  d : RegNo
  a : RegNo
  deriving DecidableEq, Repr

/-- Operands of an FP32 form with two sources. -/
structure FBin where
  rnd : Rnd
  d : RegNo
  a : RegNo
  b : FSrc
  deriving DecidableEq, Repr

/-- Operands of a 16-bit or complex floating form (no immediate). -/
structure HBin where
  ty : F16Ty
  rnd : Rnd
  d : RegNo
  a : RegNo
  b : RegNo
  deriving DecidableEq, Repr

/-- Operands of a complex form (R218). -/
structure CBin where
  rnd : Rnd
  d : RegNo
  a : RegNo
  b : RegNo
  deriving DecidableEq, Repr

/-- Operands of `mv` (R229); m and k are the field values plus 1. -/
structure MvOps where
  bf16 : Bool
  bias : Bool
  relu : Bool
  rnd : Rnd
  d : RegNo
  a : RegNo
  b : RegNo
  m1 : BitVec 4
  k1 : BitVec 4
  deriving DecidableEq, Repr

/-- Operands of `mma` (R347). -/
structure MmaOps where
  z : BitVec 3
  a : RegNo
  b : RegNo
  c : RegNo
  pair : Bool
  th : Bool
  sa : Bool
  sb : Bool
  init : Bool
  mult : BitVec 32
  nx : BitVec 7
  kb : BitVec 2
  k64 : Bool
  afmt : AFmt
  bfmt : AFmt
  deriving DecidableEq, Repr

/-- Operands of `gth`, `sct`, `gthx`, `sctx`; r is the data register, b the index (R284). -/
structure GOps (σ : Type) where
  cls : Reuse
  sz : σ
  r : RegNo
  a : RegNo
  disp : Disp
  deriving DecidableEq, Repr

/-- Operands of the indexed gather and scatter. -/
structure GXOps (σ : Type) where
  cls : Reuse
  sz : σ
  sh : BitVec 3
  r : RegNo
  a : RegNo
  b : RegNo
  disp : Disp
  deriving DecidableEq, Repr

/-- Operands of an integer atomic with return (R288). -/
structure AtOps where
  ty : IntTy
  o : Ord
  d : RegNo
  a : RegNo
  b : RegNo
  disp : Disp
  deriving DecidableEq, Repr

/-- Operands of a floating atomic with return (R288). -/
structure AtFOps where
  num : Bool
  o : Ord
  d : RegNo
  a : RegNo
  b : RegNo
  disp : Disp
  deriving DecidableEq, Repr

/-- A Renlor flit: its header fields (Table 23-1), its payload, and the CRC-32 that it carries (R395). -/
structure Flit where
  seq : BitVec 12
  ack : BitVec 12
  type : BitVec 4
  dst : BitVec 10
  src : BitVec 10
  tag : BitVec 8
  sld : BitVec 1
  ctx : BitVec 6
  payload : List Byte
  crc : BitVec 32
  deriving DecidableEq, Repr

/-- The operations of Table 13-8, and the version switch of `embsw` (R287). -/
inductive AtOp where
  | add | min | max | and | or | xor | exch | cas | fadd | fmin (num : Bool) | fmax (num : Bool)
  | embsw (sector : List Byte)
  deriving DecidableEq, Repr

/-- What a remote request asks of its destination (R399, R400): a read of n bytes, a write of bytes at their
offsets, one atomic with the operands of its lanes in ascending order, or a launch's completion record, to which the
destination adds CYC (R116). -/
inductive RemoteOp where
  | read (n : Nat)
  | fetch
  | write (data : List (Nat × Byte))
  | atomic (op : AtOp) (ty : IntTy) (ops : List (W64 × W64))
  | record (w0 w1 : W64)
  deriving DecidableEq, Repr

/-- A request from another device, after its flit was accepted (R400); `resent` says that it was sent before, by replay or
after a port failure, `intact` whether the checks of its sectors hold (R401), `sys` that it is for the area of a context's image
(R256). -/
structure RemoteReq where
  src : BitVec 10
  sld : BitVec 1
  tag : BitVec 8
  ctx : BitVec 6
  va : W64
  op : RemoteOp
  resent : Bool
  intact : Bool := true
  sys : Bool := false
  deriving DecidableEq, Repr

/-- A reply from a destination device: a translation fault with INFO, an uncorrectable error, a sector of the request that failed
its check on the way, or the data and the sequence number (R279, R399, R401). -/
inductive RemoteRep where
  | fault (info : BitVec 16)
  | bad
  | sector
  | data (bytes : List Byte) (seq : BitVec 16)
  deriving DecidableEq, Repr

/-- An Ultra Ethernet packet that is no message to the command endpoint (R402, R413). -/
inductive UePacket where
  | rmaWrite (endpoint : Nat) (key : W64) (off : Nat) (data : List Byte)
  | rmaRead (endpoint : Nat) (key : W64) (off len : Nat)
  | readReply (cmd : Nat) (data : List Byte)
  | writeReply (cmd : Nat) (ok : Bool)
  | unsupported
  deriving DecidableEq, Repr

/-- The fields of a collective command that its members compare (R405). -/
structure CollFields where
  kind : Nat
  seq : Nat
  count : Nat
  nmem : Nat
  mem : List Nat
  wfmt : Nat
  ofmt : Nat
  deriving DecidableEq, Repr

/-- The engines that queue registers reach, by the k of Table 9-1. -/
inductive EngKind where | copy | collector | bank | eddy | coll | quant
  deriving DecidableEq, Repr

/-- The constructors of the machine's steps: one per row of the opcode table. -/
inductive Instr where
  -- control flow, classes 0x0 (R91, R164)
  | nop (h : Hd)
  | nopW12 (h : Hd)
  | nopW16 (h : Hd)
  | bra (h : Hd) (t : W32)
  | braZ (h : Hd) (a : RegNo) (t : W32)
  | braNz (h : Hd) (a : RegNo) (t : W32)
  | braAny (h : Hd) (pa : BitVec 3) (t : W32)
  | braAll (h : Hd) (pa : BitVec 3) (t : W32)
  | call (h : Hd) (d : RegNo) (t : W32)
  | callR (h : Hd) (d a : RegNo)
  | ret (h : Hd) (a : RegNo)
  | brx (h : Hd) (a : RegNo) (n : BitVec 8) (t : W32)
  -- fibre life and relations, class 0x1 (R165–R171)
  | spawn (h : Hd) (d a : RegNo) (n : BitVec 5) (t : W32)
  | exit (h : Hd)
  | kill (h : Hd) (d a : RegNo)
  | renter (h : Hd) (rel : BitVec 3)
  | rleave (h : Hd) (rel : BitVec 3)
  | rjoin (h : Hd) (res : BitVec 3) (t : W32)
  | rfold (h : Hd) (rel : BitVec 3)
  | matchAny (h : Hd) (b64 : Bool) (d a : RegNo)
  | matchAll (h : Hd) (b64 : Bool) (pd : BitVec 3) (a : RegNo)
  | rprobe (h : Hd) (d a : RegNo) (rel : BitVec 3)
  | compact (h : Hd) (t : BitVec 8)
  | regroup (h : Hd) (t : BitVec 8)
  | regroupKey (h : Hd) (b64 : Bool) (a : RegNo) (t : BitVec 8)
  -- integer, class 0x2 (R214)
  | add (h : Hd) (o : IBin)
  | sub (h : Hd) (o : IBin)
  | neg (h : Hd) (o : IUn)
  | abs (h : Hd) (o : IUn)
  | min (h : Hd) (o : IBin)
  | max (h : Hd) (o : IBin)
  | mul (h : Hd) (o : IBin)
  | mulhi (h : Hd) (o : IBin)
  | mulwide (h : Hd) (o : IBin)
  | mad (h : Hd) (o : ITri)
  | div (h : Hd) (o : IBin)
  | rem (h : Hd) (o : IBin)
  | and (h : Hd) (o : BBin)
  | or (h : Hd) (o : BBin)
  | xor (h : Hd) (o : BBin)
  | not (h : Hd) (o : BUn)
  | andn (h : Hd) (o : BBin)
  | shl (h : Hd) (o : IBin)
  | shr (h : Hd) (o : IBin)
  | setp (h : Hd) (cc : ICc) (o : IBin)
  | sel (h : Hd) (ty : IntTy) (d a b c : RegNo)
  | plog (h : Hd) (op : PlogOp) (pd pa pb : BitVec 3)
  | popc (h : Hd) (o : BUn)
  | clz (h : Hd) (o : BUn)
  | ctz (h : Hd) (o : BUn)
  | brev (h : Hd) (o : BUn)
  | bfe (h : Hd) (o : IBin)
  | bfi (h : Hd) (o : ITri)
  | mov (h : Hd) (ty : IntTy) (d : RegNo) (a : Src)
  | movx (h : Hd) (d : RegNo) (v : W64)
  -- floating point, class 0x3 (R218)
  | addF32 (h : Hd) (o : FBin)
  | subF32 (h : Hd) (o : FBin)
  | mulF32 (h : Hd) (o : FBin)
  | fmaF32 (h : Hd) (o : FBin) (c : FSrc)
  | addF16 (h : Hd) (o : HBin)
  | subF16 (h : Hd) (o : HBin)
  | mulF16 (h : Hd) (o : HBin)
  | fmaF16 (h : Hd) (o : HBin) (c : RegNo)
  | minF32 (h : Hd) (num : Bool) (d a : RegNo) (b : FSrc)
  | maxF32 (h : Hd) (num : Bool) (d a : RegNo) (b : FSrc)
  | setpF32 (h : Hd) (cc : FCc) (pd : BitVec 3) (a : RegNo) (b : FSrc)
  | classF32 (h : Hd) (d a : RegNo)
  | divF32 (h : Hd) (o : FBin)
  | sqrtF32 (h : Hd) (o : FUn)
  | rcpF32 (h : Hd) (o : FUn)
  | rsqrtF32 (h : Hd) (o : FUn)
  | caddC64 (h : Hd) (o : CBin)
  | cmulC64 (h : Hd) (o : CBin)
  | cfmaC64 (h : Hd) (o : CBin) (c : RegNo)
  -- conversion and pack, class 0x4 (R220–R223)
  | cvt (h : Hd) (rnd : Rnd) (sat : Bool) (el : BitVec 2) (dt st : CvtTy) (d a : RegNo)
  | prmt (h : Hd) (d a b : RegNo) (c : FSrc)
  | packF16 (h : Hd) (ty : F16Ty) (rnd : Rnd) (d a b : RegNo)
  | packF8 (h : Hd) (ty : F8Ty) (sat : Bool) (rnd : Rnd) (d a b : RegNo)
  | unpack (h : Hd) (ty : UnpackTy) (d a : RegNo)
  | mxq (h : Hd) (ty : F8Ty) (d a : RegNo)
  | mxw (h : Hd) (ty : F8Ty) (d a b : RegNo)
  -- cross-lane, class 0x5 (R224–R230)
  | shflIdx (h : Hd) (b64 : Bool) (d a : RegNo) (b : FSrc)
  | shflUp (h : Hd) (b64 : Bool) (d a : RegNo) (b : FSrc)
  | shflDown (h : Hd) (b64 : Bool) (d a : RegNo) (b : FSrc)
  | shflXor (h : Hd) (b64 : Bool) (d a : RegNo) (b : FSrc)
  | red (h : Hd) (op : RedOp) (d a : RegNo)
  | scan (h : Hd) (op : RedOp) (d a : RegNo)
  | scanx (h : Hd) (op : RedOp) (d a : RegNo)
  | qxH (h : Hd) (b64 : Bool) (d a : RegNo)
  | qxV (h : Hd) (b64 : Bool) (d a : RegNo)
  | qxD (h : Hd) (b64 : Bool) (d a : RegNo)
  | qbc (h : Hd) (b64 : Bool) (d a : RegNo) (j : BitVec 2)
  | ballot (h : Hd) (d : RegNo) (pa : BitVec 3)
  | pfxpop (h : Hd) (d : RegNo) (pa : BitVec 3)
  | conf (h : Hd) (b64 : Bool) (d a : RegNo)
  | confFirst (h : Hd) (b64 : Bool) (pd : BitVec 3) (a : RegNo)
  | bpcnt (h : Hd) (d a b : RegNo) (k : BitVec 5)
  | bpmatch (h : Hd) (d a b : RegNo) (k : BitVec 5)
  | mvWt (h : Hd) (o : MvOps)
  -- synchronous memory, class 0x6 (R253–R279)
  | ld (h : Hd) (acq : Option Scope) (sz : LdSz) (d a : RegNo) (disp : Disp)
  | st (h : Hd) (rel : Option Scope) (sz : StSz) (a b : RegNo) (disp : Disp)
  | stTag (h : Hd) (rel : Option Scope) (sz : StSz) (d a b : RegNo) (disp : Disp)
  | ldc (h : Hd) (sz : LdSz) (d a : RegNo) (disp : Disp)
  -- asynchronous memory, class 0x7 (R280–R287)
  | cpa (h : Hd) (o : Ord) (t a b c : RegNo)
  | cpaReg (h : Hd) (o : Ord) (t a b c : RegNo) (n1 : BitVec 3)
  | gth (h : Hd) (o : GOps LdSz)
  | sct (h : Hd) (o : GOps StSz)
  | gthx (h : Hd) (o : GXOps LdSz)
  | sctx (h : Hd) (o : GXOps StSz)
  | cst (h : Hd) (b64 : Bool) (pc : BitVec 3) (d a b : RegNo) (disp : Disp)
  | embpool (h : Hd) (d a b c : RegNo) (k1 : BitVec 4)
  | embsw (h : Hd) (scope : Scope) (d a b : RegNo)
  -- atomics and fences, class 0x8 (R288–R290, R311)
  | atomAdd (h : Hd) (o : AtOps)
  | atomMin (h : Hd) (o : AtOps)
  | atomMax (h : Hd) (o : AtOps)
  | atomAnd (h : Hd) (o : AtOps)
  | atomOr (h : Hd) (o : AtOps)
  | atomXor (h : Hd) (o : AtOps)
  | atomExch (h : Hd) (o : AtOps)
  | atomCas (h : Hd) (o : AtOps)
  | atomAddF32 (h : Hd) (o : AtFOps)
  | atomMinF32 (h : Hd) (o : AtFOps)
  | atomMaxF32 (h : Hd) (o : AtFOps)
  | mredAdd (h : Hd) (ty : IntTy) (o : Ord) (a b : RegNo) (disp : Disp)
  | mredMin (h : Hd) (ty : IntTy) (o : Ord) (a b : RegNo) (disp : Disp)
  | mredMax (h : Hd) (ty : IntTy) (o : Ord) (a b : RegNo) (disp : Disp)
  | mredAnd (h : Hd) (ty : IntTy) (o : Ord) (a b : RegNo) (disp : Disp)
  | mredOr (h : Hd) (ty : IntTy) (o : Ord) (a b : RegNo) (disp : Disp)
  | mredXor (h : Hd) (ty : IntTy) (o : Ord) (a b : RegNo) (disp : Disp)
  | mredAddF32 (h : Hd) (o : Ord) (a b : RegNo) (disp : Disp)
  | mredMinF32 (h : Hd) (num : Bool) (o : Ord) (a b : RegNo) (disp : Disp)
  | mredMaxF32 (h : Hd) (num : Bool) (o : Ord) (a b : RegNo) (disp : Disp)
  | fenceRel (h : Hd) (scope : Scope)
  | fenceAcq (h : Hd) (scope : Scope)
  | fenceSc (h : Hd) (scope : Scope)
  | fenceAck (h : Hd)
  | fenceEng (h : Hd) (scope : Scope)
  -- barriers and rejoin, class 0x9 (R189–R193)
  | barSync (h : Hd) (rlx : Bool) (d : RegNo) (b : BitVec 4) (c : Count)
  | barArrive (h : Hd) (rlx : Bool) (d : RegNo) (b : BitVec 4) (c : Count)
  | barWait (h : Hd) (rlx : Bool) (d a : RegNo) (b : BitVec 4)
  | cbarSync (h : Hd) (rlx : Bool) (d : RegNo) (b : BitVec 3) (c : Count)
  | cbarArrive (h : Hd) (rlx : Bool) (d : RegNo) (b : BitVec 3) (c : Count)
  | cbarWait (h : Hd) (rlx : Bool) (d a : RegNo) (b : BitVec 3)
  | gbarSync (h : Hd) (rlx : Bool) (d : RegNo) (b : BitVec 2) (c : Count)
  | gbarArrive (h : Hd) (rlx : Bool) (d : RegNo) (b : BitVec 2) (c : Count)
  | gbarWait (h : Hd) (rlx : Bool) (d a : RegNo) (b : BitVec 2)
  | barinit (h : Hd) (lvl : Level) (a : RegNo) (b : BitVec 4)
  | barinv (h : Hd) (lvl : Level) (b : BitVec 4)
  | rjset (h : Hd) (jd : BitVec 3)
  | rjw (h : Hd) (ja : BitVec 3)
  -- queues, class 0xA, and the group hardware's events (R126–R150, R199–R209)
  | qbind (h : Hd) (d a : RegNo) (qb : BitVec 4) (k : BitVec 3)
  | qunbind (h : Hd) (d : RegNo) (qb : BitVec 4)
  | qpush (h : Hd) (b64 : Bool) (qd : BitVec 4) (a : RegNo)
  | qpop (h : Hd) (b64 bc : Bool) (d : RegNo) (qa : BitVec 4)
  | qdrain (h : Hd) (d : RegNo) (qa : BitVec 4)
  | dqPush (h : Hd) (a : RegNo)
  | dqPop (h : Hd) (b64 : Bool) (d : RegNo)
  | dqPopf (h : Hd) (b64 : Bool) (d : RegNo)
  | hrecv (h : Hd) (try_ : Bool) (d : RegNo) (qa : BitVec 4)
  -- matrix and quantiser, class 0xB (R347–R356)
  | mma (h : Hd) (o : MmaOps)
  | zzero (h : Hd) (z : BitVec 3)
  | zld (h : Hd) (z : BitVec 3) (a b : RegNo)
  | zst (h : Hd) (a : RegNo) (z : BitVec 3) (b : RegNo)
  | zrd (h : Hd) (d : RegNo) (z : BitVec 3) (j : BitVec 8)
  | plse (h : Hd) (pair try_ : Bool) (d : RegNo)
  | plrl (h : Hd) (d : RegNo)
  | scinv (h : Hd)
  | scpf (h : Hd) (a : RegNo) (n : BitVec 8)
  | zq (h : Hd) (e5m2 : Bool) (a : RegNo) (z : BitVec 3) (c : RegNo)
  -- clustering bank, class 0xC (R368–R373)
  | cbcfg (h : Hd) (d a b : RegNo)
  | cbclr (h : Hd) (d : RegNo)
  | cbrel (h : Hd) (d : RegNo)
  | cbstat (h : Hd) (d : RegNo)
  | cbpush (h : Hd) (d a : RegNo)
  | cbmerge (h : Hd) (d : RegNo)
  | cbrd (h : Hd) (sum : Bool) (d a : RegNo)
  | cbsave (h : Hd) (d a : RegNo)
  | cbrest (h : Hd) (d a : RegNo)
  -- Eddy, class 0xD (R389–R393)
  | edgate (h : Hd) (o : Ord) (k1 : BitVec 2) (d a b : RegNo) (s : BitVec 2)
  | edmeas (h : Hd) (o : Ord) (d a : RegNo) (s : BitVec 2)
  | ednorm (h : Hd) (o : Ord) (d : RegNo) (s : BitVec 2)
  | edmapInit (h : Hd) (d a : RegNo) (s : BitVec 2)
  | edmapRd (h : Hd) (d a : RegNo) (s : BitVec 2)
  | edmapWr (h : Hd) (d a : RegNo) (s : BitVec 2)
  | edswap (h : Hd) (d a : RegNo) (s : BitVec 2)
  | edmapFree (h : Hd) (d : RegNo) (s : BitVec 2)
  | edsync (h : Hd) (scope : Scope) (s : BitVec 2)
  -- links, class 0xE (R414–R417)
  | collRed (h : Hd) (o : Ord) (d a : RegNo)
  | collRs (h : Hd) (o : Ord) (d a : RegNo)
  | collAg (h : Hd) (o : Ord) (d a : RegNo)
  | collBc (h : Hd) (o : Ord) (d a : RegNo)
  | xdisp (h : Hd) (o : Ord) (d a : RegNo)
  | xfix (h : Hd) (o : Ord) (d a : RegNo)
  | lkst (h : Hd) (d a : RegNo)
  | lkctlUp (h : Hd) (d a b : RegNo)
  | lkctlDown (h : Hd) (d a b : RegNo)
  | lkctlRxbuf (h : Hd) (d a b : RegNo)
  | lkctlPost (h : Hd) (d a b : RegNo)
  | lkctlClr (h : Hd) (d a b : RegNo)
  -- system, class 0xF (R110–R114, R131–R135, R267–R271)
  | srd (h : Hd) (d : RegNo) (n : BitVec 8)
  | swr (h : Hd) (a : RegNo) (n : BitVec 8)
  | xvec (h : Hd) (t : W32)
  | xvecClr (h : Hd)
  | xret (h : Hd)
  | xretSkip (h : Hd)
  | yield (h : Hd)
  | ctxctlCreate (h : Hd) (d a b : RegNo)
  | ctxctlStart (h : Hd) (d a b : RegNo)
  | ctxctlStop (h : Hd) (d a b : RegNo)
  | ctxctlResume (h : Hd) (d a b : RegNo)
  | ctxctlKill (h : Hd) (d a b : RegNo)
  | ctxctlFree (h : Hd) (d a b : RegNo)
  | ctxctlReflect (h : Hd) (d a b : RegNo)
  | ctxsave (h : Hd) (d a b c : RegNo)
  | ctxrest (h : Hd) (d a b : RegNo)
  | ptroot (h : Hd) (d a b : RegNo)
  | frpop (h : Hd) (d : RegNo)
  | bgset (h : Hd) (k : BClass) (a b : RegNo)
  | bgrd (h : Hd) (k : BClass) (d a : RegNo)
  | ctxprio (h : Hd) (a b : RegNo)
  | xlat (h : Hd) (d a : RegNo)
  | tinv (h : Hd) (all : Bool) (d a b : RegNo)
  | htab (h : Hd) (d a b : RegNo)
  | hinv (h : Hd) (all : Bool) (d a : RegNo)
  | hld (h : Hd) (sz : HSz) (d a b : RegNo)
  | hst (h : Hd) (sz : HSz) (a b c : RegNo)
  | launch (h : Hd) (wait : Bool) (d a b : RegNo)
  | walkInit (h : Hd) (a b c : RegNo)
  | walkNext (h : Hd) (d : RegNo)
  | stgq (h : Hd) (d : RegNo) (s : BitVec 3)
  | stgres (h : Hd) (a : RegNo) (s : BitVec 3)
  | kend (h : Hd)
  -- the events of the hardware and of the outside world (R126–R150, R199–R209, R418–R428, and the
  -- chapters of each unit)
  | joinEmit (core slot res : Nat)
  | foldCombine (core slot rel : Nat)
  | compactClose (core slot part : Nat)
  | regroupClose (core slot entry : Nat)
  | pageWalk (core ctx : Nat) (va : W64)
  | migRewalk (core ctx : Nat) (va : W64)
  | loadReturn (id lane : Nat)
  | collectorSend (core k : Nat)
  | homeSliceWrite (core k : Nat)
  | homeSliceAtomic (core k : Nat)
  | copyPerform (id : Nat)
  | enginePortTake (k : EngKind) (unit port : Nat)
  | resultEnter (k : EngKind) (unit port : Nat)
  | stageQueueTake (core slot stage : Nat)
  | stageSpawn (core slot stage : Nat)
  | commandMessageArrive (msg : List Byte)
  | groupForm (core part : Nat)
  | recordAssign (core part : Nat)
  | partReturn (core part slot fid : Nat)
  | fairnessExpiry (core slot part : Nat)
  | swapOut (core slot fid : Nat)
  | windowGrant (core part slot : Nat)
  | stuckBlock (core slot : Nat)
  | leaseGrant (core : Nat)
  | quantiserCommand (core : Nat)
  | copyPortCommand (core : Nat)
  | collectorPrefetch (core : Nat)
  | bankArrival (core : Nat)
  | overflowRecordEnter (core : Nat)
  | bankPushCommand (core : Nat)
  | bankMergeCommand (core : Nat)
  | eddyCommandExecute (ctx slot : Nat)
  | eddySwapLand (ctx slot kind : Nat) (data : List W64)
  | portRed (ldie : Nat)
  | portRs (ldie : Nat)
  | portAg (ldie : Nat)
  | portBc (ldie : Nat)
  | portXdisp (ldie : Nat)
  | portXfix (ldie : Nat)
  | collectiveBlockArrive (id n : Nat) (fields : Option CollFields) (data : List Byte)
  | rmaWrite (ldie : Nat)
  | rmaRead (ldie : Nat)
  | registerWindow (ldie : Nat)
  | releaseWindow (ldie : Nat)
  | uePacketReceive (p : UePacket)
  | flitReceive (port : Nat) (f : Flit)
  | replay (port : Nat)
  | portTrained (port peer : Nat)
  | trainingTimeout (port : Nat)
  | portFail (port : Nat)
  | remoteRequest (r : RemoteReq)
  | remoteReply (ldie tag : Nat) (r : RemoteRep)
  | destinationLost (dev : Nat)
  | drainComplete (ctx : Nat)
  | faultRecordPost (ctx : Nat)
  | strokeBoundary (die : Nat)
  | becalm (core : Nat)
  | wake (core : Nat)
  | placementTurn
  | blockComplete (core slot : Nat)
  | completionRecordWrite (ctx num : Nat)
  | powerOnReset
  | firmwareImageRead (image : List Byte)
  | trainingComplete (dies : BitVec 4) (stk : BitVec 12) (ldies : BitVec 2)
  | attestationChallenge (nonce : List Byte)
  | thermalTrip (die : Nat)
  | thermalThrottle (die : Nat)
  | thermalRecover (die : Nat)
  | powerLimitWindow (mhz : List Nat)
  | mgpwrWrite (v : W64)
  | mgpinWrite (die : Nat) (v : W64)
  | mgpopWrite
  | managementWriteOther (off : Nat)
  | dieLost (die : Nat)
  deriving DecidableEq, Repr

/-- Who moves next: an issue of one thread, an event of the hardware or of the outside world, a store
path entry entering its L1 (R295, R298), time passing on a die's clock (R9), a replacement in a cache
that holds only copies (R241–R243, R257, R266, R345, R84), a junction sensor's new reading (R426), or a
memory word whose check fails beyond correction (R401), a collective engine going on with a command (R404–R411), or the
completion of a system form that waits for accesses (R266, R269), a plain load whose request leaves before its data comes
(R298), a switch plane's report of whether a device can be reached on a port (R398), an idle flit that carries an acknowledgement
(R395, R396), or the device number that the management firmware sets (R394). -/
inductive Turn where
  | issueCox (core slot : Nat)
  | issuePart (core slot part : Nat)
  | event (i : Instr)
  | drain (core path : Nat)
  | advance (die n : Nat)
  | evictL1 (core k : Nat)
  | evictRdc (die k : Nat)
  | evictL2 (die k : Nat)
  | evictTlb (core k : Nat)
  | evictDtc (die k : Nat)
  | evictHandle (die k : Nat)
  | evictScale (core k : Nat)
  | refetch (core k : Nat)
  | sense (die : Nat) (temp : Byte)
  | poison (word : Nat)
  | coll (id : Nat)
  | late (k : Nat)
  | send (id lane : Nat)
  | planeReport (dev port : Nat) (reached : Bool)
  | idle (port : Nat)
  | deviceNumber (n : Nat)
  deriving DecidableEq, Repr, Inhabited

end Sys2Proof
end

