-- ==== Sys2Proof/Config.lean ====
section
/-! DEFINITION. What the spec leaves open: opaque values that no proof can see. -/

namespace Sys2Proof.Config

open Sys2Proof

/-- The turn taken when the agenda is empty: the order in which the agents move is open (R6, log 1).
DESIGN CHOICE. -/
opaque nextTurn : Nat → Turn

/-- A choice the spec leaves open inside one step, such as the tile a `walk.next` returns (R129, R6, log 2).
DESIGN CHOICE. -/
opaque pick : Nat → Nat

/-- Byte i of the opaque image that a `ctxsave` at the given tick writes (R108, log 5). DESIGN CHOICE. -/
opaque imageByte : Nat → Nat → Byte

/-- The length of that image in 256-byte units (R114, log 5). DESIGN CHOICE. -/
opaque imageUnits : Nat → Nat

/-- Whether an image is well formed, the two public keys that come with it, and whether each of its two signatures verifies under
its key (R421, log 6). DESIGN CHOICE. -/
opaque imageWellFormed : List Byte → Bool
opaque rsaKey : List Byte → List Byte
opaque slhKey : List Byte → List Byte
opaque rsaVerifies (key image : List Byte) : Bool
opaque slhVerifies (key image : List Byte) : Bool

/-- The SHA-384 digests of the two public keys that are fused into L-die 0 (R421, log 6). DESIGN CHOICE. -/
opaque fusedRsa : List Byte
opaque fusedSlh : List Byte

/-- The device identity, and the two attestation signatures over a reply (R422, log 6). DESIGN CHOICE. -/
opaque identity : List Byte
opaque signRsa : List Byte → List Byte
opaque signSlh : List Byte → List Byte

/-- Byte i of the payload of a flit: the spec gives its length and the header only (R395, log 14). DESIGN CHOICE. -/
opaque payload : Nat → Nat → Byte

/-- DONE of a finished RMA command, and the status word of one that its peer answers with an error: the spec states
neither (R413, log 16). DESIGN CHOICE. -/
opaque rmaDone : Nat → BitVec 19
opaque rmaError : Nat → W32

/-- How many entries make a command of Eddy's queue port, by its first entry, and what the port reads as field i of a command:
the spec lets commands reach Eddy by a queue register and gives them no format (R382, log 15). DESIGN CHOICE. -/
opaque eddyEntries : W64 → Nat
opaque eddyField : Nat → List W64 → Nat → Nat

end Sys2Proof.Config
end

