-- ==== Sys2Proof/WellFormed.lean ====
section
/-! DEFINITION. When an instruction is well formed in a context: the stream, the privilege and every operand
range and alignment that R12, R81, R85, R92, R163, R190 and the encoding tables ask for. -/

namespace Sys2Proof

/-- The stream that fetched an instruction (R15). -/
inductive Stream where | cox | fibre
  deriving DecidableEq, Repr

/-- What decoding knows of a relation: whether it is a join result, whether its key is a pair, the registers `rjoin`
and `rfold` name implicitly (R163, R168), and the key that `renter` reads (R167). -/
structure RelInfo where
  join : Bool
  pairKey : Bool
  joinRegs : List Nat
  foldRegs : List Nat
  keyRegs : List Nat
  deriving DecidableEq, Repr

/-- The context a fetch is decoded in (R92, R163, R190). -/
structure DCtx where
  stream : Stream
  priv : Bool
  w : Nat
  extent : Nat
  rels : List RelInfo
  gbar : BitVec 4
  deriving DecidableEq, Repr

def IntTy.is64 : IntTy → Bool
  | .i64 => true
  | .n64 => true
  | _ => false

/-- Special-register widths and streams (Table 1-7, Table 5-8): (64-bit, legal in cox, legal in fibre). -/
def srInfo (n : Nat) : Option (Bool × Bool × Bool) :=
  match n with
  | 0x00 => some (false, true, true)
  | 0x01 | 0x02 | 0x03 => some (false, false, true)
  | 0x04 | 0x05 => some (true, true, true)
  | 0x06 => some (false, true, true)
  | 0x07 | 0x08 => some (true, true, true)
  | 0x09 => some (false, false, true)
  | 0x0A => some (true, true, true)
  | 0x0B => some (false, true, true)
  | 0x0C => some (false, true, false)
  | 0x0D => some (false, true, true)
  | 0x10 | 0x11 | 0x12 | 0x13 | 0x16 => some (false, false, true)
  | 0x14 | 0x15 | 0x17 => some (true, false, true)
  | _ => none

def srOk (k : DCtx) (n : Nat) : Bool :=
  match srInfo n with
  | some (_, c, f) => if k.stream = .cox then c else f
  | none => false

def srWide (n : Nat) : Bool :=
  match srInfo n with
  | some (w, _, _) => w
  | none => false

/-- Bytes of an A or B element (Table 19-3). -/
def AFmt.size : AFmt → Nat
  | .bf16 => 2
  | _ => 1

/-- Format pairs of Table 19-3 with B in registers. -/
def AFmt.pairs : AFmt → AFmt → Bool
  | .bf16, .bf16 => true
  | .bf16, _ => false
  | _, .bf16 => false
  | _, _ => true

def CvtTy.isInt : CvtTy → Bool
  | .f32 | .f16 | .bf16 | .e4m3 | .e5m2 => false
  | _ => true

/-- The number of elements of a type in a register (R63); 1 for 32- and 64-bit types, and 2 for 16-bit integers, which R63 does not
list (log 32, DEDUCED). -/
def CvtTy.elems : CvtTy → Nat
  | .i8 | .n8 | .e4m3 | .e5m2 => 4
  | .i16 | .n16 | .f16 | .bf16 => 2
  | _ => 1

def CvtTy.wide : CvtTy → Bool
  | .i64 | .n64 => true
  | _ => false

namespace WF

/-- `n` V registers from a multiple of `al`, below W; one S register below 64 in the cox stream (R12, R81). -/
def reg (k : DCtx) (n al : Nat) (r : RegNo) : Bool :=
  match k.stream with
  | .cox => r.toNat < 64
  | .fibre => r.toNat % al == 0 && r.toNat + n ≤ k.w

/-- `n` S registers from a multiple of `al` (R81). -/
def sreg (n al : Nat) (r : RegNo) : Bool := r.toNat % al == 0 && r.toNat + n ≤ 64

/-- One register, or a pair for a 64-bit value. -/
def wide (k : DCtx) (b : Bool) (r : RegNo) : Bool := if b then reg k 2 2 r else reg k 1 1 r

/-- A guard in the fibre stream only (R85), and a lookahead count on long-latency forms only (R86). -/
def hd (k : DCtx) (long : Bool) (h : Hd) : Bool :=
  (k.stream = .fibre || (h.pg = 0 && !h.pn)) && (long || h.la = 0)

def both (k : DCtx) (long : Bool) (h : Hd) : Bool := hd k long h
def fib (k : DCtx) (long : Bool) (h : Hd) : Bool := k.stream = .fibre && hd k long h
def cox (k : DCtx) (long : Bool) (h : Hd) : Bool := k.stream = .cox && hd k long h
def prv (k : DCtx) (long : Bool) (h : Hd) : Bool := k.priv && cox k long h

def src (k : DCtx) (n al : Nat) : Src → Bool
  | .reg r => reg k n al r
  | _ => true

def srcW (k : DCtx) (b : Bool) : Src → Bool
  | .reg r => wide k b r
  | _ => true

def fsrc (k : DCtx) : FSrc → Bool
  | .reg r => reg k 1 1 r
  | _ => true

/-- A predicate operand: P in the fibre stream, an S register in the cox stream (R212). -/
def pred (k : DCtx) (r : RegNo) : Bool :=
  match k.stream with
  | .cox => r.toNat < 64
  | .fibre => r.toNat < 8

def label (k : DCtx) (t : W32) : Bool := t.toNat % 4 == 0 && t.toNat < k.extent

def iun (k : DCtx) (o : IUn) : Bool := wide k o.ty.is64 o.d && wide k o.ty.is64 o.a
def ibin (k : DCtx) (o : IBin) : Bool :=
  wide k o.ty.is64 o.d && wide k o.ty.is64 o.a && srcW k o.ty.is64 o.b
/-- The forms with no saturating variant. -/
def ibin' (k : DCtx) (o : IBin) : Bool := !o.sat && ibin k o
def itri (k : DCtx) (o : ITri) : Bool :=
  wide k o.ty.is64 o.d && wide k o.ty.is64 o.a && wide k o.ty.is64 o.b && srcW k o.ty.is64 o.c
def b64 : BW → Bool
  | .b32 => false
  | .b64 => true
def bun (k : DCtx) (o : BUn) : Bool := wide k (b64 o.bw) o.d && wide k (b64 o.bw) o.a
def bun32 (k : DCtx) (o : BUn) : Bool := reg k 1 1 o.d && wide k (b64 o.bw) o.a
def bbin (k : DCtx) (o : BBin) : Bool := wide k (b64 o.bw) o.d && wide k (b64 o.bw) o.a && srcW k (b64 o.bw) o.b
def shift (k : DCtx) (o : IBin) : Bool :=
  !o.sat && wide k o.ty.is64 o.d && wide k o.ty.is64 o.a && src k 1 1 o.b
def r1 (k : DCtx) (r : RegNo) : Bool := reg k 1 1 r
def r2 (k : DCtx) (r : RegNo) : Bool := reg k 2 2 r
def fbin (k : DCtx) (o : FBin) : Bool := r1 k o.d && r1 k o.a && fsrc k o.b
def fun1 (k : DCtx) (o : FUn) : Bool := r1 k o.d && r1 k o.a
def hbin (k : DCtx) (o : HBin) : Bool := r1 k o.d && r1 k o.a && r1 k o.b
def cbin (k : DCtx) (o : CBin) : Bool := r2 k o.d && r2 k o.a && r2 k o.b
def isReg : FSrc → Bool
  | .reg _ => true
  | _ => false

/-- The data registers of a load: `.b128` is reserved in the cox stream (R274). -/
def ldd (k : DCtx) (z : LdSz) (r : RegNo) : Bool :=
  match z with
  | .b64 => r2 k r
  | .b128 => k.stream = .fibre && reg k 4 4 r
  | _ => r1 k r
def std (k : DCtx) (z : StSz) (r : RegNo) : Bool :=
  match z with
  | .b64 => r2 k r
  | .b128 => k.stream = .fibre && reg k 4 4 r
  | _ => r1 k r
def hsd (k : DCtx) (z : HSz) (r : RegNo) : Bool :=
  match z with
  | .b32 => r1 k r
  | .b64 => r2 k r
  | .b128 => k.stream = .fibre && reg k 4 4 r

/-- SCOPE is `.core`, code 0, when no flag is set (R273). -/
def ord (o : Ord) : Bool := o.acq || o.rel || o.scope = .core
/-- Eddy commands take no scope below `.die` with a flag (R389). -/
def edOrd (o : Ord) : Bool := ord o && (!(o.acq || o.rel) || (o.scope ≠ .core && o.scope ≠ .clu))
/-- Link commands take `.dev` and `.sys` with a flag (R414). -/
def lkOrd (o : Ord) : Bool := ord o && (!(o.acq || o.rel) || o.scope = .dev || o.scope = .sys)

/-- The bitwise atomics take the unsigned widths only (R288). -/
def bitTy : IntTy → Bool
  | .n32 => true
  | .n64 => true
  | _ => false

def atops (k : DCtx) (o : AtOps) : Bool := ord o.o && wide k o.ty.is64 o.d && r2 k o.a && wide k o.ty.is64 o.b
def atcas (k : DCtx) (o : AtOps) : Bool :=
  ord o.o && bitTy o.ty && wide k o.ty.is64 o.d && r2 k o.a &&
  (match k.stream with
   | .cox => sreg 2 (if o.ty.is64 then 4 else 2) o.b
   | .fibre => if o.ty.is64 then reg k 4 4 o.b else r2 k o.b)
def atfops (k : DCtx) (o : AtFOps) : Bool := ord o.o && r1 k o.d && r2 k o.a && r1 k o.b
def mred (k : DCtx) (ty : IntTy) (o : Ord) (a b : RegNo) : Bool := ord o && r2 k a && wide k ty.is64 b

def count (k : DCtx) : Count → Bool
  | .reg a => r1 k a
  | .imm _ => true

def gbarOk (k : DCtx) (b : Nat) : Bool := k.gbar.getLsbD b

/-- A barrier number of a level (R190). -/
def level (k : DCtx) (l : Level) (b : BitVec 4) : Bool :=
  match l with
  | .blk => true
  | .clu => b.toNat < 8
  | .grid => b.toNat < 4 && gbarOk k b.toNat

def rel (k : DCtx) (r : BitVec 3) : Bool := r.toNat < k.rels.length
def relInfo (k : DCtx) (r : Nat) : RelInfo := (k.rels[r]?).getD ⟨false, false, [], [], []⟩

/-- `mma` (R341–R347, Table 19-4). -/
def mma (k : DCtx) (o : MmaOps) : Bool :=
  let e := o.afmt.size
  let kk := if o.k64 then 64 else 32
  let n := if o.pair then 96 else 48
  let bf := o.afmt = .bf16
  reg k (kk * e) 1 o.a && (if o.th then r2 k o.b else reg k (n * kk * e / 128) 1 o.b) &&
  (if o.sa then r2 k o.c else o.c = 0) && (!o.sb || o.th) && !(bf && (o.sa || o.sb)) &&
  (if o.th then o.bfmt = o.afmt else AFmt.pairs o.afmt o.bfmt) &&
  o.nx.toNat ≤ n && o.kb.toNat ≤ kk / 32

end WF

/-- Well-formedness of an instruction in a context. Events have no operands to check. -/
def Instr.wf (k : DCtx) : Instr → Bool
  | .nop h | .nopW12 h | .nopW16 h => WF.both k false h
  | .bra h t => WF.both k false h && WF.label k t
  | .braZ h a t | .braNz h a t => WF.both k false h && WF.r1 k a && WF.label k t
  | .braAny h _ t | .braAll h _ t => WF.fib k false h && WF.label k t
  | .call h d t => WF.both k false h && WF.r1 k d && WF.label k t
  | .callR h d a => WF.both k false h && WF.r1 k d && WF.r1 k a
  | .ret h a => WF.both k false h && WF.r1 k a
  | .brx h a n t => WF.both k false h && WF.r1 k a && t.toNat % 32 == 0 && t.toNat + 32 * n.toNat < k.extent
  | .spawn h d a n t => WF.fib k false h && WF.r1 k d && (if n = 0 then a = 0 else WF.reg k n.toNat 1 a) && WF.label k t
  | .exit h => WF.fib k false h
  | .kill h d a => WF.fib k false h && WF.r1 k d && WF.r1 k a
  | .renter h r | .rleave h r => WF.fib k false h && WF.rel k r
  | .rjoin h r t => WF.fib k true h && WF.rel k r && (WF.relInfo k r.toNat).join && WF.label k t
  | .rfold h r => WF.fib k true h && WF.rel k r
  | .matchAny h b d a => WF.fib k false h && WF.r1 k d && WF.wide k b a
  | .matchAll h b _ a => WF.fib k false h && WF.wide k b a
  | .rprobe h d a r => WF.fib k false h && WF.r1 k d && WF.rel k r && WF.wide k (WF.relInfo k r.toNat).pairKey a
  | .compact h _ | .regroup h _ => WF.fib k true h
  | .regroupKey h b a _ => WF.fib k true h && WF.wide k b a
  | .add h o | .sub h o => WF.both k false h && WF.ibin k o
  | .neg h o | .abs h o => WF.both k false h && WF.iun k o
  | .min h o | .max h o | .mul h o | .mulhi h o => WF.both k false h && WF.ibin' k o
  | .mulwide h o => WF.both k false h && !o.sat && !o.ty.is64 && WF.r2 k o.d && WF.r1 k o.a && WF.src k 1 1 o.b
  | .mad h o => WF.both k false h && WF.itri k o
  | .div h o | .rem h o => WF.both k true h && WF.ibin' k o
  | .and h o | .or h o | .xor h o | .andn h o => WF.both k false h && WF.bbin k o
  | .not h o | .brev h o => WF.both k false h && WF.bun k o
  | .shl h o | .shr h o | .bfe h o => WF.both k false h && WF.shift k o
  | .setp h _ o => WF.both k false h && !o.sat && WF.pred k o.d && WF.wide k o.ty.is64 o.a && WF.srcW k o.ty.is64 o.b
  | .sel h ty d a b c =>
    WF.both k false h && WF.wide k ty.is64 d && WF.wide k ty.is64 a && WF.wide k ty.is64 b && WF.pred k c
  | .plog h _ _ _ _ => WF.fib k false h
  | .popc h o | .clz h o | .ctz h o => WF.both k false h && WF.bun32 k o
  | .bfi h o => WF.both k false h && WF.bitTy o.ty && WF.wide k o.ty.is64 o.d && WF.wide k o.ty.is64 o.a &&
      WF.wide k o.ty.is64 o.b && WF.src k 1 1 o.c
  | .mov h ty d a => WF.both k false h && WF.wide k ty.is64 d && WF.srcW k ty.is64 a
  | .movx h d _ => WF.both k false h && WF.r2 k d
  | .addF32 h o | .subF32 h o | .mulF32 h o => WF.fib k false h && WF.fbin k o
  | .fmaF32 h o c => WF.fib k false h && WF.fbin k o && WF.isReg o.b && WF.fsrc k c
  | .addF16 h o | .subF16 h o | .mulF16 h o => WF.fib k false h && WF.hbin k o
  | .fmaF16 h o c => WF.fib k false h && WF.hbin k o && WF.r1 k c
  | .minF32 h _ d a b | .maxF32 h _ d a b => WF.fib k false h && WF.r1 k d && WF.r1 k a && WF.fsrc k b
  | .setpF32 h _ _ a b => WF.fib k false h && WF.r1 k a && WF.fsrc k b
  | .classF32 h d a => WF.fib k false h && WF.r1 k d && WF.r1 k a
  | .divF32 h o => WF.fib k true h && WF.fbin k o
  | .sqrtF32 h o | .rcpF32 h o | .rsqrtF32 h o => WF.fib k true h && WF.fun1 k o
  | .caddC64 h o | .cmulC64 h o => WF.fib k false h && WF.cbin k o
  | .cfmaC64 h o c => WF.fib k false h && WF.cbin k o && WF.r2 k c
  | .cvt h _ sat el dt ft d a => WF.fib k false h && WF.wide k dt.wide d && WF.wide k ft.wide a &&
      el.toNat < ft.elems && (!sat || dt = .e5m2 || (dt.isInt && ft.isInt))
  | .prmt h d a b c => WF.fib k false h && WF.r1 k d && WF.r1 k a && WF.r1 k b && WF.fsrc k c
  | .packF16 h _ _ d a b => WF.fib k false h && WF.r1 k d && WF.r1 k a && WF.r1 k b
  | .packF8 h ty sat _ d a b => WF.fib k false h && WF.r1 k d && WF.r2 k a && WF.r2 k b && (!sat || ty = .e5m2)
  | .unpack h ty d a => WF.fib k false h && WF.r1 k a && (match ty with
      | .f16 | .bf16 => WF.r2 k d
      | _ => WF.reg k 4 4 d)
  | .mxq h _ d a => WF.fib k false h && WF.r1 k d && WF.r1 k a
  | .mxw h _ d a b => WF.fib k false h && WF.r1 k d && WF.r1 k a && WF.r1 k b
  | .shflIdx h w d a b | .shflUp h w d a b | .shflDown h w d a b | .shflXor h w d a b =>
    WF.fib k false h && WF.wide k w d && WF.wide k w a && WF.fsrc k b
  | .red h _ d a | .scan h _ d a | .scanx h _ d a => WF.fib k false h && WF.r1 k d && WF.r1 k a
  | .qxH h w d a | .qxV h w d a | .qxD h w d a => WF.fib k false h && WF.wide k w d && WF.wide k w a
  | .qbc h w d a _ => WF.fib k false h && WF.wide k w d && WF.wide k w a
  | .ballot h d _ | .pfxpop h d _ => WF.fib k false h && WF.r1 k d
  | .conf h w d a => WF.fib k false h && WF.r1 k d && WF.wide k w a
  | .confFirst h w _ a => WF.fib k false h && WF.wide k w a
  | .bpcnt h d a b _ | .bpmatch h d a b _ => WF.fib k false h && WF.r1 k d && WF.r1 k a && WF.r1 k b
  | .mvWt h o => WF.fib k true h && WF.reg k (o.m1.toNat + 1) 1 o.d && WF.reg k (o.k1.toNat + 1) 1 o.a && WF.r1 k o.b
  | .ld h _ z d a _ => WF.both k true h && WF.ldd k z d && WF.r2 k a
  | .st h _ z a b _ => WF.both k true h && WF.r2 k a && WF.std k z b
  | .stTag h _ z d a b _ => WF.both k true h && WF.r1 k d && WF.r2 k a && WF.std k z b
  | .ldc h z d a _ => WF.both k true h && WF.ldd k z d && WF.r1 k a
  | .cpa h o t a b c => WF.both k true h && WF.ord o && WF.r1 k t && WF.r2 k a && WF.r2 k b && WF.r1 k c
  | .cpaReg h o t a b c n =>
    WF.fib k true h && WF.ord o && WF.r1 k t && WF.r2 k a && WF.r1 k b && WF.reg k (n.toNat + 1) 1 c
  | .gth h o => WF.fib k true h && WF.ldd k o.sz o.r && WF.r2 k o.a
  | .sct h o => WF.fib k true h && WF.std k o.sz o.r && WF.r2 k o.a
  | .gthx h o => WF.fib k true h && WF.ldd k o.sz o.r && WF.r2 k o.a && WF.r1 k o.b
  | .sctx h o => WF.fib k true h && WF.std k o.sz o.r && WF.r2 k o.a && WF.r1 k o.b
  | .cst h w _ d a b _ => WF.fib k true h && WF.r2 k d && WF.r2 k a && WF.wide k w b
  | .embpool h d a b c n => WF.both k true h && WF.r2 k d && WF.r2 k a && (match k.stream with
      | .cox => WF.sreg (n.toNat + 1) 1 b && WF.sreg (n.toNat + 1) 1 c
      | .fibre => WF.reg k (n.toNat + 1) 1 b && WF.reg k (n.toNat + 1) 1 c)
  | .embsw h _ d a b => WF.both k true h && WF.r1 k d && WF.r2 k a && (match k.stream with
      | .cox => WF.sreg 4 4 b
      | .fibre => WF.reg k 8 8 b)
  | .atomAdd h o | .atomMin h o | .atomMax h o => WF.both k true h && WF.atops k o
  | .atomAnd h o | .atomOr h o | .atomXor h o | .atomExch h o => WF.both k true h && WF.atops k o && WF.bitTy o.ty
  | .atomCas h o => WF.both k true h && WF.atcas k o
  | .atomAddF32 h o => WF.fib k true h && WF.atfops k o && !o.num
  | .atomMinF32 h o | .atomMaxF32 h o => WF.fib k true h && WF.atfops k o
  | .mredAdd h ty o a b _ | .mredMin h ty o a b _ | .mredMax h ty o a b _ => WF.both k true h && WF.mred k ty o a b
  | .mredAnd h ty o a b _ | .mredOr h ty o a b _ | .mredXor h ty o a b _ =>
    WF.both k true h && WF.mred k ty o a b && WF.bitTy ty
  | .mredAddF32 h o a b _ => WF.both k true h && WF.ord o && WF.r2 k a && WF.r1 k b
  | .mredMinF32 h _ o a b _ | .mredMaxF32 h _ o a b _ => WF.both k true h && WF.ord o && WF.r2 k a && WF.r1 k b
  | .fenceRel h _ | .fenceAcq h _ | .fenceSc h _ | .fenceEng h _ => WF.both k false h
  | .fenceAck h => WF.both k false h
  | .barSync h _ d _ c => WF.both k false h && WF.pred k d && WF.count k c
  | .barArrive h _ d _ c => WF.both k false h && WF.r1 k d && WF.count k c
  | .barWait h _ d a _ => WF.both k false h && WF.pred k d && WF.r1 k a
  | .cbarSync h _ d _ c => WF.both k false h && WF.pred k d && WF.count k c
  | .cbarArrive h _ d _ c => WF.both k false h && WF.r1 k d && WF.count k c
  | .cbarWait h _ d a _ => WF.both k false h && WF.pred k d && WF.r1 k a
  | .gbarSync h _ d b c => WF.both k false h && WF.pred k d && WF.count k c && WF.gbarOk k b.toNat
  | .gbarArrive h _ d b c => WF.both k false h && WF.r1 k d && WF.count k c && WF.gbarOk k b.toNat
  | .gbarWait h _ d a b => WF.both k false h && WF.pred k d && WF.r1 k a && WF.gbarOk k b.toNat
  | .barinit h l a b => WF.cox k false h && WF.r1 k a && WF.level k l b
  | .barinv h l b => WF.cox k false h && WF.level k l b
  | .rjset h _ | .rjw h _ => WF.fib k false h
  | .qbind h d a _ _ => WF.both k false h && WF.r1 k d && WF.r1 k a
  | .qunbind h d _ => WF.both k false h && WF.r1 k d
  | .qpush h w _ a => WF.both k false h && WF.wide k w a && (k.stream = .fibre || !w)
  | .qpop h w bc d _ => WF.both k true h && WF.wide k w d && (k.stream = .fibre || (!w && !bc))
  | .qdrain h d _ => WF.both k true h && WF.r1 k d
  | .dqPush h a => WF.cox k false h && WF.r1 k a
  | .dqPop h w d | .dqPopf h w d => WF.fib k true h && WF.wide k w d
  | .hrecv h _ d _ => WF.cox k true h && WF.r1 k d
  | .mma h o => WF.fib k true h && WF.mma k o
  | .zzero h _ => WF.fib k true h
  | .zld h _ a b => WF.fib k true h && WF.r2 k a && WF.r1 k b
  | .zst h a _ b => WF.fib k true h && WF.r2 k a && WF.r1 k b
  | .zrd h d _ j => WF.fib k true h && WF.reg k 16 16 d && j.toNat < 24
  | .plse h _ _ d => WF.both k true h && WF.r1 k d
  | .plrl h d => WF.both k true h && WF.r1 k d
  | .scinv h => WF.both k false h
  | .scpf h a n => WF.both k false h && WF.r2 k a && n ≠ 0
  | .zq h _ a _ c => WF.both k true h && WF.r2 k a && WF.r2 k c
  | .cbcfg h d a b => WF.cox k false h && WF.r1 k d && WF.r1 k a && WF.r1 k b
  | .cbclr h d | .cbrel h d | .cbstat h d => WF.cox k false h && WF.r1 k d
  | .cbpush h d a => WF.fib k true h && WF.r1 k d && WF.r1 k a
  | .cbmerge h d => WF.both k true h && WF.r1 k d
  | .cbrd h sum d a => WF.both k true h && WF.r1 k d && WF.r1 k a && (k.stream = .fibre || !sum)
  | .cbsave h d a | .cbrest h d a => WF.both k true h && WF.r1 k d && WF.r2 k a
  | .edgate h o k1 d a b _ => WF.fib k true h && WF.edOrd o && k1 ≠ 3 && WF.r1 k d &&
      WF.reg k (2 * 4 ^ (k1.toNat + 1)) 2 a && WF.r1 k b
  | .edmeas h o d a _ => WF.fib k true h && WF.edOrd o && WF.r2 k d && WF.r1 k a
  | .ednorm h o d _ => WF.fib k true h && WF.edOrd o && WF.r1 k d
  | .edmapInit h d a _ => WF.both k true h && WF.r1 k d && WF.r2 k a
  | .edmapRd h d a _ | .edmapWr h d a _ | .edswap h d a _ => WF.both k true h && WF.r1 k d && WF.r1 k a
  | .edmapFree h d _ => WF.both k true h && WF.r1 k d
  | .edsync h s _ => WF.both k true h && s ≠ .core && s ≠ .clu
  | .collRed h o d a | .collRs h o d a | .collAg h o d a | .collBc h o d a | .xdisp h o d a | .xfix h o d a =>
    WF.both k true h && WF.lkOrd o && WF.r1 k d && WF.r2 k a
  | .lkst h d a => WF.cox k false h && WF.r1 k d && WF.r1 k a
  | .lkctlUp h d a b | .lkctlDown h d a b | .lkctlRxbuf h d a b | .lkctlPost h d a b | .lkctlClr h d a b =>
    WF.cox k false h && WF.r1 k d && WF.r1 k a && WF.r1 k b
  | .srd h d n => WF.both k false h && srOk k n.toNat && WF.wide k (srWide n.toNat) d
  | .swr h a n => WF.both k false h && srOk k n.toNat && WF.wide k (srWide n.toNat) a
  | .xvec h t => WF.both k false h && WF.label k t
  | .xvecClr h | .yield h => WF.both k false h
  | .xret h | .xretSkip h => WF.fib k false h
  | .xlat h d a => WF.both k true h && WF.r2 k d && WF.r2 k a
  | .tinv h _ d a b => WF.cox k true h && WF.r1 k d && WF.r1 k a && WF.r1 k b
  | .htab h d a b => WF.cox k true h && WF.r1 k d && WF.r1 k a && WF.r1 k b
  | .hinv h _ d a => WF.cox k true h && WF.r1 k d && WF.r1 k a
  | .hld h z d a b => WF.both k true h && WF.hsd k z d && WF.r2 k a && WF.r1 k b
  | .hst h z a b c => WF.both k true h && WF.r2 k a && WF.r1 k b && WF.hsd k z c
  | .launch h _ d a b => WF.cox k true h && WF.r1 k d && WF.r1 k a && WF.r1 k b
  | .walkInit h a b c => WF.cox k true h && WF.r1 k a && WF.r1 k b && WF.r1 k c
  | .walkNext h d => WF.cox k true h && WF.r1 k d
  | .stgq h d _ => WF.cox k false h && WF.r1 k d
  | .stgres h a _ => WF.cox k false h && WF.r1 k a
  | .kend h => WF.cox k false h
  | .ctxctlCreate h d a b | .ctxctlStart h d a b | .ctxctlStop h d a b | .ctxctlResume h d a b
  | .ctxctlKill h d a b | .ctxctlFree h d a b | .ctxctlReflect h d a b =>
    WF.prv k true h && WF.r1 k d && WF.r1 k a && WF.r1 k b
  | .ctxsave h d a b c => WF.prv k true h && WF.r1 k d && WF.r1 k a && WF.r1 k b && WF.r1 k c
  | .ctxrest h d a b | .ptroot h d a b => WF.prv k true h && WF.r1 k d && WF.r1 k a && WF.r1 k b
  | .frpop h d => WF.prv k false h && WF.sreg 4 4 d
  | .bgset h _ a b => WF.prv k false h && WF.r1 k a && WF.r1 k b
  | .bgrd h _ d a => WF.prv k false h && WF.r1 k d && WF.r1 k a
  | .ctxprio h a b => WF.prv k false h && WF.r1 k a && WF.r1 k b
  | .joinEmit _ _ _ | .foldCombine _ _ _ | .compactClose _ _ _ | .regroupClose _ _ _ | .pageWalk _ _ _
  | .migRewalk _ _ _ | .loadReturn _ _ | .collectorSend _ _ | .homeSliceWrite _ _ | .homeSliceAtomic _ _
  | .copyPerform _ | .enginePortTake _ _ _ | .resultEnter _ _ _ | .stageQueueTake _ _ _ | .stageSpawn _ _ _
  | .commandMessageArrive _ | .groupForm _ _ | .recordAssign _ _ | .partReturn _ _ _ _ | .fairnessExpiry _ _ _
  | .swapOut _ _ _ | .windowGrant _ _ _ | .stuckBlock _ _ | .leaseGrant _ | .quantiserCommand _
  | .copyPortCommand _ | .collectorPrefetch _ | .bankArrival _ | .overflowRecordEnter _ | .bankPushCommand _
  | .bankMergeCommand _ | .eddyCommandExecute _ _ | .eddySwapLand _ _ _ _ | .portRed _ | .portRs _ | .portAg _
  | .portBc _ | .portXdisp _ | .portXfix _ | .collectiveBlockArrive _ _ _ _ | .rmaWrite _ | .rmaRead _
  | .registerWindow _ | .releaseWindow _ | .uePacketReceive _ | .flitReceive _ _ | .replay _ | .portTrained _ _
  | .trainingTimeout _ | .portFail _ | .remoteRequest _ | .remoteReply _ _ _ | .destinationLost _
  | .drainComplete _ | .faultRecordPost _ | .strokeBoundary _ | .becalm _ | .wake _ | .placementTurn
  | .blockComplete _ _ | .completionRecordWrite _ _ | .powerOnReset | .firmwareImageRead _
  | .trainingComplete _ _ _ | .attestationChallenge _ | .thermalTrip _ | .thermalThrottle _ | .thermalRecover _
  | .powerLimitWindow _ | .mgpwrWrite _ | .mgpinWrite _ _ | .mgpopWrite | .managementWriteOther _ | .dieLost _ => true

end Sys2Proof
end

