-- ==== Sys2Proof/Decode.lean ====
section
/-! DEFINITION. Decoding and encoding (R79–R96, R429 and each chapter's encoding table): from bytes to an
instruction or the failing check of Table 4-5, and from an instruction to its words. -/

namespace Sys2Proof

/-- The fields of Table 4-1 with the upper bits: IMM32 in the low word of `ext` for a 96-bit form,
EXT for a 128-bit form, zero for a 64-bit form (R80). -/
structure Fields where
  len : BitVec 2
  opc : BitVec 8
  la : BitVec 4
  pg : BitVec 3
  pn : BitVec 1
  d : BitVec 8
  a : BitVec 8
  b : BitVec 8
  c : BitVec 8
  mod : BitVec 8
  sub : BitVec 6
  ext : BitVec 64
  deriving DecidableEq, Repr

/-- Table 4-1 read from a base word. -/
def Fields.ofWord (w ext : BitVec 64) : Fields where
  len := w.extractLsb' 0 2
  opc := w.extractLsb' 2 8
  la := w.extractLsb' 10 4
  pg := w.extractLsb' 14 3
  pn := w.extractLsb' 17 1
  d := w.extractLsb' 18 8
  a := w.extractLsb' 26 8
  b := w.extractLsb' 34 8
  c := w.extractLsb' 42 8
  mod := w.extractLsb' 50 8
  sub := w.extractLsb' 58 6
  ext := ext

/-- Table 4-1 written as a base word. -/
def Fields.base (f : Fields) : BitVec 64 :=
  f.sub ++ f.mod ++ f.c ++ f.b ++ f.a ++ f.d ++ f.pn ++ f.pg ++ f.la ++ f.opc ++ f.len

/-- The IMM32 of a 96-bit form (R80). -/
def Fields.imm (f : Fields) : BitVec 32 := f.ext.truncate 32

/-- A failing check of Table 4-5, with its FIELD code where it has one. -/
inductive DTrap where
  | malformed
  | illegal (field : Nat)
  | privilege
  deriving DecidableEq, Repr

/-- What a register field holds (Table 4-2): nothing (reserved), an immediate with the given bits
reserved, `n` V registers from a multiple of `al` (one S register in the cox stream), `n` S registers
from a multiple of `al`, or one register of another kind. -/
inductive FK where
  | none
  | imm (resv : BitVec 8)
  | v (n al : Nat)
  | s (n al : Nat)
  | p
  | j
  | z
  | q
  deriving DecidableEq, Repr

/-- The analysis of a form for one instruction: its lengths, its field kinds, and which fields hold a
reserved bit or value (Table 4-5, checks 8 and 10). -/
structure Ana where
  lens : List (BitVec 2) := [0]
  d : FK := .none
  a : FK := .none
  b : FK := .none
  c : FK := .none
  dOk : Bool := true
  aOk : Bool := true
  bOk : Bool := true
  cOk : Bool := true
  modOk : Bool := true
  immOk : Bool := true
  extOk : Bool := true
  implied : List Nat := []
  impliedZ : List Nat := []
  deriving DecidableEq, Repr

/-! ### Typed modifier codes -/

def Fields.m (f : Fields) (i : Nat) : Bool := f.mod.getLsbD i

/-- RND of MOD[1:0] (R82). -/
def rndOf (x : BitVec 2) : Rnd :=
  if x = 0 then .rne else if x = 1 then .rz else if x = 2 then .ru else .rd

def Fields.rnd (f : Fields) : Rnd := rndOf (f.mod.extractLsb' 0 2)

/-- SCOPE codes of R82; 5–7 are reserved. -/
def scopeOf (x : BitVec 3) : Option Scope :=
  if x = 0 then some .core else if x = 1 then some .clu else if x = 2 then some .die
  else if x = 3 then some .dev else if x = 4 then some .sys else none

/-- TY codes of Table 10-1. -/
def tyOf (x : BitVec 2) : IntTy :=
  if x = 0 then .i32 else if x = 1 then .n32 else if x = 2 then .i64 else .n64

def Fields.ty (f : Fields) : IntTy := tyOf (f.mod.extractLsb' 2 2)

/-- The bitwise widths: TY codes 1 and 3 (R210, R214). -/
def bwOf : IntTy → Option BW
  | .n32 => some .b32
  | .n64 => some .b64
  | _ => none

/-- Load size codes of Table 13-2. -/
def ldSzOf (x : BitVec 3) : Option LdSz :=
  if x = 0 then some .n8 else if x = 1 then some .i8 else if x = 2 then some .n16
  else if x = 3 then some .i16 else if x = 4 then some .b32 else if x = 5 then some .b64
  else if x = 6 then some .b128 else none

/-- Store size codes of Table 13-2. -/
def stSzOf (x : BitVec 3) : Option StSz :=
  if x = 0 then some .b8 else if x = 2 then some .b16 else if x = 4 then some .b32
  else if x = 5 then some .b64 else if x = 6 then some .b128 else none

/-- Registers and alignment of a load's data (R274). -/
def LdSz.fk : LdSz → FK
  | .b64 => .v 2 2
  | .b128 => .v 4 4
  | _ => .v 1 1

def StSz.fk : StSz → FK
  | .b64 => .v 2 2
  | .b128 => .v 4 4
  | _ => .v 1 1

/-- Integer conditions (Table 10-3). -/
def iccOf (x : BitVec 3) : Option ICc :=
  if x = 0 then some .eq else if x = 1 then some .ne else if x = 2 then some .lt
  else if x = 3 then some .le else if x = 4 then some .gt else if x = 5 then some .ge else none

/-- Floating conditions (Table 10-3). -/
def fccOf (x : BitVec 3) : FCc :=
  if x = 0 then .eq else if x = 1 then .ne else if x = 2 then .lt else if x = 3 then .le
  else if x = 4 then .gt else if x = 5 then .ge else if x = 6 then .nan else .num

/-- Predicate operations (Table 10-3). -/
def plogOf (x : BitVec 2) : PlogOp :=
  if x = 0 then .and else if x = 1 then .or else if x = 2 then .xor else .andn

/-- Conversion types (Table 10-5). -/
def cvtOf (x : BitVec 4) : Option CvtTy :=
  match x.toNat with
  | 0 => some .i8 | 1 => some .n8 | 2 => some .i16 | 3 => some .n16 | 4 => some .i32 | 5 => some .n32
  | 6 => some .i64 | 7 => some .n64 | 8 => some .f32 | 9 => some .f16 | 10 => some .bf16
  | 11 => some .e4m3 | 12 => some .e5m2 | _ => none

def CvtTy.fk : CvtTy → FK
  | .i64 | .n64 => .v 2 2
  | _ => .v 1 1

/-- Reduction operations from op, TY and RND (R226); reserved combinations give none. -/
def redOf (op : BitVec 3) (ty rnd : BitVec 2) : Option RedOp :=
  let r0 := rnd = 0
  if op = 0 then (if ty = 0 && r0 then some .addI else if ty = 1 && r0 then some .addN
    else if ty = 2 then some (.addF (rndOf rnd)) else none)
  else if op = 1 then (if ty = 0 && r0 then some .minI else if ty = 1 && r0 then some .minN
    else if ty = 2 && r0 then some .minF else none)
  else if op = 2 then (if ty = 0 && r0 then some .maxI else if ty = 1 && r0 then some .maxN
    else if ty = 2 && r0 then some .maxF else none)
  else if ty = 1 && r0 then
    (if op = 3 then some .andB else if op = 4 then some .orB else if op = 5 then some .xorB else none)
  else none

def Fields.red (f : Fields) : Option RedOp :=
  redOf (f.mod.extractLsb' 4 3) (f.mod.extractLsb' 2 2) (f.mod.extractLsb' 0 2)

def reuseOf (x : BitVec 2) : Reuse :=
  if x = 0 then .normal else if x = 1 then .stream else if x = 2 then .keep else .bypass

def f16Of (b : Bool) : F16Ty := if b then .bf16 else .f16
def f8Of (b : Bool) : F8Ty := if b then .e5m2 else .e4m3

def unpackOf (x : BitVec 2) : UnpackTy :=
  if x = 0 then .f16 else if x = 1 then .bf16 else if x = 2 then .e4m3 else .e5m2

/-- Registers and alignment `unpack` writes (R222). -/
def UnpackTy.fk : UnpackTy → FK
  | .f16 | .bf16 => .v 2 2
  | _ => .v 4 4

def levelOf (x : BitVec 2) : Option Level :=
  if x = 0 then some .blk else if x = 1 then some .clu else if x = 2 then some .grid else none

def hszOf (x : BitVec 2) : Option HSz :=
  if x = 0 then some .b32 else if x = 1 then some .b64 else if x = 2 then some .b128 else none

def HSz.fk : HSz → FK
  | .b32 => .v 1 1
  | .b64 => .v 2 2
  | .b128 => .v 4 4

/-- Budget classes (Table 5-4); 10–15 are reserved. -/
def bclassOf (x : BitVec 4) : Option BClass :=
  match x.toNat with
  | 0 => some .grp | 1 => some .cox | 2 => some .mma | 3 => some .bank | 4 => some .eddy
  | 5 => some .coll | 6 => some .copy | 7 => some .hbm | 8 => some .far | 9 => some .flit | _ => none

def afmtOf (x : BitVec 3) : Option AFmt :=
  if x = 0 then some .e4m3 else if x = 1 then some .e5m2 else if x = 2 then some .bf16 else none

/-- SCOPE with its flags: SCOPE must be 0 when no flag is set (R273). -/
def ordOf (acq rel : Bool) (sc : BitVec 3) : Option Ord :=
  if acq || rel then (scopeOf sc).map fun s => { acq := acq, rel := rel, scope := s }
  else if sc = 0 then some {} else none

/-- The acquire or release modifier of a single access (R273). -/
def flagOf (on : Bool) (sc : BitVec 3) : Option (Option Scope) :=
  if on then (scopeOf sc).map some else if sc = 0 then some none else none

/-- Flags of the Eddy forms: only `.die`, `.dev` and `.sys` with a flag (R389). -/
def edOrdOf (f : Fields) : Option Ord :=
  match ordOf (f.m 4) (f.m 3) (f.mod.extractLsb' 0 3) with
  | some o => if (o.acq || o.rel) && (o.scope = .core || o.scope = .clu) then none else some o
  | none => none

/-- Flags of the link forms: only `.dev` and `.sys` with a flag (R414). -/
def lkOrdOf (f : Fields) : Option Ord :=
  match ordOf (f.m 3) (f.m 4) (f.mod.extractLsb' 0 3) with
  | some o => if (o.acq || o.rel) && o.scope ≠ .dev && o.scope ≠ .sys then none else some o
  | none => none

/-- Flags of the copy forms (Table 13-1). -/
def cpOrdOf (f : Fields) : Option Ord := ordOf (f.m 3) (f.m 4) (f.mod.extractLsb' 0 3)

/-- Flags of the atomics (Table 13-1). -/
def atOrdOf (f : Fields) : Option Ord := ordOf (f.m 2) (f.m 3) (f.mod.extractLsb' 4 3)

/-! ### The opcode map (Table 4-4) -/

/-- A form's stream legality (cox, fibre), whether it is long-latency, and whether it is privileged. -/
structure Form where
  cox : Bool
  fib : Bool
  long : Bool
  priv : Bool := false
  deriving DecidableEq, Repr

def cfS : Form := { cox := true, fib := true, long := false }
def cfL : Form := { cox := true, fib := true, long := true }
def fS : Form := { cox := false, fib := true, long := false }
def fL : Form := { cox := false, fib := true, long := true }
def cS : Form := { cox := true, fib := false, long := false }
def cL : Form := { cox := true, fib := false, long := true }

/-- Table 4-4: the assigned major opcodes. -/
def majorForm (opc : Nat) : Option Form :=
  match opc with
  | 0x00 | 0x01 | 0x02 | 0x03 => some cfS
  | 0x10 | 0x11 | 0x13 => some fS
  | 0x12 | 0x14 => some fL
  | 0x20 | 0x21 | 0x23 | 0x24 | 0x25 | 0x26 => some cfS
  | 0x22 => some cfL
  | 0x30 | 0x31 | 0x32 | 0x34 | 0x40 | 0x41 | 0x42 => some fS
  | 0x33 | 0x56 => some fL
  | 0x50 | 0x51 | 0x52 | 0x53 | 0x54 | 0x55 => some fS
  | 0x60 | 0x61 | 0x62 | 0x70 | 0x73 | 0x80 | 0x82 => some cfL
  | 0x71 | 0x72 | 0x81 => some fL
  | 0x83 | 0x90 | 0x91 | 0x92 => some cfS
  | 0x93 => some cS
  | 0x94 => some fS
  | 0xA0 => some cfS
  | 0xA1 => some cfL
  | 0xA2 => some cS
  | 0xA3 => some fL
  | 0xA4 => some cL
  | 0xB0 | 0xB1 => some fL
  | 0xB2 | 0xB4 => some cfL
  | 0xB3 => some cfS
  | 0xC0 => some cS
  | 0xC1 => some fL
  | 0xC2 | 0xC3 => some cfL
  | 0xD0 | 0xD1 => some fL
  | 0xD2 | 0xD3 | 0xE0 | 0xE1 => some cfL
  | 0xE2 => some cS
  | 0xF0 | 0xF1 => some cfS
  | 0xF2 => some cfL
  | 0xF3 => some cL
  | 0xF4 => some cS
  | 0xF8 => some { cL with priv := true }
  | 0xF9 => some { cS with priv := true }
  | _ => none

/-- Table 4-4 with the exceptions the instruction tables state (R89, R110, R162, R214, R267, R280). -/
def formOf (opc sub : Nat) : Option Form :=
  match opc, sub with
  | 0x01, 3 | 0x01, 4 => some fS
  | 0x24, 2 => some fS
  | 0x70, 1 => some fL
  | 0xA1, 0 => some cfS
  | 0xF1, 2 | 0xF1, 3 => some fS
  | 0xF2, 1 | 0xF2, 2 | 0xF2, 3 => some cL
  | _, _ => majorForm opc

/-! ### Field analysis -/

def modIn (f : Fields) (mask : BitVec 8) : Bool := f.mod &&& ~~~mask == 0

def wreg (is64 : Bool) : FK := if is64 then .v 2 2 else .v 1 1

/-- The lengths of an integer form, from its IMM bit: 96 bits need IMM = 1, which a form not marked Imm then refuses
in MOD (R211). -/
def immLens (f : Fields) : List (BitVec 2) := if f.m 7 then [0, 1] else [0]

/-- A code label: a multiple of 4 below the extent (R163). -/
def labelOk (k : DCtx) (f : Fields) : Bool := f.imm.toNat % 4 == 0 && f.imm.toNat < k.extent

/-- The two-source integer shape: B is the last source (R211, R214). -/
def anaBin (f : Fields) (mask : BitVec 8) (dk ak bk : FK) (ok : Bool) : Ana :=
  if f.m 7 then
    { lens := [0, 1], d := dk, a := ak, c := if f.len = 0 then .imm 0 else .none, modOk := modIn f (mask ||| 0x80) && ok }
  else { d := dk, a := ak, b := bk, modOk := modIn f mask && ok }

/-- Shapes whose last source is C. -/
def anaTri (f : Fields) (mask : BitVec 8) (dk ak bk ck : FK) (ok : Bool) : Ana :=
  if f.m 7 then
    { lens := [0, 1], d := dk, a := ak, b := bk, c := if f.len = 0 then .imm 0 else .none, modOk := modIn f (mask ||| 0x80) && ok }
  else { d := dk, a := ak, b := bk, c := ck, modOk := modIn f mask && ok }

/-- The two-source shape of classes 0x3 to 0x5: the immediate is IMM32 only. A 64-bit word with IMM = 1 holds imm8 in C, so
that its IMM bit alone is reserved, whatever C holds (R211; log 19, DEDUCED). -/
def anaFBin (f : Fields) (mask : BitVec 8) (dk ak bk : FK) (ok : Bool) : Ana :=
  if f.m 7 then { lens := [0, 1], d := dk, a := ak, c := if f.len = 0 then .imm 0 else .none, modOk := f.len ≠ 0 && modIn f (mask ||| 0x80) && ok }
  else { d := dk, a := ak, b := bk, modOk := modIn f mask && ok }

/-- The three-source shape of classes 0x3 to 0x5. -/
def anaFTri (f : Fields) (mask : BitVec 8) (dk ak bk ck : FK) : Ana :=
  if f.m 7 then { lens := [0, 1], d := dk, a := ak, b := bk, c := if f.len = 0 then .imm 0 else .none, modOk := f.len ≠ 0 && modIn f (mask ||| 0x80) }
  else { d := dk, a := ak, b := bk, c := ck, modOk := modIn f mask }

/-- C under a displacement form: disp8 in 64 bits, reserved in 96 bits (R272). -/
def dispK (f : Fields) : FK := if f.len = 0 then .imm 0 else .none

/-- Registers an atomic's operand takes (R288). -/
def atomB (cas is64 : Bool) : FK :=
  if cas then (if is64 then .v 4 4 else .v 2 2) else wreg is64

/-- A relation number in C: a value at or above NREL is reserved (R163). -/
def relOk (k : DCtx) (f : Fields) : Bool := f.c.toNat < k.rels.length

def relInfo (k : DCtx) (f : Fields) : RelInfo := (k.rels[f.c.toNat]?).getD ⟨false, false, [], [], []⟩

/-- The matrix shape fields of EXT (Table 19-4). -/
def mmaN (f : Fields) : Nat := if f.m 0 then 96 else 48
def mmaK (f : Fields) : Nat := if f.ext.getLsbD 11 then 64 else 32
def mmaA (f : Fields) : Option AFmt := afmtOf ((f.ext.extractLsb' 9 2).zeroExtend 3)
def mmaB (f : Fields) : Option AFmt := afmtOf (f.ext.extractLsb' 6 3)
def anaMma (f : Fields) : Ana :=
  let e := ((mmaA f).map AFmt.size).getD 1
  let bf := mmaA f == some .bf16
  let t := mmaN f * mmaK f * e
  { lens := [2], d := .z, a := .v (mmaK f * e) 1, b := if f.m 1 then .v 2 2 else .v (t / 128) 1, c := if f.m 2 then .v 2 2 else .none, modOk := modIn f 0x1F && (!f.m 3 || f.m 1) && !(bf && (f.m 2 || f.m 3)), extOk := (f.ext.extractLsb' 0 6 == 0) && (f.ext.extractLsb' 21 11 == 0) && (mmaA f).isSome &&
      (if f.m 1 then f.ext.extractLsb' 6 3 == 0
       else match mmaA f, mmaB f with
        | some x, some y => AFmt.pairs x y
        | _, _ => false) &&
      (f.ext.extractLsb' 14 7).toNat ≤ mmaN f && (f.ext.extractLsb' 12 2).toNat ≤ mmaK f / 32 }

/-- Control flow, fibre life and relations: Table 7-8 and R91, R163. -/
def anaFlow (k : DCtx) (f : Fields) : Option Ana :=
  let nm := modIn f 0
  let b64 := wreg (f.m 0)
  match f.opc.toNat, f.sub.toNat with
  | 0x00, 0 => some { lens := [0, 1, 2], modOk := nm, immOk := f.len ≠ 1 || f.imm == 0, extOk := f.len ≠ 2 || f.ext == 0 }
  | 0x01, 0 => some { lens := [1], modOk := nm, immOk := labelOk k f }
  | 0x01, 1 | 0x01, 2 => some { lens := [1], a := .v 1 1, modOk := nm, immOk := labelOk k f }
  | 0x01, 3 | 0x01, 4 => some { lens := [1], a := .p, modOk := nm, immOk := labelOk k f }
  | 0x02, 0 => some { lens := [1], d := .v 1 1, modOk := nm, immOk := labelOk k f }
  | 0x02, 1 => some { d := .v 1 1, a := .v 1 1, modOk := nm }
  | 0x02, 2 => some { a := .v 1 1, modOk := nm }
  | 0x03, 0 => some { lens := [1], a := .v 1 1, c := .imm 0, modOk := nm, immOk := f.imm.toNat % 32 == 0 && f.imm.toNat + 32 * f.c.toNat < k.extent }
  | 0x10, 0 => some { lens := [1], d := .v 1 1, a := if f.c = 0 then .none else .v f.c.toNat 1, c := .imm 0xE0, modOk := nm, immOk := labelOk k f }
  | 0x10, 1 => some { modOk := nm }
  | 0x10, 2 => some { d := .v 1 1, a := .v 1 1, modOk := nm }
  | 0x11, 0 | 0x11, 1 => some { c := .imm 0xF8, cOk := relOk k f, modOk := nm }
  | 0x12, 0 => some { lens := [1], c := .imm 0xF8, cOk := relOk k f && (relInfo k f).join, modOk := nm, immOk := labelOk k f, implied := (relInfo k f).joinRegs }
  | 0x12, 1 => some { c := .imm 0xF8, cOk := relOk k f, modOk := nm, implied := (relInfo k f).foldRegs }
  | 0x13, 0 => some { d := .v 1 1, a := b64, modOk := modIn f 1 }
  | 0x13, 1 => some { d := .p, a := b64, modOk := modIn f 1 }
  | 0x13, 2 => some { d := .v 1 1, a := wreg (relInfo k f).pairKey, c := .imm 0xF8, cOk := relOk k f, modOk := nm }
  | 0x14, 0 | 0x14, 1 => some { c := .imm 0, modOk := nm }
  | 0x14, 2 => some { a := b64, c := .imm 0, modOk := modIn f 1 }
  | _, _ => none

/-- The integer classes: Table 10-2 and its rules. -/
def anaInt (k : DCtx) (f : Fields) : Option Ana :=
  let w := wreg f.ty.is64
  let bw := (bwOf f.ty).isSome
  match f.opc.toNat, f.sub.toNat with
  | 0x20, 0 | 0x20, 1 => some (anaBin f 0x1C w w w true)
  | 0x20, 2 | 0x20, 3 => some { lens := immLens f, d := w, a := w, modOk := modIn f 0x1C }
  | 0x20, 4 | 0x20, 5 | 0x21, 0 | 0x21, 1 | 0x22, 0 | 0x22, 1 => some (anaBin f 0x0C w w w true)
  | 0x21, 2 => some (anaBin f 0x0C (.v 2 2) w w (!f.ty.is64))
  | 0x21, 3 => some (anaTri f 0x0C w w w w true)
  | 0x23, 0 | 0x23, 1 | 0x23, 2 | 0x23, 4 => some (anaBin f 0x0C w w w bw)
  | 0x23, 3 => some { lens := immLens f, d := w, a := w, modOk := modIn f 0x0C && bw }
  | 0x23, 5 | 0x23, 6 => some (anaBin f 0x0C w w (.v 1 1) true)
  | 0x24, 0 => some (anaBin f 0x7C (if k.stream = .cox then .v 1 1 else .p) w w
      (iccOf (f.mod.extractLsb' 4 3)).isSome)
  | 0x24, 1 => some { lens := immLens f, d := w, a := w, b := w, c := if k.stream = .cox then .v 1 1 else .p, modOk := modIn f 0x0C }
  | 0x24, 2 => some { lens := immLens f, d := .p, a := .p, b := .p, modOk := modIn f 0x30 }
  | 0x25, 0 | 0x25, 1 | 0x25, 2 => some { lens := immLens f, d := .v 1 1, a := w, modOk := modIn f 0x0C && bw }
  | 0x25, 3 => some { lens := immLens f, d := w, a := w, modOk := modIn f 0x0C && bw }
  | 0x25, 4 => some (anaTri f 0x0C w w .none (.v 1 1) true)
  | 0x25, 5 => some (anaTri f 0x0C w w w (.v 1 1) bw)
  | 0x26, 0 => some (if f.m 7 then { lens := [0, 1], d := w, c := if f.len = 0 then .imm 0 else .none, modOk := modIn f 0x8C }
      else { d := w, a := w, modOk := modIn f 0x0C })
  | 0x26, 1 => some { lens := [2], d := .v 2 2, modOk := modIn f 0 }
  | _, _ => none

/-- Floating point, conversion and cross-lane: Tables 10-4 to 10-7 and R220–R229. -/
def anaFloat (f : Fields) : Option Ana :=
  let r : FK := .v 1 1
  let pr : FK := .v 2 2
  let b64 := wreg (f.m 0)
  match f.opc.toNat, f.sub.toNat with
  | 0x30, 0 | 0x30, 1 | 0x30, 2 | 0x33, 0 => some (anaFBin f 3 r r r true)
  | 0x30, 3 => some (anaFTri f 3 r r r r)
  | 0x31, 0 | 0x31, 1 | 0x31, 2 => some { lens := immLens f, d := r, a := r, b := r, modOk := modIn f 7 }
  | 0x31, 3 => some { lens := immLens f, d := r, a := r, b := r, c := r, modOk := modIn f 7 }
  | 0x32, 0 | 0x32, 1 => some (anaFBin f 4 r r r true)
  | 0x32, 2 => some (anaFBin f 0x70 .p r r true)
  | 0x32, 3 => some { lens := immLens f, d := r, a := r, modOk := modIn f 0 }
  | 0x33, 1 | 0x33, 2 | 0x33, 3 => some { lens := immLens f, d := r, a := r, modOk := modIn f 3 }
  | 0x34, 0 | 0x34, 1 => some { lens := immLens f, d := pr, a := pr, b := pr, modOk := modIn f 3 }
  | 0x34, 2 => some { lens := immLens f, d := pr, a := pr, b := pr, c := pr, modOk := modIn f 3 }
  | 0x40, 0 =>
    let dt := cvtOf (f.c.extractLsb' 4 4)
    let st := cvtOf (f.c.extractLsb' 0 4)
    some { lens := [0], d := (dt.map CvtTy.fk).getD r, a := (st.map CvtTy.fk).getD r, c := .imm 0, cOk := dt.isSome && st.isSome, modOk := modIn f 0x1F && (f.mod.extractLsb' 3 2).toNat < ((st.map CvtTy.elems).getD 4) &&
        (!f.m 2 || dt == some .e5m2 || ((dt.map CvtTy.isInt).getD false && (st.map CvtTy.isInt).getD false)) }
  | 0x41, 0 => some (anaFTri f 0 r r r r)
  | 0x41, 1 => some { lens := immLens f, d := r, a := r, b := r, modOk := modIn f 7 }
  | 0x41, 2 => some { lens := immLens f, d := r, a := pr, b := pr, modOk := modIn f 0xF && (!f.m 3 || f.m 2) }
  | 0x41, 3 => some { lens := immLens f, d := (unpackOf (f.mod.extractLsb' 2 2)).fk, a := r, modOk := modIn f 0xC }
  | 0x42, 0 => some { lens := immLens f, d := r, a := r, modOk := modIn f 4 }
  | 0x42, 1 => some { lens := immLens f, d := r, a := r, b := r, modOk := modIn f 4 }
  | 0x50, 0 | 0x50, 1 | 0x50, 2 | 0x50, 3 => some (anaFBin f 1 b64 b64 r true)
  | 0x51, 0 | 0x51, 1 | 0x51, 2 => some { lens := immLens f, d := r, a := r, modOk := modIn f 0x7F && f.red.isSome }
  | 0x52, 0 | 0x52, 1 | 0x52, 2 => some { lens := immLens f, d := b64, a := b64, modOk := modIn f 1 }
  | 0x52, 3 => some { lens := immLens f, d := b64, a := b64, c := .imm 0xFC, modOk := modIn f 1 }
  | 0x53, 0 | 0x53, 1 => some { lens := immLens f, d := r, a := .p, modOk := modIn f 0 }
  | 0x54, 0 => some { lens := immLens f, d := r, a := b64, modOk := modIn f 1 }
  | 0x54, 1 => some { lens := immLens f, d := .p, a := b64, modOk := modIn f 1 }
  | 0x55, 0 | 0x55, 1 => some { lens := immLens f, d := r, a := r, b := r, c := .imm 0xE0, modOk := modIn f 0 }
  | 0x56, 0 => some { lens := immLens f, d := .v ((f.c.extractLsb' 4 4).toNat + 1) 1, a := .v ((f.c.extractLsb' 0 4).toNat + 1) 1, b := r, c := .imm 0, modOk := modIn f 0x1F }
  | _, _ => none

/-- Memory forms: Tables 13-1, 13-4, 13-5, 13-7, 13-8 and 14-4. -/
def anaMem (k : DCtx) (f : Fields) : Option Ana :=
  let r : FK := .v 1 1
  let pr : FK := .v 2 2
  let cox := k.stream = .cox
  let lsz := ldSzOf (f.mod.extractLsb' 0 3)
  let ssz := stSzOf (f.mod.extractLsb' 0 3)
  let lk := (lsz.map LdSz.fk).getD r
  let sk := (ssz.map StSz.fk).getD r
  let lok := lsz.isSome && !(cox && lsz == some .b128)
  let sok := ssz.isSome && !(cox && ssz == some .b128)
  let l2 : List (BitVec 2) := [0, 1]
  let ck := dispK f
  let aty := tyOf (f.mod.extractLsb' 0 2)
  match f.opc.toNat, f.sub.toNat with
  | 0x60, 0 => some { lens := l2, d := lk, a := pr, c := ck, modOk := modIn f 0x7F && lok && (flagOf (f.m 3) (f.mod.extractLsb' 4 3)).isSome }
  | 0x61, 0 => some { lens := l2, d := if f.m 7 then r else .none, a := pr, b := sk, c := ck, modOk := sok && (flagOf (f.m 3) (f.mod.extractLsb' 4 3)).isSome }
  | 0x62, 0 => some { lens := l2, d := lk, a := r, c := ck, modOk := modIn f 7 && lok }
  | 0x70, 0 => some { d := r, a := pr, b := pr, c := r, modOk := modIn f 0x1F && (cpOrdOf f).isSome }
  | 0x70, 1 => some { d := r, a := pr, b := r, c := .v ((f.mod.extractLsb' 5 3).toNat + 1) 1, modOk := (cpOrdOf f).isSome }
  | 0x71, 0 => some { lens := l2, d := lk, a := pr, c := ck, modOk := modIn f 0x1F && lok }
  | 0x71, 1 => some { lens := l2, a := pr, b := sk, c := ck, modOk := modIn f 0x1F && sok }
  | 0x71, 2 => some { lens := l2, d := lk, a := pr, b := r, c := ck, modOk := lok }
  | 0x71, 3 => some { lens := l2, d := sk, a := pr, b := r, c := ck, modOk := sok }
  | 0x72, 0 => some { lens := l2, d := pr, a := pr, b := sk, c := ck, modOk := modIn f 0x77 && (ssz == some .b32 || ssz == some .b64) }
  | 0x73, 0 =>
    let n := (f.mod.extractLsb' 0 4).toNat + 1
    some { d := pr, a := pr, b := if cox then .s n 1 else .v n 1, c := if cox then .s n 1 else .v n 1, modOk := modIn f 0xF }
  | 0x73, 1 => some { d := r, a := pr, b := if cox then .s 4 4 else .v 8 8, modOk := modIn f 7 && (scopeOf (f.mod.extractLsb' 0 3)).isSome }
  | 0x80, s => if s > 7 then none else
      some { lens := l2, d := wreg aty.is64, a := pr, b := if cox && s == 7 then .s 2 (if aty.is64 then 4 else 2) else atomB (s == 7) aty.is64, c := ck, modOk := !f.m 7 && (atOrdOf f).isSome && (s < 3 || (bwOf aty).isSome) }
  | 0x81, s => if s > 2 then none else
      some { lens := l2, d := r, a := pr, b := r, c := ck, modOk := (!f.m 7 || s ≠ 0) && aty = .i32 && (atOrdOf f).isSome }
  | 0x82, s =>
    if s ≤ 5 then some { lens := l2, a := pr, b := wreg aty.is64, c := ck, modOk := !f.m 7 && (atOrdOf f).isSome && (s < 3 || (bwOf aty).isSome) }
    else if 8 ≤ s && s ≤ 10 then some { lens := l2, a := pr, b := r, c := ck, modOk := (!f.m 7 || s ≠ 8) && aty = .i32 && (atOrdOf f).isSome }
    else none
  | 0x83, s =>
    if s = 3 then some { modOk := modIn f 0 }
    else if s ≤ 4 then some { modOk := modIn f 7 && (scopeOf (f.mod.extractLsb' 0 3)).isSome } else none
  | _, _ => none

/-- A barrier number in range for its level, and named by GBAR at grid level (R190). -/
def barOk (k : DCtx) (lvl : Nat) (c : BitVec 8) : Bool :=
  match lvl with
  | 0 => c.toNat < 16
  | 1 => c.toNat < 8
  | _ => c.toNat < 4 && k.gbar.getLsbD c.toNat

/-- Barrier and queue forms: Tables 8-5 and 9-3. `barinit` and `barinv` with the reserved level 3 hold C to the range of the
block level before FIELD 10 is reported (log 33, DESIGN CHOICE). -/
def anaSync (k : DCtx) (f : Fields) : Option Ana :=
  let r : FK := .v 1 1
  let cox := k.stream = .cox
  let pk : FK := if cox then r else .p
  let b64 := wreg (f.m 0)
  match f.opc.toNat, f.sub.toNat with
  | 0x90, s | 0x91, s | 0x92, s =>
    if s > 2 then none else
    some { lens := if s = 2 then [0] else [0, 1], d := if s = 1 then r else pk, a := if f.len = 1 then .none else r, c := .imm 0, cOk := barOk k (f.opc.toNat - 0x90) f.c, modOk := modIn f 1 }
  | 0x93, s =>
    if s > 1 then none else
    let lv := (f.mod.extractLsb' 0 2).toNat
    some { a := if s = 0 then r else .none, c := .imm 0, cOk := if lv = 3 then f.c.toNat < 16 else barOk k lv f.c, modOk := modIn f 3 && lv ≠ 3 }
  | 0x94, 0 => some { d := .j, modOk := modIn f 0 }
  | 0x94, 1 => some { a := .j, modOk := modIn f 0 }
  | 0xA0, 0 => some { d := r, a := r, b := .q, c := .imm 0xF8, modOk := modIn f 0 }
  | 0xA0, 1 => some { d := r, b := .q, modOk := modIn f 0 }
  | 0xA1, 0 => some { d := .q, a := b64, modOk := if cox then modIn f 0 else modIn f 1 }
  | 0xA1, 1 => some { d := b64, a := .q, modOk := if cox then modIn f 0 else modIn f 3 }
  | 0xA1, 2 => some { d := r, a := .q, modOk := modIn f 0 }
  | 0xA2, 0 => some { a := r, modOk := modIn f 0 }
  | 0xA3, 0 | 0xA3, 1 => some { d := b64, modOk := modIn f 1 }
  | 0xA4, 0 => some { d := r, a := .q, modOk := modIn f 1 }
  | _, _ => none

/-- Engine forms: Tables 19-5, 20-2, 22-2 and 23-7. -/
def anaEng (k : DCtx) (f : Fields) : Option Ana :=
  let r : FK := .v 1 1
  let pr : FK := .v 2 2
  let cox := k.stream = .cox
  let nm := modIn f 0
  let sl : FK := .imm 0xFC
  match f.opc.toNat, f.sub.toNat with
  | 0xB0, 0 => some (anaMma f)
  | 0xB1, 0 => some { d := .z, modOk := nm }
  | 0xB1, 1 | 0xB1, 2 => some { d := .z, a := pr, b := r, modOk := nm }
  | 0xB1, 3 => some { d := .v 16 16, a := .z, c := .imm 0, cOk := f.c.toNat < 24, modOk := nm }
  | 0xB2, 0 => some { d := r, modOk := modIn f 3 }
  | 0xB2, 1 => some { d := r, modOk := nm }
  | 0xB3, 0 => some { modOk := nm }
  | 0xB3, 1 => some { a := pr, c := .imm 0, cOk := f.c ≠ 0, modOk := nm }
  | 0xB4, 0 => some { a := pr, b := .z, c := pr, modOk := modIn f 1 }
  | 0xC0, 0 => some { d := r, a := r, b := r, modOk := nm }
  | 0xC0, 1 | 0xC0, 2 | 0xC0, 3 => some { d := r, modOk := nm }
  | 0xC1, 0 => some { d := r, a := r, modOk := nm, implied := (List.range 64).filterMap fun i => if f.a.toNat + i < k.w then some (f.a.toNat + i) else none }
  | 0xC2, 0 => some { d := r, modOk := nm }
  | 0xC3, 0 => some { d := r, a := r, modOk := if cox then nm else modIn f 1, implied := if cox then [] else
        (List.range 65).filterMap fun i => if f.d.toNat + i < k.w then some (f.d.toNat + i) else none }
  | 0xC3, 1 | 0xC3, 2 => some { d := r, a := pr, modOk := nm }
  | 0xD0, 0 => some { d := r, a := .v (2 * 4 ^ ((f.mod.extractLsb' 5 2).toNat + 1)) 2, b := r, c := sl, modOk := !f.m 7 && (f.mod.extractLsb' 5 2) ≠ 3 && (edOrdOf f).isSome }
  | 0xD1, 0 => some { d := pr, a := r, c := sl, modOk := modIn f 0x1F && (edOrdOf f).isSome }
  | 0xD1, 1 => some { d := r, c := sl, modOk := modIn f 0x1F && (edOrdOf f).isSome }
  | 0xD2, 0 => some { d := r, a := pr, c := sl, modOk := nm }
  | 0xD2, 1 | 0xD2, 2 | 0xD2, 3 => some { d := r, a := r, c := sl, modOk := nm }
  | 0xD2, 4 => some { d := r, c := sl, modOk := nm }
  | 0xD3, 0 => some { c := sl, modOk := modIn f 7 && (let s := (f.mod.extractLsb' 0 3).toNat; 2 ≤ s && s ≤ 4) }
  | 0xE0, s => if s > 3 then none else some { d := r, a := pr, modOk := modIn f 0x1F && (lkOrdOf f).isSome }
  | 0xE1, s => if s > 1 then none else some { d := r, a := pr, modOk := modIn f 0x1F && (lkOrdOf f).isSome }
  | 0xE2, 0 => some { d := r, a := r, modOk := nm }
  | 0xE2, 1 => some { d := r, a := r, b := r, modOk := modIn f 7 && (f.mod.extractLsb' 0 3).toNat ≤ 4 }
  | _, _ => none

/-- System forms: Tables 5-7, 6-6 and 12-5. -/
def anaSys (k : DCtx) (f : Fields) : Option Ana :=
  let r : FK := .v 1 1
  let pr : FK := .v 2 2
  let cox := k.stream = .cox
  let nm := modIn f 0
  let hs := hszOf (f.mod.extractLsb' 0 2)
  let hk := (hs.map HSz.fk).getD r
  let hok := modIn f 3 && hs.isSome && !(cox && hs == some .b128)
  match f.opc.toNat, f.sub.toNat with
  | 0xF0, 0 => some { d := wreg (srWide f.c.toNat), c := .imm 0, cOk := srOk k f.c.toNat, modOk := nm }
  | 0xF0, 1 => some { a := wreg (srWide f.c.toNat), c := .imm 0, cOk := srOk k f.c.toNat, modOk := nm }
  | 0xF1, 0 => some { lens := [1], modOk := nm, immOk := labelOk k f }
  | 0xF1, 1 | 0xF1, 2 | 0xF1, 3 | 0xF1, 4 => some { modOk := nm }
  | 0xF2, 0 => some { d := pr, a := pr, modOk := nm }
  | 0xF2, 1 => some { d := r, a := r, b := r, modOk := modIn f 1 }
  | 0xF2, 2 => some { d := r, a := r, b := r, modOk := nm }
  | 0xF2, 3 => some { d := r, a := r, modOk := modIn f 1 }
  | 0xF2, 4 => some { d := hk, a := pr, b := r, modOk := hok }
  | 0xF2, 5 => some { a := pr, b := r, c := hk, modOk := hok }
  | 0xF3, 0 => some { d := r, a := r, b := r, modOk := modIn f 1 }
  | 0xF3, 1 => some { a := r, b := r, c := r, modOk := nm }
  | 0xF3, 2 => some { d := r, modOk := nm }
  | 0xF4, 0 => some { d := r, c := .imm 0xF8, modOk := nm }
  | 0xF4, 1 => some { a := r, c := .imm 0xF8, modOk := nm }
  | 0xF4, 2 => some { modOk := nm }
  | 0xF8, 0 => some { d := r, a := r, b := r, modOk := modIn f 7 && (f.mod.extractLsb' 0 3) ≠ 7 }
  | 0xF8, 1 => some { d := r, a := r, b := r, c := r, modOk := nm }
  | 0xF8, 2 | 0xF8, 3 => some { d := r, a := r, b := r, modOk := nm }
  | 0xF9, 0 => some { d := .s 4 4, modOk := nm }
  | 0xF9, 1 => some { a := r, b := r, modOk := modIn f 0xF && (bclassOf (f.mod.extractLsb' 0 4)).isSome }
  | 0xF9, 2 => some { d := r, a := r, modOk := modIn f 0xF && (bclassOf (f.mod.extractLsb' 0 4)).isSome }
  | 0xF9, 3 => some { a := r, b := r, modOk := nm }
  | _, _ => none

/-- The analysis of an assigned form, none where the SUB is unassigned (R89). -/
def analyse (k : DCtx) (f : Fields) : Option Ana :=
  let c := f.opc.toNat / 16
  if c ≤ 1 then anaFlow k f
  else if c = 2 then anaInt k f
  else if c ≤ 5 then anaFloat f
  else if c ≤ 8 then anaMem k f
  else if c ≤ 0xA then anaSync k f
  else if c ≤ 0xE then anaEng k f
  else anaSys k f

/-! ### From fields to an instruction -/

def Fields.hd (f : Fields) : Hd := { pg := f.pg, pn := f.pn == 1, la := f.la }

/-- The last source in field x: a register, imm8 or IMM32 (R211). -/
def Fields.src (f : Fields) (x : BitVec 8) : Src :=
  if f.m 7 then (if f.len = 0 then .imm8 f.c else .imm32 f.imm) else .reg x

def Fields.fsrc (f : Fields) (x : BitVec 8) : FSrc := if f.m 7 then .imm f.imm else .reg x

def Fields.disp (f : Fields) : Disp := if f.len = 0 then .d8 f.c else .d32 f.imm

def Fields.ibin (f : Fields) : IBin := { ty := f.ty, sat := f.m 4, d := f.d, a := f.a, b := f.src f.b }
def Fields.iun (f : Fields) : IUn := { ty := f.ty, sat := f.m 4, d := f.d, a := f.a }
def Fields.ibin' (f : Fields) : IBin := { ty := f.ty, d := f.d, a := f.a, b := f.src f.b }
def Fields.itri (f : Fields) : ITri := { ty := f.ty, d := f.d, a := f.a, b := f.b, c := f.src f.c }
def Fields.bun (f : Fields) : Option BUn := (bwOf f.ty).map fun w => { bw := w, d := f.d, a := f.a }
def Fields.bbin (f : Fields) : Option BBin := (bwOf f.ty).map fun w => { bw := w, d := f.d, a := f.a, b := f.src f.b }
def Fields.fbin (f : Fields) : FBin := { rnd := f.rnd, d := f.d, a := f.a, b := f.fsrc f.b }
def Fields.fun1 (f : Fields) : FUn := { rnd := f.rnd, d := f.d, a := f.a }
def Fields.hbin (f : Fields) : HBin := { ty := f16Of (f.m 2), rnd := f.rnd, d := f.d, a := f.a, b := f.b }
def Fields.cbin (f : Fields) : CBin := { rnd := f.rnd, d := f.d, a := f.a, b := f.b }
def Fields.atops (f : Fields) : Option AtOps := (atOrdOf f).map fun o =>
  { ty := tyOf (f.mod.extractLsb' 0 2), o := o, d := f.d, a := f.a, b := f.b, disp := f.disp }
def Fields.atfops (f : Fields) : Option AtFOps := (atOrdOf f).map fun o =>
  { num := f.m 7, o := o, d := f.d, a := f.a, b := f.b, disp := f.disp }
def Fields.count (f : Fields) : Count := if f.len = 0 then .reg f.a else .imm f.imm
def lo3 (x : BitVec 8) : BitVec 3 := x.extractLsb' 0 3
def lo4 (x : BitVec 8) : BitVec 4 := x.extractLsb' 0 4
def lo2 (x : BitVec 8) : BitVec 2 := x.extractLsb' 0 2
def lo5 (x : BitVec 8) : BitVec 5 := x.extractLsb' 0 5

def buildFlow (f : Fields) : Option Instr :=
  let h := f.hd
  match f.opc.toNat, f.sub.toNat with
  | 0x00, 0 => some (if f.len = 0 then .nop h else if f.len = 1 then .nopW12 h else .nopW16 h)
  | 0x01, 0 => some (.bra h f.imm)
  | 0x01, 1 => some (.braZ h f.a f.imm)
  | 0x01, 2 => some (.braNz h f.a f.imm)
  | 0x01, 3 => some (.braAny h (lo3 f.a) f.imm)
  | 0x01, 4 => some (.braAll h (lo3 f.a) f.imm)
  | 0x02, 0 => some (.call h f.d f.imm)
  | 0x02, 1 => some (.callR h f.d f.a)
  | 0x02, 2 => some (.ret h f.a)
  | 0x03, 0 => some (.brx h f.a f.c f.imm)
  | 0x10, 0 => some (.spawn h f.d f.a (lo5 f.c) f.imm)
  | 0x10, 1 => some (.exit h)
  | 0x10, 2 => some (.kill h f.d f.a)
  | 0x11, 0 => some (.renter h (lo3 f.c))
  | 0x11, 1 => some (.rleave h (lo3 f.c))
  | 0x12, 0 => some (.rjoin h (lo3 f.c) f.imm)
  | 0x12, 1 => some (.rfold h (lo3 f.c))
  | 0x13, 0 => some (.matchAny h (f.m 0) f.d f.a)
  | 0x13, 1 => some (.matchAll h (f.m 0) (lo3 f.d) f.a)
  | 0x13, 2 => some (.rprobe h f.d f.a (lo3 f.c))
  | 0x14, 0 => some (.compact h f.c)
  | 0x14, 1 => some (.regroup h f.c)
  | 0x14, 2 => some (.regroupKey h (f.m 0) f.a f.c)
  | _, _ => none

def buildInt (f : Fields) : Option Instr :=
  let h := f.hd
  match f.opc.toNat, f.sub.toNat with
  | 0x20, 0 => some (.add h f.ibin)
  | 0x20, 1 => some (.sub h f.ibin)
  | 0x20, 2 => some (.neg h f.iun)
  | 0x20, 3 => some (.abs h f.iun)
  | 0x20, 4 => some (.min h f.ibin')
  | 0x20, 5 => some (.max h f.ibin')
  | 0x21, 0 => some (.mul h f.ibin')
  | 0x21, 1 => some (.mulhi h f.ibin')
  | 0x21, 2 => some (.mulwide h f.ibin')
  | 0x21, 3 => some (.mad h f.itri)
  | 0x22, 0 => some (.div h f.ibin')
  | 0x22, 1 => some (.rem h f.ibin')
  | 0x23, 0 => f.bbin.map (.and h)
  | 0x23, 1 => f.bbin.map (.or h)
  | 0x23, 2 => f.bbin.map (.xor h)
  | 0x23, 3 => f.bun.map (.not h)
  | 0x23, 4 => f.bbin.map (.andn h)
  | 0x23, 5 => some (.shl h f.ibin')
  | 0x23, 6 => some (.shr h f.ibin')
  | 0x24, 0 => (iccOf (f.mod.extractLsb' 4 3)).map fun cc => .setp h cc f.ibin'
  | 0x24, 1 => some (.sel h f.ty f.d f.a f.b f.c)
  | 0x24, 2 => some (.plog h (plogOf (f.mod.extractLsb' 4 2)) (lo3 f.d) (lo3 f.a) (lo3 f.b))
  | 0x25, 0 => f.bun.map (.popc h)
  | 0x25, 1 => f.bun.map (.clz h)
  | 0x25, 2 => f.bun.map (.ctz h)
  | 0x25, 3 => f.bun.map (.brev h)
  | 0x25, 4 => some (.bfe h { ty := f.ty, d := f.d, a := f.a, b := f.src f.c })
  | 0x25, 5 => some (.bfi h f.itri)
  | 0x26, 0 => some (.mov h f.ty f.d (f.src f.a))
  | 0x26, 1 => some (.movx h f.d f.ext)
  | _, _ => none

def buildFloat (f : Fields) : Option Instr :=
  let h := f.hd
  match f.opc.toNat, f.sub.toNat with
  | 0x30, 0 => some (.addF32 h f.fbin)
  | 0x30, 1 => some (.subF32 h f.fbin)
  | 0x30, 2 => some (.mulF32 h f.fbin)
  | 0x30, 3 => some (.fmaF32 h { rnd := f.rnd, d := f.d, a := f.a, b := .reg f.b } (f.fsrc f.c))
  | 0x31, 0 => some (.addF16 h f.hbin)
  | 0x31, 1 => some (.subF16 h f.hbin)
  | 0x31, 2 => some (.mulF16 h f.hbin)
  | 0x31, 3 => some (.fmaF16 h f.hbin f.c)
  | 0x32, 0 => some (.minF32 h (f.m 2) f.d f.a (f.fsrc f.b))
  | 0x32, 1 => some (.maxF32 h (f.m 2) f.d f.a (f.fsrc f.b))
  | 0x32, 2 => some (.setpF32 h (fccOf (f.mod.extractLsb' 4 3)) (lo3 f.d) f.a (f.fsrc f.b))
  | 0x32, 3 => some (.classF32 h f.d f.a)
  | 0x33, 0 => some (.divF32 h f.fbin)
  | 0x33, 1 => some (.sqrtF32 h f.fun1)
  | 0x33, 2 => some (.rcpF32 h f.fun1)
  | 0x33, 3 => some (.rsqrtF32 h f.fun1)
  | 0x34, 0 => some (.caddC64 h f.cbin)
  | 0x34, 1 => some (.cmulC64 h f.cbin)
  | 0x34, 2 => some (.cfmaC64 h f.cbin f.c)
  | 0x40, 0 =>
    match cvtOf (f.c.extractLsb' 4 4), cvtOf (f.c.extractLsb' 0 4) with
    | some dt, some st => some (.cvt h f.rnd (f.m 2) (f.mod.extractLsb' 3 2) dt st f.d f.a)
    | _, _ => none
  | 0x41, 0 => some (.prmt h f.d f.a f.b (f.fsrc f.c))
  | 0x41, 1 => some (.packF16 h (f16Of (f.m 2)) f.rnd f.d f.a f.b)
  | 0x41, 2 => some (.packF8 h (f8Of (f.m 2)) (f.m 3) f.rnd f.d f.a f.b)
  | 0x41, 3 => some (.unpack h (unpackOf (f.mod.extractLsb' 2 2)) f.d f.a)
  | 0x42, 0 => some (.mxq h (f8Of (f.m 2)) f.d f.a)
  | 0x42, 1 => some (.mxw h (f8Of (f.m 2)) f.d f.a f.b)
  | 0x50, 0 => some (.shflIdx h (f.m 0) f.d f.a (f.fsrc f.b))
  | 0x50, 1 => some (.shflUp h (f.m 0) f.d f.a (f.fsrc f.b))
  | 0x50, 2 => some (.shflDown h (f.m 0) f.d f.a (f.fsrc f.b))
  | 0x50, 3 => some (.shflXor h (f.m 0) f.d f.a (f.fsrc f.b))
  | 0x51, 0 => f.red.map fun o => .red h o f.d f.a
  | 0x51, 1 => f.red.map fun o => .scan h o f.d f.a
  | 0x51, 2 => f.red.map fun o => .scanx h o f.d f.a
  | 0x52, 0 => some (.qxH h (f.m 0) f.d f.a)
  | 0x52, 1 => some (.qxV h (f.m 0) f.d f.a)
  | 0x52, 2 => some (.qxD h (f.m 0) f.d f.a)
  | 0x52, 3 => some (.qbc h (f.m 0) f.d f.a (lo2 f.c))
  | 0x53, 0 => some (.ballot h f.d (lo3 f.a))
  | 0x53, 1 => some (.pfxpop h f.d (lo3 f.a))
  | 0x54, 0 => some (.conf h (f.m 0) f.d f.a)
  | 0x54, 1 => some (.confFirst h (f.m 0) (lo3 f.d) f.a)
  | 0x55, 0 => some (.bpcnt h f.d f.a f.b (lo5 f.c))
  | 0x55, 1 => some (.bpmatch h f.d f.a f.b (lo5 f.c))
  | 0x56, 0 => some (.mvWt h { bf16 := f.m 2, bias := f.m 3, relu := f.m 4, rnd := f.rnd, d := f.d, a := f.a, b := f.b, m1 := f.c.extractLsb' 4 4, k1 := f.c.extractLsb' 0 4 })
  | _, _ => none

def Fields.gl (f : Fields) : Option (GOps LdSz) := (ldSzOf (f.mod.extractLsb' 0 3)).map fun z =>
  { cls := reuseOf (f.mod.extractLsb' 3 2), sz := z, r := f.d, a := f.a, disp := f.disp }
def Fields.gs (f : Fields) : Option (GOps StSz) := (stSzOf (f.mod.extractLsb' 0 3)).map fun z =>
  { cls := reuseOf (f.mod.extractLsb' 3 2), sz := z, r := f.b, a := f.a, disp := f.disp }
def Fields.gxl (f : Fields) : Option (GXOps LdSz) := (ldSzOf (f.mod.extractLsb' 0 3)).map fun z =>
  { cls := reuseOf (f.mod.extractLsb' 3 2), sz := z, sh := f.mod.extractLsb' 5 3, r := f.d, a := f.a, b := f.b, disp := f.disp }
def Fields.gxs (f : Fields) : Option (GXOps StSz) := (stSzOf (f.mod.extractLsb' 0 3)).map fun z =>
  { cls := reuseOf (f.mod.extractLsb' 3 2), sz := z, sh := f.mod.extractLsb' 5 3, r := f.d, a := f.a, b := f.b, disp := f.disp }

def buildMem (f : Fields) : Option Instr :=
  let h := f.hd
  let aty := tyOf (f.mod.extractLsb' 0 2)
  match f.opc.toNat, f.sub.toNat with
  | 0x60, 0 =>
    match ldSzOf (f.mod.extractLsb' 0 3), flagOf (f.m 3) (f.mod.extractLsb' 4 3) with
    | some z, some q => some (.ld h q z f.d f.a f.disp)
    | _, _ => none
  | 0x61, 0 =>
    match stSzOf (f.mod.extractLsb' 0 3), flagOf (f.m 3) (f.mod.extractLsb' 4 3) with
    | some z, some q => some (if f.m 7 then .stTag h q z f.d f.a f.b f.disp else .st h q z f.a f.b f.disp)
    | _, _ => none
  | 0x62, 0 => (ldSzOf (f.mod.extractLsb' 0 3)).map fun z => .ldc h z f.d f.a f.disp
  | 0x70, 0 => (cpOrdOf f).map fun o => .cpa h o f.d f.a f.b f.c
  | 0x70, 1 => (cpOrdOf f).map fun o => .cpaReg h o f.d f.a f.b f.c (f.mod.extractLsb' 5 3)
  | 0x71, 0 => f.gl.map (.gth h)
  | 0x71, 1 => f.gs.map (.sct h)
  | 0x71, 2 => f.gxl.map (.gthx h)
  | 0x71, 3 => f.gxs.map (.sctx h)
  | 0x72, 0 => some (.cst h (f.m 0) (f.mod.extractLsb' 4 3) f.d f.a f.b f.disp)
  | 0x73, 0 => some (.embpool h f.d f.a f.b f.c (f.mod.extractLsb' 0 4))
  | 0x73, 1 => (scopeOf (f.mod.extractLsb' 0 3)).map fun s => .embsw h s f.d f.a f.b
  | 0x80, 0 => f.atops.map (.atomAdd h)
  | 0x80, 1 => f.atops.map (.atomMin h)
  | 0x80, 2 => f.atops.map (.atomMax h)
  | 0x80, 3 => f.atops.map (.atomAnd h)
  | 0x80, 4 => f.atops.map (.atomOr h)
  | 0x80, 5 => f.atops.map (.atomXor h)
  | 0x80, 6 => f.atops.map (.atomExch h)
  | 0x80, 7 => f.atops.map (.atomCas h)
  | 0x81, 0 => f.atfops.map (.atomAddF32 h)
  | 0x81, 1 => f.atfops.map (.atomMinF32 h)
  | 0x81, 2 => f.atfops.map (.atomMaxF32 h)
  | 0x82, 0 => (atOrdOf f).map fun o => .mredAdd h aty o f.a f.b f.disp
  | 0x82, 1 => (atOrdOf f).map fun o => .mredMin h aty o f.a f.b f.disp
  | 0x82, 2 => (atOrdOf f).map fun o => .mredMax h aty o f.a f.b f.disp
  | 0x82, 3 => (atOrdOf f).map fun o => .mredAnd h aty o f.a f.b f.disp
  | 0x82, 4 => (atOrdOf f).map fun o => .mredOr h aty o f.a f.b f.disp
  | 0x82, 5 => (atOrdOf f).map fun o => .mredXor h aty o f.a f.b f.disp
  | 0x82, 8 => (atOrdOf f).map fun o => .mredAddF32 h o f.a f.b f.disp
  | 0x82, 9 => (atOrdOf f).map fun o => .mredMinF32 h (f.m 7) o f.a f.b f.disp
  | 0x82, 10 => (atOrdOf f).map fun o => .mredMaxF32 h (f.m 7) o f.a f.b f.disp
  | 0x83, 0 => (scopeOf (f.mod.extractLsb' 0 3)).map (.fenceRel h)
  | 0x83, 1 => (scopeOf (f.mod.extractLsb' 0 3)).map (.fenceAcq h)
  | 0x83, 2 => (scopeOf (f.mod.extractLsb' 0 3)).map (.fenceSc h)
  | 0x83, 3 => some (.fenceAck h)
  | 0x83, 4 => (scopeOf (f.mod.extractLsb' 0 3)).map (.fenceEng h)
  | _, _ => none

def buildSync (f : Fields) : Option Instr :=
  let h := f.hd
  match f.opc.toNat, f.sub.toNat with
  | 0x90, 0 => some (.barSync h (f.m 0) f.d (lo4 f.c) f.count)
  | 0x90, 1 => some (.barArrive h (f.m 0) f.d (lo4 f.c) f.count)
  | 0x90, 2 => some (.barWait h (f.m 0) f.d f.a (lo4 f.c))
  | 0x91, 0 => some (.cbarSync h (f.m 0) f.d (lo3 f.c) f.count)
  | 0x91, 1 => some (.cbarArrive h (f.m 0) f.d (lo3 f.c) f.count)
  | 0x91, 2 => some (.cbarWait h (f.m 0) f.d f.a (lo3 f.c))
  | 0x92, 0 => some (.gbarSync h (f.m 0) f.d (lo2 f.c) f.count)
  | 0x92, 1 => some (.gbarArrive h (f.m 0) f.d (lo2 f.c) f.count)
  | 0x92, 2 => some (.gbarWait h (f.m 0) f.d f.a (lo2 f.c))
  | 0x93, 0 => (levelOf (f.mod.extractLsb' 0 2)).map fun l => .barinit h l f.a (lo4 f.c)
  | 0x93, 1 => (levelOf (f.mod.extractLsb' 0 2)).map fun l => .barinv h l (lo4 f.c)
  | 0x94, 0 => some (.rjset h (lo3 f.d))
  | 0x94, 1 => some (.rjw h (lo3 f.a))
  | 0xA0, 0 => some (.qbind h f.d f.a (lo4 f.b) (lo3 f.c))
  | 0xA0, 1 => some (.qunbind h f.d (lo4 f.b))
  | 0xA1, 0 => some (.qpush h (f.m 0) (lo4 f.d) f.a)
  | 0xA1, 1 => some (.qpop h (f.m 0) (f.m 1) f.d (lo4 f.a))
  | 0xA1, 2 => some (.qdrain h f.d (lo4 f.a))
  | 0xA2, 0 => some (.dqPush h f.a)
  | 0xA3, 0 => some (.dqPop h (f.m 0) f.d)
  | 0xA3, 1 => some (.dqPopf h (f.m 0) f.d)
  | 0xA4, 0 => some (.hrecv h (f.m 0) f.d (lo4 f.a))
  | _, _ => none

def buildMma (f : Fields) : Option Instr :=
  match mmaA f with
  | none => none
  | some x =>
    match (if f.m 1 then some x else mmaB f) with
    | none => none
    | some y => some (.mma f.hd { z := lo3 f.d, a := f.a, b := f.b, c := f.c, pair := f.m 0, th := f.m 1, sa := f.m 2, sb := f.m 3, init := f.m 4, mult := f.ext.extractLsb' 32 32, nx := f.ext.extractLsb' 14 7, kb := f.ext.extractLsb' 12 2, k64 := f.ext.getLsbD 11, afmt := x, bfmt := y })

def buildEng (f : Fields) : Option Instr :=
  let h := f.hd
  match f.opc.toNat, f.sub.toNat with
  | 0xB0, 0 => buildMma f
  | 0xB1, 0 => some (.zzero h (lo3 f.d))
  | 0xB1, 1 => some (.zld h (lo3 f.d) f.a f.b)
  | 0xB1, 2 => some (.zst h f.a (lo3 f.d) f.b)
  | 0xB1, 3 => some (.zrd h f.d (lo3 f.a) f.c)
  | 0xB2, 0 => some (.plse h (f.m 0) (f.m 1) f.d)
  | 0xB2, 1 => some (.plrl h f.d)
  | 0xB3, 0 => some (.scinv h)
  | 0xB3, 1 => some (.scpf h f.a f.c)
  | 0xB4, 0 => some (.zq h (f.m 0) f.a (lo3 f.b) f.c)
  | 0xC0, 0 => some (.cbcfg h f.d f.a f.b)
  | 0xC0, 1 => some (.cbclr h f.d)
  | 0xC0, 2 => some (.cbrel h f.d)
  | 0xC0, 3 => some (.cbstat h f.d)
  | 0xC1, 0 => some (.cbpush h f.d f.a)
  | 0xC2, 0 => some (.cbmerge h f.d)
  | 0xC3, 0 => some (.cbrd h (f.m 0) f.d f.a)
  | 0xC3, 1 => some (.cbsave h f.d f.a)
  | 0xC3, 2 => some (.cbrest h f.d f.a)
  | 0xD0, 0 => (edOrdOf f).map fun o => .edgate h o (f.mod.extractLsb' 5 2) f.d f.a f.b (lo2 f.c)
  | 0xD1, 0 => (edOrdOf f).map fun o => .edmeas h o f.d f.a (lo2 f.c)
  | 0xD1, 1 => (edOrdOf f).map fun o => .ednorm h o f.d (lo2 f.c)
  | 0xD2, 0 => some (.edmapInit h f.d f.a (lo2 f.c))
  | 0xD2, 1 => some (.edmapRd h f.d f.a (lo2 f.c))
  | 0xD2, 2 => some (.edmapWr h f.d f.a (lo2 f.c))
  | 0xD2, 3 => some (.edswap h f.d f.a (lo2 f.c))
  | 0xD2, 4 => some (.edmapFree h f.d (lo2 f.c))
  | 0xD3, 0 => (scopeOf (f.mod.extractLsb' 0 3)).map fun s => .edsync h s (lo2 f.c)
  | 0xE0, 0 => (lkOrdOf f).map fun o => .collRed h o f.d f.a
  | 0xE0, 1 => (lkOrdOf f).map fun o => .collRs h o f.d f.a
  | 0xE0, 2 => (lkOrdOf f).map fun o => .collAg h o f.d f.a
  | 0xE0, 3 => (lkOrdOf f).map fun o => .collBc h o f.d f.a
  | 0xE1, 0 => (lkOrdOf f).map fun o => .xdisp h o f.d f.a
  | 0xE1, 1 => (lkOrdOf f).map fun o => .xfix h o f.d f.a
  | 0xE2, 0 => some (.lkst h f.d f.a)
  | 0xE2, 1 =>
    match (f.mod.extractLsb' 0 3).toNat with
    | 0 => some (.lkctlUp h f.d f.a f.b)
    | 1 => some (.lkctlDown h f.d f.a f.b)
    | 2 => some (.lkctlRxbuf h f.d f.a f.b)
    | 3 => some (.lkctlPost h f.d f.a f.b)
    | 4 => some (.lkctlClr h f.d f.a f.b)
    | _ => none
  | _, _ => none

def buildSys (f : Fields) : Option Instr :=
  let h := f.hd
  match f.opc.toNat, f.sub.toNat with
  | 0xF0, 0 => some (.srd h f.d f.c)
  | 0xF0, 1 => some (.swr h f.a f.c)
  | 0xF1, 0 => some (.xvec h f.imm)
  | 0xF1, 1 => some (.xvecClr h)
  | 0xF1, 2 => some (.xret h)
  | 0xF1, 3 => some (.xretSkip h)
  | 0xF1, 4 => some (.yield h)
  | 0xF2, 0 => some (.xlat h f.d f.a)
  | 0xF2, 1 => some (.tinv h (f.m 0) f.d f.a f.b)
  | 0xF2, 2 => some (.htab h f.d f.a f.b)
  | 0xF2, 3 => some (.hinv h (f.m 0) f.d f.a)
  | 0xF2, 4 => (hszOf (f.mod.extractLsb' 0 2)).map fun z => .hld h z f.d f.a f.b
  | 0xF2, 5 => (hszOf (f.mod.extractLsb' 0 2)).map fun z => .hst h z f.a f.b f.c
  | 0xF3, 0 => some (.launch h (f.m 0) f.d f.a f.b)
  | 0xF3, 1 => some (.walkInit h f.a f.b f.c)
  | 0xF3, 2 => some (.walkNext h f.d)
  | 0xF4, 0 => some (.stgq h f.d (lo3 f.c))
  | 0xF4, 1 => some (.stgres h f.a (lo3 f.c))
  | 0xF4, 2 => some (.kend h)
  | 0xF8, 0 =>
    match (f.mod.extractLsb' 0 3).toNat with
    | 0 => some (.ctxctlCreate h f.d f.a f.b)
    | 1 => some (.ctxctlStart h f.d f.a f.b)
    | 2 => some (.ctxctlStop h f.d f.a f.b)
    | 3 => some (.ctxctlResume h f.d f.a f.b)
    | 4 => some (.ctxctlKill h f.d f.a f.b)
    | 5 => some (.ctxctlFree h f.d f.a f.b)
    | 6 => some (.ctxctlReflect h f.d f.a f.b)
    | _ => none
  | 0xF8, 1 => some (.ctxsave h f.d f.a f.b f.c)
  | 0xF8, 2 => some (.ctxrest h f.d f.a f.b)
  | 0xF8, 3 => some (.ptroot h f.d f.a f.b)
  | 0xF9, 0 => some (.frpop h f.d)
  | 0xF9, 1 => (bclassOf (f.mod.extractLsb' 0 4)).map fun k => .bgset h k f.a f.b
  | 0xF9, 2 => (bclassOf (f.mod.extractLsb' 0 4)).map fun k => .bgrd h k f.d f.a
  | 0xF9, 3 => some (.ctxprio h f.a f.b)
  | _, _ => none

/-- The instruction that a field assignment stands for, none where a code is unassigned. -/
def build (f : Fields) : Option Instr :=
  let c := f.opc.toNat / 16
  if c ≤ 1 then buildFlow f
  else if c = 2 then buildInt f
  else if c ≤ 5 then buildFloat f
  else if c ≤ 8 then buildMem f
  else if c ≤ 0xA then buildSync f
  else if c ≤ 0xE then buildEng f
  else buildSys f

/-! ### The checks of Table 4-5 -/

/-- The reserved bits of a field by its kind (Table 4-2, check 10). -/
def FK.resvOk (cox : Bool) (x : BitVec 8) : FK → Bool
  | .none => x == 0
  | .imm m => x &&& m == 0
  | .v _ _ => !cox || x &&& 0xC0 == 0
  | .s _ _ => x &&& 0xC0 == 0
  | .p | .j | .z => x &&& 0xF8 == 0
  | .q => x &&& 0xF0 == 0

/-- Register numbers below W, ranges and alignment (R12, check 12). -/
def FK.rangeOk (cox : Bool) (w : Nat) (x : BitVec 8) : FK → Bool
  | .v n al => cox || (x.toNat % al == 0 && x.toNat + n ≤ w)
  | .s n al => x.toNat % al == 0 && x.toNat + n ≤ 64
  | _ => true

/-- Checks 4 to 12 of Table 4-5, in order; the length check 2 comes first. -/
def checkFields (k : DCtx) (f : Fields) : Except DTrap (Instr × Ana × Bool) :=
  let cox := k.stream = .cox
  if f.len = 3 then .error (.illegal 1)
  else match majorForm f.opc.toNat with
  | none => .error (.illegal 2)
  | some mj =>
    if mj.priv && !k.priv then .error .privilege
    else match analyse k f, formOf f.opc.toNat f.sub.toNat with
    | some an, some fm =>
      if !(if cox then fm.cox else fm.fib) then .error (.illegal 13)
      else if !an.lens.contains f.len then .error (.illegal 1)
      else if cox && (f.pg ≠ 0 || f.pn ≠ 0) then .error (.illegal 5)
      else if !(an.d.resvOk cox f.d && an.dOk) then .error (.illegal 6)
      else if !(an.a.resvOk cox f.a && an.aOk) then .error (.illegal 7)
      else if !(an.b.resvOk cox f.b && an.bOk) then .error (.illegal 8)
      else if !(an.c.resvOk cox f.c && an.cOk) then .error (.illegal 9)
      else if !an.modOk then .error (.illegal 10)
      else if !an.immOk then .error (.illegal 11)
      else if !an.extOk then .error (.illegal 12)
      else if !fm.long && f.la ≠ 0 then .error (.illegal 4)
      else if !an.d.rangeOk cox k.w f.d then .error (.illegal 6)
      else if !an.a.rangeOk cox k.w f.a then .error (.illegal 7)
      else if !an.b.rangeOk cox k.w f.b then .error (.illegal 8)
      else if !an.c.rangeOk cox k.w f.c then .error (.illegal 9)
      else match build f with
        | some i => .ok (i, an, fm.long)
        | none => .error (.illegal 3)
    | _, _ => .error (.illegal 3)

/-- The little-endian value of a byte list (R3). -/
def leNat : List Byte → Nat
  | [] => 0
  | b :: r => b.toNat + 256 * leNat r

/-- The n low bytes of a value, least significant first (R3). -/
def leBytes : Nat → Nat → List Byte
  | 0, _ => []
  | n + 1, v => BitVec.ofNat 8 v :: leBytes n (v / 256)

/-- The length in bytes that LEN gives (R79). -/
def lenBytes (len : BitVec 2) : Nat := if len = 1 then 12 else if len = 2 then 16 else 8

/-- The fields of an instruction that starts at offset `off` of its 32-byte block, from the block's bytes:
checks 1 and 3 of Table 4-5 concern the block and the extent and are made by the fetch. -/
def fieldsAt (block : List Byte) (off : Nat) : Fields :=
  let w := BitVec.ofNat 64 (leNat ((block.drop off).take 8))
  let len := w.extractLsb' 0 2
  let up := (block.drop (off + 8)).take (lenBytes len - 8)
  Fields.ofWord w (BitVec.ofNat 64 (leNat up))

/-- Decodes an instruction from its bytes in a context: total, rejecting by the failing check
(logs 18, 19 and 30, DEDUCED). -/
def decode (k : DCtx) (bytes : List Byte) : Except DTrap (Instr × Ana × Bool) :=
  if bytes.length < 8 then .error .malformed
  else
    let f := fieldsAt bytes 0
    if f.len ≠ 3 && bytes.length < lenBytes f.len then .error .malformed
    else checkFields k f

/-- The widest context: every register number, label and relation is in range. -/
def DCtx.wide (s : Stream) : DCtx where
  stream := s
  priv := true
  w := 256
  extent := 2 ^ 32
  rels := List.replicate 8 { join := true, pairKey := false, joinRegs := [], foldRegs := [], keyRegs := [] }
  gbar := 0xF

/-- The instruction the decoder reads from `w` in the numbering of the opcode table: tried in the fibre
stream, then in the cox stream. Bits above `nbits` are zero. -/
def decodeTableWord (nbits w : Nat) : Option Instr :=
  let bytes := leBytes 16 (w % 2 ^ nbits)
  match decode (DCtx.wide .fibre) bytes with
  | .ok (i, _, _) => some i
  | .error _ =>
    match decode (DCtx.wide .cox) bytes with
    | .ok (i, _, _) => some i
    | .error _ => none

/-! ### Registers an instruction names (R87) -/

/-- A field's register kind as names, tagged by kind and number. -/
inductive Named where
  | v (n : Nat) | p (n : Nat) | j (n : Nat) | q (n : Nat) | z (n : Nat) | s (n : Nat)
  deriving DecidableEq, Repr

def FK.names (cox : Bool) (x : BitVec 8) : FK → List Named
  | .v n _ => if cox then [.s x.toNat] else (List.range n).map fun i => .v (x.toNat + i)
  | .s n _ => (List.range n).map fun i => .s (x.toNat + i)
  | .p => [.p x.toNat]
  | .j => [.j x.toNat]
  | .z => [.z x.toNat]
  | .q => [.q x.toNat]
  | _ => []

/-- The registers of the D, A, B and C fields with the field values, in that order (R87, Table 4-10). -/
def fieldNames (k : DCtx) (an : Ana) (f : Fields) : List (Nat × List Named) :=
  let cox := k.stream = .cox
  [(f.d.toNat, an.d.names cox f.d), (f.a.toNat, an.a.names cox f.a),
   (f.b.toNat, an.b.names cox f.b), (f.c.toNat, an.c.names cox f.c)]

/-- The guard and the implicit registers (R87); `nop` names no register (R91). The C field of `cst` is a displacement; its selecting
predicate is named by MOD[6:4]. -/
def impliedNames (an : Ana) (f : Fields) : List Named :=
  (if f.pg = 0 || f.opc = 0 then [] else [.p f.pg.toNat]) ++ an.implied.map .v ++
  (if f.opc = 0x72 then [.p (f.mod.extractLsb' 4 3).toNat] else [])

def allNames (k : DCtx) (an : Ana) (f : Fields) : List Named :=
  (fieldNames k an f).flatMap (·.2) ++ impliedNames an f

/-! ### Encoding -/

/-- Base fields shared by every encoded instruction. -/
def enc (opc : BitVec 8) (sub : BitVec 6) (h : Hd) : Fields where
  len := 0
  opc := opc
  la := h.la
  pg := h.pg
  pn := if h.pn then 1 else 0
  d := 0
  a := 0
  b := 0
  c := 0
  mod := 0
  sub := sub
  ext := 0

def bit (b : Bool) (n : Nat) : BitVec 8 := if b then BitVec.ofNat 8 (2 ^ n) else 0

def IntTy.code : IntTy → BitVec 8
  | .i32 => 0 | .n32 => 1 | .i64 => 2 | .n64 => 3

def BW.ty : BW → IntTy
  | .b32 => .n32
  | .b64 => .n64

def tyBits (t : IntTy) : BitVec 8 := t.code <<< 2

def Rnd.code : Rnd → BitVec 8
  | .rne => 0 | .rz => 1 | .ru => 2 | .rd => 3

def Scope.code : Scope → BitVec 8
  | .core => 0 | .clu => 1 | .die => 2 | .dev => 3 | .sys => 4

def LdSz.code : LdSz → BitVec 8
  | .n8 => 0 | .i8 => 1 | .n16 => 2 | .i16 => 3 | .b32 => 4 | .b64 => 5 | .b128 => 6

def StSz.code : StSz → BitVec 8
  | .b8 => 0 | .b16 => 2 | .b32 => 4 | .b64 => 5 | .b128 => 6

def ICc.code : ICc → BitVec 8
  | .eq => 0 | .ne => 1 | .lt => 2 | .le => 3 | .gt => 4 | .ge => 5

def FCc.code : FCc → BitVec 8
  | .eq => 0 | .ne => 1 | .lt => 2 | .le => 3 | .gt => 4 | .ge => 5 | .nan => 6 | .num => 7

def PlogOp.code : PlogOp → BitVec 8
  | .and => 0 | .or => 1 | .xor => 2 | .andn => 3

def CvtTy.code : CvtTy → BitVec 8
  | .i8 => 0 | .n8 => 1 | .i16 => 2 | .n16 => 3 | .i32 => 4 | .n32 => 5 | .i64 => 6 | .n64 => 7
  | .f32 => 8 | .f16 => 9 | .bf16 => 10 | .e4m3 => 11 | .e5m2 => 12

def RedOp.mod : RedOp → BitVec 8
  | .addI => 0x00 | .addN => 0x04 | .addF r => 0x08 ||| r.code
  | .minI => 0x10 | .minN => 0x14 | .minF => 0x18
  | .maxI => 0x20 | .maxN => 0x24 | .maxF => 0x28
  | .andB => 0x34 | .orB => 0x44 | .xorB => 0x54

def Reuse.code : Reuse → BitVec 8
  | .normal => 0 | .stream => 1 | .keep => 2 | .bypass => 3

def UnpackTy.code : UnpackTy → BitVec 8
  | .f16 => 0 | .bf16 => 1 | .e4m3 => 2 | .e5m2 => 3

def F16Ty.bit (t : F16Ty) : BitVec 8 := if t = .bf16 then 4 else 0
def F8Ty.bit (t : F8Ty) : BitVec 8 := if t = .e5m2 then 4 else 0

def Level.code : Level → BitVec 8
  | .blk => 0 | .clu => 1 | .grid => 2

def HSz.code : HSz → BitVec 8
  | .b32 => 0 | .b64 => 1 | .b128 => 2

def BClass.code : BClass → BitVec 8
  | .grp => 0 | .cox => 1 | .mma => 2 | .bank => 3 | .eddy => 4
  | .coll => 5 | .copy => 6 | .hbm => 7 | .far => 8 | .flit => 9

def AFmt.code : AFmt → BitVec 3
  | .e4m3 => 0 | .e5m2 => 1 | .bf16 => 2

def Fields.with96 (f : Fields) (v : BitVec 32) : Fields := { f with len := 1, ext := v.zeroExtend 64 }

/-- Writes the last source: B (`inC = false`) or C (R211). -/
def Fields.putSrc (f : Fields) (s : Src) : Fields :=
  match s with
  | .reg r => { f with b := r }
  | .imm8 v => { f with c := v, mod := f.mod ||| 0x80 }
  | .imm32 v => ({ f with mod := f.mod ||| 0x80 } : Fields).with96 v

def Fields.putSrcC (f : Fields) (s : Src) : Fields :=
  match s with
  | .reg r => { f with c := r }
  | .imm8 v => { f with c := v, mod := f.mod ||| 0x80 }
  | .imm32 v => ({ f with mod := f.mod ||| 0x80 } : Fields).with96 v

def Fields.putSrcA (f : Fields) (s : Src) : Fields :=
  match s with
  | .reg r => { f with a := r }
  | .imm8 v => { f with c := v, mod := f.mod ||| 0x80 }
  | .imm32 v => ({ f with mod := f.mod ||| 0x80 } : Fields).with96 v

def Fields.putF (f : Fields) (s : FSrc) : Fields :=
  match s with
  | .reg r => { f with b := r }
  | .imm v => ({ f with mod := f.mod ||| 0x80 } : Fields).with96 v

def Fields.putFC (f : Fields) (s : FSrc) : Fields :=
  match s with
  | .reg r => { f with c := r }
  | .imm v => ({ f with mod := f.mod ||| 0x80 } : Fields).with96 v

def Fields.putDisp (f : Fields) (x : Disp) : Fields :=
  match x with
  | .d8 v => { f with c := v }
  | .d32 v => f.with96 v

def encBin (opc : BitVec 8) (sub : BitVec 6) (h : Hd) (o : IBin) : Fields :=
  ({ enc opc sub h with d := o.d, a := o.a, mod := tyBits o.ty ||| bit o.sat 4 } : Fields).putSrc o.b

def encUn (opc : BitVec 8) (sub : BitVec 6) (h : Hd) (o : IUn) : Fields :=
  { enc opc sub h with d := o.d, a := o.a, mod := tyBits o.ty ||| bit o.sat 4 }

def encBB (opc : BitVec 8) (sub : BitVec 6) (h : Hd) (o : BBin) : Fields :=
  ({ enc opc sub h with d := o.d, a := o.a, mod := tyBits o.bw.ty } : Fields).putSrc o.b

def encBU (opc : BitVec 8) (sub : BitVec 6) (h : Hd) (o : BUn) : Fields :=
  { enc opc sub h with d := o.d, a := o.a, mod := tyBits o.bw.ty }

def encTri (opc : BitVec 8) (sub : BitVec 6) (h : Hd) (o : ITri) : Fields :=
  ({ enc opc sub h with d := o.d, a := o.a, b := o.b, mod := tyBits o.ty } : Fields).putSrcC o.c

def encF (opc : BitVec 8) (sub : BitVec 6) (h : Hd) (o : FBin) : Fields :=
  ({ enc opc sub h with d := o.d, a := o.a, mod := o.rnd.code } : Fields).putF o.b

def encFU (opc : BitVec 8) (sub : BitVec 6) (h : Hd) (o : FUn) : Fields :=
  { enc opc sub h with d := o.d, a := o.a, mod := o.rnd.code }

def encH (sub : BitVec 6) (h : Hd) (o : HBin) : Fields :=
  { enc 0x31 sub h with d := o.d, a := o.a, b := o.b, mod := o.rnd.code ||| o.ty.bit }

def encC (sub : BitVec 6) (h : Hd) (o : CBin) : Fields :=
  { enc 0x34 sub h with d := o.d, a := o.a, b := o.b, mod := o.rnd.code }

/-- D, A, B, C and MOD given. -/
def enc5 (opc : BitVec 8) (sub : BitVec 6) (h : Hd) (d a b c mod : BitVec 8) : Fields :=
  { enc opc sub h with d := d, a := a, b := b, c := c, mod := mod }

def ord43 (o : Ord) : BitVec 8 := bit o.rel 4 ||| bit o.acq 3 ||| o.scope.code
def ordAt (o : Ord) : BitVec 8 := bit o.rel 3 ||| bit o.acq 2 ||| (o.scope.code <<< 4)
def flagBits (q : Option Scope) : BitVec 8 :=
  match q with
  | some s => 8 ||| (s.code <<< 4)
  | none => 0

def encAt (opc : BitVec 8) (sub : BitVec 6) (h : Hd) (o : AtOps) : Fields :=
  (enc5 opc sub h o.d o.a o.b 0 (ordAt o.o ||| o.ty.code)).putDisp o.disp

def encAtF (sub : BitVec 6) (h : Hd) (o : AtFOps) : Fields :=
  (enc5 0x81 sub h o.d o.a o.b 0 (ordAt o.o ||| bit o.num 7)).putDisp o.disp

def encMr (sub : BitVec 6) (h : Hd) (mod : BitVec 8) (o : Ord) (a b : BitVec 8) (x : Disp) : Fields :=
  (enc5 0x82 sub h 0 a b 0 (ordAt o ||| mod)).putDisp x

def encCnt (opc : BitVec 8) (sub : BitVec 6) (h : Hd) (rlx : Bool) (d b : BitVec 8) (c : Count) : Fields :=
  match c with
  | .reg a => enc5 opc sub h d a 0 b (bit rlx 0)
  | .imm v => (enc5 opc sub h d 0 0 b (bit rlx 0)).with96 v

def z8 (x : BitVec n) : BitVec 8 := x.zeroExtend 8

def encMma (h : Hd) (o : MmaOps) : Fields :=
  { enc5 0xB0 0 h (z8 o.z) o.a o.b o.c
      (bit o.pair 0 ||| bit o.th 1 ||| bit o.sa 2 ||| bit o.sb 3 ||| bit o.init 4) with
    len := 2,
    ext := o.mult ++ (0 : BitVec 11) ++ o.nx ++ o.kb ++ (if o.k64 then (1 : BitVec 1) else 0) ++
      (o.afmt.code.truncate 2 : BitVec 2) ++ (if o.th then (0 : BitVec 3) else o.bfmt.code) ++ (0 : BitVec 6) }

/-- The fields of an instruction from its chapter's encoding table; events have no encoding. -/
def fieldsOf : Instr → Option Fields
  | .nop h => some (enc 0x00 0 h)
  | .nopW12 h => some { enc 0x00 0 h with len := 1 }
  | .nopW16 h => some { enc 0x00 0 h with len := 2 }
  | .bra h t => some ((enc 0x01 0 h).with96 t)
  | .braZ h a t => some ((enc5 0x01 1 h 0 a 0 0 0).with96 t)
  | .braNz h a t => some ((enc5 0x01 2 h 0 a 0 0 0).with96 t)
  | .braAny h p t => some ((enc5 0x01 3 h 0 (z8 p) 0 0 0).with96 t)
  | .braAll h p t => some ((enc5 0x01 4 h 0 (z8 p) 0 0 0).with96 t)
  | .call h d t => some ((enc5 0x02 0 h d 0 0 0 0).with96 t)
  | .callR h d a => some (enc5 0x02 1 h d a 0 0 0)
  | .ret h a => some (enc5 0x02 2 h 0 a 0 0 0)
  | .brx h a n t => some ((enc5 0x03 0 h 0 a 0 n 0).with96 t)
  | .spawn h d a n t => some ((enc5 0x10 0 h d a 0 (z8 n) 0).with96 t)
  | .exit h => some (enc 0x10 1 h)
  | .kill h d a => some (enc5 0x10 2 h d a 0 0 0)
  | .renter h r => some (enc5 0x11 0 h 0 0 0 (z8 r) 0)
  | .rleave h r => some (enc5 0x11 1 h 0 0 0 (z8 r) 0)
  | .rjoin h r t => some ((enc5 0x12 0 h 0 0 0 (z8 r) 0).with96 t)
  | .rfold h r => some (enc5 0x12 1 h 0 0 0 (z8 r) 0)
  | .matchAny h b64 d a => some (enc5 0x13 0 h d a 0 0 (bit b64 0))
  | .matchAll h b64 p a => some (enc5 0x13 1 h (z8 p) a 0 0 (bit b64 0))
  | .rprobe h d a r => some (enc5 0x13 2 h d a 0 (z8 r) 0)
  | .compact h t => some (enc5 0x14 0 h 0 0 0 t 0)
  | .regroup h t => some (enc5 0x14 1 h 0 0 0 t 0)
  | .regroupKey h b64 a t => some (enc5 0x14 2 h 0 a 0 t (bit b64 0))
  | .add h o => some (encBin 0x20 0 h o)
  | .sub h o => some (encBin 0x20 1 h o)
  | .neg h o => some (encUn 0x20 2 h o)
  | .abs h o => some (encUn 0x20 3 h o)
  | .min h o => some (encBin 0x20 4 h o)
  | .max h o => some (encBin 0x20 5 h o)
  | .mul h o => some (encBin 0x21 0 h o)
  | .mulhi h o => some (encBin 0x21 1 h o)
  | .mulwide h o => some (encBin 0x21 2 h o)
  | .mad h o => some (encTri 0x21 3 h o)
  | .div h o => some (encBin 0x22 0 h o)
  | .rem h o => some (encBin 0x22 1 h o)
  | .and h o => some (encBB 0x23 0 h o)
  | .or h o => some (encBB 0x23 1 h o)
  | .xor h o => some (encBB 0x23 2 h o)
  | .not h o => some (encBU 0x23 3 h o)
  | .andn h o => some (encBB 0x23 4 h o)
  | .shl h o => some (encBin 0x23 5 h o)
  | .shr h o => some (encBin 0x23 6 h o)
  | .setp h cc o =>
    some (({ enc 0x24 0 h with d := o.d, a := o.a, mod := tyBits o.ty ||| (cc.code <<< 4) } : Fields).putSrc o.b)
  | .sel h ty d a b c => some (enc5 0x24 1 h d a b c (tyBits ty))
  | .plog h op d a b => some (enc5 0x24 2 h (z8 d) (z8 a) (z8 b) 0 (op.code <<< 4))
  | .popc h o => some (encBU 0x25 0 h o)
  | .clz h o => some (encBU 0x25 1 h o)
  | .ctz h o => some (encBU 0x25 2 h o)
  | .brev h o => some (encBU 0x25 3 h o)
  | .bfe h o => some (({ enc 0x25 4 h with d := o.d, a := o.a, mod := tyBits o.ty } : Fields).putSrcC o.b)
  | .bfi h o => some (encTri 0x25 5 h o)
  | .mov h ty d a => some (({ enc 0x26 0 h with d := d, mod := tyBits ty } : Fields).putSrcA a)
  | .movx h d v => some { enc 0x26 1 h with d := d, len := 2, ext := v }
  | .addF32 h o => some (encF 0x30 0 h o)
  | .subF32 h o => some (encF 0x30 1 h o)
  | .mulF32 h o => some (encF 0x30 2 h o)
  | .fmaF32 h o c => some ((encF 0x30 3 h o).putFC c)
  | .addF16 h o => some (encH 0 h o)
  | .subF16 h o => some (encH 1 h o)
  | .mulF16 h o => some (encH 2 h o)
  | .fmaF16 h o c => some { encH 3 h o with c := c }
  | .minF32 h num d a b => some ((enc5 0x32 0 h d a 0 0 (bit num 2)).putF b)
  | .maxF32 h num d a b => some ((enc5 0x32 1 h d a 0 0 (bit num 2)).putF b)
  | .setpF32 h cc p a b => some ((enc5 0x32 2 h (z8 p) a 0 0 (cc.code <<< 4)).putF b)
  | .classF32 h d a => some (enc5 0x32 3 h d a 0 0 0)
  | .divF32 h o => some (encF 0x33 0 h o)
  | .sqrtF32 h o => some (encFU 0x33 1 h o)
  | .rcpF32 h o => some (encFU 0x33 2 h o)
  | .rsqrtF32 h o => some (encFU 0x33 3 h o)
  | .caddC64 h o => some (encC 0 h o)
  | .cmulC64 h o => some (encC 1 h o)
  | .cfmaC64 h o c => some { encC 2 h o with c := c }
  | .cvt h rnd sat el dt st d a =>
    some (enc5 0x40 0 h d a 0 ((dt.code <<< 4) ||| st.code) (rnd.code ||| bit sat 2 ||| (z8 el <<< 3)))
  | .prmt h d a b c => some ((enc5 0x41 0 h d a b 0 0).putFC c)
  | .packF16 h ty r d a b => some (enc5 0x41 1 h d a b 0 (r.code ||| ty.bit))
  | .packF8 h ty sat r d a b => some (enc5 0x41 2 h d a b 0 (r.code ||| ty.bit ||| bit sat 3))
  | .unpack h ty d a => some (enc5 0x41 3 h d a 0 0 (ty.code <<< 2))
  | .mxq h ty d a => some (enc5 0x42 0 h d a 0 0 ty.bit)
  | .mxw h ty d a b => some (enc5 0x42 1 h d a b 0 ty.bit)
  | .shflIdx h b64 d a b => some ((enc5 0x50 0 h d a 0 0 (bit b64 0)).putF b)
  | .shflUp h b64 d a b => some ((enc5 0x50 1 h d a 0 0 (bit b64 0)).putF b)
  | .shflDown h b64 d a b => some ((enc5 0x50 2 h d a 0 0 (bit b64 0)).putF b)
  | .shflXor h b64 d a b => some ((enc5 0x50 3 h d a 0 0 (bit b64 0)).putF b)
  | .red h o d a => some (enc5 0x51 0 h d a 0 0 o.mod)
  | .scan h o d a => some (enc5 0x51 1 h d a 0 0 o.mod)
  | .scanx h o d a => some (enc5 0x51 2 h d a 0 0 o.mod)
  | .qxH h b64 d a => some (enc5 0x52 0 h d a 0 0 (bit b64 0))
  | .qxV h b64 d a => some (enc5 0x52 1 h d a 0 0 (bit b64 0))
  | .qxD h b64 d a => some (enc5 0x52 2 h d a 0 0 (bit b64 0))
  | .qbc h b64 d a j => some (enc5 0x52 3 h d a 0 (z8 j) (bit b64 0))
  | .ballot h d p => some (enc5 0x53 0 h d (z8 p) 0 0 0)
  | .pfxpop h d p => some (enc5 0x53 1 h d (z8 p) 0 0 0)
  | .conf h b64 d a => some (enc5 0x54 0 h d a 0 0 (bit b64 0))
  | .confFirst h b64 p a => some (enc5 0x54 1 h (z8 p) a 0 0 (bit b64 0))
  | .bpcnt h d a b k => some (enc5 0x55 0 h d a b (z8 k) 0)
  | .bpmatch h d a b k => some (enc5 0x55 1 h d a b (z8 k) 0)
  | .mvWt h o => some (enc5 0x56 0 h o.d o.a o.b ((z8 o.m1 <<< 4) ||| z8 o.k1)
      (o.rnd.code ||| bit o.bf16 2 ||| bit o.bias 3 ||| bit o.relu 4))
  | .ld h q z d a x => some ((enc5 0x60 0 h d a 0 0 (flagBits q ||| z.code)).putDisp x)
  | .st h q z a b x => some ((enc5 0x61 0 h 0 a b 0 (flagBits q ||| z.code)).putDisp x)
  | .stTag h q z d a b x => some ((enc5 0x61 0 h d a b 0 (flagBits q ||| z.code ||| 0x80)).putDisp x)
  | .ldc h z d a x => some ((enc5 0x62 0 h d a 0 0 z.code).putDisp x)
  | .cpa h o t a b c => some (enc5 0x70 0 h t a b c (ord43 o))
  | .cpaReg h o t a b c n => some (enc5 0x70 1 h t a b c (ord43 o ||| (z8 n <<< 5)))
  | .gth h o => some ((enc5 0x71 0 h o.r o.a 0 0 (o.sz.code ||| (o.cls.code <<< 3))).putDisp o.disp)
  | .sct h o => some ((enc5 0x71 1 h 0 o.a o.r 0 (o.sz.code ||| (o.cls.code <<< 3))).putDisp o.disp)
  | .gthx h o => some ((enc5 0x71 2 h o.r o.a o.b 0 (o.sz.code ||| (o.cls.code <<< 3) ||| (z8 o.sh <<< 5))).putDisp o.disp)
  | .sctx h o => some ((enc5 0x71 3 h o.r o.a o.b 0 (o.sz.code ||| (o.cls.code <<< 3) ||| (z8 o.sh <<< 5))).putDisp o.disp)
  | .cst h b64 pc d a b x => some ((enc5 0x72 0 h d a b 0 (4 ||| bit b64 0 ||| (z8 pc <<< 4))).putDisp x)
  | .embpool h d a b c k => some (enc5 0x73 0 h d a b c (z8 k))
  | .embsw h s d a b => some (enc5 0x73 1 h d a b 0 s.code)
  | .atomAdd h o => some (encAt 0x80 0 h o)
  | .atomMin h o => some (encAt 0x80 1 h o)
  | .atomMax h o => some (encAt 0x80 2 h o)
  | .atomAnd h o => some (encAt 0x80 3 h o)
  | .atomOr h o => some (encAt 0x80 4 h o)
  | .atomXor h o => some (encAt 0x80 5 h o)
  | .atomExch h o => some (encAt 0x80 6 h o)
  | .atomCas h o => some (encAt 0x80 7 h o)
  | .atomAddF32 h o => some (encAtF 0 h o)
  | .atomMinF32 h o => some (encAtF 1 h o)
  | .atomMaxF32 h o => some (encAtF 2 h o)
  | .mredAdd h ty o a b x => some (encMr 0 h ty.code o a b x)
  | .mredMin h ty o a b x => some (encMr 1 h ty.code o a b x)
  | .mredMax h ty o a b x => some (encMr 2 h ty.code o a b x)
  | .mredAnd h ty o a b x => some (encMr 3 h ty.code o a b x)
  | .mredOr h ty o a b x => some (encMr 4 h ty.code o a b x)
  | .mredXor h ty o a b x => some (encMr 5 h ty.code o a b x)
  | .mredAddF32 h o a b x => some (encMr 8 h 0 o a b x)
  | .mredMinF32 h num o a b x => some (encMr 9 h (bit num 7) o a b x)
  | .mredMaxF32 h num o a b x => some (encMr 10 h (bit num 7) o a b x)
  | .fenceRel h s => some { enc 0x83 0 h with mod := s.code }
  | .fenceAcq h s => some { enc 0x83 1 h with mod := s.code }
  | .fenceSc h s => some { enc 0x83 2 h with mod := s.code }
  | .fenceAck h => some (enc 0x83 3 h)
  | .fenceEng h s => some { enc 0x83 4 h with mod := s.code }
  | .barSync h r d b c => some (encCnt 0x90 0 h r d (z8 b) c)
  | .barArrive h r d b c => some (encCnt 0x90 1 h r d (z8 b) c)
  | .barWait h r d a b => some (enc5 0x90 2 h d a 0 (z8 b) (bit r 0))
  | .cbarSync h r d b c => some (encCnt 0x91 0 h r d (z8 b) c)
  | .cbarArrive h r d b c => some (encCnt 0x91 1 h r d (z8 b) c)
  | .cbarWait h r d a b => some (enc5 0x91 2 h d a 0 (z8 b) (bit r 0))
  | .gbarSync h r d b c => some (encCnt 0x92 0 h r d (z8 b) c)
  | .gbarArrive h r d b c => some (encCnt 0x92 1 h r d (z8 b) c)
  | .gbarWait h r d a b => some (enc5 0x92 2 h d a 0 (z8 b) (bit r 0))
  | .barinit h l a b => some (enc5 0x93 0 h 0 a 0 (z8 b) l.code)
  | .barinv h l b => some (enc5 0x93 1 h 0 0 0 (z8 b) l.code)
  | .rjset h j => some (enc5 0x94 0 h (z8 j) 0 0 0 0)
  | .rjw h j => some (enc5 0x94 1 h 0 (z8 j) 0 0 0)
  | .qbind h d a q k => some (enc5 0xA0 0 h d a (z8 q) (z8 k) 0)
  | .qunbind h d q => some (enc5 0xA0 1 h d 0 (z8 q) 0 0)
  | .qpush h b64 q a => some (enc5 0xA1 0 h (z8 q) a 0 0 (bit b64 0))
  | .qpop h b64 bc d q => some (enc5 0xA1 1 h d (z8 q) 0 0 (bit b64 0 ||| bit bc 1))
  | .qdrain h d q => some (enc5 0xA1 2 h d (z8 q) 0 0 0)
  | .dqPush h a => some (enc5 0xA2 0 h 0 a 0 0 0)
  | .dqPop h b64 d => some (enc5 0xA3 0 h d 0 0 0 (bit b64 0))
  | .dqPopf h b64 d => some (enc5 0xA3 1 h d 0 0 0 (bit b64 0))
  | .hrecv h t d q => some (enc5 0xA4 0 h d (z8 q) 0 0 (bit t 0))
  | .mma h o => some (encMma h o)
  | .zzero h z => some (enc5 0xB1 0 h (z8 z) 0 0 0 0)
  | .zld h z a b => some (enc5 0xB1 1 h (z8 z) a b 0 0)
  | .zst h a z b => some (enc5 0xB1 2 h (z8 z) a b 0 0)
  | .zrd h d z j => some (enc5 0xB1 3 h d (z8 z) 0 j 0)
  | .plse h p t d => some (enc5 0xB2 0 h d 0 0 0 (bit p 0 ||| bit t 1))
  | .plrl h d => some (enc5 0xB2 1 h d 0 0 0 0)
  | .scinv h => some (enc 0xB3 0 h)
  | .scpf h a n => some (enc5 0xB3 1 h 0 a 0 n 0)
  | .zq h e a z c => some (enc5 0xB4 0 h 0 a (z8 z) c (bit e 0))
  | .cbcfg h d a b => some (enc5 0xC0 0 h d a b 0 0)
  | .cbclr h d => some (enc5 0xC0 1 h d 0 0 0 0)
  | .cbrel h d => some (enc5 0xC0 2 h d 0 0 0 0)
  | .cbstat h d => some (enc5 0xC0 3 h d 0 0 0 0)
  | .cbpush h d a => some (enc5 0xC1 0 h d a 0 0 0)
  | .cbmerge h d => some (enc5 0xC2 0 h d 0 0 0 0)
  | .cbrd h s d a => some (enc5 0xC3 0 h d a 0 0 (bit s 0))
  | .cbsave h d a => some (enc5 0xC3 1 h d a 0 0 0)
  | .cbrest h d a => some (enc5 0xC3 2 h d a 0 0 0)
  | .edgate h o k d a b s => some (enc5 0xD0 0 h d a b (z8 s) (bit o.acq 4 ||| bit o.rel 3 ||| o.scope.code ||| (z8 k <<< 5)))
  | .edmeas h o d a s => some (enc5 0xD1 0 h d a 0 (z8 s) (bit o.acq 4 ||| bit o.rel 3 ||| o.scope.code))
  | .ednorm h o d s => some (enc5 0xD1 1 h d 0 0 (z8 s) (bit o.acq 4 ||| bit o.rel 3 ||| o.scope.code))
  | .edmapInit h d a s => some (enc5 0xD2 0 h d a 0 (z8 s) 0)
  | .edmapRd h d a s => some (enc5 0xD2 1 h d a 0 (z8 s) 0)
  | .edmapWr h d a s => some (enc5 0xD2 2 h d a 0 (z8 s) 0)
  | .edswap h d a s => some (enc5 0xD2 3 h d a 0 (z8 s) 0)
  | .edmapFree h d s => some (enc5 0xD2 4 h d 0 0 (z8 s) 0)
  | .edsync h sc s => some (enc5 0xD3 0 h 0 0 0 (z8 s) sc.code)
  | .collRed h o d a => some (enc5 0xE0 0 h d a 0 0 (ord43 o))
  | .collRs h o d a => some (enc5 0xE0 1 h d a 0 0 (ord43 o))
  | .collAg h o d a => some (enc5 0xE0 2 h d a 0 0 (ord43 o))
  | .collBc h o d a => some (enc5 0xE0 3 h d a 0 0 (ord43 o))
  | .xdisp h o d a => some (enc5 0xE1 0 h d a 0 0 (ord43 o))
  | .xfix h o d a => some (enc5 0xE1 1 h d a 0 0 (ord43 o))
  | .lkst h d a => some (enc5 0xE2 0 h d a 0 0 0)
  | .lkctlUp h d a b => some (enc5 0xE2 1 h d a b 0 0)
  | .lkctlDown h d a b => some (enc5 0xE2 1 h d a b 0 1)
  | .lkctlRxbuf h d a b => some (enc5 0xE2 1 h d a b 0 2)
  | .lkctlPost h d a b => some (enc5 0xE2 1 h d a b 0 3)
  | .lkctlClr h d a b => some (enc5 0xE2 1 h d a b 0 4)
  | .srd h d n => some (enc5 0xF0 0 h d 0 0 n 0)
  | .swr h a n => some (enc5 0xF0 1 h 0 a 0 n 0)
  | .xvec h t => some ((enc 0xF1 0 h).with96 t)
  | .xvecClr h => some (enc 0xF1 1 h)
  | .xret h => some (enc 0xF1 2 h)
  | .xretSkip h => some (enc 0xF1 3 h)
  | .yield h => some (enc 0xF1 4 h)
  | .ctxctlCreate h d a b => some (enc5 0xF8 0 h d a b 0 0)
  | .ctxctlStart h d a b => some (enc5 0xF8 0 h d a b 0 1)
  | .ctxctlStop h d a b => some (enc5 0xF8 0 h d a b 0 2)
  | .ctxctlResume h d a b => some (enc5 0xF8 0 h d a b 0 3)
  | .ctxctlKill h d a b => some (enc5 0xF8 0 h d a b 0 4)
  | .ctxctlFree h d a b => some (enc5 0xF8 0 h d a b 0 5)
  | .ctxctlReflect h d a b => some (enc5 0xF8 0 h d a b 0 6)
  | .ctxsave h d a b c => some (enc5 0xF8 1 h d a b c 0)
  | .ctxrest h d a b => some (enc5 0xF8 2 h d a b 0 0)
  | .ptroot h d a b => some (enc5 0xF8 3 h d a b 0 0)
  | .frpop h d => some (enc5 0xF9 0 h d 0 0 0 0)
  | .bgset h k a b => some (enc5 0xF9 1 h 0 a b 0 k.code)
  | .bgrd h k d a => some (enc5 0xF9 2 h d a 0 0 k.code)
  | .ctxprio h a b => some (enc5 0xF9 3 h 0 a b 0 0)
  | .xlat h d a => some (enc5 0xF2 0 h d a 0 0 0)
  | .tinv h all d a b => some (enc5 0xF2 1 h d a b 0 (bit all 0))
  | .htab h d a b => some (enc5 0xF2 2 h d a b 0 0)
  | .hinv h all d a => some (enc5 0xF2 3 h d a 0 0 (bit all 0))
  | .hld h z d a b => some (enc5 0xF2 4 h d a b 0 z.code)
  | .hst h z a b c => some (enc5 0xF2 5 h 0 a b c z.code)
  | .launch h w d a b => some (enc5 0xF3 0 h d a b 0 (bit w 0))
  | .walkInit h a b c => some (enc5 0xF3 1 h 0 a b c 0)
  | .walkNext h d => some (enc5 0xF3 2 h d 0 0 0 0)
  | .stgq h d s => some (enc5 0xF4 0 h d 0 0 (z8 s) 0)
  | .stgres h a s => some (enc5 0xF4 1 h 0 a 0 (z8 s) 0)
  | .kend h => some (enc 0xF4 2 h)
  | .joinEmit _ _ _ | .foldCombine _ _ _ | .compactClose _ _ _ | .regroupClose _ _ _ | .pageWalk _ _ _
  | .migRewalk _ _ _ | .loadReturn _ _ | .collectorSend _ _ | .homeSliceWrite _ _ | .homeSliceAtomic _ _
  | .copyPerform _ | .enginePortTake _ _ _ | .resultEnter _ _ _ | .stageQueueTake _ _ _ | .stageSpawn _ _ _
  | .commandMessageArrive _ | .groupForm _ _ | .recordAssign _ _ | .partReturn _ _ _ _ | .fairnessExpiry _ _ _
  | .swapOut _ _ _ | .windowGrant _ _ _ | .stuckBlock _ _ | .leaseGrant _ | .quantiserCommand _
  | .copyPortCommand _ | .collectorPrefetch _ | .bankArrival _ | .overflowRecordEnter _ | .bankPushCommand _
  | .bankMergeCommand _ | .eddyCommandExecute _ _ | .eddySwapLand _ _ _ _ | .portRed _ | .portRs _ | .portAg _
  | .portBc _ | .portXdisp _ | .portXfix _ | .collectiveBlockArrive _ _ _ _ | .rmaWrite _ | .rmaRead _
  | .registerWindow _ | .releaseWindow _ | .uePacketReceive _ | .flitReceive _ _ | .replay _ | .portTrained _ _
  | .trainingTimeout _ | .portFail _ | .remoteRequest _ | .remoteReply _ _ _ | .destinationLost _
  | .drainComplete _ | .faultRecordPost _ | .strokeBoundary _ | .becalm _ | .wake _ | .placementTurn
  | .blockComplete _ _ | .completionRecordWrite _ _ | .powerOnReset | .firmwareImageRead _
  | .trainingComplete _ _ _ | .attestationChallenge _ | .thermalTrip _ | .thermalThrottle _ | .thermalRecover _
  | .powerLimitWindow _ | .mgpwrWrite _ | .mgpinWrite _ _ | .mgpopWrite | .managementWriteOther _ | .dieLost _ => none

/-- The bytes of an instruction in memory order (R80). -/
def encode (i : Instr) : Option (List Byte) :=
  (fieldsOf i).map fun f => leBytes 8 f.base.toNat ++ leBytes (lenBytes f.len - 8) f.ext.toNat

/-- Whether a row is an event of the hardware or the outside world, which has no encoding. -/
def Instr.isEvent (i : Instr) : Bool := (fieldsOf i).isNone

end Sys2Proof
end

