-- ==== Sys2Proof/Machine/State.lean ====
section
/-! DEFINITION. The state of the BLX-4 device: everything the spec gives the machine, as plain data,
and its value at power-on (State.reset). -/

namespace Sys2Proof.Machine

open Sys2Proof

/-- Why the machine stops with a fault. Every trap and fault of Table 5-2 is a next state; only a
thermal halt stops the clocks. -/
inductive Fault where
  /-- Raised by `step` when the device is HALTED and the turn needs a clock (R418). Safe: the spec says
  every die stops its clocks. -/
  | thermalHalt
  deriving DecidableEq, Repr

/-- Why the machine has no meaning for an instruction. -/
inductive Refusal where
  /-- Raised by an arm of `exec` whose instruction has no meaning yet. Safe: nothing is claimed of it. -/
  | notModelled (mnemonic : String)
  deriving DecidableEq, Repr

/-- Memory as (address, byte) pairs, addresses strictly rising, no entry zero: an unlisted byte reads
zero, as initialisation leaves it (R423). -/
abbrev Mem := List Host.Cell

/-- The party that issued something: the cox thread of a block, or a fibre by its identifier (R292). -/
inductive Who where
  | cox
  | fib (fid : Nat)
  deriving DecidableEq, Repr

/-- A register that an instruction names (R87). -/
inductive RName where
  | v (n : Nat) | p (n : Nat) | j (n : Nat) | q (n : Nat) | z (n : Nat) | s (n : Nat)
  deriving DecidableEq, Repr

/-- An open lookahead window (R86): the issue that opened it, the registers its form names in field
order (with their field values), the instructions still inside it, and how many have passed. -/
structure Window where
  issue : Nat
  names : List RName
  left : Nat
  pos : Nat
  deriving DecidableEq, Repr

/-- The trap registers of a fibre (R23, R95, R96). -/
structure XRegs where
  xf0 : W32 := 0
  xf1 : W32 := 0
  xf2 : W32 := 0
  xf3 : W32 := 0
  xinst : W64 := 0
  xext : W64 := 0
  xcause : W32 := 0
  xpc : W64 := 0
  deriving DecidableEq, Repr

/-- What a parked party waits for (Table 7-2). A barrier wait names its level (0 block, 1 cluster,
2 grid), number, status register, the phase of a `.wait`, and whether its release is an acquire. A relation wait
holds the entry label of an `rjoin`, whether the lane has arrived, and whether it arrives at the next instance. -/
inductive Wait where
  | rejoin (j : Nat)
  | barrier (lvl b : Nat) (d : RegNo) (t : Option W32) (acq : Bool)
  | relation (fold : Bool) (rel : Nat) (label : W32) (arrived : Bool) (reenter : Bool)
  | compact (t : Nat) (start : Nat)
  | regroup (entry : Nat)
  | fault (code : BitVec 8) (info : BitVec 16) (page : Nat)
  deriving DecidableEq, Repr

/-- Fibre states of Table 7-1; an ENDED fibre is no longer listed. -/
inductive Life where
  | unborn | ungrouped | ready | parked | swapped | returning
  deriving DecidableEq, Repr

/-- One register write of one party. -/
inductive Wr where
  | v (r : Nat) (x : W32)
  | s (r : Nat) (x : W64)
  | p (n : Nat) (b : Bool)
  | nft (b : Bool)
  deriving DecidableEq, Repr

/-- A fibre (R11, R23, R136, R260). `sb` lists registers under a scoreboard bit with the operation that
clears each (R276); `priv` lists the 64-byte pieces of private space it has written (R260). `win` says that it
holds a window, `wbase` where in its lane column (R11), `granted` the cycle in which a RETURNING fibre got it, `next` where
it resumes after its wait, and `stuck` that its spill transfer waits for a resume (R260). `held` are the writes of its wait
that it receives with its window. An UNBORN fibre has `regs` until its spill image is written. Its releases cover what entered its core's order before number `seen` (log 73). -/
structure Fibre where
  fid : Nat
  life : Life
  stage : Nat
  part : Nat
  col : Nat
  fslot : Nat
  pc : W64
  preds : BitVec 8 := 1
  regs : List W32
  nftrap : Bool := false
  x : XRegs := {}
  origin : Option Nat := none
  wait : Option Wait := none
  sb : List (Nat × Nat) := []
  priv : List Nat := []
  win : Bool := true
  wbase : Nat := 0
  granted : Nat := 0
  next : W64 := 0
  stuck : Bool := false
  held : List Wr := []
  seen : Nat := 0
  deriving DecidableEq, Repr

/-- A part: its group record (R139–R145). `lanes` lists its members' lane and identifier in ascending
lane order; `running` is the running lane of serial mode (R144), and `mute` the cycle after a `yield`, in which the part issues
nothing (R113). -/
structure Part where
  id : Nat
  part : Nat
  stage : Nat
  origin : Nat
  lanes : List (Nat × Nat)
  serial : Bool := false
  running : Option Nat := none
  windows : List Window := []
  passed : Nat := 0
  must : Bool := false
  yielded : Bool := false
  mute : Option Nat := none
  deriving DecidableEq, Repr

/-- A rejoin mask (R186). -/
structure JMask where
  set : BitVec 32 := 0
  arv : BitVec 32 := 0
  deriving DecidableEq, Repr

/-- An origin entry with its masks J0–J7 (R139, R186). -/
structure Origin where
  id : Nat
  part : Nat
  j : List JMask := List.replicate 8 {}
  deriving DecidableEq, Repr

/-- A cox thread (R14, R21). `seen` is as a fibre's, `mute` as a part's. -/
structure Cox where
  pc : W64 := 0
  s : List W64 := List.replicate 64 0
  ended : Bool := false
  wait : Option Wait := none
  windows : List Window := []
  sb : List (Nat × Nat) := []
  yielded : Bool := false
  mute : Option Nat := none
  next : W64 := 0
  seen : Nat := 0
  deriving DecidableEq, Repr

/-- A tile walker (R129, R133): the counts, and the linear numbers of the tiles returned so far in rising order. -/
structure Walker where
  n0 : Nat := 0
  n1 : Nat := 0
  n2 : Nat := 0
  gone : List Nat := []
  hint : W64 := 0
  hsh : BitVec 6 := 0
  deriving DecidableEq, Repr

/-- Barrier states of Table 8-2. -/
inductive BarSt where | idle | gather | abandoned
  deriving DecidableEq, Repr

/-- A block, cluster or grid barrier (Table 8-2). -/
structure Barrier where
  st : BarSt := .idle
  phase : W32 := 0
  cnt : W32 := 0
  latch : W32 := 0
  arr : W32 := 0
  abn : Bool := false
  deriving DecidableEq, Repr

/-- A queue register's binding (Table 9-1). -/
inductive Binding where
  | engine (k : EngKind) (unit port : Nat)
  | stage (s : Nat)
  | host
  deriving DecidableEq, Repr

/-- An entry in a queue register, with the party that pushed it and the number of its push (R301). -/
structure QEnt where
  v : W64
  who : Who := .cox
  iss : Nat := 0
  deriving DecidableEq, Repr

/-- A queue register (R194). `lead` is the D of a push command of the bank's port 0 whose header the port has taken and whose
further entries it waits for (R367). -/
structure QReg where
  bind : Option Binding := none
  lead : Option Nat := none
  push : List QEnt := []
  pop : List W64 := []
  pushed : Nat := 0
  taken : Nat := 0
  deriving DecidableEq, Repr

/-- Key-store entry states (R153). -/
inductive KState where | member | arrived | emitting
  deriving DecidableEq, Repr

/-- A key-store entry of a block (R153). -/
structure KEnt where
  rel : Nat
  fid : Nat
  key : W64
  st : KState := .member
  deriving DecidableEq, Repr

/-- Instance states of Table 7-5. -/
inductive InstSt where | gather | emit
  deriving DecidableEq, Repr

/-- An open relation collective (R155–R158). `todo` lists the pairs still to emit; `order` the
arrivals with the entry label and stage of the first. -/
structure Inst where
  fold : Bool
  rel : Nat
  st : InstSt := .gather
  label : W32 := 0
  stage : Nat := 0
  todo : Option (List (Nat × Nat)) := none
  defer : List Nat := []
  deriving DecidableEq, Repr

/-- A clause of a relation record (R50). -/
structure Clause where
  kind : BitVec 8
  vd : BitVec 8
  arg : BitVec 8
  deriving DecidableEq, Repr

/-- A relation of the kernel (R50, R153). -/
structure Relation where
  left : Option Nat
  right : Option Nat
  clauses : List Clause
  deriving DecidableEq, Repr

/-- A regrouping table entry (R171): partition, stage, address, start cycle, waiting fibres as (key, identifier), and
the group records of the arriving parts. -/
structure Regroup where
  id : Nat
  part : Nat
  stage : Nat
  pc : W64
  next : W64
  t : Nat
  start : Nat
  keyed : List (Nat × Nat) := []
  records : Nat := 0
  deriving DecidableEq, Repr

/-- An emitted group that waits for an origin entry, or for a record when `held` is false (R171). -/
structure Emit where
  id : Nat
  part : Nat
  stage : Nat
  pc : W64
  fids : List Nat
  held : Bool
  deriving DecidableEq, Repr

/-- The kernel record fields a launch copies (Table 6-1). -/
structure KRec where
  code : W64
  reltab : W64
  const : W64
  scratch : W64
  args : W64
  done : W64
  extent : W32
  csize : W32
  ssize : W32
  nfib : W32
  gx : W32
  gy : W32
  gz : BitVec 16
  w : BitVec 16
  nstage : Byte
  nrel : Byte
  curve : Byte
  clusz : Byte
  narg : Byte
  gbar : Byte
  depth : List Byte
  resv : List Byte
  entry : List W32
  deriving DecidableEq, Repr

/-- A resident block (R10, R14). -/
structure Block where
  core : Nat
  slot : Nat
  ctx : Nat
  launch : Nat
  blk : W64
  nblk : W64
  group : Nat
  kr : KRec
  rels : List Relation
  cox : Cox
  walker : Walker := {}
  fibres : List Fibre
  parts : List Part := []
  origins : List Origin := []
  nextFid : Nat
  keys : List KEnt := []
  insts : List Inst := []
  regroups : List Regroup := []
  emits : List Emit := []
  dq : List W64 := []
  q : List QReg := List.replicate 16 {}
  stageQ : List (List W64)
  stageRR : List Nat
  stgres : List Nat
  bars : List Barrier := List.replicate 16 {}
  scratch : Mem
  const : Mem
  xvec : Option W32 := none
  scb : W64 := 0
  scs : Byte := 0
  ovStop : Bool := false
  idle : Nat := 0
  deriving DecidableEq, Repr

/-- Where an access lands once checked and translated (R231, R232, R260, R399): for private space the fibre, the
offset, and the physical address of a written piece. -/
inductive Loc where
  | glob (pa : Nat)
  | scratch (off : Nat)
  | const (off : Nat)
  | priv (fid off : Nat) (pa : Option Nat)
  | remote (dev : Nat) (va : Nat)
  deriving DecidableEq, Repr

/-- One lane of an aggregated atomic: its party, lane, destination register, operand and, for `cas`, the new value
(R76, R289). -/
structure AtLane where
  who : Who
  lane : Nat
  dst : Nat
  b : W64
  c : W64
  deriving DecidableEq, Repr

/-- An atomic on one address (R76, R287, R289): `ret` says whether old values return. -/
structure AtReq where
  op : AtOp
  ty : IntTy
  ret : Bool
  acq : Option Scope
  lanes : List AtLane
  deriving DecidableEq, Repr

/-- A request in the store path: the bytes written in one line, or in one space of the core, each with its party, in
order; or an atomic at `loc`. `tags` are the registers that receive the sequence number (R279). -/
structure WReq where
  loc : Loc
  writes : List (Who × Nat × Byte) := []
  tags : List (Who × Nat) := []
  atomic : Option AtReq := none
  deriving DecidableEq, Repr

/-- One issue's entry in a store path (R298): path 0–3 are the partitions, 4 the cox thread. `coll` marks a scatter,
whose line requests go through the collector (R246); `fwd` says that a load of its party has returned a byte of it. -/
structure PWrite where
  issue : Nat
  slot : Nat
  path : Nat
  parties : List Who
  pc : W64
  rel : Option Scope := none
  coll : Bool := false
  fwd : Bool := false
  reqs : List WReq
  deriving DecidableEq, Repr

/-- What another scatter has of a line that goes out as one write (R246): its issue, block and parties there. -/
structure Share where
  issue : Nat
  slot : Nat
  pc : W64
  ws : List Who
  deriving DecidableEq, Repr

/-- A write request that has entered the L1, as number `ord` of its core's order, and waits for its home slice (R295). `eng`
marks an engine's write; `also` are the other scatters that it carries (R246); `begun` marks an atomic of an issue of which
another request has been performed (R298). -/
structure Outb where
  issue : Nat
  slot : Nat
  path : Nat
  parties : List Who
  pc : W64
  req : WReq
  eng : Bool := false
  ord : Nat := 0
  also : List Share := []
  begun : Bool := false
  deriving DecidableEq, Repr

/-- What a pending lane of a load, gather or returning atomic brings back (R276). `coll` says that its request goes through
the collector. -/
inductive PendKind where
  | load (loc : Loc) (sz : LdSz) (acq : Option Scope) (reuse : Option Reuse) (coll : Bool)
  | atom (ty : IntTy)
  | version
  | cst (els : List (Loc × Nat)) (count : Nat) (st : BitVec 32)
  deriving DecidableEq, Repr

/-- One lane's pending destination (R276). A `cst` whose elements lie on another device waits for the replies with the places and
ranks of its elements, and the count and status that stand if none fails (R285, R399). `data` is what has arrived; `sent` says that the request has taken its place in
the core's order and its data is still to come (R298), `joined` that it stands in a collector entry (R245); `acked` that a `fence.ack` of its party has gone by (R300). -/
structure Pend where
  issue : Nat
  lane : Nat
  core : Nat
  slot : Nat
  who : Who
  dst : Nat
  pc : W64
  kind : PendKind
  data : Option (List Byte) := none
  sent : Bool := false
  joined : Bool := false
  acked : Bool := false
  deriving DecidableEq, Repr

/-- A collector entry (R245): line (of another device if `dev` names one, in the addresses of context `ctx`), direction, start cycle, whether a fence, an acquire
or a store has closed it, whether no request joins it any more (`full`), and its requests: (issue, lane) of gathers, (slot,
party, class) of poolings, or scatter writes. -/
structure CEnt where
  line : Nat
  dev : Option Nat := none
  ctx : Nat := 0
  write : Bool
  start : Nat
  closed : Bool := false
  full : Bool := false
  reqs : List (Nat × Nat) := []
  pools : List (Nat × Who × Reuse) := []
  wreqs : List Outb := []
  deriving DecidableEq, Repr

/-- A line that the collector has fetched for a party's `embpool`, or the record it has read (`isRec`), which it uses when it next
tries (R250, R286): the device of a remote line, the address, the words whose data failed their check, and the CODE and INFO of a
remote failure. -/
structure PoolBuf where
  slot : Nat
  who : Who
  dev : Option Nat := none
  pa : Nat
  isRec : Bool := false
  data : List Byte
  bad : List Nat := []
  flt : Option (Nat × Nat) := none
  deriving DecidableEq, Repr

/-- Where a status word goes: registers of parties, or a queue register (R282, R283). -/
inductive Dest where
  | regs (l : List (Who × Nat))
  | queue (q : Nat)
  deriving DecidableEq, Repr

/-- An asynchronous copy accepted by a copy engine (R280–R283): `left` are the sectors or bytes still to move, `parties`
who pushed it, `after` each with the number that its earlier accesses precede (R301). `reg` holds the lanes of `cpa.reg`'s mask with their fibres, the first register and n; `fail` is the
status word once the copy has stopped. -/
structure Copy where
  issue : Nat
  core : Nat
  slot : Nat
  path : Nat
  parties : List Who
  after : List (Who × Nat) := []
  dst : W64
  src : W64
  len : Nat
  done : Nat := 0
  o : Ord
  dest : Dest
  reg : Option (List (Option Nat) × Nat × Nat) := none
  data : List Byte := []
  status : Option W32 := none
  deriving DecidableEq, Repr

/-- A command an engine port has taken (R17), with its result when finished (R200). `first` is the number of its first entry
among those ever pushed to its queue register, `rows` what a row-wise engine has done of it, `dim` the bank's D at the take
(R367). -/
structure Cmd where
  k : EngKind
  unit : Nat
  port : Nat
  core : Nat
  slot : Nat
  q : Nat
  ents : List QEnt
  result : Option (List W64) := none
  busy : Bool := false
  first : Nat := 0
  rows : Nat := 0
  dim : Nat := 0
  seq : Nat
  deriving DecidableEq, Repr

/-- A `qdrain` that waits (R207): entries below `target` must be taken and their commands finished; then the registers get
the pop side's count. -/
structure Drain where
  issue : Nat
  core : Nat
  slot : Nat
  q : Nat
  target : Nat
  regs : List (Who × Nat)
  deriving DecidableEq, Repr

/-- What a system form waits for before it completes: accesses that used what it removed (R269); of handle-table entries, first
what came before it, and then, the entries gone `again`, the dereferences that used them (R266); or a launch's completion record
(R119): number 0 stands for a record that is visible. -/
inductive LateKind where
  | inval (ctx upto : Nat)
  | handles (ctx upto : Nat) (index : Option Nat) (again : Bool)
  | launch (ctx num : Nat)
  deriving DecidableEq, Repr

/-- A system form of a cox thread that has issued and not completed, with the value its register gets. -/
structure Late where
  issue : Nat
  core : Nat
  slot : Nat
  reg : Nat
  v : W64
  kind : LateKind
  deriving DecidableEq, Repr

/-- Array states of Table 19-1. -/
inductive ArrSt where | free | single | leader | follower
  deriving DecidableEq, Repr

/-- A waiting lease request (R335). -/
structure LeaseReq where
  core : Nat
  slot : Nat
  who : Who
  pair : Bool
  granted : Bool := false
  deriving DecidableEq, Repr

/-- A matrix array (R333, R334). `z` holds element index (tile × 6,144 + row × 48 + column) and nonzero
pattern pairs in rising order; an unlisted element is +0. -/
structure Arr where
  st : ArrSt := .free
  holder : Option (Nat × Nat) := none
  z : List (Nat × W32) := []
  queue : List LeaseReq := []
  deriving DecidableEq, Repr

/-- A bank entry (R361); a count of 0 is a free entry. -/
structure BEnt where
  c : W32 := 0
  s : List W32 := []
  m : List W32 := []
  deriving DecidableEq, Repr

/-- An arrival at the bank's write port (R365). -/
inductive BArrKind where
  | vec (v : List W32)
  | merge
  | rd (i : Nat) (sum : Bool) (dim : Nat)
  deriving DecidableEq, Repr

/-- An arrival with the block it comes from, where its result goes and its issue (R363, R370). An instruction's names its part, or
0 for the cox thread, and the cycle of its issue (R365). -/
structure BArr where
  issue : Nat
  slot : Nat
  kind : BArrKind
  dest : Dest
  src : Nat := 0
  cyc : Nat := 0
  deriving DecidableEq, Repr

/-- A clustering bank (R359–R366). `serving` is the issue whose arrivals the write port takes now (R365). -/
structure Bank where
  holder : Option Nat := none
  cfg : W64 := 0
  radius : W32 := 0
  ents : List BEnt := []
  drop : W32 := 0
  arrivals : List BArr := []
  serving : Nat := 0
  overflow : List (List W64) := []
  deriving DecidableEq, Repr

/-- A cached translation (R257): context, page base and log2 size, physical base and leaf bits; `pinned` says that a die's
cache keeps it as one of its pinned entries. -/
structure Tlb where
  ctx : Nat
  va : Nat
  sh : Nat
  pa : Nat
  leaf : W64
  pinned : Bool := false
  deriving DecidableEq, Repr

/-- What a freed group record has been given to (R127). -/
inductive Assign where
  | stage (slot stage : Nat)
  | ret (slot fid : Nat)
  deriving DecidableEq, Repr

/-- Remote bytes that have come for an instruction or a command that uses them when it next tries (R399), or the bytes that it has
written, none where only the right to write was asked for (R117): who asked (a command as `.fib (2^32 + seq)`), the place, and the CODE and INFO of a failure. -/
structure RBuf where
  slot : Nat
  who : Who
  dev : Nat
  va : Nat
  data : List Byte
  bad : Option (Nat × Nat) := none
  deriving DecidableEq, Repr

/-- A core (R7, R16): becalm state, copies of memory, store paths, collector and engines. `wakeReq` is the event that
wakes a becalmed core, as (reason, info, cycle) (R109); `coxRR` the slot whose cox thread issued last (R14); `last` the cycle
of the last issue and who made it: a partition, or 4 for a cox thread (R14, R176). `l1` holds 16-byte chunks. -/
structure Core where
  becalmed : Bool := true
  wake : W32 := 0
  idle : Nat := 0
  wakeIn : Nat := 0
  wakeReq : Option (Nat × Nat × Nat) := none
  coxRR : Nat := 15
  last : Option (Nat × Nat) := none
  l1 : List (Nat × BitVec 128) := []
  tlb : List Tlb := []
  icache : List (Nat × Nat × BitVec 256) := []
  scale : List (Nat × Byte) := []
  paths : List PWrite := []
  outb : List Outb := []
  coll : List CEnt := []
  rbuf : List RBuf := []
  pbuf : List PoolBuf := []
  arr : Arr := {}
  bank : Bank := {}
  assign : List (Option Assign) := [none, none, none, none]
  deriving DecidableEq, Repr

/-- A handle-table entry cached by a die (R266). -/
structure HEnt where
  ctx : Nat
  index : Nat
  base : W64
  size : W32
  gen : BitVec 16
  tenant : Byte
  valid : Bool
  deriving DecidableEq, Repr

/-- A line that an L2 holds, with its rank for replacement (0 first, 2 last) and, for a line to be written back, the 64-byte
halves written and the context that wrote it last (R241, R247, R252). -/
structure L2Line where
  line : Nat
  rank : Nat
  dirty : List Nat := []
  ctx : Nat := 0
  deriving DecidableEq, Repr

/-- A C-die (R9, R241, R244, R248, R257). Lines of the RDC carry their rank; pinned lines carry their count of the last stroke. -/
structure CDie where
  cyc : W64 := 0
  mhz : Nat := 900
  hot : Bool := false
  strokeDue : Bool := false
  dtc : List Tlb := []
  rdc : List (Nat × Nat) := []
  l2 : List L2Line := []
  freq : List (Nat × Nat) := []
  pinned : List (Nat × Nat) := []
  hcache : List HEnt := []
  deriving DecidableEq, Repr

/-- An L-die's link-control clock (R9). -/
structure LDie where
  cyc : W64 := 0
  strokeDue : Bool := false
  deriving DecidableEq, Repr

/-- Context states of Table 5-1. -/
inductive CtxSt where | free | ready | running | draining | stopped | saved | killing
  deriving DecidableEq, Repr

/-- A fault record (Table 5-3). `key` names the coalescing entry that may still update it, 0 for none; `who` lists the
parties, each with its core and slot, that a record of no entry describes. -/
structure Rec where
  w0 : W64
  w1 : W64
  w2 : W64
  w3 : W64
  key : Nat := 0
  who : List (Nat × Nat × Who) := []
  deriving DecidableEq, Repr

/-- Eddy slot states of Table 22-1. -/
inductive EdSt where | free | ready | broken
  deriving DecidableEq, Repr

/-- Kinds of Eddy slot command (R389–R392). An `edmap.init` holds what it read at its issue: whether its pointers were
refused, the descriptor, and the device table (R380). -/
inductive EdKind where
  | gate (k : Nat) (u : List W32) (tgt : W32)
  | meas (q : W32)
  | norm
  | init (bad : Bool) (desc : List Byte) (devs : List Nat)
  | rd (q : W32)
  | wr (a : W32)
  | swap (a : W32)
  | free
  deriving DecidableEq, Repr

/-- What a begun Eddy command waits for: the two halves of a swap, of whose own half some flits have been sent, or its partners'
partial sums beside its own pairs (T, P1), one for each chunk (R386, R387). -/
inductive EdWait where
  | swap (p l flits : Nat)
  | sums (own : List (W32 × W32))
  deriving DecidableEq, Repr

/-- A queued Eddy command (R382). `early` says that it was issued before stage 2 (R424). -/
structure EdCmd where
  issue : Nat
  kind : EdKind
  o : Ord
  core : Nat
  slot : Nat
  parties : List Who
  after : List (Who × Nat) := []
  dest : Dest
  swaps : Nat := 0
  begun : Bool := false
  wait : Option EdWait := none
  early : Bool := false
  deriving DecidableEq, Repr

/-- An Eddy slot of a context (R379–R381). `pi` maps logical to physical bits; `xl` are the translations that it holds,
none when the next command must walk; `why` is the status that a BROKEN slot answers. -/
structure EdSlot where
  st : EdSt := .free
  base : W64 := 0
  m : Nat := 0
  ge : Nat := 0
  gd : Nat := 0
  rank : Nat := 0
  devs : List Nat := []
  pi : List Nat := []
  coord : Nat := 0
  num : Nat := 0
  xl : List Tlb := []
  cmds : List EdCmd := []
  why : Nat := 3
  deriving DecidableEq, Repr

/-- A context (R98, R100). Budgets, the budgets in force per die (0–3 C-dies, 4–5 L-dies) and the
charges of the current stroke are kept per class of Table 5-4. `imgSeed` names the image of its last stop (log 5); `told` lists
the lost devices that its supervisor has been told of (R410). -/
structure Ctx where
  st : CtxSt := .free
  priv : Bool := false
  creator : Option Nat := none
  root : Option Nat := none
  prio : BitVec 4 := 0
  budget : List W32 := List.replicate 10 0xFFFFFFFF
  eff : List (List W32) := List.replicate 6 (List.replicate 10 0xFFFFFFFF)
  charge : List (List Nat) := List.replicate 6 (List.replicate 10 0)
  faultQ : List Rec := []
  waiting : List Rec := []
  drain : Nat := 0
  nextLaunch : Nat := 1
  hbase : W64 := 0
  hcount : Nat := 0
  gbars : List Barrier := List.replicate 4 {}
  gown : List (Option Nat) := List.replicate 4 none
  eddy : List EdSlot := List.replicate 4 {}
  imgSeed : Nat := 0
  told : List Nat := []
  deriving DecidableEq, Repr

/-- Launch states of Table 6-2; a DONE launch whose record is not yet written keeps its STATE value. -/
inductive LaunchSt where | queued | active | finishing (state : Byte)
  deriving DecidableEq, Repr

/-- A launch (R117–R121). `next` counts the cluster groups placed; `parked` marks a completion write that waits for a resume (R116);
`far` are the lines of its images that have come from other devices for its next group (R52, R399), with device and offset. -/
structure Launch where
  ctx : Nat
  num : Nat
  kr : KRec
  args : List W64
  st : LaunchSt := .queued
  next : Nat := 0
  ndone : Nat := 0
  parked : Bool := false
  far : List (Nat × Nat × List Byte) := []
  deriving DecidableEq, Repr

/-- A placed cluster group of n blocks with its cluster barriers (R123, R172). -/
structure CGroup where
  id : Nat
  ctx : Nat
  launch : Nat
  n : Nat := 1
  bars : List Barrier := List.replicate 8 {}
  deriving DecidableEq, Repr

/-- A coalescing entry (R261): context, 4 KiB page, and the block and parties it covers. -/
structure Coal where
  key : Nat
  ctx : Nat
  page : Nat
  core : Nat
  slot : Nat
  parties : List (Nat × Nat × Who)
  deriving DecidableEq, Repr

/-- A fault that found the coalescing table full and waits for an entry (R261): its context, page and INFO, and the issue
that met it with its parties. -/
structure CoalWait where
  ctx : Nat
  page : Nat
  info : BitVec 16
  core : Nat
  slot : Nat
  part : Nat
  pc : W64
  cox : Bool
  ws : List Who
  deriving DecidableEq, Repr

/-- A fault that parties of one issue have met after it issued, and that is taken once the issue has nothing more to come
(R101, R103). -/
structure Stop where
  issue : Nat
  core : Nat
  slot : Nat
  pc : W64
  code : BitVec 8
  info : BitVec 16
  page : Nat
  ws : List Who
  deriving DecidableEq, Repr

/-- Port states of Table 23-2. -/
inductive PortSt where | down | training | up | failed
  deriving DecidableEq, Repr

/-- A Renlor port (0–17) or Ultra Ethernet port (18–25) (R396, R397, R416). `asking` says that a control flit that asks for replay
waits for room. -/
structure Port where
  st : PortSt := .down
  seq : BitVec 12 := 0
  ack : BitVec 12 := 0
  peer : BitVec 10 := 0
  replays : BitVec 16 := 0
  fails : Nat := 0
  train : Nat := 0
  buf : List Flit := []
  closing : Bool := false
  asking : Bool := false
  deriving DecidableEq, Repr

/-- An outstanding remote request of this device (R400): its L-die and tag, the destination device and offset, the
issue and parties, what it asks and whether for an image's area (`sys`), where its results go, the port of its last sending, whether it
must go again and has gone again because that port failed or did not reach the device (R398), whether it has gone again for a failed
sector (R401), whether the bytes are for an `RBuf`, or
for the image of the launch that `lane` numbers, the dispatch command whose row it carries, the gathered lanes (issue, lane) and the poolings (slot, party) that its line serves, and the other scatters in its line. -/
structure Outstanding where
  ldie : Nat
  tag : Nat
  dev : Nat
  va : Nat
  ctx : Nat
  core : Nat
  slot : Nat
  issue : Nat
  pc : W64
  parties : List Who
  lane : Nat
  op : RemoteOp
  tags : List (Who × Nat) := []
  lanes : List AtLane := []
  acq : Option Scope := none
  port : Nat := 0
  again : Bool := false
  resent : Bool := false
  retried : Bool := false
  buf : Bool := false
  image : Bool := false
  sys : Bool := false
  coll : Option Nat := none
  gath : List (Nat × Nat) := []
  pools : List (Nat × Who) := []
  also : List Share := []
  deriving DecidableEq, Repr

/-- A collective or dispatch command that its engine has taken (R404–R413): kind 0–5, its pointer and control; what it has
read (descriptor, MEMTAB, routes); the ring neighbours that it has yet to tell its fields (`tell`) and whose fields have not come
(`meet`); its progress: own blocks or rows begun (`next`), blocks that have come (`inbox`), partial
sums passed on (`seen`), local writes to do with whether each ends a unit (`todo`), units written, the row's phase with its
sectors sent and whether it has faulted; lost destinations; and its status once it ends. -/
structure CollCmd where
  id : Nat
  ldie : Nat
  core : Nat
  slot : Nat
  ctx : Nat
  kind : Nat
  parties : List Who
  after : List (Who × Nat) := []
  ptr : W64
  o : Ord
  dest : Dest
  desc : Option (List Byte) := none
  mem : List Nat := []
  routes : List W64 := []
  old : List W64 := []
  started : Bool := false
  tell : List Nat := []
  meet : List Nat := []
  next : Nat := 0
  inbox : List (Nat × List Byte) := []
  seen : List Nat := []
  todo : List (W64 × List Byte × Bool) := []
  done : Nat := 0
  phase : Nat := 0
  sent : Nat := 0
  rowBad : Bool := false
  lost : List Nat := []
  anyLost : Bool := false
  anyBad : Bool := false
  status : Option W32 := none
  deriving DecidableEq, Repr

/-- An RMA window (R413): its context, key, and local range, with the block of a scratchpad range. -/
structure RmaWin where
  owner : Option Nat := none
  key : W64 := 0
  base : W64 := 0
  len : Nat := 0
  core : Nat := 0
  slot : Nat := 0
  deriving DecidableEq, Repr

/-- What the device has handed to the outside world (R402, R403, R413, R422). The spec gives a flit's payload no layout: what
collective data carry is a block or unit of a collective, by its number (R406, R407), or a member's fields (R405), what a reply
carries is what the request gave (R400), and what Eddy swap data carry is the half
of a swap by the amplitudes' indices (R386). The partial sums of a measurement go to the other devices (R387), outside the flits
(log 106, DESIGN CHOICE). -/
inductive Sent where
  | flit (port : Nat) (f : Flit)
  | block (dev : Nat) (coll : Nat) (n : Nat) (data : List Byte)
  | fields (dev : Nat) (x : CollFields)
  | reply (dev sld tag : Nat) (r : RemoteRep)
  | swapHalf (dev : Nat) (amps : List (Nat × W64))
  | partials (dev : Nat) (sums : List (W32 × W32))
  | rmaWrite (peer : List Byte) (data : List Byte)
  | rmaRead (peer : List Byte) (len : Nat)
  | rmaData (data : List Byte)
  | ok
  | errorResponse
  | unsupported
  | tooLong
  | withheld
  | attestation (nonce digest : List Byte) (mgstat : W64) (ident sig1 sig2 : List Byte)
  deriving DecidableEq, Repr

/-- Bring-up states of Table 24-1. -/
inductive Stage where | stage0 | stage1 | stage2 | halted
  deriving DecidableEq, Repr

/-- A saved context: what `ctxsave` put into its image (R108). -/
structure Saved where
  ctx : Nat
  va : W64
  len : Nat
  seed : Nat
  blocks : List Block
  groups : List CGroup
  arrs : List (Nat × Arr)
  banks : List (Nat × Bank)
  cmds : List Cmd
  drains : List Drain
  lates : List Late
  deriving DecidableEq, Repr

/-- Which thread issues the running instruction. -/
inductive Thread where
  | none
  | cox
  | part (id : Nat)
  deriving DecidableEq, Repr

/-- The issue in progress: the thread, its address, the instruction's length in bytes, its raw words
for the trap registers, and what R87 names. `prt` is the partition of a fibre that an event acts on; `went` says that
the turn issued or trapped instead of stalling; `ready` lists the groups, as (slot, part), that can issue when an event
asks (R171). -/
structure Cur where
  core : Nat := 0
  slot : Nat := 0
  th : Thread := .none
  pc : W64 := 0
  len : Nat := 8
  base : W64 := 0
  ext : W64 := 0
  names : List RName := []
  isLong : Bool := false
  prt : Nat := 0
  went : Bool := false
  ready : List (Nat × Nat) := []
  deriving DecidableEq, Repr

/-- The device. `poison` lists the 8-byte words (address ÷ 8) whose check has failed beyond correction
(R401). `strays` are the flits of failed ports that wait for another port, `unreach` lists the devices with the ports on which their
planes report them unreachable, and `quiet` the devices for which a flit waits on an L-die, with the cycle of that L-die from which none
has been acknowledged (R398). -/
structure State where
  tick : Nat
  agenda : List Turn
  cur : Cur
  nextId : Nat
  stage : Stage
  mgErr : Byte
  mgTrip : Bool
  miss : BitVec 4
  lmiss : Bool
  mgPwr : W64
  mgTemp : List Byte
  mgPin : List W64
  mgPinNext : List W64
  mgRecs : List Rec
  mgWaiting : List Rec
  image : List Byte
  cdies : List CDie
  ldies : List LDie
  mem : Mem
  seq : List (Nat × BitVec 16)
  poison : List Nat
  cores : List Core
  blocks : List Block
  groups : List CGroup
  ctxs : List Ctx
  launches : List Launch
  saved : List Saved
  placePtr : Nat
  pends : List Pend
  copies : List Copy
  cmds : List Cmd
  drains : List Drain
  lates : List Late
  portRR : List (EngKind × Nat × Nat × Nat)
  stops : List Stop
  coals : List Coal
  coalWait : List CoalWait
  hrq : List W64
  hostHolder : Option (Nat × Nat × Nat)
  rxBase : W64
  rxCtx : Nat
  rxBufs : List Bool
  ports : List Port
  devNum : BitVec 10
  outstanding : List Outstanding
  replies : List (BitVec 10 × BitVec 1 × BitVec 8 × RemoteRep)
  lostDevs : List Nat
  strays : List Flit
  unreach : List (Nat × Nat)
  quiet : List (Nat × Nat × Nat)
  colls : List CollCmd
  windows : List RmaWin
  sent : List Sent
  deriving DecidableEq, Repr

/-- The device at power-on (R418, STAGE0): every field at the value the spec states for reset, or at the
value that logs 2, 3, 9, 11 and 12 name (DESIGN CHOICE). -/
def State.reset : State where
  tick := 0
  agenda := []
  cur := {}
  nextId := 1
  stage := .stage0
  mgErr := 0
  mgTrip := false
  miss := 0
  lmiss := false
  mgPwr := 3400
  mgTemp := [0, 0, 0, 0]
  mgPin := [0, 0, 0, 0]
  mgPinNext := [0, 0, 0, 0]
  mgRecs := []
  mgWaiting := []
  image := []
  cdies := List.replicate 4 {}
  ldies := List.replicate 2 {}
  mem := []
  seq := []
  poison := []
  cores := List.replicate 128 {}
  blocks := []
  groups := []
  ctxs := List.replicate 64 {}
  launches := []
  saved := []
  placePtr := 15
  pends := []
  copies := []
  cmds := []
  drains := []
  lates := []
  portRR := []
  stops := []
  coals := []
  coalWait := []
  hrq := []
  hostHolder := none
  rxBase := 0
  rxCtx := 0
  rxBufs := []
  ports := List.replicate 26 {}
  devNum := 0
  outstanding := []
  replies := []
  lostDevs := []
  strays := []
  unreach := []
  quiet := []
  colls := []
  windows := List.replicate 64 {}
  sent := []

end Sys2Proof.Machine
end

