-- ==== Sys2Proof/Machine/Ops.lean ====
section
/-! DEFINITION. The named operations over memory, dies, cores, contexts, blocks and fibres; how an issue
retires, how a part splits (R142), and how a fault or trap is taken (R93, R94, R101–R103, R261). -/

namespace Sys2Proof.Machine

open Sys2Proof

/-- What a meaning answers. -/
abbrev Res := Host.Outcome State Fault Refusal

/-! ### Memory -/

/-- The byte at an address; an unlisted byte reads zero (R423) (log 3, DESIGN CHOICE). -/
def Mem.get : Mem → Nat → Byte
  | [], _ => 0
  | (x, v) :: r, a => if a = x then v else Mem.get r a

/-- Writes one byte and keeps the canonical form. -/
def Mem.set : Mem → Nat → Byte → Mem
  | [], a, v => if v = 0 then [] else [(a, v)]
  | (x, w) :: r, a, v =>
    if a < x then (if v = 0 then (x, w) :: r else (a, v) :: (x, w) :: r)
    else if a = x then (if v = 0 then r else (a, v) :: r)
    else (x, w) :: Mem.set r a v

/-- Every address of a memory is above `lo`, in rising order, and no entry is zero. -/
def Mem.above : Option Nat → Mem → Bool
  | _, [] => true
  | lo, (x, v) :: r => (match lo with
      | none => true
      | some l => decide (l < x)) && decide (v ≠ 0) && Mem.above (some x) r

/-- The canonical form. -/
def Mem.wf (m : Mem) : Bool := Mem.above none m

def Mem.read (m : Mem) : Nat → Nat → List Byte
  | _, 0 => []
  | a, n + 1 => m.get a :: Mem.read m (a + 1) n

def Mem.write (m : Mem) : Nat → List Byte → Mem
  | _, [] => m
  | a, b :: r => Mem.write (m.set a b) (a + 1) r

/-- The bytes of a range become zero: their entries go. -/
def Mem.clear (m : Mem) (a n : Nat) : Mem := m.filter fun c => c.1 < a || a + n ≤ c.1

/-! ### Lookups and updates -/

/-- Distinct values in order of first appearance. -/
def distinct [DecidableEq α] : List α → List α
  | [] => []
  | a :: r => a :: (distinct r).filter (· != a)

/-- The C-die of a core (R19). -/
def coreDie (c : Nat) : Nat := c / 32

def State.core (s : State) (c : Nat) : Core := (s.cores[c]?).getD {}
def State.updCore (s : State) (c : Nat) (f : Core → Core) : State := { s with cores := s.cores.modify c f }
def State.cdie (s : State) (d : Nat) : CDie := (s.cdies[d]?).getD {}
def State.updDie (s : State) (d : Nat) (f : CDie → CDie) : State := { s with cdies := s.cdies.modify d f }
def State.ldie (s : State) (d : Nat) : LDie := (s.ldies[d]?).getD {}
def State.ctx (s : State) (n : Nat) : Ctx := (s.ctxs[n]?).getD {}
def State.updCtx (s : State) (n : Nat) (f : Ctx → Ctx) : State := { s with ctxs := s.ctxs.modify n f }

def Block.at (b : Block) (c sl : Nat) : Bool := b.core == c && b.slot == sl
def State.block? (s : State) (c sl : Nat) : Option Block := s.blocks.find? (·.at c sl)
def State.updBlock (s : State) (c sl : Nat) (f : Block → Block) : State :=
  { s with blocks := s.blocks.map fun b => if b.at c sl then f b else b }

def Block.fib? (b : Block) (fid : Nat) : Option Fibre := b.fibres.find? (·.fid == fid)
def Block.updFib (b : Block) (fid : Nat) (f : Fibre → Fibre) : Block :=
  { b with fibres := b.fibres.map fun x => if x.fid == fid then f x else x }
def Block.part? (b : Block) (id : Nat) : Option Part := b.parts.find? (·.id == id)
def Block.updPart (b : Block) (id : Nat) (f : Part → Part) : Block :=
  { b with parts := b.parts.map fun x => if x.id == id then f x else x }
def Block.updOrigin (b : Block) (id : Nat) (f : Origin → Origin) : Block :=
  { b with origins := b.origins.map fun x => if x.id == id then f x else x }
def Block.updCox (b : Block) (f : Cox → Cox) : Block := { b with cox := f b.cox }

def State.launch? (s : State) (ctx num : Nat) : Option Launch :=
  s.launches.find? fun l => l.ctx == ctx && l.num == num
def State.updLaunch (s : State) (ctx num : Nat) (f : Launch → Launch) : State :=
  { s with launches := s.launches.map fun l => if l.ctx == ctx && l.num == num then f l else l }
def State.group? (s : State) (id : Nat) : Option CGroup := s.groups.find? (·.id == id)

/-- The running block. -/
def State.me (s : State) : Option Block := s.block? s.cur.core s.cur.slot
def State.updMe (s : State) (f : Block → Block) : State := s.updBlock s.cur.core s.cur.slot f
def State.myDie (s : State) : Nat := coreDie s.cur.core
def State.myCtx (s : State) : Nat := match s.me with
  | some b => b.ctx
  | none => 0

/-- A stage number of `%svc` (R418): HALTED shows the stage it was halted in as its last value, and no
program runs there to read it (log 27, DEDUCED). -/
def State.svc (s : State) : Nat := match s.stage with
  | .stage0 => 0
  | .stage1 => 1
  | .stage2 => 2
  | .halted => 2

def engCode : EngKind → Nat
  | .copy => 0 | .collector => 1 | .bank => 2 | .eddy => 3 | .coll => 4 | .quant => 5

/-! ### Registers -/

def Fibre.reg (f : Fibre) (r : Nat) : W32 := (f.regs[r]?).getD 0
def Fibre.setReg (f : Fibre) (r : Nat) (v : W32) : Fibre := { f with regs := f.regs.set r v }
/-- P0 reads 1 and ignores writes (R21). -/
def Fibre.pred (f : Fibre) (p : Nat) : Bool := p == 0 || f.preds.getLsbD p
def Fibre.setPred (f : Fibre) (p : Nat) (v : Bool) : Fibre :=
  if p = 0 then f
  else { f with preds := if v then f.preds ||| BitVec.ofNat 8 (2 ^ p) else f.preds &&& ~~~(BitVec.ofNat 8 (2 ^ p)) }
def Cox.reg (c : Cox) (r : Nat) : W64 := (c.s[r]?).getD 0
def Cox.setReg (c : Cox) (r : Nat) (v : W64) : Cox := { c with s := c.s.set r v }

/-- What an instruction reads: one lane's fibre, or the cox thread. -/
inductive View where
  | cox (c : Cox)
  | fib (f : Fibre)
  deriving DecidableEq, Repr

/-- A 32-bit register read: V, or S[31:0] (R212). -/
def View.r32 (v : View) (r : RegNo) : W32 := match v with
  | .cox c => loWord (c.reg r.toNat)
  | .fib f => f.reg r.toNat
/-- A 64-bit read: a pair, or S. -/
def View.r64 (v : View) (r : RegNo) : W64 := match v with
  | .cox c => c.reg r.toNat
  | .fib f => pairWord (f.reg r.toNat) (f.reg (r.toNat + 1))
def View.isCox : View → Bool
  | .cox _ => true
  | .fib _ => false

/-- A 32-bit result: V, or S zero-extended (R112, R206, R282). -/
def View.w32 (v : View) (r : RegNo) (x : W32) : Wr := match v with
  | .cox _ => .s r.toNat (x.zeroExtend 64)
  | .fib _ => .v r.toNat x
/-- A 32-bit result sign-extended in an S register (R212, R274). -/
def View.w32s (v : View) (r : RegNo) (x : W32) : Wr := match v with
  | .cox _ => .s r.toNat (x.signExtend 64)
  | .fib _ => .v r.toNat x
/-- A 64-bit result. -/
def View.w64 (v : View) (r : RegNo) (x : W64) : List Wr := match v with
  | .cox _ => [.s r.toNat x]
  | .fib _ => [.v r.toNat (loWord x), .v (r.toNat + 1) (hiWord x)]

def Fibre.wr (f : Fibre) : Wr → Fibre
  | .v r x => f.setReg r x
  | .p n b => f.setPred n b
  | .nft b => { f with nftrap := b }
  | .s _ _ => f
def Cox.wr (c : Cox) : Wr → Cox
  | .s r x => c.setReg r x
  | _ => c

/-- Writes of a fibre: a fibre without a window keeps them until it has one (R147). -/
def Fibre.wrs (f : Fibre) (ws : List Wr) : Fibre :=
  if f.win then ws.foldl Fibre.wr f else { f with held := f.held ++ ws }

/-- Applies the writes of one party; writes for an ended fibre are dropped (R161). -/
def Block.wr (b : Block) (w : Who) (ws : List Wr) : Block := match w with
  | .cox => b.updCox fun c => ws.foldl Cox.wr c
  | .fib fid => b.updFib fid fun f => f.wrs ws

/-! ### The issuing lanes -/

/-- The lanes an issue executes: all lanes of a part, or its running lane in serial mode (R144). -/
def Part.issuing (p : Part) : List (Nat × Nat) :=
  if p.serial then (match p.running with
    | some l => p.lanes.filter fun x => x.1 == l
    | none => [])
  else p.lanes

/-- Whether the guard holds in a fibre (R85). -/
def guardHolds (h : Hd) (f : Fibre) : Bool := f.pred h.pg.toNat != h.pn

/-- The fibres of issuing lanes, with their lane numbers. -/
def Block.lanesOf (b : Block) (p : Part) : List (Nat × Fibre) :=
  p.issuing.filterMap fun x => (b.fib? x.2).map fun f => (x.1, f)

/-- The live lanes of the running part, issuing or not. -/
def State.part? (s : State) : Option (Block × Part) := match s.me, s.cur.th with
  | some b, .part id => (b.part? id).map fun p => (b, p)
  | _, _ => none

/-- active(P): the lanes and fibres of this issue whose guard holds (R85). -/
def State.act (s : State) (h : Hd) : List (Nat × Fibre) := match s.part? with
  | some (b, p) => (b.lanesOf p).filter fun x => guardHolds h x.2
  | none => []

/-- The issuing parties whose guard holds, with lane and view; the cox thread is one party. -/
def State.views (s : State) (h : Hd) : List (Nat × Who × View) := match s.me, s.cur.th with
  | some b, .cox => [(0, .cox, .cox b.cox)]
  | some _, .part _ => (s.act h).map fun x => (x.1, .fib x.2.fid, .fib x.2)
  | _, _ => []

/-- Every issuing party, guard true or not. -/
def State.issuers (s : State) : List Who := match s.me, s.cur.th with
  | some _, .cox => [.cox]
  | some b, .part id => match b.part? id with
    | some p => p.issuing.map fun x => .fib x.2
    | none => []
  | _, _ => []

/-! ### Budgets (R104) -/

def bIdx : BClass → Nat
  | .grp => 0 | .cox => 1 | .mma => 2 | .bank => 3 | .eddy => 4
  | .coll => 5 | .copy => 6 | .hbm => 7 | .far => 8 | .flit => 9

/-- Charges n units of a class to a context on a die (0–3 C-dies, 4–5 L-dies). -/
def State.charge (s : State) (ctx die : Nat) (k : BClass) (n : Nat) : State :=
  s.updCtx ctx fun c => { c with charge := c.charge.modify die fun l => l.modify (bIdx k) (· + n) }

/-- Whether a class of a context is held on a die until the next stroke boundary. -/
def State.held (s : State) (ctx die : Nat) (k : BClass) : Bool :=
  let c := s.ctx ctx
  let bud : W32 := (((c.eff[die]?).getD [])[bIdx k]?).getD 0xFFFFFFFF
  let ch : Nat := (((c.charge[die]?).getD [])[bIdx k]?).getD 0
  bud ≠ 0xFFFFFFFF && bud.toNat ≤ ch

/-! ### Completion and lookahead windows (R86, R276) -/

/-- Whether a location is on another device (R399). -/
def Loc.far : Loc → Bool
  | .remote _ _ => true
  | _ => false

/-- Whether an outbound request, or one that has left, is of an issue. -/
def Outb.ofIssue (o : Outb) (issue : Nat) : Bool := o.issue == issue || o.also.any fun a => a.issue == issue
def Outstanding.ofIssue (o : Outstanding) (issue : Nat) : Bool := o.issue == issue || o.also.any fun a => a.issue == issue

/-- Whether a request that has left carries something of a block, or of a party of it. -/
def Outstanding.inSlot (o : Outstanding) (slot : Nat) : Bool := o.slot == slot || o.also.any fun a => a.slot == slot
def Outstanding.of (o : Outstanding) (slot : Nat) (w : Who) : Bool :=
  (o.slot == slot && o.parties.contains w) || o.also.any fun a => a.slot == slot && a.ws.contains w

/-- Whether an issue of a core still has a register write or another effect its completion needs: a destination to write, or
a remote access that its destination has not yet checked (R276, R399). -/
def State.pendingOn (s : State) (core issue : Nat) : Bool :=
  s.pends.any (·.issue == issue) || s.outstanding.any (·.ofIssue issue) || s.drains.any (·.issue == issue) ||
  s.lates.any (·.issue == issue) || s.stops.any (·.issue == issue) ||
  (let c := s.core core
   let far := fun (o : Outb) => o.ofIssue issue && o.req.loc.far
   c.paths.any (fun e => e.issue == issue && e.reqs.any fun r => r.loc.far) ||
   c.bank.arrivals.any (·.issue == issue) || c.outb.any far || c.coll.any fun e => e.wreqs.any far)

def State.pending (s : State) (issue : Nat) : Bool := s.pendingOn s.cur.core issue

/-- Whether an outbound request carries writes or an atomic of a party of a block. -/
def Outb.of (o : Outb) (slot : Nat) (w : Who) : Bool :=
  (o.slot == slot && o.parties.contains w) || o.also.any fun a => a.slot == slot && a.ws.contains w

/-- Whether an outbound request carries something of a block. -/
def Outb.inSlot (o : Outb) (slot : Nat) : Bool := o.slot == slot || o.also.any fun a => a.slot == slot

/-- Whether a party has met a fault that is still to be taken, or has a remote access that its destination has not yet
checked: it issues nothing meanwhile, so the fault is precise (R101, R399). -/
def State.awaitsRemote (s : State) (core slot : Nat) (w : Who) : Bool :=
  s.outstanding.any (fun o => o.core == core && o.of slot w) ||
  s.stops.any (fun o => o.core == core && o.slot == slot && o.ws.contains w) ||
  (let c := s.core core
   let far := fun (o : Outb) => o.of slot w && o.req.loc.far
   c.paths.any (fun e => e.slot == slot && e.parties.contains w && e.reqs.any fun r => r.loc.far) ||
   c.outb.any far || c.coll.any fun e => e.wreqs.any far)

def State.windowsOf (s : State) (c sl : Nat) (th : Thread) : List Window := match s.block? c sl, th with
  | some b, .cox => b.cox.windows
  | some b, .part id => match b.part? id with
    | some p => p.windows
    | none => []
  | _, _ => []

/-- Whether the running thread has a long-latency form that has not completed: a precise fault waits for
it (R87, R101) (log 25, DEDUCED) (log 28, DEDUCED). -/
def State.busy (s : State) : Bool :=
  (s.windowsOf s.cur.core s.cur.slot s.cur.th).any fun w => s.pending w.issue

/-- One more instruction of the thread has issued: each window shrinks. -/
def passWindows (ws : List Window) : List Window :=
  (ws.map fun w => { w with left := w.left - 1, pos := w.pos + 1 })

/-- A trap ends every window: the next instruction waits for the forms that opened them (R86). So does a return from one, before
which every window has closed (R114). -/
def endWindows (ws : List Window) : List Window := ws.map fun w => { w with left := 0 }

/-- Windows that still bind the next instruction: those with instructions left, and those whose form has
not completed (log 28, DEDUCED). -/
def State.liveWindows (s : State) (ws : List Window) : List Window :=
  ws.filter fun w => w.left ≠ 0 || s.pending w.issue

/-! ### Fault records (R97, R103, R428) -/

def mkRec (info : BitVec 16) (code : BitVec 8) (cox : Bool) (part core ctx : Nat) (pc : W64) (addr : Nat)
    (count slot fid : Nat) (key : Nat) : Rec where
  w0 := info ++ code ++ (if cox then (1 : BitVec 1) else 0) ++ BitVec.ofNat 2 part ++ BitVec.ofNat 7 core ++
    BitVec.ofNat 6 ctx ++ (0 : BitVec 24)
  w1 := pc
  w2 := BitVec.ofNat 64 addr
  w3 := BitVec.ofNat 16 (Nat.min count 0xFFFF) ++ BitVec.ofNat 16 slot ++ BitVec.ofNat 32 fid
  key := key

/-- Posts a record about a context: to its supervisor's queue of 256, or to the management records for
context 0, which has no supervisor (R97, R103, R428). A full queue holds the record back. -/
def State.postRec (s : State) (ctx : Nat) (r : Rec) : State :=
  match (s.ctx ctx).creator with
  | some sup =>
    let c := s.ctx sup
    if c.faultQ.length < 256 && c.waiting.isEmpty then s.updCtx sup fun c => { c with faultQ := c.faultQ ++ [r] }
    else s.updCtx sup fun c => { c with waiting := c.waiting ++ [r] }
  | none =>
    if s.mgRecs.length < 64 && s.mgWaiting.isEmpty then { s with mgRecs := s.mgRecs ++ [r] }
    else { s with mgWaiting := s.mgWaiting ++ [r] }

/-- A fault of one party. `page` is the page address of a translation fault. -/
structure Flt where
  code : BitVec 8
  info : BitVec 16 := 0
  page : Nat := 0
  deriving DecidableEq, Repr

/-- The H-class codes of Table 5-2. -/
def classH (c : BitVec 8) : Bool :=
  c == 1 || c == 2 || c == 3 || c == 5 || c == 7 || c == 8 || c == 9 || c == 0xA || c == 0xC || c == 0xD

/-- `%xf0`–`%xf2` of the running instruction (Tables 4-7 to 4-9). -/
def Cur.xf0 (c : Cur) : W32 :=
  let f := Fields.ofWord c.base c.ext
  f.len ++ f.opc ++ f.sub ++ f.la ++ f.pg ++ f.pn ++ f.mod
def Cur.xf1 (c : Cur) : W32 :=
  let f := Fields.ofWord c.base c.ext
  f.d ++ f.a ++ f.b ++ f.c
def Cur.xf2 (c : Cur) : W32 := c.ext.truncate 32

/-- The trap registers a fault leaves (R94–R96). A malformed base word leaves the fields zero: `cur.base` and
`cur.ext` are then zero (log 21, DEDUCED). -/
def Cur.xregs (c : Cur) (f : Flt) (xf3 : W32) : XRegs where
  xf0 := c.xf0
  xf1 := c.xf1
  xf2 := c.xf2
  xf3 := xf3
  xinst := c.base
  xext := c.ext
  xcause := f.info ++ (0 : BitVec 8) ++ f.code
  xpc := c.pc

/-- The fibre enters the user handler at offset v (R94). -/
def Fibre.enter (f : Fibre) (x : XRegs) (v : W32) : Fibre :=
  { f with x := x, pc := v.zeroExtend 64, life := .ready, wait := none }

/-- The fibre parks at the instruction on an S-class fault (R101). `x` gives its trap registers where the
fault was an H-class fault with no vector; otherwise only `%xpc` is set. -/
def Fibre.parkFault (f : Fibre) (x : Option XRegs) (pc : W64) (w : Wait) : Fibre :=
  { f with x := x.getD { f.x with xpc := pc }, pc := pc, life := .parked, wait := some w }

/-- The lowest of a list of identifiers. -/
def lowest : List Nat → Nat
  | [] => 0
  | [a] => a
  | a :: r => Nat.min a (lowest r)

def Who.fid : Who → Nat
  | .cox => 0
  | .fib f => f

/-- The number of the running partition. -/
def State.curPart (s : State) : Nat := match s.part? with
  | some (_, p) => p.part
  | none => s.cur.prt

def State.updMyFib (s : State) (fid : Nat) (f : Fibre → Fibre) : State := s.updMe fun b => b.updFib fid f

/-- Parks a party of the running block on an S-class fault. -/
def State.parkOn (s : State) (w : Who) (x : Option XRegs) (f : Flt) : State := match w with
  | .cox => s.updMe fun b => b.updCox fun c => { c with wait := some (.fault f.code f.info f.page) }
  | .fib fid => s.updMyFib fid fun g => g.parkFault x s.cur.pc (.fault f.code f.info f.page)

/-- Updates the record that a coalescing entry still owns (R262). -/
def Rec.join (r : Rec) (info0 : Bool) (count fid : Nat) : Rec :=
  { r with
    w0 := if info0 then r.w0 ||| ((1 : W64) <<< 48) else r.w0
    w3 := BitVec.ofNat 16 (Nat.min count 0xFFFF) ++ (r.w3.extractLsb' 32 16) ++ BitVec.ofNat 32 fid }

def updRecs (key : Nat) (f : Rec → Rec) (l : List Rec) : List Rec := l.map fun r => if r.key == key then f r else r

/-- Applies a function to the record of a coalescing entry wherever it waits. -/
def State.updKeyed (s : State) (ctx key : Nat) (f : Rec → Rec) : State :=
  match (s.ctx ctx).creator with
  | some sup => s.updCtx sup fun c => { c with faultQ := updRecs key f c.faultQ, waiting := updRecs key f c.waiting }
  | none => { s with mgRecs := updRecs key f s.mgRecs, mgWaiting := updRecs key f s.mgWaiting }

/-- A fault joins the open entry of its page, or opens one and posts its record while the table has room; with a full
table it waits for an entry (R261, R262). -/
def State.joinCoal (s : State) (x : CoalWait) : State :=
  let ps := x.ws.map fun w => (x.core, x.slot, w)
  match s.coals.find? fun e => e.ctx == x.ctx && e.page == x.page with
  | some e =>
    let all := e.parties ++ ps
    let s := { s with coals := s.coals.map fun (y : Coal) => if y.key == e.key then { y with parties := all } else y }
    let fids := all.filterMap fun p => match p.2.2 with
      | .fib f => if p.1 == e.core && p.2.1 == e.slot then some f else none
      | .cox => none
    s.updKeyed x.ctx e.key fun r => r.join (x.info.getLsbD 0) all.length (lowest fids)
  | none =>
    if 1024 ≤ s.coals.length then { s with coalWait := s.coalWait ++ [x] }
    else
      let key := s.nextId
      let e : Coal := { key := key, ctx := x.ctx, page := x.page, core := x.core, slot := x.slot, parties := ps }
      let r := mkRec x.info 0x06 x.cox (if x.cox then 0 else x.part) x.core x.ctx x.pc x.page x.ws.length x.slot
        (lowest (x.ws.map Who.fid)) key
      ({ s with nextId := key + 1, coals := s.coals ++ [e] }).postRec x.ctx r

/-- A translation fault of several parties of the running issue on one page (R261). -/
def State.coalesce (s : State) (ctx : Nat) (ws : List Who) (f : Flt) : State :=
  let c := s.cur
  s.joinCoal { ctx := ctx, page := f.page, info := f.info, core := c.core, slot := c.slot, part := s.curPart, pc := c.pc
               cox := c.th = .cox, ws := ws }

/-- The entries of a context close (R261): every fault of the others that waits for room gets its entry while there is
room. -/
def State.closeCoals (s : State) (ctx : Nat) : State :=
  let w := s.coalWait.filter fun x => x.ctx != ctx
  w.foldl State.joinCoal { s with coals := s.coals.filter fun e => e.ctx != ctx, coalWait := [] }

/-- The records about a context that a full queue holds back (R103). -/
def State.heldRecs (s : State) (ctx : Nat) : List Rec := match (s.ctx ctx).creator with
  | some sup => (s.ctx sup).waiting
  | none => s.mgWaiting

/-- Whether a party's fault is not posted yet, its record or its entry waiting for room: it stays parked through
`ctxctl.resume` and `ctxctl.reflect` (R103, R105, R261) (log 34, DEDUCED). -/
def State.heldBack (s : State) (ctx core slot : Nat) (w : Who) : Bool :=
  let p := (core, slot, w)
  ((s.heldRecs ctx).any fun r => r.who.contains p ||
    s.coals.any fun e => e.key == r.key && e.parties.contains p) ||
  s.coalWait.any fun x => x.core == core && x.slot == slot && x.ws.contains w

/-- The entries of a context whose records are posted, and on whose work `ctxctl.resume` or `ctxctl.reflect` acts, close
(R261); faults that wait for room get their entries while there is room (log 34, DEDUCED). -/
def State.closePosted (s : State) (ctx : Nat) (acts : Coal → Bool) : State :=
  let held := (s.heldRecs ctx).map fun (r : Rec) => r.key
  s.coalWait.foldl State.joinCoal
    { s with coals := s.coals.filter fun e => e.ctx != ctx || held.contains e.key || !acts e, coalWait := [] }

/-- Posts the one record of an issue and code (R103). -/
def State.postIssue (s : State) (ctx : Nat) (ws : List Who) (code : BitVec 8) (info : BitVec 16) : State :=
  let c := s.cur
  let cox := c.th = .cox
  s.postRec ctx { mkRec info code cox (if cox then 0 else s.curPart) c.core ctx c.pc 0 ws.length c.slot
    (lowest (ws.map Who.fid)) 0 with who := ws.map fun w => (c.core, c.slot, w) }

/-- What sets the records of one issue apart: the code, and for translation faults the page (R103, R261). -/
def Flt.apart (f : Flt) : BitVec 8 × Nat := (f.code, if f.code = 0x06 then f.page else 0)

/-- A translation fault with INFO[0] set when one of the accesses that it covers was a write (R262). -/
def Flt.join (f : Flt) (wrote : Bool) : Flt := if f.code = 0x06 && wrote then { f with info := f.info ||| 1 } else f

/-- Faults grouped by record, each with its parties, in order of first appearance. The first gives INFO (log 114), of which a
page's INFO[0] covers every access (R262). -/
def groupFlts (l : List (Who × Flt)) : List (Flt × List Who) :=
  (distinct (l.map fun x => x.2.apart)).filterMap fun k =>
    let g := l.filter fun x => x.2.apart == k
    g.head?.map fun x => (x.2.join (g.any fun y => y.2.info.getLsbD 0), g.map (·.1))

/-- Takes the faults of an issue: THE shared exception entry. In the fibre stream an H-class fault enters the
user handler, or with no vector parks the fibre and posts code 0x0F; an S-class fault parks. In the cox
stream every fault parks the thread (R93, R94, R101–R103). -/
def State.deliver (s : State) (xf3 : W32) (fs : List (Who × Flt)) : State :=
  let ctx := s.myCtx
  let vec := match s.me with
    | some b => b.xvec
    | none => none
  let step := fun (s : State) (wf : Who × Flt) => match wf.1 with
    | .cox => s.parkOn .cox none wf.2
    | .fib fid =>
      let x := s.cur.xregs wf.2 xf3
      if classH wf.2.code then
        match vec with
        | some v => s.updMyFib fid fun g => g.enter x v
        | none => s.parkOn (.fib fid) (some x) { code := 0x0F, info := wf.2.code.zeroExtend 16 }
      else s.parkOn (.fib fid) none wf.2
  let s := fs.foldl step s
  let posted := fs.filterMap fun wf => match wf.1 with
    | .cox => some wf
    | .fib _ =>
      if classH wf.2.code then
        match vec with
        | some _ => none
        | none => some (wf.1, ({ code := 0x0F, info := wf.2.code.zeroExtend 16 } : Flt))
      else some wf
  (groupFlts posted).foldl (fun s g =>
    if g.1.code = 0x06 then s.coalesce ctx g.2 g.1 else s.postIssue ctx g.2 g.1.code g.1.info) s

/-! ### Parts: splitting, serial mode, records (R141–R145) -/

/-- The group records that a block holds in a partition: its parts, and what regrouping keeps (R141, R171). -/
def Block.records (b : Block) (part : Nat) : Nat :=
  (b.parts.filter fun p => p.part == part).length +
  ((b.regroups.filter fun r => r.part == part).foldl (fun n r => n + r.records) 0) +
  (b.emits.filter fun e => e.part == part && e.held).length

/-- Group records of a partition that are free (R139): 48 less those held and those assigned. -/
def State.freeRecords (s : State) (core part : Nat) : Nat :=
  let held := (s.blocks.filter fun b => b.core == core).foldl (fun n b => n + b.records part) 0
  let asg := match ((s.core core).assign[part]?).getD none with
    | some _ => 1
    | none => 0
  48 - held - asg

/-- Origin entries of a partition that are free. -/
def State.freeOrigins (s : State) (core part : Nat) : Nat :=
  48 - (s.blocks.filter fun b => b.core == core).foldl (fun n b => n + (b.origins.filter fun o => o.part == part).length) 0

/-- What sets lanes apart after an issue (R142): an unparked lane's address, or the wait of a parked lane.
S-class faults are one wait (Table 7-2). -/
inductive Apart where
  | run (pc : W64)
  | fault (pc : W64)
  | on (pc : W64) (w : Wait)
  deriving DecidableEq, Repr

def Fibre.apart (f : Fibre) : Apart := match f.life, f.wait with
  | .parked, some (.fault _ _ _) => .fault f.pc
  | .parked, some (.barrier l b _ _ _) => .on f.pc (.barrier l b 0 none false)
  | .parked, some (.relation o r _ _ _) => .on f.pc (.relation o r 0 false false)
  | .parked, some (.compact t _) => .on f.pc (.compact t 0)
  | .parked, some w => .on f.pc w
  | _, _ => .run f.pc

def Fibre.parked (f : Fibre) : Bool := f.life = .parked

/-- The next running lane of a serial part: it keeps running until it parks or ends (R144). -/
def Part.pickRunning (p : Part) (b : Block) : Option Nat :=
  let ok := fun (x : Nat × Nat) => match b.fib? x.2 with
    | some f => f.life = .ready
    | none => false
  match p.running with
  | some l => if p.lanes.any (fun x => x.1 == l && ok x) then some l else (p.lanes.find? ok).map (·.1)
  | none => (p.lanes.find? ok).map (·.1)

/-- Puts a part in order after an issue, a wake or an end: it is freed when empty; a serial part leaves serial
mode or hands over; a part whose lanes stand apart splits, or enters serial mode where R142 refuses, an assigned return
counting as a part of its origin (R141) (log 23, DEDUCED). -/
def State.settle (s : State) (c sl' id : Nat) : State :=
  match s.block? c sl' with
  | none => s
  | some b =>
    match b.part? id with
    | none => s
    | some p =>
      let ls := p.lanes.filterMap fun x => (b.fib? x.2).map fun f => (x, f)
      let keys := distinct (ls.map fun x => x.2.apart)
      if ls.isEmpty then s.updBlock c sl' fun b => { b with parts := b.parts.filter fun q => q.id != id }
      else if p.serial then
        let out := ls.length == 1 || (keys.length == 1 && ls.all fun x => x.2.parked)
        s.updBlock c sl' fun b => b.updPart id fun q =>
          if out then { q with serial := false, running := none } else { q with running := q.pickRunning b }
      else if keys.length ≤ 1 then s
      else
        let coming := match ((s.core c).assign[p.part]?).getD none with
          | some (.ret sl fid) => if sl == sl' && (b.fib? fid).any (fun f => f.origin == some p.origin) then 1 else 0
          | _ => 0
        let own := (b.parts.filter fun q => q.origin == p.origin).length + coming
        let k := keys.length
        if own + k - 1 ≤ 8 && k - 1 ≤ s.freeRecords c p.part then
          let groups := keys.map fun a => (ls.filter fun x => x.2.apart == a).map (·.1)
          match groups with
          | [] => s
          | g :: rest =>
            let fresh := rest.zipIdx.map fun x =>
              { p with id := s.nextId + x.2, lanes := x.1, passed := 0, must := false, yielded := p.yielded }
            ({ s with nextId := s.nextId + rest.length }).updBlock c sl' fun b =>
              { (b.updPart id fun q => { q with lanes := g }) with
                parts := (b.updPart id fun q => { q with lanes := g }).parts ++ fresh }
        else s.updBlock c sl' fun b => b.updPart id fun q =>
          { q with serial := true, running := ({ q with running := none } : Part).pickRunning b }

/-! ### Retiring an issue -/

/-- The length of the running instruction added to a pc. -/
def State.nextPc (s : State) : W64 := s.cur.pc + BitVec.ofNat 64 s.cur.len

/-- The issue has happened: it takes its number, opens or passes lookahead windows (R86), and is charged to
`.grp` or `.cox` (R104). A trap, a fault or a return from a trap ends the windows (`close`) (log 22, DEDUCED) (log 28, DEDUCED). -/
def State.account (s : State) (h : Hd) (close : Bool) : State :=
  let w : List Window :=
    if s.cur.isLong then [{ issue := s.nextId, names := s.cur.names, left := h.la.toNat, pos := 1 }] else []
  let upd := fun (ws : List Window) => if close then endWindows (passWindows ws ++ w) else passWindows ws ++ w
  let used := fun (r : RBuf) => r.slot == s.cur.slot && s.issuers.contains r.who
  let s1 := { s with nextId := s.nextId + 1, cur := { s.cur with went := true } }.updCore s.cur.core fun c =>
    { c with idle := 0, rbuf := c.rbuf.filter fun r => !used r
             pbuf := c.pbuf.filter fun r => !(r.slot == s.cur.slot && s.issuers.contains r.who) }
  match s.cur.th with
  | .cox => (s1.updMe fun b => b.updCox fun c => { c with windows := upd c.windows, yielded := false }).charge
      s.myCtx s.myDie .cox 1
  | .part id => (s1.updMe fun b => { (b.updPart id fun p =>
      { p with windows := upd p.windows, passed := 0, must := false, yielded := false }) with idle := 0 }).charge
      s.myCtx s.myDie .grp 1
  | .none => s1

/-- Sets the pc of one party. -/
def Block.jump (b : Block) (w : Who) (pc : W64) : Block := match w with
  | .cox => b.updCox fun c => { c with pc := pc }
  | .fib fid => b.updFib fid fun f => { f with pc := pc }

/-- Moves the given parties past the instruction. -/
def State.advance (s : State) (ws : List Who) : State :=
  s.updMe fun b => ws.foldl (fun b w => b.jump w s.nextPc) b

/-- Puts the running part in order. -/
def State.tidy (s : State) : State := match s.cur.th with
  | .part id => s.settle s.cur.core s.cur.slot id
  | _ => s

/-- What one active lane of an instruction does. -/
inductive LOut where
  | ok (ws : List Wr)
  | trap (f : Flt)
  deriving DecidableEq, Repr

def outTraps (os : List (Who × LOut)) : List (Who × Flt) := os.filterMap fun o => match o.2 with
  | .trap f => some (o.1, f)
  | .ok _ => none

def Block.apply (b : Block) (os : List (Who × LOut)) : Block := os.foldl (fun b o => match o.2 with
  | .ok ws => b.wr o.1 ws
  | .trap _ => b) b

/-- Completes an issue whose lanes have computed their writes from the state before it (R213): each good
lane writes, every issuing lane that did not fault goes on, and the faulting lanes are delivered
precisely (R101). A fault first waits for the open long-latency forms (R87). -/
def State.commit (s : State) (h : Hd) (os : List (Who × LOut)) : State :=
  let tr := outTraps os
  if !tr.isEmpty && s.busy then s
  else
    let s1 := s.account h (!tr.isEmpty)
    let s2 := s1.updMe fun b => b.apply os
    let s3 := s2.advance (s.issuers.filter fun w => !(tr.any fun t => t.1 == w))
    (s3.deliver 0 tr).tidy

/-- A lane-wise instruction: each active party computes on its own view. -/
def State.lanewise (s : State) (h : Hd) (g : View → LOut) : Res :=
  .next (s.commit h ((s.views h).map fun x => (x.2.1, g x.2.2)))

/-- An instruction with only register writes. -/
def State.pure1 (s : State) (h : Hd) (g : View → List Wr) : Res := s.lanewise h fun v => .ok (g v)

/-- An instruction that changes nothing but the pc. -/
def State.skip (s : State) (h : Hd) : State := s.commit h []

/-- A fault of every issuing lane (R94), or of the active lanes only. -/
def State.faultAll (s : State) (h : Hd) (xf3 : W32) (ws : List Who) (f : Flt) : State :=
  if s.busy then s
  else (((s.account h true).deliver xf3 (ws.map fun w => (w, f)))).tidy

end Sys2Proof.Machine
end

