-- ==== Sys2Proof/Machine/Cache.lean ====
section
/-! DEFINITION. Where lines live (R20, R240, R419, R420), the L2 and the remote-data cache of each die, pinned lines, and the
budgets of memory traffic (R104, R241, R247, R248, R252). -/

namespace Sys2Proof.Machine

open Sys2Proof

/-! ### Where a line lives -/

/-- The home die of a physical address (R20). -/
def homeDie (pa : Nat) : Nat := if pa.testBit 45 then bits pa 22 21 else bits pa 44 43

/-- The home slice (R20). -/
def homeSlice (pa : Nat) : Nat := (bits pa 13 7) ^^^ (bits pa 20 14) ^^^ (bits pa 27 21)

/-- The L-die that serves a C-die (R7). -/
def servingL (die : Nat) : Nat := die / 2

/-- A C-die in service at the current stage (R419, R420). -/
def State.dieUp (s : State) (d : Nat) : Bool := match s.stage with
  | .stage0 => false
  | .stage1 => d == 0
  | .stage2 => d < 4 && !s.miss.getLsbD d
  | .halted => d < 4 && !s.miss.getLsbD d

/-- An L-die in service. -/
def State.ldieUp (s : State) (l : Nat) : Bool := match s.stage with
  | .stage0 => false
  | .stage1 => false
  | .stage2 => l == 0 || (l == 1 && !s.lmiss)
  | .halted => l == 0 || (l == 1 && !s.lmiss)

/-- A populated physical address (Table 11-4, R419, R420). -/
def State.populated (s : State) (pa : Nat) : Bool :=
  if pa.testBit 45 then bits pa 44 41 == 0 && s.dieUp (homeDie pa) && s.ldieUp (servingL (homeDie pa))
  else bits pa 42 38 == 0 && bits pa 37 0 < 192 * 2 ^ 30 && s.dieUp (homeDie pa)

/-- Whether every line of a page is populated: a 1 GiB page of the second tier lies on all four home dies (R240, R255). -/
def State.pageUp (s : State) (pa sh : Nat) : Bool :=
  s.populated pa && (sh < 30 || [1, 2, 3].all fun i => s.populated (pa + i * 2 ^ 21))

/-- The L-die that stores a second-tier line, for the `.far` budget. -/
def lineDie (pa : Nat) : Nat := if pa.testBit 45 then 4 + servingL (homeDie pa) else homeDie pa

/-- Whether a read meets data whose check failed beyond correction (R401). -/
def State.bad (s : State) (pa n : Nat) : Bool :=
  s.poison.any fun w => w * 8 < pa + n && pa < w * 8 + 8

/-- The management page (R426). -/
def mgBase : Nat := 0x2FFFFFF000

/-! ### L2, RDC and the budgets of memory traffic (R241, R247, R252) -/

/-- The class and die that traffic of a line is charged to. -/
def lineClass (pa : Nat) : BClass × Nat := (if pa.testBit 45 then .far else .hbm, lineDie pa)

/-- How a class ranks a line for replacement: 0 goes first, 2 last (Table 11-6). -/
def rankOf : Reuse → Nat
  | .stream => 0
  | .keep => 2
  | _ => 1

/-- Drops the k-th of some lines, unless a line that is replaced before it is there (R247). -/
def dropLine (rank : α → Nat) (l : List α) (k : Nat) : List α := match l[k]? with
  | some x => if l.all fun y => rank x ≤ rank y then l.eraseIdx k else l
  | none => l

/-- Which of some lines a full cache replaces: one of the lowest rank, chosen by `n` (R247) (log 8, DESIGN CHOICE). -/
def victimLine (rank : α → Nat) (l : List α) (n : Nat) : Nat :=
  let c := (l.zipIdx.filter fun x => l.all fun y => rank x.1 ≤ rank y).map fun x => x.2
  match (c.drop (n % c.length)).head? with
  | some k => k
  | none => 0

/-- Whether a die's RDC holds a line that is homed on another die. -/
def State.rdcHit (s : State) (die pa : Nat) : Bool :=
  homeDie pa != die && (s.cdie die).rdc.any fun x => x.1 == pa / 128

/-- Whether the home die's L2 has a line (R241). A pinned line is one of its lines (R248). -/
def State.l2Hit (s : State) (pa : Nat) : Bool := (s.cdie (homeDie pa)).l2.any fun x => x.line == pa / 128

/-- Whether the traffic of an access at a home slice waits at its controller: the line must be filled, and its class is held
(R104). -/
def State.lineHeld (s : State) (ctx pa : Nat) : Bool := s.held ctx (lineClass pa).2 (lineClass pa).1 && !s.l2Hit pa

/-- The same for a read from a core, which its die's RDC may serve. -/
def State.readHeld (s : State) (core ctx pa : Nat) : Bool := !s.rdcHit (coreDie core) pa && s.lineHeld ctx pa

/-- A line leaves an L2: each of its 64-byte halves that was written goes back as one burst, charged to the context that wrote
the line last (R252) (log 8, DESIGN CHOICE). -/
def State.writeBack (s : State) (x : L2Line) : State :=
  s.charge x.ctx (lineClass (x.line * 128)).2 (lineClass (x.line * 128)).1 x.dirty.length

/-- Whether a line of a die is pinned (R248). -/
def CDie.pins (d : CDie) (x : L2Line) : Bool := d.pinned.any fun p => p.1 == x.line

/-- Whether two lines lie in one slice of a die's L2 (R1, R20). -/
def L2Line.beside (x y : L2Line) : Bool := homeSlice (x.line * 128) == homeSlice (y.line * 128)

/-- The line that makes room for another in its slice: the least rank first, pinned lines never (R247, R248). -/
def CDie.victim (d : CDie) (x : L2Line) (n : Nat) : Option L2Line :=
  let able := d.l2.filter fun y => y.beside x && !d.pins y
  able[victimLine (fun (y : L2Line) => y.rank) able n]?

/-- The k-th line of an L2 goes, unless it is pinned or a line of its slice that is replaced before it is there (R247, R248). -/
def State.evictL2 (s : State) (die k : Nat) : State :=
  let d := s.cdie die
  match d.l2[k]? with
  | some x => if d.pins x || (d.l2.any fun y => y.beside x && !d.pins y && y.rank < x.rank) then s
    else (s.updDie die fun d => { d with l2 := d.l2.eraseIdx k }).writeBack x
  | none => s

/-- An L2 takes a line: its slice holds 8,192, and a full one makes room. A slice whose lines are all pinned keeps no other (R1,
R241, R248) (log 8, DESIGN CHOICE). -/
def State.addL2 (s : State) (die : Nat) (x : L2Line) : State :=
  let d := s.cdie die
  if (d.l2.filter fun y => y.beside x).length < 8192 then s.updDie die fun d => { d with l2 := d.l2 ++ [x] }
  else match d.victim x (Config.pick s.tick) with
  | some y => (s.updDie die fun d => { d with l2 := (d.l2.filter fun z => z.line != y.line) ++ [x] }).writeBack y
  | none => s.writeBack x

/-- An access reaches the home slice of a line, and the L2 has the line from then on, in the rank of this access's class; a miss
fills its two bursts, and writes leave the halves `hs` to be written back (R241, R247, R252) (log 8, DESIGN CHOICE). -/
def State.homeTouch (s : State) (ctx rank pa : Nat) (hs : List Nat) : State :=
  let die := homeDie pa
  let mark := fun (x : L2Line) => if x.line == pa / 128 then
    { x with rank := rank, dirty := distinct (x.dirty ++ hs), ctx := if hs.isEmpty then x.ctx else ctx } else x
  if s.l2Hit pa then s.updDie die fun d => { d with l2 := d.l2.map mark }
  else (s.charge ctx (lineClass pa).2 (lineClass pa).1 2).addL2 die { line := pa / 128, rank := rank, dirty := distinct hs, ctx := ctx }

/-- The 64-byte halves of their line that some written bytes lie in. -/
def halvesOf (ws : List (Nat × Byte)) : List Nat := distinct (ws.map fun w => w.1 % 128 / 64)

/-- The traffic of a read at a home slice. -/
def State.chargeLine (s : State) (ctx pa : Nat) : State := s.homeTouch ctx 1 pa []

/-- The traffic of a write at a home slice. -/
def State.chargeWrite (s : State) (ctx pa : Nat) (ws : List (Nat × Byte)) : State := s.homeTouch ctx 1 pa (halvesOf ws)

/-- An RDC copy of a line homed on another die, of 262,144 lines a die, in the rank of the class that brought it in; a full RDC
replaces one (R1, R241, R247) (log 8, DESIGN CHOICE). -/
def State.fillRdc (s : State) (die rank pa : Nat) : State :=
  if homeDie pa = die || (s.cdie die).rdc.any (fun x => x.1 == pa / 128) then s
  else s.updDie die fun d =>
    let l := if d.rdc.length < 262144 then d.rdc else d.rdc.eraseIdx (victimLine Prod.snd d.rdc (Config.pick s.tick))
    { d with rdc := l ++ [(pa / 128, rank)] }

/-- A gather or `embpool` of class 0 or 2 counts its line on the line's home die, each lane's access for itself, also one that a
cache serves (R248) (log 8, DESIGN CHOICE). -/
def State.countLine (s : State) (cls : Reuse) (pa : Nat) : State :=
  if cls = .normal || cls = .keep then
    s.updDie (homeDie pa) fun d =>
      let l := pa / 128
      { d with freq := if d.freq.any (fun x => x.1 == l) then
          d.freq.map fun x => if x.1 == l then (l, x.2 + 1) else x else d.freq ++ [(l, 1)] }
  else s

end Sys2Proof.Machine
end

