-- ==== Sys2Proof/Machine/Translate.lean ====
section
/-! DEFINITION. The page walk and its traffic, the rights check and the translation caches (R253–R259), and the checks of a
generic pointer (R231–R233). -/

namespace Sys2Proof.Machine

open Sys2Proof

/-! ### The walk -/

/-- An 8-byte table entry as its home slice holds it. -/
def State.entry (s : State) (a : Nat) : W64 := BitVec.ofNat 64 (leNat (s.mem.read a 8))

/-- Level of a walk: the low bit of its index and the log2 of what a leaf there maps (Table 12-1). -/
def lvlShift : Nat → Nat
  | 0 => 12
  | 1 => 21
  | 2 => 30
  | _ => 39

/-- A leaf the walk found: log2 page size, physical base, and the entry. -/
structure Leaf where
  sh : Nat
  pa : Nat
  e : W64
  deriving DecidableEq, Repr

/-- The entry at one level: not present, a lower table, or a leaf (R255). -/
inductive Walk1 where
  | absent
  | table (pa : Nat)
  | leaf (l : Leaf)
  deriving DecidableEq, Repr

def State.readEntry (s : State) (lvl : Nat) (e : W64) : Walk1 :=
  let x := e.toNat
  let pa := bits x 45 12 * 4096
  if !e.getLsbD 0 || bits x 63 46 ≠ 0 || bits x 11 8 ≠ 0 then .absent
  else if e.getLsbD 3 then
    let s64 := e.getLsbD 4
    let sh := if s64 then 16 else lvlShift lvl
    if lvl ≥ 3 || (s64 && lvl ≠ 0) || pa % 2 ^ sh ≠ 0 || !s.pageUp pa sh then .absent
    else .leaf { sh := sh, pa := pa, e := e }
  else if lvl = 0 || bits x 7 1 ≠ 0 || !s.populated pa then .absent
  else .table pa

/-- The index of a level (Table 12-1): the root takes VA[55:39]. -/
def lvlIndex (lvl va : Nat) : Nat := if lvl = 3 then bits va 55 39 else (va / 2 ^ lvlShift lvl) % 512

/-- Walks the levels below a table. -/
def State.walkFrom (s : State) (va : Nat) : Nat → Nat → Option Leaf
  | 0, t => match s.readEntry 0 (s.entry (t + 8 * lvlIndex 0 va)) with
    | .leaf l => some l
    | _ => none
  | n + 1, t => match s.readEntry (n + 1) (s.entry (t + 8 * lvlIndex (n + 1) va)) with
    | .leaf l => some l
    | .table u => s.walkFrom va n u
    | .absent => none

/-- A walk from the context's root (R253). -/
def State.walk (s : State) (ctx va : Nat) : Option Leaf := match (s.ctx ctx).root with
  | some r => s.walkFrom va 3 r
  | none => none

/-- The entries that a walk below a table reads, each at its home slice (R253, R257). -/
def State.walkReads (s : State) (va : Nat) : Nat → Nat → List Nat
  | 0, t => [t + 8 * lvlIndex 0 va]
  | n + 1, t =>
    let a := t + 8 * lvlIndex (n + 1) va
    a :: match s.readEntry (n + 1) (s.entry a) with
      | .table u => s.walkReads va n u
      | _ => []

def Tlb.hits (t : Tlb) (ctx va : Nat) : Bool := t.ctx == ctx && t.va / 2 ^ t.sh == va / 2 ^ t.sh
def Tlb.asLeaf (t : Tlb) : Leaf := { sh := t.sh, pa := t.pa, e := t.leaf }

/-- The translation an access uses: the core's TLB, then its die's cache, then a walk (R257, R258) (log 80, DEDUCED). -/
def State.look (s : State) (core ctx va : Nat) : Option Leaf :=
  match (s.core core).tlb.find? (·.hits ctx va) with
  | some t => some t.asLeaf
  | none => match (s.cdie (coreDie core)).dtc.find? (·.hits ctx va) with
    | some t => some t.asLeaf
    | none => s.walk ctx va

/-- Whether an access finds its translation in its core's TLB or its die's cache (R257). -/
def State.xlHit (s : State) (core ctx va : Nat) : Bool :=
  (s.core core).tlb.any (·.hits ctx va) || (s.cdie (coreDie core)).dtc.any (·.hits ctx va)

/-- The lines that the walk of an access reads; none when a cache has the translation. -/
def State.walkLines (s : State) (core ctx va : Nat) : List Nat :=
  if s.xlHit core ctx va then []
  else match (s.ctx ctx).root with
    | some r => (s.walkReads va 3 r).map fun a => a / 128 * 128
    | none => []

/-- The traffic of an access's walk (R241, R252, R257). -/
def State.walked (s : State) (core ctx va : Nat) : State :=
  (s.walkLines core ctx va).foldl (fun s pa => s.homeTouch ctx 1 pa []) s

/-- Whether a walk waits at a controller whose class is held (R104). -/
def State.walkHeld (s : State) (core ctx va : Nat) : Bool := (s.walkLines core ctx va).any (s.lineHeld ctx)

/-- A leaf whose page is not migrating may be cached (R257, R259). -/
def Leaf.tlb (l : Leaf) (ctx va : Nat) : Tlb :=
  { ctx := ctx, va := va / 2 ^ l.sh * 2 ^ l.sh, sh := l.sh, pa := l.pa, leaf := l.e }

def Tlb.pin (t : Tlb) : Bool := t.leaf.getLsbD 5

/-- Adds to a die's cache: 8,192 entries, of which up to 1,024 pinned ones stay; a pinned leaf beyond that number is an ordinary
entry (R257). -/
def addDtc (l : List Tlb) (t : Tlb) : List Tlb :=
  if l.any fun x => x.ctx == t.ctx && x.va == t.va && x.sh == t.sh then l
  else
    let pins := l.filter (·.pinned)
    let rest := l.filter fun x => !x.pinned
    if t.pin && pins.length < 1024 then ({ t with pinned := true } :: pins) ++ rest.take (8191 - pins.length)
    else pins ++ (t :: rest.take (8191 - pins.length))

def addTlb (l : List Tlb) (t : Tlb) : List Tlb :=
  if l.any fun x => x.ctx == t.ctx && x.va == t.va && x.sh == t.sh then l else t :: l.take 63

/-- An access has used a translation: its walk, if it took one, has its traffic, and the caches keep what it found. -/
def State.fill (s : State) (core ctx va : Nat) : State :=
  let t := s.walked core ctx va
  match s.look core ctx va with
  | none => t
  | some l =>
    if l.e.getLsbD 6 then t
    else (t.updCore core fun c => { c with tlb := addTlb c.tlb (l.tlb ctx va) }).updDie (coreDie core)
      fun d => { d with dtc := addDtc d.dtc (l.tlb ctx va) }

/-- What an access needs of a leaf (R256). -/
inductive Right where | read | write | fetch
  deriving DecidableEq, Repr

/-- A translated access: its physical address, a wait on a migrating page, or a fault with INFO. -/
inductive Xl where
  | ok (pa : Nat)
  | wait
  | fault (info : BitVec 16)
  deriving DecidableEq, Repr

/-- The rights check (R256). `sys` marks fibre-memory traffic and context images. -/
def Leaf.check (l : Leaf) (r : Right) (sys : Bool) (va : Nat) : Xl :=
  let w : BitVec 16 := if r = .write then 1 else 0
  if l.e.getLsbD 6 then .wait
  else if l.e.getLsbD 7 && !sys then .fault (2 ||| w)
  else if (r = .write && !l.e.getLsbD 1) || (r = .fetch && !l.e.getLsbD 2) then .fault (2 ||| w)
  else .ok (l.pa + va % 2 ^ l.sh)

/-- Translates and checks one access; a walk whose traffic is held makes it wait (R104, R253–R256). -/
def State.xl (s : State) (core ctx va : Nat) (r : Right) (sys : Bool) : Xl :=
  if s.walkHeld core ctx va then .wait
  else match s.look core ctx va with
    | none => .fault (if r = .write then 1 else 0)
    | some l => l.check r sys va

/-- The page of a fault: ADDR is page-aligned (Table 5-3), and faults coalesce by 4 KiB page (R261). -/
def pageOf (va : Nat) : Nat := va / 4096 * 4096

/-! ### Remote addresses (R399) -/

/-- A remote address: VA[55:52] = 0xE (R399). -/
def isRemote (va : Nat) : Bool := bits va 55 52 == 0xE

/-- The address that a party used for a remote place. -/
def remoteVa (dev va : Nat) : Nat := 0xE * 2 ^ 52 + dev * 2 ^ 42 + va

/-- The address that a system access walks: a remote address of this device is local, one of another device is translated there
(R399). -/
def State.sysVa (s : State) (va : Nat) : Option Nat :=
  if !isRemote va then some va else if bits va 51 42 = s.devNum.toNat then some (bits va 41 0) else none

/-- The fault of a remote place whose request has failed, by its CODE and INFO. -/
def remoteFlt (dev va code info : Nat) : Flt :=
  { code := BitVec.ofNat 8 code, info := BitVec.ofNat 16 info, page := if code = 6 then pageOf (remoteVa dev va) else 0 }

/-! ### Generic pointers (R231–R233) -/

/-- The reasons of Table 11-2, or an address in extent. -/
inductive Ptr where
  | ok (space off : Nat)
  | bad (reason : Nat) (space : Nat)
  deriving DecidableEq, Repr

def ptrSpace (p : W64) : Nat := bits p.toNat 63 60

/-- LIMIT of a space (Table 11-1). -/
def limitOf (b : Block) (space : Nat) (write : Bool) : Nat := match space with
  | 0 => 2 ^ 56
  | 1 => b.kr.ssize.toNat
  | 2 => if write then b.kr.csize.toNat else 131072
  | _ => 16384

/-- The checks of Table 11-2 on base + disp for n bytes. `accept` lists the spaces the form and stream take. -/
def ptrCheck (b : Block) (accept : List Nat) (p : W64) (disp : Int) (n : Nat) (write : Bool) : Ptr :=
  let sp := ptrSpace p
  let x : Int := (bits p.toNat 55 0 : Nat) + disp
  if sp > 3 || bits p.toNat 59 56 ≠ 0 then .bad 0 sp
  else if !accept.contains sp then .bad 5 sp
  else if x < 0 || x ≥ 2 ^ 56 then .bad 3 sp
  else if x.toNat % n ≠ 0 then .bad 2 sp
  else if x.toNat + n > limitOf b sp write then .bad 1 sp
  else .ok sp x.toNat

/-- The checks of a pointer of a matrix or bank form: any space but 0 and 1 has reason 5, then Table 11-2 (R344, R352, R355,
R373) (log 77, DEDUCED). -/
def tileCheck (b : Block) (p : W64) (n : Nat) (write : Bool) : Ptr :=
  if 1 < ptrSpace p then .bad 5 (ptrSpace p) else ptrCheck b [0, 1] p 0 n write

/-- The pointer fault's INFO: SPACE and the reason (R232). -/
def ptrInfo (reason space : Nat) : BitVec 16 := BitVec.ofNat 16 (reason * 16 + space)

/-- The base of a fibre's memory (R260). -/
def fibreBase (core slot k : Nat) : Nat := 0x00FF000000000000 + ((core * 16 + slot) * 65536 + k) * 32768

/-- Spaces a synchronous access takes (R233, R278). -/
def spacesOf (cox : Bool) : List Nat := if cox then [0, 1, 2] else [0, 1, 2, 3]

end Sys2Proof.Machine
end

