-- ==== Sys2Proof/Machine/Fetch.lean ====
section
/-! DEFINITION. Fetching, checking and readying an instruction (R83–R87, R92, R429, R14, R127): everything a turn
does before the meaning of the instruction runs. -/

namespace Sys2Proof.Machine

open Sys2Proof

/-- The key registers a relation records (R50): KIND 1 or 2. -/
def Relation.keyRegs (r : Relation) : List Nat := r.clauses.flatMap fun c =>
  if c.kind = 1 then [c.vd.toNat] else if c.kind = 2 then [c.vd.toNat, c.vd.toNat + 1] else []

def Relation.pairKey (r : Relation) : Bool := r.clauses.any fun c => c.kind == 2

/-- The registers of a fold column (R50, R160): a 64-bit column is a pair. -/
def Clause.cols (c : Clause) : List Nat :=
  if c.kind = 5 || c.kind = 6 || c.kind = 7 then
    (if c.arg = 3 || c.arg = 4 then [c.vd.toNat, c.vd.toNat + 1] else [c.vd.toNat])
  else if c.kind = 8 || c.kind = 9 then [c.vd.toNat] else []

/-- Projection sources of a join result (R158). -/
def Relation.projSrcs (r : Relation) : List Nat := r.clauses.filterMap fun c =>
  if c.kind = 3 || c.kind = 4 then some c.arg.toNat else none

/-- What decoding needs of relation n (R163, R168). -/
def relInfoOf (rs : List Relation) (n : Nat) : RelInfo := match rs[n]? with
  | none => ⟨false, false, [], [], []⟩
  | some r =>
    let keyOf := fun (i : Option Nat) => match i with
      | some k => match rs[k]? with
        | some q => q.keyRegs
        | none => []
      | none => []
    { join := r.left.isSome
      pairKey := r.pairKey
      joinRegs := keyOf r.left ++ keyOf r.right ++ r.projSrcs
      foldRegs := r.keyRegs ++ r.clauses.flatMap Clause.cols
      keyRegs := r.keyRegs }

/-- The decoding context of a block (R92, R163, R190). -/
def Block.dctx (b : Block) (priv : Bool) (st : Stream) : DCtx where
  stream := st
  priv := priv
  w := b.kr.w.toNat
  extent := b.kr.extent.toNat
  rels := (List.range b.rels.length).map (relInfoOf b.rels)
  gbar := b.kr.gbar.extractLsb' 0 4

/-- The 32 bytes of an instruction block: the core's copy if it holds one, else memory (R84). -/
def State.codeBytes (s : State) (core ctx va pa : Nat) : BitVec 256 :=
  match (s.core core).icache.find? fun e => e.1 == ctx && e.2.1 == va with
  | some e => e.2.2
  | none => BitVec.ofNat 256 (leNat (s.mem.read pa 32))

/-- Whether a core must fetch the code at an address (R84). -/
def State.codeMiss (s : State) (core ctx va : Nat) : Bool := !((s.core core).icache.any fun e => e.1 == ctx && e.2.1 == va)

/-- The traffic of a code fetch at the home slice (R241, R252). -/
def State.touchCode (s : State) (core ctx va pa : Nat) : State :=
  if s.codeMiss core ctx va then s.chargeLine ctx pa else s

/-- The bytes of a block value. -/
def blockBytes (x : BitVec 256) : List Byte := leBytes 32 x.toNat

def State.keepCode (s : State) (core ctx va : Nat) (x : BitVec 256) : State :=
  s.updCore core fun c => { c with icache :=
    if (c.icache.any fun e => e.1 == ctx && e.2.1 == va) then c.icache else (ctx, va, x) :: c.icache }

/-- Named registers as windows hold them. -/
def namedReg : Named → RName
  | .v n => .v n
  | .p n => .p n
  | .j n => .j n
  | .q n => .q n
  | .z n => .z n
  | .s n => .s n

/-- REG of Table 4-10: the first field value, in the order D, A, B, C, of a register both name; 0xFF when the
shared registers are guards or implied; 0xFE for a branch that shares none. -/
def sharedReg (fields : List (Nat × List Named)) (implied : List Named) (w : Window) : Option (BitVec 8) :=
  match fields.find? fun x => x.2.any fun n => w.names.contains (namedReg n) with
  | some x => some (BitVec.ofNat 8 x.1)
  | none => if (implied.any fun n => w.names.contains (namedReg n)) then some 0xFF else none

/-- A branch of majors 0x01–0x03 (R86). -/
def isBranch (f : Fields) : Bool := f.opc == 1 || f.opc == 2 || f.opc == 3

/-- The oldest window this instruction violates, as `%xf3` reports it (R87, Table 4-10). -/
def violation (f : Fields) (fields : List (Nat × List Named)) (implied : List Named) :
    List Window → Option W32
  | [] => none
  | w :: r =>
    if w.left = 0 then violation f fields implied r
    else match sharedReg fields implied w with
      | some reg => some ((0xF : BitVec 4) ++ BitVec.ofNat 4 w.pos ++ reg ++ (0 : BitVec 16))
      | none =>
        if isBranch f then some ((0xF : BitVec 4) ++ BitVec.ofNat 4 w.pos ++ (0xFE : BitVec 8) ++ (0 : BitVec 16))
        else violation f fields implied r

/-- D is read, not written, by the forms of `sctx`, `cst` and `embpool`. -/
def readsD (f : Fields) : Bool :=
  (f.opc == 0x71 && f.sub == 3) || f.opc == 0x72 || (f.opc == 0x73 && f.sub == 0)

/-- C names destinations in `cpa.reg` (R281). -/
def writesC (f : Fields) : Bool := f.opc == 0x70 && f.sub == 1

/-- The registers an instruction reads, for the scoreboard (R276). `cbrd` writes its implied range; `renter` reads the
relation's key (R167). -/
def readNames (k : DCtx) (an : Ana) (f : Fields) : List Named :=
  let cox := k.stream = .cox
  (if readsD f then an.d.names cox f.d else []) ++ an.a.names cox f.a ++ an.b.names cox f.b ++
  (if writesC f then [] else an.c.names cox f.c) ++ (if f.opc == 0xC3 then [] else an.implied.map .v) ++
  (if f.opc == 0x11 && f.sub == 0 then (relInfo k f).keyRegs.map .v else [])

/-- Forms that read registers of guard-false lanes: the quad exchanges (R227) and `mma` (R349). -/
def readsAll (f : Fields) : Bool := f.opc == 0x52 || f.opc == 0xB0

/-- Whether a scoreboard bit covers a register the instruction reads, in a party that it reads it from (R276)
(log 24, DEDUCED). -/
def State.scoreboard (s : State) (h : Hd) (every : Bool) (ns : List Named) : Bool :=
  (s.views (if every then {} else h)).any fun x => match x.2.2 with
    | .cox c => c.sb.any fun e => ns.contains (.s e.1)
    | .fib f => f.sb.any fun e => ns.contains (.v e.1)

/-- The width of a lease's tiles. -/
def leaseN (pair : Bool) : Nat := if pair then 96 else 48

/-- The lease of a block: whether it is a pair lease (R333). -/
def State.lease (s : State) (b : Block) : Option Bool :=
  let a := (s.core b.core).arr
  if a.holder == some (b.core, b.slot) then
    match a.st with
    | .single => some false
    | .leader => some true
    | _ => none
  else none

/-- The state checks of R429, and the `j` of `zrd` against the lease's width (R352): the FIELD of the first that fails (log 31, DEDUCED). -/
def State.stateCheck (s : State) (b : Block) (k : DCtx) (f : Fields) : Option Nat :=
  let st1 := s.stage != .stage2
  let die := coreDie b.core
  let bank := (s.core b.core).bank
  let d := bits bank.cfg.toNat 6 0
  let held := bank.holder == some b.slot
  match f.opc.toNat, f.sub.toNat with
  | 0xB0, 0 => if st1 && mmaA f != some .bf16 then some 12 else none
  | 0xB1, 3 => if (s.lease b).any fun pair => leaseN pair / 4 ≤ f.c.toNat then some 9 else none
  | 0xB4, 0 => if st1 then some 2 else none
  | 0xE0, _ | 0xE1, _ => if st1 || (2 ≤ die && !s.ldieUp 1) then some 2 else none
  | 0xC1, 0 => if held && k.w < f.a.toNat + d then some 7 else none
  | 0xC3, 0 => if held && k.stream = .fibre && k.w < f.d.toNat + d + 1 then some 6 else none
  | _, _ => none

/-- The pc of a thread: a part's is that of its issuing lanes. -/
def State.threadPc (s : State) : W64 := match s.me, s.cur.th with
  | some b, .cox => b.cox.pc
  | some b, .part id => match b.part? id with
    | some p => match b.lanesOf p with
      | x :: _ => x.2.pc
      | [] => 0
    | none => 0
  | _, _ => 0

/-- Whether a part has a lane that can issue: its issuing lanes are READY. -/
def Block.partReady (b : Block) (p : Part) : Bool :=
  let ls := b.lanesOf p
  !ls.isEmpty && ls.all fun x => x.2.life = .ready

/-- The groups of a partition, with their blocks. -/
def State.partsOn (s : State) (core part : Nat) : List (Block × Part) :=
  (s.blocks.filter fun b => b.core == core).flatMap fun b => (b.parts.filter fun p => p.part == part).map fun p => (b, p)

/-- A block may issue: its context is RUNNING (R106) and no overflow has stopped it (R152). -/
def State.blockRuns (s : State) (b : Block) : Bool := (s.ctx b.ctx).st = .running && !b.ovStop

/-- Who the running thread is within its core: its partition, or 4 for a cox thread. -/
def State.curPath (s : State) : Nat := match s.cur.th with
  | .cox => 4
  | _ => s.curPart

/-- Whether a partition, or the cox pipeline (4), of a core can still issue in this cycle: one issue each, in ascending
partition order with the cox thread last, so that what same-cycle issues do comes in that order (R14, R176, R197, R201). -/
def State.slotOpen (s : State) (core path : Nat) : Bool := match (s.core core).last with
  | none => true
  | some (t, p) => t != (s.cdie (coreDie core)).cyc.toNat || p < path

/-- Whether a thread can be selected (R14, R104, R106, R109, R113, R127): it is live and unparked, its core is awake, its slot of
this cycle is open, its class is not held, and it has not yielded in the cycle before. -/
def State.selectable (s : State) : Bool := match s.me with
  | none => false
  | some b =>
    let c := s.core b.core
    let now := some (s.cdie (coreDie b.core)).cyc.toNat
    if c.becalmed || c.wakeIn ≠ 0 || !s.blockRuns b || !s.slotOpen b.core s.curPath || s.issuers.any (fun w => s.awaitsRemote b.core b.slot w) then false
    else match s.cur.th with
    | .cox => !b.cox.ended && b.cox.wait.isNone && b.cox.mute != now && !s.held b.ctx (coreDie b.core) .cox
    | .part id => match b.part? id with
      | none => false
      | some p => b.partReady p && p.mute != now && !s.held b.ctx (coreDie b.core) .grp
    | .none => false

/-- What fetching and checking an instruction gives; `ask` is a read of code on another device that the thread waits for (R399). -/
inductive Fetched where
  | stall
  | ask (dev va : Nat)
  | trap (s : State) (xf3 : W32) (f : Flt)
  | go (s : State) (i : Instr)
  deriving Repr

/-- FIELD in `%xf3` (log 21, DEDUCED). -/
def fieldXf3 (n : Nat) : W32 := BitVec.ofNat 4 n ++ (0 : BitVec 28)

def codeFault (code : BitVec 8) : Flt := { code := code }

/-- Sets the running issue. -/
def State.setCur (s : State) (f : Fields) (len : Nat) : State :=
  { s with cur := { s.cur with base := f.base, ext := f.ext, len := len } }

/-- Forms that wait until every open window of their stream has closed (R114). -/
def waitsWindows (f : Fields) : Bool := f.opc == 0xF1 && (f.sub == 2 || f.sub == 3)

/-- Checks 2 to 13 of Table 4-5 and R429, then the waits of R86 and R276, on the bytes of a block. -/
def State.checkBlock (s : State) (b : Block) (blk : List Byte) (off : Nat) : Fetched :=
  let priv := (s.ctx b.ctx).priv
  let k := b.dctx priv (if s.cur.th = .cox then .cox else .fibre)
  let f := fieldsAt blk off
  let n := lenBytes f.len
  let s1 := s.setCur f n
  if f.len = 3 then .trap s1 (fieldXf3 1) (codeFault 1)
  else if 32 < off + n then .trap s1 (fieldXf3 14) (codeFault 2)
  else match checkFields k f with
  | .error (.illegal x) => .trap s1 (fieldXf3 x) (codeFault 1)
  | .error .malformed => .trap s1 (fieldXf3 14) (codeFault 2)
  | .error .privilege => .trap s1 0 (codeFault 4)
  | .ok (i, an, long) =>
    match s1.stateCheck b k f with
    | some x => .trap s1 (fieldXf3 x) (codeFault 1)
    | none =>
      let ws := s1.liveWindows (s1.windowsOf b.core b.slot s1.cur.th)
      let imp := impliedNames an f
      if waitsWindows f then
        (if s1.busy then .stall
         else .go { s1 with cur := { s1.cur with names := [], isLong := false } } i)
      else match violation f (fieldNames k an f) imp ws with
      | some x => .trap s1 x (codeFault 3)
      | none =>
        if ws.any (fun w => w.left = 0) || s1.scoreboard f.hd (readsAll f) (readNames k an f) then .stall
        else .go { s1 with cur := { s1.cur with names := (allNames k an f).map namedReg, isLong := long } } i

/-- The bytes of a block of code go to the core's copies, and the checks follow. -/
def State.takeCode (s : State) (b : Block) (va off : Nat) (x : BitVec 256) : Fetched :=
  (s.keepCode b.core b.ctx va x).checkBlock b (blockBytes x) off

/-- Fetches a block of code from another device, which translates it with the X right (R84, R399): the core's copy, else what a
request has brought, which is forgotten then. -/
def State.fetchFar (s : State) (b : Block) (va off : Nat) : Fetched :=
  let dev := bits va 51 42
  let mine := fun (r : RBuf) => r.slot == b.slot && s.issuers.contains r.who && r.dev == dev && r.va == bits va 41 0
  let t := s.updCore b.core fun c => { c with rbuf := c.rbuf.filter fun r => !mine r }
  if 512 ≤ dev || s.lostDevs.contains dev then .trap s 0 { code := 0x06, page := pageOf va }
  else if !s.codeMiss b.core b.ctx va then s.takeCode b va off (s.codeBytes b.core b.ctx va 0)
  else match (s.core b.core).rbuf.find? mine with
    | none => .ask dev (bits va 41 0)
    | some r => match r.bad with
      | some x => .trap t 0 (remoteFlt dev (bits va 41 0) x.1 x.2)
      | none => t.takeCode b va off (BitVec.ofNat 256 (leNat r.data))

/-- Fetches at the thread's pc: checks 1 and 3, the translation with the X right, and the block's bytes, whose check may have
failed (R83, R84, R92, R256, R401). A remote address of this device is local (R399). -/
def State.fetch (s : State) (b : Block) : Fetched :=
  let pc := s.threadPc.toNat
  let off := pc % 32
  let s0 := { s with cur := { s.cur with pc := s.threadPc, base := 0, ext := 0, len := 8, names := [], isLong := false } }
  if pc % 4 ≠ 0 || 24 < off || b.kr.extent.toNat ≤ pc then .trap s0 (fieldXf3 14) (codeFault 2)
  else
    let at_ := b.kr.code.toNat + (pc - off)
    let va := if isRemote at_ then bits at_ 41 0 else at_
    if isRemote at_ && bits at_ 51 42 ≠ s.devNum.toNat then s0.fetchFar b at_ off
    else match s0.xl b.core b.ctx va .fetch false with
    | .wait => .stall
    | .fault info => .trap (s0.walked b.core b.ctx va) 0 { code := 0x06, info := info, page := pageOf va }
    | .ok pa =>
      let miss := s0.codeMiss b.core b.ctx va
      if miss && s0.lineHeld b.ctx pa then .stall
      else if miss && s0.bad pa 32 then .trap ((s0.fill b.core b.ctx va).touchCode b.core b.ctx va pa) 0 { code := 0x11 }
      else ((s0.fill b.core b.ctx va).touchCode b.core b.ctx va pa).takeCode b va off (s0.codeBytes b.core b.ctx va pa)

/-- Windows that have ended are dropped before the issue. -/
def State.dropWindows (s : State) : State :=
  let ws := s.liveWindows (s.windowsOf s.cur.core s.cur.slot s.cur.th)
  match s.cur.th with
  | .cox => s.updMe fun b => b.updCox fun c => { c with windows := ws }
  | .part id => s.updMe fun b => b.updPart id fun p => { p with windows := ws }
  | .none => s

/-- After a thread has used the slot of its partition, every other group there that was ready has waited one slot more, and a
yielded one stands in front again; likewise the cox threads of the core (R14, R113, R127). `ready` lists, as (slot, part), the
groups that could have issued. -/
def State.passOthers (s : State) (core slot path : Nat) (th : Thread) (ready : List (Nat × Nat)) : State :=
  let now := (s.cdie (coreDie core)).cyc.toNat
  let other := fun (q : Block) => match th with
    | .cox => if q.slot != slot then q.updCox fun c => { c with yielded := false } else q
    | .part id => { q with parts := q.parts.map fun (p : Part) =>
        if p.part == path && !(q.slot == slot && p.id == id) then
          { p with yielded := false, passed := if ready.contains (q.slot, p.id) then p.passed + 1 else 0 }
        else p }
    | .none => q
  ({ s with blocks := s.blocks.map fun (q : Block) => if q.core == core then other q else q }).updCore core fun c =>
    { c with last := some (now, path), coxRR := if path = 4 then slot else c.coxRR }

/-- A trap ends every window of the stream (R86), and what a pooling had read is forgotten (log 23, DEDUCED). -/
def State.closeWindows (s : State) : State :=
  let s := s.updCore s.cur.core fun c => { c with pbuf := c.pbuf.filter fun r => !(r.slot == s.cur.slot && s.issuers.contains r.who) }
  match s.cur.th with
  | .cox => s.updMe fun b => b.updCox fun c => { c with windows := endWindows c.windows }
  | .part id => s.updMe fun b => b.updPart id fun p => { p with windows := endWindows p.windows }
  | .none => s

/-- A trap of an instruction that does not issue is taken by the given parties, once the open long-latency forms
have completed (R87, R101) (log 22, DEDUCED) (log 25, DEDUCED). -/
def State.trapUnissued (s : State) (xf3 : W32) (ws : List Who) (f : Flt) : State :=
  if s.busy then s
  else ((({ s with cur := { s.cur with went := true } }).closeWindows.deliver xf3 (ws.map fun w => (w, f)))).tidy

/-- A trap found before the instruction issues is taken by every issuing party (R93, R94). -/
def State.fetchTrap (s : State) (xf3 : W32) (f : Flt) : State := s.trapUnissued xf3 s.issuers f

end Sys2Proof.Machine
end

