-- ==== Sys2Proof/Machine/Operands.lean ====
section
/-! DEFINITION. Operand forms: typed register operands and immediates (R210–R213), and displacements (R272). -/

namespace Sys2Proof.Machine

open Sys2Proof

/-- The width of an integer type (R210). -/
def tyWidth (t : IntTy) : Nat := if t.is64 then 64 else 32

def tySigned : IntTy → Bool
  | .i32 => true
  | .i64 => true
  | _ => false

/-- A register operand of an integer type, as its unsigned bits (R212). -/
def rawReg (v : View) (t : IntTy) (r : RegNo) : Nat :=
  if t.is64 then (v.r64 r).toNat else (v.r32 r).toNat

/-- The value that bits have under a type: two's complement when signed (R210). -/
def tyVal (t : IntTy) (x : Nat) : Int :=
  if tySigned t && 2 ^ (tyWidth t - 1) ≤ x then (x : Int) - 2 ^ tyWidth t else x

/-- The bits of an integer modulo 2^w (R210). -/
def tyBitsOf (t : IntTy) (x : Int) : Nat := (x % 2 ^ tyWidth t).toNat

/-- The last source: a register, or an immediate extended to w (R211). -/
def srcBits (v : View) (t : IntTy) : Src → Nat
  | .reg r => rawReg v t r
  | .imm8 i => if tySigned t then tyBitsOf t i.toInt else i.toNat
  | .imm32 i => if tySigned t then tyBitsOf t i.toInt else i.toNat

/-- A single-register last source such as a shift count: immediates are zero-extended (R211, R214). -/
def src1Bits (v : View) : Src → W32
  | .reg r => v.r32 r
  | .imm8 i => i.zeroExtend 32
  | .imm32 i => i

/-- A shift count or field selector of class 0x2: zero-extended for shift counts; sign-extended under a signed
type where the operand is no shift count (R211) (log 20, DEDUCED). -/
def selBits (v : View) (t : IntTy) : Src → W32
  | .reg r => v.r32 r
  | .imm8 i => if tySigned t then i.signExtend 32 else i.zeroExtend 32
  | .imm32 i => i

/-- The writes of an integer result of a type (R212). -/
def putTy (v : View) (t : IntTy) (d : RegNo) (x : Nat) : List Wr :=
  if t.is64 then v.w64 d (BitVec.ofNat 64 x)
  else if tySigned t then [v.w32s d (BitVec.ofNat 32 x)]
  else [v.w32 d (BitVec.ofNat 32 x)]

/-- The last source of a floating form (R211). -/
def fsrcBits (v : View) : FSrc → W32
  | .reg r => v.r32 r
  | .imm x => x

/-- A displacement as a signed integer (R272). -/
def dispVal : Disp → Int
  | .d8 v => v.toInt
  | .d32 v => v.toInt

/-- A register or pair read of `.b32`/`.b64` forms, as bits. -/
def bits64 (v : View) (b64 : Bool) (r : RegNo) : W64 :=
  if b64 then v.r64 r else (v.r32 r).zeroExtend 64

/-- The writes of a `.b32`/`.b64` value. -/
def put64 (v : View) (b64 : Bool) (d : RegNo) (x : W64) : List Wr :=
  if b64 then v.w64 d x else [v.w32 d (loWord x)]

end Sys2Proof.Machine
end

