-- ==== Sys2Proof/Machine/Control.lean ====
section
/-! DEFINITION. Control flow, class 0x0 (R91, R164). A branch fixes a next address for every live lane and the part
splits by R142. -/

namespace Sys2Proof.Machine

open Sys2Proof

/-- `nop` in its three lengths (R91). -/
def execNop (h : Hd) (s : State) : Res := .next (s.skip h)
def execNopW12 (h : Hd) (s : State) : Res := .next (s.skip h)
def execNopW16 (h : Hd) (s : State) : Res := .next (s.skip h)

/-- A branch: the taken parties write their links and go to their targets, every other issuing party goes to the
next instruction, and the part splits (R142, R164). -/
def State.branch (s : State) (h : Hd) (os : List (Who × List Wr × W64)) : State :=
  let s1 := (s.account h false).updMe fun b => os.foldl (fun b o => b.wr o.1 o.2.1) b
  ((s1.advance s.issuers).updMe fun b => os.foldl (fun b o => b.jump o.1 o.2.2) b).tidy

/-- A branch whose parties decide on their own views. -/
def State.branchBy (s : State) (h : Hd) (g : View → Option (List Wr × W64)) : Res :=
  .next (s.branch h ((s.views h).filterMap fun x => (g x.2.2).map fun o => (x.2.1, o)))

/-- A code offset held in IMM32. -/
def label (t : W32) : W64 := t.zeroExtend 64

/-- A register target: V, or S (R164). -/
def View.target (v : View) (a : RegNo) : W64 := match v with
  | .cox c => c.reg a.toNat
  | .fib f => (f.reg a.toNat).zeroExtend 64

def execBra (h : Hd) (t : W32) (s : State) : Res := s.branchBy h fun _ => some ([], label t)
def execBraZ (h : Hd) (a : RegNo) (t : W32) (s : State) : Res :=
  s.branchBy h fun v => if v.target a = 0 then some ([], label t) else none
def execBraNz (h : Hd) (a : RegNo) (t : W32) (s : State) : Res :=
  s.branchBy h fun v => if v.target a ≠ 0 then some ([], label t) else none
def execBraAny (h : Hd) (pa : BitVec 3) (t : W32) (s : State) : Res :=
  let any := (s.act h).any fun x => x.2.pred pa.toNat
  s.branchBy h fun _ => if any then some ([], label t) else none
def execBraAll (h : Hd) (pa : BitVec 3) (t : W32) (s : State) : Res :=
  let all := (s.act h).all fun x => x.2.pred pa.toNat
  s.branchBy h fun _ => if all then some ([], label t) else none
def execCall (h : Hd) (d : RegNo) (t : W32) (s : State) : Res :=
  s.branchBy h fun v => some ([v.w32 d (loWord s.nextPc)], label t)
def execCallR (h : Hd) (d a : RegNo) (s : State) : Res :=
  s.branchBy h fun v => some ([v.w32 d (loWord s.nextPc)], v.target a)
def execRet (h : Hd) (a : RegNo) (s : State) : Res := s.branchBy h fun v => some ([], v.target a)
def execBrx (h : Hd) (a : RegNo) (n : BitVec 8) (t : W32) (s : State) : Res :=
  s.branchBy h fun v => some ([], label t + BitVec.ofNat 64 (32 * Nat.min (v.target a).toNat n.toNat))

end Sys2Proof.Machine
end

