-- ==== Sys2Proof/Machine/Home.lean ====
section
/-! DEFINITION. Home slices and the management page (R279, R295, R401, R426–R428), and what reads and writes of
physical memory do there. -/

namespace Sys2Proof.Machine

open Sys2Proof

/-! ### The management page (R4, R426) -/

def byteAt (l : List Byte) (i : Nat) : Byte := (l[i]?).getD 0

/-- MGSTAT (Table 24-4). -/
def State.mgstat (s : State) : W64 :=
  (0 : BitVec 32) ++ s.mgErr ++ (if s.mgTrip then (1 : BitVec 1) else 0) ++ (0 : BitVec 11) ++ s.miss ++ (0 : BitVec 5) ++
    (if s.lmiss then (1 : BitVec 1) else 0) ++ BitVec.ofNat 2 s.svc

/-- The oldest management record's words, zero when there is none (R428). -/
def State.mgRec (s : State) (n : Nat) : W64 := match s.mgRecs with
  | [] => 0
  | r :: _ => match n with
    | 0 => r.w0
    | 1 => r.w1
    | 2 => r.w2
    | _ => r.w3

/-- The register at an offset of the page (Table 24-3). -/
def State.mgReg (s : State) (off : Nat) : W64 :=
  if off = 0 then s.mgstat
  else if off = 8 then s.mgPwr
  else if off = 16 then
    (0 : BitVec 32) ++ byteAt s.mgTemp 3 ++ byteAt s.mgTemp 2 ++ byteAt s.mgTemp 1 ++ byteAt s.mgTemp 0
  else if 0x20 ≤ off && off < 0x40 then (s.mgPin[(off - 0x20) / 8]?).getD 0
  else if 0x40 ≤ off && off < 0x60 then s.mgRec ((off - 0x40) / 8)
  else 0

/-- A record queue with room takes the oldest record that waits (R103, R428). -/
def State.mgRefill (s : State) : State := match s.mgWaiting with
  | [] => s
  | r :: rest => if s.mgRecs.length < 64 then { s with mgRecs := s.mgRecs ++ [r], mgWaiting := rest } else s

/-- MGPWR.LIMIT, clamped to 1,000–3,400 W; the reserved bits read zero (R426). -/
def State.setMgPwr (s : State) (v : W64) : State :=
  let w := bits v.toNat 11 0
  { s with mgPwr := BitVec.ofNat 64 (Nat.min 3400 (Nat.max 1000 w)) }

/-- MGPINd from its next stroke boundary: MIB above 16 is stored as 16. In stage 2 an absent die's register has no effect (R420,
R427). -/
def State.setMgPin (s : State) (d : Nat) (v : W64) : State :=
  let t := bits v.toNat 31 16
  let m := Nat.min 16 (bits v.toNat 4 0)
  if s.stage != .stage2 || s.dieUp d then { s with mgPinNext := s.mgPinNext.set d (BitVec.ofNat 64 (t * 65536 + m)) } else s

/-- MGPOP removes the oldest record (R428). -/
def State.mgPop (s : State) : State := ({ s with mgRecs := s.mgRecs.drop 1 }).mgRefill

/-- An aligned 8-byte store of a privileged context to the page (R426) (log 54, DEDUCED). -/
def State.mgStore (s : State) (off : Nat) (v : W64) : State :=
  if off = 8 then s.setMgPwr v
  else if 0x20 ≤ off && off < 0x40 then s.setMgPin ((off - 0x20) / 8) v
  else if off = 0x60 then s.mgPop
  else s

def isMg (pa : Nat) : Bool := mgBase ≤ pa && pa < mgBase + 4096

/-! ### Reads -/

/-- n bytes at a physical address as the home slices hold them. On the management page only an aligned 8-byte load of
a privileged context reads a register (R426). -/
def State.homeRead (s : State) (priv : Bool) (pa n : Nat) : List Byte :=
  if isMg pa then (if priv && n = 8 && pa % 8 = 0 then leBytes 8 (s.mgReg (pa - mgBase)).toNat else List.replicate n 0)
  else s.mem.read pa n

/-! ### Writes (R279, R295) -/

/-- Pieces of consecutive bytes, cut where `n` divides the address. -/
def cutAt (n a : Nat) (x : List Byte) : List (Nat × List Byte) :=
  let k := (a + x.length + n - 1) / n - a / n
  ((List.range k).map fun i =>
    let lo := Nat.max a (n * (a / n + i))
    (lo, (x.drop (lo - a)).take (n * (a / n + i + 1) - lo))).filter fun y => !y.2.isEmpty

def seqGet : List (Nat × BitVec 16) → Nat → BitVec 16
  | [], _ => 0
  | (x, v) :: r, l => if l = x then v else seqGet r l

def seqSet : List (Nat × BitVec 16) → Nat → BitVec 16 → List (Nat × BitVec 16)
  | [], l, v => if v = 0 then [] else [(l, v)]
  | (x, w) :: r, l, v =>
    if l < x then (if v = 0 then (x, w) :: r else (l, v) :: (x, w) :: r)
    else if l = x then (if v = 0 then r else (l, v) :: r)
    else (x, w) :: seqSet r l v

/-- The home slice counts one write to a line, and invalidates every RDC copy before it is readable (R244, R279). -/
def State.bump (s : State) (pa : Nat) : State × BitVec 16 :=
  let l := pa / 128
  let n := seqGet s.seq l + 1
  ({ s with seq := seqSet s.seq l n
            cdies := s.cdies.map fun d => { d with rdc := d.rdc.filter fun x => x.1 != l } }, n)

def Mem.setAll (m : Mem) (ws : List (Nat × Byte)) : Mem := ws.foldl (fun m w => m.set w.1 w.2) m

/-- The writes of each party, in order. -/
def byParty (ws : List (Who × Nat × Byte)) : List (Who × List (Nat × Byte)) :=
  (distinct (ws.map (·.1))).map fun w => (w, (ws.filter fun x => x.1 == w).map (·.2))

/-- One write that a home slice performs to a line: the bytes in order, then the sequence counter. On the management
page each party's aligned 8-byte store acts on its register. A word written whole has a new check (R401). -/
def State.homeWrite (s : State) (priv : Bool) (line : Nat) (ws : List (Who × Nat × Byte)) : State × BitVec 16 :=
  let r := s.bump line
  if isMg line then
    let act := fun (s : State) (g : Who × List (Nat × Byte)) => match g.2 with
      | (a, _) :: _ =>
        if priv && g.2.length = 8 && a % 8 = 0 then s.mgStore (a - mgBase) (BitVec.ofNat 64 (leNat (g.2.map (·.2)))) else s
      | [] => s
    ((byParty ws).foldl act r.1, r.2)
  else
    let bs := ws.map (·.2)
    let whole := fun (w : Nat) => (List.range 8).all fun i => bs.any fun b => b.1 == w * 8 + i
    ({ r.1 with mem := r.1.mem.setAll bs, poison := r.1.poison.filter fun w => !whole w }, r.2)

/-- An engine's write of consecutive bytes of one line (log 54, DEDUCED). -/
def State.homePut (s : State) (pa : Nat) (data : List Byte) : State :=
  (s.homeWrite false (pa / 128 * 128) (data.zipIdx.map fun x => (Who.cox, pa + x.2, x.1))).1

/-- An engine's write of a range, one write for each 32-byte sector (R279). -/
def State.sectorPut (s : State) (pa : Nat) (x : List Byte) : State :=
  (cutAt 32 pa x).foldl (fun s y => s.homePut y.1 y.2) s

/-! ### What a party has outstanding -/

/-- Whether every earlier read of a party has returned (Table 14-5). -/
def State.readsDone (s : State) (core slot : Nat) (w : Who) : Bool :=
  !(s.pends.any fun p => p.core == core && p.slot == slot && p.who == w)

/-- Whether every earlier write of a party is in its core's L1 or storage, and every atomic performed at its home slice, since an
atomic is never in an L1 (R244, R312, `.core`). -/
def State.pathClear (s : State) (core slot : Nat) (w : Who) : Bool :=
  let c := s.core core
  !(c.paths.any fun e => e.slot == slot && e.parties.contains w) &&
  !(c.outb.any fun o => o.req.atomic.isSome && o.of slot w) &&
  !(s.outstanding.any fun o => o.core == core && o.slot == slot && !o.lanes.isEmpty && o.parties.contains w)

/-- What a party's releases cover beside its own writes: what had entered its core's order before its last acquire there, and what
its reads have returned (R305, R313) (log 73, DEDUCED). -/
def State.seenBy (s : State) (core slot : Nat) (w : Who) : Nat := match s.block? core slot, w with
  | some b, .cox => b.cox.seen
  | some b, .fib fid => match b.fib? fid with
    | some f => f.seen
    | none => 0
  | none, _ => 0

/-- Whether the writes that a party issued before a number and that have entered its L1, and those of its core that it has
acquired or read, are acknowledged, remote ones included (R305, R312, R313) (log 73, DEDUCED). -/
def State.outBefore (s : State) (core slot : Nat) (w : Who) (n : Nat) : Bool :=
  let c := s.core core
  let mine := fun (o : Outb) => (o.of slot w && (o.issue < n || !o.also.isEmpty)) || o.ord < s.seenBy core slot w
  !(c.outb.any mine) && !(c.coll.any fun e => e.wreqs.any mine) &&
  !(s.outstanding.any fun o => o.core == core &&
    ((o.of slot w && (o.issue < n || !o.also.isEmpty)) || o.issue < s.seenBy core slot w) &&
    !(match o.op with
      | .read _ => true
      | .fetch => true
      | _ => false))

def State.outClear (s : State) (core slot : Nat) (w : Who) : Bool := s.outBefore core slot w s.nextId

/-- Whether a scope is wider than the core (R242, R312). -/
def wide : Scope → Bool
  | .core => false
  | _ => true

/-- Whether the earlier writes of a party are performed at a scope (R312) (log 73, DEDUCED). -/
def State.performed (s : State) (core slot : Nat) (w : Who) (sc : Scope) : Bool :=
  s.pathClear core slot w && (!wide sc || s.outClear core slot w)

/-- The releases of parties cover what stands in their core's order before a number (R305) (log 73, DEDUCED). -/
def State.learnTo (s : State) (core slot : Nat) (ws : List Who) (n : Nat) : State :=
  if ws.isEmpty then s
  else s.updBlock core slot fun b => { b with
    cox := if ws.contains .cox then { b.cox with seen := Nat.max b.cox.seen n } else b.cox
    fibres := b.fibres.map fun (f : Fibre) => if ws.contains (.fib f.fid) then { f with seen := Nat.max f.seen n } else f }

/-- Parties take an acquire in their core: what stands in its order is before what they do next (R299) (log 73, DEDUCED). -/
def State.learn (s : State) (core slot : Nat) (ws : List Who) : State := s.learnTo core slot ws s.nextId

end Sys2Proof.Machine
end

