-- ==== Sys2Proof/Machine/Life.lean ====
section
/-! DEFINITION. The life of fibres (R136–R138, R147–R149, R161): windows, creation, waking, ending; rejoin masks
(R186, R187), parts that meet again (R143), and relation collectives (R155–R160). -/

namespace Sys2Proof.Machine

open Sys2Proof

/-! ### Lists -/

/-- Inserts by a key, after equal keys. -/
def insertBy (k : α → Nat) (x : α) : List α → List α
  | [] => [x]
  | y :: r => if k x < k y then x :: y :: r else y :: insertBy k x r

/-- Sorts by a key, ascending and stable. -/
def sortBy (k : α → Nat) (l : List α) : List α := l.foldl (fun acc x => insertBy k x acc) []

/-- The least element by a key, the first among equals. -/
def leastBy (k : α → Nat) : List α → Option α
  | [] => none
  | x :: r => match leastBy k r with
    | none => some x
    | some y => if k y < k x then some y else some x

/-! ### Waking cores (R109) -/

/-- An event of Table 5-6 reaches a core: a becalmed core notes the first, and of those that arrive in one cycle the
lowest reason. Before its first wake a core waits for its first block. -/
def State.rouse (s : State) (core reason info : Nat) : State :=
  let now := (s.cdie (coreDie core)).cyc.toNat
  s.updCore core fun c =>
    if !c.becalmed || (c.wake = 0 && reason ≠ 7) then c
    else match c.wakeReq with
      | none => { c with wakeReq := some (reason, info, now) }
      | some (r, i, t) => { c with wakeReq := if t = now && reason < r then some (reason, info, now) else some (r, i, t) }

/-! ### Windows (R11, R13, R148) -/

/-- Whether a lane column of a core has room for one more window of W registers (R11, R124). -/
def State.colRoom (s : State) (core part col w : Nat) : Bool :=
  let ws := (s.blocks.filter fun b => b.core == core).flatMap fun b =>
    (b.fibres.filter fun f => f.win && f.part == part && f.col == col).map fun _ => b.kr.w.toNat
  ws.length < 64 && ws.foldl (· + ·) 0 + w ≤ 4096

/-- The lowest lane column of a partition with room. -/
def State.lowCol (s : State) (core part w : Nat) : Option Nat := (List.range 32).find? fun c => s.colRoom core part c w

/-- The partition that holds the fewest live fibres of the block, ties to the lowest (R126). -/
def Block.pickPart (b : Block) : Nat :=
  (leastBy (fun p => (b.fibres.filter fun f => f.part == p).length) [0, 1, 2, 3]).getD 0

/-- The lowest free fibre slot of the block (R260). -/
def Block.freeFslot (b : Block) : Nat :=
  ((List.range (b.fibres.length + 1)).find? fun k => !(b.fibres.any fun f => f.fslot == k)).getD 0

/-- The first word of a new window of W words in a lane column: the lowest place that no window there overlaps, or any where the
free words do not lie together (R11) (log 115, DESIGN CHOICE). -/
def State.freeBase (s : State) (core part col w : Nat) : Nat :=
  let ws := (s.blocks.filter fun b => b.core == core).flatMap fun b =>
    (b.fibres.filter fun f => f.win && f.part == part && f.col == col).map fun f => (f.wbase, b.kr.w.toNat)
  let free := fun (a : Nat) => a + w ≤ 4096 && ws.all fun x => a + w ≤ x.1 || x.1 + x.2 ≤ a
  match (0 :: ws.map fun x => x.1 + x.2).filter free with
  | [] => Config.pick s.tick % 4096
  | a :: r => r.foldl Nat.min a

/-! ### Spill images (R147, R260) -/

/-- The image of a fibre: its window, predicates, program counter, trap registers, `%nftrap`, part and origin (R147); the part is
that of its identifier `part`, one more than it, or 0 for none (log 58, DESIGN CHOICE). -/
def Fibre.image (f : Fibre) (part : Option Nat) : List Byte :=
  let num := fun (o : Option Nat) => match o with
    | some n => n + 1
    | none => 0
  ((f.regs.flatMap fun (r : W32) => leBytes 4 r.toNat) ++ List.replicate 1024 0).take 1024 ++ leBytes 8 f.preds.toNat ++
  leBytes 8 f.pc.toNat ++ leBytes 4 f.x.xf0.toNat ++ leBytes 4 f.x.xf1.toNat ++
  leBytes 4 f.x.xf2.toNat ++ leBytes 4 f.x.xf3.toNat ++ leBytes 8 f.x.xinst.toNat ++ leBytes 8 f.x.xext.toNat ++
  leBytes 8 f.x.xcause.toNat ++ leBytes 8 f.x.xpc.toNat ++ leBytes 8 (if f.nftrap then 1 else 0) ++ leBytes 8 (num part) ++
  leBytes 8 (num f.origin)

/-- The length of an image. -/
def spillLen : Nat := 1112

/-- The part of a fibre, if it has one (R139). -/
def Block.partOf (b : Block) (fid : Nat) : Option Nat := (b.parts.find? fun p => p.lanes.any fun x => x.2 == fid).map (·.id)

/-- A fibre as its image has it. Its origin is the one that its core keeps for it, and it forms a part anew (R140). -/
def Fibre.ofImage (f : Fibre) (w : Nat) (x : List Byte) : Fibre :=
  let n := fun (o k : Nat) => leNat ((x.drop o).take k)
  { f with
    regs := (List.range w).map fun i => BitVec.ofNat 32 (n (4 * i) 4)
    preds := BitVec.ofNat 8 (n 1024 8)
    pc := BitVec.ofNat 64 (n 1032 8)
    x := { xf0 := BitVec.ofNat 32 (n 1040 4), xf1 := BitVec.ofNat 32 (n 1044 4), xf2 := BitVec.ofNat 32 (n 1048 4)
           xf3 := BitVec.ofNat 32 (n 1052 4), xinst := BitVec.ofNat 64 (n 1056 8), xext := BitVec.ofNat 64 (n 1064 8)
           xcause := BitVec.ofNat 32 (n 1072 8), xpc := BitVec.ofNat 64 (n 1080 8) }
    nftrap := n 1088 8 % 2 == 1 }

/-- A translation of a fibre's spill image, every 4 KiB page of its 16 KiB, for a system access (R260): a wait while a page
migrates or the class of the image's traffic is held (R104), the first fault, or where the image lies. -/
inductive Spill where
  | wait
  | fault (x : BitVec 16 × Nat)
  | at_ (pa : Nat)
  deriving DecidableEq, Repr

/-- Where a fibre's spill image lies (R260). -/
def Fibre.spillVa (f : Fibre) (b : Block) : Nat := fibreBase b.core b.slot f.fslot + 16384

/-- The lines of an image. -/
def spillLines (pa : Nat) : List Nat := (List.range ((spillLen + 127) / 128)).map fun i => pa / 128 * 128 + 128 * i

def State.spillXl (s : State) (b : Block) (f : Fibre) (r : Right) : Spill :=
  let pages := (List.range 4).map fun i => f.spillVa b + 4096 * i
  let xs := pages.map fun va => (va, s.xl b.core b.ctx va r true)
  if (xs.any fun x => x.2 == .wait) then .wait
  else match xs.findSome? fun x => match x.2 with
    | .fault i => some (i, pageOf x.1)
    | _ => none with
  | some x => .fault x
  | none => match xs with
    | (_, .ok pa) :: _ => if (spillLines pa).any (s.lineHeld b.ctx) then .wait else .at_ pa
    | _ => .wait

/-- The bytes of an image go to memory (R147, R260). -/
def State.putSpill (s : State) (b : Block) (pa : Nat) (x : List Byte) : State :=
  (cutAt 128 pa x).foldl (fun s y => (s.chargeWrite b.ctx y.1 (y.2.zipIdx.map fun z => (y.1 + z.2, z.1))).homePut y.1 y.2) s

/-- The traffic of an image that is read: the walk and its lines (R104, R241, R252). -/
def State.readSpill (s : State) (b : Block) (f : Fibre) (pa : Nat) : State :=
  (spillLines pa).foldl (fun s l => s.chargeLine b.ctx l) (s.fill b.core b.ctx (f.spillVa b))

/-- A fibre without a window as its image and its held writes have it; a RETURNING fibre resumes after the wait that its program
counter names (Table 7-1). -/
def State.fromImage (s : State) (b : Block) (f : Fibre) (pa : Nat) : Fibre :=
  let g := f.ofImage b.kr.w.toNat (s.mem.read pa spillLen)
  let pc := if f.life = .returning then g.pc + (f.next - f.pc) else g.pc
  { f.held.foldl Fibre.wr g with held := [], pc := pc }

/-- A fibre's spill transfer faults: one record with its identifier and program counter, and the transfer waits for
a resume (R260). -/
def State.spillFault (s : State) (b : Block) (f : Fibre) (x : BitVec 16 × Nat) : State :=
  let s := (s.walked b.core b.ctx x.2).updBlock b.core b.slot fun b => b.updFib f.fid fun g => { g with stuck := true }
  let cur := s.cur
  let pc := if f.life = .returning then f.next else f.pc
  let s := ({ s with cur := { core := b.core, slot := b.slot, pc := pc, prt := f.part } }).coalesce b.ctx [.fib f.fid]
    { code := 0x06, info := x.1, page := x.2 }
  { s with cur := cur }

def Wait.swappable : Wait → Bool
  | .rejoin _ => true
  | .barrier _ _ _ _ _ => true
  | .relation _ _ _ _ _ => true
  | _ => false

/-- The victim of a swap-out in a partition, in one lane column for a RETURNING fibre, without a scoreboard bit (R148, R276). -/
def Block.victim (b : Block) (part : Nat) (col : Option Nat) : Option Fibre :=
  let ok := fun (f : Fibre) => f.life = .parked && f.win && f.sb.isEmpty && f.part == part && (match f.wait with
    | some w => w.swappable
    | none => false) && (match col with
    | some c => f.col == c
    | none => true)
  leastBy (fun f => 0x100000000 - f.fid) (b.fibres.filter ok)

/-- Takes a fibre out of its part, its regrouping entries and emitted groups; emptied parts are freed and the others
put in order (R141, Table 7-6). -/
def State.leavePart (s : State) (core slot fid : Nat) : State :=
  let ids := match s.block? core slot with
    | some b => (b.parts.filter fun (p : Part) => p.lanes.any fun x => x.2 == fid).map fun (p : Part) => p.id
    | none => []
  let s := s.updBlock core slot fun b => { b with
    parts := b.parts.map fun (p : Part) => { p with lanes := p.lanes.filter fun x => x.2 != fid }
    regroups := b.regroups.map fun (r : Regroup) => { r with keyed := r.keyed.filter fun x => x.2 != fid }
    emits := (b.emits.map fun (e : Emit) => { e with fids := e.fids.filter (· != fid) }).filter fun e => !e.fids.isEmpty }
  ids.foldl (fun s id => s.settle core slot id) s

/-- Writes a victim's window to its spill area and frees it (R136, R148); a fault leaves it resident (R260). -/
def State.swap (s : State) (core slot : Nat) (v : Fibre) : State := match s.block? core slot with
  | none => s
  | some b =>
    if v.stuck then s
    else match s.spillXl b v .write with
    | .wait => s
    | .fault x => s.spillFault b v x
    | .at_ pa =>
      (((s.fill core b.ctx (v.spillVa b)).putSpill b pa (v.image (b.partOf v.fid))).updBlock core slot fun b => b.updFib v.fid fun f =>
        { f with life := .swapped, win := false, regs := [] }).leavePart core slot v.fid

/-- Writes the initial state of an UNBORN fibre to its spill area (R136); a wait leaves it in the core until it is tried again, a
fault until a resume (R260) (log 58, DEDUCED). -/
def State.saveUnborn (s : State) (core slot fid : Nat) : State := match s.block? core slot with
  | none => s
  | some b => match b.fib? fid with
    | none => s
    | some f => if f.stuck || f.regs.isEmpty then s else match s.spillXl b f .write with
      | .wait => s
      | .fault x => s.spillFault b f x
      | .at_ pa => ((s.fill core b.ctx (f.spillVa b)).putSpill b pa (f.image none)).updBlock core slot fun b => b.updFib fid fun g => { g with regs := [] }

/-! ### Creating fibres (R138, R165, R126) -/

/-- Whether a fibre waits for a window: RETURNING or UNBORN. -/
def Fibre.incoming (f : Fibre) : Bool := (f.life = .returning || f.life = .unborn) && !f.win

/-- The lowest lane column of a partition with room that no RETURNING or UNBORN fibre of the block waits for (R126, R148,
R149) (log 59, DEDUCED). -/
def State.openCol (s : State) (b : Block) (part : Nat) : Option Nat :=
  if b.fibres.any fun f => f.life = .unborn && f.part == part then none
  else (List.range 32).find? fun c => s.colRoom b.core part c b.kr.w.toNat &&
    !(b.fibres.any fun f => f.incoming && f.part == part && f.col == c)

/-- A new fibre in a partition of its block: with a window at the lowest column with room that is not another's by R149, made
free by a swap-out if need be, and UNBORN otherwise (Table 7-1). It starts with an acquire in its core (R188, R299). -/
def State.create (s : State) (core slot stage : Nat) (pc : W64) (regs : List W32) : State × Nat :=
  match s.block? core slot with
  | none => (s, 0)
  | some b =>
    let part := b.pickPart
    let w := b.kr.w.toNat
    let s := match s.lowCol core part w with
      | some _ => s
      | none => match b.victim part none with
        | some v => s.swap core slot v
        | none => s
    let col := s.openCol ((s.block? core slot).getD b) part
    let f : Fibre :=
      { fid := b.nextFid, life := if col.isSome then .ungrouped else .unborn, stage := stage, part := part
        col := col.getD 0, fslot := b.freeFslot, pc := pc, win := col.isSome, wbase := s.freeBase core part (col.getD 0) w
        regs := (regs ++ List.replicate w 0).take w, seen := s.nextId }
    let s := s.updBlock core slot fun b => { b with fibres := b.fibres ++ [f], nextFid := b.nextFid + 1 }
    (if col.isSome then s else s.saveUnborn core slot b.nextFid, b.nextFid)

/-- Whether a join of the block is being emitted: no other creation takes an identifier then (R159). -/
def Block.emitting (b : Block) : Bool := b.insts.any fun i => !i.fold && i.st = .emit

/-! ### Waking and merging (R136, R143) -/

/-- A fibre's wait is satisfied: it resumes after the wait, or becomes RETURNING when swapped out (Table 7-1). -/
def Fibre.release (f : Fibre) (ws : List Wr) : Fibre :=
  let f := f.wrs ws
  match f.life with
  | .parked => { f with life := .ready, wait := none, pc := f.next }
  | .swapped => { f with life := .returning, wait := none }
  | _ => f

/-- The parts of a block whose lanes include one of the fibres. -/
def Block.partsWith (b : Block) (fids : List Nat) : List Nat :=
  (b.parts.filter fun p => p.lanes.any fun x => fids.contains x.2).map (·.id)

/-- Puts every part with one of the fibres in order. -/
def State.settleWith (s : State) (core slot : Nat) (fids : List Nat) : State := match s.block? core slot with
  | some b => (b.partsWith fids).foldl (fun s id => s.settle core slot id) s
  | none => s

/-- Releases fibres of a block, with their writes, and puts their parts in order; they take an acquire in their core (R299). -/
def State.releaseAll (s : State) (core slot : Nat) (rs : List (Nat × List Wr)) : State :=
  ((s.updBlock core slot fun b => rs.foldl (fun b r => b.updFib r.1 fun f => f.release r.2) b).learn core slot
    (rs.map fun r => .fib r.1)).settleWith core slot (rs.map (·.1))

/-- Merges parts that stand at one address: the part with the lowest live lane keeps its record (R143, R170). -/
def Block.merge (b : Block) (ids : List Nat) : Block :=
  let ps := b.parts.filter fun p => ids.contains p.id
  let pcOf := fun (p : Part) => match p.lanes with
    | x :: _ => (b.fib? x.2).map fun (f : Fibre) => f.pc
    | [] => none
  let lane := fun (p : Part) => match p.lanes with
    | x :: _ => x.1
    | [] => 32
  (distinct (ps.map pcOf)).foldl (fun (b : Block) pc =>
    let g := ps.filter fun p => pcOf p == pc
    match leastBy lane g with
    | none => b
    | some k =>
      let all := sortBy (·.1) (g.flatMap (·.lanes))
      let ws := g.flatMap (·.windows)
      { b with parts := (b.parts.filter fun p => p.id == k.id || !(g.any fun q => q.id == p.id)).map fun p =>
          if p.id == k.id then { p with lanes := all, windows := ws } else p }) b

/-- Whether every live lane of a part is parked on a wait that satisfies a test. -/
def Block.parkedOn (b : Block) (p : Part) (t : Wait → Bool) : Bool :=
  !p.lanes.isEmpty && p.lanes.all fun x => match b.fib? x.2 with
    | some f => f.life = .parked && (match f.wait with
      | some w => t w
      | none => false)
    | none => false

/-! ### Rejoin masks (R186, R187) -/

def laneBit (l : Nat) : BitVec 32 := BitVec.ofNat 32 (2 ^ l)

def Origin.mask (o : Origin) (j : Nat) : JMask := (o.j[j]?).getD {}
def Origin.setMask (o : Origin) (j : Nat) (f : JMask → JMask) : Origin := { o with j := o.j.modify j f }
def Block.origin? (b : Block) (id : Nat) : Option Origin := b.origins.find? (·.id == id)

/-- Completes a rejoin when ARV = SET and SET is not empty: the mask empties, the parts parked on it resume and
merge by address, and swapped members become RETURNING (R187). -/
def State.rejoin (s : State) (core slot oid j : Nat) : State := match s.block? core slot with
  | none => s
  | some b => match b.origin? oid with
    | none => s
    | some o =>
      let m := o.mask j
      if m.set = 0 || m.arv ≠ m.set then s
      else
        let on := fun (w : Wait) => w == .rejoin j
        let fids := (b.fibres.filter fun f => f.origin == some oid && f.wait == some (.rejoin j)).map (·.fid)
        let ids := (b.parts.filter fun p => p.origin == oid && !p.serial && b.parkedOn p on).map (·.id)
        let s := s.updBlock core slot fun b =>
          fids.foldl (fun b fid => b.updFib fid fun f => f.release []) (b.updOrigin oid fun o => o.setMask j fun _ => {})
        ((s.updBlock core slot fun b => b.merge ids).settleWith core slot fids).rouse core 6 0

/-- A lane leaves every J mask of its origin; a rejoin whose remaining set has all arrived completes (Table 7-6). -/
def State.leaveMasks (s : State) (core slot oid lane : Nat) : State :=
  let n := ~~~ laneBit lane
  let s := s.updBlock core slot fun b => b.updOrigin oid fun o =>
    { o with j := o.j.map fun m => { set := m.set &&& n, arv := m.arv &&& n } }
  (List.range 8).foldl (fun s j => s.rejoin core slot oid j) s

/-- Origin entries none of whose fibres is left are freed (R141). -/
def Block.sweepOrigins (b : Block) : Block :=
  { b with origins := b.origins.filter fun o => b.fibres.any fun f => f.origin == some o.id }

/-! ### Ending (R161) -/

/-- Ends a fibre under Table 7-6, but for the collectives that its leaving completes (`collect`). A member of an
instance in EMIT ends at DONE. -/
def State.endOne (s : State) (core slot fid : Nat) : State := match s.block? core slot with
  | none => s
  | some b => match b.fib? fid with
    | none => s
    | some f =>
      if (b.keys.any fun k => k.fid == fid && k.st = .emitting) then
        let mine := fun (i : Inst) => i.st = .emit && (match f.wait with
          | some (.relation o r _ _ _) => o == i.fold && r == i.rel
          | _ => false)
        s.updBlock core slot fun b => { b with
          insts := b.insts.map fun (i : Inst) => if mine i then { i with defer := i.defer ++ [fid] } else i }
      else
        let s := s.leavePart core slot fid
        let s := match f.origin with
          | some o => s.leaveMasks core slot o f.col
          | none => s
        s.updBlock core slot fun b => ({ b with
          fibres := b.fibres.filter fun g => g.fid != fid
          keys := b.keys.filter fun k => k.fid != fid }).sweepOrigins

/-! ### Relation collectives (R155–R160) -/

/-- The input relations of a target (R155). -/
def Block.inputs (b : Block) (fold : Bool) (rel : Nat) : List Nat :=
  if fold then [rel]
  else match b.rels[rel]? with
    | some r => distinct ([r.left, r.right].filterMap fun x => x)
    | none => []

/-- Whether a fibre is a member of an input of a target. -/
def Block.member (b : Block) (fold : Bool) (rel fid : Nat) : Bool :=
  let ins := b.inputs fold rel
  b.keys.any fun k => k.fid == fid && ins.contains k.rel

/-- Whether a fibre has arrived at a target's instance. -/
def Fibre.arrivedAt (f : Fibre) (fold : Bool) (rel : Nat) : Bool := match f.wait with
  | some (.relation o r _ a _) => o == fold && r == rel && a
  | _ => false

/-- The live members of a target. -/
def Block.membersOf (b : Block) (fold : Bool) (rel : Nat) : List Nat :=
  let ins := b.inputs fold rel
  distinct ((b.keys.filter fun k => ins.contains k.rel).map (·.fid))

/-- An arrival: the entries become ARRIVED, and the first opens the instance (R156, Table 7-5) (log 61, DEDUCED). -/
def Block.arrive (b : Block) (fold : Bool) (rel fid : Nat) : Block :=
  let ins := b.inputs fold rel
  let b := { b with keys := b.keys.map fun (k : KEnt) => if k.fid == fid && ins.contains k.rel then { k with st := .arrived } else k }
  if (b.insts.any fun i => i.fold == fold && i.rel == rel) then b
  else { b with insts := b.insts ++ [{ fold := fold, rel := rel }] }

/-- The matching pairs of a join in (fid(l), fid(r)) order (R158). -/
def Block.pairs (b : Block) (rel : Nat) : List (Nat × Nat) := match b.rels[rel]? with
  | some { left := some l, right := some r, .. } =>
    let es := fun n => sortBy (·.fid) (b.keys.filter fun k => k.rel == n && k.st = .emitting)
    (es l).flatMap fun x => ((es r).filter fun y => y.key == x.key).map fun y => (x.fid, y.fid)
  | _ => []

/-- An instance whose every live member is ARRIVED goes to EMIT (R157): its entries become EMITTING, and a join fixes
its pairs, and the stage and entry label of its lowest arrival (R158). -/
def Block.toEmit (b : Block) (i : Inst) : Block :=
  let ins := b.inputs i.fold i.rel
  let mine := fun (k : KEnt) => ins.contains k.rel && k.st = .arrived &&
    (b.fibres.any fun f => f.fid == k.fid && f.arrivedAt i.fold i.rel)
  let b := { b with keys := b.keys.map fun (k : KEnt) => if mine k then { k with st := .emitting } else k }
  let a0 := leastBy (·.fid) (b.fibres.filter fun f => f.arrivedAt i.fold i.rel)
  let lab : W32 := match a0 with
    | some f => (match f.wait with
      | some (.relation _ _ l _ _) => l
      | _ => 0)
    | none => 0
  let stg := match a0 with
    | some f => f.stage
    | none => 0
  { b with insts := b.insts.map fun (x : Inst) =>
      if x.fold == i.fold && x.rel == i.rel then
        { x with st := .emit, label := lab, stage := stg, todo := some (if i.fold then [] else b.pairs i.rel) }
      else x }

/-- The reentering arrivals of a target, in ascending order (R157): members arrive at a new instance; the others of
their parts wait with them, or go on when no member is left (log 61, DEDUCED). -/
def State.reenter (s : State) (core slot : Nat) (fold : Bool) (rel : Nat) : State := match s.block? core slot with
  | none => s
  | some b =>
    let re := sortBy (·.fid) (b.fibres.filter fun f => match f.wait with
      | some (.relation o r _ _ true) => o == fold && r == rel
      | _ => false)
    let set := fun (f : Fibre) (a : Bool) => match f.wait with
      | some (.relation o r l _ _) => { f with wait := some (.relation o r l a false) }
      | _ => f
    let ms := re.filter fun f => b.member fold rel f.fid
    if re.isEmpty then s
    else if ms.isEmpty then s.releaseAll core slot (re.map fun f => (f.fid, []))
    else s.updBlock core slot fun b =>
      let b := re.foldl (fun b f => b.updFib f.fid fun g => set g (ms.any fun m => m.fid == f.fid)) b
      ms.foldl (fun b f => b.arrive fold rel f.fid) b

/-- DONE (R157): the fibres of the instance resume, entries return to MEMBER, deferred ends take place, and the
arrivals that waited for the next instance arrive. -/
def State.finish (s : State) (core slot : Nat) (i : Inst) : State := match s.block? core slot with
  | none => s
  | some b =>
    let fids := (b.fibres.filter fun f => match f.wait with
      | some (.relation o r _ _ false) => o == i.fold && r == i.rel
      | _ => false).map (·.fid)
    let ins := b.inputs i.fold i.rel
    let s := s.updBlock core slot fun b => { b with
      insts := b.insts.filter fun x => !(x.fold == i.fold && x.rel == i.rel)
      keys := b.keys.map fun (k : KEnt) => if ins.contains k.rel && k.st = .emitting && fids.contains k.fid then { k with st := .member } else k }
    let s := (s.releaseAll core slot (fids.map fun x => (x, []))).rouse core 4 0
    (i.defer.foldl (fun s fid => s.endOne core slot fid) s).reenter core slot i.fold i.rel

/-- Whether a gathering instance goes to EMIT: every live member has arrived (R157), its accesses are performed in the core, as
its release there needs (R188), and no join of the block is being emitted when it is a join (R159). -/
def State.instDue (s : State) (b : Block) (i : Inst) : Bool :=
  i.st = .gather && (i.fold || !b.emitting) && (b.membersOf i.fold i.rel).all fun m =>
    (match b.fib? m with
      | some f => f.arrivedAt i.fold i.rel
      | none => false) && s.readsDone b.core b.slot (.fib m) && s.pathClear b.core b.slot (.fib m)

/-- One move of the block's collectives, if any is due: an instance to EMIT, or an emission with nothing left to
DONE. A fold that has begun is finished by its combination. -/
def State.collectStep (s : State) (core slot : Nat) : Option State := match s.block? core slot with
  | none => none
  | some b =>
    match b.insts.find? fun i => i.st = .emit && !i.fold && i.todo == some [] with
    | some i => some (s.finish core slot i)
    | none =>
      match b.insts.find? fun i => s.instDue b i with
      | some i => some (s.updBlock core slot fun b => b.toEmit i)
      | none => none

/-- Moves the block's collectives on until nothing is due. -/
def State.collectLoop (core slot : Nat) : Nat → State → State
  | 0, s => s
  | n + 1, s => match s.collectStep core slot with
    | some t => State.collectLoop core slot n t
    | none => s

/-- A block has at most 16 targets, and each moves at most a few times. -/
def State.collect (s : State) (core slot : Nat) : State := State.collectLoop core slot 64 s

/-- Ends fibres, and moves on the collectives that their leaving completes. -/
def State.endAll (s : State) (core slot : Nat) (fids : List Nat) : State :=
  (fids.foldl (fun s fid => s.endOne core slot fid) s).collect core slot

/-- Free entries of a core's key store (R153). -/
def State.freeKeys (s : State) (core : Nat) : Nat :=
  16384 - (s.blocks.filter fun b => b.core == core).foldl (fun n b => n + b.keys.length) 0

/-- The key a fibre's registers now hold for a relation (R153, R154). -/
def Block.keyOf (b : Block) (rel : Nat) (f : Fibre) : W64 := match b.rels[rel]? with
  | some r => match r.keyRegs with
    | [] => 0
    | [x] => (f.reg x).zeroExtend 64
    | x :: y :: _ => pairWord (f.reg x) (f.reg y)
  | none => 0

/-- Posts a population-overflow record that no issue raised, and stops the block (R152) (log 56, DEDUCED). -/
def State.overflow (s : State) (b : Block) : State :=
  (s.updBlock b.core b.slot fun b => { b with ovStop := true, idle := 0 }).postRec b.ctx
    (mkRec (BitVec.ofNat 16 b.slot) 0x0E false 0 b.core b.ctx 0 0 0 b.slot 0 0)

end Sys2Proof.Machine
end

