-- ==== Sys2Proof/Machine/Groups.lean ====
section
/-! DEFINITION. Group records and origins (R127, R139–R141), compaction and regrouping (R170, R171), windows that free
(R148, R149), stage queues (R126, R199), the stuck block (R150), and becalmed cores (R109). -/

namespace Sys2Proof.Machine

open Sys2Proof

/-! ### The order of stages and groups (R127) -/

/-- The occupancy and depth of a stage's input queue (R126). -/
def Block.stageFill (b : Block) (st : Nat) : Nat × Nat :=
  (((b.stageQ[st]?).getD []).length, 2 ^ ((b.kr.depth[st]?).getD 0).toNat)

/-- A stage is blocked when the input queue of the next stage is full (R127). -/
def Block.blocked (b : Block) (st : Nat) : Bool :=
  st + 1 < b.stageQ.length && (b.stageFill (st + 1)).2 ≤ (b.stageFill (st + 1)).1

/-- The lowest identifier of a part's fibres (R141). -/
def Part.low (p : Part) : Nat := lowest (p.lanes.map (·.2))

/-- Whether stage `a` of one block comes before stage `c` of another for issue resources: unblocked first, then
the higher pressure, then the lower block slot and stage; `none` within one stage (R127). -/
def stageBefore (x : Block) (a : Nat) (y : Block) (c : Nat) : Option Bool :=
  let bx := x.blocked a
  let by_ := y.blocked c
  let p := (x.stageFill a).1 * (y.stageFill c).2
  let q := (y.stageFill c).1 * (x.stageFill a).2
  if bx != by_ then some by_
  else if p ≠ q then some (q < p)
  else if x.slot ≠ y.slot then some (x.slot < y.slot)
  else if a ≠ c then some (a < c)
  else none

/-- A group that has been passed over for 256 consecutive issue slots issues in the next one (R127). -/
def Part.due (p : Part) : Bool := p.must || 256 ≤ p.passed

/-- Whether group x comes before group y for the issue slot of their partition (R113, R127). -/
def groupBefore (x y : Block × Part) : Bool :=
  if x.2.due != y.2.due then x.2.due
  else if x.2.due then
    (if x.2.low ≠ y.2.low then x.2.low < y.2.low else x.1.slot < y.1.slot)
  else if x.2.yielded != y.2.yielded then y.2.yielded
  else match stageBefore x.1 x.2.stage y.1 y.2.stage with
  | some r => r
  | none => x.2.low < y.2.low

/-! ### Compaction (R170) -/

/-- The cycle of a core's die. -/
def State.now (s : State) (core : Nat) : Nat := (s.cdie (coreDie core)).cyc.toNat

/-- `compact #t` (R170): a part all of whose live lanes are active parks; another goes on. -/
def execCompact (h : Hd) (t : BitVec 8) (s : State) : Res := match s.part? with
  | none => .next s
  | some (b, p) =>
    let ls := s.act h
    if ls.length ≠ p.lanes.length then .next (s.skip h)
    else
      let nx := s.nextPc
      let w := Wait.compact t.toNat (s.now b.core)
      .next (((s.account h false).updMe fun b => ls.foldl (fun b x =>
        b.updFib x.2.fid fun f => { f with life := .parked, wait := some w, next := nx }) b)).tidy

/-- The wait of a part's first lane, and its address. -/
def Block.partWait (b : Block) (p : Part) : Option (Wait × W64) := match p.lanes with
  | x :: _ => match b.fib? x.2 with
    | some f => f.wait.map fun w => (w, f.pc)
    | none => none
  | [] => none

def Wait.isCompact : Wait → Bool
  | .compact _ _ => true
  | _ => false

def Wait.start : Wait → Nat
  | .compact _ n => n
  | _ => 0

/-- A compaction closes when every other part of the origin is parked, or 16 × t cycles after the first arrival; the
parts parked there merge and go on (R170) (log 57, DEDUCED). -/
def execCompactClose (core slot part : Nat) (s : State) : Res := match s.block? core slot with
  | none => .next s
  | some b => match b.part? part with
    | none => .next s
    | some p => match b.partWait p with
      | some (.compact t _, pc) =>
        let own := b.parts.filter fun q => q.origin == p.origin
        let here := own.filter fun q => b.parkedOn q Wait.isCompact && (b.partWait q).map (·.2) == some pc
        let first := lowest (here.filterMap fun q => (b.partWait q).map fun w => w.1.start)
        let due := (own.all fun q => b.parkedOn q fun _ => true) || (t ≠ 0 && first + 16 * t ≤ s.now core)
        if !(here.any fun q => q.id == part) || !due then .next s
        else
          let fids := here.flatMap fun q => q.lanes.map (·.2)
          let s1 := s.updBlock core slot fun b => (fids.foldl (fun b f => b.updFib f fun g => g.release []) b).merge (here.map (·.id))
          .next (s1.settleWith core slot fids)
      | _ => .next s

/-! ### Regrouping (R171) -/

/-- Forms a group from fibres that hold a record: a new origin with empty masks, and its one part (R139, R171). -/
def State.form (s : State) (core slot part stage : Nat) (fids : List Nat) : State :=
  let oid := s.nextId
  let pid := s.nextId + 1
  let mk := fun (b : Block) =>
    let fs := sortBy (·.col) (fids.filterMap fun x => b.fib? x)
    let b := fids.foldl (fun b x => b.updFib x fun f => { f with origin := some oid }) b
    { b with origins := b.origins ++ [{ id := oid, part := part }]
             parts := b.parts ++ [{ id := pid, part := part, stage := stage, origin := oid, lanes := fs.map fun f => (f.col, f.fid) }] }
  ({ s with nextId := s.nextId + 2 }).updBlock core slot mk

/-- Serves one emitted group: it needs a record and an origin entry (R171). -/
def State.serveEmit (s : State) (core slot : Nat) (e : Emit) : State :=
  let held := e.held || 0 < s.freeRecords core e.part
  let drop := fun (b : Block) => { b with emits := b.emits.filter fun (x : Emit) => x.fids != e.fids }
  if held && 0 < s.freeOrigins core e.part then
    let s1 := (s.updBlock core slot drop).form core slot e.part e.stage e.fids
    s1.updBlock core slot fun b => e.fids.foldl (fun b x => b.updFib x fun f =>
      { f with life := .ready, wait := none, pc := f.next }) b
  else s.updBlock core slot fun b => { b with
    emits := b.emits.map fun (x : Emit) => if x.fids == e.fids then { x with held := held } else x }

/-- The first parked fibre of each lane column of an entry, by (key, identifier) (R171). -/
def Block.firsts (b : Block) (r : Regroup) : List Nat :=
  (List.range 32).filterMap fun c =>
    let here := r.keyed.filter fun x => match b.fib? x.2 with
      | some f => f.col == c
      | none => false
    (leastBy (fun x => x.1 * 2 ^ 32 + x.2) here).map (·.2)

/-- Emits one group of an entry: its fibres leave the entry and their origins, taking one of the entry's records if
it has any. -/
def State.emit (s : State) (core slot : Nat) (r : Regroup) (fids : List Nat) : State :=
  let e : Emit := { id := r.id, part := r.part, stage := r.stage, pc := r.pc, fids := fids, held := 0 < r.records }
  let take := fun (x : Regroup) => if x.id == r.id then
    { x with keyed := x.keyed.filter fun y => !fids.contains y.2, records := x.records - 1 } else x
  let upd := fun (b : Block) =>
    (fids.foldl (fun (b : Block) x => b.updFib x fun f => { f with origin := none })
      { b with regroups := b.regroups.map take, emits := b.emits ++ [e] }).sweepOrigins
  (s.updBlock core slot upd).serveEmit core slot e

/-- Emits the groups of an entry: full groups only, or all that remain. -/
def State.emitLoop (core slot id : Nat) (full : Bool) : Nat → State → State
  | 0, s => s
  | n + 1, s => match s.block? core slot with
    | none => s
    | some b => match b.regroups.find? fun r => r.id == id with
      | none => s
      | some r =>
        let g := b.firsts r
        if g.isEmpty || (full && g.length < 32) then s
        else State.emitLoop core slot id full n (s.emit core slot r g)

/-- The arrival of a part at `regroup` (R171): the active lanes leave their J masks and their part, and park in the
partition's entry; a full table makes it a `nop` (log 60, DEDUCED). -/
def State.regroup (s : State) (h : Hd) (t : BitVec 8) (key : Fibre → Nat) : State := match s.part? with
  | none => s
  | some (b, p) =>
    let ls := s.act h
    let found := b.regroups.find? fun r => r.part == p.part && r.stage == p.stage && r.pc == s.cur.pc
    let used := (s.blocks.filter fun q => q.core == b.core).foldl (fun n q =>
      n + (q.regroups.filter fun r => r.part == p.part).length) 0
    if ls.isEmpty || (found.isNone && 8 ≤ used) then s.skip h
    else
      let nx := s.nextPc
      let s1 := (s.account h false).advance (s.issuers.filter fun w => !(ls.any fun x => w == .fib x.2.fid))
      let id := match found with
        | some r => r.id
        | none => s1.nextId
      let fresh : Regroup := { id := id, part := p.part, stage := p.stage, pc := s.cur.pc, next := nx, t := t.toNat, start := s.now b.core }
      let s2 := match found with
        | some _ => s1
        | none => ({ s1 with nextId := id + 1 }).updMe fun b => { b with regroups := b.regroups ++ [fresh] }
      let s3 := ls.foldl (fun s x => s.leaveMasks b.core b.slot p.origin x.1) s2
      let whole := ls.length == p.lanes.length
      let own := (b.parts.filter fun q => q.origin == p.origin).length
      let split := !whole && !p.serial && own + 1 ≤ 8 && 0 < s3.freeRecords b.core p.part
      let rec' := if whole || split then 1 else 0
      let join := fun (r : Regroup) => if r.id == id then
        { r with keyed := r.keyed ++ ls.map fun x => (key x.2, x.2.fid), records := r.records + rec' } else r
      let s4 := s3.updMe fun b =>
        let b := ls.foldl (fun b x => b.updFib x.2.fid fun f => { f with life := .parked, wait := some (.regroup id), next := nx }) b
        { b with
          regroups := b.regroups.map join
          parts := (b.parts.map fun (q : Part) => if q.id == p.id then
            { q with lanes := q.lanes.filter fun x => !(ls.any fun y => y.1 == x.1), serial := q.serial || !(whole || split) }
            else q).filter fun q => !q.lanes.isEmpty }
      (State.emitLoop b.core b.slot id true b.fibres.length s4).tidy

def execRegroup (h : Hd) (t : BitVec 8) (s : State) : Res := .next (s.regroup h t fun _ => 0)
def execRegroupKey (h : Hd) (b64 : Bool) (a : RegNo) (t : BitVec 8) (s : State) : Res :=
  .next (s.regroup h t fun f => (bits64 (.fib f) b64 a).toNat)

/-- An entry closes when no other part of its block and stage in the partition is ready to issue, or 16 × t cycles
after it opened; a group already emitted that waits is served instead (R171) (log 57, DEDUCED). -/
def execRegroupClose (core slot entry : Nat) (s : State) : Res := match s.block? core slot with
  | none => .next s
  | some b => match b.emits.find? fun e => e.id == entry with
    | some e => .next (s.serveEmit core slot e)
    | none => match b.regroups.find? fun r => r.id == entry with
      | none => .next s
      | some r =>
        let busy := b.parts.any fun p => p.part == r.part && p.stage == r.stage && s.cur.ready.contains (slot, p.id)
        if busy && !(r.t ≠ 0 && r.start + 16 * r.t ≤ s.now core) then .next s
        else
          let s1 := State.emitLoop core slot entry false b.fibres.length s
          .next (s1.updBlock core slot fun b => { b with regroups := b.regroups.filter fun (x : Regroup) => x.id != entry })

/-! ### Records, origins and parts (R127, R139, R140) -/

def State.assigned (s : State) (core part : Nat) : Option Assign := ((s.core core).assign[part]?).getD none
def State.setAssign (s : State) (core part : Nat) (a : Option Assign) : State :=
  s.updCore core fun c => { c with assign := c.assign.set part a }

/-- Whether a stage of a block has a fibre of the partition that waits for a group. -/
def Block.ungrouped (b : Block) (part stage : Nat) : Bool :=
  b.fibres.any fun f => f.life = .ungrouped && f.part == part && f.stage == stage

/-- Blocks of a core in ascending slot order. -/
def State.blocksOn (s : State) (core : Nat) : List Block := sortBy (·.slot) (s.blocks.filter fun b => b.core == core)

/-- A RETURNING fibre that has its window and whose origin has room for a part (R127, R140). -/
def Block.returner (b : Block) (part : Nat) : Option Fibre :=
  leastBy (·.fid) (b.fibres.filter fun f => f.life = .returning && f.win && f.part == part &&
    (b.parts.filter fun p => some p.origin == f.origin).length < 8)

/-- The group records that a stage holds in a partition: its parts, and what regrouping keeps (R127, R171). -/
def Block.stageHolds (b : Block) (part stage : Nat) : Nat :=
  (b.parts.filter fun p => p.part == part && p.stage == stage).length +
  ((b.regroups.filter fun r => r.part == part && r.stage == stage).foldl (fun n r => n + r.records) 0) +
  (b.emits.filter fun e => e.part == part && e.stage == stage && e.held).length

/-- Whether a stage holds fewer records in a partition than its reservation (R127, R134). -/
def Block.below (b : Block) (part stage : Nat) : Bool := b.stageHolds part stage < (b.stgres[stage]?).getD 0

/-- The first of a list by a strict order. -/
def firstBy (before : α → α → Bool) : List α → Option α
  | [] => none
  | x :: r => match firstBy before r with
    | none => some x
    | some y => if before y x then some y else some x

/-- What a free record of a partition goes to (R127): a returning fibre, a stage below its reservation, or the
unblocked stage with the highest pressure; of the stages, those with fibres to group, while an origin entry is free for them
(R139) (log 59, DEDUCED). -/
def State.assignee (s : State) (core part : Nat) : Option Assign :=
  let bs := s.blocksOn core
  match bs.findSome? fun b => (b.returner part).map fun f => Assign.ret b.slot f.fid with
  | some a => some a
  | none =>
    let st := if s.freeOrigins core part = 0 then [] else
      bs.flatMap fun b => ((List.range b.stageQ.length).filter fun g => b.ungrouped part g).map fun g => (b, g)
    match st.find? fun x => x.1.below part x.2 with
    | some x => some (.stage x.1.slot x.2)
    | none => (firstBy (fun x y => (stageBefore x.1 x.2 y.1 y.2).getD false) (st.filter fun x => !x.1.blocked x.2)).map
        fun x => .stage x.1.slot x.2

/-- A freed group record is assigned (R127). -/
def execRecordAssign (core part : Nat) (s : State) : Res :=
  if (s.assigned core part).isSome || s.freeRecords core part = 0 then .next s
  else .next (s.setAssign core part (s.assignee core part))

/-- The members of a new origin group: the lowest ungrouped fibre of the stage, and of each other lane column the
lowest that stands at its address (R139). -/
def Block.groupOf (b : Block) (part stage : Nat) : List Nat :=
  let fs := sortBy (·.fid) (b.fibres.filter fun f => f.life = .ungrouped && f.part == part && f.stage == stage)
  match fs with
  | [] => []
  | f :: _ => f.fid :: (List.range 32).filterMap fun c =>
      if c = f.col then none else (fs.find? fun g => g.col == c && g.pc == f.pc).map (·.fid)

/-- A partition forms a new origin group with its assigned record and a free origin entry (R139). -/
def execGroupForm (core part : Nat) (s : State) : Res := match s.assigned core part with
  | some (.stage slot stage) => match s.block? core slot with
    | none => .next (s.setAssign core part none)
    | some b =>
      let g := b.groupOf part stage
      if g.isEmpty || s.freeOrigins core part = 0 then .next (s.setAssign core part none)
      else
        let s1 := (s.setAssign core part none).form core slot part stage g
        .next (s1.updBlock core slot fun b => g.foldl (fun b x => b.updFib x fun f => { f with life := .ready }) b)
  | _ => .next s

/-- A RETURNING fibre with its window rejoins its origin as a new part, if that has room (R141), with the others of its origin that got theirs in
the same cycle at the same address (R140) (log 60, DEDUCED). -/
def execPartReturn (core part slot fid : Nat) (s : State) : Res := match s.assigned core part, s.block? core slot with
  | some (.ret sl fd), some b =>
    if sl ≠ slot || fd ≠ fid then .next s
    else match b.fib? fid with
    | some f =>
      if f.life ≠ .returning || !f.win || 8 ≤ (b.parts.filter fun p => some p.origin == f.origin).length then
        .next (s.setAssign core part none)
      else match f.origin with
      | none => .next (s.setAssign core part none)
      | some o =>
        let with_ := sortBy (·.col) (b.fibres.filter fun g => g.life = .returning && g.win && g.part == part &&
          g.origin == some o && g.pc == f.pc && g.granted == f.granted)
        let p : Part := { id := s.nextId, part := part, stage := f.stage, origin := o, lanes := with_.map fun g => (g.col, g.fid) }
        let join := fun (b : Block) =>
          let b := with_.foldl (fun (b : Block) g => b.updFib g.fid fun x => { x with life := .ready }) b
          { b with parts := b.parts ++ [p] }
        .next ((({ s with nextId := s.nextId + 1 }).setAssign core part none).updBlock core slot join)
    | none => .next (s.setAssign core part none)
  | some (.ret sl fd), none => if sl ≠ slot || fd ≠ fid then .next s else .next (s.setAssign core part none)
  | _, _ => .next s

/-- A ready group passed over for 256 issue slots issues in the next one (R127). -/
def execFairnessExpiry (core slot part : Nat) (s : State) : Res :=
  .next (s.updBlock core slot fun b => b.updPart part fun p => if 256 ≤ p.passed then { p with must := true } else p)

/-! ### Windows that free (R148, R149) -/

/-- Whether an incoming fibre finds a free window (R148). -/
def State.hasRoom (s : State) (b : Block) (f : Fibre) : Bool :=
  if f.life = .returning then s.colRoom b.core f.part f.col b.kr.w.toNat
  else (s.lowCol b.core f.part b.kr.w.toNat).isSome

/-- The victim for an incoming fibre (R148). -/
def Block.victimFor (b : Block) (f : Fibre) : Option Fibre :=
  b.victim f.part (if f.life = .returning then some f.col else none)

/-- A victim is swapped out for an incoming fibre that finds no window (R148); an UNBORN fibre's initial state that has not reached
its spill area goes there first (R136). -/
def execSwapOut (core slot fid : Nat) (s : State) : Res := match s.block? core slot with
  | none => .next s
  | some b => match b.fib? fid with
    | none => .next s
    | some f =>
      if f.life = .unborn && !f.regs.isEmpty && !f.stuck then .next (s.saveUnborn core slot fid)
      else if !f.incoming || s.hasRoom b f then .next s
      else match b.victimFor f with
      | some v => .next (s.swap core slot v)
      | none => .next s

/-- The fibre of a block that a free window of a partition goes to: RETURNING fibres first, then UNBORN ones, each in
ascending identifier order (R149). -/
def State.grantee (s : State) (b : Block) (part : Nat) : Option Fibre :=
  let able := fun (f : Fibre) => f.incoming && f.part == part && !f.stuck && s.hasRoom b f
  match leastBy (·.fid) (b.fibres.filter fun f => able f && f.life = .returning) with
  | some f => some f
  | none => leastBy (·.fid) (b.fibres.filter fun f => able f && f.life = .unborn)

/-- A free window is given, and the fibre's state loaded from its spill image, which it must have reached (R136, R149, R260). -/
def execWindowGrant (core part slot : Nat) (s : State) : Res := match s.block? core slot with
  | none => .next s
  | some b => match s.grantee b part with
    | none => .next s
    | some f => if !f.regs.isEmpty then .next (s.saveUnborn core slot f.fid) else match s.spillXl b f .read with
      | .wait => .next s
      | .fault x => .next (s.spillFault b f x)
      | .at_ pa =>
        let w := b.kr.w.toNat
        let col := if f.life = .returning then f.col else (s.lowCol core part w).getD 0
        let now := s.now core
        .next ((s.readSpill b f pa).updBlock core slot fun b => b.updFib f.fid fun _ =>
          { s.fromImage b f pa with
            win := true, col := col, wbase := s.freeBase core part col w, granted := now
            life := if f.life = .unborn then .ungrouped else f.life })

/-! ### The stuck block (R150) -/

/-- Whether the next instruction of a part is a `renter` that finds too few key-store entries (R167). -/
def State.waitsKeys (s : State) (b : Block) (p : Part) : Bool :=
  let s := { s with cur := { core := b.core, slot := b.slot, th := .part p.id } }
  if !b.partReady p then false
  else match s.fetch b with
  | .go t (.renter h rel) => s.freeKeys b.core <
      ((t.act h).filter fun x => !(b.keys.any fun k => k.rel == rel.toNat && k.fid == x.2.fid)).length
  | _ => false

/-- Whether a block has an incoming fibre or a key-store request that it cannot serve (R150). -/
def State.starved (s : State) (b : Block) : Bool :=
  (b.fibres.any fun f => f.incoming && !s.hasRoom b f && (b.victimFor f).isNone) ||
  (b.insts.any fun i => !i.fold && i.st = .emit && (s.freeKeys b.core = 0 || 65536 ≤ b.fibres.length)) ||
  b.parts.any fun p => s.waitsKeys b p

/-- A block stuck for 65,536 cycles takes the population-overflow fault (R150, R152). -/
def execStuckBlock (core slot : Nat) (s : State) : Res := match s.block? core slot with
  | none => .next s
  | some b => if b.ovStop || b.idle < 65536 || !s.starved b then .next s else .next (s.overflow b)

/-! ### Stage queues (R126, R199) -/

/-- The queue registers of a block bound to a stage that hold an entry, in round-robin order after the last giver
(log 67, DEDUCED). -/
def Block.stageGiver (b : Block) (stage : Nat) : Option Nat :=
  let last := (b.stageRR[stage]?).getD 15
  ((List.range 16).map fun i => (last + 1 + i) % 16).find? fun n => match b.q[n]? with
    | some q => q.bind == some (.stage stage) && !q.push.isEmpty
    | none => false

/-- Whether an instruction stalls on a side of a queue register of its block: a push, a `qpop` or an `hrecv`, or 16 for the decision queue
(R198). -/
def Instr.onQueue (n : Nat) (push : Bool) : Instr → Bool
  | .qpush _ _ q _ => push && q.toNat == n
  | .qpop _ _ _ _ q => !push && q.toNat == n
  | .hrecv _ try_ _ q => !push && !try_ && q.toNat == n
  | .dqPush _ _ => push && n == 16
  | .dqPop _ _ _ => !push && n == 16
  | .dqPopf _ _ _ => !push && n == 16
  | _ => false

/-- Whether some part or cox thread of a block stalls on a side of a queue register: what it would issue is a push or pop
there. -/
def State.stallsOn (s : State) (core slot n : Nat) (push : Bool) : Bool := match s.block? core slot with
  | none => false
  | some b =>
    let s := s.updCore core fun c => { c with becalmed := false, wakeIn := 0, last := none }
    (Thread.cox :: b.parts.map fun p => Thread.part p.id).any fun th =>
      let s := { s with cur := { core := core, slot := slot, th := th } }
      s.selectable && match s.fetch b with
      | .go _ i => Instr.onQueue n push i
      | _ => false

/-- Room frees in a push side, or an entry arrives at a pop side, on which a part or cox thread of the block stalled before (`s0`):
a becalmed core wakes (R198). -/
def State.rouseQueue (s : State) (s0 : State) (core slot n : Nat) (push : Bool) : State :=
  if (s0.core core).becalmed && s0.stallsOn core slot n push then s.rouse core 2 n else s

def Block.qreg (b : Block) (n : Nat) : QReg := (b.q[n]?).getD {}
def Block.updQ (b : Block) (n : Nat) (f : QReg → QReg) : Block := { b with q := b.q.modify n f }

/-- Whether a waiting `qdrain` is over: its entries are taken, and no command made of them is unfinished. -/
def State.drained (s : State) (x : Drain) : Bool := match s.block? x.core x.slot with
  | none => true
  | some b => x.target ≤ (b.qreg x.q).taken &&
      !(s.cmds.any fun c => c.core == x.core && c.slot == x.slot && c.q == x.q && c.first < x.target)

/-- Ends the `qdrain`s that are over: their registers get the count of the pop side. -/
def State.drainAll (s : State) : State :=
  let ended := s.drains.filter s.drained
  let give := fun (s : State) (x : Drain) => s.updBlock x.core x.slot fun b =>
    let n := (b.qreg x.q).pop.length
    x.regs.foldl (fun b r => b.wr r.1 [match r.1 with
      | .cox => .s r.2 (BitVec.ofNat 64 n)
      | .fib _ => .v r.2 (BitVec.ofNat 32 n)]) b
  { ended.foldl give s with drains := s.drains.filter fun x => !s.drained x }
/-- A stage's input queue takes one entry, round-robin over its registers, while it has room (R199) (log 67, DEDUCED). -/
def execStageQueueTake (core slot stage : Nat) (s : State) : Res := match s.block? core slot with
  | none => .next s
  | some b => match b.stageGiver stage, b.stageQ[stage]? with
    | some n, some sq =>
      if (b.stageFill stage).2 ≤ sq.length then .next s
      else match ((b.q[n]?).getD {}).push with
      | [] => .next s
      | e :: r =>
        .next (((s.updBlock core slot fun b => { b with
          q := b.q.modify n fun q => { q with push := r, taken := q.taken + 1 }
          stageQ := b.stageQ.set stage (sq ++ [e.v])
          stageRR := b.stageRR.set stage n }).rouseQueue s core slot n true).drainAll)
    | _, _ => .next s

/-- The partition and column a stage spawn takes: the partition with the fewest live fibres among those with a window
that no returning or unborn fibre waits for (R126, R149) (log 59, DEDUCED). -/
def State.spawnPlace (s : State) (b : Block) : Option (Nat × Nat) :=
  let ps := [0, 1, 2, 3].filterMap fun p => (s.openCol b p).map fun c => (p, c)
  leastBy (fun x => (b.fibres.filter fun f => f.part == x.1).length) ps

/-- The head entry of a stage's input queue spawns a fibre (R126, R138, R159). -/
def execStageSpawn (core slot stage : Nat) (s : State) : Res := match s.block? core slot with
  | none => .next s
  | some b => match b.stageQ[stage]? with
    | some (e :: r) =>
      if b.ovStop || b.emitting || 65536 ≤ b.fibres.length || (s.ctx b.ctx).st = .killing then .next s
      else if b.nextFid ≥ 2 ^ 32 then .next (s.overflow b)
      else match s.spawnPlace b with
      | none => .next s
      | some (part, col) =>
        let f : Fibre :=
          { fid := b.nextFid, life := .ungrouped, stage := stage, part := part, col := col, fslot := b.freeFslot
            wbase := s.freeBase core part col b.kr.w.toNat, seen := s.nextId
            pc := label ((b.kr.entry[stage]?).getD 0)
            regs := (loWord e :: hiWord e :: List.replicate b.kr.w.toNat 0).take b.kr.w.toNat }
        .next (s.updBlock core slot fun b => { b with
          fibres := b.fibres ++ [f], nextFid := b.nextFid + 1, stageQ := b.stageQ.set stage r })
    | _ => .next s

/-! ### Becalmed cores (R109) -/

/-- A core with nothing to issue for 16 cycles becalms, after its first wake (R109) (log 10, DEDUCED). -/
def Core.calm (c : Core) : Core :=
  if c.becalmed || c.wake = 0 || c.idle < 16 then c else { c with becalmed := true, wakeReq := none }

/-- A core becalms at once when its 16 cycles are over; the cycles that pass do it by themselves. -/
def execBecalm (core : Nat) (s : State) : Res := .next (s.updCore core Core.calm)

/-- The first event of Table 5-6 wakes a becalmed core; issue begins 64 cycles after the event (log 10, DEDUCED). -/
def execWake (core : Nat) (s : State) : Res :=
  let now := s.now core
  .next (s.updCore core fun c => match c.becalmed, c.wakeReq with
    | true, some (r, i, t) =>
      { c with becalmed := false, wakeReq := none, idle := 0, wakeIn := 64 - (now - t)
               wake := BitVec.ofNat 16 i ++ (0 : BitVec 8) ++ BitVec.ofNat 8 r }
    | _, _ => c)

end Sys2Proof.Machine
end

