-- ==== Sys2Proof/Machine/Num.lean ====
section
/-! DEFINITION. Number formats and exact arithmetic (R53–R78): values are computed exactly as dyadic
numbers and rounded once where a rule names a rounding. -/

namespace Sys2Proof.Machine

open Sys2Proof

/-- A binary floating format of Table 3-1: exponent width, fraction width, bias, and whether it is
E4M3, whose top exponent holds numbers (R53). -/
structure Fmt where
  ew : Nat
  fw : Nat
  bias : Nat
  e4m3 : Bool := false
  deriving DecidableEq, Repr

def Fmt.f32 : Fmt := { ew := 8, fw := 23, bias := 127 }
def Fmt.f16 : Fmt := { ew := 5, fw := 10, bias := 15 }
def Fmt.bf16 : Fmt := { ew := 8, fw := 7, bias := 127 }
def Fmt.e5m2 : Fmt := { ew := 5, fw := 2, bias := 15 }
def Fmt.e4m3fmt : Fmt := { ew := 4, fw := 3, bias := 7, e4m3 := true }

/-- The value of an encoding: NaN, an infinity, or ±m × 2^e (R53). -/
inductive FVal where
  | nan
  | inf (neg : Bool)
  | fin (neg : Bool) (m : Nat) (e : Int)
  deriving DecidableEq, Repr

/-- The value that an encoding of a format stands for (R53). -/
def Fmt.decode (f : Fmt) (x : Nat) : FVal :=
  let s := x / 2 ^ (f.ew + f.fw) % 2 == 1
  let e := x / 2 ^ f.fw % 2 ^ f.ew
  let fr := x % 2 ^ f.fw
  let top := 2 ^ f.ew - 1
  if e == top && !f.e4m3 then (if fr == 0 then .inf s else .nan)
  else if e == top && fr == 2 ^ f.fw - 1 then .nan
  else if e == 0 then .fin s fr (1 - (f.bias : Int) - f.fw)
  else .fin s (2 ^ f.fw + fr) ((e : Int) - f.bias - f.fw)

/-- The canonical NaN (R54, Table 3-1). -/
def Fmt.nanBits (f : Fmt) : Nat :=
  if f.e4m3 then 2 ^ (f.ew + f.fw) - 1 else (2 ^ f.ew - 1) * 2 ^ f.fw + 2 ^ (f.fw - 1)

/-- The sign bit as a number. -/
def Fmt.sign (f : Fmt) (neg : Bool) : Nat := if neg then 2 ^ (f.ew + f.fw) else 0

/-- The largest finite magnitude (Table 3-1). -/
def Fmt.maxBits (f : Fmt) : Nat :=
  if f.e4m3 then 2 ^ (f.ew + f.fw) - 2 else (2 ^ f.ew - 1) * 2 ^ f.fw - 1

/-- An infinity, or the largest finite number where the format has none or the conversion saturates (R68). -/
def Fmt.infBits (f : Fmt) (sat neg : Bool) : Nat :=
  f.sign neg + (if f.e4m3 || sat then f.maxBits else (2 ^ f.ew - 1) * 2 ^ f.fw)

/-- What an overflowing result becomes (Table 3-2, R68). -/
def Fmt.overflow (f : Fmt) (rnd : Rnd) (sat neg : Bool) : Nat :=
  let toMax := f.e4m3 || sat || (match rnd with
    | .rne => false | .rz => true | .ru => neg | .rd => !neg)
  f.sign neg + (if toMax then f.maxBits else (2 ^ f.ew - 1) * 2 ^ f.fw)

/-- Whether a kept magnitude is stepped up: `r` of `2 ^ sh` is the part cut off and `sticky` says that
more follows it (R64). -/
def roundsUp (rnd : Rnd) (neg : Bool) (kept r sh : Nat) (sticky : Bool) : Bool :=
  match rnd with
  | .rne => sh != 0 && (2 * r > 2 ^ sh || (2 * r == 2 ^ sh && (sticky || kept % 2 == 1)))
  | .rz => false
  | .ru => !neg && (r != 0 || sticky)
  | .rd => neg && (r != 0 || sticky)

/-- Rounds ±(m + s) × 2^e to the format, where s is 0, or some value strictly between 0 and 1 when
`sticky` holds (R64, R65). A zero keeps its sign (R66). -/
def Fmt.round (f : Fmt) (rnd : Rnd) (sat : Bool) (neg : Bool) (m : Nat) (e : Int) (sticky : Bool) : Nat :=
  if m == 0 then f.sign neg else
  let low : Int := 1 - (f.bias : Int) - f.fw
  let q := Max.max ((m.log2 : Int) + e - f.fw) low
  let sh := (q - e).toNat
  let kept := if q ≤ e then m * 2 ^ (e - q).toNat else m / 2 ^ sh
  let r := if q ≤ e then 0 else m % 2 ^ sh
  let k := kept + (if roundsUp rnd neg kept r sh sticky then 1 else 0)
  let (k, q) := if k ≥ 2 ^ (f.fw + 1) then (k / 2, q + 1) else (k, q)
  if k < 2 ^ f.fw then f.sign neg + k
  else
    let mag := (q + f.fw + f.bias).toNat * 2 ^ f.fw + (k - 2 ^ f.fw)
    if mag > f.maxBits then f.overflow rnd sat neg else f.sign neg + mag

/-- Rounds a value to a format (R65, R68). -/
def Fmt.ofVal (f : Fmt) (rnd : Rnd) (sat : Bool) : FVal → Nat
  | .nan => f.nanBits
  | .inf s => f.infBits sat s
  | .fin s m e => f.round rnd sat s m e false

def FVal.neg : FVal → FVal
  | .nan => .nan
  | .inf s => .inf !s
  | .fin s m e => .fin (!s) m e

def FVal.isNan : FVal → Bool
  | .nan => true
  | _ => false

def FVal.nonFinite : FVal → Bool
  | .fin _ _ _ => false
  | _ => true

/-- An exact product; a zero product takes the exclusive-or of the signs (R66). -/
def FVal.mul : FVal → FVal → FVal
  | .nan, _ => .nan
  | _, .nan => .nan
  | .inf s, .inf t => .inf (s != t)
  | .inf s, .fin t m _ => if m == 0 then .nan else .inf (s != t)
  | .fin s m _, .inf t => if m == 0 then .nan else .inf (s != t)
  | .fin s m e, .fin t n g => .fin (s != t) (m * n) (e + g)

/-- The signed integer m × 2^(e − low) of a finite term. -/
def termAt (low : Int) : FVal → Int
  | .fin s m e =>
    let v : Int := ((m * 2 ^ (e - low).toNat : Nat) : Int)
    if s then -v else v
  | _ => 0

/-- The least exponent among finite terms. -/
def lowExp : List FVal → Int
  | [] => 0
  | [.fin _ _ e] => e
  | .fin _ _ e :: r => Min.min e (lowExp r)
  | _ :: r => lowExp r

/-- The exact sum of terms, with the sign rule of R66 for a zero sum; a sum of no terms is −0 (log 118, DESIGN CHOICE). -/
def exactSum (rnd : Rnd) (ts : List FVal) : FVal :=
  if ts.any FVal.isNan then .nan
  else if ts.contains (.inf true) && ts.contains (.inf false) then .nan
  else if ts.contains (.inf true) then .inf true
  else if ts.contains (.inf false) then .inf false
  else
    let low := lowExp ts
    let v := (ts.map (termAt low)).foldl (· + ·) 0
    if v == 0 then
      let neg := fun | FVal.fin s 0 _ => s | _ => false
      let pos := fun | FVal.fin s 0 _ => !s | _ => false
      .fin (if ts.all neg then true else if ts.all pos then false else rnd == .rd) 0 0
    else .fin (v < 0) v.natAbs low

/-- Rounds the exact sum of terms once (R65, R72). -/
def Fmt.sum (f : Fmt) (rnd : Rnd) (ts : List FVal) : Nat := f.ofVal rnd false (exactSum rnd ts)

def Fmt.add (f : Fmt) (rnd : Rnd) (a b : Nat) : Nat := f.sum rnd [f.decode a, f.decode b]
def Fmt.sub (f : Fmt) (rnd : Rnd) (a b : Nat) : Nat := f.sum rnd [f.decode a, (f.decode b).neg]
def Fmt.mul (f : Fmt) (rnd : Rnd) (a b : Nat) : Nat := f.sum rnd [(f.decode a).mul (f.decode b)]
def Fmt.fma (f : Fmt) (rnd : Rnd) (a b c : Nat) : Nat :=
  f.sum rnd [(f.decode a).mul (f.decode b), f.decode c]

/-- A correctly rounded quotient (R218). -/
def Fmt.divVal (f : Fmt) (rnd : Rnd) : FVal → FVal → Nat
  | .nan, _ => f.nanBits
  | _, .nan => f.nanBits
  | .inf _, .inf _ => f.nanBits
  | .inf s, .fin t _ _ => f.infBits false (s != t)
  | .fin s _ _, .inf t => f.sign (s != t)
  | .fin s m e, .fin t n g =>
    if n == 0 then (if m == 0 then f.nanBits else f.infBits false (s != t))
    else
      let k := 64 + n.log2
      let num := m * 2 ^ k
      f.round rnd false (s != t) (num / n) (e - g - k) (num % n != 0)

def Fmt.div (f : Fmt) (rnd : Rnd) (a b : Nat) : Nat := f.divVal rnd (f.decode a) (f.decode b)

/-- Bit-by-bit integer square root: the largest r with r² ≤ n among r + 2^i sums. -/
def isqrtFrom : Nat → Nat → Nat → Nat
  | 0, n, r => if (r + 1) * (r + 1) ≤ n then r + 1 else r
  | i + 1, n, r =>
    let c := r + 2 ^ (i + 1)
    isqrtFrom i n (if c * c ≤ n then c else r)

/-- ⌊√n⌋. -/
def isqrt (n : Nat) : Nat := isqrtFrom (n.log2 / 2) n 0

/-- A correctly rounded square root (R218). -/
def Fmt.sqrt (f : Fmt) (rnd : Rnd) (a : Nat) : Nat :=
  match f.decode a with
  | .nan => f.nanBits
  | .inf s => if s then f.nanBits else f.infBits false false
  | .fin s m e =>
    if m == 0 then f.sign s
    else if s then f.nanBits
    else
      let sh : Nat := if e % 2 == 0 then 64 else 65
      let n := m * 2 ^ sh
      let r := isqrt n
      f.round rnd false false r ((e - sh) / 2) (r * r != n)

/-- A correctly rounded reciprocal square root (R218). -/
def Fmt.rsqrt (f : Fmt) (rnd : Rnd) (a : Nat) : Nat :=
  match f.decode a with
  | .nan => f.nanBits
  | .inf s => if s then f.nanBits else 0
  | .fin s m e =>
    if m == 0 then f.infBits false s
    else if s then f.nanBits
    else
      let (m, e) := if e % 2 == 0 then (m, e) else (2 * m, e - 1)
      let k := 64 + m.log2
      let r := isqrt (2 ^ (2 * k) / m)
      f.round rnd false false r (-(k : Int) - e / 2) (r * r * m != 2 ^ (2 * k))

/-- Strict order on non-NaN values, zeros equal. -/
def FVal.lt (a b : FVal) : Bool :=
  match a, b with
  | .nan, _ => false
  | _, .nan => false
  | .inf s, .inf t => s && !t
  | .inf s, .fin _ _ _ => s
  | .fin _ _ _, .inf t => !t
  | .fin _ _ e, .fin _ _ g =>
    let low := Min.min e g
    termAt low a < termAt low b

def FVal.isZero : FVal → Bool
  | .fin _ 0 _ => true
  | _ => false

def FVal.negative : FVal → Bool
  | .nan => false
  | .inf s => s
  | .fin s _ _ => s

/-- Order with −0 below +0 (R67). -/
def FVal.ltZ (a b : FVal) : Bool :=
  a.lt b || (a.isZero && b.isZero && a.negative && !b.negative)

/-- Minimum (`max = false`) and maximum of R67; `num` selects the minimumNumber variants. A non-NaN result
is returned bit for bit. -/
def Fmt.minMax (f : Fmt) (max num : Bool) (a b : Nat) : Nat :=
  let va := f.decode a
  let vb := f.decode b
  if va.isNan && vb.isNan then f.nanBits
  else if va.isNan then (if num then b else f.nanBits)
  else if vb.isNan then (if num then a else f.nanBits)
  else if max then (if va.ltZ vb then b else a) else (if vb.ltZ va then b else a)

/-- The floating conditions of Table 10-3; −0 and +0 are equal. -/
def fccHolds (c : FCc) (a b : FVal) : Bool :=
  let un := a.isNan || b.isNan
  match c with
  | .eq => !un && !a.lt b && !b.lt a
  | .ne => un || a.lt b || b.lt a
  | .lt => a.lt b
  | .le => !un && !b.lt a
  | .gt => b.lt a
  | .ge => !un && !a.lt b
  | .nan => un
  | .num => !un

/-- The class bit of R219. -/
def classBit (x : Nat) : Nat :=
  match Fmt.f32.decode x with
  | .nan => 8
  | .inf s => if s then 0 else 7
  | .fin s m e =>
    if m == 0 then (if s then 3 else 4)
    else if e == (-149 : Int) && m < 2 ^ 23 then (if s then 2 else 5)
    else (if s then 1 else 6)

/-- Rounds a finite value to an integer in the mode, then the caller clamps (R68). -/
def roundInt (rnd : Rnd) (neg : Bool) (m : Nat) (e : Int) : Int :=
  let mag : Nat :=
    if e ≥ 0 then m * 2 ^ e.toNat
    else
      let sh := (-e).toNat
      let kept := m / 2 ^ sh
      kept + (if roundsUp rnd neg kept (m % 2 ^ sh) sh false then 1 else 0)
  if neg then -(mag : Int) else mag

/-- Clamps to a range. -/
def clampInt (lo hi v : Int) : Int := if v < lo then lo else if v > hi then hi else v

/-- The exact integer as a value. -/
def FVal.ofInt (v : Int) : FVal := .fin (v < 0) v.natAbs 0

/-- The value of an MXFP8 element under its scale (R57, R58), before the rounding to FP32. -/
def mxVal (f : Fmt) (p x : Nat) : FVal :=
  if x == 255 then .nan
  else match f.decode p with
    | .fin s m e => .fin s m (e + x - 127)
    | v => v

/-- Widens an MXFP8 element to FP32 (R58). -/
def mxWiden (f : Fmt) (p x : Nat) : Nat := Fmt.f32.ofVal .rne false (mxVal f p x)

/-- ⌊log₂⌋ of a nonzero finite magnitude. -/
def floorLog2 (m : Nat) (e : Int) : Int := (m.log2 : Int) + e

/-- The greatest ⌊log₂⌋ among nonzero finite values, none when every value is zero. -/
def maxLog2 : List FVal → Option Int
  | [] => none
  | .fin _ m e :: r =>
    if m == 0 then maxLog2 r
    else match maxLog2 r with
      | none => some (floorLog2 m e)
      | some g => some (Max.max (floorLog2 m e) g)
  | _ :: r => maxLog2 r

/-- Quantises a block of FP32 patterns to an MXFP8 block: the scale and the elements (R59). -/
def mxQuant (f : Fmt) (vs : List Nat) : Nat × List Nat :=
  let vals := vs.map Fmt.f32.decode
  if vals.any FVal.nonFinite then (255, vs.map fun _ => f.nanBits)
  else
    let emax : Int := if f.e4m3 then 8 else 15
    let k : Int := match maxLog2 vals with
      | none => -127
      | some g => Min.min 127 (Max.max (-127) (g - emax))
    ((k + 127).toNat, vals.map fun
      | .fin s m e => f.round .rne true s m (e - k) false
      | _ => 0)

/-- The format an 8-bit type names. -/
def fmt8 : F8Ty → Fmt
  | .e4m3 => .e4m3fmt
  | .e5m2 => .e5m2

/-- The format a 16-bit type names. -/
def fmt16 : F16Ty → Fmt
  | .f16 => .f16
  | .bf16 => .bf16

/-- Whether an FP32 pattern is a NaN or an infinity (R69). -/
def nonFinite32 (x : W32) : Bool := (Fmt.f32.decode x.toNat).nonFinite

/-- FP32 operations on register patterns. -/
def f32add (r : Rnd) (a b : W32) : W32 := BitVec.ofNat 32 (Fmt.f32.add r a.toNat b.toNat)
def f32mul (r : Rnd) (a b : W32) : W32 := BitVec.ofNat 32 (Fmt.f32.mul r a.toNat b.toNat)
def f32min (num : Bool) (a b : W32) : W32 := BitVec.ofNat 32 (Fmt.f32.minMax false num a.toNat b.toNat)
def f32max (num : Bool) (a b : W32) : W32 := BitVec.ofNat 32 (Fmt.f32.minMax true num a.toNat b.toNat)

end Sys2Proof.Machine
end

