-- ==== Sys2Proof/Machine/MemOps.lean ====
section
/-! DEFINITION. The core's side of memory: address checks (R231–R233, R256, R399), store paths, the L1 and what a read
returns (R241–R243, R295, R298), late faults, and the register writes of returned data (R274, R276). -/

namespace Sys2Proof.Machine

open Sys2Proof

/-! ### Checking an address -/

/-- A checked access: its place, with the virtual address that was translated; a wait on a migrating page; or a
fault. -/
inductive Chk where
  | ok (l : Loc) (va : Option Nat)
  | wait
  | bad (f : Flt)
  deriving DecidableEq, Repr

def rightOf (write : Bool) : Right := if write then .write else .read

/-- A global address: remote addresses go to their device, the others through the page table (R253, R399). -/
def State.chkGlobal (s : State) (b : Block) (va : Nat) (write : Bool) : Chk :=
  let w : BitVec 16 := if write then 1 else 0
  let local' := fun (va : Nat) => match s.xl b.core b.ctx va (rightOf write) false with
    | .ok pa => .ok (.glob pa) (some va)
    | .wait => .wait
    | .fault i => .bad { code := 0x06, info := i, page := pageOf va }
  if isRemote va then
    let dev := bits va 51 42
    if dev = s.devNum.toNat then local' (bits va 41 0)
    else if 512 ≤ dev || s.lostDevs.contains dev then .bad { code := 0x06, info := w, page := pageOf va }
    else .ok (.remote dev (bits va 41 0)) none
  else local' va

/-- A private access: an unwritten piece reads as zero without memory; any other is translated as fibre-memory traffic
(R260). -/
def State.chkPrivate (s : State) (b : Block) (fid off : Nat) (write : Bool) : Chk := match b.fib? fid with
  | none => .bad { code := 0x07, info := ptrInfo 5 3 }
  | some f =>
    if !write && !f.priv.contains (off / 64) then .ok (.priv fid off none) none
    else
      let va := fibreBase b.core b.slot f.fslot + off
      match s.xl b.core b.ctx va (rightOf write) true with
      | .ok pa => .ok (.priv fid off (some pa)) (some va)
      | .wait => .wait
      | .fault i => .bad { code := 0x06, info := i, page := pageOf va }

/-- The checks of Table 11-2, then translation (R232). -/
def State.chk (s : State) (b : Block) (w : Who) (accept : List Nat) (p : W64) (disp : Int) (n : Nat) (write : Bool) : Chk :=
  match ptrCheck b accept p disp n write with
  | .bad r sp => .bad { code := 0x07, info := ptrInfo r sp }
  | .ok sp x => match sp, w with
    | 0, _ => s.chkGlobal b x write
    | 1, _ => .ok (.scratch x) none
    | 2, _ => .ok (.const x) none
    | _, .fib fid => s.chkPrivate b fid x write
    | _, .cox => .bad { code := 0x07, info := ptrInfo 5 3 }

/-- The faults of checked parties. -/
def chkFaults (cs : List (Nat × Who × Chk)) : List (Who × Flt) := cs.filterMap fun c => match c.2.2 with
  | .bad f => some (c.2.1, f)
  | _ => none

/-- The places of the parties whose check passed. -/
def chkLocs (cs : List (Nat × Who × Chk)) : List (Nat × Who × Loc) := cs.filterMap fun c => match c.2.2 with
  | .ok l _ => some (c.1, c.2.1, l)
  | _ => none

def chkWaits (cs : List (Nat × Who × Chk)) : Bool := cs.any fun c => c.2.2 == .wait

/-- The walks of checked accesses have their traffic, those that fault too, and the caches keep the translations (R241, R257). -/
def State.fillAll (s : State) (b : Block) (cs : List (Nat × Who × Chk)) : State :=
  cs.foldl (fun s c => match c.2.2 with
    | .ok _ (some va) => s.fill b.core b.ctx va
    | .bad f => if f.code = 0x06 && !isRemote f.page then s.walked b.core b.ctx f.page else s
    | _ => s) s

/-! ### Places -/

/-- The address of a place within its space. -/
def Loc.addr : Loc → Nat
  | .glob pa => pa
  | .scratch o => o
  | .const o => o
  | .priv _ o _ => o
  | .remote _ va => va

/-- The line of a global or remote place, with its device. -/
def Loc.lineOf : Loc → Option (Option Nat × Nat)
  | .glob pa => some (none, pa / 128 * 128)
  | .remote d va => some (some d, va / 128 * 128)
  | _ => none

/-- Whether two places lie in one space of one block. -/
def Loc.same : Loc → Loc → Bool
  | .glob _, .glob _ => true
  | .scratch _, .scratch _ => true
  | .const _, .const _ => true
  | .priv f _ _, .priv g _ _ => f == g
  | .remote d _, .remote e _ => d == e
  | _, _ => false

/-- The store path of a party: its partition, or the cox path. -/
def Block.pathOf (b : Block) : Who → Nat
  | .cox => 4
  | .fib fid => match b.fib? fid with
    | some f => f.part
    | none => 0

/-! ### What a read returns -/

/-- The newest byte that a list of writes (newest last) gives an address. -/
def lastByte (ws : List (Who × Nat × Byte)) (ok : Who → Bool) (a : Nat) : Option Byte :=
  (ws.reverse.find? fun w => w.2.1 == a && ok w.1).map (·.2.2)

/-- What a request of a party's own writes to an address. -/
def WReq.byteOf (r : WReq) (w : Who) (l : Loc) (a : Nat) : Option Byte :=
  if r.loc.same l then lastByte r.writes (fun x => x == w) a else none

/-- A party's own write, of an issue before `upto`, that stands in its store path (R298). -/
def Core.pathByte (c : Core) (slot : Nat) (w : Who) (upto : Nat) (l : Loc) (a : Nat) : Option Byte :=
  c.paths.reverse.findSome? fun e =>
    if e.slot == slot && e.issue < upto then e.reqs.reverse.findSome? fun r => r.byteOf w l a else none

/-- Whether some of n bytes at a place are the party's own writes that have not reached the L1. -/
def Core.ownAny (c : Core) (slot : Nat) (w : Who) (upto : Nat) (l : Loc) (n : Nat) : Bool :=
  (List.range n).any fun i => (c.pathByte slot w upto l (l.addr + i)).isSome

/-- Whether all of n bytes at a place are the party's own writes in its store path. -/
def Core.ownAll (c : Core) (slot : Nat) (w : Who) (upto : Nat) (l : Loc) (n : Nat) : Bool :=
  (List.range n).all fun i => (c.pathByte slot w upto l (l.addr + i)).isSome

/-- Whether a write of the core to a line of another device has not left yet, so that a read of the line would pass it
(R298, R399) (log 68, DEDUCED). -/
def Core.remoteWaits (c : Core) (slot : Nat) (w : Who) (upto dev va n : Nat) : Bool :=
  let here := fun (o : Outb) => match o.req.loc with
    | .remote d x => d == dev && x / 128 == va / 128
    | _ => false
  c.ownAny slot w upto (.remote dev va) n || c.outb.any here || c.coll.any fun e => e.wreqs.any here

/-- The writes of the core that have entered its L1 and are on their way to home slices, some of them through the collector. -/
def Core.onWay (c : Core) : List Outb := c.outb ++ c.coll.flatMap (·.wreqs)

/-- Whether an atomic to a line is still on its way while another request of its issue has been performed: the core's reads of the
line wait, so that the issue's writes take consecutive places in the core's order (R298) (log 68, DEDUCED). -/
def Core.halfDone (c : Core) (l : Loc) : Bool := c.outb.any fun o => o.begun && l.lineOf.isSome && o.req.loc.lineOf == l.lineOf

/-- The newest byte that a write of the core on its way to its home slice gives an address. -/
def Core.outByte (c : Core) (pa : Nat) : Option Byte :=
  ((c.onWay.filterMap fun o => match o.req.loc with
    | .glob _ => (lastByte o.req.writes (fun _ => true) pa).map fun v => (o.ord, v)
    | _ => none).foldl (fun (m : Option (Nat × Byte)) x => match m with
      | some y => if y.1 ≤ x.1 then some x else m
      | none => some x) none).map (·.2)

/-- One past the place in the core's order of the last write on its way that gives some of n bytes (R298). -/
def Core.sawTo (c : Core) (pa n : Nat) : Nat := c.onWay.foldl (fun (m : Nat) o =>
  let here := match o.req.loc with
    | .glob _ => o.req.writes.any fun w => pa ≤ w.2.1 && w.2.1 < pa + n
    | _ => false
  if here then Nat.max m (o.ord + 1) else m) 0

/-- A party has read n bytes: the writes of its core that gave some of them are before what it does next (R305) (log 73,
DEDUCED). -/
def State.saw (s : State) (core slot : Nat) (w : Who) (pa n : Nat) : State :=
  let m := (s.core core).sawTo pa n
  if m = 0 then s else s.learnTo core slot [w] m

/-- Whether a read of the management page by a party has its own or its core's stores to the page before it: they act at the home
slice, and the core holds no copy of the page (R426). -/
def Core.mgWaits (c : Core) (slot : Nat) (w : Who) (upto pa n : Nat) : Bool :=
  isMg pa && (c.ownAny slot w upto (.glob pa) n || c.onWay.any fun o => match o.req.loc with
    | .glob x => isMg x
    | _ => false)

def Core.l1Chunk (c : Core) (pa : Nat) : Option (BitVec 128) := (c.l1.find? fun x => x.1 == pa / 16).map (·.2)

/-- A byte of a global address as the core reads it: its own writes on their way out, then its L1 copy, then the
home. -/
def State.coreByte (s : State) (core : Nat) (fresh : Bool) (home : Byte) (pa : Nat) : Byte :=
  let c := s.core core
  match c.outByte pa with
  | some v => v
  | none => match c.l1Chunk pa with
    | some x => if fresh then home else BitVec.ofNat 8 (x.toNat / 2 ^ (8 * (pa % 16)))
    | none => home

/-- n bytes of a place as a party reads them in an issue, with its own writes of earlier issues. `fresh` passes over the
L1, as an acquire of a wide scope does. -/
def State.readLoc (s : State) (core slot : Nat) (priv : Bool) (w : Who) (upto : Nat) (l : Loc) (n : Nat) (fresh : Bool) :
    List Byte :=
  let c := s.core core
  let own := fun (a : Nat) (v : Byte) => match c.pathByte slot w upto l a with
    | some x => x
    | none => v
  let b := s.block? core slot
  match l with
  | .glob pa => if isMg pa then s.homeRead priv pa n
    else ((s.homeRead priv pa n).zipIdx).map fun x => own (pa + x.2) (s.coreByte core fresh x.1 (pa + x.2))
  | .scratch o => (List.range n).map fun i => own (o + i) (match b with
      | some b => b.scratch.get (o + i)
      | none => 0)
  | .const o => (List.range n).map fun i => own (o + i) (match b with
      | some b => b.const.get (o + i)
      | none => 0)
  | .priv _ o pa => (List.range n).map fun i => own (o + i) (match pa with
      | some p => s.mem.get (p + i)
      | none => 0)
  | .remote d va => (c.rbuf.find? fun r => r.slot == slot && r.who == w && r.dev == d && r.va == va && r.data.length == n).elim
      (List.replicate n 0) (·.data)

/-- Whether a read of n bytes, in memory at `pa`, would return data whose check failed: some byte that no write of the party or the
core and no L1 copy gives (R275, R401). -/
def State.badRead (s : State) (core slot : Nat) (w : Who) (upto : Nat) (l : Loc) (pa n : Nat) (fresh : Bool) : Bool :=
  let c := s.core core
  s.bad pa n && (List.range n).any fun i => s.bad (pa + i) 1 && (c.pathByte slot w upto l (l.addr + i)).isNone && match l with
    | .glob _ => (c.outByte (pa + i)).isNone && (fresh || (c.l1Chunk (pa + i)).isNone)
    | _ => true

/-! ### The L1 (R241–R243) -/

/-- An acquire of `.clu` scope or wider discards every block of global data, and the scale cache (R242, R345). -/
def State.discardL1 (s : State) (core : Nat) : State := s.updCore core fun c => { c with l1 := [], scale := [] }

def State.acquire (s : State) (core : Nat) (sc : Scope) : State := if wide sc then s.discardL1 core else s

/-- Fills a block of 1 to 8 chunks that holds the chunk of an access, of the size and place in the line that the predictor picks
(R243), from the home, with the core's own writes on their way there; a chunk whose data fail their check is not kept (R401). An
L1 has 16,384 chunks, and a full one replaces any (R1) (log 8, DESIGN CHOICE). -/
def State.fillL1 (s : State) (core pa : Nat) : State :=
  let n := 1 + Config.pick s.tick % 8
  let here := pa % 128 / 16
  let low := here + 1 - n
  let first := low + Config.pick s.tick / 8 % (Nat.min here (8 - n) - low + 1)
  let one := fun (s : State) (i : Nat) =>
    let base := pa / 128 * 128 + 16 * (first + i)
    if ((s.core core).l1Chunk base).isSome || isMg base || s.bad base 16 then s
    else
      let bytes := ((s.mem.read base 16).zipIdx).map fun x => s.coreByte core true x.1 (base + x.2)
      s.updCore core fun c =>
        let l := if c.l1.length < 16384 then c.l1 else c.l1.eraseIdx (Config.pick s.tick % c.l1.length)
        { c with l1 := l ++ [(base / 16, BitVec.ofNat 128 (leNat bytes))] }
  (List.range n).foldl one s

/-- The L1 copies of n bytes go: a read past the L1 has returned newer ones (R302). -/
def Core.dropChunks (c : Core) (pa n : Nat) : Core := { c with l1 := c.l1.filter fun x => !(pa / 16 ≤ x.1 && x.1 * 16 < pa + n) }

/-- Whether the L1 of a core has every byte of a range. -/
def Core.l1All (c : Core) (pa n : Nat) : Bool := (List.range n).all fun i => (c.l1Chunk (pa + i)).isSome

/-- Updates the L1 copies that a write of the core meets (R241). -/
def updL1 (l : List (Nat × BitVec 128)) (ws : List (Nat × Byte)) : List (Nat × BitVec 128) :=
  l.map fun x => ws.foldl (fun (x : Nat × BitVec 128) w =>
    if w.1 / 16 = x.1 then
      (x.1, BitVec.ofNat 128 (leNat ((leBytes 16 x.2.toNat).set (w.1 % 16) w.2)))
    else x) x

/-- Updates the cached scale bytes that a write of the core meets (R345). -/
def updScale (l : List (Nat × Byte)) (ws : List (Nat × Byte)) : List (Nat × Byte) :=
  l.map fun x => ws.foldl (fun (x : Nat × Byte) w => if w.1 = x.1 then (x.1, w.2) else x) x

/-- A write of the core enters its L1: the copies there and the cached scale bytes follow it (R241, R345). -/
def Core.see (c : Core) (ws : List (Nat × Byte)) : Core := { c with l1 := updL1 c.l1 ws, scale := updScale c.scale ws }

/-- Copies of a line that a load or gather has read stay where the class allows (R241, R247). -/
def State.keepLine (s : State) (core : Nat) (cls : Reuse) (pa : Nat) : State :=
  let s := if cls = .bypass then s else s.fillRdc (coreDie core) (rankOf cls) pa
  if cls = .stream || cls = .bypass then s else s.fillL1 core pa

/-- A line's data moves to a core from its die's RDC or from the home, whose traffic is charged (R247, R252). -/
def State.fetchLine (s : State) (core ctx : Nat) (cls : Reuse) (pa : Nat) : State :=
  if s.rdcHit (coreDie core) pa then s else s.homeTouch ctx (rankOf cls) pa []

/-! ### Writes that enter the L1, and the collector (R245, R246, R295) -/

/-- Where a home slice's order is kept: its die and slice, or its device, whose physical addresses this device does not know
(R295, R399) (log 79, DEDUCED). -/
def Loc.slice : Loc → Nat × Nat
  | .glob pa => (homeDie pa, homeSlice pa)
  | .remote d _ => (4 + d, 0)
  | _ => (0, 0)

def CEnt.at_ (e : CEnt) (l : Loc) : Bool := l.lineOf == some (e.dev, e.line)

/-- How a write goes to memory: a store, a request of a scatter, or an atomic. -/
inductive WKind where | store | scatter | atomic
  deriving DecidableEq, Repr

/-- A write enters the L1: a store closes the collector entries of its line, a scatter those that hold reads (R245, R246). No
later scatter joins an entry that would carry it past this write to the home slice (R295) (log 72, DEDUCED). -/
def Core.meet (c : Core) (l : Loc) (k : WKind) : Core :=
  let one := fun (e : CEnt) =>
    let joins := k = .scatter && e.at_ l && e.write
    let shut := k ≠ .atomic && e.at_ l && !joins
    let behind := e.write && !joins && e.wreqs.any fun o => o.req.loc.slice == l.slice
    { e with closed := e.closed || shut, full := e.full || behind }
  { c with coll := c.coll.map one }

/-- Whether an entry takes requests of a context: a line of another device is named by an address of its context (R399). -/
def CEnt.ofCtx (e : CEnt) (ctx : Nat) : Bool := e.dev.isNone || e.ctx == ctx

/-- A request of a scatter joins the open entry of its line, or opens one (R245). -/
def Core.joinWrite (c : Core) (now ctx : Nat) (o : Outb) : Core := match o.req.loc.lineOf with
  | none => c
  | some (dev, line) =>
    let open' := fun (e : CEnt) => e.at_ o.req.loc && e.ofCtx ctx && e.write && !e.closed && !e.full
    if c.coll.any open' then
      { c with coll := c.coll.map fun (e : CEnt) => if open' e then { e with wreqs := e.wreqs ++ [o] } else e }
    else { c with coll := c.coll ++ [{ line := line, dev := dev, ctx := ctx, write := true, start := now, wreqs := [o] }] }

/-- A read joins the open entry of its line, or opens one (R245, R246). -/
def Core.joinRead (c : Core) (now ctx : Nat) (l : Loc) (f : CEnt → CEnt) : Core := match l.lineOf with
  | none => c
  | some (dev, line) =>
    let open' := fun (e : CEnt) => e.at_ l && e.ofCtx ctx && !e.write && !e.closed
    if c.coll.any open' then { c with coll := c.coll.map fun (e : CEnt) => if open' e then f e else e }
    else { c with coll := c.coll ++ [f { line := line, dev := dev, ctx := ctx, write := false, start := now }] }

/-! ### Store paths (R298) -/

/-- Puts an issue's writes into its store path. -/
def State.enqueue (s : State) (core : Nat) (e : PWrite) : State :=
  if e.reqs.isEmpty then s else s.updCore core fun c => { c with paths := c.paths ++ [e] }

/-- The requests of one issue: one per distinct line, in ascending order of their first lane; scratchpad and constant
writes together; each private write on its own (R279). A first write to a private piece clears the piece
(R234, R260) (log 75, DEDUCED). -/
def mkReqs (b : Block) (ls : List (Who × Loc × List Byte)) (tags : List (Who × Nat)) : List WReq :=
  let bytes := fun (x : Who × Loc × List Byte) => x.2.2.zipIdx.map fun y => (x.1, x.2.1.addr + y.2, y.1)
  let key := fun (x : Who × Loc × List Byte) => match x.2.1 with
    | .glob pa => Loc.glob (pa / 128 * 128)
    | .scratch _ => .scratch 0
    | .const _ => .const 0
    | .remote d va => .remote d (va / 128 * 128)
    | .priv f o pa => .priv f o pa
  let fresh := fun (x : Who × Loc × List Byte) => match x.2.1 with
    | .priv f o _ => (match b.fib? f with
      | some g => if g.priv.contains (o / 64) then [] else (List.range 64).map fun i => (x.1, o / 64 * 64 + i, (0 : Byte))
      | none => [])
    | _ => []
  (distinct (ls.map key)).map fun k =>
    let g := ls.filter fun x => key x == k
    { loc := k, writes := g.flatMap fun x => fresh x ++ bytes x
      tags := tags.filter fun t => g.any fun x => x.1 == t.1 }

/-- Marks the private pieces that stores of fibres touch (R260) (log 75, DEDUCED). -/
def Block.markPriv (b : Block) (ls : List (Who × Loc × List Byte)) : Block :=
  ls.foldl (fun b x => match x.2.1 with
    | .priv f o _ => b.updFib f fun g => if g.priv.contains (o / 64) then g else { g with priv := g.priv ++ [o / 64] }
    | _ => b) b

/-- Sets a scoreboard bit on a register of a party (R276). -/
def Block.setSb (b : Block) (w : Who) (r issue : Nat) : Block := match w with
  | .cox => b.updCox fun c => { c with sb := c.sb ++ [(r, issue)] }
  | .fib fid => b.updFib fid fun f => { f with sb := f.sb ++ [(r, issue)] }

/-- Writes a register under a scoreboard bit and clears the bit (log 24, DEDUCED). -/
def Block.putSb (b : Block) (w : Who) (r issue : Nat) (x : W32) : Block := match w with
  | .cox => b.updCox fun c =>
      if c.sb.contains (r, issue) then { (c.setReg r (x.zeroExtend 64)) with sb := c.sb.filter (· != (r, issue)) } else c
  | .fib fid => b.updFib fid fun f =>
      if f.sb.contains (r, issue) then { (f.setReg r x) with sb := f.sb.filter (· != (r, issue)) } else f

/-- Clears the scoreboard bits of an issue. -/
def Block.dropSb (b : Block) (w : Who) (issue : Nat) : Block := match w with
  | .cox => b.updCox fun c => { c with sb := c.sb.filter fun e => e.2 != issue }
  | .fib fid => b.updFib fid fun f => { f with sb := f.sb.filter fun e => e.2 != issue }

/-! ### What a party has outstanding -/

/-- Closes the collector entries that hold a request of one of the parties (R245). -/
def State.closeColl (s : State) (core slot : Nat) (ws : List Who) : State :=
  let mine := fun (r : Nat × Nat) => s.pends.any fun p =>
    p.issue == r.1 && p.lane == r.2 && p.core == core && p.slot == slot && ws.contains p.who
  let hit := fun (e : CEnt) => e.reqs.any mine || (e.pools.any fun p => p.1 == slot && ws.contains p.2.1) ||
    e.wreqs.any fun o => ws.any fun w => o.of slot w
  s.updCore core fun c => { c with coll := c.coll.map fun (e : CEnt) => if hit e then { e with closed := true } else e }

/-- Parties take an acquire at a scope: their collector entries close (R245), their releases cover what is in their core's order
(R305), and a wide scope discards the L1 (R242). -/
def State.acquireBy (s : State) (core slot : Nat) (ws : List Who) (sc : Scope) : State :=
  ((s.closeColl core slot ws).learn core slot ws).acquire core sc

/-! ### Longer reads and writes -/

/-- An engine command as a reader and writer of memory; fibre identifiers stay below 2^32. -/
def cmdWho (seq : Nat) : Who := .fib (2 ^ 32 + seq)

/-- Whether a reader of memory is a fibre or a cox thread, and so has its reads in its core's order (R298). -/
def Who.isThread : Who → Bool
  | .cox => true
  | .fib n => decide (n < 2 ^ 32)

/-- A range cut at line boundaries: address and length of each piece. -/
def lineSpans (a len : Nat) : List (Nat × Nat) :=
  if len = 0 then []
  else (List.range ((a + len - 1) / 128 + 1 - a / 128)).map fun i =>
    let lo := Nat.max a (128 * (a / 128 + i))
    (lo, Nat.min (a + len) (128 * (a / 128 + i + 1)) - lo)

/-- The pieces of n bytes at an offset of a space, each with its offset in the range, length and translation. A global piece at
2^56 or above fails check 3 of Table 11-2, after the pieces below it (R232). -/
def State.chkRange (s : State) (b : Block) (space off len : Nat) (write : Bool) : List (Nat × Nat × Chk) :=
  if space = 0 then (lineSpans off len).map fun x => (x.1 - off, x.2,
    if 2 ^ 56 ≤ x.1 then .bad { code := 0x07, info := ptrInfo 3 0 } else s.chkGlobal b x.1 write)
  else if space = 1 then [(0, len, .ok (.scratch off) none)]
  else [(0, len, .ok (.const off) none)]

/-- The pieces of a range that has passed the pointer checks. -/
def State.chkSpan (s : State) (b : Block) (p : W64) (len : Nat) (write : Bool) : List (Nat × Nat × Chk) :=
  s.chkRange b (ptrSpace p) (bits p.toNat 55 0) len write

/-- What reading a range gives: a wait on a migrating page, a remote read to ask for, a fault at an offset, or bytes. -/
inductive Got where
  | wait
  | need (dev va n : Nat)
  | bad (f : Flt) (at_ : Nat)
  | ok (x : List Byte)
  deriving DecidableEq, Repr

/-- Reads the pieces of a range in ascending order, once the party's own writes to them have reached the L1 (R298)
(log 68, DEDUCED). -/
def State.getSpan (s : State) (b : Block) (w : Who) : List (Nat × Nat × Chk) → Got
  | [] => .ok []
  | (o, n, c) :: r =>
    let here : Got := match c with
      | .wait => .wait
      | .bad f => .bad f o
      | .ok (.remote d va) _ => match (s.core b.core).rbuf.find? fun x =>
            x.slot == b.slot && x.who == w && x.dev == d && x.va == va && (x.data.length == n || x.bad.isSome) with
        | none => if (s.core b.core).remoteWaits b.slot w s.nextId d va n then .wait else .need d va n
        | some x => match x.bad with
          | some (code, info) => .bad (remoteFlt d va code info) o
          | none => .ok x.data
      | .ok (.glob pa) _ =>
        let c := s.core b.core
        if c.ownAny b.slot w s.nextId (.glob pa) n || (w.isThread && c.halfDone (.glob pa)) || c.mgWaits b.slot w s.nextId pa n then .wait
        else if s.badRead b.core b.slot w s.nextId (.glob pa) pa n false then .bad { code := 0x11 } o
        else .ok (s.readLoc b.core b.slot (s.ctx b.ctx).priv w s.nextId (.glob pa) n false)
      | .ok l _ =>
        if (s.core b.core).ownAny b.slot w s.nextId l n then .wait
        else .ok (s.readLoc b.core b.slot false w s.nextId l n false)
    match here with
    | .ok x => match s.getSpan b w r with
      | .ok y => .ok (x ++ y)
      | g => g
    | g => g

/-- Whether a line of a range waits at its controller: one that the core must fetch (R104, R252). -/
def State.spanHeld (s : State) (b : Block) (cs : List (Nat × Nat × Chk)) : Bool := cs.any fun c => match c.2.2 with
  | .ok (.glob pa) _ => !(s.core b.core).l1All pa c.2.1 && s.readHeld b.core b.ctx pa
  | _ => false

/-- The lines of a range that the core must fetch, once each. -/
def State.spanLines (s : State) (b : Block) (cs : List (Nat × Nat × Chk)) : List Nat := distinct (cs.filterMap fun c =>
  match c.2.2 with
  | .ok (.glob pa) _ => if (s.core b.core).l1All pa c.2.1 then none else some (pa / 128 * 128)
  | _ => none)

/-- The traffic of a party's or an engine's reads of a range: translations kept and lines charged; no copies stay in the L1 or the
RDC (R241, R252, R257), and the party has read what it has read (R305). -/
def State.touch (s : State) (b : Block) (w : Who) (cs : List (Nat × Nat × Chk)) : State :=
  let see := fun (s : State) (c : Nat × Nat × Chk) => match c.2.2 with
    | .ok (.glob pa) _ => s.saw b.core b.slot w pa c.2.1
    | _ => s
  let s1 := cs.foldl (fun s c => match c.2.2 with
    | .ok _ (some va) => (see s c).fill b.core b.ctx va
    | _ => s) s
  (s.spanLines b cs).foldl (fun s pa => s.fetchLine b.core b.ctx .normal pa) s1

/-- The fault or wait of a range that is to be written. -/
def spanBad (cs : List (Nat × Nat × Chk)) : Option (Flt × Nat) := cs.findSome? fun c => match c.2.2 with
  | .bad f => some (f, c.1)
  | _ => none
def spanWaits (cs : List (Nat × Nat × Chk)) : Bool := cs.any fun c => c.2.2 == .wait

/-- The writes of a range, piece by piece. -/
def spanWrites (w : Who) (cs : List (Nat × Nat × Chk)) (x : List Byte) : List (Who × Loc × List Byte) :=
  cs.filterMap fun c => match c.2.2 with
    | .ok l _ => some (w, l, (x.drop c.1).take c.2.1)
    | _ => none

/-! ### Late faults -/

/-- Whether a party can still take a fault: it has not ended, and its context is not being killed (R100). -/
def State.canStop (s : State) (core slot : Nat) (w : Who) : Bool := match s.block? core slot with
  | none => false
  | some b => (s.ctx b.ctx).st != .killing && (match w with
    | .cox => !b.cox.ended
    | .fib fid => (b.fib? fid).isSome)

/-- The long-latency forms of a party's thread that came before an issue and have not completed: a fault of the issue waits for
them (R101). -/
def State.beforeBusy (s : State) (core slot issue : Nat) (w : Who) : Bool := match s.block? core slot with
  | none => false
  | some b =>
    let ws := match w with
      | .cox => b.cox.windows
      | .fib fid => (b.parts.filter fun (p : Part) => p.lanes.any fun x => x.2 == fid).flatMap fun (p : Part) => p.windows
    ws.any fun x => x.issue < issue && s.pendingOn core x.issue

/-- Whether an issue has a lane, a request or an entry of its own still on the way. -/
def State.onTheWay (s : State) (core issue : Nat) : Bool :=
  let c := s.core core
  s.pends.any (fun p => p.issue == issue) || s.outstanding.any (fun o => o.core == core && o.ofIssue issue) ||
  c.paths.any (fun e => e.issue == issue) ||
  (c.coll.any fun e => e.dev.isSome && e.wreqs.any fun o => o.issue == issue) ||
  c.outb.any fun o => o.ofIssue issue && (o.req.atomic.isSome || o.req.loc.far)

/-- A status word (R277) (log 83, DEDUCED). -/
def statusWord (code info side done : Nat) : W32 :=
  BitVec.ofNat 32 (code * 2 ^ 24 + info % 16 * 2 ^ 20 + side * 2 ^ 19 + done)

/-- The CODE and INFO that a fault has in a status word: a pointer fault's reason, or a translation fault's bits. -/
def Flt.status (f : Flt) (side done : Nat) : W32 :=
  statusWord f.code.toNat (if f.code = 7 then f.info.toNat / 16 else f.info.toNat) side done

/-- Whether a pending lane is of a `cst` of an issue (R285). -/
def Pend.cstOf (p : Pend) (core issue : Nat) : Bool := p.core == core && p.issue == issue && match p.kind with
  | .cst _ _ _ => true
  | _ => false

/-- Whether an element request of a `cst` that waits for replies follows another that is not performed yet: the elements are stored
in ascending rank order up to the first that fails (R285, R399). -/
def State.cstWaits (s : State) (core : Nat) (o : Outb) : Bool := s.pends.any (fun p => p.cstOf core o.issue) &&
  ((s.core core).outb.any (fun x => x.issue == o.issue && x.ord < o.ord) || s.outstanding.any fun x => x.core == core && x.issue == o.issue)

/-- Whether every element request of a `cst` has been performed. -/
def State.cstDone (s : State) (core issue : Nat) : Bool :=
  let c := s.core core
  !(c.paths.any fun e => e.issue == issue) && !(c.outb.any fun o => o.issue == issue) &&
    !(s.outstanding.any fun o => o.core == core && o.issue == issue)

/-- The count and status of a `cst` as its lanes get them. -/
def cstData (count : Nat) (st : BitVec 32) : List Byte := leBytes 4 count ++ leBytes 4 st.toNat

/-- An element request of a `cst` has failed on another device: no later element is stored, and the lanes get the rank of the first
element of the request and its fault (R285). -/
def State.cstFail (s : State) (core issue dev va : Nat) (f : Flt) : State :=
  let here := fun (e : Loc × Nat) => match e.1 with
    | .remote d v => d == dev && v / 128 == va / 128
    | _ => false
  let give := fun (p : Pend) => match p.kind with
    | .cst els _ _ => (match els.find? here with
      | some e => { p with data := some (cstData e.2 (f.status 1 0)) }
      | none => p)
    | _ => p
  { s with pends := s.pends.map fun (p : Pend) => if p.cstOf core issue then give p else p }.updCore core fun c =>
    { c with outb := c.outb.filter fun o => o.issue != issue }

/-- The windows of the parts of some parties end (R86). -/
def Block.endWindowsOf (b : Block) (ws : List Who) : Block :=
  { b with
    cox := if ws.contains .cox then { b.cox with windows := endWindows b.cox.windows } else b.cox
    parts := b.parts.map fun (p : Part) =>
      if p.lanes.any fun x => ws.contains (.fib x.2) then { p with windows := endWindows p.windows } else p }

/-- The faults of an issue that met them after it issued are taken, all at once, when the issue has nothing more on the way and
the earlier forms of its parties have completed: the parties stop at the instruction, the scoreboard bits of the issue go, and each
code, or page of a translation fault, has one record (R101, R103, R261, R275, R276, R401) (log 71, DEDUCED). -/
def State.takeStop (s : State) (issue code : Nat) : State :=
  let mine := fun (o : Stop) => o.issue == issue && o.code.toNat == code
  let os := s.stops.filter mine
  match os with
  | [] => s
  | o :: _ =>
    if s.onTheWay o.core issue || os.any fun x => x.ws.any (s.beforeBusy o.core o.slot issue) then s
    else
      let s0 := { s with stops := s.stops.filter fun x => !mine x }
      let fs := os.flatMap fun x => (x.ws.filter (s.canStop o.core o.slot)).map fun w =>
        (w, ({ code := x.code, info := x.info, page := x.page } : Flt))
      match s.block? o.core o.slot, distinct (fs.map fun x => x.1) with
      | some b, w :: rest =>
        let ws := w :: rest
        let prt := match w with
          | .cox => 0
          | .fib fid => ((b.fib? fid).map fun f => f.part).getD 0
        let cur : Cur := { core := o.core, slot := o.slot, th := if w == .cox then .cox else .none, pc := o.pc, prt := prt }
        let s1 := ({ s0 with cur := cur }).updMe fun b => ws.foldl (fun b w => (b.jump w o.pc).dropSb w issue) (b.endWindowsOf ws)
        (s1.deliver 0 (ws.filterMap fun w => fs.find? fun x => x.1 == w)).settleWith o.core o.slot (ws.map Who.fid)
      | _, _ => s0

/-- A fault that a party meets after its issue (R101, R275, R399, R401): it joins the others of its issue and code, and of its page
(R103, R261). -/
def State.lateFault (s : State) (issue core slot : Nat) (ws : List Who) (pc : W64) (f : Flt) : State :=
  let same := fun (o : Stop) => o.issue == issue && o.code == f.code && (f.code != 0x06 || o.page == f.page)
  let s1 := if s.stops.any same then
      { s with stops := s.stops.map fun (o : Stop) => if same o then
          { o with ws := distinct (o.ws ++ ws), info := (({ code := o.code, info := o.info } : Flt).join (f.info.getLsbD 0)).info } else o }
    else { s with stops := s.stops ++
      [{ issue := issue, core := core, slot := slot, pc := pc, code := f.code, info := f.info, page := f.page, ws := ws }] }
  s1.takeStop issue f.code.toNat

/-! ### Returned data (R274) -/

/-- The register writes of a loaded value. -/
def ldWrites (cox : Bool) (sz : LdSz) (d : Nat) (x : List Byte) : List Wr :=
  let n := leNat x
  let w32 : W32 := match sz with
    | .i8 => (BitVec.ofNat 8 n).signExtend 32
    | .i16 => (BitVec.ofNat 16 n).signExtend 32
    | _ => BitVec.ofNat 32 n
  let w64 : W64 := match sz with
    | .i8 => (BitVec.ofNat 8 n).signExtend 64
    | .i16 => (BitVec.ofNat 16 n).signExtend 64
    | _ => BitVec.ofNat 64 n
  if cox then [.s d w64]
  else match sz with
  | .b64 => [.v d (BitVec.ofNat 32 n), .v (d + 1) (BitVec.ofNat 32 (n / 2 ^ 32))]
  | .b128 => (List.range 4).map fun i => .v (d + i) (BitVec.ofNat 32 (n / 2 ^ (32 * i)))
  | _ => [.v d w32]

def ldBytes : LdSz → Nat
  | .n8 => 1
  | .i8 => 1
  | .n16 => 2
  | .i16 => 2
  | .b32 => 4
  | .b64 => 8
  | .b128 => 16

def stBytes : StSz → Nat
  | .b8 => 1
  | .b16 => 2
  | .b32 => 4
  | .b64 => 8
  | .b128 => 16

/-- The bytes that a store takes from its register (R274). -/
def View.stData (v : View) (sz : StSz) (b : RegNo) : List Byte := match sz with
  | .b64 => leBytes 8 (v.r64 b).toNat
  | .b128 => (List.range 4).flatMap fun i => leBytes 4 (v.r32 (b + BitVec.ofNat 8 i)).toNat
  | _ => leBytes (stBytes sz) (v.r32 b).toNat

/-- The old value of an atomic in its register: an S register takes it sign-extended under `.i32` (R288, R212). -/
def atWrites (cox : Bool) (ty : IntTy) (d : Nat) (x : List Byte) : List Wr :=
  let n := leNat x
  if cox then
    [.s d (if ty = .i32 then (BitVec.ofNat 32 n).signExtend 64 else BitVec.ofNat 64 n)]
  else if ty.is64 then [.v d (BitVec.ofNat 32 n), .v (d + 1) (BitVec.ofNat 32 (n / 2 ^ 32))]
  else [.v d (BitVec.ofNat 32 n)]

end Sys2Proof.Machine
end

