-- ==== Sys2Proof/Machine/Port.lean ====
section
/-! DEFINITION. Renlor ports, flits and request tags (R394–R400): how a request leaves the device. -/

namespace Sys2Proof.Machine

open Sys2Proof

def State.port (s : State) (n : Nat) : Port := (s.ports[n]?).getD {}
def State.updPort (s : State) (n : Nat) (f : Port → Port) : State := { s with ports := s.ports.modify n f }

/-- The L-die of a port (R7, R394): Renlor ports 0–8 and Ultra Ethernet ports 18–21 lie on L-die 0. -/
def portLdie (n : Nat) : Nat := if n < 18 then n / 9 else (n - 18) / 4

/-- The trunk of a Renlor port and its rail there: trunk t attaches to switch plane t, and a plane forwards a flit to the same
rail of its destination (R394). -/
def trunkOf (p : Nat) : Nat := p / 3
def railOf (p : Nat) : Nat := p % 3

/-- The 12-byte header of a flit (Table 23-1). -/
def flitHeader (f : Flit) : BitVec 96 :=
  f.seq ++ f.ack ++ f.type ++ f.dst ++ f.src ++ f.tag ++ f.sld ++ (0 : BitVec 7) ++ f.ctx ++ (0 : BitVec 26)

/-- One bit of the CRC-32 of polynomial 0x04C1_1DB7, and one byte of it, its high bit first (R395). -/
def crcBit (c : BitVec 32) : BitVec 32 := if c.msb then (c <<< 1) ^^^ 0x04C11DB7 else c <<< 1
def crcByte (c : BitVec 32) (b : Byte) : BitVec 32 := Nat.repeat crcBit 8 (c ^^^ (b.zeroExtend 32 <<< 24))

/-- The CRC-32 of bytes. R395 gives the polynomial only: it starts at all ones and is complemented at the end, as Ethernet's is, and
takes a byte's high bit first (log 124, PRESUMED). -/
def crc32 (x : List Byte) : BitVec 32 := ~~~(x.foldl crcByte 0xFFFFFFFF)

/-- The 12 bytes of a flit's header, lowest first (log 124, PRESUMED), and its 144 bytes on the wire (R395). -/
def headerBytes (f : Flit) : List Byte := leBytes 12 (flitHeader f).toNat
def wireBytes (f : Flit) : List Byte := headerBytes f ++ f.payload ++ leBytes 4 f.crc.toNat

/-- A flit with the CRC of its header and payload. -/
def sealFlit (f : Flit) : Flit := { f with crc := crc32 (headerBytes f ++ f.payload) }

/-- Whether a flit that arrives is whole: 128 bytes of payload, a CRC that holds and a TYPE that is not reserved (R395). -/
def flitGood (f : Flit) : Bool := f.payload.length = 128 && f.crc == (sealFlit f).crc && f.type.toNat < 7

/-- The port to a device for a first choice q: q itself, or the next Renlor port, in ascending order with wrapping, that is
UP and on which no plane has reported the device unreachable (R398) (log 92, DEDUCED). -/
def State.pickPort (s : State) (dev q : Nat) : Option Nat :=
  ((List.range 18).map fun i => (q + i) % 18).find? fun p =>
    (s.port p).st = .up && !(s.port p).closing && !s.unreach.contains (dev, p)

/-- The first choice for a request to offset x of device d. R398 takes bits 12:7 of the physical offset, which the issuer does not
translate (R399): x is the offset of the remote address, which can differ from it in bit 12 (log 125, DESIGN CHOICE). -/
def firstPort (d x : Nat) : Nat := (d + bits x 12 7) % 18

/-- Whether a flit can be sent on a port for a context: the replay buffer has room and `.flit` is not held
(R104, R396). -/
def State.canSend (s : State) (ctx p : Nat) : Bool :=
  (s.port p).buf.length < 2048 && !s.held ctx (4 + portLdie p) .flit

/-- Sends one flit: it takes the next link sequence number and stays in the replay buffer (R395, R396). `sld` is the
source L-die that it names (log 14, DESIGN CHOICE). -/
def State.putFlit (s : State) (p type dst tag sld ctx : Nat) : State :=
  let sq := (s.port p).seq + 1
  let f : Flit :=
    { seq := sq, ack := (s.port p).ack, type := BitVec.ofNat 4 type, dst := BitVec.ofNat 10 dst, src := s.devNum
      tag := BitVec.ofNat 8 tag, sld := BitVec.ofNat 1 sld, ctx := BitVec.ofNat 6 ctx
      payload := (List.range 128).map (Config.payload s.tick), crc := 0 }
  let f := sealFlit f
  { s with sent := s.sent ++ [Sent.flit p f] }.updPort p fun x => { x with seq := sq, buf := x.buf ++ [f] }

/-- Whether a flit to a device stands unacknowledged on an L-die, or a flit or request that must go again. -/
def State.awaits (s : State) (dev l : Nat) : Bool :=
  ((List.range 18).any fun p => portLdie p == l && (s.port p).buf.any fun f => f.dst.toNat == dev) ||
    (s.strays.any fun f => f.dst.toNat == dev && f.sld.toNat == l) ||
    s.outstanding.any fun o => o.dev == dev && o.ldie == l && o.again

/-- Sets the cycle of an L-die's link-control clock from which no flit to a device has been acknowledged there, or ends that
wait (R398). -/
def State.setQuiet (s : State) (dev l : Nat) (on : Bool) : State :=
  let now := if on then [(dev, l, (s.ldie l).cyc.toNat)] else []
  { s with quiet := (s.quiet.filter fun q => !(q.1 == dev && q.2.1 == l)) ++ now }

/-- Sends one flit of a context, which it is charged for (R104) (log 92, DEDUCED). The wait for an acknowledgement from its
destination begins with the first (R398). -/
def State.sendFlit (s : State) (p type dst tag sld ctx : Nat) : State :=
  let l := portLdie p
  let s1 := if s.awaits dst l && s.quiet.any fun q => q.1 == dst && q.2.1 == l then s else s.setQuiet dst l true
  (s1.putFlit p type dst tag sld ctx).charge ctx (4 + l) BClass.flit 1

/-- The lowest tag of an L-die with no request outstanding (R400). -/
def State.freeTag (s : State) (l : Nat) : Option Nat :=
  (List.range 256).find? fun t => !(s.outstanding.any fun o => o.ldie == l && o.tag == t)

/-- Whether a request to a destination that goes again has no reply yet (R398). -/
def State.affected (s : State) (dev : Nat) : Bool := s.outstanding.any fun x => x.dev == dev && (x.resent || x.again)

/-- Sends a request in flits of a type, with a first choice of port, when a port, a tag and the budget allow and no resent
request to its destination waits (R398, R400). -/
def State.askVia (s : State) (q type : Nat) (o : Outstanding) : Option State :=
  if s.affected o.dev then none
  else match s.pickPort o.dev q with
  | none => none
  | some p =>
    if !s.canSend o.ctx p then none
    else match s.freeTag (portLdie p) with
    | none => none
    | some t =>
      let o := { o with ldie := portLdie p, tag := t, port := p }
      some ({ s.sendFlit p type o.dev t (portLdie p) o.ctx with outstanding := s.outstanding ++ [o] })

/-- Sends a remote request on the port of its line (R398). -/
def State.ask (s : State) (o : Outstanding) : Option State := s.askVia (firstPort o.dev o.va) 1 o

/-- Asks another device for what an instruction of a party, or a command, uses when it next tries (R399). -/
def State.askOp (s : State) (b : Block) (w : Who) (dev va : Nat) (op : RemoteOp) (sys : Bool := false) : State :=
  if s.outstanding.any fun x => x.buf && x.core == b.core && x.slot == b.slot && x.parties.contains w then s
  else
    let o : Outstanding :=
      { ldie := 0, tag := 0, dev := dev, va := va, ctx := b.ctx, core := b.core, slot := b.slot, issue := 0, pc := s.cur.pc
        parties := [w], lane := 0, op := op, buf := true, sys := sys }
    (s.ask o).getD s

/-- Asks for remote bytes; for a block of code, which needs the X right; or whether a place has the W right, by a write of no
bytes (R117). -/
def State.askRead (s : State) (b : Block) (w : Who) (dev va n : Nat) : State := s.askOp b w dev va (.read n)
def State.askCode (s : State) (b : Block) (w : Who) (dev va : Nat) : State := s.askOp b w dev va .fetch
def State.askRight (s : State) (b : Block) (w : Who) (dev va : Nat) : State := s.askOp b w dev va (.write [])

/-- Forgets the remote bytes that a command has used. -/
def State.dropBuf (s : State) (core : Nat) (w : Who) : State :=
  s.updCore core fun c => { c with rbuf := c.rbuf.filter fun x => x.who != w }

end Sys2Proof.Machine
end

