-- ==== Sys2Proof/Machine/Memory.lean ====
section
/-! DEFINITION. Synchronous memory, class 0x6 (R274–R279), and the events that perform accesses: a store path entry
entering its L1 (R295, R298), home-slice writes and atomics (R76, R77, R279, R287), and the return of data (R276). -/

namespace Sys2Proof.Machine

open Sys2Proof

/-! ### Issuing loads and stores -/

/-- Completes the issue of a checked access: the faulting lanes are delivered, the others go on. -/
def State.access (s : State) (h : Hd) (cs : List (Nat × Who × Chk)) (act : State → State) : State :=
  let tr := chkFaults cs
  if chkWaits cs || (!tr.isEmpty && s.busy) then s
  else
    let s1 := act (s.account h (!tr.isEmpty))
    ((s1.advance (s.issuers.filter fun w => !(tr.any fun t => t.1 == w))).deliver 0 tr).tidy

/-- The checks of every active party on its own address (R275). -/
def State.chkEach (s : State) (h : Hd) (f : Block → Nat → Who → View → Chk) : List (Nat × Who × Chk) := match s.me with
  | none => []
  | some b => (s.views h).map fun x => (x.1, x.2.1, f b x.1 x.2.1 x.2.2)

def View.spaces (v : View) : List Nat := spacesOf v.isCox

/-- Whether a place is in global memory, of this device or another. -/
def Loc.isGlobal : Loc → Bool
  | .glob _ => true
  | .remote _ _ => true
  | _ => false

/-- A load or gather: each good lane's read is pending until it returns; global lanes of a gather go through the collector
(R245, R276, R284). An acquire closes the parties' collector requests. -/
def State.load (s : State) (h : Hd) (cs : List (Nat × Who × Chk)) (sz : LdSz) (d : RegNo) (acq : Option Scope)
    (reuse : Option Reuse) : Res := match s.me with
  | none => .next s
  | some b =>
    let id := s.nextId
    let pend := fun (x : Nat × Who × Loc) => ({
      issue := id, lane := x.1, core := b.core, slot := b.slot, who := x.2.1, dst := d.toNat, pc := s.cur.pc
      kind := .load x.2.2 sz acq reuse (reuse.isSome && x.2.2.isGlobal) } : Pend)
    let act := fun (s : State) =>
      let s := s.fillAll b cs
      let s := if acq.isSome then s.closeColl b.core b.slot s.issuers else s
      { s with pends := s.pends ++ (chkLocs cs).map pend }
    .next (s.access h cs act)

/-- A store or scatter: the bytes of the good lanes enter the store path of their parties (R275, R279). `tag` asks for
sequence numbers. -/
def State.store (s : State) (h : Hd) (cs : List (Nat × Who × Chk)) (data : Who → List Byte) (rel : Option Scope)
    (tag : Option RegNo) (coll : Bool) : Res := match s.me with
  | none => .next s
  | some b =>
    let id := s.nextId
    let ls := (chkLocs cs).map fun x => (x.2.1, x.2.2, data x.2.1)
    let tags := match tag with
      | some d => ls.map fun x => (x.1, d.toNat)
      | none => []
    let path := match ls with
      | x :: _ => b.pathOf x.1
      | [] => 0
    let e : PWrite :=
      { issue := id, slot := b.slot, path := path, parties := ls.map (·.1), pc := s.cur.pc, rel := rel, coll := coll
        reqs := mkReqs b ls tags }
    let act := fun (s : State) =>
      let s := (s.fillAll b cs).updMe fun b => (b.markPriv ls)
      let s := s.updMe fun b => tags.foldl (fun b t => b.setSb t.1 t.2 id) b
      s.enqueue b.core e
    .next (s.access h cs act)

def execLd (h : Hd) (acq : Option Scope) (sz : LdSz) (d a : RegNo) (disp : Disp) (s : State) : Res :=
  s.load h (s.chkEach h fun b _ w v => s.chk b w v.spaces (v.r64 a) (dispVal disp) (ldBytes sz) false) sz d acq none

/-- The data that each party stores. -/
def State.dataOf (s : State) (h : Hd) (sz : StSz) (b : RegNo) (w : Who) : List Byte :=
  match (s.views h).find? fun x => x.2.1 == w with
  | some x => x.2.2.stData sz b
  | none => []

def execSt (h : Hd) (rel : Option Scope) (sz : StSz) (a b : RegNo) (disp : Disp) (s : State) : Res :=
  s.store h (s.chkEach h fun k _ w v => s.chk k w v.spaces (v.r64 a) (dispVal disp) (stBytes sz) true)
    (s.dataOf h sz b) rel none false

def execStTag (h : Hd) (rel : Option Scope) (sz : StSz) (d a b : RegNo) (disp : Disp) (s : State) : Res :=
  s.store h (s.chkEach h fun k _ w v => s.chk k w v.spaces (v.r64 a) (dispVal disp) (stBytes sz) true)
    (s.dataOf h sz b) rel (some d) false

/-- `ldc` (R278): the base is an offset in constant space. -/
def execLdc (h : Hd) (sz : LdSz) (d a : RegNo) (disp : Disp) (s : State) : Res :=
  s.load h (s.chkEach h fun b _ w v =>
    s.chk b w [2] (BitVec.ofNat 64 (2 * 2 ^ 60 + (v.r32 a).toNat)) (dispVal disp) (ldBytes sz) false) sz d none none

/-! ### A store path entry enters the L1 (R295, R298) -/

/-- Whether an earlier read of one of the parties has not been performed: a release waits for it (R298) (log 68, DEDUCED). -/
def State.readsBefore (s : State) (core slot issue : Nat) (ws : List Who) : Bool :=
  s.pends.any fun p => p.core == core && p.slot == slot && p.issue < issue && p.data.isNone && ws.contains p.who

/-- Whether an earlier read of one of the parties has no place in the core's order yet, or a `fence.ack` has gone by since:
every write waits for it (R298, R300). -/
def State.readsUnsent (s : State) (core slot issue : Nat) (ws : List Who) : Bool :=
  s.pends.any fun p => p.core == core && p.slot == slot && p.issue < issue && p.data.isNone &&
    (!p.sent || p.acked) && ws.contains p.who

/-- The line of global memory that a pending load reads. -/
def Pend.line (p : Pend) : Option Nat := match p.kind with
  | .load (.glob pa) _ _ _ _ => some (pa / 128)
  | _ => none

/-- The line of global memory that a request writes. -/
def WReq.line (r : WReq) : Option Nat := match r.loc with
  | .glob pa => some (pa / 128)
  | _ => none

/-- Whether a request of the core has left for one of these lines and its data is still to come: the core's own writes to
the line wait, so that the data is what stood before them in the core's order (R298). -/
def State.sentTo (s : State) (core : Nat) (reqs : List WReq) : Bool :=
  s.pends.any fun p => p.core == core && p.sent && p.data.isNone && reqs.any fun r => r.line.isSome && r.line == p.line

/-- The context of a resident block. -/
def State.ctxAt (s : State) (core slot : Nat) : Nat := match s.block? core slot with
  | some b => b.ctx
  | none => 0

/-- Performs a scratchpad or constant write in the core's storage, or a private write in the fibre's memory (R260). -/
def State.storeLocal (s : State) (core slot : Nat) (r : WReq) : State := match r.loc with
  | .scratch _ => s.updBlock core slot fun b => { b with scratch := b.scratch.setAll (r.writes.map (·.2)) }
  | .const _ => s.updBlock core slot fun b => { b with const := b.const.setAll (r.writes.map (·.2)) }
  | .priv _ o pa => match pa with
    | some p =>
      let ws := r.writes.map fun w => (p + w.2.1 - o, w.2.2)
      let t := s.chargeWrite (s.ctxAt core slot) p ws
      { t with mem := t.mem.setAll ws }
    | none => s
  | _ => s

/-- Gives the tag registers of a request its sequence number; bytes with no home slice give 0 (R279). -/
def State.giveTags (s : State) (core slot issue : Nat) (tags : List (Who × Nat)) (n : BitVec 16) : State :=
  s.updBlock core slot fun b => tags.foldl (fun b t => b.putSb t.1 t.2 issue (n.zeroExtend 32)) b

/-- The value of an atomic operation on the bits of its type (R76, R289). -/
def atOp (op : AtOp) (ty : IntTy) (x y : Nat) : Nat := match op with
  | .add => tyBitsOf ty ((x : Int) + y)
  | .min => if tyVal ty y < tyVal ty x then y else x
  | .max => if tyVal ty x < tyVal ty y then y else x
  | .and => x &&& y
  | .or => x ||| y
  | .xor => x ^^^ y
  | .exch => y
  | .fadd => Fmt.f32.add .rne x y
  | .fmin n => Fmt.f32.minMax false n x y
  | .fmax n => Fmt.f32.minMax true n x y
  | .cas => x
  | .embsw _ => x

/-- What an aggregated atomic does to an old value: whether it writes, the new value, and each lane's old value. A
`cas` goes lane by lane; any other op combines its operands first (R76, R289). -/
def atApply (op : AtOp) (ty : IntTy) (old : Nat) (ops : List (W64 × W64)) : Bool × Nat × List Nat :=
  let m := 2 ^ tyWidth ty
  let vs := ops.map fun o => o.1.toNat % m
  match op with
  | .cas => ops.foldl (fun (r : Bool × Nat × List Nat) o =>
      let hit := r.2.1 == o.1.toNat % m
      (r.1 || hit, if hit then o.2.toNat % m else r.2.1, r.2.2 ++ [r.2.1])) (false, old, [])
  | _ => match vs with
    | [] => (false, old, [])
    | v :: r =>
      let c := r.foldl (atOp op ty) v
      let olds := vs.foldl (fun (a : Nat × List Nat) x => (atOp op ty a.1 x, a.2 ++ [a.1])) (old, [])
      (true, atOp op ty old c, olds.2)

/-- Gives the lanes of a returning atomic their old values (R76). -/
def State.giveOlds (s : State) (core slot issue : Nat) (lanes : List AtLane) (n : Nat) (olds : List Nat) : State :=
  let f := fun (p : Pend) =>
    if p.issue == issue && p.core == core && p.slot == slot then
      match (lanes.zip olds).find? fun x => x.1.lane == p.lane && x.1.who == p.who with
      | some x => { p with data := some (leBytes n x.2) }
      | none => p
    else p
  { s with pends := s.pends.map f }

/-- An atomic on the block's scratchpad, indivisible in the core's storage. -/
def State.atomLocal (s : State) (core slot issue : Nat) (o : Nat) (a : AtReq) : State := match s.block? core slot with
  | none => s
  | some b =>
    let n := if a.ty.is64 then 8 else 4
    let r := atApply a.op a.ty (leNat (b.scratch.read o n)) (a.lanes.map fun x => (x.b, x.c))
    let s := if r.1 then s.updBlock core slot fun b => { b with scratch := b.scratch.write o (leBytes n r.2.1) } else s
    let s := match a.acq with
      | some sc => s.acquireBy core slot (a.lanes.map fun (x : AtLane) => x.who) sc
      | none => s
    s.giveOlds core slot issue a.lanes n r.2.2

/-- Puts the writes of one request in the core's order: storage at once; a line of global memory updates the L1 copies and waits
for its home slice, a scatter's in the collector (R241, R245, R246, R284, R295). -/
def State.enterL1 (s : State) (core : Nat) (e : PWrite) (r : WReq) : State :=
  let o : Outb := { issue := e.issue, slot := e.slot, path := e.path, parties := distinct (r.writes.map (·.1)), pc := e.pc, req := r
                    ord := s.nextId }
  let now := (s.cdie (coreDie core)).cyc.toNat
  let go := fun (f : Core → Core) => ({ s with nextId := s.nextId + 1 }).updCore core f
  match r.loc, r.atomic with
  | .scratch off, some a => s.atomLocal core e.slot e.issue off a
  | _, some a =>
    let o : Outb := { o with parties := a.lanes.map fun (x : AtLane) => x.who }
    go fun c => { c.meet r.loc .atomic with outb := c.outb ++ [o] }
  | _, none =>
    if r.loc.isGlobal then
      let see := fun (c : Core) => if r.loc.far then c else c.see (r.writes.map (·.2))
      if e.coll then go fun c => ((see c).meet r.loc .scatter).joinWrite now (s.ctxAt core e.slot) o
      else go fun c => { (see c).meet r.loc .store with outb := c.outb ++ [o] }
    else (s.storeLocal core e.slot r).giveTags core e.slot e.issue r.tags 0

/-- Whether private writes of an entry wait at a controller whose class is held (R104). -/
def State.privHeld (s : State) (core : Nat) (e : PWrite) : Bool := e.reqs.any fun r => match r.loc with
  | .priv _ _ (some pa) => s.lineHeld (s.ctxAt core e.slot) pa
  | _ => false

/-- Whether an entry may leave its path: its parties' earlier reads have their place in the core's order, and for a release
they are performed; no request for its lines is out; a wide release finds its parties' earlier writes acknowledged;
no atomic of the path is still on its way, and no private write is held (R104, R298, R312) (log 68, DEDUCED). -/
def State.mayDrain (s : State) (core : Nat) (e : PWrite) : Bool :=
  let c := s.core core
  !s.privHeld core e &&
  !s.readsUnsent core e.slot e.issue e.parties && !s.sentTo core e.reqs &&
  (match e.rel with
    | some sc => !s.readsBefore core e.slot e.issue e.parties && (!wide sc || e.parties.all fun w => s.outClear core e.slot w)
    | none => true) &&
  !(c.outb.any fun o => o.slot == e.slot && o.path == e.path && o.req.atomic.isSome) &&
  !(s.outstanding.any fun o => o.core == core && o.slot == e.slot && !o.lanes.isEmpty && o.parties.any e.parties.contains)

/-- Marks the other atomics of an issue of which one has been performed (R298). -/
def Core.markBegun (c : Core) (issue : Nat) : Core :=
  { c with outb := c.outb.map fun (o : Outb) => if o.issue == issue && o.req.atomic.isSome then { o with begun := true } else o }

/-- Whether an entry holds an atomic that the core's storage performs. -/
def PWrite.atomHere (e : PWrite) : Bool := e.reqs.any fun r => r.atomic.isSome && !r.loc.isGlobal

/-- The oldest entry of a store path enters the core's order; an atomic of it that the core performs begins the others (R298). -/
def State.drainPath (s : State) (core path : Nat) : State :=
  match (s.core core).paths.find? fun e => e.path == path with
  | none => s
  | some e =>
    if !s.mayDrain core e then s
    else
      let s1 := s.updCore core fun c => { c with paths := c.paths.filter fun x => x.issue != e.issue }
      let s2 := e.reqs.foldl (fun s r => s.enterL1 core e r) s1
      if e.atomHere then s2.updCore core fun c => c.markBegun e.issue else s2

/-! ### Home slices -/

def State.privAt (s : State) (core slot : Nat) : Bool := (s.ctx (s.ctxAt core slot)).priv

/-- A write waits for the earlier writes of its core to the same home slice, those in the collector too, and a copy sector for the
lower sectors of its copy (R280, R295). -/
def Core.ready (c : Core) (k : Nat) : Bool := match c.outb[k]? with
  | none => false
  | some o => !(c.onWay.any fun x => x.ord < o.ord &&
      (x.req.loc.slice == o.req.loc.slice || (x.eng && o.eng && x.issue == o.issue)))

/-- Removes the k-th outbound request. -/
def Core.dropOut (c : Core) (k : Nat) : Core := { c with outb := c.outb.eraseIdx k }

/-- The remote request that an outbound write makes (R399). -/
def Outb.ask (o : Outb) (core ctx dev va : Nat) : Outstanding :=
  let base : Outstanding :=
    { ldie := 0, tag := 0, dev := dev, va := va, ctx := ctx, core := core, slot := o.slot, issue := o.issue, pc := o.pc
      parties := o.parties, lane := 0, op := .write (o.req.writes.map (·.2)), tags := o.req.tags, also := o.also }
  match o.req.atomic with
  | some a => { base with op := .atomic a.op a.ty (a.lanes.map fun x => (x.b, x.c)), lanes := a.lanes, acq := a.acq }
  | none => base

/-- A home slice performs the write that stands k-th in a core's order, and acknowledges it (R279, R295), which wakes the core of a
party's write as any memory reply does (R109) (log 10, DEDUCED); a write to another device leaves as a request (R399). -/
def execHomeSliceWrite (core k : Nat) (s : State) : Res :=
  let c := s.core core
  match c.outb[k]? with
  | none => .next s
  | some o =>
    let ctx := s.ctxAt core o.slot
    if !c.ready k || s.cstWaits core o then .next s
    else match o.req.loc, o.req.atomic with
    | .remote dev va, _ => match s.ask (o.ask core ctx dev va) with
      | some t => .next (t.updCore core fun c => if o.req.atomic.isSome then (c.dropOut k).markBegun o.issue else c.dropOut k)
      | none => .next s
    | .glob pa, none =>
      if s.lineHeld ctx pa then .next s
      else
        let r := (s.chargeWrite ctx pa (o.req.writes.map (·.2))).homeWrite (s.privAt core o.slot) (pa / 128 * 128) o.req.writes
        let t := (r.1.updCore core fun c => c.dropOut k).giveTags core o.slot o.issue o.req.tags r.2
        .next (if o.eng then t else t.rouse core 1 0)
    | _, _ => .next s

/-- The version switch at a record's home (R287): the sector is written only as the next version; the old VERSION
returns. -/
def State.homeSwitch (s : State) (pa : Nat) (sector : List Byte) : State × Nat :=
  let old := leNat (s.mem.read (pa + 8) 4)
  let new := leNat ((sector.drop 8).take 4)
  if (old + 1) % 2 ^ 32 = new then (s.homePut pa sector, old) else (s, old)

/-- An atomic at its home slice, on memory (R76, R77): the new state and the lanes' old values. A `cas` that fails
everywhere is no write (R279). -/
def State.homeAtomic (s : State) (pa : Nat) (op : AtOp) (ty : IntTy) (ops : List (W64 × W64)) : State × List Nat :=
  match op with
  | .embsw sec =>
    let r := s.homeSwitch pa sec
    (r.1, ops.map fun _ => r.2)
  | _ =>
    let n := if ty.is64 then 8 else 4
    let r := atApply op ty (leNat (if isMg pa then List.replicate n 0 else s.mem.read pa n)) ops
    (if r.1 && !isMg pa then s.homePut pa (leBytes n r.2.1) else s, r.2.2)

/-- A home slice applies one combined atomic (R77, R287): the core's own L1 copies of the line go, a wide acquire
discards the L1, and the lanes' old values return (log 74, DEDUCED). -/
def execHomeSliceAtomic (core k : Nat) (s : State) : Res :=
  let c := s.core core
  match c.outb[k]? with
  | none => .next s
  | some o =>
    let ctx := s.ctxAt core o.slot
    match o.req.loc, o.req.atomic with
    | .glob pa, some a =>
      if !c.ready k || s.lineHeld ctx pa then .next s
      else
        let n := if a.ty.is64 then 8 else 4
        if s.bad pa n then
          let s1 := (s.updCore core fun c => c.dropOut k)
          let s2 := { s1 with pends := s1.pends.filter fun p => !(p.issue == o.issue && a.lanes.any fun l => l.who == p.who) }
          .next (s2.lateFault o.issue core o.slot (a.lanes.map fun (x : AtLane) => x.who) o.pc { code := 0x11 })
        else
          let r := (s.chargeWrite ctx pa [(pa, 0)]).homeAtomic pa a.op a.ty (a.lanes.map fun x => (x.b, x.c))
          let s1 := r.1.updCore core fun c =>
            { (c.dropOut k).markBegun o.issue with
              l1 := c.l1.filter (fun x => x.1 / 8 != pa / 128), scale := c.scale.filter fun x => x.1 / 128 != pa / 128 }
          let s2 := match a.acq with
            | some sc => s1.acquireBy core o.slot (a.lanes.map fun (x : AtLane) => x.who) sc
            | none => s1
          .next ((if a.ret then s2.giveOlds core o.slot o.issue a.lanes n r.2 else s2).rouse core 1 0)
    | _, _ => .next s

/-! ### The return of data (R276) -/

/-- Whether a load meets own writes of its party that have not reached the L1 and is not made of them alone (R298). -/
def State.ownPart (s : State) (p : Pend) : Bool := match p.kind with
  | .load l sz _ _ _ =>
    let c := s.core p.core
    c.ownAny p.slot p.who p.issue l (ldBytes sz) && !c.ownAll p.slot p.who p.issue l (ldBytes sz)
  | _ => false

/-- Whether a party's earlier accesses let a read be performed: earlier reads come first, earlier atomics too, and a write
that an earlier read has already returned; an acquire waits for its party's earlier writes, and a load for those that it
meets in part (R298) (log 68, DEDUCED). -/
def State.mayRead (s : State) (p : Pend) (acq : Bool) : Bool :=
  let c := s.core p.core
  let atom := fun (r : WReq) => r.atomic.isSome
  !s.readsBefore p.core p.slot p.issue [p.who] &&
  !(c.paths.any fun e => e.slot == p.slot && e.issue < p.issue && e.parties.contains p.who && (acq || e.fwd || e.reqs.any atom)) &&
  !(c.outb.any fun o => o.slot == p.slot && o.issue < p.issue && o.parties.contains p.who && atom o.req) &&
  !s.ownPart p

/-- Marks the writes of a store path that a load of their party has read there: the party's later reads come after them
(R298) (log 68, DEDUCED). -/
def State.markOwn (s : State) (p : Pend) (l : Loc) (n : Nat) : State :=
  let met := fun (r : WReq) => (List.range n).any fun i => (r.byteOf p.who l (l.addr + i)).isSome
  if (s.core p.core).paths.any fun e => e.slot == p.slot && e.issue < p.issue && e.reqs.any met then
    s.updCore p.core fun c => { c with paths := c.paths.map fun (e : PWrite) =>
      if e.slot == p.slot && e.issue < p.issue && e.reqs.any met then { e with fwd := true } else e }
  else s

def samePend (p q : Pend) : Bool := p.issue == q.issue && p.lane == q.lane && p.core == q.core && p.slot == q.slot

def State.setData (s : State) (p : Pend) (x : List Byte) : State :=
  { s with pends := s.pends.map fun q => if samePend p q then { q with data := some x } else q }

def State.dropPend (s : State) (p : Pend) : State := { s with pends := s.pends.filter fun q => !samePend p q }

/-- Whether two lanes of one issue name a common 8-byte scratchpad word, or a common 16-byte chunk of constant space: they share
one read (R236, R239). -/
def sharesRead (p q : Pend) : Bool :=
  let meet := fun (u a m b n : Nat) => a / u ≤ (b + n - 1) / u && b / u ≤ (a + m - 1) / u
  match p.kind, q.kind with
  | .load (.scratch a) sz _ _ _, .load (.scratch b) tz _ _ _ => meet 8 a (ldBytes sz) b (ldBytes tz)
  | .load (.const a) sz _ _ _, .load (.const b) tz _ _ _ => meet 16 a (ldBytes sz) b (ldBytes tz)
  | _, _ => false

/-- The lanes of an issue that are read with some of its lanes. -/
def growReads (all : List Pend) : Nat → List Pend → List Pend
  | 0, g => g
  | n + 1, g => growReads all n (g ++ all.filter fun q => !g.contains q && g.any fun p => sharesRead p q)

/-- The lanes of its issue that a lane in its core's storage is read with. -/
def State.readGroup (s : State) (p : Pend) : List Pend :=
  let all := s.pends.filter fun q => q.issue == p.issue && q.core == p.core && q.slot == p.slot && q.data.isNone
  growReads all all.length [p]

/-- An acquire read has been performed: its party takes the acquire. -/
def State.gotAcq (s : State) (p : Pend) (acq : Option Scope) : State := match acq with
  | some sc => s.acquireBy p.core p.slot [p.who] sc
  | none => s

/-- Reads one lane's data now, with the lanes that share its read. A wide acquire reads past the L1 and discards it; a read of the
home is charged and may leave copies; bad data stops the lane (R236, R239, R242, R252, R401) (log 69, DEDUCED). -/
def State.performLoad (s : State) (p : Pend) : State := match p.kind with
  | .load l sz acq reuse _ =>
    let n := ldBytes sz
    let cls := reuse.getD .normal
    let ctx := s.ctxAt p.core p.slot
    let far := match acq with
      | some sc => wide sc
      | none => false
    if !s.mayRead p acq.isSome then s
    else match l with
    | .remote dev va =>
      let o : Outstanding :=
        { ldie := 0, tag := 0, dev := dev, va := va, ctx := ctx, core := p.core, slot := p.slot, issue := p.issue, pc := p.pc
          parties := [p.who], lane := p.lane, op := .read n, acq := acq }
      if (s.core p.core).remoteWaits p.slot p.who p.issue dev va n then s
      else if s.outstanding.any fun x => x.issue == p.issue && x.core == p.core && x.lane == p.lane then s
      else (s.ask o).getD s
    | .glob pa =>
      let c := s.core p.core
      let hit := (c.l1Chunk pa).isSome && !far
      if c.halfDone l || c.mgWaits p.slot p.who p.issue pa n || (!hit && s.readHeld p.core ctx pa) then s
      else if s.badRead p.core p.slot p.who p.issue l pa n far then
        (s.dropPend p).lateFault p.issue p.core p.slot [p.who] p.pc { code := 0x11 }
      else
        let s := (s.gotAcq p acq).saw p.core p.slot p.who pa n
        let x := s.readLoc p.core p.slot (s.privAt p.core p.slot) p.who p.issue l n far
        ((if hit then s else (s.fetchLine p.core ctx cls pa).keepLine p.core cls pa).markOwn p l n).setData p x
    | .priv _ _ (some pa) =>
      if s.lineHeld ctx pa then s
      else if s.badRead p.core p.slot p.who p.issue l pa n far then
        (s.dropPend p).lateFault p.issue p.core p.slot [p.who] p.pc { code := 0x11 }
      else (((s.chargeLine ctx pa).markOwn p l n).setData p (s.readLoc p.core p.slot false p.who p.issue l n false)).gotAcq p acq
    | _ =>
      let g := s.readGroup p
      if !(g.all fun q => s.mayRead q acq.isSome) then s
      else g.foldl (fun t q => match q.kind with
        | .load m tz _ _ _ => ((t.markOwn q m (ldBytes tz)).setData q
            (s.readLoc q.core q.slot false q.who q.issue m (ldBytes tz) false)).gotAcq q acq
        | _ => t) s
  | .cst _ count st => if s.cstDone p.core p.issue then s.setData p (cstData count st) else s
  | _ => s

/-- A plain load's request leaves before its data comes: it takes its place in the core's order, when its earlier accesses
let it be read, the L1 has no copy of its place and no write of the core to its line is on the way. A later plain store of
its party may then be performed before it (R298) (log 68, DEDUCED). -/
def State.sendLoad (s : State) (id lane : Nat) : State := match s.pends.find? fun p => p.issue == id && p.lane == lane with
  | none => s
  | some p => match p.kind with
    | .load (.glob pa) _ none _ false =>
      let c := s.core p.core
      let here := fun (r : WReq) => r.line == some (pa / 128)
      if p.data.isSome || !s.mayRead p false || (c.l1Chunk pa).isSome || c.paths.any (fun e => e.reqs.any here) ||
        c.onWay.any (fun o => here o.req) then s
      else { s with pends := s.pends.map fun q => if samePend p q then { q with sent := true } else q }
    | _ => s

/-- Writes a pending lane's register from its data; a becalmed core wakes (R109, R274). -/
def State.finishPend (s : State) (p : Pend) : State := match p.data with
  | none => s
  | some x =>
    let cox := p.who == .cox
    let ws := match p.kind with
      | .load _ sz _ _ _ => ldWrites cox sz p.dst x
      | .atom ty => atWrites cox ty p.dst x
      | .version => if cox then [.s p.dst (BitVec.ofNat 64 (leNat x))] else [.v p.dst (BitVec.ofNat 32 (leNat x))]
      | .cst _ _ _ => [.v p.dst (BitVec.ofNat 32 (leNat (x.take 4))), .v (p.dst + 1) (BitVec.ofNat 32 (leNat (x.drop 4)))]
    ((s.dropPend p).updBlock p.core p.slot fun b => b.wr p.who ws).rouse p.core 1 0

/-- Whether a pending lane belongs to a gather, which writes its lanes together (R284). -/
def Pend.gather (p : Pend) : Bool := match p.kind with
  | .load _ _ _ (some _) _ => true
  | _ => false

def Pend.inColl (p : Pend) : Bool := match p.kind with
  | .load _ _ _ _ c => c
  | _ => false

/-- Writes what has arrived for a lane: a gather's lanes once all are served, any other at once. -/
def State.arrive (s : State) (p : Pend) : State :=
  let mine := s.pends.filter fun q => q.issue == p.issue && q.core == p.core && q.slot == p.slot
  if p.gather then
    (if mine.all fun q => q.data.isSome then mine.foldl (fun s q => s.finishPend q) s else s)
  else match mine.find? fun q => q.lane == p.lane with
    | some q => s.finishPend q
    | none => s

/-- A lane of a gather enters the collector once its party's earlier accesses let it be read (R245, R298) (log 72, DEDUCED). -/
def State.joinGather (s : State) (p : Pend) : State := match p.kind with
  | .load l _ _ _ true =>
    let mg := match l with
      | .glob pa => (s.core p.core).mgWaits p.slot p.who p.issue pa 8
      | _ => false
    if p.joined || p.data.isSome || !s.mayRead p false || (s.core p.core).halfDone l || mg then s
    else
      let now := (s.cdie (coreDie p.core)).cyc.toNat
      ({ s with pends := s.pends.map fun q => if samePend p q then { q with joined := true } else q }).updCore p.core fun c =>
        c.joinRead now (s.ctxAt p.core p.slot) l fun e => { e with reqs := e.reqs ++ [(p.issue, p.lane)] }
  | _ => s

/-- Data of a load, gather or returning atomic arrives (R276). A collected lane is read when its entry is sent; faults that the
issue has met are taken once nothing of it is left (R103) (log 69, DEDUCED) (log 71, DEDUCED). -/
def execLoadReturn (id lane : Nat) (s : State) : Res := match s.pends.find? fun p => p.issue == id && p.lane == lane with
  | none => .next ((s.takeStop id 0x11).takeStop id 0x06)
  | some p =>
    let s1 := if p.data.isSome then s else if p.inColl then s.joinGather p else s.performLoad p
    .next (s1.arrive p)

end Sys2Proof.Machine
end

