-- ==== Sys2Proof/Machine/Engine.lean ====
section
/-! DEFINITION. What engines share: tokens and results (R200, R282), and a thread's charge class. -/

namespace Sys2Proof.Machine

open Sys2Proof

/-- A command's result stands ready for its queue register (R200). -/
def State.setResult (s : State) (seq : Nat) (r : List W64) : State :=
  { s with cmds := s.cmds.map fun (c : Cmd) => if c.seq == seq then { c with result := some r } else c }

/-- Writes a status word where it goes: token registers, with their scoreboard bits, or a queue register's result
(R282, R283). A token wakes its core (R109) (log 83, DEDUCED). -/
def State.giveStatus (s : State) (core slot issue : Nat) (dest : Dest) (v : W32) : State := match dest with
  | .regs l => (s.updBlock core slot fun b => l.foldl (fun b t => b.putSb t.1 t.2 issue v) b).rouse core 5 0
  | .queue _ => s.setResult issue [v.zeroExtend 64]

/-- Whether the running thread's class is held on its die: it is then not selected (R104). -/
def State.heldHere (s : State) (k : BClass) : Bool := s.held s.myCtx s.myDie k

/-- Accepts a command of the running issue: the token registers of its parties go under the scoreboard bit of its
number, and the parties go on (R276). -/
def State.accept (s : State) (h : Hd) (sbs : Nat → List (Nat × Who × Nat)) (add : State → Nat → State) (n : Nat) : State :=
  let s1 := s.account h false
  let id := s1.nextId
  let s2 := add { s1 with nextId := id + n } id
  let s3 := s2.updMe fun b => (sbs id).foldl (fun b x => b.setSb x.2.1 x.2.2 x.1) b
  (s3.advance s3.issuers).tidy

/-- The parties of an issue, with a register each. -/
def tokenOf (vs : List (Nat × Who × View)) (d : RegNo) : List (Who × Nat) := vs.map fun x => (x.2.1, d.toNat)

/-- The first untaken command of an engine port that has not begun, or has no result yet. -/
def State.firstCmd (s : State) (k : EngKind) (unit : Nat) : Option Cmd :=
  s.cmds.find? fun c => c.k == k && c.unit == unit && c.result.isNone && !c.busy

def State.markBusy (s : State) (seq : Nat) : State :=
  { s with cmds := s.cmds.map fun (c : Cmd) => if c.seq == seq then { c with busy := true } else c }

def Cmd.ent (c : Cmd) (i : Nat) : W64 := ((c.ents[i]?).map (·.v)).getD 0
def Cmd.parties (c : Cmd) : List Who := distinct (c.ents.map (·.who))

/-- The parties that pushed a command's entries, each with the number of its last push: that push is its release (R301). -/
def Cmd.after (c : Cmd) : List (Who × Nat) :=
  c.parties.map fun w => (w, (c.ents.filter fun e => e.who == w).foldl (fun n e => Nat.max n e.iss) 0)

/-- A write of an engine: it enters its core's order as a store does, and waits for its home slice (R241, R245, R295). -/
def State.engPut (s : State) (core : Nat) (o : Outb) : State :=
  let see := fun (c : Core) => match o.req.loc with
    | .glob _ => c.see (o.req.writes.map fun (w : Who × Nat × Byte) => w.2)
    | _ => c
  ({ s with nextId := s.nextId + 1 }).updCore core fun c =>
    { (see c).meet o.req.loc .store with outb := c.outb ++ [{ o with ord := s.nextId }] }

/-- Whether a command's writes are all performed (R282). -/
def State.cmdClear (s : State) (core issue : Nat) : Bool :=
  !((s.core core).outb.any fun o => o.issue == issue) &&
  !(s.outstanding.any fun o => o.core == core && o.issue == issue)

/-- Whether the accesses that parties issued, each before its number, are performed at a scope (R301, R312). -/
def State.settled (s : State) (core slot : Nat) (ws : List (Who × Nat)) (sc : Scope) : Bool :=
  let c := s.core core
  ws.all fun w =>
    !(s.pends.any fun p => p.core == core && p.slot == slot && p.issue < w.2 && p.who == w.1) &&
    !(c.paths.any fun e => e.slot == slot && e.issue < w.2 && e.parties.contains w.1) &&
    !(c.outb.any fun o => o.issue < w.2 && o.req.atomic.isSome && o.of slot w.1) &&
    (!wide sc || s.outBefore core slot w.1 w.2)

/-- Whether a read that a party makes at issue may be performed now, in program order (R298). -/
def State.mayReadNow (s : State) (b : Block) (w : Who) : Bool :=
  s.mayRead { issue := s.nextId, lane := 0, core := b.core, slot := b.slot, who := w, dst := 0, pc := 0, kind := .version } false

/-- The pointer check of an engine-like form on its elected party: space, then alignment, then extent for n bytes, of which the
global ones are checked piece by piece as they are reached (R232, R349, R352, R373) (log 76, DEDUCED). -/
def ptrFlt (b : Block) (p : W64) (al n : Nat) (write : Bool) : Option Flt :=
  match tileCheck b p al write with
  | .bad r sp => some { code := 0x07, info := ptrInfo r sp }
  | .ok sp x => if sp ≠ 0 && limitOf b sp write < x + n then some { code := 0x07, info := ptrInfo 1 sp } else none

/-- A fault of a form that the part issues once: every live lane takes it (R350) (log 76, DEDUCED). -/
def State.wholeFault (s : State) (h : Hd) (f : Flt) : State := s.faultAll h 0 s.issuers f

/-- The writes of a party into memory as one issue's entry in its store path, a line request per line. -/
def State.putOwn (s : State) (b : Block) (issue : Nat) (w : Who) (ws : List (Who × Loc × List Byte)) : State :=
  s.enqueue b.core { issue := issue, slot := b.slot, path := b.pathOf w, parties := [w], pc := s.cur.pc, reqs := mkReqs b ws [] }

end Sys2Proof.Machine
end

