-- ==== Sys2Proof/Machine/Async.lean ====
section
/-! DEFINITION. Asynchronous memory, class 0x7: copies (R280–R283), gathers, scatters and the collector (R245, R246,
R284), compress-store (R285) and the embedding forms (R286, R287). -/

namespace Sys2Proof.Machine

open Sys2Proof

/-! ### Copies -/

/-- The space check of an engine's pointer: reason 5 for any space that it does not accept (R233, R280), and reason 0 of Table
11-2 for nonzero bits [59:56] (log 77, DEDUCED). -/
def spaceBad (p : W64) (accept : List Nat) : Option Nat :=
  if !accept.contains (ptrSpace p) then some 5
  else if bits p.toNat 59 56 ≠ 0 then some 0
  else none

def ptrOff (p : W64) : Nat := bits p.toNat 55 0

/-- Whether a range leaves its space. -/
def outOfExtent (b : Block) (p : W64) (n : Nat) (write : Bool) : Bool := limitOf b (ptrSpace p) write < ptrOff p + n

/-- The whole check of a copy, as the status word of the first failure (R280) (log 77, DEDUCED). -/
def copyCheck (b : Block) (dst src : W64) (len : Nat) : Option W32 :=
  match spaceBad src [0, 1, 2], spaceBad dst [0, 1] with
  | some r, _ => some (statusWord 7 r 0 0)
  | none, some r => some (statusWord 7 r 1 0)
  | none, none =>
    if len % 32 ≠ 0 || ptrOff src % 32 ≠ 0 then some (statusWord 7 2 0 0)
    else if ptrOff dst % 32 ≠ 0 then some (statusWord 7 2 1 0)
    else if 16777184 < len || outOfExtent b src len false then some (statusWord 7 1 0 0)
    else if outOfExtent b dst len true then some (statusWord 7 1 1 0)
    else none

/-- The whole check of `cpa.reg`: its source side (R281). -/
def copyRegCheck (b : Block) (src : W64) (len : Nat) : Option W32 := match spaceBad src [0, 1, 2] with
  | some r => some (statusWord 7 r 0 0)
  | none =>
    if ptrOff src % 4 ≠ 0 then some (statusWord 7 2 0 0)
    else if outOfExtent b src len false then some (statusWord 7 1 0 0)
    else none

/-- A copy as the engine accepts it. One that fails its check, or moves nothing, has its status at once. -/
def mkCopy (b : Block) (issue path : Nat) (after : List (Who × Nat)) (dst src : W64) (len : Nat) (o : Ord) (dest : Dest) : Copy where
  issue := issue
  core := b.core
  slot := b.slot
  path := path
  parties := after.map (·.1)
  after := after
  dst := dst
  src := src
  len := len
  o := o
  dest := dest
  status := match copyCheck b dst src len with
    | some w => some w
    | none => if len = 0 then some 0 else none

/-- `cpa` (R280, R282): one copy for each active lane in ascending order, or for the cox thread. -/
def execCpa (h : Hd) (o : Ord) (t a b c : RegNo) (s : State) : Res := match s.me with
  | none => .next s
  | some k =>
    if s.heldHere .copy then .next s
    else
      let vs := s.views h
      let cs := fun (id : Nat) => vs.zipIdx.map fun x =>
        let v := x.1.2.2
        mkCopy k (id + x.2) (k.pathOf x.1.2.1) [(x.1.2.1, id)] (v.r64 a) (v.r64 b) (v.r32 c).toNat o (.regs [(x.1.2.1, t.toNat)])
      let sbs := fun (id : Nat) => vs.zipIdx.map fun x => (id + x.2, x.1.2.1, t.toNat)
      let s := if o.acq then s.closeColl k.core k.slot (vs.map (·.2.1)) else s
      .next (s.accept h sbs (fun s id => { s with copies := s.copies ++ cs id }) vs.length)

/-- `cpa.reg` (R281): one copy into the registers of the lanes of a mask. -/
def execCpaReg (h : Hd) (o : Ord) (t a b c : RegNo) (n1 : BitVec 3) (s : State) : Res := match s.part? with
  | none => .next s
  | some (k, p) =>
    if s.heldHere .copy then .next s
    else match s.act h with
    | [] => .next (s.skip h)
    | l0 :: rest =>
      let ls := l0 :: rest
      let n := n1.toNat + 1
      let src := (View.fib l0.2).r64 a
      let m := (View.fib l0.2).r32 b
      let lanes := ((List.range 32).filter fun l => m.getLsbD l).map fun l => (p.lanes.find? fun x => x.1 == l).map (·.2)
      let len := 4 * n * lanes.length
      let parties := ls.map fun x => Who.fib x.2.fid
      let copy := fun (id : Nat) => ({
        issue := id, core := k.core, slot := k.slot, path := p.part, parties := parties, after := parties.map fun w => (w, id)
        dst := 0, src := src, len := len, o := o, dest := .regs (parties.map fun w => (w, t.toNat)), reg := some (lanes, c.toNat, n)
        status := match copyRegCheck k src len with
          | some w => some w
          | none => if len = 0 then some 0 else none } : Copy)
      let sbs := fun (id : Nat) => (parties.map fun w => (id, w, t.toNat)) ++
        lanes.flatMap fun x => match x with
          | some f => (List.range n).map fun i => (id, Who.fib f, c.toNat + i)
          | none => []
      let s := if o.acq then s.closeColl k.core k.slot parties else s
      .next (s.accept h sbs (fun s id => { s with copies := s.copies ++ [copy id] }) 1)

/-- A queue-port copy (R283): its flags alone order it (R204) (log 78, DEDUCED) (log 82, DEDUCED). -/
def execCopyPortCommand (core : Nat) (s : State) : Res := match s.firstCmd .copy core with
  | none => .next s
  | some c => match s.block? core c.slot with
    | none => .next s
    | some b =>
      let f := c.ent 2
      let s1 := s.markBusy c.seq
      match scopeOf (f.extractLsb' 32 3) with
      | none => .next (s1.setResult c.seq [(statusWord 7 0 0 0).zeroExtend 64])
      | some sc =>
        if bits f.toNat 63 37 ≠ 0 then .next (s1.setResult c.seq [(statusWord 7 0 0 0).zeroExtend 64])
        else
          let o : Ord := { acq := f.getLsbD 35, rel := f.getLsbD 36, scope := sc }
          let k := mkCopy b c.seq 5 c.after (c.ent 0) (c.ent 1) (loWord f).toNat o (.queue c.q)
          .next { s1 with copies := s1.copies ++ [k] }

def State.updCopy (s : State) (i : Nat) (f : Copy → Copy) : State := { s with copies := s.copies.modify i f }

def Copy.unit (c : Copy) : Nat := if c.reg.isSome then 4 else 32

/-- Whether a copy may make its first access: after its stream's earlier accesses at `.core`, or at SCOPE under `.acq`; a
queue-port copy waits under `.acq` alone (R282, R301) (log 82, DEDUCED). -/
def State.copyMayStart (s : State) (c : Copy) : Bool :=
  (c.path == 5 && !c.o.acq) || s.settled c.core c.slot c.after (if c.o.acq then c.o.scope else .core)

/-- The place of one unit of a side of a copy. -/
def State.copyPlace (s : State) (b : Block) (p : W64) (off : Nat) (write : Bool) : Chk :=
  let x := ptrOff p + off
  if ptrSpace p = 0 then s.chkGlobal b x write
  else if ptrSpace p = 1 then .ok (.scratch x) none
  else .ok (.const x) none

/-- Reads the next unit of a copy as one read, of its source's home and past the L1, whose chunks may be of two versions (R280,
R293); a write of the core to the unit comes first. A failure waits until what has been read is written (log 81, DEDUCED). -/
def State.copyRead (s : State) (i : Nat) (c : Copy) (b : Block) (k : Nat) : State :=
  let n := c.unit
  let stop := fun (w : W32) => if c.data.isEmpty then s.updCopy i fun c => { c with status := some w } else s
  match s.copyPlace b c.src (n * k) false with
  | .wait => s
  | .bad f => stop (f.status 0 k)
  | .ok l va =>
    let keep := fun (s : State) =>
      let s := match va with
        | some x => s.fill b.core b.ctx x
        | none => s
      if n * k % 128 = 0 then s.charge b.ctx (coreDie b.core) .copy 1 else s
    let got := fun (s : State) (x : List Byte) => (keep s).updCopy i fun c => { c with data := c.data ++ x }
    match l with
    | .remote d v =>
      let sent := s.outstanding.any fun x => x.core == c.core && x.issue == c.issue
      if sent || (s.core b.core).remoteWaits b.slot (cmdWho c.issue) s.nextId d v n then s
      else
        let o : Outstanding :=
          { ldie := 0, tag := 0, dev := d, va := v, ctx := b.ctx, core := c.core, slot := c.slot, issue := c.issue, pc := 0
            parties := [], lane := k, op := .read n }
        (s.ask o).getD s
    | .glob pa =>
      let k1 := s.core b.core
      if k1.sawTo pa n ≠ 0 || k1.mgWaits b.slot (cmdWho c.issue) s.nextId pa n || s.readHeld b.core b.ctx pa then s
      else if s.bad pa n then stop (statusWord 0x11 0 0 k)
      else got ((s.fetchLine b.core b.ctx .normal pa).updCore b.core fun c => c.dropChunks pa n)
        (s.readLoc b.core b.slot (s.ctx b.ctx).priv (cmdWho c.issue) s.nextId l n true)
    | _ => got s (s.readLoc b.core b.slot false (cmdWho c.issue) s.nextId l n false)

/-- Writes the oldest unit that a copy has read, as one write (log 78, DEDUCED). -/
def State.copyWrite (s : State) (i : Nat) (c : Copy) (b : Block) : State :=
  let k := c.done
  let next := fun (s : State) => s.updCopy i fun c => { c with done := k + 1, data := c.data.drop c.unit }
  match c.reg with
  | some (lanes, r, n) =>
    let x := BitVec.ofNat 32 (leNat (c.data.take 4))
    match (lanes[k / n]?).getD none with
    | some f => next (s.updBlock c.core c.slot fun b => b.putSb (.fib f) (r + k % n) c.issue x)
    | none => next s
  | none =>
    let x := c.data.take 32
    match s.copyPlace b c.dst (32 * k) true with
    | .wait => s
    | .bad f => s.updCopy i fun c => { c with status := some (f.status 1 k), data := [] }
    | .ok l va =>
      let s1 := match va with
        | some x => s.fill b.core b.ctx x
        | none => s
      let o : Outb := { issue := c.issue, slot := c.slot, path := c.path, parties := [], pc := 0, eng := true
                        req := { loc := l, writes := x.zipIdx.map fun y => (cmdWho c.issue, l.addr + y.2, y.1) } }
      match l with
      | .remote _ _ => if s.cmdClear c.core c.issue then next (s1.engPut c.core o) else s
      | .glob _ => next (s1.engPut c.core o)
      | _ => next (s1.storeLocal c.core c.slot o.req)

/-- A copy's status word is written after its last write has been performed, and the copy is over (R282). -/
def State.copyEnd (s : State) (i : Nat) (c : Copy) (w : W32) : State :=
  if !s.cmdClear c.core c.issue then s
  else
    let s1 := s.giveStatus c.core c.slot c.issue c.dest w
    let s2 := match c.reg with
      | some (lanes, _, _) => s1.updBlock c.core c.slot fun b =>
          (lanes.filterMap fun x => x).foldl (fun b f => b.dropSb (.fib f) c.issue) b
      | none => s1
    let s3 := (if c.o.rel then s2.acquire c.core c.o.scope else s2).learn c.core c.slot c.parties
    { s3 with copies := s3.copies.eraseIdx i }

/-- A copy engine performs one part of a copy: it reads the next unit, writes one that it has read, or writes the status
word. How far reading runs ahead of writing is open (R280, log 7, DESIGN CHOICE). -/
def execCopyPerform (id : Nat) (s : State) : Res := match s.copies[id]? with
  | none => .next s
  | some c => match s.block? c.core c.slot with
    | none => .next s
    | some b =>
      let total := c.len / c.unit
      let ahead := c.data.length / c.unit
      let fresh := c.done == 0 && c.data.isEmpty
      .next (match c.status with
      | some w => if c.data.isEmpty then s.copyEnd id c w else s.copyWrite id c b
      | none =>
        if fresh && !s.copyMayStart c then s
        else
          let s := if fresh && c.o.acq then s.acquire c.core c.o.scope else s
          if c.done + ahead < total && (ahead == 0 || Config.pick s.tick % 2 == 1) then s.copyRead id c b (c.done + ahead)
          else if ahead ≠ 0 then s.copyWrite id c b
          else s.updCopy id fun c => { c with status := some (statusWord 0 0 0 total) })

/-! ### Gather and scatter (R284) -/

/-- The address displacement of the indexed forms. -/
def indexDisp (v : View) (b : RegNo) (sh : BitVec 3) (disp : Disp) : Int :=
  (v.r32 b).toNat * 2 ^ sh.toNat + dispVal disp

def execGth (h : Hd) (o : GOps LdSz) (s : State) : Res :=
  s.load h (s.chkEach h fun k _ w v => s.chk k w [0, 1] (v.r64 o.a) (dispVal o.disp) (ldBytes o.sz) false)
    o.sz o.r none (some o.cls)
def execSct (h : Hd) (o : GOps StSz) (s : State) : Res :=
  s.store h (s.chkEach h fun k _ w v => s.chk k w [0, 1] (v.r64 o.a) (dispVal o.disp) (stBytes o.sz) true)
    (s.dataOf h o.sz o.r) none none true
def execGthx (h : Hd) (o : GXOps LdSz) (s : State) : Res :=
  s.load h (s.chkEach h fun k _ w v => s.chk k w [0, 1] (v.r64 o.a) (indexDisp v o.b o.sh o.disp) (ldBytes o.sz) false)
    o.sz o.r none (some o.cls)
def execSctx (h : Hd) (o : GXOps StSz) (s : State) : Res :=
  s.store h (s.chkEach h fun k _ w v => s.chk k w [0, 1] (v.r64 o.a) (indexDisp v o.b o.sh o.disp) (stBytes o.sz) true)
    (s.dataOf h o.sz o.r) none none true

/-! ### The collector (R245–R247) -/

/-- The requests that the collector of a core holds, one for each lane's access (R245). -/
def Core.collected (c : Core) : Nat := c.coll.foldl (fun n e => n + e.reqs.length + e.pools.length +
  e.wreqs.foldl (fun m o => m + (distinct (o.req.writes.map (·.1))).length) 0) 0

/-- Whether an entry is sent: it is closed, its oldest request is 256 cycles old, or the collector holds 512 requests;
an older entry of its line goes first (R245, R246) (log 72, DEDUCED). -/
def State.collDue (s : State) (core k : Nat) (e : CEnt) : Bool :=
  let c := s.core core
  (e.closed || e.start + 256 ≤ s.now core || 512 ≤ c.collected) &&
  !((c.coll.take k).any fun x => x.line == e.line && x.dev == e.dev)

/-- The pending lanes behind a read entry. -/
def State.collReads (s : State) (core : Nat) (e : CEnt) : List Pend :=
  e.reqs.filterMap fun r => s.pends.find? fun p => p.issue == r.1 && p.lane == r.2 && p.core == core

/-- Serves one read request of a line that the collector has fetched. -/
def State.collGive (s : State) (p : Pend) : State := match p.kind with
  | .load (.glob pa) sz _ reuse _ =>
    let n := ldBytes sz
    if s.badRead p.core p.slot p.who p.issue (.glob pa) pa n false then
      (s.dropPend p).lateFault p.issue p.core p.slot [p.who] p.pc { code := 0x11 }
    else
      let cls := reuse.getD .normal
      let x := s.readLoc p.core p.slot (s.privAt p.core p.slot) p.who p.issue (.glob pa) n false
      (((s.countLine cls pa).saw p.core p.slot p.who pa n).markOwn p (.glob pa) n).setData p x
  | _ => s

/-- Gives a pooling the line that the collector has fetched for it. -/
def State.poolGive (s : State) (core line : Nat) (r : Nat × Who × Reuse) : State :=
  let x := s.readLoc core r.1 (s.privAt core r.1) r.2.1 s.nextId (.glob line) 128 false
  let bad := s.poison.filter fun w => w * 8 / 128 == line / 128 && s.badRead core r.1 r.2.1 s.nextId (.glob (w * 8)) (w * 8) 8 false
  (((s.countLine r.2.2 line).saw core r.1 r.2.1 line 128).updCore core fun c =>
    { c with pbuf := c.pbuf ++ [{ slot := r.1, who := r.2.1, pa := line, data := x, bad := bad }] }).rouse core 1 0

/-- The copies of a line fetched for a read entry that the classes of its requests leave (R247). -/
def State.keepFor (s : State) (core : Nat) (ps : List Pend) (e : CEnt) : State :=
  let one := fun (s : State) (p : Pend) => match p.kind with
    | .load (.glob pa) _ _ reuse _ => s.keepLine core (reuse.getD .normal) pa
    | _ => s
  e.pools.foldl (fun s r => s.keepLine core r.2.2 e.line) (ps.foldl one s)

/-- A write entry goes out as one write, in the place of its first request (R246, R279) (log 79, DEDUCED). -/
def State.sendScatter (s : State) (core k : Nat) (e : CEnt) : State :=
  match e.wreqs with
  | [] => s.updCore core fun c => { c with coll := c.coll.eraseIdx k }
  | o :: rest =>
    let ctx := s.ctxAt core o.slot
    if s.held ctx (coreDie core) .copy then s
    else
      let loc : Loc := match e.dev with
        | some d => .remote d e.line
        | none => .glob e.line
      let all : WReq := { loc := loc, writes := e.wreqs.flatMap fun x => x.req.writes }
      let sent : Outb := { o with path := 5, req := all, also := rest.map fun x => { issue := x.issue, slot := x.slot, pc := x.pc, ws := x.parties } }
      (s.charge ctx (coreDie core) .copy 1).updCore core fun c =>
        { c with coll := c.coll.eraseIdx k, outb := c.outb ++ [sent] }

/-- A read entry of this device's memory is sent: every request of it gets the line as it is now (R246). -/
def State.sendGather (s : State) (core k : Nat) (e : CEnt) : State :=
  let ps := s.collReads core e
  let first := (ps.map fun p => p.slot) ++ e.pools.map (·.1)
  match first with
  | [] => s.updCore core fun c => { c with coll := c.coll.eraseIdx k }
  | sl :: _ =>
    let ctx := s.ctxAt core sl
    let here := fun (p : Pend) => match p.kind with
      | .load (.glob pa) sz _ _ _ => (s.core core).l1All pa (ldBytes sz)
      | _ => true
    let miss := !(ps.all here && (e.pools.isEmpty || (s.core core).l1All e.line 128))
    if (miss && s.readHeld core ctx e.line) || s.held ctx (coreDie core) .copy then s
    else
      let rank := ((ps.map fun (p : Pend) => match p.kind with
        | .load _ _ _ reuse _ => rankOf (reuse.getD .normal)
        | _ => 1) ++ e.pools.map fun (r : Nat × Who × Reuse) => rankOf r.2.2).foldl Nat.max 0
      let s1 := (if miss && !s.rdcHit (coreDie core) e.line then s.homeTouch ctx rank e.line [] else s).charge ctx (coreDie core) .copy 1
      let s2 := s1.updCore core fun c => { c with coll := c.coll.eraseIdx k }
      let s3 := ps.foldl (fun s p => s.collGive p) s2
      let s4 := e.pools.foldl (fun s r => s.poolGive core e.line r) s3
      if miss then s4.keepFor core ps e else s4

/-- A read entry of a line of another device leaves as one request (R284, R399). -/
def State.sendFar (s : State) (core k dev : Nat) (e : CEnt) : State :=
  let ps := s.collReads core e
  let who := (ps.map fun p => (p.slot, p.who, p.issue, p.pc)) ++ e.pools.map fun r => (r.1, r.2.1, s.nextId, (0 : W64))
  match who with
  | [] => s.updCore core fun c => { c with coll := c.coll.eraseIdx k }
  | (sl, _, issue, pc) :: _ =>
    let ctx := s.ctxAt core sl
    if s.held ctx (coreDie core) .copy || who.any fun x => (s.core core).remoteWaits x.1 x.2.1 x.2.2.1 dev e.line 128 then s
    else
      let o : Outstanding :=
        { ldie := 0, tag := 0, dev := dev, va := e.line, ctx := ctx, core := core, slot := sl, issue := issue, pc := pc
          parties := [], lane := 0, op := .read 128, gath := ps.map fun p => (p.issue, p.lane)
          pools := e.pools.map fun r => (r.1, r.2.1) }
      match s.ask o with
      | some t => (t.charge ctx (coreDie core) .copy 1).updCore core fun c => { c with coll := c.coll.eraseIdx k }
      | none => s

/-- An entry of the collector is sent as one line request (R245) (log 72, DEDUCED) (log 79, DEDUCED). -/
def execCollectorSend (core k : Nat) (s : State) : Res := match (s.core core).coll[k]? with
  | none => .next s
  | some e =>
    if !s.collDue core k e then .next s
    else if e.write then .next (s.sendScatter core k e)
    else match e.dev with
    | some d => .next (s.sendFar core k d e)
    | none => .next (s.sendGather core k e)

/-- A collector port command (R283): the line is fetched into the caches that its class allocates. -/
def execCollectorPrefetch (core : Nat) (s : State) : Res := match s.firstCmd .collector core with
  | none => .next s
  | some c => match s.block? core c.slot with
    | none => .next s
    | some b =>
      let p := c.ent 0
      let cls := reuseOf ((c.ent 1).extractLsb' 0 2)
      let done := fun (s : State) (w : W32) => (Host.Outcome.next ((s.setResult c.seq [w.zeroExtend 64]).dropBuf core (cmdWho c.seq)) : Res)
      if (bits (c.ent 1).toNat 63 2 ≠ 0) then done s (statusWord 7 0 0 0)
      else match ptrCheck b [0, 1] p 0 1 false with
      | .bad r _ => done s (statusWord 7 r 0 0)
      | .ok 0 x =>
        let cs := [(0, 1, s.chkGlobal b x false)]
        if s.spanHeld b cs || s.held b.ctx (coreDie core) .copy then .next s
        else (match s.getSpan b (cmdWho c.seq) cs with
          | .wait => .next s
          | .need d v n => .next (s.askRead b (cmdWho c.seq) d v n)
          | .bad f _ => done s (f.status 0 0)
          | .ok _ => match cs with
            | [(_, _, .ok (.glob pa) _)] =>
              let hit := (s.core core).l1All (pa / 128 * 128) 128
              if !hit && s.readHeld core b.ctx pa then .next s
              else
                let s1 := if hit then s else (s.fetchLine core b.ctx cls pa).keepLine core cls pa
                done ((s1.fill core b.ctx x).charge b.ctx (coreDie core) .copy 1) (statusWord 0 0 0 1)
            | _ => done s (statusWord 0 0 0 1))
      | .ok _ _ => done s (statusWord 0 0 0 1)

/-! ### Compress-store (R285) -/

/-- `cst` (R285): the chosen lanes store at consecutive elements from rank s, up to the first that fails; a pointer fault of the
base itself stops it before the first. Elements on another device are translated there (R399), and then the lanes get the count and
the status once the replies have come. -/
def execCst (h : Hd) (b64 : Bool) (pc : BitVec 3) (d a b : RegNo) (disp : Disp) (s : State) : Res := match s.me, s.act h with
  | none, _ => .next s
  | _, [] => .next (s.skip h)
  | some k, l0 :: rest =>
    let ls := l0 :: rest
    let n : Nat := if b64 then 8 else 4
    let v0 := View.fib l0.2
    let first := (v0.r32 d).toNat
    let base := ptrCheck k [0, 1, 2, 3] (v0.r64 a) (dispVal disp) n true
    let sel := (ls.filter fun x => x.2.pred pc.toNat).zipIdx
    let todo := (sel.filter fun x => first ≤ x.2).map fun x =>
      (x, s.chk k (.fib x.1.2.fid) [0, 1, 2, 3] (v0.r64 a) (dispVal disp + ((n * x.2 : Nat) : Int)) n true)
    let good := todo.takeWhile fun x => match base, x.2 with
      | .ok _ _, .ok _ _ => true
      | _, _ => false
    let stop := todo.drop good.length |>.head?
    if (match base, stop with
      | .ok _ _, some (_, .wait) => true
      | _, _ => false) then .next s
    else
      let (count, status) : Nat × W32 := match base, stop with
        | .bad r _, _ => (first, statusWord 7 r 1 0)
        | _, some (x, .bad f) => (x.2, f.status 1 0)
        | _, _ => (sel.length, 0)
      let ws := good.filterMap fun x => match x.2 with
        | .ok l _ => some (Who.fib x.1.1.2.fid, l, (View.fib x.1.1.2).stData (if b64 then .b64 else .b32) b)
        | _ => none
      let e : PWrite := { issue := s.nextId, slot := k.slot, path := k.pathOf (.fib l0.2.fid), parties := ws.map (·.1), pc := s.cur.pc
                          reqs := mkReqs k ws [] }
      let out := [Wr.v d.toNat (BitVec.ofNat 32 count), Wr.v (d.toNat + 1) status]
      let away := ws.any fun x => match x.2.1 with
        | .remote _ _ => true
        | _ => false
      let els := good.filterMap fun x => match x.2 with
        | .ok l _ => some (l, x.1.2)
        | _ => none
      let ps := if away then ls.map fun x => ({ issue := s.nextId, lane := x.1, core := k.core, slot := k.slot, who := .fib x.2.fid
                                                dst := d.toNat, pc := s.cur.pc, kind := .cst els count status } : Pend) else []
      let s1 := (s.account h false).updMe fun b =>
        if away then b.markPriv ws else ls.foldl (fun b x => b.wr (.fib x.2.fid) out) (b.markPriv ws)
      let s2 := (s1.fillAll k (good.map fun x => (x.1.1.1, Who.fib x.1.1.2.fid, x.2))).enqueue k.core e
      let s3 := { s2 with pends := s2.pends ++ ps }
      .next ((s3.advance s3.issuers).tidy)

/-! ### Embedding (R249–R251, R286, R287) -/

/-- An embedding record as its two reads return it (Table 11-7). -/
structure EmbRec where
  base : W64
  rows : Nat
  dim : Nat
  fmt : Nat
  cls : Nat
  pitch : Nat
  dflt : W64
  scale : W32
  resv : Bool
  deriving DecidableEq, Repr

def fieldOf (x : List Byte) (o n : Nat) : Nat := leNat ((x.drop o).take n)

def embRec (x : List Byte) : EmbRec where
  base := BitVec.ofNat 64 (fieldOf x 0 8)
  rows := fieldOf x 12 4
  dim := fieldOf x 16 2
  fmt := fieldOf x 18 1
  cls := fieldOf x 19 1
  pitch := fieldOf x 20 4
  dflt := BitVec.ofNat 64 (fieldOf x 24 8)
  scale := BitVec.ofNat 32 (fieldOf x 32 4)
  resv := (x.drop 36).any (· != 0)

def embSize (fmt : Nat) : Nat := match fmt with
  | 0 => 4
  | 1 => 2
  | 2 => 2
  | _ => 1

/-- A pointer of a record with SPACE 0, 16-byte aligned (Table 11-8). -/
def embPtr (p : W64) : Bool := ptrSpace p == 0 && p.toNat % 16 == 0

/-- Whether a record is valid (R249). -/
def EmbRec.valid (r : EmbRec) : Bool :=
  r.fmt ≤ 5 && 1 ≤ r.dim && r.dim ≤ 4096 && r.pitch % 16 == 0 && r.dim * embSize r.fmt ≤ r.pitch && r.cls / 4 == 0 && !r.resv &&
  embPtr r.base && (r.dflt == 0 || embPtr r.dflt)

/-- An element widened exactly (R58, R250). -/
def embWiden (fmt : Nat) (x : Nat) : FVal := match fmt with
  | 0 => Fmt.f32.decode x
  | 1 => Fmt.f16.decode x
  | 2 => Fmt.bf16.decode x
  | 3 => Fmt.e4m3fmt.decode x
  | 4 => Fmt.e5m2.decode x
  | _ => FVal.ofInt (BitVec.ofNat 8 x).toInt

/-- out(e) of R286 over the rows' bytes. -/
def embOut (r : EmbRec) (ws : List W32) (rows : List (List Byte)) (e : Nat) : Nat :=
  let sz := embSize r.fmt
  Fmt.f32.sum .rne ((ws.zip rows).map fun x =>
    let y := Fmt.f32.sum .rne [(embWiden r.fmt (fieldOf x.2 (sz * e) sz)).mul (Fmt.f32.decode r.scale.toNat)]
    (Fmt.f32.decode x.1.toNat).mul (Fmt.f32.decode y))

/-- What one lane of `embpool` comes to: it waits, its record is to be read, remote bytes of the record are to be asked for,
lines are to be collected for it, it faults, or it has all it needs. -/
inductive Emb where
  | wait
  | record (pa : Nat)
  | ask (dev va n : Nat)
  | lines (cls : Reuse) (ls : List Loc)
  | bad (f : Flt)
  | invalid
  | ok (dst : List (Nat × Nat × Chk)) (out : List Byte)
  deriving DecidableEq, Repr

/-- The line that a pooling has been given for a place. -/
def Core.pooled (c : Core) (slot : Nat) (w : Who) (l : Loc) : Option PoolBuf := match l.lineOf with
  | some (dev, line) => c.pbuf.find? fun x => !x.isRec && x.slot == slot && x.who == w && x.dev == dev && x.pa == line
  | none => none

/-- The bytes of row pieces in ascending order as the collector has brought them, or the first fault; and the places of the
pieces, up to that fault, that are still to come. -/
def State.rowPieces (s : State) (k : Block) (w : Who) : List (Nat × Nat × Chk) → List Loc × Except Chk (List Byte)
  | [] => ([], .ok [])
  | (_, n, c) :: r => match c with
    | .ok l _ => match (s.core k.core).pooled k.slot w l with
      | none =>
        let t := s.rowPieces k w r
        (l :: t.1, t.2)
      | some x =>
        let o := l.addr - x.pa
        match x.flt with
        | some (code, info) => ([], .error (.bad (remoteFlt (x.dev.getD 0) l.addr code info)))
        | none =>
          if x.bad.any fun v => v * 8 < l.addr + n && l.addr < v * 8 + 8 then ([], .error (.bad { code := 0x11 }))
          else
            let t := s.rowPieces k w r
            (t.1, t.2.map fun y => (x.data.drop o).take n ++ y)
    | e => ([], .error e)

/-- The pieces of the row of an index, none for a zero row (R250). A row whose base has bits [59:56] nonzero fails check 1 of
Table 11-2 as it is read (R232). -/
def State.rowOf (s : State) (k : Block) (r : EmbRec) (i : Nat) : List (Nat × Nat × Chk) :=
  let len := r.dim * embSize r.fmt
  let p := if i < r.rows then r.base else r.dflt
  if r.rows ≤ i && r.dflt == 0 then []
  else if bits p.toNat 59 56 ≠ 0 then [(0, len, .bad { code := 0x07, info := ptrInfo 0 0 })]
  else s.chkRange k 0 (bits p.toNat 55 0 + (if i < r.rows then i * r.pitch else 0)) len false

/-- The rest of a lane's pooling once its record is read: the rows, then the output (R286) (log 70, DEDUCED). -/
def State.embRest (s : State) (k : Block) (w : Who) (v : View) (d b c : RegNo) (n dsp doff : Nat) (r : EmbRec) : Emb :=
  if limitOf k dsp true < doff + 4 * r.dim then .bad { code := 0x07, info := ptrInfo 1 dsp }
  else
    let idx := (List.range n).map fun j => (v.r32 (b + BitVec.ofNat 8 j)).toNat
    let ws := (List.range n).map fun j => v.r32 (c + BitVec.ofNat 8 j)
    let rows := idx.map fun i => (s.rowOf k r i, r.dim * embSize r.fmt)
    let got := rows.map fun x => s.rowPieces k w x.1
    let until_ := got.takeWhile fun g => match g.2 with
      | .ok _ => true
      | .error _ => false
    let stop := (got.drop until_.length).head?
    let todo := (until_.flatMap fun g => g.1) ++ (stop.map fun g => g.1).getD []
    let dst := s.chkSpan k (v.r64 d) (4 * r.dim) true
    if todo.any fun l => (s.core k.core).ownAny k.slot w s.nextId l 128 || (s.core k.core).halfDone l then .wait
    else if !todo.isEmpty then .lines (reuseOf (BitVec.ofNat 2 r.cls)) todo
    else match stop with
    | some (_, .error (.bad f)) => .bad f
    | some (_, .error _) => .wait
    | _ => match spanBad dst with
      | some f => .bad f.1
      | none =>
        if spanWaits dst then .wait
        else
          let data := (rows.zip got).map fun x => if x.1.1.isEmpty then List.replicate x.1.2 0 else (x.2.2.toOption).getD []
          .ok dst ((List.range r.dim).flatMap fun e => leBytes 4 (embOut r ws data e))

/-- The record that a party's pooling has read, its sector 0 or all of it. -/
def isRecOf (slot : Nat) (w : Who) (x : PoolBuf) : Bool := x.isRec && x.slot == slot && x.who == w

/-- One lane's pooling: the checks of R286, the record, the rows, and the output (log 70, DEDUCED). -/
def State.embLane (s : State) (k : Block) (w : Who) (v : View) (d a b c : RegNo) (n : Nat) : Emb :=
  match ptrCheck k [0] (v.r64 a) 0 64 false, ptrCheck k [0, 1] (v.r64 d) 0 4 true with
  | .bad r sp, _ => .bad { code := 0x07, info := ptrInfo r sp }
  | _, .bad r sp => .bad { code := 0x07, info := ptrInfo r sp }
  | .ok _ _, .ok dsp doff =>
    let go := fun (x : List Byte) =>
      let r := embRec x
      if !r.valid then Emb.invalid else s.embRest k w v d b c n dsp doff r
    match s.chkSpan k (v.r64 a) 64 false with
    | [(_, _, .ok (.glob pa) _)] =>
      let c := s.core k.core
      let half := fun (pa : Nat) => if c.ownAny k.slot w s.nextId (.glob pa) 32 || c.halfDone (.glob pa) || c.sawTo pa 32 ≠ 0 ||
        c.mgWaits k.slot w s.nextId pa 32 then Emb.wait else .record pa
      (match c.pbuf.find? (isRecOf k.slot w) with
      | some x => if !x.bad.isEmpty then .bad { code := 0x11 } else if x.data.length ≤ 32 then half (pa + 32) else go x.data
      | none => half pa)
    | _ => match s.getSpan k w (s.chkSpan k (v.r64 a) 32 false ++ s.chkSpan k (v.r64 a + 32) 32 false) with
      | .wait => .wait
      | .need dev va m => .ask dev va m
      | .bad f _ => .bad f
      | .ok x => go x

/-- Reads half a record for a pooling, past the L1, whose chunks may be of two versions and go: sector 0 as one sector, then SCALE
by a read of its own, with the reserved bytes behind it (R250, R251, R302) (log 70, DEDUCED). -/
def State.readRecord (s : State) (k : Block) (w : Who) (pa : Nat) : State :=
  if s.readHeld k.core k.ctx pa then s
  else
    let x := s.readLoc k.core k.slot (s.ctx k.ctx).priv w s.nextId (.glob pa) 32 true
    let bad := s.poison.filter fun v => v * 8 / 32 == pa / 32
    (s.fetchLine k.core k.ctx .normal pa).updCore k.core fun c => { c.dropChunks pa 32 with
      pbuf := if c.pbuf.any (isRecOf k.slot w) then
          c.pbuf.map fun (r : PoolBuf) => if isRecOf k.slot w r then { r with data := r.data ++ x, bad := r.bad ++ bad } else r
        else c.pbuf ++ [{ slot := k.slot, who := w, pa := pa, isRec := true, data := x, bad := bad }] }

/-- The requests of a pooling enter the collector, those that do not stand there yet (R245, R286). -/
def State.joinPool (s : State) (k : Block) (w : Who) (cls : Reuse) (ls : List Loc) : State :=
  let now := s.now k.core
  let mine := fun (r : Nat × Who × Reuse) => r.1 == k.slot && r.2.1 == w
  s.updCore k.core fun c => ls.foldl (fun c l =>
    if c.coll.any (fun e => e.at_ l && e.pools.any mine) then c
    else c.joinRead now k.ctx l fun e => { e with pools := e.pools ++ [(k.slot, w, cls)] }) c

/-- What the lanes of a pooling still need is asked for; none when they need nothing. -/
def State.embNeeds (s : State) (k : Block) (es : List (Who × Emb)) : Option State :=
  let need := fun (e : Who × Emb) => match e.2 with
    | .record _ => true
    | .ask _ _ _ => true
    | .lines _ _ => true
    | _ => false
  if es.any need then
    some (es.foldl (fun (s : State) e => match e.2 with
      | .record pa => s.readRecord k e.1 pa
      | .ask dev va n => s.askRead k e.1 dev va n
      | .lines cls ls => if s.outstanding.any (fun o => o.core == k.core && o.pools.contains (k.slot, e.1)) then s
        else s.joinPool k e.1 cls ls
      | _ => s) s)
  else none

/-- `embpool` (R286): each lane reads its record, then its rows through the collector, once its earlier accesses allow it; when
every lane has what it needs the form issues, and the outputs enter the store path in ascending element order. A record found
invalid faults every active lane (R249) (log 70, DEDUCED). -/
def execEmbpool (h : Hd) (d a b c : RegNo) (k1 : BitVec 4) (s : State) : Res := match s.me with
  | none => .next s
  | some k =>
    let vs := s.views h
    let es := vs.map fun x => (x.2.1, s.embLane k x.2.1 x.2.2 d a b c (k1.toNat + 1))
    let inv := es.any fun e => e.2 == .invalid
    let bad := es.filterMap fun e => match e.2 with
      | .bad f => some (e.1, if inv then ({ code := 0x07, info := ptrInfo 4 0 } : Flt) else f)
      | _ => if inv then some (e.1, ({ code := 0x07, info := ptrInfo 4 0 } : Flt)) else none
    if vs.any fun x => !s.mayReadNow k x.2.1 then .next s
    else match s.embNeeds k es with
    | some t => .next t
    | none =>
      if (!inv && es.any fun e => e.2 == .wait) || (!bad.isEmpty && s.busy) then .next s
      else
        let good := es.filterMap fun e => match e.2 with
          | .ok dst out => if inv then none else some (e.1, dst, out)
          | _ => none
        let ws := good.flatMap fun g => spanWrites g.1 g.2.1 g.2.2
        let e : PWrite := { issue := s.nextId, slot := k.slot, parties := good.map (·.1), pc := s.cur.pc, reqs := mkReqs k ws []
                            path := match good with
                              | g :: _ => k.pathOf g.1
                              | [] => 0 }
        let s1 := (s.account h (!bad.isEmpty)).enqueue k.core e
        .next (((s1.advance (s1.issuers.filter fun w => !(bad.any fun t => t.1 == w))).deliver 0 bad).tidy)

/-- The sector that `embsw` writes: eight V registers, or four S registers (R287). -/
def View.sector (v : View) (b : RegNo) : List Byte :=
  if v.isCox then (List.range 4).flatMap fun i => leBytes 8 (v.r64 (b + BitVec.ofNat 8 i)).toNat
  else (List.range 8).flatMap fun i => leBytes 4 (v.r32 (b + BitVec.ofNat 8 i)).toNat

/-- `embsw` (R287): one read-modify-write of a record's sector 0 at its home slice, a release at SCOPE; every active lane
receives the old VERSION (log 76, DEDUCED). -/
def execEmbsw (h : Hd) (scope : Scope) (d a b : RegNo) (s : State) : Res := match s.me, s.views h with
  | none, _ => .next s
  | _, [] => .next (s.skip h)
  | some k, x0 :: rest =>
    let vs := x0 :: rest
    let c := match ptrCheck k [0] (x0.2.2.r64 a) 0 64 true with
      | .bad r sp => Chk.bad { code := 0x07, info := ptrInfo r sp }
      | .ok _ va => s.chkGlobal k va true
    let id := s.nextId
    let cs := vs.map fun x => (x.1, x.2.1, c)
    let lanes := vs.map fun x => ({ who := x.2.1, lane := x.1, dst := d.toNat, b := 0, c := 0 } : AtLane)
    let act := fun (s : State) => match c with
      | .ok l _ =>
        let at_ : AtReq := { op := .embsw (x0.2.2.sector b), ty := .n32, ret := true, acq := none, lanes := lanes }
        let e : PWrite := { issue := id, slot := k.slot, path := k.pathOf x0.2.1, parties := vs.map (·.2.1), pc := s.cur.pc
                            rel := some scope, reqs := [{ loc := l, atomic := some at_ }] }
        let ps := vs.map fun x => ({ issue := id, lane := x.1, core := k.core, slot := k.slot, who := x.2.1, dst := d.toNat
                                     pc := s.cur.pc, kind := .version } : Pend)
        { (s.fillAll k cs).enqueue k.core e with pends := s.pends ++ ps }
      | _ => s
    .next (s.access h cs act)

/-! ### Walks -/

/-- A core's miss is served by its die's walker, which keeps what it finds; a walk whose entries lie behind a held controller waits
(R104, R257) (log 80, DEDUCED). -/
def execPageWalk (core ctx : Nat) (va : W64) (s : State) : Res :=
  .next (if s.walkHeld core ctx va.toNat then s else s.fill core ctx va.toNat)

/-- An access that waits on a migrating page walks again (R259): the caches hold no such page, so the accesses that wait
see the entry when they next try (log 80, DEDUCED). -/
def execMigRewalk (core ctx : Nat) (va : W64) (s : State) : Res :=
  .next (if s.walkHeld core ctx va.toNat then s else s.fill core ctx va.toNat)

end Sys2Proof.Machine
end

