-- ==== Sys2Proof/Machine/Atomic.lean ====
section
/-! DEFINITION. Atomics and reductions at memory (R76, R288–R290), and fences (R311–R313), class 0x8. -/

namespace Sys2Proof.Machine

open Sys2Proof

/-! ### Atomics -/

/-- An atomic issue: the good lanes of each distinct address make one request, in ascending lane order (R76, R289). `ret`
names the register that receives old values. -/
def State.atomic (s : State) (h : Hd) (op : AtOp) (ty : IntTy) (o : Ord) (ret : Option RegNo) (a : RegNo) (disp : Disp)
    (ops : View → W64 × W64) : Res := match s.me with
  | none => .next s
  | some k =>
    let n := if ty.is64 then 8 else 4
    let cs := s.chkEach h fun k _ w v => s.chk k w [0, 1] (v.r64 a) (dispVal disp) n true
    let id := s.nextId
    let vs := s.views h
    let acq := if o.acq then some o.scope else none
    let lane := fun (x : Nat × Who × Loc) =>
      let y := match vs.find? fun v => v.2.1 == x.2.1 with
        | some v => ops v.2.2
        | none => (0, 0)
      ({ who := x.2.1, lane := x.1, dst := (ret.getD 0).toNat, b := y.1, c := y.2 } : AtLane)
    let ls := chkLocs cs
    let reqs := (distinct (ls.map (·.2.2))).map fun l =>
      let at_ : AtReq := { op := op, ty := ty, ret := ret.isSome, acq := acq, lanes := (ls.filter fun x => x.2.2 == l).map lane }
      ({ loc := l, atomic := some at_ } : WReq)
    let e : PWrite :=
      { issue := id, slot := k.slot, parties := ls.map (·.2.1), pc := s.cur.pc, rel := if o.rel then some o.scope else none
        reqs := reqs
        path := match ls with
          | x :: _ => k.pathOf x.2.1
          | [] => 0 }
    let ps := match ret with
      | some d => ls.map fun x => ({ issue := id, lane := x.1, core := k.core, slot := k.slot, who := x.2.1, dst := d.toNat
                                     pc := s.cur.pc, kind := .atom ty } : Pend)
      | none => []
    let act := fun (s : State) =>
      let s := s.fillAll k cs
      let s := if o.acq then s.closeColl k.core k.slot s.issuers else s
      { s.enqueue k.core e with pends := s.pends ++ ps }
    .next (s.access h cs act)

/-- The operand of an integer atomic: a pair or S register under a 64-bit type, else the low word (R288). -/
def atOperand (ty : IntTy) (b : RegNo) (v : View) : W64 × W64 := (if ty.is64 then v.r64 b else (v.r32 b).zeroExtend 64, 0)

/-- The compare and new values of `cas` (R288). -/
def casOperands (ty : IntTy) (b : RegNo) (v : View) : W64 × W64 :=
  if v.isCox then (v.r64 b, v.r64 (b + 1))
  else if ty.is64 then (v.r64 b, v.r64 (b + 2))
  else ((v.r32 b).zeroExtend 64, (v.r32 (b + 1)).zeroExtend 64)

def atInt (s : State) (h : Hd) (op : AtOp) (o : AtOps) : Res := s.atomic h op o.ty o.o (some o.d) o.a o.disp (atOperand o.ty o.b)

def execAtomAdd (h : Hd) (o : AtOps) (s : State) : Res := atInt s h .add o
def execAtomMin (h : Hd) (o : AtOps) (s : State) : Res := atInt s h .min o
def execAtomMax (h : Hd) (o : AtOps) (s : State) : Res := atInt s h .max o
def execAtomAnd (h : Hd) (o : AtOps) (s : State) : Res := atInt s h .and o
def execAtomOr (h : Hd) (o : AtOps) (s : State) : Res := atInt s h .or o
def execAtomXor (h : Hd) (o : AtOps) (s : State) : Res := atInt s h .xor o
def execAtomExch (h : Hd) (o : AtOps) (s : State) : Res := atInt s h .exch o
def execAtomCas (h : Hd) (o : AtOps) (s : State) : Res := s.atomic h .cas o.ty o.o (some o.d) o.a o.disp (casOperands o.ty o.b)

def atFloat (s : State) (h : Hd) (op : AtOp) (o : AtFOps) : Res :=
  s.atomic h op .n32 o.o (some o.d) o.a o.disp (atOperand .n32 o.b)

def execAtomAddF32 (h : Hd) (o : AtFOps) (s : State) : Res := atFloat s h .fadd o
def execAtomMinF32 (h : Hd) (o : AtFOps) (s : State) : Res := atFloat s h (.fmin o.num) o
def execAtomMaxF32 (h : Hd) (o : AtFOps) (s : State) : Res := atFloat s h (.fmax o.num) o

def execMredAdd (h : Hd) (ty : IntTy) (o : Ord) (a b : RegNo) (disp : Disp) (s : State) : Res :=
  s.atomic h .add ty o none a disp (atOperand ty b)
def execMredMin (h : Hd) (ty : IntTy) (o : Ord) (a b : RegNo) (disp : Disp) (s : State) : Res :=
  s.atomic h .min ty o none a disp (atOperand ty b)
def execMredMax (h : Hd) (ty : IntTy) (o : Ord) (a b : RegNo) (disp : Disp) (s : State) : Res :=
  s.atomic h .max ty o none a disp (atOperand ty b)
def execMredAnd (h : Hd) (ty : IntTy) (o : Ord) (a b : RegNo) (disp : Disp) (s : State) : Res :=
  s.atomic h .and ty o none a disp (atOperand ty b)
def execMredOr (h : Hd) (ty : IntTy) (o : Ord) (a b : RegNo) (disp : Disp) (s : State) : Res :=
  s.atomic h .or ty o none a disp (atOperand ty b)
def execMredXor (h : Hd) (ty : IntTy) (o : Ord) (a b : RegNo) (disp : Disp) (s : State) : Res :=
  s.atomic h .xor ty o none a disp (atOperand ty b)
def execMredAddF32 (h : Hd) (o : Ord) (a b : RegNo) (disp : Disp) (s : State) : Res :=
  s.atomic h .fadd .n32 o none a disp (atOperand .n32 b)
def execMredMinF32 (h : Hd) (num : Bool) (o : Ord) (a b : RegNo) (disp : Disp) (s : State) : Res :=
  s.atomic h (.fmin num) .n32 o none a disp (atOperand .n32 b)
def execMredMaxF32 (h : Hd) (num : Bool) (o : Ord) (a b : RegNo) (disp : Disp) (s : State) : Res :=
  s.atomic h (.fmax num) .n32 o none a disp (atOperand .n32 b)

/-! ### Fences (R312, R313) -/

/-- A fence of the active parties: it closes their collector requests, stalls until its wait has ended for each, and then
issues. An acquire of a wide scope discards the L1 (Table 14-5). Under `ack` the reads that are still to return stand
before every later write of their party, as a release has them (R300). -/
def State.fence (s : State) (h : Hd) (done : State → Nat → Nat → Who → Bool) (acq : Option Scope) (ack : Bool) : Res := match s.me with
  | none => .next s
  | some b =>
    let ws := (s.views h).map (·.2.1)
    if ws.isEmpty then .next (s.skip h)
    else
      let s1 := s.closeColl b.core b.slot ws
      if ws.all (done s1 b.core b.slot) then
        let s2 := if ack then
            { s1 with pends := s1.pends.map fun (p : Pend) =>
                if p.core == b.core && p.slot == b.slot && ws.contains p.who then { p with acked := true } else p }
          else s1
        .next ((match acq with
          | some sc => s2.acquireBy b.core b.slot ws sc
          | none => s2).skip h)
      else .next s1

def execFenceRel (h : Hd) (scope : Scope) (s : State) : Res :=
  s.fence h (fun s c sl w => s.readsDone c sl w && s.performed c sl w scope) none false
def execFenceAcq (h : Hd) (scope : Scope) (s : State) : Res := s.fence h (fun s c sl w => s.readsDone c sl w) (some scope) false
def execFenceSc (h : Hd) (scope : Scope) (s : State) : Res :=
  s.fence h (fun s c sl w => s.readsDone c sl w && s.performed c sl w scope) (some scope) false

/-- Whether a party has a tag register that waits for its number (R312). -/
def State.tagsDone (s : State) (core slot : Nat) (w : Who) : Bool :=
  let c := s.core core
  let mine := fun (l : List (Who × Nat)) => l.any fun t => t.1 == w
  !(c.paths.any fun e => e.slot == slot && e.reqs.any fun r => mine r.tags) &&
  !(c.outb.any fun o => o.slot == slot && mine o.req.tags) &&
  !(s.outstanding.any fun o => o.core == core && o.slot == slot && mine o.tags)

def execFenceAck (h : Hd) (s : State) : Res :=
  s.fence h (fun s c sl w => s.performed c sl w .sys && s.tagsDone c sl w) none true

/-- Whether every engine command with an entry of a party, and every copy of it, has finished with its result or token
written (R312). -/
def State.engDone (s : State) (core slot : Nat) (w : Who) : Bool :=
  let queued := fun (q : QReg) => (match q.bind with
    | some (.engine _ _ _) => true
    | _ => false) && q.push.any fun e => e.who == w
  !(s.copies.any fun c => c.core == core && c.slot == slot && c.parties.contains w) &&
  !(s.cmds.any fun c => c.core == core && c.slot == slot && c.ents.any fun e => e.who == w) &&
  (match s.block? core slot with
    | some b => !(b.q.any queued)
    | none => true)

def execFenceEng (h : Hd) (scope : Scope) (s : State) : Res := s.fence h State.engDone (some scope) false

end Sys2Proof.Machine
end

