-- ==== Sys2Proof/Machine/Queue.lean ====
section
/-! DEFINITION. Queues, class 0xA, with the ports of the engines (R17, R18, R194–R209). -/

namespace Sys2Proof.Machine

open Sys2Proof

/-! ### Binding (R195, R206) -/

def kindOf (k : Nat) : Option EngKind := match k with
  | 0 => some .copy
  | 1 => some .collector
  | 2 => some .bank
  | 3 => some .eddy
  | 4 => some .coll
  | 5 => some .quant
  | _ => none

/-- The engine that a block's queue registers reach (Table 9-1). -/
def engUnit (k : EngKind) (core : Nat) : Nat := match k with
  | .eddy => coreDie core
  | .coll => servingL (coreDie core)
  | _ => core

/-- An engine in service at the current stage (R419, R420). -/
def State.engUp (s : State) (k : EngKind) (core : Nat) : Bool := match k with
  | .copy => true
  | .collector => true
  | .coll => s.stage = .stage2 && s.ldieUp (servingL (coreDie core))
  | _ => s.stage = .stage2

/-- The queue register that a block has bound to port 1 of its core's bank (R366). -/
def Block.bankReg (b : Block) : Option Nat := b.q.findIdx? fun q => q.bind == some (.engine .bank b.core 1)

/-- Whether a port exists for a block: the bank's port 1 takes one register of its holder (R283, R356, R366, R413). -/
def State.portOk (s : State) (b : Block) (k : EngKind) (port : Nat) : Bool := match k, port with
  | _, 0 => true
  | .coll, 1 => true
  | .bank, 1 => (s.core b.core).bank.holder == some b.slot && b.bankReg.isNone
  | _, _ => false

/-- What `qbind` answers, and the binding it makes when that is 0 (R206) (log 65, DEDUCED). -/
def State.bindTo (s : State) (b : Block) (n k sel : Nat) : Nat × Option Binding :=
  if (b.qreg n).bind.isSome then (1, none)
  else match kindOf k with
  | some e =>
    if !s.engUp e b.core then (2, none)
    else if !s.portOk b e (sel % 16) then (3, none)
    else (0, some (.engine e (engUnit e b.core) (sel % 16)))
  | none =>
    if k = 6 then
      (if Nat.max b.kr.nstage.toNat 1 ≤ sel % 8 then (2, none) else (0, some (.stage (sel % 8))))
    else if !(s.ctx b.ctx).priv || s.hostHolder.isSome then (4, none)
    else (0, some .host)

/-- A form issued once: every active party receives one 32-bit value (R206). -/
def State.giveAll (s : State) (h : Hd) (d : RegNo) (v : W32) : State := s.commit h ((s.views h).map fun x => (x.2.1, .ok [x.2.2.w32 d v]))

def execQbind (h : Hd) (d a : RegNo) (qb : BitVec 4) (k : BitVec 3) (s : State) : Res := match s.me, s.views h with
  | none, _ => .next s
  | _, [] => .next (s.skip h)
  | some b, x :: _ =>
    let r := s.bindTo b qb.toNat k.toNat (x.2.2.r32 a).toNat
    let s1 := match r.2 with
      | none => s
      | some .host => { s.updMe (fun b => b.updQ qb.toNat fun q => { q with bind := some .host }) with
                        hostHolder := some (b.core, b.slot, qb.toNat) }
      | some x => s.updMe fun b => b.updQ qb.toNat fun q => { q with bind := some x }
    .next (s1.giveAll h d (BitVec.ofNat 32 r.1))

/-- Whether a queue register is idle (R195). -/
def State.qIdle (s : State) (b : Block) (n : Nat) : Bool :=
  let q := b.qreg n
  q.push.isEmpty && q.pop.isEmpty && !(s.cmds.any fun c => c.core == b.core && c.slot == b.slot && c.q == n)

/-- The binding of a queue register ends; a host binding is free for the next (R203). -/
def State.unbind (s : State) (core slot n : Nat) : State :=
  let host : Bool := match s.block? core slot with
    | some b => (b.qreg n).bind == some .host
    | none => false
  let s1 := s.updBlock core slot fun b => b.updQ n fun _ => {}
  if host then { s1 with hostHolder := none } else s1

def execQunbind (h : Hd) (d : RegNo) (qb : BitVec 4) (s : State) : Res := match s.me, s.views h with
  | none, _ => .next s
  | _, [] => .next (s.skip h)
  | some b, _ =>
    if (b.qreg qb.toNat).bind.isNone then .next (s.giveAll h d 0)
    else if s.qIdle b qb.toNat then .next ((s.unbind b.core b.slot qb.toNat).giveAll h d 0)
    else .next (s.giveAll h d 5)

/-! ### Pushes and pops (R196, R207) -/

/-- Whether a binding has a push side, and a pop side (Table 9-1, R366). -/
def Binding.pushes : Binding → Bool
  | .engine .bank _ 1 => false
  | .engine _ _ _ => true
  | .stage _ => true
  | .host => false
def Binding.pops : Binding → Bool
  | .engine _ _ _ => true
  | _ => false

/-- The queue-unbound fault of every active party; the other lanes go on (R22, R195). -/
def State.qfault (s : State) (h : Hd) (n : Nat) : State :=
  if s.busy then s
  else
    let ws := (s.views h).map (·.2.1)
    let s1 := (s.account h true).advance (s.issuers.filter fun w => !ws.contains w)
    (s1.deliver 0 (ws.map fun w => (w, { code := 0x09, info := BitVec.ofNat 16 n }))).tidy

/-- Whether the parties' earlier accesses are performed at `.core`, as a release there needs (R204). -/
def State.coreRelease (s : State) (b : Block) (ws : List Who) : Bool :=
  ws.all fun w => s.readsDone b.core b.slot w && s.pathClear b.core b.slot w

/-- A pushed value: an S register, a pair, or a V register zero-extended (R207). -/
def View.qval (v : View) (b64 : Bool) (a : RegNo) : W64 := if v.isCox || b64 then v.r64 a else (v.r32 a).zeroExtend 64

def execQpush (h : Hd) (b64 : Bool) (qd : BitVec 4) (a : RegNo) (s : State) : Res := match s.me, s.views h with
  | none, _ => .next s
  | _, [] => .next (s.skip h)
  | some b, x :: rest =>
    let vs : List (Nat × Who × View) := x :: rest
    let q := b.qreg qd.toNat
    match q.bind with
    | none => .next (s.qfault h qd.toNat)
    | some k =>
      if !k.pushes then .next (s.qfault h qd.toNat)
      else if 64 < q.push.length + vs.length then .next s
      else if (match k with
        | .stage _ => !s.coreRelease b (vs.map fun (x : Nat × Who × View) => x.2.1)
        | _ => false) then .next s
      else
        let es := vs.map fun (x : Nat × Who × View) => ({ v := x.2.2.qval b64 a, who := x.2.1, iss := s.nextId } : QEnt)
        let put := fun (q : QReg) => { q with push := q.push ++ es, pushed := q.pushed + es.length }
        .next ((s.updMe fun b => b.updQ qd.toNat put).skip h)

/-- The writes of a popped entry (R207, R208). -/
def View.qput (v : View) (b64 : Bool) (d : RegNo) (e : W64) : List Wr := match v with
  | .cox _ => [.s d.toNat e]
  | .fib _ => if b64 then v.w64 d e else [.v d.toNat (loWord e)]

def execQpop (h : Hd) (b64 bc : Bool) (d : RegNo) (qa : BitVec 4) (s : State) : Res := match s.me, s.views h with
  | none, _ => .next s
  | _, [] => .next (s.skip h)
  | some b, x :: rest =>
    let vs : List (Nat × Who × View) := x :: rest
    let q := b.qreg qa.toNat
    if !((q.bind.map Binding.pops).getD false) then .next (s.qfault h qa.toNat)
    else
      let n := if bc then 1 else vs.length
      if q.pop.length < n then .next s
      else
        let outs := vs.zipIdx.map fun x =>
          (x.1.2.1, LOut.ok (x.1.2.2.qput b64 d ((q.pop[if bc then 0 else x.2]?).getD 0)))
        .next ((s.updMe fun b => b.updQ qa.toNat fun q => { q with pop := q.pop.drop n }).commit h outs)

/-! ### Draining (R207) -/

def execQdrain (h : Hd) (d : RegNo) (qa : BitVec 4) (s : State) : Res := match s.me, s.views h with
  | none, _ => .next s
  | _, [] => .next (s.skip h)
  | some b, x :: rest =>
    let q := b.qreg qa.toNat
    if !((q.bind.map fun k => k != .host).getD false) then .next (s.qfault h qa.toNat)
    else
      let dr : Drain := { issue := s.nextId, core := b.core, slot := b.slot, q := qa.toNat, target := q.pushed
                          regs := tokenOf (x :: rest) d }
      let s1 := s.skip h
      .next ({ s1 with drains := s1.drains ++ [dr] }.drainAll)

/-! ### The decision queue (R201, R208) -/

def execDqPush (h : Hd) (a : RegNo) (s : State) : Res := match s.me with
  | none => .next s
  | some b =>
    if 64 ≤ b.dq.length || !s.coreRelease b [.cox] then .next s
    else .next ((s.updMe fun b => { b with dq := b.dq ++ [b.cox.reg a.toNat] }).skip h)

/-- Takes tokens for the active lanes: one for all, or one each; a pop is an acquire of its lanes (R204). -/
def State.dqTake (s : State) (h : Hd) (each b64 : Bool) (d : RegNo) : Res := match s.me, s.views h with
  | none, _ => .next s
  | _, [] => .next (s.skip h)
  | some b, x :: rest =>
    let vs : List (Nat × Who × View) := x :: rest
    let n := if each then vs.length else 1
    let ws := vs.map fun x => x.2.1
    if b.dq.length < n then .next s
    else
      let s := s.acquireBy b.core b.slot ws .core
      let outs := vs.zipIdx.map fun x => (x.1.2.1, LOut.ok (x.1.2.2.qput b64 d ((b.dq[if each then x.2 else 0]?).getD 0)))
      .next ((s.updMe fun b => { b with dq := b.dq.drop n }).commit h outs)

def execDqPop (h : Hd) (b64 : Bool) (d : RegNo) (s : State) : Res := s.dqTake h false b64 d
def execDqPopf (h : Hd) (b64 : Bool) (d : RegNo) (s : State) : Res := s.dqTake h true b64 d

/-! ### The host receive queue (R202, R203, R209) -/

def execHrecv (h : Hd) (try_ : Bool) (d : RegNo) (qa : BitVec 4) (s : State) : Res := match s.me with
  | none => .next s
  | some b =>
    if (b.qreg qa.toNat).bind != some .host then .next (s.qfault h qa.toNat)
    else match s.hrq with
    | e :: r => .next ((({ s with hrq := r }).acquireBy b.core b.slot [.cox] .sys).commit h [(.cox, .ok [.s d.toNat e])])
    | [] => if try_ then .next (s.commit h [(.cox, .ok [.s d.toNat 0x8000000000000000])]) else .next s

/-! ### Engine ports (R17, R194, R200) -/

/-- The budget class of the commands of an engine's port (R104). Ultra Ethernet commands are of none. -/
def engClass : EngKind → Nat → Option BClass
  | .copy, _ => some .copy
  | .collector, _ => some .copy
  | .bank, _ => some .bank
  | .eddy, _ => some .eddy
  | .coll, port => if port = 0 then some .coll else none
  | .quant, _ => none

/-- The die that charges an engine's class: 0–3, or 4–5 for an L-die. -/
def engDie (k : EngKind) (unit : Nat) : Nat := match k with
  | .eddy => unit
  | .coll => 4 + unit
  | _ => coreDie unit

/-- The dimension of a bank's configuration. -/
def Bank.dim (k : Bank) : Nat := bits k.cfg.toNat 6 0

/-- How many entries make up the command at the head of a push side. A push command of the bank has the D in force when its header
was taken (R367). How many an Eddy command takes is open: at least one, and no more than a push side holds (log 15, DESIGN
CHOICE). -/
def State.cmdLen (s : State) (k : EngKind) (b : Block) (port : Nat) (lead : Option Nat) (e : QEnt) : Nat := match k with
  | .copy => 3
  | .collector => 2
  | .quant => 4
  | .coll => if port = 0 then 2 else 3
  | .eddy => Config.eddyEntries e.v % 64 + 1
  | .bank =>
    let bank := (s.core b.core).bank
    match lead with
    | some d => 1 + (d + 1) / 2
    | none => if bits e.v.toNat 63 60 = 1 && bits e.v.toNat 59 0 = 0 && bank.holder == some b.slot then 1 + (bank.dim + 1) / 2 else 1

/-- Whether a port waits for the entries of a command whose header it has taken: it turns to no other command then (R367) (log 66,
DEDUCED). -/
def State.leadWaits (s : State) (k : EngKind) (unit port : Nat) : Bool := s.blocks.any fun b => (s.ctx b.ctx).st == .running &&
  b.q.any fun q => q.lead.isSome && q.bind == some (.engine k unit port)

/-- Whether a port can turn to a queue register: its context runs, its class is not held, no finished result of it waits for room,
and the port waits for no other (R104, R106, R200, R367). -/
def State.open? (s : State) (k : EngKind) (unit port : Nat) (b : Block) (n : Nat) : Bool :=
  let q := b.qreg n
  let heldUp := match engClass k port with
    | some c => s.held b.ctx (engDie k unit) c
    | none => false
  q.bind == some (.engine k unit port) && (s.ctx b.ctx).st == .running && !heldUp &&
    !(s.cmds.any fun c => c.core == b.core && c.slot == b.slot && c.q == n && c.result.isSome) &&
    (q.lead.isSome || !s.leadWaits k unit port)

/-- The command that a queue register offers a port: every entry of it stands in the push side (R194). -/
def State.offer (s : State) (k : EngKind) (unit port : Nat) (b : Block) (n : Nat) : Option Nat :=
  let q := b.qreg n
  if !s.open? k unit port b n then none
  else match q.push with
  | [] => none
  | e :: _ => if s.cmdLen k b port q.lead e ≤ q.push.length then some (s.cmdLen k b port q.lead e) else none

/-- Whether a queue register offers the bank's port a header alone, whose further entries are still to come (R367). -/
def State.offersHead (s : State) (k : EngKind) (unit port : Nat) (b : Block) (n : Nat) : Bool :=
  let q := b.qreg n
  k == .bank && s.open? k unit port b n && q.lead.isNone && match q.push with
  | [] => false
  | e :: _ => q.push.length < s.cmdLen k b port none e

/-- The last queue register a port took from, as (core × 16 + slot) × 16 + number. -/
def State.portLast (s : State) (k : EngKind) (unit port : Nat) : Nat :=
  match s.portRR.find? fun r => r.1 == k && r.2.1 == unit && r.2.2.1 == port with
  | some r => r.2.2.2
  | none => 0x8000

/-- A slot command as Eddy's port reads it: the spec gives its entries no format, so that every field is free
(log 15, DESIGN CHOICE). -/
def edPortKind (f : Nat → Nat) : EdKind :=
  let w := fun (i : Nat) => (BitVec.ofNat 32 (f i) : W32)
  match f 0 % 8 with
  | 0 => .gate (f 3 % 3 + 1) ((List.range (2 * 4 ^ (f 3 % 3 + 1))).map fun i => w (16 + i)) (w 4)
  | 1 => .meas (w 4)
  | 2 => .norm
  | 3 =>
    let desc := leBytes 32 (f 5)
    let gd := ((desc[18]?).getD 0).toNat
    .init (f 6 % 2 = 1) desc (if 9 < gd then [] else (List.range (2 ^ gd)).map fun i => f (256 + i) % 65536)
  | 4 => .rd (w 4)
  | 5 => .wr (w 4)
  | 6 => .swap (w 4)
  | _ => .free

/-- The flags of such a command: only a gate, a measurement and a normalisation have them (R389). -/
def edPortOrd (f : Nat → Nat) : Ord :=
  let sc := match f 8 % 3 with
    | 0 => Scope.die
    | 1 => .dev
    | _ => .sys
  if f 0 % 8 < 3 && (f 9 % 2 = 1 || f 10 % 2 = 1) then { acq := f 9 % 2 = 1, rel := f 10 % 2 = 1, scope := sc } else {}

/-- A command that Eddy's port has taken joins the commands of its slot, in the order the port takes them (R382). -/
def State.edArrive (s : State) (c : Cmd) : State := match c.k with
  | .eddy =>
    let f := Config.eddyField s.tick (c.ents.map fun e => e.v)
    let e : EdCmd := { issue := c.seq, kind := edPortKind f, o := edPortOrd f, core := c.core, slot := c.slot, parties := c.parties
                       after := c.after, dest := .queue c.q }
    s.updCtx (s.ctxAt c.core c.slot) fun x => { x with eddy := x.eddy.modify (f 1 % 4) fun k => { k with cmds := k.cmds ++ [e] } }
  | _ => s

/-- An engine port takes one command from the next queue register with a pending command (R17) (log 66, DEDUCED). A collective
or dispatch command is charged as it is taken (R104). A header of the bank's port fixes D, and the rest of its command follows
(R367). -/
def execEnginePortTake (k : EngKind) (unit port : Nat) (s : State) : Res :=
  let all := s.blocks.flatMap fun b => (List.range 16).filterMap fun n =>
    let i := (b.core * 16 + b.slot) * 16 + n
    match s.offer k unit port b n with
    | some m => some (i, b, n, m)
    | none => if s.offersHead k unit port b n then some (i, b, n, 0) else none
  let last := s.portLast k unit port
  let dim := fun (b : Block) => (s.core b.core).bank.dim
  match leastBy (fun x => if last < x.1 then x.1 else x.1 + 0x10000) all with
  | none => .next s
  | some (_, b, n, 0) => .next (s.updBlock b.core b.slot fun k => k.updQ n fun q => { q with lead := some (dim b) })
  | some (i, b, n, m) =>
    let q := b.qreg n
    let c : Cmd := { k := k, unit := unit, port := port, core := b.core, slot := b.slot, q := n, ents := q.push.take m
                     first := q.taken, dim := q.lead.getD (dim b), seq := s.nextId }
    let rest := s.portRR.filter fun r => !(r.1 == k && r.2.1 == unit && r.2.2.1 == port)
    let s1 := ({ s with nextId := s.nextId + 1, cmds := s.cmds ++ [c], portRR := rest ++ [(k, unit, port, i)] }).updBlock b.core b.slot
      fun b => b.updQ n fun q => { q with lead := none, push := q.push.drop m, taken := q.taken + m }
    let s2 := if k = .coll && port = 0 then s1.charge b.ctx (engDie k unit) .coll 1 else s1
    .next ((((s2.edArrive c).rouseQueue s b.core b.slot n true)).drainAll)

/-- A finished result enters the pop side once there is room (R200). Results of one queue register enter in the order of
their commands (log 66, DEDUCED). -/
def execResultEnter (k : EngKind) (unit port : Nat) (s : State) : Res :=
  let ok := fun (c : Cmd) => c.k == k && c.unit == unit && c.port == port && (match c.result, s.block? c.core c.slot with
    | some r, some b => (b.qreg c.q).pop.length + r.length ≤ 64 &&
        !(s.cmds.any fun x => x.core == c.core && x.slot == c.slot && x.q == c.q && x.seq < c.seq)
    | some _, none => true
    | none, _ => false)
  match s.cmds.find? ok with
  | none => .next s
  | some c =>
    let s1 := { s with cmds := s.cmds.filter fun x => x.seq != c.seq }.updBlock c.core c.slot fun b =>
      b.updQ c.q fun q => { q with pop := q.pop ++ c.result.getD [] }
    .next ((s1.rouseQueue s c.core c.slot c.q false).drainAll)

end Sys2Proof.Machine
end

