-- ==== Sys2Proof/Machine/Bank.lean ====
section
/-! DEFINITION. The clustering accumulator bank, class 0xC (R359–R373). -/

namespace Sys2Proof.Machine

open Sys2Proof

/-! ### Configuration (R360) -/

def Bank.ne (k : Bank) : Nat := bits k.cfg.toNat 18 8
def Bank.met (k : Bank) : Nat := bits k.cfg.toNat 21 20
def Bank.pol (k : Bank) : Nat := bits k.cfg.toNat 23 22

/-- Whether a configuration word is valid. -/
def cfgValid (w : W64) : Bool :=
  let x := w.toNat
  let d := bits x 6 0
  let ne := bits x 18 8
  bits x 63 24 == 0 && bits x 19 19 == 0 && bits x 7 7 == 0 && bits x 21 20 != 3 && 1 ≤ d && d ≤ 64 && 1 ≤ ne &&
    ne ≤ Nat.min 1024 (8192 / d)

/-! ### Entries and distances (R361, R362) -/

/-- s ÷ c, rounded once. -/
def meanOf (s : List W32) (c : W32) : List W32 :=
  s.map fun x => BitVec.ofNat 32 (Fmt.f32.divVal .rne (Fmt.f32.decode x.toNat) (FVal.ofInt c.toNat))

def openEnt (v : List W32) : BEnt := { c := 1, s := v, m := v }

def addVec (x y : List W32) : List W32 := (x.zip y).map fun p => f32add .rne p.1 p.2

def satAdd (x y : W32) : W32 := BitVec.ofNat 32 (Nat.min (x.toNat + y.toNat) 0xFFFFFFFF)

def growEnt (e : BEnt) (v : List W32) : BEnt :=
  let s := addVec e.s v
  let c := satAdd e.c 1
  { c := c, s := s, m := meanOf s c }

def joinEnt (e f : BEnt) : BEnt :=
  let s := addVec e.s f.s
  let c := satAdd e.c f.c
  { c := c, s := s, m := meanOf s c }

def FVal.abs : FVal → FVal
  | .inf _ => .inf false
  | .fin _ m e => .fin false m e
  | .nan => .nan

/-- The distance of a metric (R362). -/
def distance (met : Nat) (x y : List W32) : FVal :=
  let xs := x.map fun a => Fmt.f32.decode a.toNat
  let ys := y.map fun a => Fmt.f32.decode a.toNat
  let term := fun (p : FVal × FVal) =>
    let d := exactSum .rne [p.1, p.2.neg]
    match met with
    | 0 => d.mul d
    | 1 => d.abs
    | _ => (p.1.mul p.2).neg
  Fmt.f32.decode (Fmt.f32.sum .rne ((xs.zip ys).map term))

/-- Whether one distance is less than another; NaN is greater than every number. -/
def distLt (a b : FVal) : Bool := if a.isNan then false else b.isNan || a.lt b

/-- The first of least distance. -/
def leastDist : List (α × FVal) → Option (α × FVal)
  | [] => none
  | x :: r => match leastDist r with
    | none => some x
    | some y => if distLt y.2 x.2 then some y else some x

/-- The valid entries with their indices. -/
def Bank.valid (k : Bank) : List (Nat × BEnt) := (k.ents.zipIdx.filter fun x => x.1.c != 0).map fun x => (x.2, x.1)

def Bank.nearest (k : Bank) (v : List W32) : Option (Nat × FVal) :=
  leastDist (k.valid.map fun x => (x.1, distance k.met v x.2.m))

def Bank.closest (k : Bank) : Option (Nat × Nat) :=
  let vs := k.valid
  let ps := vs.flatMap fun x => (vs.filter fun y => x.1 < y.1).map fun y => ((x.1, y.1), distance k.met x.2.m y.2.m)
  (leastDist ps).map (·.1)

def Bank.ent (k : Bank) (i : Nat) : BEnt := (k.ents[i]?).getD {}
def Bank.setEnt (k : Bank) (i : Nat) (e : BEnt) : Bank := { k with ents := k.ents.set i e }

/-! ### Arrivals (R363, R364) -/

/-- A result word (R363). -/
def bankWord (act j e : Nat) : W32 := BitVec.ofNat 32 (act * 2 ^ 28 + j * 2 ^ 16 + e)

def notHeld : W32 := 0xF0000000

/-- Two FP32 elements to an entry (R366). -/
def pairUp : List W32 → List W64
  | [] => []
  | [a] => [pairWord a 0]
  | a :: b :: r => pairWord a b :: pairUp r

/-- An overflow or spill record (R366). -/
def bankRec (kind idx : Nat) (cnt : W32) (v : List W32) : List W64 :=
  BitVec.ofNat 64 (kind * 2 ^ 62 + idx * 2 ^ 32 + cnt.toNat) :: pairUp v

/-- The full bank's policy (R364): the bank, the result word, and a record to emit. -/
def Bank.full (k : Bank) (v : List W32) : Bank × W32 × Option (List W64) :=
  let absorb := match k.nearest v with
    | some (e, _) => (k.setEnt e (growEnt (k.ent e) v), bankWord 2 0 e, none)
    | none => (k, bankWord 5 0 0, none)
  match k.pol with
  | 0 => (k, bankWord 5 0 0, some (bankRec 1 0 1 v))
  | 1 => match k.closest with
    | some (e, f) => ((k.setEnt e (joinEnt (k.ent e) (k.ent f))).setEnt f (openEnt v), bankWord 3 f f, none)
    | none => absorb
  | 2 => absorb
  | _ => match leastBy (fun x => x.2.c.toNat) k.valid with
    | some (e, x) => (k.setEnt e (openEnt v), bankWord 4 e e, some (bankRec 2 e x.c x.s))
    | none => (k, bankWord 5 0 0, none)

/-- A vector is placed (R363). -/
def Bank.place (k : Bank) (v : List W32) : Bank × W32 × Option (List W64) :=
  let near := match k.nearest v with
    | some (e, d) => if fccHolds .le d (Fmt.f32.decode k.radius.toNat) then some e else none
    | none => none
  match near with
  | some e => (k.setEnt e (growEnt (k.ent e) v), bankWord 0 0 e, none)
  | none => match k.ents.findIdx? fun e => e.c == 0 with
    | some e => (k.setEnt e (openEnt v), bankWord 1 0 e, none)
    | none => k.full v

/-- `cbmerge`'s arrival (R371). -/
def Bank.mergeAny (k : Bank) : Bank × W32 := match k.closest with
  | some (e, f) => ((k.setEnt e (joinEnt (k.ent e) (k.ent f))).setEnt f {}, bankWord 6 f e)
  | none => (k, bankWord 7 0 0)

def State.bank (s : State) (core : Nat) : Bank := (s.core core).bank
def State.updBank (s : State) (core : Nat) (f : Bank → Bank) : State := s.updCore core fun c => { c with bank := f c.bank }

/-- The 32-bit result of an arrival goes to its registers or its queue register. -/
def State.bankGive (s : State) (core slot issue : Nat) (dest : Dest) (v : W32) : State := match dest with
  | .regs l => (s.updBlock core slot fun b => l.foldl (fun b t => b.wr t.1 [match t.1 with
      | .cox => .s t.2 (v.zeroExtend 64)
      | .fib _ => .v t.2 v]) b).rouse core 5 0
  | .queue _ => s.setResult issue [v.zeroExtend 64]

/-- The block that holds a core's bank. -/
def State.bankBlock (s : State) (core : Nat) : Option Block := (s.bank core).holder.bind fun slot => s.block? core slot

/-- A record leaves for the holder's port-1 register, or is dropped and counted when it has bound none (R359, R366). -/
def State.bankEmit (s : State) (core : Nat) : Option (List W64) → State
  | none => s
  | some r =>
    if ((s.bankBlock core).bind Block.bankReg).isSome then s.updBank core fun k => { k with overflow := k.overflow ++ [r] }
    else s.updBank core fun k => { k with drop := satAdd k.drop 1 }

/-- What `cbrd` writes for an entry (R372). -/
def Bank.readEnt (k : Bank) (w : Who) (d i : Nat) (sum : Bool) (dim : Nat) : List Wr :=
  let e := if i < k.ne then k.ent i else {}
  let v := if e.c = 0 then List.replicate dim 0 else if sum then e.s else e.m
  match w with
  | .cox => [.s d (e.c.zeroExtend 64)]
  | .fib _ => .v d e.c :: v.zipIdx.map fun x => .v (d + 1 + x.2) x.1

/-- Whether an arrival is a queue command's, and the parties of an instruction's. -/
def BArr.fromPort (a : BArr) : Bool := match a.dest with
  | .queue _ => true
  | .regs _ => false
def BArr.who (a : BArr) : List Who := match a.dest with
  | .queue _ => []
  | .regs l => l.map fun (x : Who × Nat) => x.1

/-- Whether an earlier arrival reaches the write port before a later one: both come through port 0, or from one part, one cox
thread or one party, or from instructions of one cycle (R365). -/
def BArr.before (b a : BArr) : Bool :=
  if a.fromPort || b.fromPort then a.fromPort && b.fromPort
  else b.cyc == a.cyc || (b.slot == a.slot && (b.src == a.src || b.who.any a.who.contains))

/-- The arrivals that may be next: none is before them. -/
def BArr.heads (l : List BArr) : List Nat := (List.range l.length).filter fun i => match l[i]? with
  | some a => !((l.take i).any fun b => b.before a)
  | none => false

/-- Which arrival the write port takes: the next of the issue it serves, or any that may be next, chosen by `n`: which source goes
first is open but for a read of an earlier result, after which that arrival is gone (R365, R374) (log 116, DESIGN CHOICE). -/
def Bank.nextArr (k : Bank) (n : Nat) : Option (BArr × List BArr) :=
  let one := fun (i : Nat) => (k.arrivals[i]?).map fun a => (a, k.arrivals.eraseIdx i)
  match k.arrivals.findIdx? fun a => a.issue == k.serving with
  | some i => one i
  | none => match BArr.heads k.arrivals with
    | [] => none
    | [i] => one i
    | i :: j :: r => ((i :: j :: r).drop (n % (r.length + 2))).head?.bind one

/-- The write port processes one arrival, unless a record still waits to enter (R363, R365, R366). -/
def execBankArrival (core : Nat) (s : State) : Res :=
  let k := s.bank core
  match k.nextArr (Config.pick s.tick) with
  | none => .next s
  | some (a, rest) =>
    if !k.overflow.isEmpty then .next s
    else
      let ctx := s.ctxAt core a.slot
      let k := { k with arrivals := rest, serving := a.issue }
      let s0 := (s.updBank core fun _ => k).charge ctx (coreDie core) .bank 1
      let mine := k.holder == some a.slot
      match a.kind with
      | .vec v =>
        if !mine || v.length ≠ k.dim then .next (s0.bankGive core a.slot a.issue a.dest notHeld)
        else
          let r := k.place v
          .next (((s0.updBank core fun _ => r.1).bankEmit core r.2.2).bankGive core a.slot a.issue a.dest r.2.1)
      | .merge =>
        if !mine then .next (s0.bankGive core a.slot a.issue a.dest notHeld)
        else
          let r := k.mergeAny
          .next ((s0.updBank core fun _ => r.1).bankGive core a.slot a.issue a.dest r.2)
      | .rd i sum dim =>
        if !mine || dim ≠ k.dim then .next (s0.bankGive core a.slot a.issue a.dest 0)
        else match a.dest with
        | .regs l => .next ((s0.updBlock core a.slot fun b => l.foldl (fun b t => b.wr t.1 (k.readEnt t.1 t.2 i sum dim)) b).rouse core 5 0)
        | .queue _ => .next s0

/-- An overflow or spill record enters the pop side of the holder's port-1 register in one step (R359, R366). -/
def execOverflowRecordEnter (core : Nat) (s : State) : Res :=
  match (s.bank core).overflow with
  | [] => .next s
  | r :: rest =>
    let s1 := s.updBank core fun k => { k with overflow := rest }
    match (s.bankBlock core).bind fun b => b.bankReg.map fun n => (b, n) with
    | none => .next (s1.updBank core fun k => { k with drop := satAdd k.drop 1 })
    | some (b, n) =>
      if 64 < (b.qreg n).pop.length + r.length then .next s
      else .next ((s1.updBlock b.core b.slot fun b => b.updQ n fun q => { q with pop := q.pop ++ r }).rouseQueue s core b.slot n false)

/-! ### Commands (R367) -/

/-- The vector of a push command: two elements to an entry. -/
def unpair (d : Nat) (es : List W64) : List W32 := (es.flatMap fun e => [loWord e, hiWord e]).take d

/-- Whether a command is a merge: [63:60] = 2, [59:0] zero. -/
def Cmd.isMerge (c : Cmd) : Bool := bits (c.ent 0).toNat 63 60 == 2 && bits (c.ent 0).toNat 59 0 == 0

/-- A command arrives at the write port, its vector as long as the D of its take; one with another header, of a block without the
bank, or taken as a header alone returns at once (R367). -/
def State.bankCommand (s : State) (core : Nat) (merge : Bool) : State :=
  match s.cmds.find? fun c => c.k == .bank && c.unit == core && c.result.isNone && !c.busy with
  | none => s
  | some c =>
    let k := s.bank core
    let e := (c.ent 0).toNat
    let push := bits e 63 60 == 1 && bits e 59 0 == 0 && 1 < c.ents.length
    let arrive := fun (x : BArrKind) => (s.markBusy c.seq).updBank core fun k =>
      { k with arrivals := k.arrivals ++ [{ issue := c.seq, slot := c.slot, kind := x, dest := .queue c.q }] }
    if c.isMerge != merge then s
    else if k.holder != some c.slot || !(push || c.isMerge) then (s.markBusy c.seq).setResult c.seq [notHeld.zeroExtend 64]
    else if merge then arrive .merge
    else arrive (.vec (unpair (2 * (c.ents.length - 1)) ((c.ents.drop 1).map (·.v)) |>.take c.dim))

def execBankPushCommand (core : Nat) (s : State) : Res := .next (s.bankCommand core false)
def execBankMergeCommand (core : Nat) (s : State) : Res := .next (s.bankCommand core true)

/-! ### Instructions (R369–R373) -/

/-- Whether the holder's earlier arrivals have been processed, its commands that the port has taken among them (log 87, DEDUCED). -/
def State.bankQuiet (s : State) (core slot : Nat) : Bool :=
  let k := s.bank core
  !(k.arrivals.any fun a => a.slot == slot) && k.overflow.isEmpty &&
  !(s.cmds.any fun c => c.k == .bank && c.unit == core && c.slot == slot && c.result.isNone && !c.busy)

/-- Where an issue's arrivals come from: its part or the cox thread, and the cycle of its issue (R365). -/
def State.fromHere (s : State) (a : BArr) : BArr :=
  let src := match s.cur.th with
    | .part id => id
    | _ => 0
  { a with src := src, cyc := (s.cdie (coreDie s.cur.core)).cyc.toNat }

/-- Whether an instruction that arrives at its issue may go before the arrivals of its block that still wait: none is of its own
source or cycle, and the write port is not amid the lanes of one. The order between sources is open (R365, R374). -/
def State.bankClear (s : State) (k : Block) (ws : List Who) : Bool :=
  let b := s.bank k.core
  let a := s.fromHere { issue := s.nextId, slot := k.slot, kind := .merge, dest := .regs (ws.map fun w => (w, 0)) }
  b.overflow.isEmpty && !(b.arrivals.any fun x => x.slot == k.slot && (x.before a || x.issue == b.serving))

/-- `cbcfg` (R359, R369) (log 87, DEDUCED). -/
def execCbcfg (h : Hd) (d a b : RegNo) (s : State) : Res := match s.me with
  | none => .next s
  | some k =>
    let v := View.cox k.cox
    let bank := s.bank k.core
    if s.stage != .stage2 then .next (s.giveAll h d 2)
    else if bank.holder.isSome && bank.holder != some k.slot then .next (s.giveAll h d 1)
    else if (if bank.holder.isSome then !s.bankQuiet k.core k.slot else !s.bankClear k [.cox]) then .next s
    else if !cfgValid (v.r64 a) then .next (s.giveAll h d 3)
    else
      let ne := bits (v.r64 a).toNat 18 8
      let fresh := fun (x : Bank) =>
        { x with holder := some k.slot, cfg := v.r64 a, radius := v.r32 b, ents := List.replicate ne {}, drop := 0 }
      .next ((s.updBank k.core fresh).giveAll h d 0)

def execCbclr (h : Hd) (d : RegNo) (s : State) : Res := match s.me with
  | none => .next s
  | some k =>
    let bank := s.bank k.core
    if bank.holder != some k.slot then .next (s.giveAll h d 4)
    else if !s.bankQuiet k.core k.slot then .next s
    else .next ((s.updBank k.core fun x => { x with ents := x.ents.map fun _ => {} }).giveAll h d 0)

def execCbrel (h : Hd) (d : RegNo) (s : State) : Res := match s.me with
  | none => .next s
  | some k =>
    let bank := s.bank k.core
    if bank.holder != some k.slot then .next (s.giveAll h d 4)
    else if !s.bankQuiet k.core k.slot then .next s
    else .next ((s.updBank k.core fun x => { arrivals := x.arrivals, serving := x.serving }).giveAll h d 0)

def execCbstat (h : Hd) (d : RegNo) (s : State) : Res := match s.me with
  | none => .next s
  | some k =>
    let bank := s.bank k.core
    let v : W64 := if bank.holder != some k.slot then 4 else bank.drop ++ BitVec.ofNat 32 bank.valid.length
    .next (s.commit h [(.cox, .ok [.s d.toNat v])])

/-- Adds arrivals to the write port at issue. -/
def State.bankSend (s : State) (h : Hd) (mk : Nat → List BArr) (core : Nat) : State :=
  (s.updBank core fun k => { k with arrivals := k.arrivals ++ (mk s.nextId).map s.fromHere }).skip h

/-- `cbpush` (R370). The range check stands in the check order (R429). -/
def execCbpush (h : Hd) (d a : RegNo) (s : State) : Res := match s.me with
  | none => .next s
  | some k =>
    let bank := s.bank k.core
    if s.heldHere .bank then .next s
    else if bank.holder != some k.slot then .next (s.giveAll h d notHeld)
    else
      let mk := fun (id : Nat) => (s.views h).map fun x => ({
        issue := id, slot := k.slot, dest := .regs [(x.2.1, d.toNat)]
        kind := .vec ((List.range bank.dim).map fun i => x.2.2.r32 (a + BitVec.ofNat 8 i)) } : BArr)
      .next (s.bankSend h mk k.core)

/-- `cbmerge` (R371) (log 87, DEDUCED). -/
def execCbmerge (h : Hd) (d : RegNo) (s : State) : Res := match s.me with
  | none => .next s
  | some k =>
    if s.heldHere .bank then .next s
    else if (s.views h).isEmpty then .next (s.skip h)
    else
      let mk := fun (id : Nat) => [({ issue := id, slot := k.slot, dest := .regs (tokenOf (s.views h) d), kind := .merge } : BArr)]
      .next (s.bankSend h mk k.core)

/-- `cbrd` (R372). -/
def execCbrd (h : Hd) (sum : Bool) (d a : RegNo) (s : State) : Res := match s.me with
  | none => .next s
  | some k =>
    let bank := s.bank k.core
    if s.heldHere .bank then .next s
    else if bank.holder != some k.slot then .next (s.giveAll h d 0)
    else
      let mk := fun (id : Nat) => (s.views h).map fun x => ({
        issue := id, slot := k.slot, dest := .regs [(x.2.1, d.toNat)], kind := .rd (x.2.2.r32 a).toNat sum bank.dim } : BArr)
      .next (s.bankSend h mk k.core)

/-- The length of a bank image (R373). -/
def bankImageLen (cfg : W64) : Nat := 16 + bits cfg.toNat 18 8 * (16 + 16 * ((bits cfg.toNat 6 0 + 1) / 2))

def vecBytes (v : List W32) : List Byte := v.flatMap fun x => leBytes 4 x.toNat

/-- The image of a bank (R373). -/
def Bank.image (k : Bank) : List Byte :=
  let d := k.dim
  let row := fun (e : BEnt) =>
    let zero := List.replicate d (0 : W32)
    let body := leBytes 4 e.c.toNat ++ List.replicate 12 0 ++ vecBytes (if e.c = 0 then zero else e.s) ++
      vecBytes (if e.c = 0 then zero else e.m)
    (body ++ List.replicate 16 0).take (16 + 16 * ((d + 1) / 2))
  leBytes 8 k.cfg.toNat ++ leBytes 4 k.radius.toNat ++ leBytes 4 k.drop.toNat ++ k.ents.flatMap row

def bytesVec (d : Nat) (x : List Byte) : List W32 := (List.range d).map fun i => BitVec.ofNat 32 (leNat ((x.drop (4 * i)).take 4))

/-- The bank that an image describes. -/
def bankOf (holder : Option Nat) (x : List Byte) : Bank :=
  let cfg : W64 := BitVec.ofNat 64 (leNat (x.take 8))
  let d := bits cfg.toNat 6 0
  let n := 16 + 16 * ((d + 1) / 2)
  let row := fun (e : Nat) =>
    let y := x.drop (16 + n * e)
    let c : W32 := BitVec.ofNat 32 (leNat (y.take 4))
    if c = 0 then ({} : BEnt) else { c := c, s := bytesVec d (y.drop 16), m := bytesVec d (y.drop (16 + 4 * d)) }
  { holder := holder, cfg := cfg, radius := BitVec.ofNat 32 (leNat ((x.drop 8).take 4))
    drop := BitVec.ofNat 32 (leNat ((x.drop 12).take 4)), ents := (List.range (bits cfg.toNat 18 8)).map row }

/-- `cbsave` (R373): the image goes out as stores of the elected party. -/
def execCbsave (h : Hd) (d a : RegNo) (s : State) : Res := match s.me, s.views h with
  | none, _ => .next s
  | _, [] => .next (s.skip h)
  | some k, x :: _ =>
    let bank := s.bank k.core
    if bank.holder != some k.slot then .next (s.giveAll h d 4)
    else if !s.bankClear k ((s.views h).map fun y => y.2.1) then .next s
    else
      let p := x.2.2.r64 a
      let n := bankImageLen bank.cfg
      match ptrFlt k p 16 n true with
      | some f => .next (s.wholeFault h f)
      | none =>
        let cs := s.chkSpan k p n true
        match spanBad cs with
        | some f => .next (s.wholeFault h f.1)
        | none =>
          if spanWaits cs then .next s
          else .next ((s.putOwn k s.nextId x.2.1 (spanWrites x.2.1 cs bank.image)).giveAll h d 0)

/-- `cbrest` (R373): the configuration word first, then the whole image, replacing the bank in one arrival. -/
def execCbrest (h : Hd) (d a : RegNo) (s : State) : Res := match s.me, s.views h with
  | none, _ => .next s
  | _, [] => .next (s.skip h)
  | some k, x :: _ =>
    let bank := s.bank k.core
    let w := x.2.1
    if bank.holder != some k.slot then .next (s.giveAll h d 4)
    else if !s.bankClear k ((s.views h).map fun y => y.2.1) || !s.mayReadNow k w then .next s
    else
      let p := x.2.2.r64 a
      let read := fun (n : Nat) => match ptrFlt k p 16 n false with
        | some f => Got.bad f 0
        | none => s.getSpan k w (s.chkSpan k p n false)
      match read 16 with
      | .wait => .next s
      | .need dev va n => .next (s.askRead k w dev va n)
      | .bad f _ => .next (s.wholeFault h f)
      | .ok y =>
        let cfg : W64 := BitVec.ofNat 64 (leNat (y.take 8))
        if s.spanHeld k (s.chkSpan k p 16 false) then .next s
        else if !cfgValid cfg then .next ((s.touch k w (s.chkSpan k p 16 false)).giveAll h d 3)
        else if s.spanHeld k (s.chkSpan k p (bankImageLen cfg) false) then .next s
        else match read (bankImageLen cfg) with
        | .wait => .next s
        | .need dev va n => .next (s.askRead k w dev va n)
        | .bad f _ => .next (s.wholeFault h f)
        | .ok z =>
          let cs := s.chkSpan k p (bankImageLen cfg) false
          .next (((s.touch k w cs).updBank k.core fun x => { bankOf (some k.slot) z with arrivals := x.arrivals, serving := x.serving }).giveAll h d 0)

end Sys2Proof.Machine
end

