-- ==== Sys2Proof/Machine/Barrier.lean ====
section
/-! DEFINITION. Barriers and rejoin masks, class 0x9 (R172–R193). -/

namespace Sys2Proof.Machine

open Sys2Proof

/-! ### The barriers (R172–R175) -/

/-- A barrier of a level that a block names (R192). -/
def State.bar (s : State) (b : Block) (lvl n : Nat) : Barrier := match lvl with
  | 0 => ((s.block? b.core b.slot).bind fun b => b.bars[n]?).getD {}
  | 1 => ((s.group? b.group).bind fun g => g.bars[n]?).getD {}
  | _ => ((s.ctx b.ctx).gbars[n]?).getD {}

def State.updBar (s : State) (b : Block) (lvl n : Nat) (f : Barrier → Barrier) : State := match lvl with
  | 0 => s.updBlock b.core b.slot fun b => { b with bars := b.bars.modify n f }
  | 1 => { s with groups := s.groups.map fun (g : CGroup) => if g.id == b.group then { g with bars := g.bars.modify n f } else g }
  | _ => s.updCtx b.ctx fun c => { c with gbars := c.gbars.modify n f }

/-- Whether a block's parties are parties of another block's barriers of a level (Table 8-1). -/
def Block.shares (b q : Block) (lvl : Nat) : Bool := match lvl with
  | 0 => b.core == q.core && b.slot == q.slot
  | 1 => b.group == q.group
  | _ => b.ctx == q.ctx && b.launch == q.launch

/-- The scope of a level (Table 8-1). -/
def barScope (lvl : Nat) : Scope := match lvl with
  | 0 => .core
  | 1 => .clu
  | _ => .dev

/-- The barrier number in INFO (R173). -/
def barInfo (lvl n : Nat) : Nat := lvl * 16 + n

/-- The status of a party whose `.wait` named phase t, or of an arrival (R178, R191) (log 64, DEDUCED). -/
def Barrier.status (x : Barrier) (arrival : Nat) : Option W32 → Nat
  | none => arrival
  | some t =>
    if x.st = .abandoned then 1
    else if t = x.phase - 1 then (if x.abn then 1 else 0)
    else 0

/-- The write of a status: Pd, or Sd zero-extended (R191). -/
def statusWr (w : Who) (d : RegNo) (v : Nat) : Wr := match w with
  | .cox => .s d.toNat (BitVec.ofNat 64 v)
  | .fib _ => .p d.toNat (v != 0)

/-- Whether a wait is on a barrier. -/
def Wait.onBar (lvl n : Nat) : Option Wait → Bool
  | some (.barrier l m _ _ _) => l == lvl && m == n
  | _ => false

/-- Releases a fibre, or the cox thread, that waits at a barrier, with its status. -/
def Fibre.barFree (f : Fibre) (lvl n : Nat) (x : Barrier) (arrival : Nat) : Fibre := match f.wait with
  | some (.barrier l m d t _) =>
    if l == lvl && m == n then f.release [statusWr (.fib f.fid) d (x.status arrival t)] else f
  | _ => f
def Cox.barFree (c : Cox) (lvl n : Nat) (x : Barrier) (arrival : Nat) : Cox := match c.wait with
  | some (.barrier l m d t _) =>
    if l == lvl && m == n then { (c.wr (statusWr .cox d (x.status arrival t))) with wait := none, pc := c.next } else c
  | _ => c

/-- The parties of a block whose release acquires (R185). -/
def Block.barAcq (b : Block) (lvl n : Nat) : List Who :=
  let acq := fun (w : Option Wait) => match w with
    | some (.barrier l m _ _ a) => l == lvl && m == n && a
    | _ => false
  (if acq b.cox.wait then [.cox] else []) ++ (b.fibres.filter fun f => acq f.wait).map fun f => .fib f.fid

/-- Releases every waiter of a barrier (R178): each gets its status and resumes; a party's acquire discards its core's L1
above block scope; its core wakes with reason 3. Parts are put in order later (`barSettle`). -/
def State.barFree (s : State) (b : Block) (lvl n arrival : Nat) : State :=
  let x := s.bar b lvl n
  let qs := s.blocks.filter fun q => b.shares q lvl &&
    (Wait.onBar lvl n q.cox.wait || (q.fibres.any fun f => Wait.onBar lvl n f.wait))
  let free := fun (q : Block) =>
    if b.shares q lvl then
      { (q.updCox fun c => c.barFree lvl n x arrival) with fibres := q.fibres.map fun f => f.barFree lvl n x arrival }
    else q
  let s1 := { s with blocks := s.blocks.map free }
  qs.foldl (fun s q =>
    let ws := q.barAcq lvl n
    let s := if ws.isEmpty then s else s.acquireBy q.core q.slot ws (barScope lvl)
    s.rouse q.core 3 (barInfo lvl n)) s1

/-- Puts every part of the blocks that share a barrier in order. -/
def State.barSettle (s : State) (b : Block) (lvl : Nat) : State :=
  (s.blocks.filter fun q => b.shares q lvl).foldl (fun s q =>
    q.parts.foldl (fun s p => s.settle q.core q.slot p.id) s) s

/-- What an arrival comes to (R175). -/
inductive Arr1 where
  | passed (status : Nat) (token : W32)
  | waits (token : W32)
  | fault
  deriving DecidableEq, Repr

/-- One arrival with a count (R175): the barrier's new state, and what becomes of the arrival. -/
def Barrier.arrive (x : Barrier) (c : W32) : Barrier × Arr1 :=
  if x.st = .abandoned then (x, .passed 1 x.phase)
  else
    let latch := if x.st = .idle then x.cnt else x.latch
    if c = 0 || (latch ≠ 0 && c ≠ latch) then
      ({ x with latch := latch, abn := true, phase := x.phase + 1, st := .abandoned }, .fault)
    else
      let latch := if latch = 0 then c else latch
      let arr := x.arr + 1
      if arr = latch then
        ({ x with abn := false, phase := x.phase + 1, st := .idle, arr := 0, latch := 0 }, .passed 0 x.phase)
      else ({ x with latch := latch, st := .gather, arr := arr }, .waits x.phase)

/-- Invalidates a barrier (R181): its waiters are released with status 1. -/
def State.invalidate (s : State) (b : Block) (lvl n : Nat) : State :=
  let x := s.bar b lvl n
  let y : Barrier := match x.st with
    | .gather => { x with st := .abandoned, phase := x.phase + 1, abn := true }
    | .idle => { x with st := .abandoned }
    | .abandoned => x
  ((s.updBar b lvl n fun _ => y).barFree b lvl n 1).barSettle b lvl

/-! ### Arrival and wait instructions (R176, R177, R191) -/

/-- A party goes on to the next instruction, or parks at this one. -/
def State.barPark (s : State) (w : Who) (x : Wait) (nx : W64) : State := s.updMe fun b => match w with
  | .cox => b.updCox fun c => { c with wait := some x, next := nx }
  | .fib fid => b.updFib fid fun f => { f with life := .parked, wait := some x, next := nx }

def State.barGo (s : State) (w : Who) (ws : List Wr) (nx : W64) : State := s.updMe fun b => (b.wr w ws).jump w nx

/-- One party of an arrival instruction (R175, R191). `sync` writes a status when the phase ends; otherwise the token is
written at once. -/
def barArrive1 (b : Block) (lvl n : Nat) (sync : Bool) (d : RegNo) (acq : Bool) (nx : W64) (r : State × List (Who × Flt))
    (x : Who × View × W32) : State × List (Who × Flt) :=
  let s := r.1
  let y := (s.bar b lvl n).arrive x.2.2
  let s1 := s.updBar b lvl n fun _ => y.1
  match y.2 with
  | .fault => (s1.barFree b lvl n 1, r.2 ++ [(x.1, { code := 0x0A, info := BitVec.ofNat 16 (barInfo lvl n) })])
  | .passed st t =>
    let s2 := if st = 0 then s1.barFree b lvl n 0 else s1
    let s3 := if sync && acq then s2.acquireBy b.core b.slot [x.1] (barScope lvl) else s2
    (s3.barGo x.1 (if sync then [statusWr x.1 d st] else [x.2.1.w32 d t]) nx, r.2)
  | .waits t =>
    if sync then (s1.barPark x.1 (.barrier lvl n d none acq) nx, r.2)
    else (s1.barGo x.1 [x.2.1.w32 d t] nx, r.2)

/-- The count operand (R191). -/
def countOf (v : View) : Count → W32
  | .reg a => v.r32 a
  | .imm x => x

/-- An arrival instruction: without `.rlx` it waits until the parties' accesses are performed at the level's scope (R185).
The active parties arrive in ascending lane order (R176) (log 63, DEDUCED). -/
def State.barrier (s : State) (h : Hd) (lvl n : Nat) (sync rlx : Bool) (d : RegNo) (c : Count) : Res := match s.me with
  | none => .next s
  | some b =>
    let vs := s.views h
    let s := if sync && !rlx then s.closeColl b.core b.slot (vs.map (·.2.1)) else s
    if !rlx && !(vs.all fun x => s.readsDone b.core b.slot x.2.1 && s.performed b.core b.slot x.2.1 (barScope lvl)) then .next s
    else
      let run := fun (close : Bool) =>
        (vs.map fun x => (x.2.1, x.2.2, countOf x.2.2 c)).foldl (barArrive1 b lvl n sync d (!rlx) s.nextPc) (s.account h close, [])
      let bad := (run false).2
      if !bad.isEmpty && s.busy then .next s
      else
        let r := run (!bad.isEmpty)
        let idle := s.issuers.filter fun w => !(vs.any fun x => x.2.1 == w)
        .next (((r.1.advance idle).deliver 0 bad).tidy.barSettle b lvl)

/-- A `.wait` (R191): each active party parks until the phase it names has ended (log 64, DEDUCED). -/
def State.barWait (s : State) (h : Hd) (lvl n : Nat) (rlx : Bool) (d a : RegNo) : Res := match s.me with
  | none => .next s
  | some b =>
    let x := s.bar b lvl n
    let vs := s.views h
    let nx := s.nextPc
    let one := fun (s : State) (v : Nat × Who × View) =>
      let t := v.2.2.r32 a
      if x.st = .abandoned || x.phase ≠ t then
        (if rlx then s else s.acquireBy b.core b.slot [v.2.1] (barScope lvl)).barGo v.2.1 [statusWr v.2.1 d (x.status 0 (some t))] nx
      else s.barPark v.2.1 (.barrier lvl n d (some t) (!rlx)) nx
    let idle := s.issuers.filter fun w => !(vs.any fun v => v.2.1 == w)
    let s := if rlx then s else s.closeColl b.core b.slot (vs.map (·.2.1))
    .next ((vs.foldl one (s.account h false)).advance idle).tidy

def execBarSync (h : Hd) (rlx : Bool) (d : RegNo) (b : BitVec 4) (c : Count) (s : State) : Res := s.barrier h 0 b.toNat true rlx d c
def execBarArrive (h : Hd) (rlx : Bool) (d : RegNo) (b : BitVec 4) (c : Count) (s : State) : Res := s.barrier h 0 b.toNat false rlx d c
def execBarWait (h : Hd) (rlx : Bool) (d a : RegNo) (b : BitVec 4) (s : State) : Res := s.barWait h 0 b.toNat rlx d a
def execCbarSync (h : Hd) (rlx : Bool) (d : RegNo) (b : BitVec 3) (c : Count) (s : State) : Res := s.barrier h 1 b.toNat true rlx d c
def execCbarArrive (h : Hd) (rlx : Bool) (d : RegNo) (b : BitVec 3) (c : Count) (s : State) : Res := s.barrier h 1 b.toNat false rlx d c
def execCbarWait (h : Hd) (rlx : Bool) (d a : RegNo) (b : BitVec 3) (s : State) : Res := s.barWait h 1 b.toNat rlx d a
def execGbarSync (h : Hd) (rlx : Bool) (d : RegNo) (b : BitVec 2) (c : Count) (s : State) : Res := s.barrier h 2 b.toNat true rlx d c
def execGbarArrive (h : Hd) (rlx : Bool) (d : RegNo) (b : BitVec 2) (c : Count) (s : State) : Res := s.barrier h 2 b.toNat false rlx d c
def execGbarWait (h : Hd) (rlx : Bool) (d a : RegNo) (b : BitVec 2) (s : State) : Res := s.barWait h 2 b.toNat rlx d a

def levelNo : Level → Nat
  | .blk => 0
  | .clu => 1
  | .grid => 2

/-- `barinit` (R180, R192): fault 0x0B in GATHER; otherwise IDLE with CNT set. -/
def execBarinit (h : Hd) (lvl : Level) (a : RegNo) (b : BitVec 4) (s : State) : Res := match s.me with
  | none => .next s
  | some k =>
    let l := levelNo lvl
    let n := b.toNat
    if (s.bar k l n).st = .gather then
      .next (s.faultAll h 0 s.issuers { code := 0x0B, info := BitVec.ofNat 16 (barInfo l n) })
    else
      let c := (View.cox k.cox).r32 a
      .next ((s.updBar k l n fun x => { x with st := .idle, cnt := c, latch := 0, arr := 0 }).skip h)

def execBarinv (h : Hd) (lvl : Level) (b : BitVec 4) (s : State) : Res := match s.me with
  | none => .next s
  | some k => .next ((s.skip h).invalidate k (levelNo lvl) b.toNat)

/-! ### Rejoin masks (R186, R187, R193) -/

/-- The lanes of an issue as a mask. -/
def maskOf (ls : List (Nat × Fibre)) : BitVec 32 := ls.foldl (fun m x => m ||| laneBit x.1) 0

/-- `rjset` (R186). -/
def execRjset (h : Hd) (jd : BitVec 3) (s : State) : Res := match s.part? with
  | none => .next s
  | some (_, p) =>
    let m := maskOf (s.act h)
    if m = 0 then .next (s.skip h)
    else
      let put := fun (x : JMask) => if x.arv = 0 then { x with set := m } else { x with set := x.set ||| m }
      .next ((s.updMe fun b => b.updOrigin p.origin fun o => o.setMask jd.toNat put).skip h)

/-- `rjw` (R187): recorded lanes arrive and park, the others go on and the part splits; then the rejoin completes if every
recorded lane has come. A set that the running lane of serial mode recorded alone completes at once for it (R144)
(log 62, DEDUCED). -/
def execRjw (h : Hd) (ja : BitVec 3) (s : State) : Res := match s.part? with
  | none => .next s
  | some (b, p) =>
    let j := ja.toNat
    let x := ((b.origin? p.origin).map fun o => o.mask j).getD {}
    let ls := s.act h
    let m := maskOf ls
    if p.serial && m ≠ 0 && x.set = m && x.arv = 0 then
      .next ((s.updMe fun b => b.updOrigin p.origin fun o => o.setMask j fun _ => {}).skip h)
    else
      let come := ls.filter fun y => x.set &&& laneBit y.1 ≠ 0 && x.arv &&& laneBit y.1 = 0
      let on := s.issuers.filter fun w => !(come.any fun y => w == .fib y.2.fid)
      let nx := s.nextPc
      let park := fun (b : Block) => come.foldl (fun b y => b.updFib y.2.fid fun f =>
        { f with life := .parked, wait := some (.rejoin j), next := nx })
        (b.updOrigin p.origin fun o => o.setMask j fun z => { z with arv := z.arv ||| maskOf come })
      .next ((((s.account h false).updMe park).advance on).tidy.rejoin b.core b.slot p.origin j)

end Sys2Proof.Machine
end

