-- ==== Sys2Proof/Machine/Eddy.lean ====
section
/-! DEFINITION. Eddy, class 0xD: state vectors, gates, swaps, measurement and normalisation (R379–R393). -/

namespace Sys2Proof.Machine

open Sys2Proof

/-! ### Slots -/

def Ctx.ed (c : Ctx) (k : Nat) : EdSlot := (c.eddy[k]?).getD {}
def State.ed (s : State) (ctx k : Nat) : EdSlot := (s.ctx ctx).ed k
def State.updEd (s : State) (ctx k : Nat) (f : EdSlot → EdSlot) : State :=
  s.updCtx ctx fun c => { c with eddy := c.eddy.modify k f }

/-- Posts a record about a context that no issue raised (R103, R410): an event, or bad data that an engine consumed. -/
def State.postEvent (s : State) (ctx : Nat) (code : BitVec 8) (info : BitVec 16) : State :=
  s.postRec ctx (mkRec info code false 0 0 ctx 0 0 0 0 0 0)

/-- The number of qubits of a slot (R380). -/
def EdSlot.n (e : EdSlot) : Nat := 13 + e.m + e.ge + e.gd
/-- The index bits that lie on this device. -/
def EdSlot.here (e : EdSlot) : Nat := 13 + e.m + e.ge
/-- The address of an amplitude of this device (R381): die, chunk and place lie one after the other. -/
def EdSlot.va (e : EdSlot) (j : Nat) : Nat := bits e.base.toNat 55 0 + 8 * j
/-- The physical bit of a logical qubit. -/
def EdSlot.bit (e : EdSlot) (q : Nat) : Nat := (e.pi[q]?).getD q

/-- The kind of a command, as its partners see it (R382). -/
def EdKind.num : EdKind → Nat
  | .gate _ _ _ => 0
  | .meas _ => 1
  | .norm => 2
  | .init _ _ _ => 3
  | .rd _ => 4
  | .wr _ => 5
  | .swap _ => 6
  | .free => 7

/-! ### Issue (R389–R392) -/

/-- A slot command is accepted: it joins the slot's commands, and its destinations go under the scoreboard bit
(log 88, DEDUCED). -/
def State.edIssue (s : State) (h : Hd) (o : Ord) (d : RegNo) (n slot : Nat) (kind : EdKind) : State := match s.me with
  | none => s
  | some b =>
    let vs := s.views h
    if vs.isEmpty then s.skip h
    else if s.heldHere .eddy then s
    else
      let ws : List Who := vs.map fun (x : Nat × Who × View) => x.2.1
      let sbs := fun (id : Nat) => ws.flatMap fun w => (List.range n).map fun i => (id, w, d.toNat + i)
      let add := fun (s : State) (id : Nat) =>
        let c : EdCmd := { issue := id, kind := kind, o := o, core := b.core, slot := b.slot, parties := ws
                           after := ws.map fun w => (w, id), dest := .regs (ws.map fun w => (w, d.toNat))
                           early := s.stage != .stage2 }
        s.updEd b.ctx slot fun e => { e with cmds := e.cmds ++ [c] }
      s.accept h sbs add 1

/-- The elected party of an issue. -/
def State.elected (s : State) (h : Hd) : Option View := (s.views h).head?.map fun x => x.2.2

/-- A slot command whose operands the elected party supplies. -/
def State.edOp (s : State) (h : Hd) (o : Ord) (d : RegNo) (n : Nat) (slot : BitVec 2) (f : View → EdKind) : Res :=
  match s.elected h with
  | none => .next (s.skip h)
  | some v => .next (s.edIssue h o d n slot.toNat (f v))

/-- `edgate` (R390): the matrix and the targets are read at issue. -/
def execEdgate (h : Hd) (o : Ord) (k1 : BitVec 2) (d a b : RegNo) (slot : BitVec 2) (s : State) : Res :=
  let k := k1.toNat + 1
  s.edOp h o d 1 slot fun v => .gate k ((List.range (2 * 4 ^ k)).map fun i => v.r32 (a + BitVec.ofNat 8 i)) (v.r32 b)
def execEdmeas (h : Hd) (o : Ord) (d a : RegNo) (slot : BitVec 2) (s : State) : Res := s.edOp h o d 2 slot fun v => .meas (v.r32 a)
def execEdnorm (h : Hd) (o : Ord) (d : RegNo) (slot : BitVec 2) (s : State) : Res := s.edOp h o d 1 slot fun _ => .norm
def execEdmapRd (h : Hd) (d a : RegNo) (slot : BitVec 2) (s : State) : Res := s.edOp h {} d 1 slot fun v => .rd (v.r32 a)
def execEdmapWr (h : Hd) (d a : RegNo) (slot : BitVec 2) (s : State) : Res := s.edOp h {} d 1 slot fun v => .wr (v.r32 a)
def execEdswap (h : Hd) (d a : RegNo) (slot : BitVec 2) (s : State) : Res := s.edOp h {} d 1 slot fun v => .swap (v.r32 a)
def execEdmapFree (h : Hd) (d : RegNo) (slot : BitVec 2) (s : State) : Res := s.edOp h {} d 1 slot fun _ => .free

/-- `edmap.init` (R380, R392): the descriptor, and the device table it names, are read in the party's program order; a
fault of that read is taken as a load's. A pointer that the descriptor read refuses gives status 7 (log 88, DEDUCED). -/
def execEdmapInit (h : Hd) (d a : RegNo) (slot : BitVec 2) (s : State) : Res := match s.me, s.views h with
  | none, _ => .next s
  | _, [] => .next (s.skip h)
  | some b, x :: rest =>
    let w := x.2.1
    let vs : List (Nat × Who × View) := x :: rest
    let go := fun (bad : Bool) (desc : List Byte) (devs : List Nat) (cs : List (Nat × Nat × Chk)) =>
      (Host.Outcome.next (if s.spanHeld b cs then s else (s.touch b w cs).edIssue h {} d 1 slot.toNat (.init bad desc devs)) : Res)
    let stop := fun (f : Flt) => (Host.Outcome.next (s.access h (vs.map fun (y : Nat × Who × View) => (y.1, y.2.1, Chk.bad f)) id) : Res)
    match ptrCheck b [0] (x.2.2.r64 a) 0 32 false with
    | .bad _ _ => go true [] [] []
    | .ok _ _ =>
      if !s.mayReadNow b w then .next s
      else
        let c1 := s.chkSpan b (x.2.2.r64 a) 32 false
        match s.getSpan b w c1 with
        | .wait => .next s
        | .need dev va n => .next (s.askRead b w dev va n)
        | .bad f _ => stop f
        | .ok desc =>
          let gd := fieldOf desc 18 1
          if gd = 0 || 9 < gd then go false desc [] c1
          else
            let tab := BitVec.ofNat 64 (fieldOf desc 8 8)
            let len := 2 * 2 ^ gd
            match ptrCheck b [0, 1, 2] tab 0 1 false with
            | .bad _ _ => go true desc [] c1
            | .ok sp off =>
              if limitOf b sp false < off + len then go true desc [] c1
              else
                let c2 := s.chkSpan b tab len false
                match s.getSpan b w c2 with
                | .wait => .next s
                | .need dev va n => .next (s.askRead b w dev va n)
                | .bad f _ => stop f
                | .ok t => go false desc ((List.range (2 ^ gd)).map fun i => fieldOf t (2 * i) 2) (c1 ++ c2)
where
  fieldOf (x : List Byte) (o n : Nat) : Nat := leNat ((x.drop o).take n)

/-- Whether a party has pushed a command to Eddy's port that the port has not taken. -/
def State.edPushed (s : State) (b : Block) (ws : List Who) : Bool := b.q.any fun q => match q.bind, q.push with
  | some (.engine .eddy _ port), e :: _ => s.cmdLen .eddy b port none e ≤ q.push.length && q.push.any fun x => ws.contains x.who
  | _, _ => false

/-- `edsync` (R393): it waits for the parties' earlier commands of a slot that is not FREE, then acts as `fence.eng` (log 91,
DEDUCED). -/
def execEdsync (h : Hd) (scope : Scope) (slot : BitVec 2) (s : State) : Res := match s.me with
  | none => .next s
  | some b =>
    if (s.views h).isEmpty then .next (s.skip h)
    else
      let mine := fun (c : EdCmd) => c.core == b.core && c.slot == b.slot && c.parties.any s.issuers.contains
      let e := s.ed b.ctx slot.toNat
      if e.st != .free && (e.cmds.any mine || s.edPushed b s.issuers) then .next s
      else .next ((s.acquireBy b.core b.slot s.issuers scope).skip h)

/-! ### The region and its translations (R381) -/

/-- What walking a region gives. -/
inductive EdMap where
  | wait
  | absent
  | ok (l : List Tlb)
  deriving DecidableEq, Repr

/-- Walks the pages from `va` up to `stop`; each must be present and writable. -/
def State.walkPages (s : State) (ctx stop : Nat) : Nat → Nat → EdMap
  | 0, _ => .ok []
  | n + 1, va =>
    if stop ≤ va then .ok []
    else match s.walk ctx va with
    | none => .absent
    | some l => match l.check .write false va with
      | .wait => .wait
      | .fault _ => .absent
      | .ok _ => match s.walkPages ctx stop n ((va / 2 ^ l.sh + 1) * 2 ^ l.sh) with
        | .ok r => .ok (l.tlb ctx va :: r)
        | x => x

/-- Walks a slot's whole region. A region that leaves the space, or that lies at remote addresses, is not mapped
(log 89, DEDUCED). -/
def State.edWalk (s : State) (ctx : Nat) (e : EdSlot) : EdMap :=
  let lo := e.va 0
  let hi := e.va (2 ^ e.here)
  if 2 ^ 56 < hi || bits lo 55 52 = 0xE || bits (hi - 1) 55 52 = 0xE then .absent
  else s.walkPages ctx hi (2 ^ (4 + e.m + e.ge)) lo

/-- The physical address behind a virtual address under held translations. -/
def heldPa (l : List Tlb) (va : Nat) : Nat := match l.find? fun t => t.va / 2 ^ t.sh == va / 2 ^ t.sh with
  | some t => t.pa + va % 2 ^ t.sh
  | none => 0

/-- The lines of a region: 16 amplitudes each. -/
def EdSlot.lines (e : EdSlot) : Nat := 2 ^ (e.here - 4)
def EdSlot.linePa (e : EdSlot) (i : Nat) : Nat := heldPa e.xl (e.va (16 * i))

/-- The amplitudes of this device in index order: real part low, imaginary part high (R62). -/
def State.amps (s : State) (e : EdSlot) : Array W64 :=
  ((List.range e.lines).flatMap fun i =>
    let x := s.homeRead false (e.linePa i) 128
    (List.range 16).map fun k => BitVec.ofNat 64 (leNat ((x.drop (8 * k)).take 8))).toArray

def ampAt (a : Array W64) (j : Nat) : W64 := (a[j]?).getD 0
def ampRe (x : W64) : FVal := Fmt.f32.decode (loWord x).toNat
def ampIm (x : W64) : FVal := Fmt.f32.decode (hiWord x).toNat
def mkAmp (re im : Nat) : W64 := BitVec.ofNat 32 im ++ BitVec.ofNat 32 re

/-- Whether a line of a region has failed its check, or waits at its controller. -/
def State.edBad (s : State) (e : EdSlot) : Bool := (List.range e.lines).any fun i => s.bad (e.linePa i) 128
def State.edHeld (s : State) (ctx : Nat) (e : EdSlot) : Bool := (List.range e.lines).any fun i => s.lineHeld ctx (e.linePa i)

/-- Charges the traffic of the lines that a command reads (R252). -/
def State.chargeLines (s : State) (ctx : Nat) (e : EdSlot) (on : Nat → Bool) : State :=
  (List.range e.lines).foldl (fun (s : State) i => if on i then s.chargeLine ctx (e.linePa i) else s) s

/-- Writes the amplitudes of the chosen lines, each 32-byte sector as one write of its home slice (R279). -/
def State.putAmps (s : State) (ctx : Nat) (e : EdSlot) (on : Nat → Bool) (f : Nat → W64) : State :=
  (List.range e.lines).foldl (fun (s : State) i =>
    if on i then
      (List.range 4).foldl (fun (s : State) q =>
        s.homePut (e.linePa i + 32 * q) ((List.range 4).flatMap fun k => leBytes 8 (f (16 * i + 4 * q + k)).toNat)) (s.homeTouch ctx 1 (e.linePa i) [0, 1])
    else s) s

/-- Charges `.eddy` on each participating die for its chunks (R384). -/
def State.chargeChunks (s : State) (ctx : Nat) (e : EdSlot) (on : Nat → Bool) : State :=
  (List.range (2 ^ e.ge)).foldl (fun (s : State) d =>
    s.charge ctx d .eddy ((List.range (2 ^ e.m)).filter fun c => on (d * 2 ^ e.m + c)).length) s

/-! ### Finishing -/

/-- Gives a command's registers its results, at most two of 32 bits each, and takes it off the slot. -/
def State.edFinish (s : State) (ctx k : Nat) (c : EdCmd) (vs : List W32) : State :=
  let s1 := s.updEd ctx k fun e => { e with cmds := e.cmds.drop 1, num := e.num + 1 }
  match c.dest with
  | .regs l =>
    let put := fun (b : Block) => l.foldl (fun b r => vs.zipIdx.foldl (fun b v => b.putSb r.1 (r.2 + v.2) c.issue v.1) b) b
    (s1.updBlock c.core c.slot put).rouse c.core 5 0
  | .queue _ => s1.setResult c.issue (vs.map fun v => v.zeroExtend 64)

def canonNan : W32 := 0x7FC00000

/-- The results of a command that ends with a status other than done (R390–R392) (log 89, DEDUCED). -/
def EdKind.fail (k : EdKind) (code nswap : Nat) : List W32 := match k with
  | .meas _ => [canonNan, canonNan]
  | .norm => [canonNan]
  | .rd _ => [0xFF]
  | _ => [BitVec.ofNat 32 (code * 2 ^ 24 + nswap)]

/-- The slot becomes BROKEN: its commands end with a status, the begun one too, which ends also while its context drains
(Table 22-1, R384). -/
def State.edBreak (s : State) (ctx k why : Nat) : State :=
  s.updEd ctx k fun e => { e with st := .broken, why := why, xl := []
                                  cmds := e.cmds.map fun (c : EdCmd) => { c with wait := none } }

/-! ### Gates, swaps and sums (R385–R388) -/

/-- An index with two bits interchanged. -/
def swapBits (p l j : Nat) : Nat := if j.testBit p = j.testBit l then j else j ^^^ (2 ^ p + 2 ^ l)

/-- An index with the bits of a list set from a number. -/
def putBits : List Nat → Nat → Nat → Nat
  | [], _, j => j
  | p :: r, x, j => putBits r (x / 2) (if j.testBit p = x.testBit 0 then j else j ^^^ 2 ^ p)

def getBits : List Nat → Nat → Nat
  | [], _ => 0
  | p :: r, j => (if j.testBit p then 1 else 0) + 2 * getBits r j

/-- One new amplitude of a gate: row r of U over the amplitudes of its group, each part rounded once (R72, R385). -/
def gateAmp (u : List W32) (ps : List Nat) (a : Array W64) (j : Nat) : W64 :=
  let k := 2 ^ ps.length
  let r := getBits ps j
  let el := fun (c i : Nat) => Fmt.f32.decode ((u[2 * (r * k + c) + i]?).getD 0).toNat
  let x := fun (c : Nat) => ampAt a (putBits ps c j)
  let re := Fmt.f32.sum .rne ((List.range k).flatMap fun c => [(el c 0).mul (ampRe (x c)), ((el c 1).mul (ampIm (x c))).neg])
  let im := Fmt.f32.sum .rne ((List.range k).flatMap fun c => [(el c 0).mul (ampIm (x c)), (el c 1).mul (ampRe (x c))])
  mkAmp re im

/-- The physical index of this device's j-th amplitude. -/
def EdSlot.index (e : EdSlot) (j : Nat) : Nat := e.rank * 2 ^ e.here + j

/-- Whether an amplitude moves under a swap, and whether it comes from another device. -/
def EdSlot.moves (e : EdSlot) (p l j : Nat) : Bool := (e.index j).testBit p != (e.index j).testBit l
def EdSlot.from? (e : EdSlot) (p l j : Nat) : Bool := swapBits p l (e.index j) / 2 ^ e.here != e.rank

/-- How many amplitudes of a swap come from other devices. -/
def EdSlot.incoming (e : EdSlot) (p l : Nat) : Nat := ((List.range (2 ^ e.here)).filter fun j => e.from? p l j).length

/-- The amplitudes after a swap: `data` are those that come from other devices, in ascending index order here. -/
def swapped (e : EdSlot) (p l : Nat) (a : Array W64) : List Nat → List W64 → List W64
  | [], _ => []
  | j :: r, data =>
    if e.from? p l j then data.headD 0 :: swapped e p l a r data.tail
    else ampAt a (swapBits p l (e.index j) % 2 ^ e.here) :: swapped e p l a r data

/-- The amplitudes of this device that a swap moves to another one, by their indices there, with that device (R386). -/
def State.edHalf (s : State) (e : EdSlot) (p l : Nat) : List (Nat × Nat × W64) :=
  let a := s.amps e
  (List.range (2 ^ e.here)).filterMap fun j =>
    let t := swapBits p l (e.index j)
    if t / 2 ^ e.here = e.rank then none else some ((e.devs[t / 2 ^ e.here]?).getD 0, t, ampAt a j)

/-- Sends the next flit of this side's half: 16 amplitudes as Eddy swap data (Table 23-1), on the port that dispatch data takes
(log 90, DEDUCED). None when it must wait. -/
def State.edSend (s : State) (ctx k p l flits : Nat) : Option State :=
  let e := s.ed ctx k
  match ((s.edHalf e p l).drop (16 * flits)).take 16 with
  | [] => none
  | x :: r => match s.pickPort x.1 (x.1 % 18) with
    | none => none
    | some q => if !s.canSend ctx q then none else
        let s1 := s.sendFlit q 5 x.1 0 (portLdie q) ctx
        some { s1 with sent := s1.sent ++ [.swapHalf x.1 ((x :: r).map fun y => y.2)] }

/-- Whether a bit of a swap selects a die or a device: then its chunks are also sent. -/
def EdSlot.crosses (e : EdSlot) (p l : Nat) : Bool := 13 + e.m ≤ p || 13 + e.m ≤ l

/-- swap(p, l) on this device's amplitudes, and the bit map after it (R386). A chunk is charged where it is sent, and for a command
that reads and writes no more than the swap does, once for its amplitudes that move (R384). -/
def State.edSwap (s : State) (ctx k p l : Nat) (data : List W64) (alone : Bool) : State :=
  let e := s.ed ctx k
  let new := (swapped e p l (s.amps e) (List.range (2 ^ e.here)) data).toArray
  let on := fun (i : Nat) => (List.range 16).any fun x => e.moves p l (16 * i + x)
  let chunk := fun (c : Nat) => p < 13 || l < 13 || e.moves p l (8192 * c)
  let s0 := (s.chargeLines ctx e on).putAmps ctx e on (ampAt new)
  let s1 := if alone then s0.chargeChunks ctx e chunk else s0
  let s2 := if e.crosses p l then s1.chargeChunks ctx e chunk else s1
  s2.updEd ctx k fun e => { e with pi := e.pi.map fun x => if x = p then l else if x = l then p else x }

/-- The sums of each chunk of this device: over every amplitude, and over those whose physical bit is 1; one rounding each
(R387). -/
def chunkSums (e : EdSlot) (bit : Nat) (a : Array W64) : List (W32 × W32) :=
  (List.range (2 ^ (e.m + e.ge))).map fun c =>
    let term := fun (j : Nat) =>
      let x := ampAt a j
      [(ampRe x).mul (ampRe x), (ampIm x).mul (ampIm x)]
    let js := (List.range 8192).map fun i => 8192 * c + i
    let sum := fun (l : List Nat) => BitVec.ofNat 32 (Fmt.f32.sum .rne (l.flatMap term))
    (sum js, sum (js.filter fun j => (e.index j).testBit bit))

/-- The partial sums in order, one rounding per step. -/
def foldSums : List W32 → W32
  | [] => 0
  | x :: r => r.foldl (f32add .rne) x

/-- Ends a measurement or normalisation once every partial is there (R387, R388); its chunks have been charged (R384). -/
def State.edSum (s : State) (ctx k : Nat) (c : EdCmd) (parts : List (W32 × W32)) : State :=
  let e := s.ed ctx k
  let t := foldSums (parts.map (·.1))
  match c.kind with
  | .norm =>
    let v := Fmt.f32.decode t.toNat
    if v.isZero || v.nonFinite then s.edFinish ctx k c [t]
    else
      let a := s.amps e
      let f := Fmt.f32.decode (Fmt.f32.rsqrt .rne t.toNat)
      let new := fun (j : Nat) =>
        mkAmp (Fmt.f32.sum .rne [(ampRe (ampAt a j)).mul f]) (Fmt.f32.sum .rne [(ampIm (ampAt a j)).mul f])
      (s.putAmps ctx e (fun _ => true) new).edFinish ctx k c [t]
  | _ => s.edFinish ctx k c [foldSums (parts.map (·.2)), t]

/-- The physical bit that a measurement looks at. -/
def EdSlot.measBit (e : EdSlot) (c : EdCmd) : Nat := match c.kind with
  | .meas q => e.bit (bits q.toNat 5 0)
  | _ => 0

/-- Whether an operand of a command is invalid: status 2 (R390, R392) (log 89, DEDUCED). -/
def EdSlot.refuses (e : EdSlot) (k : EdKind) : Bool :=
  let two := fun (a : W32) => bits a.toNat 7 6 ≠ 0 || bits a.toNat 31 14 ≠ 0 || e.n ≤ bits a.toNat 5 0 ||
    e.n ≤ bits a.toNat 13 8 || bits a.toNat 5 0 = bits a.toNat 13 8
  match k with
  | .gate n _ t =>
    let ts := (List.range n).map fun i => bits t.toNat (8 * i + 5) (8 * i)
    let resv := (List.range 32).any fun i => t.getLsbD i && !((List.range n).any fun m => 8 * m ≤ i && i ≤ 8 * m + 5)
    resv || ts.any (fun q => e.n ≤ q) || decide ((distinct ts).length ≠ n)
  | .meas q => e.n ≤ bits q.toNat 5 0 || bits q.toNat 31 6 ≠ 0
  | .rd q => e.n ≤ bits q.toNat 5 0 || bits q.toNat 31 6 ≠ 0
  | .wr a => two a
  | .swap a => two a
  | _ => false

/-- A region of n bytes at remote addresses of this device is local (R399). -/
def State.edBase (s : State) (base n : Nat) : Nat :=
  if ptrSpace (BitVec.ofNat 64 base) = 0 && isRemote base && bits base 41 0 + n ≤ 2 ^ 42 then
    (match s.sysVa (bits base 55 0) with
    | some va => base / 2 ^ 56 * 2 ^ 56 + va
    | none => base)
  else base

/-- The descriptor's slot (R380): none when it is invalid. -/
def State.edDesc (s : State) (c : EdCmd) (bad : Bool) (x : List Byte) (devs : List Nat) : Option EdSlot :=
  let f := fun (o n : Nat) => leNat ((x.drop o).take n)
  let m := f 16 1
  let ge := f 17 1
  let gd := f 18 1
  let base := BitVec.ofNat 64 (s.edBase (f 0 8) (2 ^ (16 + m + ge)))
  let resv := f 19 1 ≠ 0 || f 22 10 ≠ 0
  if bad || ptrSpace base ≠ 0 || bits base.toNat 59 56 ≠ 0 || base.toNat % 65536 ≠ 0 || 21 < m || 2 < ge || 9 < gd || 2 ^ gd ≤ f 20 2 ||
    resv || (List.range (2 ^ ge)).any (fun d => !s.dieUp d) then none
  else some { st := .ready, base := base, m := m, ge := ge, gd := gd, rank := f 20 2, devs := if gd = 0 then [] else devs
              pi := List.range (13 + m + ge + gd), coord := coreDie c.core }

/-- Executes `edmap.init` on a FREE slot, in the stage of its issue (Table 22-1, R424) (log 89, DEDUCED). -/
def State.edInit (s : State) (ctx k : Nat) (c : EdCmd) (bad : Bool) (x : List Byte) (devs : List Nat) : State :=
  let finish := fun (n : Nat) => s.edFinish ctx k c [BitVec.ofNat 32 (n * 2 ^ 24)]
  if c.early then finish 4
  else match s.edDesc c bad x devs with
  | none => finish 7
  | some e => match s.edWalk ctx e with
    | .wait => s
    | .absent => finish 6
    | .ok l => (s.edFinish ctx k c [0]).updEd ctx k fun old => { e with xl := l, cmds := old.cmds }

def State.updEdCmd (s : State) (ctx k : Nat) (f : EdCmd → EdCmd) : State :=
  s.updEd ctx k fun e => { e with cmds := match e.cmds with
    | [] => []
    | c :: r => f c :: r }

/-- Goes on with a command of a READY slot whose operands are good and whose translations are held: the next swap, the
matrix, the sums, or the exchange of two bits (log 90, DEDUCED). Between devices the own partial sums go to every other device,
in ascending chunk order (R387), outside the flits (log 106, DESIGN CHOICE). -/
def State.edRun (s : State) (ctx k : Nat) (c : EdCmd) : State :=
  let e := s.ed ctx k
  let top := 13 + e.m
  let begin' := fun (w : EdWait) => s.updEdCmd ctx k fun c => { c with begun := true, wait := some w }
  let sums := fun (s : State) =>
    let own := chunkSums e (e.measBit c) (s.amps e)
    let s1 := (s.chargeLines ctx e fun _ => true).chargeChunks ctx e fun _ => true
    if e.gd = 0 then s1.edSum ctx k c own
    else
      let others := e.devs.filter fun d => d != s.devNum.toNat
      { s1 with sent := s1.sent ++ others.map fun d => Sent.partials d own }.updEdCmd ctx k fun c => { c with begun := true, wait := some (.sums own) }
  match c.kind with
  | .gate n u t =>
    let ts := (List.range n).map fun i => e.bit (bits t.toNat (8 * i + 5) (8 * i))
    match ts.find? fun p => top ≤ p with
    | some p => match (List.range 13).reverse.find? fun l => !ts.contains l with
      | some l => begin' (.swap p l 0)
      | none => s
    | none =>
      let a := s.amps e
      (((s.chargeLines ctx e fun _ => true).putAmps ctx e (fun _ => true) (gateAmp u ts a)).chargeChunks ctx e fun _ => true).edFinish
        ctx k c [BitVec.ofNat 32 c.swaps]
  | .meas _ => sums s
  | .norm => sums s
  | .swap a =>
    let p := bits a.toNat 5 0
    let l := bits a.toNat 13 8
    if c.swaps = 1 then s.edFinish ctx k c [1]
    else if top ≤ p || top ≤ l then begin' (.swap p l 0)
    else (s.edSwap ctx k p l [] true).edFinish ctx k c [1]
  | _ => s

/-- Whether a command reads or writes amplitudes. -/
def EdKind.touches : EdKind → Bool
  | .gate _ _ _ => true
  | .meas _ => true
  | .norm => true
  | .swap _ => true
  | _ => false

/-- Whether `.eddy` is held on a die that takes part in a slot's commands (R104). -/
def State.edHeldUp (s : State) (ctx : Nat) (e : EdSlot) : Bool := (List.range (2 ^ e.ge)).any fun d => s.held ctx d .eddy

/-- The coordinator performs the next command of a slot, or goes on with the one begun (R382–R388). A command not begun
stays queued while its context does not run (R384) or `.eddy` is held on one of its dies (R104). A swap that has begun sends
its own half. -/
def execEddyCommandExecute (ctx slot : Nat) (s : State) : Res :=
  let e := s.ed ctx slot
  match e.cmds with
  | [] => .next s
  | c :: _ =>
    let finish := fun (s : State) (n : Nat) => (Host.Outcome.next (s.edFinish ctx slot c (c.kind.fail n c.swaps)) : Res)
    match c.wait with
    | some (.swap p l n) => match s.edSend ctx slot p l n with
      | some t => .next (t.updEdCmd ctx slot fun c => { c with wait := some (.swap p l (n + 1)) })
      | none => .next s
    | some (.sums _) => .next s
    | none =>
    if (s.ctx ctx).st != .running && !c.begun then .next s
    else if !c.begun && c.kind.touches && s.edHeldUp ctx e then .next s
    else if c.o.acq && !c.begun && !s.settled c.core c.slot c.after c.o.scope then .next s
    else match e.st, c.kind with
    | .free, .init bad x devs => .next (s.edInit ctx slot c bad x devs)
    | .free, _ => finish s 1
    | .broken, .free => .next ((s.edFinish ctx slot c [0]).updEd ctx slot fun e => { cmds := e.cmds })
    | .broken, _ => finish s e.why
    | .ready, .init _ _ _ => finish s 1
    | .ready, .free => .next ((s.edFinish ctx slot c [0]).updEd ctx slot fun e => { cmds := e.cmds })
    | .ready, .rd q =>
      if e.refuses c.kind then finish s 2 else .next (s.edFinish ctx slot c [BitVec.ofNat 32 (e.bit (bits q.toNat 5 0))])
    | .ready, .wr a =>
      if e.refuses c.kind then finish s 2
      else
        let p := bits a.toNat 5 0
        let q := bits a.toNat 13 8
        .next ((s.updEd ctx slot fun e => { e with pi := (e.pi.set p (e.bit q)).set q (e.bit p) }).edFinish ctx slot c [0])
    | .ready, _ =>
      if e.refuses c.kind then finish s 2
      else match (if e.xl.isEmpty then s.edWalk ctx e else .ok e.xl) with
      | .wait => .next s
      | .absent => finish s 6
      | .ok l =>
        let s1 := s.updEd ctx slot fun e => { e with xl := l }
        let e1 := { e with xl := l }
        if s1.edHeld ctx e1 then .next s1
        else if s1.edBad e1 then .next ((s1.edBreak ctx slot 5).postEvent ctx 0x11 0)
        else .next (s1.edRun ctx slot c)

/-- What a begun command waited for is there: both halves of a swap between dies or devices, or the partial sums of the
other devices (R386, R387). `kind` is what the partners run as this command number: if they disagree, the slot breaks
(R382). `data` are the amplitudes, or the pairs (T, P1) of every other chunk in ascending order, that come from other
devices; other data is no landing (log 90, DEDUCED). -/
def execEddySwapLand (ctx slot kind : Nat) (data : List W64) (s : State) : Res :=
  let e := s.ed ctx slot
  match e.st, e.cmds with
  | .ready, c :: _ =>
    if e.gd ≠ 0 && kind ≠ c.kind.num then .next (s.edBreak ctx slot 3)
    else match c.wait with
    | none => .next s
    | some w =>
      if s.edBad e then .next ((s.edBreak ctx slot 5).postEvent ctx 0x11 0)
      else match w with
      | .swap p l n =>
        if data.length ≠ e.incoming p l || 16 * n < e.incoming p l then .next s
        else .next ((s.edSwap ctx slot p l data (c.kind.num == 6)).updEdCmd ctx slot fun c => { c with wait := none, swaps := c.swaps + 1 })
      | .sums own =>
        let nc := 2 ^ (e.m + e.ge)
        if data.length ≠ (2 ^ e.gd - 1) * nc then .next s
        else
          let far := data.map fun x => (hiWord x, loWord x)
          .next (s.edSum ctx slot c (far.take (e.rank * nc) ++ own ++ far.drop (e.rank * nc)))
  | _, _ => .next s

/-- The contexts with a READY slot that a test picks, and those slots BROKEN (Table 22-1). -/
def State.edUsers (s : State) (uses : EdSlot → Bool) : List Nat :=
  (List.range 64).filter fun x => (s.ctx x).eddy.any fun e => e.st = .ready && uses e
def State.edLose (s : State) (uses : EdSlot → Bool) : State :=
  (s.edUsers uses).foldl (fun (s : State) x =>
    ((List.range 4).filter fun k => (s.ed x k).st = .ready && uses (s.ed x k)).foldl (fun (s : State) k => s.edBreak x k 3) s) s

end Sys2Proof.Machine
end

