-- ==== Sys2Proof/Machine/Matrix.lean ====
section
/-! DEFINITION. The matrix engine, leases, the scale cache and the quantiser, class 0xB (R74, R333–R358). -/

namespace Sys2Proof.Machine

open Sys2Proof

/-! ### Arrays and leases (R333–R335) -/

def State.arr (s : State) (core : Nat) : Arr := (s.core core).arr
def State.updArr (s : State) (core : Nat) (f : Arr → Arr) : State := s.updCore core fun c => { c with arr := f c.arr }

/-- The requests that still wait in an array's queue. -/
def Arr.waiting (a : Arr) : List LeaseReq := a.queue.filter fun r => !r.granted

/-- Whether a request stands for a live party (log 85, DEDUCED). -/
def State.reqLive (s : State) (r : LeaseReq) : Bool := match s.block? r.core r.slot, r.who with
  | some b, .cox => !b.cox.ended
  | some b, .fib f => (b.fib? f).isSome
  | none, _ => false

/-- Whether a request can be granted: its arrays are FREE, and it stands first in their queues (R335). -/
def State.grantable (s : State) (r : LeaseReq) : Bool :=
  let first := fun (a : Arr) => match a.waiting.find? s.reqLive with
    | some q => q == r
    | none => true
  let ok := fun (c : Nat) => (s.arr c).st = .free && first (s.arr c)
  ok r.core && (!r.pair || ok (r.core + 1))

/-- Grants a request: the arrays' tiles read +0 (R333, R334). -/
def State.grant (s : State) (r : LeaseReq) : State :=
  let mark := fun (a : Arr) => (a.queue.filter s.reqLive).map fun q => if q == r then { q with granted := true } else q
  let take := fun (st : ArrSt) (keep : Bool) (a : Arr) =>
    ({ st := st, holder := some (r.core, r.slot), z := [], queue := (mark a).filter fun q => keep || !q.granted } : Arr)
  if r.pair then (s.updArr r.core (take .leader true)).updArr (r.core + 1) (take .follower false)
  else s.updArr r.core (take .single true)

/-- The oldest request that waits for an array is granted once it can be (R335) (log 85, DEDUCED). -/
def execLeaseGrant (core : Nat) (s : State) : Res := match (s.arr core).waiting.find? s.reqLive with
  | none => .next s
  | some r => match s.block? r.core r.slot with
    | none => .next s
    | some b => if s.grantable r && (s.lease b).isNone then .next (s.grant r) else .next s

/-- A block's requests leave the queues of its core's pair. -/
def State.dropReqs (s : State) (core slot : Nat) (keep : LeaseReq → Bool) : State :=
  let drop := fun (a : Arr) => { a with queue := a.queue.filter fun r => !(r.core == core && r.slot == slot) || keep r }
  (s.updArr core drop).updArr (core + 1) drop

/-- The arrays of a lease become FREE and their tiles are lost (R334). -/
def State.freeLease (s : State) (core : Nat) (pair : Bool) : State :=
  let free := fun (a : Arr) => { a with st := .free, holder := none, z := [] }
  if pair then (s.updArr core free).updArr (core + 1) free else s.updArr core free

/-- `plse` (R353): the lease at once, or with `.try` status 2, or a request in the queue (log 84, DEDUCED).
Where several statuses hold, 1 comes first, then 3, then 2 (log 119, DESIGN CHOICE). -/
def execPlse (h : Hd) (pair try_ : Bool) (d : RegNo) (s : State) : Res := match s.me, s.views h with
  | none, _ => .next s
  | _, [] => .next (s.skip h)
  | some b, x :: _ =>
    let r : LeaseReq := { core := b.core, slot := b.slot, who := x.2.1, pair := pair }
    let mine := fun (q : LeaseReq) => q.who == r.who && q.pair == r.pair
    let won := (s.arr b.core).queue.any fun q => q.slot == b.slot && q.core == b.core && mine q && q.granted
    let clear := s.dropReqs b.core b.slot fun q => !mine q
    if (s.lease b).isSome then .next (clear.giveAll h d (if won then 0 else 1))
    else if pair && b.core % 2 = 1 then .next (s.giveAll h d 3)
    else if (s.arr b.core).queue.any fun q => q == r then .next s
    else
      let add := fun (a : Arr) => { a with queue := a.queue ++ [r] }
      let s1 := s.updArr b.core add
      let s2 := if pair then s1.updArr (b.core + 1) add else s1
      if s2.grantable r then
        .next (((s2.grant r).dropReqs b.core b.slot fun q => !mine q).giveAll h d 0)
      else if try_ then .next (s.giveAll h d 2)
      else .next s2

/-- `plrl` (R353): every matrix instruction of the block has retired at its issue (log 85, DEDUCED). -/
def execPlrl (h : Hd) (d : RegNo) (s : State) : Res := match s.me, s.views h with
  | none, _ => .next s
  | _, [] => .next (s.skip h)
  | some b, _ => match s.lease b with
    | none => .next (s.giveAll h d 1)
    | some pair => .next ((s.freeLease b.core pair).giveAll h d 0)

/-! ### Tiles -/

def zRead : List (Nat × W32) → Nat → W32
  | [], _ => 0
  | (i, v) :: r, n => if n = i then v else zRead r n

/-- An element of a lease's tile (R333). -/
def State.zGet (s : State) (core t r c : Nat) : W32 :=
  if c < 48 then zRead (s.arr core).z (t * 6144 + r * 48 + c) else zRead (s.arr (core + 1)).z (t * 6144 + r * 48 + c - 48)

/-- An array with tile t replaced; +0 elements are not listed. -/
def zPut (z : List (Nat × W32)) (t : Nat) (f : Nat → Nat → W32) : List (Nat × W32) :=
  let new := (List.range 6144).filterMap fun i =>
    let v := f (i / 48) (i % 48)
    if v = 0 then none else some (t * 6144 + i, v)
  (z.filter fun x => x.1 < t * 6144) ++ new ++ z.filter fun x => (t + 1) * 6144 ≤ x.1

/-- Writes a whole tile of a lease. -/
def State.zSet (s : State) (core : Nat) (pair : Bool) (t : Nat) (f : Nat → Nat → W32) : State :=
  let s1 := s.updArr core fun a => { a with z := zPut a.z t f }
  if pair then s1.updArr (core + 1) fun a => { a with z := zPut a.z t fun r c => f r (c + 48) } else s1

/-- Charges array cycles to each array of a lease (R338, R358). -/
def State.chargeMma (s : State) (b : Block) (pair : Bool) (n : Nat) : State :=
  s.charge b.ctx (coreDie b.core) .mma (if pair then 2 * n else n)

/-- The lease fault (R336). -/
def State.noLease (s : State) (h : Hd) : State := s.wholeFault h { code := 0x0C }

/-- A form that needs a lease, for its elected party; it waits while `.mma` is held. -/
def State.onLease (s : State) (h : Hd) (f : Block → Bool → Who → View → Res) : Res := match s.me, s.views h with
  | none, _ => .next s
  | _, [] => .next (s.skip h)
  | some b, x :: _ =>
    if s.heldHere .mma then .next s
    else match s.lease b with
    | none => .next (s.noLease h)
    | some pair => f b pair x.2.1 x.2.2

def execZzero (h : Hd) (z : BitVec 3) (s : State) : Res :=
  s.onLease h fun b pair _ _ => .next (((s.zSet b.core pair z.toNat fun _ _ => 0).chargeMma b pair 1).skip h)

/-- A range of one row, with the last checks of Table 11-2; global pieces are checked one by one (R343, R352). -/
def State.rowSpan (s : State) (b : Block) (sp off len : Nat) (write : Bool) : List (Nat × Nat × Chk) :=
  if 2 ^ 56 ≤ off then [(0, len, .bad { code := 0x07, info := ptrInfo 3 sp })]
  else if sp ≠ 0 && limitOf b sp write < off + len then [(0, len, .bad { code := 0x07, info := ptrInfo 1 sp })]
  else s.chkRange b sp off len write

/-- The checks of a tile pointer and its pitch (R352). -/
def tileFlt (b : Block) (p : W64) (pitch : Nat) : Option Flt := match tileCheck b p 16 false with
  | .bad r sp => if r = 1 then none else some { code := 0x07, info := ptrInfo r sp }
  | .ok sp _ => if pitch % 16 ≠ 0 then some { code := 0x07, info := ptrInfo 2 sp } else none

/-- The rows of a tile in memory (log 81, DEDUCED). -/
def State.tileRows (s : State) (b : Block) (p : W64) (pitch n : Nat) (write : Bool) : List (Nat × Nat × Chk) :=
  (List.range 128).flatMap fun r => (s.rowSpan b (ptrSpace p) (bits p.toNat 55 0 + r * pitch) (4 * n) write).map fun x =>
    (r * 4 * n + x.1, x.2)

def wordAt (x : List Byte) (i : Nat) : W32 := BitVec.ofNat 32 (leNat ((x.drop (4 * i)).take 4))

/-- `zld` (R352): the tile is written only after every row has been read. -/
def execZld (h : Hd) (z : BitVec 3) (a b : RegNo) (s : State) : Res := s.onLease h fun k pair w v =>
  let n := leaseN pair
  match tileFlt k (v.r64 a) (v.r32 b).toNat with
  | some f => .next (s.wholeFault h f)
  | none =>
    if !s.mayReadNow k w then .next s
    else
      let cs := s.tileRows k (v.r64 a) (v.r32 b).toNat n false
      match s.getSpan k w cs with
      | .wait => .next s
      | .need dev va m => .next (s.askRead k w dev va m)
      | .bad f _ => .next (s.wholeFault h f)
      | .ok x =>
        if s.spanHeld k cs then .next s
        else .next ((((s.touch k w cs).zSet k.core pair z.toNat fun r c => wordAt x (r * n + c)).chargeMma k pair 1).skip h)

/-- `zst` (R352): every piece is checked before any byte enters the store path. -/
def execZst (h : Hd) (a : RegNo) (z : BitVec 3) (b : RegNo) (s : State) : Res := s.onLease h fun k pair w v =>
  let n := leaseN pair
  match tileFlt k (v.r64 a) (v.r32 b).toNat with
  | some f => .next (s.wholeFault h f)
  | none =>
    let cs := s.tileRows k (v.r64 a) (v.r32 b).toNat n true
    match spanBad cs with
    | some f => .next (s.wholeFault h f.1)
    | none =>
      if spanWaits cs then .next s
      else
        let x := (List.range (128 * n)).flatMap fun i => leBytes 4 (s.zGet k.core z.toNat (i / n) (i % n)).toNat
        .next (((s.putOwn k s.nextId w (spanWrites w cs x)).chargeMma k pair 1).skip h)

/-- `zrd` (R352); a j beyond the lease's width takes FIELD 9, as `State.stateCheck` reports it at the fetch
(log 31, DEDUCED). -/
def execZrd (h : Hd) (d : RegNo) (z : BitVec 3) (j : BitVec 8) (s : State) : Res := s.onLease h fun k pair _ _ =>
  if leaseN pair / 4 ≤ j.toNat then .next (s.trapUnissued (fieldXf3 9) s.issuers (codeFault 1))
  else
    let outs := (s.views h).map fun x => (x.2.1, LOut.ok ((List.range 16).map fun i =>
      Wr.v (d.toNat + i) (s.zGet k.core z.toNat (4 * x.1 + i / 4) (4 * j.toNat + i % 4))))
    .next ((s.chargeMma k pair 1).commit h outs)

/-! ### The scale cache (R344, R345, R354) -/

/-- The scale address of an offset, under `%scb` and `%scs` (R344). -/
def Block.scaleAt (b : Block) (ea : Nat) : W64 :=
  let off := (bits b.scb.toNat 55 0 + ea / 2 ^ b.scs.toNat) % 2 ^ 56
  BitVec.ofNat 64 (b.scb.toNat / 2 ^ 56 * 2 ^ 56 + off)

/-- A scale byte as the elected party reads it: its own and its core's newer writes, then the scale cache, then as a
load (R345). -/
def State.getScale (s : State) (b : Block) (w : Who) (ea : Nat) : Got × List (Nat × Nat × Chk) :=
  match tileCheck b (b.scaleAt ea) 1 false with
  | .bad r sp => (.bad { code := 0x07, info := ptrInfo r sp } 0, [])
  | .ok _ _ =>
    let cs := s.chkSpan b (b.scaleAt ea) 1 false
    let c := s.core b.core
    let cached := match cs with
      | [(_, _, .ok (.glob pa) _)] =>
        if (c.pathByte b.slot w s.nextId (.glob pa) pa).isSome || (c.outByte pa).isSome then none
        else (c.scale.find? fun x => x.1 == pa).map (·.2)
      | _ => none
    match cached with
    | some v => (.ok [v], [])
    | none => (s.getSpan b w cs, cs)

/-- Keeps the scale bytes that were read from memory. -/
def State.keepScales (s : State) (core : Nat) (xs : List (List (Nat × Nat × Chk) × List Byte)) : State :=
  let add := fun (l : List (Nat × Byte)) (x : List (Nat × Nat × Chk) × List Byte) => match x with
    | ([(_, _, .ok (.glob pa) _)], [v]) => if l.any fun y => y.1 == pa then l else (pa, v) :: l
    | _ => l
  s.updCore core fun c => { c with scale := xs.foldl add c.scale }

def execScinv (h : Hd) (s : State) : Res := .next ((s.updCore s.cur.core fun c => { c with scale := [] }).skip h)

/-- `scpf` (R354): brings in the scale bytes that it can read; it never faults. -/
def execScpf (h : Hd) (a : RegNo) (n : BitVec 8) (s : State) : Res := match s.me, s.views h with
  | none, _ => .next s
  | _, [] => .next (s.skip h)
  | some b, x :: _ =>
    let p := x.2.2.r64 a
    let base := b.scaleAt (bits p.toNat 55 0)
    let one := fun (i : Nat) =>
      let q := BitVec.ofNat 64 (base.toNat / 2 ^ 56 * 2 ^ 56 + (bits base.toNat 55 0 + i) % 2 ^ 56)
      match ptrCheck b [0] q 0 1 false with
      | .bad _ _ => none
      | .ok _ _ =>
        let cs := s.chkSpan b q 1 false
        match cs, s.getSpan b x.2.1 cs with
        | [(_, _, .ok (.glob _) _)], .ok v => some (cs, v)
        | _, _ => none
    let got := (List.range n.toNat).filterMap one
    let cs := got.flatMap fun x => x.1
    if s.spanHeld b cs then .next (s.skip h) else .next (((s.touch b x.2.1 cs).keepScales b.core got).skip h)

/-! ### `mma` (R338–R350) -/

def afBytes : AFmt → Nat
  | .bf16 => 2
  | _ => 1

def afFmt : AFmt → Fmt
  | .e4m3 => .e4m3fmt
  | .e5m2 => .e5m2
  | .bf16 => .bf16

/-- An element at byte position o of a run of registers that begins at r. -/
def Fibre.elem (f : Fibre) (r o n : Nat) : Nat := (f.reg (r + o / 4)).toNat / 2 ^ (8 * (o % 4)) % 2 ^ (8 * n)

/-- A(r, k) (R339, R340). -/
def aElem (ls : List (Nat × Fibre)) (o : MmaOps) (r k : Nat) : FVal := match ls.find? fun x => x.1 == r / 4 with
  | none => .fin false 0 0
  | some (_, f) =>
    let e := afBytes o.afmt
    let kk := if o.k64 then 64 else 32
    let q := r % 4
    let x := f.elem (o.a.toNat + q * kk * e / 4) (k * e) e
    if o.afmt = .bf16 then Fmt.bf16.decode x
    else
      let sc := if o.sa then f.elem o.c.toNat (2 * q + k / 32) 1 else 127
      mxVal (afFmt o.afmt) x sc

/-- B(k, n) from registers (R341). -/
def bReg (ls : List (Nat × Fibre)) (o : MmaOps) (k n : Nat) : FVal :=
  let e := afBytes o.bfmt
  let kk := if o.k64 then 64 else 32
  let per := leaseN o.pair * kk * e / 32
  let at_ := n * kk * e + k * e
  let x := match ls.find? fun x => x.1 == at_ / per with
    | none => 0
    | some (_, f) => f.elem o.b.toNat (at_ % per) e
  if o.bfmt = .bf16 then Fmt.bf16.decode x else mxVal (afFmt o.bfmt) x 127

/-- A tile handle (R342). -/
structure Handle where
  sp : Nat
  fmt : Nat
  pitch : Nat
  base : Nat
  deriving DecidableEq, Repr

def handleOf (x : W64) : Handle where
  sp := bits x.toNat 63 63
  fmt := bits x.toNat 62 60
  pitch := bits x.toNat 59 52
  base := bits x.toNat 51 0 * 16

/-- Whether a handle is valid for an A format (R343). -/
def Handle.ok (t : Handle) (a : AFmt) : Bool :=
  t.fmt ≤ 4 && t.pitch != 0 && (if a = .bf16 then t.fmt == 2 else t.fmt != 2)

/-- Bytes of one block of 32 elements of a tile row (R61, R342). -/
def Handle.block (t : Handle) : Nat := match t.fmt with
  | 0 => 32
  | 1 => 32
  | 2 => 64
  | 3 => 16
  | _ => 12

def signedBits (n x : Nat) : Int := if 2 ^ (n - 1) ≤ x then (x : Int) - 2 ^ n else x

/-- Element j of a block, with its scale byte (R61, R344). -/
def Handle.elem (t : Handle) (blk : List Byte) (scale : Nat) (j : Nat) : FVal :=
  let x := leNat blk
  match t.fmt with
  | 0 => mxVal .e4m3fmt (x / 2 ^ (8 * j) % 256) scale
  | 1 => mxVal .e5m2 (x / 2 ^ (8 * j) % 256) scale
  | 2 => Fmt.bf16.decode (x / 2 ^ (16 * j) % 65536)
  | 3 => (FVal.ofInt (signedBits 4 (x / 2 ^ (4 * j) % 16))).mul (Fmt.e4m3fmt.decode scale)
  | _ => (FVal.ofInt (signedBits 3 (x / 2 ^ (3 * j) % 8))).mul (Fmt.e4m3fmt.decode scale)

/-- The scale that stands for 1 (R344): E8M0 127, or E4M3 1.0. -/
def Handle.one (t : Handle) : Nat := if t.fmt = 3 || t.fmt = 4 then 0x38 else 127

/-- One output element over the slices of 16 (R74). -/
def mmaElem (z : W32) (m : FVal) (a b : Nat → FVal) (kv : Nat) : W32 :=
  (List.range (kv / 16)).foldl (fun (z : W32) sl =>
    let t := exactSum .rne ((List.range 16).map fun i => (a (16 * sl + i)).mul (b (16 * sl + i)))
    BitVec.ofNat 32 (Fmt.f32.sum .rne [Fmt.f32.decode z.toNat, m.mul t])) z

/-- The lanes that supply fragments: every issuing lane, guard true or not (R339, R349). -/
def State.fragment (s : State) : List (Nat × Fibre) := match s.part? with
  | some (b, p) => b.lanesOf p
  | none => []

/-- Computes and writes the tile of an `mma`, once every operand has been read (R348). -/
def State.mmaRun (s : State) (h : Hd) (k : Block) (pair : Bool) (o : MmaOps) (m : FVal) (b : Nat → Nat → FVal) : State :=
  let ls := s.fragment
  let kv := 32 * o.kb.toNat
  let cyc := Nat.max 1 (if o.afmt = .bf16 then kv / 4 else kv / 8)
  let el := fun (r n : Nat) =>
    let z := if o.init then 0 else s.zGet k.core o.z.toNat r n
    mmaElem z m (fun i => aElem ls o r i) (fun i => if o.nx.toNat ≤ n then .fin false 0 0 else b i n) kv
  ((s.zSet k.core pair o.z.toNat el).chargeMma k pair cyc).skip h

/-- Reads the scale bytes of a tile: for each row its blocks, in order. -/
def State.getScales (s : State) (b : Block) (w : Who) : List Nat → Got × List (List (Nat × Nat × Chk) × List Byte)
  | [] => (.ok [], [])
  | ea :: rest => match s.getScale b w ea with
    | (.ok x, cs) => match s.getScales b w rest with
      | (.ok y, l) => (.ok (x ++ y), (cs, x) :: l)
      | r => r
    | (g, _) => (g, [])

/-- `mma` (R346–R350): the tile rows are read before the scale bytes, so that of their faults a tile's is taken (log 120,
DESIGN CHOICE). -/
def execMma (h : Hd) (o : MmaOps) (s : State) : Res := s.onLease h fun k pair w v =>
  if pair != o.pair then .next (s.noLease h)
  else if !o.th then
    .next (s.mmaRun h k pair o (FVal.ofInt 1) (bReg s.fragment o))
  else
    let t := handleOf (v.r64 o.b)
    if !t.ok o.afmt then .next (s.wholeFault h { code := 0x07, info := ptrInfo 0 t.sp })
    else if !s.mayReadNow k w then .next s
    else
      let nx := o.nx.toNat
      let kb := o.kb.toNat
      let len := t.block * kb
      let row := fun (n : Nat) => t.base + 64 * t.pitch * n
      let cs := (List.range nx).flatMap fun n => (s.rowSpan k t.sp (row n) len false).map fun x => (n * len + x.1, x.2)
      match s.getSpan k w (if kb = 0 then [] else cs) with
      | .wait => .next s
      | .need dev va m => .next (s.askRead k w dev va m)
      | .bad f _ => .next (s.wholeFault h f)
      | .ok x =>
        let eas := if o.sb then (List.range nx).flatMap fun n => (List.range kb).map fun i => row n + t.block * i else []
        match s.getScales k w eas with
        | (.wait, _) => .next s
        | (.need dev va m, _) => .next (s.askRead k w dev va m)
        | (.bad f _, _) => .next (s.wholeFault h f)
        | (.ok sc, seen) =>
          let all := (if kb = 0 then [] else cs) ++ seen.flatMap fun x => x.1
          if s.spanHeld k all then .next s
          else
            let scale := fun (n i : Nat) => if o.sb then ((sc[n * kb + i]?).getD 0).toNat else t.one
            let b := fun (i n : Nat) => t.elem ((x.drop (n * len + t.block * (i / 32))).take t.block) (scale n (i / 32)) (i % 32)
            let m := if t.fmt = 3 || t.fmt = 4 then Fmt.f32.decode o.mult.toNat else FVal.ofInt 1
            .next (((s.touch k w all).keepScales k.core seen).mmaRun h k pair o m b)

/-! ### The quantiser (R355, R356) -/

/-- `zq` (R355): all element bytes first, then the scales, as stores of the elected party (log 86, DEDUCED). -/
def execZq (h : Hd) (e5m2 : Bool) (a : RegNo) (z : BitVec 3) (c : RegNo) (s : State) : Res := s.onLease h fun k pair w v =>
  let n := leaseN pair
  let nb := if pair then 3 else 2
  let pe := v.r64 a
  let ps := v.r64 c
  match ptrFlt k pe 16 (128 * n) true, ptrFlt k ps 1 (128 * nb) true with
  | some f, _ => .next (s.wholeFault h f)
  | none, some f => .next (s.wholeFault h f)
  | none, none =>
    let ce := s.chkSpan k pe (128 * n) true
    let cs := s.chkSpan k ps (128 * nb) true
    match spanBad (ce ++ cs) with
    | some f => .next (s.wholeFault h f.1)
    | none =>
      if spanWaits (ce ++ cs) then .next s
      else
        let fmt := if e5m2 then Fmt.e5m2 else Fmt.e4m3fmt
        let blk := fun (r b : Nat) => mxQuant fmt ((List.range 32).map fun i =>
          if 32 * b + i < n then (s.zGet k.core z.toNat r (32 * b + i)).toNat else 0)
        let rows := (List.range 128).map fun r => (List.range nb).map fun b => blk r b
        let el := rows.flatMap fun r => (r.flatMap (·.2)).take n |>.map (BitVec.ofNat 8)
        let sc := rows.flatMap fun r => r.map fun q => BitVec.ofNat 8 q.1
        .next (((s.putOwn k s.nextId w (spanWrites w ce el ++ spanWrites w cs sc)).chargeMma k pair 1).skip h)

def State.updCmd (s : State) (seq : Nat) (f : Cmd → Cmd) : State :=
  { s with cmds := s.cmds.map fun (c : Cmd) => if c.seq == seq then f c else c }

/-- A write cut into its 32-byte sectors, where it goes to a home slice. -/
def sectorsOf (x : Who × Loc × List Byte) : List (Who × Loc × List Byte) := match x.2.1 with
  | .glob pa => (cutAt 32 pa x.2.2).map fun y => (x.1, Loc.glob y.1, y.2)
  | .remote d va => (cutAt 32 va x.2.2).map fun y => (x.1, Loc.remote d y.1, y.2)
  | _ => [x]

/-- Puts writes of an engine command on their way, in order: one write for each 32-byte sector (R279), storage at once. -/
def State.engWrites (s : State) (b : Block) (seq : Nat) (ws : List (Who × Loc × List Byte)) : State :=
  ((ws.flatMap sectorsOf).flatMap fun x => mkReqs b [x] []).foldl (fun (s : State) r =>
    if r.loc.lineOf.isSome then
      s.engPut b.core { issue := seq, slot := b.slot, path := 5, parties := [], pc := 0, req := r, eng := true }
    else s.storeLocal b.core b.slot r) s

/-- The fields of a quantiser command that is refused: its reason and its side (R277, R356). -/
def quantBad (c : Cmd) : Option (Nat × Nat) :=
  let f := (c.ent 3).toNat
  let es := if bits f 23 23 = 1 then 2 else 4
  let sp := fun (i : Nat) => spaceOf (c.ent i)
  if bits f 63 37 ≠ 0 || bits f 31 25 ≠ 0 || 4 < bits f 34 32 || bits f 22 16 = 0 then some (0, 0)
  else match sp 0, sp 1, sp 2 with
  | some r, _, _ => some (r, 0)
  | _, some r, _ => some (r, 1)
  | _, _, some r => some (r, 1)
  | none, none, none =>
    if bits (c.ent 0).toNat 55 0 % es ≠ 0 then some (2, 0)
    else if bits (c.ent 1).toNat 55 0 % 16 ≠ 0 then some (2, 1)
    else none
where
  spaceOf (p : W64) : Option Nat :=
    if ptrSpace p > 1 then some 5 else if bits p.toNat 59 56 ≠ 0 then some 0 else none

/-- The quantiser takes its next command: it refuses a bad one; otherwise it does one row, whose source is read whole
before any byte of it is written; after the last row the status word stands ready once the writes are performed (R356)
(log 86, DEDUCED). -/
def execQuantiserCommand (core : Nat) (s : State) : Res :=
  match s.cmds.find? fun c => c.k == .quant && c.unit == core && c.result.isNone with
  | none => .next s
  | some c => match s.block? core c.slot with
    | none => .next s
    | some b =>
      let f := (c.ent 3).toNat
      let w := cmdWho c.seq
      let finish := fun (s : State) (v : W32) => (s.setResult c.seq [v.zeroExtend 64]).dropBuf core w
      match quantBad c with
      | some r => .next (finish s (statusWord 7 r.1 r.2 0))
      | none =>
        let rows := bits f 15 0
        let nb := bits f 22 16
        let bf := bits f 23 23 = 1
        let es := if bf then 2 else 4
        let sc := (scopeOf ((c.ent 3).extractLsb' 32 3)).getD .core
        let acq := (c.ent 3).getLsbD 35
        let r := c.rows
        if r = rows then
          (if s.cmdClear core c.seq then .next (finish s (statusWord 0 0 0 rows)) else .next s)
        else if r = 0 && !c.busy && acq && !s.settled core c.slot c.after sc then .next s
        else
          let s := if r = 0 && !c.busy && acq then s.acquire core sc else s
          let s := s.markBusy c.seq
          let row := fun (i len : Nat) (write : Bool) =>
            s.rowSpan b (ptrSpace (c.ent i)) (bits (c.ent i).toNat 55 0 + r * len) len write
          let src := row 0 (nb * 32 * es) false
          let dst := row 1 (nb * 32) true
          let scl := row 2 nb true
          (match s.getSpan b w src with
          | .wait => .next s
          | .need dev va n => .next (s.askRead b w dev va n)
          | .bad g _ => if s.cmdClear core c.seq then .next (finish s (g.status 0 r)) else .next s
          | .ok x => match spanBad (dst ++ scl) with
            | some g => if s.cmdClear core c.seq then .next (finish s (g.1.status 1 r)) else .next s
            | none =>
              if spanWaits (dst ++ scl) || s.spanHeld b src then .next s
              else
                let val := fun (i : Nat) =>
                  let y := leNat ((x.drop (es * i)).take es)
                  if bf then y * 65536 else y
                let fmt := if bits f 24 24 = 1 then Fmt.e5m2 else Fmt.e4m3fmt
                let q := (List.range nb).map fun k => mxQuant fmt ((List.range 32).map fun i => val (32 * k + i))
                let el := (q.flatMap (·.2)).map (BitVec.ofNat 8)
                let sb := q.map fun y => BitVec.ofNat 8 y.1
                let s1 := (s.touch b w src).engWrites b c.seq (spanWrites w dst el ++ spanWrites w scl sb)
                .next ((s1.updCmd c.seq fun c => { c with rows := r + 1 }).dropBuf core w))

end Sys2Proof.Machine
end

