-- ==== Sys2Proof/Machine/Record.lean ====
section
/-! DEFINITION. The completion record of a launch (R116, R119): its bytes at a home slice, its end, and its fault. -/

namespace Sys2Proof.Machine

open Sys2Proof

/-- w0 of the record: LNUM and STATE. -/
def recordWord (num state : Nat) : W64 := BitVec.ofNat 64 (num * 2 ^ 16 + state)

/-- One write of the 32 bytes; CYC is that of the line's home die (R116) (log 50, DEDUCED). -/
def State.putRecord (s : State) (pa : Nat) (w0 w1 : W64) : State :=
  let cyc := (s.cdie (homeDie pa)).cyc
  s.homePut pa (leBytes 8 w0.toNat ++ leBytes 8 w1.toNat ++ leBytes 8 cyc.toNat ++ List.replicate 8 0)

/-- A launch has its record: it leaves the held launches, its grid barriers are free, and a `launch.wait` for it ends as
an acquire at `.sys` (R119, R120). -/
def State.endLaunch (s : State) (ctx num : Nat) : State :=
  let mine := fun (t : Late) => t.kind == .launch ctx num
  let give := fun (s : State) (t : Late) =>
    (s.updBlock t.core t.slot fun b => b.wr .cox [.s t.reg t.v]).acquireBy t.core t.slot [.cox] .sys
  let see := fun (t : Late) => if mine t then { t with kind := .launch ctx 0 } else t
  let seen := fun (x : Saved) => { x with lates := x.lates.map see }
  let s1 := (s.lates.filter mine).foldl give s
  { (s1.updCtx ctx fun c => { c with gown := c.gown.map fun g => if g == some num then none else g }) with
    lates := s1.lates.filter fun t => !mine t
    launches := s1.launches.filter fun l => !(l.ctx == ctx && l.num == num)
    saved := s1.saved.map seen }

/-- The record's write has faulted: one record goes to the supervisor, and the launch waits for a resume (R116). -/
def State.parkRecord (s : State) (ctx num va : Nat) (info : BitVec 16) : State :=
  (s.updLaunch ctx num fun l => { l with parked := true }).postRec ctx
    (mkRec (info ||| 1) 0x06 false 0 0 ctx 0 (pageOf va) 0 0 0 0)

end Sys2Proof.Machine
end

