-- ==== Sys2Proof/Machine/Link.lean ====
section
/-! DEFINITION. Ports and flits, and remote memory on both of its sides (R394–R401, R414–R417). -/

namespace Sys2Proof.Machine

open Sys2Proof

/-! ### Port state and control (R397, R416, R417) -/

def portCode : PortSt → Nat
  | .down => 0
  | .training => 1
  | .up => 2
  | .failed => 3

/-- Whether a port is in service (R419, R420). -/
def State.portServes (s : State) (p : Nat) : Bool := match s.stage with
  | .stage0 => false
  | .stage1 => 18 ≤ p && p < 22
  | .stage2 => p < 26 && s.ldieUp (portLdie p)
  | .halted => false

/-- What `lkst` reads (R416). -/
def State.linkStatus (s : State) (n : Nat) : W64 :=
  if n = 31 then s.devNum.zeroExtend 64
  else if 26 ≤ n then 0xFFFFFFFFFFFFFFFF
  else
    let p := s.port n
    let peer : Nat := if n < 18 then p.peer.toNat else 0
    BitVec.ofNat 64 (p.replays.toNat * 2 ^ 32 + peer * 2 ^ 16 + portCode p.st)

def execLkst (h : Hd) (d a : RegNo) (s : State) : Res :=
  s.pure1 h fun v => v.w64 d (s.linkStatus (v.r64 a).toNat)

/-- A port goes to TRAINING; leaving DOWN restarts its replay count (R397, R416). -/
def State.trainPort (s : State) (n : Nat) : State :=
  let now := (s.ldie (portLdie n)).cyc.toNat
  s.updPort n fun p => { p with st := .training, train := now, buf := [], closing := false, asking := false, fails := 0
                                replays := if p.st = .down then 0 else p.replays }

/-- A `lkctl` of a privileged context answers with f's status; any other gets status 2 (R417). -/
def State.linkCtl (s : State) (h : Hd) (d a b : RegNo) (f : W64 → W64 → Nat × State) : Res := match s.me with
  | none => .next s
  | some k =>
    let v := View.cox k.cox
    let r := if (s.ctx k.ctx).priv then f (v.r64 a) (v.r64 b) else (2, s)
    .next (r.2.commit h [(.cox, .ok [.s d.toNat (BitVec.ofNat 64 r.1)])])

def execLkctlUp (h : Hd) (d a b : RegNo) (s : State) : Res := s.linkCtl h d a b fun x _ =>
  let n := bits x.toNat 4 0
  let st := (s.port n).st
  if 26 ≤ n then (3, s)
  else if !s.portServes n then (4, s)
  else if st = .down || st = .failed then (0, s.trainPort n)
  else (1, s)

/-- A port leaves UP once its replay buffer is empty (log 93, DEDUCED). -/
def State.settlePort (s : State) (n : Nat) : State :=
  s.updPort n fun p => if p.closing && p.buf.isEmpty then { p with st := .down, closing := false } else p

def execLkctlDown (h : Hd) (d a b : RegNo) (s : State) : Res := s.linkCtl h d a b fun x _ =>
  let n := bits x.toNat 4 0
  if 26 ≤ n then (3, s)
  else if (s.port n).st = .down then (1, s)
  else if (s.port n).st = .up then (0, (s.updPort n fun p => { p with closing := true }).settlePort n)
  else (0, s.updPort n fun p => { p with st := .down, buf := [], closing := false })

/-- `lkctl.rxbuf` (R403, R417): a region of buffers of 64 KiB in the issuing context, all free. A region may run
past 2^56 (log 123, DESIGN CHOICE). One at remote addresses of another device is a bad operand (R399) (log 123, DESIGN CHOICE). -/
def execLkctlRxbuf (h : Hd) (d a b : RegNo) (s : State) : Res := s.linkCtl h d a b fun x y =>
  let n := bits y.toNat 8 0
  if bits x.toNat 63 56 ≠ 0 || x.toNat % 65536 ≠ 0 || n = 0 || 256 < n || (s.sysVa x.toNat).isNone then (3, s)
  else if s.rxBufs.any id then (1, s)
  else (0, { s with rxBase := x, rxCtx := s.myCtx, rxBufs := List.replicate n false })

/-- The buffer that an address names, while it is in use. -/
def State.rxUsed (s : State) (x : W64) : Option Nat :=
  (List.range s.rxBufs.length).find? fun i => x.toNat = s.rxBase.toNat + 65536 * i && (s.rxBufs[i]?).getD false

def execLkctlPost (h : Hd) (d a b : RegNo) (s : State) : Res := s.linkCtl h d a b fun x _ => match s.rxUsed x with
  | some i => (0, { s with rxBufs := s.rxBufs.set i false })
  | none => (3, s)

def execLkctlClr (h : Hd) (d a b : RegNo) (s : State) : Res := s.linkCtl h d a b fun x _ =>
  let n := bits x.toNat 4 0
  if 26 ≤ n then (3, s) else (0, s.updPort n fun p => { p with replays := 0 })

/-! ### Flits (R395, R396) -/

/-- A flit of a context's collective has landed: its drain counter falls (R411). A sent flit counts as landed when the link
partner acknowledges it (log 110, DESIGN CHOICE). -/
def State.landed (s : State) (f : Flit) : State :=
  if f.type = 3 then s.updCtx f.ctx.toNat fun c => { c with drain := c.drain - 1 } else s

/-- An acknowledgement frees the flits up to its number (R396); the waits for their destinations start again or end (R398). -/
def State.acked (s : State) (n : Nat) (ack : BitVec 12) : State :=
  let p := s.port n
  if p.buf.any fun f => f.seq == ack then
    let k := (p.buf.takeWhile fun f => f.seq != ack).length + 1
    let s1 := ((p.buf.take k).foldl State.landed s).updPort n fun p => { p with buf := p.buf.drop k, fails := 0 }
    ((p.buf.take k).foldl (fun (s : State) f => s.setQuiet f.dst.toNat (portLdie n) (s.awaits f.dst.toNat (portLdie n))) s1).settlePort n
  else s

/-- A flit of the link itself, idle or control, goes to the partner if the replay buffer has room (R396) (log 92, DEDUCED). -/
def State.linkFlit (s : State) (n type : Nat) : State := s.putFlit n type (s.port n).peer.toNat 0 (portLdie n) 0
def State.linkRoom (s : State) (n : Nat) : Bool := n < 18 && (s.port n).st = .up && (s.port n).buf.length < 2048

/-- The control flit that asks for replay goes out once there is room for it. -/
def State.askDue (s : State) (n : Nat) : State :=
  if (s.port n).asking && s.linkRoom n then (s.linkFlit n 6).updPort n fun p => { p with asking := false } else s

/-- A control flit to the partner that asks for replay, now or when there is room. -/
def State.askReplay (s : State) (n : Nat) : State := (s.updPort n fun p => { p with asking := true }).askDue n

/-- An idle flit takes an acknowledgement to the partner when nothing else does (Table 23-1, R396). -/
def State.idleFlit (s : State) (n : Nat) : State := if s.linkRoom n then s.linkFlit n 0 else s

/-- The partner asks for replay (R396, R416): the port resends from its oldest unacknowledged flit, in order; their ACK is the
highest number received by now (Table 23-1). -/
def execReplay (port : Nat) (s : State) : Res :=
  let p := s.port port
  if p.st != .up || 18 ≤ port || p.buf.isEmpty then .next s
  else
    let s1 := s.updPort port fun p =>
      { p with fails := p.fails + 1, replays := if p.replays = 0xFFFF then p.replays else p.replays + 1 }
    .next { s1 with sent := s1.sent ++ p.buf.map fun f => Sent.flit port (sealFlit { f with ack := p.ack }) }

/-! ### Training and failure (R397, R398) -/

/-- Sends again a request whose port has failed, with its old tag, when another port can take it (log 92, DEDUCED). -/
def State.resend (s : State) (o : Outstanding) : State :=
  match s.pickPort o.dev (if o.coll.isSome then o.dev % 18 else firstPort o.dev o.va) with
  | none => s
  | some p =>
    if !s.canSend o.ctx p then s
    else
      let s1 := s.sendFlit p (if o.coll.isSome then 4 else 1) o.dev o.tag o.ldie o.ctx
      { s1 with outstanding := s1.outstanding.map fun (x : Outstanding) =>
          if x.ldie == o.ldie && x.tag == o.tag then { x with port := p, resent := true, again := false } else x }

/-- A flit of a failed port goes on another port, when one can take it and no earlier one to its destination waits. -/
def State.moveFlit (s : State) (f : Flit) : State :=
  let stay := { s with strays := s.strays ++ [f] }
  if s.strays.any fun g => g.dst == f.dst then stay
  else match s.pickPort f.dst.toNat (f.dst.toNat % 18) with
  | none => stay
  | some p =>
    if s.canSend f.ctx.toNat p then s.sendFlit p f.type.toNat f.dst.toNat f.tag.toNat f.sld.toNat f.ctx.toNat else stay

/-- Sends again, where a port takes it, every request and every other flit that must go again (R398). -/
def State.resendAll (s : State) : State :=
  let s1 := (s.outstanding.filter fun o => o.again).foldl (fun (s : State) o => s.resend o) s
  s1.strays.foldl State.moveFlit { s1 with strays := [] }

/-- Marks the requests that must go again, and sends those that can. -/
def State.again (s : State) (lost : Outstanding → Bool) : State :=
  { s with outstanding := s.outstanding.map fun (o : Outstanding) => if lost o then { o with again := true } else o }.resendAll

/-- Whether a flit carries an outstanding request. -/
def flitAsks (f : Flit) (o : Outstanding) : Bool := (f.type == 1 || f.type == 4) && f.tag.toNat == o.tag && f.sld.toNat == o.ldie

/-- A flit arrives at a port (R396): the next in sequence is accepted; a bad one is lost, and a lost or out-of-order one makes the
port ask for replay. The acknowledgement of a whole one is taken in either case. The room that this gives goes to an ask that waits,
and to what must go again (R398). -/
def execFlitReceive (port : Nat) (f : Flit) (s : State) : Res :=
  let p := s.port port
  if p.st != .up || 18 ≤ port then .next s
  else if !flitGood f then .next (s.askReplay port)
  else if f.seq != p.ack + 1 then .next ((s.acked port f.ack).askReplay port).resendAll
  else .next (((s.updPort port fun p => { p with ack := f.seq }).acked port f.ack).askDue port).resendAll

/-- Moves a failed port's replies, collective and swap data to other ports; what none can take yet waits its turn (log 92,
DEDUCED). -/
def State.moveFlits (s : State) (fs : List Flit) : State :=
  { s with strays := s.strays ++ fs.filter fun (f : Flit) => [2, 3, 5].contains f.type.toNat }.resendAll

/-- A plane reports whether a device can be reached on a port. Requests to it that stand on a port where it cannot be reached
go again on the next one (R398) (log 92, DEDUCED). -/
def State.planeReport (s : State) (dev port : Nat) (reached : Bool) : State :=
  let others := s.unreach.filter fun x => x != (dev, port)
  if reached then { s with unreach := others }.resendAll
  else
    { s with unreach := others ++ [(dev, port)] }.again fun o => o.dev == dev && o.port == port

def execPortTrained (port peer : Nat) (s : State) : Res :=
  if (s.port port).st != .training then .next s
  else .next (s.updPort port fun p => { p with st := .up, seq := 0, ack := 0, buf := [], asking := false, fails := 0
                                               peer := if port < 18 then BitVec.ofNat 10 peer else 0 }).resendAll

def execTrainingTimeout (port : Nat) (s : State) : Res :=
  let p := s.port port
  if p.st = .training && p.train + 2 ^ 24 ≤ (s.ldie (portLdie port)).cyc.toNat then
    .next (s.updPort port fun p => { p with st := .failed })
  else .next s

/-- Sixteen replays of one flit have failed (R397): the port fails, and what it had not seen acknowledged goes again on
other ports (R398). -/
def execPortFail (port : Nat) (s : State) : Res :=
  let p := s.port port
  if p.st != .up || 18 ≤ port || p.fails < 16 then .next s
  else
    let s1 := s.updPort port fun p => { p with st := .failed, buf := [], closing := false, asking := false }
    .next ((s1.again fun o => o.port == port && p.buf.any fun f => flitAsks f o).moveFlits p.buf)

/-! ### Requests from other devices (R399, R400) -/

def opRight : RemoteOp → Right
  | .read _ => .read
  | .fetch => .fetch
  | _ => .write

/-- What a request does at its home slice, or a wait. -/
def State.serve (s : State) (r : RemoteReq) : Option (State × RemoteRep) :=
  let c := r.ctx.toNat
  let w : BitVec 16 := if opRight r.op = .write then 1 else 0
  if (s.ctx c).st != .running then some (s, .fault w)
  else match s.walk c r.va.toNat with
  | none => some (s, .fault w)
  | some l => match l.check (opRight r.op) r.sys r.va.toNat with
    | .wait => none
    | .fault i => some (s, .fault i)
    | .ok pa =>
      if r.op = .write [] then some (s, .data [] 0)
      else if s.lineHeld c pa then none
      else
        let s := match r.op with
          | .write data => s.chargeWrite c pa (data.map fun d => (pa + d.1 - r.va.toNat, d.2))
          | .read _ => s.chargeLine c pa
          | .fetch => s.chargeLine c pa
          | _ => s.chargeWrite c pa [(pa, 0)]
        let priv := (s.ctx c).priv
        match r.op with
        | .read n => if s.bad pa n then some (s, .bad) else some (s, .data (s.homeRead priv pa n) 0)
        | .fetch => if s.bad pa 32 then some (s, .bad) else some (s, .data (s.homeRead priv pa 32) 0)
        | .write data =>
          let x := s.homeWrite priv (pa / 128 * 128) (data.map fun d => (Who.cox, pa + d.1 - r.va.toNat, d.2))
          some (x.1, .data [] x.2)
        | .atomic op ty ops =>
          let n := if ty.is64 then 8 else 4
          if s.bad pa n then some (s, .bad)
          else
            let x := s.homeAtomic pa op ty ops
            some (x.1, .data (x.2.flatMap fun v => leBytes n v) 0)
        | .record w0 w1 => some (s.putRecord pa w0 w1, .data [] (seqGet s.seq (pa / 128) + 1))

/-- A source's replies, the last 256 of them (R400). -/
def keepReply (l : List (BitVec 10 × BitVec 1 × BitVec 8 × RemoteRep)) (src : BitVec 10) (sld : BitVec 1) (tag : BitVec 8)
    (x : RemoteRep) : List (BitVec 10 × BitVec 1 × BitVec 8 × RemoteRep) :=
  let mine := fun (y : BitVec 10 × BitVec 1 × BitVec 8 × RemoteRep) => y.1 == src && y.2.1 == sld
  let own := (l.filter fun y => mine y && y.2.2.1 != tag) ++ [(src, sld, tag, x)]
  (l.filter fun y => !mine y) ++ own.drop (own.length - 256)

/-- A request from another device is performed once, and answered; one sent again gets its recorded reply (R400). One of which a
sector has failed its check is not performed (R401). -/
def execRemoteRequest (r : RemoteReq) (s : State) : Res :=
  match s.pickPort r.src.toNat (firstPort r.src.toNat (bits r.va.toNat 41 0)) with
  | none => .next s
  | some p =>
    if !s.canSend r.ctx.toNat p then .next s
    else
      let answer := fun (s : State) (x : RemoteRep) =>
        let t := s.sendFlit p 2 r.src.toNat r.tag.toNat r.sld.toNat r.ctx.toNat
        (Host.Outcome.next { t with sent := t.sent ++ [.reply r.src.toNat r.sld.toNat r.tag.toNat x] } : Res)
      let kept := s.replies.find? fun y => r.resent && y.1 == r.src && y.2.1 == r.sld && y.2.2.1 == r.tag
      match kept with
      | some y => answer s y.2.2.2
      | none =>
        if !r.intact then answer s .sector
        else match s.serve r with
        | none => .next s
        | some (t, x) => answer { t with replies := keepReply t.replies r.src r.sld r.tag x } x

/-! ### Replies to this device (R399) -/

def State.updColl (s : State) (id : Nat) (f : CollCmd → CollCmd) : State :=
  { s with colls := s.colls.map fun (c : CollCmd) => if c.id == id then f c else c }

/-- The fault that a failed reply gives (R399, R401). -/
def repFlt (r : RemoteRep) (dev va : Nat) : Flt := match r with
  | .fault i => remoteFlt dev va 6 i.toNat
  | _ => { code := 0x11 }

/-- The parties that have bytes in an outstanding request stop at its instruction, those of the other scatters in its line at
theirs; what it would have brought is dropped (R275) (log 71, DEDUCED). -/
def State.failParties (s : State) (o : Outstanding) (f : Flt) : State :=
  let ws := if o.lanes.isEmpty then o.parties else o.lanes.map (·.who)
  let mine := fun (p : Pend) => p.issue == o.issue && p.core == o.core && p.slot == o.slot && ws.contains p.who
  let s1 := { s with pends := s.pends.filter fun p => !mine p }
  o.also.foldl (fun (s : State) (a : Share) => s.lateFault a.issue o.core a.slot a.ws a.pc f) (s1.lateFault o.issue o.core o.slot ws o.pc f)

/-- A line of another device that the collector asked for has failed: its gathered lanes fault, and its poolings see the fault
when they next try (R284, R286). -/
def State.failLine (s : State) (o : Outstanding) (f : Flt) : State :=
  let lane := fun (s : State) (g : Nat × Nat) => match s.pends.find? fun p => p.issue == g.1 && p.lane == g.2 && p.core == o.core with
    | some p => (s.dropPend p).lateFault p.issue p.core p.slot [p.who] p.pc f
    | none => s
  (o.gath.foldl lane s).updCore o.core fun c => { c with pbuf := c.pbuf ++ o.pools.map fun r =>
    { slot := r.1, who := r.2, dev := some o.dev, pa := o.va, data := [], flt := some (f.code.toNat, f.info.toNat) } }

/-- A line of another device has come for the collector: every lane gets its bytes, every pooling the line (R246, R284, R286). -/
def State.giveLine (s : State) (o : Outstanding) (x : List Byte) : State :=
  let lane := fun (s : State) (g : Nat × Nat) => match s.pends.find? fun p => p.issue == g.1 && p.lane == g.2 && p.core == o.core with
    | some p => match p.kind with
      | .load l sz _ _ _ => (s.setData p ((x.drop (l.addr - o.va)).take (ldBytes sz))).arrive p
      | _ => s
    | none => s
  (o.gath.foldl lane s).updCore o.core fun c => { c with pbuf := c.pbuf ++ o.pools.map fun r =>
    { slot := r.1, who := r.2, dev := some o.dev, pa := o.va, data := x } }

/-- Whether a request carries a line for the collector. -/
def Outstanding.isLine (o : Outstanding) : Bool := !o.gath.isEmpty || !o.pools.isEmpty

/-- A remote request of this device has failed: its parties fault, or the engine command that made it ends with a status
word (R277, R399, R410). -/
def State.failReply (s : State) (o : Outstanding) (r : RemoteRep) : State :=
  let f := repFlt r o.dev o.va
  let copies := fun (g : Copy → Copy) => { s with copies := s.copies.map fun (c : Copy) => if c.issue == o.issue && c.core == o.core then g c else c }
  match o.coll with
  | some id => s.updColl id fun c => { c with rowBad := true }
  | none =>
    if o.buf then
      s.updCore o.core fun c => { c with rbuf := c.rbuf ++ o.parties.map fun w =>
        { slot := o.slot, who := w, dev := o.dev, va := o.va, data := [], bad := some (f.code.toNat, f.info.toNat) } }
    else if o.image then s
    else match o.op with
    | .read _ =>
      if o.isLine then s.failLine o f
      else if o.parties.isEmpty then copies fun c => { c with status := some (f.status 0 o.lane) }
      else s.failParties o f
    | .fetch => s
    | .write _ =>
      if o.parties.isEmpty then
        (copies fun c => { c with status := some (f.status 1 (c.done - 1)), data := [] }).updCmd o.issue fun c =>
          { c with result := some [(f.status 1 c.rows).zeroExtend 64] }
      else if s.pends.any fun p => p.cstOf o.core o.issue then s.cstFail o.core o.issue o.dev o.va f
      else s.failParties o f
    | .atomic _ _ _ => s.failParties o f
    | .record _ _ => s.parkRecord o.ctx o.lane (remoteVa o.dev o.va) f.info

/-- Cuts bytes into pieces of n. -/
def pieces (n : Nat) (x : List Byte) (k : Nat) : List Nat := (List.range k).map fun i => leNat ((x.drop (n * i)).take n)

/-- A remote request of this device has been performed: its data, old values or sequence number go where they belong. -/
def State.goodReply (s : State) (o : Outstanding) (x : List Byte) (seq : BitVec 16) : State :=
  let s := match o.acq with
    | some sc => s.acquireBy o.core o.slot (if o.lanes.isEmpty then o.parties else o.lanes.map fun (x : AtLane) => x.who) sc
    | none => s
  match o.coll with
  | some _ => s
  | none =>
    if o.buf then s.updCore o.core fun c => { c with rbuf := c.rbuf ++ o.parties.map fun w =>
      { slot := o.slot, who := w, dev := o.dev, va := o.va, data := match o.op with
          | .write d => d.map (·.2)
          | _ => x } }
    else if o.image then s.updLaunch o.ctx o.lane fun l => { l with far := l.far ++ [(o.dev, o.va, x)] }
    else match o.op with
    | .fetch => s
    | .read _ =>
      if o.isLine then s.giveLine o x
      else if o.parties.isEmpty then
        { s with copies := s.copies.map fun (c : Copy) =>
            if c.issue == o.issue && c.core == o.core then { c with data := c.data ++ x } else c }
      else match s.pends.find? fun p => p.issue == o.issue && p.lane == o.lane && p.core == o.core && p.slot == o.slot with
        | some p => (s.setData p x).arrive p
        | none => s
    | .write _ => s.giveTags o.core o.slot o.issue o.tags seq
    | .atomic op ty _ =>
      let n := match op with
        | .embsw _ => 4
        | _ => if ty.is64 then 8 else 4
      s.giveOlds o.core o.slot o.issue o.lanes n (pieces n x o.lanes.length)
    | .record _ _ => s.endLaunch o.ctx o.lane

/-- A memory reply for a party wakes its becalmed core (R109). -/
def State.rouseFor (s : State) (o : Outstanding) : State := if o.parties.isEmpty && !o.isLine then s else s.rouse o.core 1 0

/-- A reply ends its request; a second reply to it is ignored (R400). The first time that a sector of it has failed, the request goes
again with its tag (R401). -/
def execRemoteReply (ldie tag : Nat) (r : RemoteRep) (s : State) : Res :=
  match s.outstanding.find? fun o => o.ldie == ldie && o.tag == tag with
  | none => .next s
  | some o =>
    if r = .sector && !o.retried then
      .next { s with outstanding := s.outstanding.map fun (x : Outstanding) =>
        if x.ldie == ldie && x.tag == tag then { x with retried := true, again := true } else x }.resendAll
    else
    let s1 := { s with outstanding := s.outstanding.filter fun x => !(x.ldie == ldie && x.tag == tag) }
    let s2 := if o.coll.isSome then s1.updCtx o.ctx fun c => { c with drain := c.drain - 1 } else s1
    .next ((match r with
    | .data x seq => s2.goodReply o x seq
    | _ => s2.failReply o r).rouseFor o)

end Sys2Proof.Machine
end

