-- ==== Sys2Proof/Machine/Coll.lean ====
section
/-! DEFINITION. The collective engines: collectives and expert dispatch (R78, R404–R412), Ultra Ethernet (R402, R403, R413),
and the loss of a destination (R398, R408, R410). -/

namespace Sys2Proof.Machine

open Sys2Proof

/-! ### Local memory as a collective engine uses it -/

/-- Whether a range of global addresses touches the remote addresses, which this chapter's buffers may not (R399). -/
def farRange (off len : Nat) : Bool := bits off 55 52 == 0xE || bits (off + len - 1) 55 52 == 0xE

/-- A buffer pointer: SPACE 0 or 1, aligned, not remote (log 94, DEDUCED). -/
def bufOk (p : W64) (al len : Nat) : Bool :=
  (spaceBad p [0, 1]).isNone && ptrOff p % al == 0 && !(ptrSpace p == 0 && farRange (ptrOff p) (Nat.max len 1))

def plusPtr (p : W64) (n : Nat) : W64 := p + BitVec.ofNat 64 n

/-- Reads n bytes at a buffer offset, at their homes or in the block's scratchpad; a line whose class is held waits (R104). -/
def State.bufRead (s : State) (b : Block) (p : W64) (off n : Nat) : Got :=
  if ptrSpace p ≠ 0 && outOfExtent b p (off + n) false then .bad { code := 0x07, info := ptrInfo 1 (ptrSpace p) } 0
  else if ptrSpace p = 1 then .ok (b.scratch.read (ptrOff p + off) n)
  else
    let step := fun (g : Got) (x : Nat × Nat × Chk) => (match g with
      | .ok y => match x.2.2 with
        | .ok (.glob pa) _ =>
          if s.lineHeld b.ctx pa then .wait
          else if s.bad pa x.2.1 then .bad { code := 0x11 } 0
          else .ok (y ++ s.homeRead false pa x.2.1)
        | .wait => .wait
        | .bad f => .bad f 0
        | .ok _ _ => .bad { code := 0x07, info := ptrInfo 5 0 } 0
      | g => g : Got)
    (s.chkRange b 0 (ptrOff p + off) n false).foldl step (.ok [])

/-- The traffic of a range that has been read (R252). -/
def State.bufTouch (s : State) (b : Block) (p : W64) (off n : Nat) : State :=
  if ptrSpace p = 1 then s
  else (s.chkRange b 0 (ptrOff p + off) n false).foldl (fun (s : State) x => match x.2.2 with
    | .ok (.glob pa) _ => s.chargeLine b.ctx pa
    | _ => s) s

/-- What one indivisible write of a buffer's sector comes to. -/
inductive Put where
  | wait
  | bad (f : Flt)
  | ok (s : State)

/-- Writes within one 32-byte sector as one write. -/
def State.bufWrite (s : State) (b : Block) (p : W64) (x : List Byte) : Put :=
  if ptrSpace p ≠ 0 && outOfExtent b p x.length true then .bad { code := 0x07, info := ptrInfo 1 (ptrSpace p) }
  else if ptrSpace p = 1 then .ok (s.updBlock b.core b.slot fun b => { b with scratch := b.scratch.write (ptrOff p) x })
  else if 2 ^ 56 ≤ ptrOff p then .bad { code := 0x07, info := ptrInfo 3 0 }
  else match s.chkGlobal b (ptrOff p) true with
  | .ok (.glob pa) _ =>
    if s.lineHeld b.ctx pa then .wait
    else .ok ((s.chargeWrite b.ctx pa (x.zipIdx.map fun y => (pa + y.2, y.1))).homePut pa x)
  | .ok _ _ => .bad { code := 0x07, info := ptrInfo 5 0 }
  | .wait => .wait
  | .bad f => .bad f

/-- Cuts a write at 32-byte boundaries, in ascending order; the last piece carries the mark. -/
def sectors (p : W64) (x : List Byte) (mark : Bool) : List (W64 × List Byte × Bool) :=
  let a := ptrOff p
  let n := x.length
  let k := if n = 0 then 0 else (a + n - 1) / 32 + 1 - a / 32
  (List.range k).map fun i =>
    let lo := Nat.max a (32 * (a / 32 + i))
    let hi := Nat.min (a + n) (32 * (a / 32 + i + 1))
    (plusPtr p (lo - a), (x.drop (lo - a)).take (hi - lo), mark && i + 1 == k)

/-! ### Taking a command (R404, R413, R415) -/

/-- The descriptor as its plain read gives it: a wait, a status word, or its 64 bytes. -/
inductive Desc where
  | wait
  | bad (w : W32)
  | ok (cs : List (Nat × Nat × Chk)) (x : List Byte)
  deriving DecidableEq, Repr

def State.collDesc (s : State) (b : Block) (w : Who) (p : W64) : Desc := match spaceBad p [0, 1] with
  | some r => .bad (statusWord 7 r 0 0)
  | none =>
    if ptrOff p % 64 ≠ 0 then .bad (statusWord 7 2 0 0)
    else if outOfExtent b p 64 false then .bad (statusWord 7 1 0 0)
    else if ptrSpace p = 0 && farRange (ptrOff p) 64 then .bad (statusWord 7 5 0 0)
    else
      let cs := s.chkSpan b p 64 false
      match s.getSpan b w cs with
      | .wait => .wait
      | .need _ _ _ => .wait
      | .bad f _ => .bad (f.status 0 0)
      | .ok x => if s.spanHeld b cs then .wait else .ok cs x

/-- A collective or dispatch instruction: its descriptor is read in the party's program order, the engine of the serving
L-die accepts the command, and the command is charged there (R104, R404, R415). -/
def State.collective' (s : State) (h : Hd) (kind : Nat) (o : Ord) (d a : RegNo) : Res := match s.me, s.views h with
  | none, _ => .next s
  | _, [] => .next (s.skip h)
  | some b, x :: rest =>
    let vs : List (Nat × Who × View) := x :: rest
    let l := servingL (coreDie b.core)
    if s.held b.ctx (4 + l) .coll || !s.mayReadNow b x.2.1 then .next s
    else
      let ws := vs.map fun (y : Nat × Who × View) => y.2.1
      let p := x.2.2.r64 a
      let go := fun (s : State) (desc : Option (List Byte)) (st : Option W32) =>
        let add := fun (s : State) (id : Nat) =>
          let c : CollCmd := { id := id, ldie := l, core := b.core, slot := b.slot, ctx := b.ctx, kind := kind, parties := ws, ptr := p
                               after := ws.map fun w => (w, id), o := o, dest := .regs (ws.map fun w => (w, d.toNat)), desc := desc, status := st }
          { s.charge b.ctx (4 + l) .coll 1 with colls := s.colls ++ [c] }
        (Host.Outcome.next (s.accept h (fun id => ws.map fun w => (id, w, d.toNat)) add 1) : Res)
      match s.collDesc b x.2.1 p with
      | .wait => .next s
      | .bad w => go s none (some w)
      | .ok cs y => go (s.touch b x.2.1 cs) (some y) none

def execCollRed (h : Hd) (o : Ord) (d a : RegNo) (s : State) : Res := s.collective' h 0 o d a
def execCollRs (h : Hd) (o : Ord) (d a : RegNo) (s : State) : Res := s.collective' h 1 o d a
def execCollAg (h : Hd) (o : Ord) (d a : RegNo) (s : State) : Res := s.collective' h 2 o d a
def execCollBc (h : Hd) (o : Ord) (d a : RegNo) (s : State) : Res := s.collective' h 3 o d a
def execXdisp (h : Hd) (o : Ord) (d a : RegNo) (s : State) : Res := s.collective' h 4 o d a
def execXfix (h : Hd) (o : Ord) (d a : RegNo) (s : State) : Res := s.collective' h 5 o d a

/-- The next command that a port of a collective engine has taken and not begun. -/
def State.headCmd (s : State) (ldie port : Nat) : Option Cmd :=
  s.cmds.find? fun c => c.k == .coll && c.unit == ldie && c.port == port && c.result.isNone && !c.busy

/-- A port-0 command acts as the instruction of its kind (R413); a reserved bit or kind ends it. -/
def State.portColl (s : State) (ldie kind : Nat) : Res := match s.headCmd ldie 0 with
  | none => .next s
  | some c => match s.block? c.core c.slot with
    | none => .next s
    | some b =>
      let f := (c.ent 1).toNat
      let k := bits f 3 0
      let bad := fun (w : W32) => (Host.Outcome.next (s.setResult c.seq [w.zeroExtend 64]) : Res)
      if bits f 63 37 ≠ 0 || bits f 31 4 ≠ 0 || 6 ≤ k then (if kind = Nat.min k 5 then bad (statusWord 7 0 0 0) else .next s)
      else if k ≠ kind then .next s
      else match scopeOf (BitVec.ofNat 3 (bits f 34 32)) with
      | none => bad (statusWord 7 0 0 0)
      | some sc =>
        if !s.settled c.core c.slot c.after .core then .next s
        else
          let o : Ord := { acq := f.testBit 35, rel := f.testBit 36, scope := sc }
          let go := fun (s : State) (desc : Option (List Byte)) (st : Option W32) =>
            let q : CollCmd := { id := c.seq, ldie := ldie, core := c.core, slot := c.slot, ctx := b.ctx, kind := kind, parties := c.parties
                                 after := c.after, ptr := c.ent 0, o := o, dest := .queue c.q, desc := desc, status := st }
            (Host.Outcome.next { s.markBusy c.seq with colls := s.colls ++ [q] } : Res)
          match s.collDesc b (cmdWho c.seq) (c.ent 0) with
          | .wait => .next s
          | .bad w => go s none (some w)
          | .ok cs x => go (s.touch b (cmdWho c.seq) cs) (some x) none

def execPortRed (ldie : Nat) (s : State) : Res := s.portColl ldie 0
def execPortRs (ldie : Nat) (s : State) : Res := s.portColl ldie 1
def execPortAg (ldie : Nat) (s : State) : Res := s.portColl ldie 2
def execPortBc (ldie : Nat) (s : State) : Res := s.portColl ldie 3
def execPortXdisp (ldie : Nat) (s : State) : Res := s.portColl ldie 4
def execPortXfix (ldie : Nat) (s : State) : Res := s.portColl ldie 5

/-! ### Descriptors (Tables 23-4 and 23-5) -/

def CollCmd.f (c : CollCmd) (o n : Nat) : Nat := leNat (((c.desc.getD []).drop o).take n)
def CollCmd.p (c : CollCmd) (o : Nat) : W64 := BitVec.ofNat 64 (c.f o 8)
def CollCmd.g (c : CollCmd) : Nat := c.f 20 2
def CollCmd.rank (c : CollCmd) : Nat := c.f 22 2
def CollCmd.count (c : CollCmd) : Nat := c.f 16 4
def CollCmd.wire (c : CollCmd) : Fmt := if c.f 32 1 = 1 then Fmt.e5m2 else Fmt.e4m3fmt
def CollCmd.mx (c : CollCmd) : Bool := c.f 33 1 == 1
/-- Blocks of 32 elements, or units of 128 bytes. -/
def CollCmd.units (c : CollCmd) : Nat := if c.kind < 2 then c.count / 32 else c.count / 128
def CollCmd.member (c : CollCmd) (k : Nat) : Nat := (c.mem[k % c.g]?).getD 0

/-- What DONE counts to at the end of a collective (R408). -/
def CollCmd.total (c : CollCmd) : Nat := match c.kind with
  | 1 => ((List.range c.units).filter fun b => (b + c.g - 1) % c.g == c.rank).length
  | 2 => c.g
  | _ => c.units

/-- Whether a member has done its part: it has written all that it writes, and under `rs` every block whose chain it stands in
has passed it (R406). -/
def CollCmd.finished (c : CollCmd) : Bool := c.done == c.total && (c.kind != 1 || c.seen.length + c.next == c.units)

/-- Whether a collective's descriptor breaks a rule (R404). -/
def CollCmd.badDesc (c : CollCmd) : Bool :=
  let red := c.kind < 2
  let n := c.count
  let src := if red then 4 * n else n
  let dst := if red then (if c.mx then n + n / 32 else 4 * n) else if c.kind = 2 then c.g * n else n
  !bufOk (c.p 0) 16 src || !bufOk (c.p 8) 16 dst || !bufOk (c.p 24) 2 (2 * c.g) ||
  (if red then n % 32 ≠ 0 || n < 32 || 16777184 < n else n % 128 ≠ 0 || n < 128 || 16777088 < n) ||
  c.g = 0 || 512 < c.g || c.g ≤ c.rank || 1 < c.f 32 1 || 1 < c.f 33 1 || (!red && (c.f 32 1 ≠ 0 || c.f 33 1 ≠ 0)) ||
  c.f 34 2 ≠ 0 || c.f 40 24 ≠ 0

/-- What the members of a collective compare, and the ring neighbours with which this one exchanges it (R405). -/
def CollCmd.fields (c : CollCmd) : CollFields :=
  { kind := c.kind, seq := c.f 36 4, count := c.count, nmem := c.g, mem := c.mem, wfmt := c.f 32 1, ofmt := c.f 33 1 }
def CollCmd.ring (c : CollCmd) : List Nat := if c.g ≤ 1 then [] else distinct [c.member (c.rank + 1), c.member (c.rank + c.g - 1)]

/-- Whether a collective has exchanged its fields with its neighbours. -/
def CollCmd.matched (c : CollCmd) : Bool := c.tell.isEmpty && c.meet.isEmpty

def badMembers (dev : Nat) (rank : Nat) (l : List Nat) : Bool :=
  l.any (fun m => 512 ≤ m) || decide ((distinct l).length ≠ l.length) || (l[rank]?).getD 512 != dev

def CollCmd.rows (c : CollCmd) : Nat := c.f 24 4
def CollCmd.rb (c : CollCmd) : Nat := c.f 28 4

/-- Whether a dispatch's descriptor breaks a rule (R409). -/
def CollCmd.badDispatch (c : CollCmd) : Bool :=
  let n := c.rows
  n = 0 || 65536 < n || c.rb % 32 ≠ 0 || c.rb < 32 || 65536 < c.rb ||
  !bufOk (c.p 0) 32 (n * c.rb) || !bufOk (c.p 8) 8 (8 * n) || !bufOk (c.p 16) 1 n ||
  c.f 32 8 % 32 ≠ 0 || 2 ^ 42 ≤ c.f 32 8 || c.f 44 4 ≠ 0 || c.f 56 8 ≠ 0 ||
  (if c.kind = 5 then !bufOk (c.p 48) 8 (8 * n) else c.f 48 8 ≠ 0)

def rtV (r : W64) : Bool := r.getLsbD 63
def rtSlot (r : W64) : Nat := bits r.toNat 47 16
def rtDev (r : W64) : Nat := bits r.toNat 9 0
def badRoute (r : W64) : Bool := bits r.toNat 62 48 ≠ 0 || bits r.toNat 15 10 ≠ 0 || (rtV r && 512 ≤ rtDev r)

/-! ### Going on with a command -/

/-- A command of an engine ends with a status word (R408). -/
def State.collEnd (s : State) (id : Nat) (w : W32) : State := s.updColl id fun c => { c with status := some w, todo := [], inbox := [] }

/-- Sends one flit of collective data to a device, on the port that dispatch data takes (R395, R411) (log 94, DEDUCED). -/
def State.collSend (s : State) (c : CollCmd) (dev : Nat) : Option State := match s.pickPort dev (dev % 18) with
  | none => none
  | some p =>
    if !s.canSend c.ctx p then none
    else some ((s.sendFlit p 3 dev 0 c.ldie c.ctx).updCtx c.ctx fun x => { x with drain := x.drain + 1 })

/-- A send of block or unit n that stands among the local writes still to do: a pointer of SPACE 15 holds n and the device. -/
def sendTo (dev n : Nat) (x : List Byte) : W64 × List Byte × Bool := (BitVec.ofNat 64 (15 * 2 ^ 60 + n * 2 ^ 10 + dev), x, false)

def State.addTodo (s : State) (id : Nat) (l : List (W64 × List Byte × Bool)) : State :=
  s.updColl id fun c => { c with todo := c.todo ++ l }

def words (x : List Byte) (k : Nat) : List Nat := pieces 4 x k
def quantBytes (f : Fmt) (vs : List Nat) : List Byte :=
  let q := mxQuant f vs
  BitVec.ofNat 8 q.1 :: q.2.map (BitVec.ofNat 8)
def f32Bytes (vs : List Nat) : List Byte := vs.flatMap fun v => leBytes 4 v

/-- The writes of a result block: 32 FP32 elements, or 32 elements and their scale; and then its sends under `red`
(R406). -/
def CollCmd.result (c : CollCmd) (b : Nat) (x : List Byte) (send : Bool) : List (W64 × List Byte × Bool) :=
  let ws := if c.mx then sectors (plusPtr (c.p 8) (32 * b)) (x.drop 1) false ++ sectors (plusPtr (c.p 8) (c.count + b)) (x.take 1) true
    else sectors (plusPtr (c.p 8) (128 * b)) x true
  let others := ((List.range c.g).filter fun k => k != c.rank).map c.member
  ws ++ (if send then others.map fun d => sendTo d b x else [])

/-- The sums of a block in the form that the last member writes. -/
def CollCmd.form (c : CollCmd) (vs : List Nat) : List Byte := if c.mx then quantBytes c.wire vs else f32Bytes vs

/-- The block or unit that a member takes next of those that have come: the oldest, and under `ag` and `bc` the oldest that follows
the last one taken of its share, so that a share is written in ascending address order (R408). -/
def CollCmd.arrived (c : CollCmd) : Option (Nat × List Byte) :=
  if c.kind < 2 then c.inbox.head? else c.inbox.find? fun x => x.1 % c.units == 0 || c.seen.contains x.1 || c.seen.contains (x.1 - 1)

/-- A block that has come to a member (R78, R406, R407): its place in the chain decides what it is. None when it must wait;
a fault of the member's own data ends the command. A member that is not the last quantises its sums with a fresh scale and
sends them on. -/
def State.collTake (s : State) (b : Block) (c : CollCmd) (n : Nat) (x : List Byte) : Option State :=
  let drop := s.updColl c.id fun c => { c with inbox := c.inbox.erase (n, x) }
  let u := c.units
  if c.kind < 2 then
    let pos := (c.rank + c.g - n % c.g) % c.g
    let last := pos + 1 == c.g
    if u ≤ n then some drop
    else if pos ≠ 0 && !c.seen.contains n then
      if x.length ≠ 33 then some drop
      else match s.bufRead b (c.p 0) (128 * n) 128 with
      | .bad f _ => some (s.collEnd c.id (f.status 0 c.done))
      | .ok own =>
          let s := s.bufTouch b (c.p 0) (128 * n) 128
          let sc := ((x[0]?).getD 0).toNat
          let drop := s.updColl c.id fun c => { c with inbox := c.inbox.erase (n, x) }
          let vs := ((x.drop 1).zip (words own 32)).map fun y => Fmt.f32.add .rne (mxWiden c.wire y.1.toNat sc) y.2
          let acts := if last then c.result n (c.form vs) (c.kind == 0) else [sendTo (c.member (c.rank + 1)) n (quantBytes c.wire vs)]
          some ((drop.updColl c.id fun c => { c with seen := n :: c.seen }).addTodo c.id acts)
      | _ => none
    else if c.kind = 0 && !last && !c.seen.contains (u + n) && x.length = (if c.mx then 33 else 128) then
      some ((drop.updColl c.id fun c => { c with seen := (u + n) :: c.seen }).addTodo c.id (c.result n x false))
    else some drop
  else if x.length ≠ 128 || c.seen.contains n then some drop
  else if c.kind = 2 then
    let k := n / u
    if c.g ≤ k || k = c.rank then some drop
    else
      let full := (c.seen.filter fun y => y / u == k).length + 1 == u
      some ((drop.updColl c.id fun c => { c with seen := n :: c.seen }).addTodo c.id
        (sectors (plusPtr (c.p 8) (k * c.count + 128 * (n % u))) x full))
  else if c.rank = 0 || u ≤ n then some drop
  else some ((drop.updColl c.id fun c => { c with seen := n :: c.seen }).addTodo c.id (sectors (plusPtr (c.p 8) (128 * n)) x true))

/-- A member's own next block or unit: it begins its chain, or is copied and sent (R406, R407). None when it has none left;
`some none` when it must wait. -/
def State.collOwn (s : State) (b : Block) (c : CollCmd) : Option (Option State) :=
  let others := ((List.range c.g).filter fun k => k != c.rank).map c.member
  let read := fun (off : Nat) (f : List Byte → List (W64 × List Byte × Bool)) => match s.bufRead b (c.p 0) off 128 with
    | .bad f _ => some (some (s.collEnd c.id (f.status 0 c.done)))
    | .ok x => some (some (((s.bufTouch b (c.p 0) off 128).updColl c.id fun c => { c with next := c.next + 1 }).addTodo c.id (f x)))
    | _ => some none
  if c.kind < 2 then
    let n := c.rank + c.next * c.g
    if c.units ≤ n then none
    else read (128 * n) fun x =>
      if c.g = 1 then c.result n (if c.mx then quantBytes c.wire (words x 32) else x) false
      else [sendTo (c.member (c.rank + 1)) n (quantBytes c.wire (words x 32))]
  else if (c.kind = 3 && c.rank ≠ 0) || c.units ≤ c.next then none
  else
    let base := if c.kind = 2 then c.rank * c.count else 0
    let mark := c.kind == 3 || c.next + 1 == c.units
    read (128 * c.next) fun x => sectors (plusPtr (c.p 8) (base + 128 * c.next)) x mark ++
      others.map fun d => sendTo d (if c.kind = 2 then c.rank * c.units + c.next else c.next) x

/-- Does the first of a command's writes and sends. -/
def State.collAct (s : State) (b : Block) (c : CollCmd) (a : W64 × List Byte × Bool) : State :=
  let pop := fun (s : State) => s.updColl c.id fun c => { c with todo := c.todo.drop 1 }
  if ptrSpace a.1 = 15 then
    (match s.collSend c (bits a.1.toNat 9 0) with
    | some t => pop { t with sent := t.sent ++ [.block (bits a.1.toNat 9 0) (c.f 36 4) (bits a.1.toNat 55 10) a.2.1] }
    | none => s)
  else match s.bufWrite b a.1 a.2.1 with
  | .wait => s
  | .bad f => s.collEnd c.id (f.status 1 c.done)
  | .ok t => (pop t).updColl c.id fun c => if a.2.2 then { c with done := c.done + 1 } else c

/-! ### Dispatch (R409, R410) -/

/-- One sector to a place on a device: at its own device, a local write; elsewhere a request of dispatch data. None when it
must wait. A sector beyond the window's offsets faults. -/
def State.rowSend (s : State) (b : Block) (c : CollCmd) (dev off : Nat) (x : List Byte) : Option State :=
  let bad := s.updColl c.id fun c => { c with rowBad := true }
  if 2 ^ 42 ≤ off + x.length - 1 then some bad
  else if dev = s.devNum.toNat then
    (match s.bufWrite b (BitVec.ofNat 64 off) x with
    | .wait => none
    | .bad _ => some bad
    | .ok t => some t)
  else
    let o : Outstanding :=
      { ldie := 0, tag := 0, dev := dev, va := off, ctx := c.ctx, core := c.core, slot := c.slot, issue := c.id, pc := 0, parties := []
        lane := 0, op := .write (x.zipIdx.map fun y => (off + y.2, y.1)), coll := some c.id }
    (s.askVia (dev % 18) 4 o).map fun t => t.updCtx c.ctx fun x => { x with drain := x.drain + 1 }

/-- A row's trailer (R409). -/
def State.trailer (s : State) (c : CollCmd) (i st : Nat) : List Byte :=
  leBytes 4 i ++ leBytes 4 (c.f 40 4) ++ leBytes 4 st ++ leBytes 4 s.devNum.toNat ++ List.replicate 16 0

def CollCmd.slotAt (c : CollCmd) (r : W64) : Nat := c.f 32 8 + rtSlot r * (c.rb + 32)

/-- The row is over: its status byte is written (R410). -/
def State.rowEnd (s : State) (c : CollCmd) (i v : Nat) : State :=
  (s.updColl c.id fun c => { c with next := i + 1, phase := 0, sent := 0, rowBad := false, anyLost := c.anyLost || v == 2
                                    anyBad := c.anyBad || v == 4 }).addTodo c.id [(plusPtr (c.p 16) i, [BitVec.ofNat 8 v], false)]

/-- Goes on with row i of a dispatch (Table 23-6) (log 96, DEDUCED). -/
def State.rowStep (s : State) (b : Block) (c : CollCmd) (i : Nat) : State :=
  let new := (c.routes[i]?).getD 0
  let old := (c.old[i]?).getD 0
  let fix := c.kind == 5
  let busy := s.outstanding.any fun o => o.coll == some c.id
  let phase := fun (n : Nat) (s : State) => s.updColl c.id fun c => { c with phase := n, sent := 0 }
  if fix && old == new then s.updColl c.id fun c => { c with next := i + 1 }
  else if (rtV new && c.lost.contains (rtDev new)) || (fix && rtV old && c.lost.contains (rtDev old)) then
    (if busy then s else s.rowEnd c i 2)
  else match c.phase with
  | 0 =>
    if fix && rtV old then
      (match s.rowSend b c (rtDev old) (c.slotAt old + c.rb) (s.trailer c i 2) with
      | some t => phase 1 t
      | none => s)
    else if rtV new then phase 2 s
    else s.rowEnd c i (if fix then 3 else 5)
  | 1 => if busy then s else if c.rowBad then s.rowEnd c i 4 else if rtV new then phase 2 s else s.rowEnd c i 3
  | 2 =>
    if c.rowBad then (if busy then s else s.rowEnd c i 4)
    else if c.sent * 32 < c.rb then
      (match s.bufRead b (c.p 0) (i * c.rb + 32 * c.sent) 32 with
      | .bad f _ => s.collEnd c.id (f.status 0 i)
      | .ok x =>
        match (s.bufTouch b (c.p 0) (i * c.rb + 32 * c.sent) 32).rowSend b c (rtDev new) (c.slotAt new + 32 * c.sent) x with
        | some t => t.updColl c.id fun c => { c with sent := c.sent + 1 }
        | none => s
      | _ => s)
    else if busy then s
    else match s.rowSend b c (rtDev new) (c.slotAt new + c.rb) (s.trailer c i 1) with
      | some t => phase 3 t
      | none => s
  | _ => if busy then s else s.rowEnd c i (if c.rowBad then 4 else 1)

/-- A dispatch's last status: the rows with a nonzero status byte, and LOST before faults (R410). -/
def State.dispatchEnd (s : State) (b : Block) (c : CollCmd) : State := match s.bufRead b (c.p 16) 0 c.rows with
  | .ok x =>
    let n := (x.filter fun v => v != 0).length
    (s.bufTouch b (c.p 16) 0 c.rows).collEnd c.id (statusWord (if c.anyLost then 0x10 else if c.anyBad then 6 else 0) 0 0 n)
  | .bad f _ => s.collEnd c.id (f.status 0 c.next)
  | _ => s

/-- Tells a context's supervisor that a device is lost, once per destination and context (R410). -/
def State.tellLost (s : State) (x dev : Nat) : State :=
  if (s.ctx x).told.contains dev then s
  else (s.postEvent x 0x10 0xFF).updCtx x fun c => { c with told := c.told ++ [dev] }

/-- Whether a dispatch routes a row to a device, or has yet to cancel one there. -/
def CollCmd.routesTo (c : CollCmd) (dev : Nat) : Bool := (c.routes.zipIdx).any fun r =>
  let old := (c.old[r.2]?).getD 0
  !(c.kind == 5 && old == r.1) && ((rtV r.1 && rtDev r.1 == dev) || (c.kind == 5 && rtV old && rtDev old == dev && c.next ≤ r.2))

/-- Reads a dispatch's routes, once. A destination of it that was lost before is told now (log 93, DEDUCED). -/
def State.dispatchStart (s : State) (b : Block) (c : CollCmd) : State :=
  if c.badDispatch then s.collEnd c.id (statusWord 7 0 0 0)
  else
    let n := c.rows
    let go := fun (r o : List Byte) =>
      let rs := (pieces 8 r n).map (BitVec.ofNat 64)
      let os := if c.kind = 5 then (pieces 8 o n).map (BitVec.ofNat 64) else []
      if rs.any badRoute || os.any badRoute then s.collEnd c.id (statusWord 7 0 0 0)
      else
        let s := s.bufTouch b (c.p 8) 0 (8 * n)
        let s := if c.kind = 5 then s.bufTouch b (c.p 48) 0 (8 * n) else s
        let gone := s.lostDevs.filter { c with routes := rs, old := os }.routesTo
        gone.foldl (fun (s : State) d => s.tellLost c.ctx d)
          (s.updColl c.id fun c => { c with routes := rs, old := os, started := true, lost := s.lostDevs })
    match s.bufRead b (c.p 8) 0 (8 * n), (if c.kind = 5 then s.bufRead b (c.p 48) 0 (8 * n) else .ok []) with
    | .ok r, .ok o => go r o
    | .bad f _, _ => s.collEnd c.id (f.status 0 0)
    | _, .bad f _ => s.collEnd c.id (f.status 0 0)
    | _, _ => s

/-- Reads a collective's members, once; one that was lost before ends the command and is told (log 93, DEDUCED). -/
def State.collStart (s : State) (b : Block) (c : CollCmd) : State :=
  if c.badDesc then s.collEnd c.id (statusWord 7 0 0 0)
  else match s.bufRead b (c.p 24) 0 (2 * c.g) with
  | .bad f _ => s.collEnd c.id (f.status 0 0)
  | .ok x =>
    let l := pieces 2 x c.g
    if badMembers s.devNum.toNat c.rank l then s.collEnd c.id (statusWord 7 0 0 0)
    else if l.any s.lostDevs.contains then
      (s.lostDevs.filter l.contains).foldl (fun (s : State) d => s.tellLost c.ctx d) (s.collEnd c.id (statusWord 0x10 0 0 0))
    else (s.bufTouch b (c.p 24) 0 (2 * c.g)).updColl c.id fun c =>
        { c with mem := l, started := true, tell := { c with mem := l }.ring, meet := { c with mem := l }.ring }
  | _ => s

/-- Whether an earlier dispatch of the engine still sends its rows (R410). -/
def State.collAhead (s : State) (c : CollCmd) : Bool :=
  (s.colls.takeWhile fun x => x.id != c.id).any fun x =>
    x.ldie == c.ldie && 4 ≤ x.kind && x.status.isNone && (s.ctx x.ctx).st == .running

/-- A collective tells a neighbour its fields (R405). -/
def State.collTell (s : State) (c : CollCmd) (dev : Nat) : State := match s.collSend c dev with
  | some t => { t with sent := t.sent ++ [Sent.fields dev c.fields] }.updColl c.id fun c => { c with tell := c.tell.drop 1 }
  | none => s

/-- A collective engine goes on with a command. It sends nothing while the context does not run (R411). -/
def State.collStep (s : State) (id : Nat) : State := match s.colls.find? fun c => c.id == id with
  | none => s
  | some c => match s.block? c.core c.slot with
    | none => s
    | some b =>
      if b.ctx != c.ctx || (s.ctx c.ctx).st != .running then s
      else match c.tell with
      | dev :: _ => s.collTell c dev
      | [] => match c.status with
      | some w =>
        if s.outstanding.any fun o => o.coll == some id then s
        else { s.giveStatus c.core c.slot id c.dest w with colls := s.colls.filter fun x => x.id != id }
      | none =>
        if !c.started then
          (if c.o.acq && !s.settled c.core c.slot c.after c.o.scope then s
           else if c.kind < 4 then s.collStart b c else s.dispatchStart b c)
        else match c.todo with
        | a :: _ => s.collAct b c a
        | [] =>
          if 4 ≤ c.kind then
            (if c.next < c.rows then (if s.collAhead c then s else s.rowStep b c c.next) else s.dispatchEnd b c)
          else if !c.matched then s
          else match c.arrived with
          | some (n, x) => (s.collTake b c n x).getD s
          | none => match s.collOwn b c with
            | some r => r.getD s
            | none => if c.finished then s.collEnd id (statusWord 0 0 0 c.done) else s

/-- What comes to a member from the others: the fields of the ring neighbour that is device n, which agree with its own or end the
command (R405), or else block or unit n (R406, R407) (log 95, DEDUCED). -/
def execCollectiveBlockArrive (id n : Nat) (fields : Option CollFields) (data : List Byte) (s : State) : Res :=
  match s.colls.find? fun c => c.id == id with
  | none => .next s
  | some c =>
    if 4 ≤ c.kind || !c.started || c.status.isSome then .next s
    else match fields with
    | some x =>
      if !c.meet.contains n then .next s
      else .next (if x = c.fields then s.updColl id fun c => { c with meet := c.meet.filter fun d => d != n }
        else s.collEnd id (statusWord 0x12 0 0 0))
    | none => .next ((s.updColl id fun c => { c with inbox := c.inbox ++ [(n, data)] }).collStep id)

/-! ### Losing a destination (R398, R399, R408, R410) -/

/-- Whether a command still running uses a device: as a member, or as the route of one of its rows. -/
def CollCmd.uses (c : CollCmd) (dev : Nat) : Bool :=
  c.status.isNone && c.started && if c.kind < 4 then c.mem.contains dev else c.routesTo dev

/-- A command loses a device: a collective ends; a dispatch marks LOST the rows that it has already sent there. -/
def CollCmd.lose (c : CollCmd) (dev : Nat) : CollCmd :=
  if !c.uses dev then c
  else if c.kind < 4 then { c with status := some (statusWord 0x10 0 0 c.done), todo := [], inbox := [], tell := [] }
  else
    let done := ((List.range c.next).filter fun i =>
      let r := (c.routes[i]?).getD 0
      rtV r && rtDev r == dev && !(c.kind == 5 && (c.old[i]?).getD 0 == r))
    { c with lost := dev :: c.lost, anyLost := c.anyLost || !done.isEmpty
             todo := c.todo ++ done.map fun i => (plusPtr (c.p 16) i, [(2 : Byte)], false) }

/-- Whether a device is lost: every plane reports it unreachable on every rail, or what stands on an L-die for it has had no
acknowledgement for 2^20 cycles of that L-die (R398). -/
def State.lossDue (s : State) (dev : Nat) : Bool :=
  ((List.range 18).all fun p => s.unreach.contains (dev, p)) ||
    s.quiet.any fun q => q.1 == dev && q.2.2 + 2 ^ 20 ≤ (s.ldie q.2.1).cyc.toNat && s.awaits dev q.2.1

/-- The device gives up a destination that is lost (R398); it stays lost (log 93, DEDUCED). -/
def execDestinationLost (dev : Nat) (s : State) : Res :=
  if s.lostDevs.contains dev || !s.lossDue dev then .next s
  else
    let ctxs := distinct ((s.colls.filter fun c => c.uses dev).map (·.ctx) ++ s.edUsers fun e => e.devs.contains dev)
    let gone := s.outstanding.filter fun o => o.dev == dev
    let s1 := { s with lostDevs := s.lostDevs ++ [dev], outstanding := s.outstanding.filter fun o => o.dev != dev
                       strays := s.strays.filter fun f => f.dst.toNat != dev
                       colls := s.colls.map fun (c : CollCmd) => c.lose dev }
    let s1 := (s.strays.filter fun f => f.dst.toNat == dev).foldl State.landed s1
    let s2 := gone.foldl (fun (s : State) o =>
      if o.coll.isSome then s.updCtx o.ctx fun c => { c with drain := c.drain - 1 }
      else s.failReply o (.fault (if opRight o.op = .write then 1 else 0))) s1
    .next (ctxs.foldl (fun (s : State) x => s.tellLost x dev) (s2.edLose fun e => e.devs.contains dev))

/-! ### Ultra Ethernet commands (R413) -/

def State.anyUe (s : State) (l : Nat) : Bool := (List.range 8).any fun i => portLdie (18 + i) == l && (s.port (18 + i)).st = .up

/-- The next port-1 command with an operation; one with a reserved bit ends here. -/
def State.ueCmd (s : State) (ldie op : Nat) (f : Cmd → Block → Res) : Res := match s.headCmd ldie 1 with
  | none => .next s
  | some c => match s.block? c.core c.slot with
    | none => .next s
    | some b =>
      let x := (c.ent 2).toNat
      if bits x 63 62 ≠ op then .next s
      else if bits x 61 32 ≠ 0 then .next (s.setResult c.seq [(statusWord 7 0 0 0).zeroExtend 64])
      else f c b

def State.ueEnd (s : State) (c : Cmd) (w : W32) : Res := .next (s.setResult c.seq [w.zeroExtend 64])

/-- A local range or record of a port-1 command: its status word when it is refused. -/
def ueBad (b : Block) (p : W64) (n : Nat) (write : Bool) : Option W32 :=
  let side := if write then 1 else 0
  match spaceBad p [0, 1] with
  | some r => some (statusWord 7 r side 0)
  | none =>
    if outOfExtent b p n write then some (statusWord 7 1 side 0)
    else if ptrSpace p = 0 && farRange (ptrOff p) (Nat.max n 1) then some (statusWord 7 5 side 0)
    else none

/-- Reads the peer record of a command. -/
def State.uePeer (s : State) (b : Block) (c : Cmd) (f : List Byte → Res) : Res := match ueBad b (c.ent 1) 64 false with
  | some w => s.ueEnd c w
  | none => match s.bufRead b (c.ent 1) 0 64 with
    | .ok x => if (x.drop 36).any (· != 0) then s.ueEnd c (statusWord 7 0 0 0) else f x
    | .bad g _ => s.ueEnd c (g.status 0 0)
    | _ => .next s

def ueLen (c : Cmd) : Nat := bits (c.ent 2).toNat 31 0

def execRmaWrite (ldie : Nat) (s : State) : Res := s.ueCmd ldie 0 fun c b => s.uePeer b c fun peer =>
  match ueBad b (c.ent 0) (ueLen c) false with
  | some w => s.ueEnd c w
  | none => match s.bufRead b (c.ent 0) 0 (ueLen c) with
    | .bad g _ => s.ueEnd c (g.status 0 0)
    | .ok x =>
      let t := (s.bufTouch b (c.ent 1) 0 64).bufTouch b (c.ent 0) 0 (ueLen c)
      if s.anyUe ldie then .next { t.markBusy c.seq with sent := s.sent ++ [Sent.rmaWrite peer x] } else .next s
    | _ => .next s

def execRmaRead (ldie : Nat) (s : State) : Res := s.ueCmd ldie 1 fun c b => s.uePeer b c fun peer =>
  match ueBad b (c.ent 0) (ueLen c) true with
  | some w => s.ueEnd c w
  | none =>
    let t := s.bufTouch b (c.ent 1) 0 64
    if s.anyUe ldie then .next { t.markBusy c.seq with sent := s.sent ++ [Sent.rmaRead peer (ueLen c)] } else .next s

/-- Operations 2 and 3 need a privileged context. -/
def State.uePriv (s : State) (b : Block) (c : Cmd) (r : Res) : Res := if (s.ctx b.ctx).priv then r else s.ueEnd c (statusWord 7 5 0 0)

def execRegisterWindow (ldie : Nat) (s : State) : Res := s.ueCmd ldie 2 fun c b => s.uePriv b c (s.uePeer b c fun peer =>
  match ueBad b (c.ent 0) (ueLen c) true with
  | some w => s.ueEnd c w
  | none => match (List.range 64).find? fun k => ((s.windows[k]?).getD {}).owner.isNone with
    | none => s.ueEnd c (statusWord 0x13 0 0 0)
    | some k =>
      let w : RmaWin := { owner := some b.ctx, key := BitVec.ofNat 64 (leNat ((peer.drop 20).take 8)), base := c.ent 0, len := ueLen c
                          core := b.core, slot := b.slot }
      ({ s.bufTouch b (c.ent 1) 0 64 with windows := s.windows.set k w }).ueEnd c (statusWord 0 0 0 k))

def execReleaseWindow (ldie : Nat) (s : State) : Res := s.ueCmd ldie 3 fun c b => s.uePriv b c (
  let k := ueLen c
  if k < 64 && ((s.windows[k]?).getD {}).owner == some b.ctx then
    ({ s with windows := s.windows.set k {} }).ueEnd c (statusWord 0 0 0 0)
  else s.ueEnd c (statusWord 7 0 0 0))

/-- The windows of a context are released (R413). -/
def State.dropWindows' (s : State) (ctx : Nat) : State :=
  { s with windows := s.windows.map fun (w : RmaWin) => if w.owner == some ctx then {} else w }

/-! ### Packets and messages (R402, R403, R413) -/

/-- The pieces of a window's range, translated in its context: none when one of them cannot be reached. -/
def State.winPlaces (s : State) (w : RmaWin) (off n : Nat) (r : Right) : Option (List (Nat × Nat × Loc)) :=
  let a := ptrOff w.base + off
  if ptrSpace w.base = 1 then
    (if (s.block? w.core w.slot).any fun b => some b.ctx == w.owner then some [(0, n, .scratch a)] else none)
  else (lineSpans a n).foldr (fun x acc => match acc, (s.sysVa x.1).bind fun va => (s.walk (w.owner.getD 0) va).map fun e => (va, e) with
    | some l, some (va, e) => (match e.check r false va with
      | .ok pa => some ((x.1 - a, x.2, .glob pa) :: l)
      | _ => none)
    | _, _ => none) (some [])

/-- The window that an endpoint and key reach for a range. -/
def State.window? (s : State) (ep : Nat) (key : W64) (off n : Nat) : Option RmaWin :=
  if ep = 0 then none
  else match s.windows[ep - 1]? with
  | some w => if w.owner.isSome && w.key == key && off + n ≤ w.len then some w else none
  | none => none

def State.sendOut (s : State) (x : Sent) : Res := .next { s with sent := s.sent ++ [x] }

/-- Whether a line of a window's places waits at its controller (R104). -/
def State.winHeld (s : State) (w : RmaWin) (ps : List (Nat × Nat × Loc)) : Bool := ps.any fun p => match p.2.2 with
  | .glob pa => s.lineHeld (w.owner.getD 0) pa
  | _ => false

/-- Puts bytes into a window's places, each line as one write (R279), charged to the window's context (R252). -/
def State.winPut (s : State) (w : RmaWin) (ps : List (Nat × Nat × Loc)) (x : List Byte) : State :=
  ps.foldl (fun (s : State) p =>
    let y := (x.drop p.1).take p.2.1
    match p.2.2 with
    | .glob pa => (s.chargeWrite (w.owner.getD 0) pa (y.zipIdx.map fun z => (pa + z.2, z.1))).homePut pa y
    | .scratch o => s.updBlock w.core w.slot fun b => { b with scratch := b.scratch.write o y }
    | _ => s) s

/-- A packet arrives for an RMA window, or brings the answer to one of this device's commands (R402, R413). What the spec
leaves open in those answers' status words is free (log 16, DESIGN CHOICE) (log 97, DEDUCED). -/
def execUePacketReceive (p : UePacket) (s : State) : Res := match p with
  | .rmaWrite ep key off x => match s.window? ep key off x.length with
    | none => s.sendOut .errorResponse
    | some w => match s.winPlaces w off x.length .write with
      | none => s.sendOut .errorResponse
      | some ps => if s.winHeld w ps then .next s else (s.winPut w ps x).sendOut .ok
  | .rmaRead ep key off n => match s.window? ep key off n with
    | none => s.sendOut .errorResponse
    | some w => match s.winPlaces w off n .read with
      | none => s.sendOut .errorResponse
      | some ps =>
        if s.winHeld w ps then .next s
        else if ps.any fun q => match q.2.2 with
          | .glob pa => s.bad pa q.2.1
          | _ => false then s.sendOut .errorResponse
        else
          let t := ps.foldl (fun (s : State) q => match q.2.2 with
            | .glob pa => s.chargeLine (w.owner.getD 0) pa
            | _ => s) s
          t.sendOut (.rmaData (ps.flatMap fun q => match q.2.2 with
          | .glob pa => s.homeRead false pa q.2.1
          | .scratch o => (match s.block? w.core w.slot with
            | some b => b.scratch.read o q.2.1
            | none => [])
          | _ => []))
  | .readReply cmd x => match s.cmds.find? fun c => c.seq == cmd && c.k == .coll && c.port == 1 && c.busy && c.result.isNone with
    | none => .next s
    | some c => match s.block? c.core c.slot with
      | none => .next s
      | some b =>
        let put := fun (g : Put) (y : W64 × List Byte × Bool) => match g with
          | .ok s => s.bufWrite b y.1 y.2.1
          | g => g
        if bits (c.ent 2).toNat 63 62 ≠ 1 || x.length ≠ ueLen c then .next s
        else match (sectors (c.ent 0) x false).foldl put (.ok s) with
        | .wait => .next s
        | .bad f => s.ueEnd c (f.status 1 0)
        | .ok t => t.ueEnd c (statusWord 0 0 0 (Config.rmaDone s.tick).toNat)
  | .writeReply cmd ok => match s.cmds.find? fun c => c.seq == cmd && c.k == .coll && c.port == 1 && c.busy && c.result.isNone with
    | none => .next s
    | some c => s.ueEnd c (if ok then statusWord 0 0 0 (Config.rmaDone s.tick).toNat else Config.rmaError s.tick)
  | .unsupported => s.sendOut .unsupported

/-- A message arrives at the command endpoint (R202, R403): it lands in the lowest free buffer, whose address joins the
host receive queue; else it is too long, or its acknowledgement is withheld (log 97, DEDUCED). -/
def execCommandMessageArrive (msg : List Byte) (s : State) : Res :=
  if !((List.range 8).any fun i => (s.port (18 + i)).st = .up) then .next s
  else if 65536 < msg.length then s.sendOut .tooLong
  else if 256 ≤ s.hrq.length then s.sendOut .withheld
  else match (List.range s.rxBufs.length).find? fun i => !((s.rxBufs[i]?).getD true) with
  | none => s.sendOut .withheld
  | some i =>
    let a := s.rxBase + BitVec.ofNat 64 (65536 * i)
    let w : RmaWin := { owner := some s.rxCtx, base := a, len := 65536 }
    match s.winPlaces w 0 msg.length .write with
    | none => s.sendOut .withheld
    | some ps =>
      if s.winHeld w ps then .next s else
      let s1 := { s.winPut w ps msg with rxBufs := s.rxBufs.set i true, hrq := s.hrq ++ [a] }
      let s2 := match s1.hostHolder with
        | some (core, slot, q) => (match s1.block? core slot with
          | some b => if (b.qreg q).bind == some Binding.host then s1.rouseQueue s core slot q false else s1
          | none => s1)
        | none => s1
      s2.sendOut .ok

end Sys2Proof.Machine
end

