-- ==== Sys2Proof/Machine/Flags.lean ====
section
/-! DEFINITION. Conditions, predicates and saturation (R21, R214, R217, Table 10-3). -/

namespace Sys2Proof.Machine

open Sys2Proof

/-- An integer condition on values read under the type (R217). -/
def iccHolds (c : ICc) (a b : Int) : Bool := match c with
  | .eq => a == b
  | .ne => a != b
  | .lt => a < b
  | .le => a ≤ b
  | .gt => b < a
  | .ge => b ≤ a

/-- The predicate operations of Table 10-3. -/
def plogHolds (o : PlogOp) (a b : Bool) : Bool := match o with
  | .and => a && b
  | .or => a || b
  | .xor => a != b
  | .andn => a && !b

/-- The least and greatest values of a type (R214). -/
def tyMin (t : IntTy) : Int := if tySigned t then -(2 ^ (tyWidth t - 1)) else 0
def tyMax (t : IntTy) : Int := if tySigned t then 2 ^ (tyWidth t - 1) - 1 else 2 ^ tyWidth t - 1

/-- Clamps an exact result to the type's range (R214 `.sat`). -/
def tySat (t : IntTy) (x : Int) : Int := clampInt (tyMin t) (tyMax t) x

/-- The bits of a result: clamped under `.sat`, else modulo 2^w (R210, R214). -/
def finishInt (t : IntTy) (sat : Bool) (x : Int) : Nat := tyBitsOf t (if sat then tySat t x else x)

/-- The write of a condition: P in the fibre stream, 0 or 1 in S in the cox stream (R214). -/
def putFlag (v : View) (d : RegNo) (b : Bool) : Wr := match v with
  | .cox _ => .s d.toNat (if b then 1 else 0)
  | .fib _ => .p d.toNat b

/-- A condition operand: Pc = 1, or S[c] ≠ 0 (R214 `sel`). -/
def getFlag (v : View) (c : RegNo) : Bool := match v with
  | .cox x => x.reg c.toNat != 0
  | .fib f => f.pred c.toNat

end Sys2Proof.Machine
end

