-- ==== Sys2Proof/Machine/Float.lean ====
section
/-! DEFINITION. The floating-point instructions, class 0x3 (R62–R72, R218, R219). -/

namespace Sys2Proof.Machine

open Sys2Proof

/-- Whether the lane's fibre has non-finite trap mode on (R69). -/
def View.nftrap : View → Bool
  | .fib f => f.nftrap
  | .cox _ => false

/-- Writes, or the precise non-finite trap when `bad` says that a written floating element or a converted
source is not finite (R69, R70). -/
def nfOut (v : View) (bad : Bool) (ws : List Wr) : LOut :=
  if bad && v.nftrap then .trap { code := 0x05 } else .ok ws

/-- One FP32 result. -/
def f32Out (v : View) (d : RegNo) (x : Nat) : LOut :=
  nfOut v (Fmt.f32.decode x).nonFinite [v.w32 d (BitVec.ofNat 32 x)]

def f32Bin (s : State) (h : Hd) (o : FBin) (f : Rnd → Nat → Nat → Nat) : Res := s.lanewise h fun v =>
  f32Out v o.d (f o.rnd (v.r32 o.a).toNat (fsrcBits v o.b).toNat)

def f32Un (s : State) (h : Hd) (o : FUn) (f : Rnd → Nat → Nat) : Res := s.lanewise h fun v =>
  f32Out v o.d (f o.rnd (v.r32 o.a).toNat)

/-- Element i of a packed 16-bit register (R63). -/
def half (x : W32) (i : Nat) : Nat := bits x.toNat (16 * i + 15) (16 * i)

/-- Two packed 16-bit elements. -/
def packHalves (lo hi : Nat) : W32 := BitVec.ofNat 32 (lo + hi * 65536)

/-- A 16-bit form: each element once rounded (R218). -/
def h16Out (v : View) (f : Fmt) (d : RegNo) (lo hi : Nat) : LOut :=
  nfOut v ((f.decode lo).nonFinite || (f.decode hi).nonFinite) [v.w32 d (packHalves lo hi)]

def h16Bin (s : State) (h : Hd) (o : HBin) (g : Fmt → Rnd → Nat → Nat → Nat) : Res := s.lanewise h fun v =>
  let f := fmt16 o.ty
  let a := v.r32 o.a
  let b := v.r32 o.b
  h16Out v f o.d (g f o.rnd (half a 0) (half b 0)) (g f o.rnd (half a 1) (half b 1))

/-- The parts of a `.c64` pair as values (R62). -/
def c64 (v : View) (r : RegNo) : FVal × FVal :=
  (Fmt.f32.decode (loWord (v.r64 r)).toNat, Fmt.f32.decode (hiWord (v.r64 r)).toNat)

/-- A `.c64` result, each part rounded once (R72). -/
def c64Out (v : View) (rnd : Rnd) (d : RegNo) (re im : List FVal) : LOut :=
  let x := Fmt.f32.sum rnd re
  let y := Fmt.f32.sum rnd im
  nfOut v ((Fmt.f32.decode x).nonFinite || (Fmt.f32.decode y).nonFinite)
    (v.w64 d (pairWord (BitVec.ofNat 32 x) (BitVec.ofNat 32 y)))

/-- The terms of a complex product (R72). -/
def cmulTerms (a b : FVal × FVal) : List FVal × List FVal :=
  ([a.1.mul b.1, (a.2.mul b.2).neg], [a.1.mul b.2, a.2.mul b.1])

def execAddF32 (h : Hd) (o : FBin) (s : State) : Res := f32Bin s h o Fmt.f32.add
def execSubF32 (h : Hd) (o : FBin) (s : State) : Res := f32Bin s h o Fmt.f32.sub
def execMulF32 (h : Hd) (o : FBin) (s : State) : Res := f32Bin s h o Fmt.f32.mul
/-- a × b + c with one rounding. -/
def execFmaF32 (h : Hd) (o : FBin) (c : FSrc) (s : State) : Res := s.lanewise h fun v =>
  f32Out v o.d (Fmt.f32.fma o.rnd (v.r32 o.a).toNat (fsrcBits v o.b).toNat (fsrcBits v c).toNat)

def execAddF16 (h : Hd) (o : HBin) (s : State) : Res := h16Bin s h o Fmt.add
def execSubF16 (h : Hd) (o : HBin) (s : State) : Res := h16Bin s h o Fmt.sub
def execMulF16 (h : Hd) (o : HBin) (s : State) : Res := h16Bin s h o Fmt.mul
def execFmaF16 (h : Hd) (o : HBin) (c : RegNo) (s : State) : Res := s.lanewise h fun v =>
  let f := fmt16 o.ty
  let x := fun i => f.fma o.rnd (half (v.r32 o.a) i) (half (v.r32 o.b) i) (half (v.r32 c) i)
  h16Out v f o.d (x 0) (x 1)

def minMaxF32 (s : State) (h : Hd) (max num : Bool) (d a : RegNo) (b : FSrc) : Res := s.lanewise h fun v =>
  f32Out v d (Fmt.f32.minMax max num (v.r32 a).toNat (fsrcBits v b).toNat)

def execMinF32 (h : Hd) (num : Bool) (d a : RegNo) (b : FSrc) (s : State) : Res := minMaxF32 s h false num d a b
def execMaxF32 (h : Hd) (num : Bool) (d a : RegNo) (b : FSrc) (s : State) : Res := minMaxF32 s h true num d a b

/-- `setp` never traps (R71, R218). -/
def execSetpF32 (h : Hd) (cc : FCc) (pd : BitVec 3) (a : RegNo) (b : FSrc) (s : State) : Res := s.pure1 h fun v =>
  [.p pd.toNat (fccHolds cc (Fmt.f32.decode (v.r32 a).toNat) (Fmt.f32.decode (fsrcBits v b).toNat))]

/-- Exactly one bit set (R219). -/
def execClassF32 (h : Hd) (d a : RegNo) (s : State) : Res := s.pure1 h fun v =>
  [v.w32 d (BitVec.ofNat 32 (2 ^ classBit (v.r32 a).toNat))]

def execDivF32 (h : Hd) (o : FBin) (s : State) : Res := f32Bin s h o Fmt.f32.div
def execSqrtF32 (h : Hd) (o : FUn) (s : State) : Res := f32Un s h o Fmt.f32.sqrt
/-- 1 ÷ a, correctly rounded. -/
def execRcpF32 (h : Hd) (o : FUn) (s : State) : Res := f32Un s h o fun r a => Fmt.f32.div r 0x3F800000 a
def execRsqrtF32 (h : Hd) (o : FUn) (s : State) : Res := f32Un s h o Fmt.f32.rsqrt

def execCaddC64 (h : Hd) (o : CBin) (s : State) : Res := s.lanewise h fun v =>
  let a := c64 v o.a
  let b := c64 v o.b
  c64Out v o.rnd o.d [a.1, b.1] [a.2, b.2]

def execCmulC64 (h : Hd) (o : CBin) (s : State) : Res := s.lanewise h fun v =>
  let t := cmulTerms (c64 v o.a) (c64 v o.b)
  c64Out v o.rnd o.d t.1 t.2

def execCfmaC64 (h : Hd) (o : CBin) (c : RegNo) (s : State) : Res := s.lanewise h fun v =>
  let t := cmulTerms (c64 v o.a) (c64 v o.b)
  let z := c64 v c
  c64Out v o.rnd o.d (t.1 ++ [z.1]) (t.2 ++ [z.2])

end Sys2Proof.Machine
end

