-- ==== Sys2Proof/Machine/Convert.lean ====
section
/-! DEFINITION. Conversion and pack, class 0x4 (R57–R59, R63, R68, R220–R223). -/

namespace Sys2Proof.Machine

open Sys2Proof

/-- The floating format of a conversion type. -/
def cvtFmt : CvtTy → Option Fmt
  | .f32 => some .f32
  | .f16 => some .f16
  | .bf16 => some .bf16
  | .e4m3 => some .e4m3fmt
  | .e5m2 => some .e5m2
  | _ => none

/-- Width and signedness of an integer conversion type (R60). -/
def cvtInt : CvtTy → Nat × Bool
  | .i8 => (8, true) | .n8 => (8, false) | .i16 => (16, true) | .n16 => (16, false)
  | .i32 => (32, true) | .n32 => (32, false) | .i64 => (64, true) | .n64 => (64, false)
  | _ => (32, false)

def intMin (w : Nat) (sg : Bool) : Int := if sg then -(2 ^ (w - 1)) else 0
def intMax (w : Nat) (sg : Bool) : Int := if sg then 2 ^ (w - 1) - 1 else 2 ^ w - 1

/-- The bits of element `el` of a source (R63) (log 32, DEDUCED). -/
def cvtSrc (v : View) (t : CvtTy) (el : Nat) (a : RegNo) : Nat :=
  if t.wide then (v.r64 a).toNat
  else
    let w := 32 / t.elems
    (v.r32 a).toNat / 2 ^ (w * el) % 2 ^ w

/-- The value of integer bits. -/
def intVal (w : Nat) (sg : Bool) (x : Nat) : Int := if sg && 2 ^ (w - 1) ≤ x then (x : Int) - 2 ^ w else x

/-- The writes of an integer result: sign- or zero-extended to 32 bits when narrow (R220) (log 32, DEDUCED). -/
def cvtPut (v : View) (t : CvtTy) (d : RegNo) (x : Int) : List Wr :=
  if t.wide then v.w64 d (BitVec.ofInt 64 x) else [v.w32 d (BitVec.ofInt 32 x)]

/-- Rounds a value to an integer type: NaN gives 0, infinities and large values clamp (R68). -/
def valToInt (rnd : Rnd) (w : Nat) (sg : Bool) : FVal → Int
  | .nan => 0
  | .inf neg => if neg then intMin w sg else intMax w sg
  | .fin neg m e => clampInt (intMin w sg) (intMax w sg) (roundInt rnd neg m e)

/-- Rounds a value to a floating format, with the special cases of R68; `sat` is `.sat` on E5M2. -/
def valToFmt (f : Fmt) (rnd : Rnd) (sat : Bool) (x : FVal) : Nat := f.ofVal rnd sat x

/-- Whether a conversion takes the non-finite trap in trap mode (R69). -/
def cvtBad (df : Option Fmt) (sat : Bool) (src : FVal) (res : Nat) : Bool := match df with
  | none => src.nonFinite
  | some f => (f.decode res).nonFinite || ((f.e4m3 || sat) && src.nonFinite)

/-- An integer kept to, or clamped to, a destination type (R221). -/
def intToInt (w : Nat) (sg sat : Bool) (x : Int) : Int :=
  if sat then clampInt (intMin w sg) (intMax w sg) x
  else intVal w sg (x % 2 ^ w).toNat

def execCvt (h : Hd) (rnd : Rnd) (sat : Bool) (el : BitVec 2) (dt ft : CvtTy) (d a : RegNo) (s : State) : Res :=
  s.lanewise h fun v =>
    let x := cvtSrc v ft el.toNat a
    match cvtFmt ft, cvtFmt dt with
    | some sf, some df =>
      let r := valToFmt df rnd sat (sf.decode x)
      nfOut v (cvtBad (some df) sat (sf.decode x) r) [v.w32 d (BitVec.ofNat 32 r)]
    | some sf, none =>
      let (w, sg) := cvtInt dt
      nfOut v (sf.decode x).nonFinite (cvtPut v dt d (valToInt rnd w sg (sf.decode x)))
    | none, some df =>
      let (w, sg) := cvtInt ft
      let r := valToFmt df rnd sat (.ofInt (intVal w sg x))
      nfOut v (df.decode r).nonFinite [v.w32 d (BitVec.ofNat 32 r)]
    | none, none =>
      let (w, sg) := cvtInt ft
      let (dw, dsg) := cvtInt dt
      .ok (cvtPut v dt d (intToInt dw dsg sat (intVal w sg x)))

/-- Byte i of the result of `prmt` (Table 10-6). -/
def prmtByte (ab : W64) (c : W32) (i : Nat) : Nat :=
  let n := bits c.toNat (4 * i + 2) (4 * i)
  let b := bits ab.toNat (8 * n + 7) (8 * n)
  if c.getLsbD (4 * i + 3) then (if 128 ≤ b then 255 else 0) else b

def execPrmt (h : Hd) (d a b : RegNo) (c : FSrc) (s : State) : Res := s.pure1 h fun v =>
  let ab := pairWord (v.r32 a) (v.r32 b)
  let x := prmtByte ab (fsrcBits v c)
  [v.w32 d (BitVec.ofNat 32 (x 0 + x 1 * 256 + x 2 * 65536 + x 3 * 16777216))]

def execPackF16 (h : Hd) (ty : F16Ty) (rnd : Rnd) (d a b : RegNo) (s : State) : Res := s.lanewise h fun v =>
  let f := fmt16 ty
  let g := fun (r : RegNo) => valToFmt f rnd false (Fmt.f32.decode (v.r32 r).toNat)
  h16Out v f d (g a) (g b)

def execPackF8 (h : Hd) (ty : F8Ty) (sat : Bool) (rnd : Rnd) (d a b : RegNo) (s : State) : Res :=
  s.lanewise h fun v =>
    let f := fmt8 ty
    let src := [loWord (v.r64 a), hiWord (v.r64 a), loWord (v.r64 b), hiWord (v.r64 b)].map fun x => Fmt.f32.decode x.toNat
    let res := src.map (valToFmt f rnd sat)
    let bad := (src.zip res).any fun x => cvtBad (some f) sat x.1 x.2
    nfOut v bad [v.w32 d (BitVec.ofNat 32 (res.foldr (fun x r => x + r * 256) 0))]

/-- The source format and element count of `unpack`. -/
def unpackFmt : UnpackTy → Fmt × Nat
  | .f16 => (.f16, 2)
  | .bf16 => (.bf16, 2)
  | .e4m3 => (.e4m3fmt, 4)
  | .e5m2 => (.e5m2, 4)

/-- Every element widened to FP32 (R222); a NaN becomes the canonical NaN. -/
def execUnpack (h : Hd) (ty : UnpackTy) (d a : RegNo) (s : State) : Res := s.lanewise h fun v =>
  let (f, n) := unpackFmt ty
  let w := 32 / n
  let xs := (List.range n).map fun i => valToFmt .f32 .rne false (f.decode ((v.r32 a).toNat / 2 ^ (w * i) % 2 ^ w))
  nfOut v (xs.any fun x => (Fmt.f32.decode x).nonFinite)
    (xs.zipIdx.map fun x => .v (d.toNat + x.2) (BitVec.ofNat 32 x.1))

/-- `mxq` (R223): one block over the 32 lanes, +0.0 in a lane that is not active. -/
def execMxq (h : Hd) (ty : F8Ty) (d a : RegNo) (s : State) : Res :=
  let ls := s.act h
  let blk := (List.range 32).map fun L => match ls.find? fun x => x.1 == L with
    | some x => (x.2.reg a.toNat).toNat
    | none => 0
  let q := mxQuant (fmt8 ty) blk
  .next (s.commit h (ls.map fun x =>
    (.fib x.2.fid, nfOut (.fib x.2) (q.1 == 255) [.v d.toNat (BitVec.ofNat 32 ((q.2[x.1]?).getD 0 + q.1 * 256))])))

/-- `mxw` (R58, R223). -/
def execMxw (h : Hd) (ty : F8Ty) (d a b : RegNo) (s : State) : Res := s.lanewise h fun v =>
  f32Out v d (mxWiden (fmt8 ty) ((v.r32 a).toNat % 256) ((v.r32 b).toNat % 256))

end Sys2Proof.Machine
end

