-- ==== Sys2Proof/Machine/Lanes.lean ====
section
/-! DEFINITION. Cross-lane instructions and the per-fibre matrix-vector, class 0x5 (R73, R146, R224–R230). -/

namespace Sys2Proof.Machine

open Sys2Proof

/-- A register or pair of a fibre as 64 bits. -/
def Fibre.val (f : Fibre) (b64 : Bool) (r : RegNo) : W64 := bits64 (.fib f) b64 r

/-- The writes of a register or pair. -/
def putVal (b64 : Bool) (d : RegNo) (x : W64) : List Wr :=
  if b64 then [.v d.toNat (loWord x), .v (d.toNat + 1) (hiWord x)] else [.v d.toNat (loWord x)]

/-- A cross-lane instruction: every active lane's writes from the whole source set, read before any lane
writes (R213, R224). -/
def crossLane (s : State) (h : Hd) (g : List (Nat × Fibre) → Nat × Fibre → LOut) : Res :=
  let ls := s.act h
  .next (s.commit h (ls.map fun x => (.fib x.2.fid, g ls x)))

/-- The source lane's value, or the lane's own (R225) (log 30, DEDUCED). -/
def shfl (s : State) (h : Hd) (b64 : Bool) (d a : RegNo) (b : FSrc) (src : Nat → Nat → Option Nat) : Res :=
  crossLane s h fun ls x =>
    let n := (fsrcBits (.fib x.2) b).toNat
    let own := x.2.val b64 a
    .ok (putVal b64 d (match src x.1 n with
      | some l => match ls.find? fun y => y.1 == l with
        | some y => y.2.val b64 a
        | none => own
      | none => own))

def execShflIdx (h : Hd) (b64 : Bool) (d a : RegNo) (b : FSrc) (s : State) : Res :=
  shfl s h b64 d a b fun _ n => some n
def execShflUp (h : Hd) (b64 : Bool) (d a : RegNo) (b : FSrc) (s : State) : Res :=
  shfl s h b64 d a b fun l n => if n ≤ l then some (l - n) else none
def execShflDown (h : Hd) (b64 : Bool) (d a : RegNo) (b : FSrc) (s : State) : Res :=
  shfl s h b64 d a b fun l n => some (l + n)
def execShflXor (h : Hd) (b64 : Bool) (d a : RegNo) (b : FSrc) (s : State) : Res :=
  shfl s h b64 d a b fun l n => some (l ^^^ (n % 32))

/-- One step of a reduction (R73, R226). -/
def redStep (o : RedOp) (a b : W32) : W32 := match o with
  | .addI => a + b
  | .addN => a + b
  | .addF r => f32add r a b
  | .minI => if b.slt a then b else a
  | .minN => if b.ult a then b else a
  | .minF => f32min false a b
  | .maxI => if a.slt b then b else a
  | .maxN => if a.ult b then b else a
  | .maxF => f32max false a b
  | .andB => a &&& b
  | .orB => a ||| b
  | .xorB => a ^^^ b

/-- The identities of R226. -/
def redIdent : RedOp → W32
  | .addI => 0
  | .addN => 0
  | .addF _ => 0x80000000
  | .minI => 0x7FFFFFFF
  | .minN => 0xFFFFFFFF
  | .minF => 0x7F800000
  | .maxI => 0x80000000
  | .maxN => 0
  | .maxF => 0xFF800000
  | .andB => 0xFFFFFFFF
  | .orB => 0
  | .xorB => 0

def redFloat : RedOp → Bool
  | .addF _ => true
  | .minF => true
  | .maxF => true
  | _ => false

/-- The left fold over lanes, none over no lane (R73). -/
def redFold (o : RedOp) : List W32 → Option W32
  | [] => none
  | a :: r => some (r.foldl (redStep o) a)

/-- A floating NaN result is the canonical NaN (R54) (log 29, DEDUCED). -/
def canon32 (x : W32) : W32 := if (Fmt.f32.decode x.toNat).isNan then 0x7FC00000 else x

/-- Writes a fold, with the non-finite trap of a floating result (R69) (log 29, DEDUCED). -/
def redOut (o : RedOp) (f : Fibre) (d : RegNo) (x : W32) : LOut :=
  nfOut (.fib f) (redFloat o && nonFinite32 x) [.v d.toNat (if redFloat o then canon32 x else x)]

def execRed (h : Hd) (o : RedOp) (d a : RegNo) (s : State) : Res := crossLane s h fun ls x =>
  match redFold o (ls.map fun y => y.2.reg a.toNat) with
  | some r => redOut o x.2 d r
  | none => .ok []

def execScan (h : Hd) (o : RedOp) (d a : RegNo) (s : State) : Res := crossLane s h fun ls x =>
  match redFold o ((ls.filter fun y => y.1 ≤ x.1).map fun y => y.2.reg a.toNat) with
  | some r => redOut o x.2 d r
  | none => .ok []

/-- The first lane receives the identity, which never traps (R69, R226). -/
def execScanx (h : Hd) (o : RedOp) (d a : RegNo) (s : State) : Res := crossLane s h fun ls x =>
  match redFold o ((ls.filter fun y => y.1 < x.1).map fun y => y.2.reg a.toNat) with
  | some r => redOut o x.2 d r
  | none => .ok [.v d.toNat (redIdent o)]

/-- The lane whose value helper lanes supply: the lowest live lane of the quad in the issue (R144, R146). -/
def quadLow (all : List (Nat × Fibre)) (l : Nat) : Option Fibre :=
  (all.find? fun y => y.1 / 4 == l / 4).map (·.2)

/-- A quad exchange (R227): a live lane of the part supplies its own value, guard-false or not. In serial mode
the running lane is the only source. -/
def quad (s : State) (h : Hd) (b64 : Bool) (d a : RegNo) (src : Nat → Nat) : Res :=
  let all := match s.part? with
    | some (b, p) => b.lanesOf p
    | none => []
  crossLane s h fun _ x =>
    .ok (putVal b64 d (match all.find? fun y => y.1 == src x.1 with
      | some y => y.2.val b64 a
      | none => match quadLow all x.1 with
        | some f => f.val b64 a
        | none => x.2.val b64 a))

def execQxH (h : Hd) (b64 : Bool) (d a : RegNo) (s : State) : Res := quad s h b64 d a (· ^^^ 1)
def execQxV (h : Hd) (b64 : Bool) (d a : RegNo) (s : State) : Res := quad s h b64 d a (· ^^^ 2)
def execQxD (h : Hd) (b64 : Bool) (d a : RegNo) (s : State) : Res := quad s h b64 d a (· ^^^ 3)
def execQbc (h : Hd) (b64 : Bool) (d a : RegNo) (j : BitVec 2) (s : State) : Res :=
  quad s h b64 d a fun l => l / 4 * 4 + j.toNat

/-- The mask of lanes that satisfy a test. -/
def laneMask (ls : List (Nat × Fibre)) (p : Nat × Fibre → Bool) : W32 :=
  ls.foldl (fun m x => if p x then m ||| BitVec.ofNat 32 (2 ^ x.1) else m) 0

def execBallot (h : Hd) (d : RegNo) (pa : BitVec 3) (s : State) : Res := crossLane s h fun ls _ =>
  .ok [.v d.toNat (laneMask ls fun y => y.2.pred pa.toNat)]

def execPfxpop (h : Hd) (d : RegNo) (pa : BitVec 3) (s : State) : Res := crossLane s h fun ls x =>
  .ok [.v d.toNat (BitVec.ofNat 32 (ls.filter fun y => y.1 < x.1 && y.2.pred pa.toNat).length)]

def execConf (h : Hd) (b64 : Bool) (d a : RegNo) (s : State) : Res := crossLane s h fun ls x =>
  .ok [.v d.toNat (laneMask ls fun y => y.1 < x.1 && y.2.val b64 a == x.2.val b64 a)]

def execConfFirst (h : Hd) (b64 : Bool) (pd : BitVec 3) (a : RegNo) (s : State) : Res := crossLane s h fun ls x =>
  .ok [.p pd.toNat (!(ls.any fun y => y.1 < x.1 && y.2.val b64 a == x.2.val b64 a))]

/-- bits(x, 31, k+1): the prefix above bit k (Table 10-7). -/
def prefixAbove (x : W32) (k : Nat) : Nat := x.toNat / 2 ^ (k + 1)

/-- Active lanes whose prefix equals that of b, with or without the bit-k test. -/
def planeCount (s : State) (h : Hd) (d a b : RegNo) (k : BitVec 5) (bit : Bool) : Res := crossLane s h fun ls x =>
  .ok [.v d.toNat (BitVec.ofNat 32 (ls.filter fun y =>
    prefixAbove (y.2.reg a.toNat) k.toNat == prefixAbove (x.2.reg b.toNat) k.toNat &&
    (!bit || (y.2.reg a.toNat).getLsbD k.toNat)).length)]

def execBpcnt (h : Hd) (d a b : RegNo) (k : BitVec 5) (s : State) : Res := planeCount s h d a b k true
def execBpmatch (h : Hd) (d a b : RegNo) (k : BitVec 5) (s : State) : Res := planeCount s h d a b k false

/-- n bytes of constant space: bytes from CSIZE on read zero (R238). -/
def constRead (b : Block) (off n : Nat) : List Byte :=
  (List.range n).map fun i => if off + i < b.kr.csize.toNat then b.const.get (off + i) else 0

/-- One output of `mv` (R230). -/
def mvRow (b : Block) (f : Fibre) (o : MvOps) (off i : Nat) : Nat :=
  let k := o.k1.toNat + 1
  let m := o.m1.toNat + 1
  let sz := if o.bf16 then 2 else 4
  let fm := if o.bf16 then Fmt.bf16 else Fmt.f32
  let w := fun j => fm.decode (leNat (constRead b (off + sz * (i * k + j)) sz))
  let terms := (List.range k).map fun j => (w j).mul (Fmt.f32.decode (f.reg (o.a.toNat + j)).toNat)
  let ob := (off + sz * m * k + 3) / 4 * 4
  let bias := if o.bias then [Fmt.f32.decode (leNat (constRead b (ob + 4 * i) 4))] else []
  let y := Fmt.f32.sum o.rnd (terms ++ bias)
  if o.relu then
    match Fmt.f32.decode y with
    | .fin true _ _ => 0
    | .inf true => 0
    | _ => y
  else y

/-- The end of the bytes `mv` reads from offset off. -/
def mvEnd (o : MvOps) (off : Nat) : Nat :=
  let k := o.k1.toNat + 1
  let m := o.m1.toNat + 1
  let sz := if o.bf16 then 2 else 4
  if o.bias then (off + sz * m * k + 3) / 4 * 4 + 4 * m else off + sz * m * k

/-- Whether a party's weights can be read now: its earlier reads come first, and its own stores to constant space have reached it
(R230, R298) (log 68, DEDUCED). -/
def State.mayReadConst (s : State) (b : Block) (w : Who) : Bool :=
  s.mayReadNow b w && !((s.core b.core).paths.any fun e => e.slot == b.slot && e.parties.contains w &&
    e.reqs.any fun r => r.loc.same (.const 0))

/-- `mv` (R229, R230): each lane by itself; a bad offset is a pointer fault of that lane alone. All weights are read in the issue
step (log 121, DESIGN CHOICE). -/
def execMvWt (h : Hd) (o : MvOps) (s : State) : Res := match s.me with
  | none => .next s
  | some b => if !((s.views h).all fun x => s.mayReadConst b x.2.1) then .next s else s.lanewise h fun v => match v with
    | .cox _ => .ok []
    | .fib f =>
      let off := (f.reg o.b.toNat).toNat
      if off % 4 ≠ 0 then .trap { code := 0x07, info := ptrInfo 2 2 }
      else if 131072 < mvEnd o off then .trap { code := 0x07, info := ptrInfo 1 2 }
      else
        let ys := (List.range (o.m1.toNat + 1)).map (mvRow b f o off)
        nfOut v (ys.any fun y => (Fmt.f32.decode y).nonFinite)
          (ys.zipIdx.map fun y => .v (o.d.toNat + y.2) (BitVec.ofNat 32 y.1))

end Sys2Proof.Machine
end

