-- ==== Sys2Proof/Machine/FibreLife.lean ====
section
/-! DEFINITION. Fibre creation, ending and relations, majors 0x10–0x13 (R154–R169), and the events that emit a join
and combine a fold. -/

namespace Sys2Proof.Machine

open Sys2Proof

/-! ### Creation and ending -/

/-- `spawn` (R165): one child per active lane in ascending order, each with n registers of its lane; a creation
past an identifier or population limit does not issue and faults, which stops the block too (R120, R138, R151), and one
during a join's emission waits (R159) (log 56, DEDUCED). -/
def execSpawn (h : Hd) (d a : RegNo) (n : BitVec 5) (t : W32) (s : State) : Res := match s.part? with
  | none => .next s
  | some (b, p) =>
    let ls := s.act h
    if b.emitting then .next s
    else if b.nextFid + ls.length > 2 ^ 32 || b.fibres.length + ls.length > 65536 then
      let t := s.trapUnissued 0 (ls.map fun x => .fib x.2.fid) { code := 0x0E, info := BitVec.ofNat 16 b.slot }
      .next (if t.cur.went then t.updMe fun b => { b with ovStop := true, idle := 0 } else t)
    else
      let s1 := s.account h false
      let child := fun (r : State × List (Who × List Wr)) (x : Nat × Fibre) =>
        let regs := (List.range n.toNat).map fun i => x.2.reg (a.toNat + i)
        let c := r.1.create b.core b.slot p.stage (label t) regs
        (c.1, r.2 ++ [(.fib x.2.fid, [.v d.toNat (BitVec.ofNat 32 c.2)])])
      let r := ls.foldl child (s1, [])
      .next ((r.1.updMe fun b => r.2.foldl (fun b w => b.wr w.1 w.2) b).advance s.issuers).tidy

/-- `exit` (R166): every active fibre ends; the other lanes go on. -/
def execExit (h : Hd) (s : State) : Res :=
  .next (((s.account h false).advance s.issuers).endAll s.cur.core s.cur.slot ((s.act h).map fun x => x.2.fid)).tidy

/-- What `kill` does lane by lane: the fibres killed so far, and the lanes' writes (R166). -/
def killStep (b : Block) (d a : RegNo) (r : List Nat × List (Who × List Wr)) (x : Nat × Fibre) :
    List Nat × List (Who × List Wr) :=
  let t := (x.2.reg a.toNat).toNat
  if t = x.2.fid then (r.1 ++ [t], r.2)
  else if (b.fib? t).isSome && !r.1.contains t then (r.1 ++ [t], r.2 ++ [(.fib x.2.fid, [.v d.toNat 1])])
  else (r.1, r.2 ++ [(.fib x.2.fid, [.v d.toNat 0])])

/-- `kill` (R166). The ends take effect after the issue. -/
def execKill (h : Hd) (d a : RegNo) (s : State) : Res := match s.part? with
  | none => .next s
  | some (b, _) =>
    let r := (s.act h).foldl (killStep b d a) ([], [])
    let s1 := (s.account h false).updMe fun b => r.2.foldl (fun b w => b.wr w.1 w.2) b
    .next ((s1.advance s.issuers).endAll s.cur.core s.cur.slot r.1).tidy

/-! ### Relations -/

/-- `renter` (R167): a member's key is refreshed, another fibre takes an entry; the part stalls while the key store
has too few. -/
def execRenter (h : Hd) (rel : BitVec 3) (s : State) : Res := match s.me with
  | none => .next s
  | some b =>
    let r := rel.toNat
    let ls := s.act h
    let isM := fun (fid : Nat) => b.keys.any fun k => k.rel == r && k.fid == fid
    let new := ls.filter fun x => !isM x.2.fid
    if s.freeKeys b.core < new.length then .next s
    else
      let key := fun (fid : Nat) => match b.fib? fid with
        | some f => b.keyOf r f
        | none => 0
      let enter := fun (b : Block) => { b with
        keys := (b.keys.map fun (k : KEnt) =>
          if k.rel == r && (ls.any fun x => x.2.fid == k.fid) then { k with key := key k.fid } else k) ++
          new.map fun x => { rel := r, fid := x.2.fid, key := key x.2.fid } }
      .next (((s.account h false).updMe enter).advance s.issuers).tidy

/-- `rleave` (R167): a member's entry is freed, which counts as leaving under Table 7-6. -/
def execRleave (h : Hd) (rel : BitVec 3) (s : State) : Res :=
  let ls := s.act h
  let leave := fun (b : Block) => { b with
    keys := b.keys.filter fun (k : KEnt) => !(k.rel == rel.toNat && ls.any fun x => x.2.fid == k.fid) }
  .next ((((s.account h false).updMe leave).advance s.issuers).collect s.cur.core s.cur.slot).tidy

/-- Arrival at a relation collective (R156, R157): with an active member lane the active lanes park, the members
arriving, or waiting for the next instance while this one is in EMIT; with none the part goes on. -/
def State.collective (s : State) (h : Hd) (fold : Bool) (rel : Nat) (lab : W32) : State := match s.me with
  | none => s
  | some b =>
    let ls := s.act h
    let ms := ls.filter fun x => b.member fold rel x.2.fid
    if ms.isEmpty then s.skip h
    else
      let emit := b.insts.any fun i => i.fold == fold && i.rel == rel && i.st = .emit
      let nx := s.nextPc
      let park := fun (b : Block) (x : Nat × Fibre) => b.updFib x.2.fid fun f =>
        { f with life := .parked, next := nx
                 wait := some (.relation fold rel lab (!emit && ms.any fun m => m.1 == x.1) emit) }
      let arr := fun (b : Block) => if emit then b else ms.foldl (fun b x => b.arrive fold rel x.2.fid) b
      let stay := ls.map fun x => Who.fib x.2.fid
      let s1 := ((s.account h false).updMe fun b => arr (ls.foldl park b)).advance (s.issuers.filter fun w => !stay.contains w)
      (s1.collect s.cur.core s.cur.slot).tidy

def execRjoin (h : Hd) (res : BitVec 3) (t : W32) (s : State) : Res := .next (s.collective h false res.toNat t)
def execRfold (h : Hd) (rel : BitVec 3) (s : State) : Res := .next (s.collective h true rel.toNat 0)

/-! ### Match and probe (R169) -/

def execMatchAny (h : Hd) (b64 : Bool) (d a : RegNo) (s : State) : Res :=
  crossLane s h fun ls x =>
    .ok [.v d.toNat (laneMask ls fun y => y.2.val b64 a == x.2.val b64 a)]

def execMatchAll (h : Hd) (b64 : Bool) (pd : BitVec 3) (a : RegNo) (s : State) : Res :=
  crossLane s h fun ls x => .ok [.p pd.toNat (ls.all fun y => y.2.val b64 a == x.2.val b64 a)]

/-- The members of a relation with a key, in every state (R169). -/
def Block.probe (b : Block) (rel : Nat) (key : W64) : Nat := (b.keys.filter fun k => k.rel == rel && k.key == key).length

def execRprobe (h : Hd) (d a : RegNo) (rel : BitVec 3) (s : State) : Res := match s.me with
  | none => .next s
  | some b =>
    let pair := match b.rels[rel.toNat]? with
      | some r => r.pairKey
      | none => false
    crossLane s h fun _ x => .ok [.v d.toNat (BitVec.ofNat 32 (b.probe rel.toNat (x.2.val pair a)))]

/-! ### The events of collectives -/

/-- The registers of a join result: each projection clause copies one register (R158). -/
def Relation.project (r : Relation) (w : Nat) (l g : Fibre) : List W32 :=
  r.clauses.foldl (fun regs c =>
    if c.kind = 3 then regs.set c.vd.toNat (l.reg c.arg.toNat)
    else if c.kind = 4 then regs.set c.vd.toNat (g.reg c.arg.toNat)
    else regs) (List.replicate w 0)

/-- A fibre of a block as a join or a fold reads it: from its spill image when it has no window (R147, R158). -/
def State.seeFibre (s : State) (b : Block) (f : Fibre) : Spill × Fibre :=
  if f.win then (.at_ 0, f)
  else match s.spillXl b f .read with
  | .at_ pa => (.at_ pa, s.fromImage b f pa)
  | r => (r, f)

/-- The traffic of what `seeFibre` has read. -/
def State.seenFibre (s : State) (b : Block) (f : Fibre) (pa : Nat) : State := if f.win then s else s.readSpill b f pa

/-- One creation of a join's EMIT step, if it can go on (R158, R159): it waits for a key-store entry, for the fibre bound and for
an image that cannot be read, and stops with the overflow fault past the last identifier (R138). -/
def State.joinOne (s : State) (core slot res : Nat) : Option State := match s.block? core slot with
  | none => none
  | some b => match b.insts.find? (fun i => !i.fold && i.rel == res && i.st = .emit), b.rels[res]? with
    | some i, some r => match i.todo with
      | some ((l, g) :: rest) =>
        if b.ovStop || 65536 ≤ b.fibres.length || s.freeKeys core = 0 then none
        else if b.nextFid ≥ 2 ^ 32 then some (s.overflow b)
        else match b.fib? l, b.fib? g with
        | some fl, some fg =>
          if fl.stuck || fg.stuck then none
          else match s.seeFibre b fl, s.seeFibre b fg with
          | (.fault x, _), _ => some (s.spillFault b fl x)
          | _, (.fault x, _) => some (s.spillFault b fg x)
          | (.at_ pl, xl), (.at_ pg, xg) =>
            let regs := r.project b.kr.w.toNat xl xg
            let c := ((s.seenFibre b fl pl).seenFibre b fg pg).create core slot i.stage (label i.label) regs
            let key := b.keyOf res { xl with regs := regs }
            let drop := fun (x : Inst) => if !x.fold && x.rel == res then { x with todo := some rest } else x
            some (c.1.updBlock core slot fun b =>
              { b with keys := b.keys ++ [{ rel := res, fid := c.2, key := key }], insts := b.insts.map drop })
          | _, _ => none
        | _, _ => none
      | _ => none
    | _, _ => none

def State.joinLoop (core slot res : Nat) : Nat → State → State
  | 0, s => s
  | n + 1, s => match s.joinOne core slot res with
    | some t => State.joinLoop core slot res n t
    | none => s

/-- The EMIT step of a join: it creates its fibres one after the other, until the last or one that must wait (R158, R159, R331)
(log 57, DEDUCED). -/
def execJoinEmit (core slot res : Nat) (s : State) : Res :=
  let s := s.collect core slot
  let n := match s.block? core slot with
    | some b => (b.insts.map fun i => (i.todo.getD []).length).foldl Nat.max 0
    | none => 0
  .next ((State.joinLoop core slot res (n + 1) s).collect core slot)

/-- The value of a fold column over the members in ascending order (R75). -/
def Clause.combine (c : Clause) (fs : List Fibre) : List Wr :=
  let v := c.vd.toNat
  let wide := c.arg = 3 || c.arg = 4
  let sgn := c.arg = 0 || c.arg = 3
  let val := fun (f : Fibre) => if wide then pairWord (f.reg v) (f.reg (v + 1)) else (f.reg v).zeroExtend 64
  let lt := fun (x y : W64) =>
    if !sgn then x.ult y else if wide then x.slt y else (loWord x).slt (loWord y)
  let op := fun (x y : W64) =>
    if c.arg = 2 then
      (if c.kind = 5 then f32add .rne (loWord x) (loWord y)
       else if c.kind = 6 then f32min false (loWord x) (loWord y) else f32max false (loWord x) (loWord y)).zeroExtend 64
    else if c.kind = 5 then x + y
    else if c.kind = 6 then (if lt y x then y else x)
    else (if lt x y then y else x)
  match fs with
  | [] => []
  | f :: r =>
    if c.kind = 9 then [.v v (BitVec.ofNat 32 fs.length)]
    else if c.kind = 5 || c.kind = 6 || c.kind = 7 then putVal wide c.vd (r.foldl (fun acc g => op acc (val g)) (val f))
    else []

/-- Whether the spill image of a survivor can take its results (R160). -/
def State.survivorSpill (s : State) (b : Block) (f : Fibre) : Spill := if f.win then .at_ 0 else s.spillXl b f .write

/-- A survivor receives its results: in its window, or in its spill image (R160). -/
def State.survive (s : State) (b : Block) (f : Fibre) (pa : Nat) (ws : List Wr) : State :=
  if f.win then s.updBlock b.core b.slot fun b => b.wr (.fib f.fid) ws
  else ws.foldl (fun s w => match w with
    | .v r x => s.putSpill b (pa + 4 * r) (leBytes 4 x.toNat)
    | _ => s) s

/-- The EMIT step of a fold (R160): per key the lowest member receives every fold column, and the others end when
the instance is done. -/
def execFoldCombine (core slot rel : Nat) (s0 : State) : Res :=
  let s := s0.collect core slot
  match s.block? core slot with
  | none => .next s
  | some b => match b.insts.find? (fun i => i.fold && i.rel == rel && i.st = .emit), b.rels[rel]? with
    | some i, some r =>
      let es := sortBy (·.fid) (b.keys.filter fun k => k.rel == rel && k.st = .emitting)
      let lowest := fun (e : KEnt) => es.all fun x => x.key != e.key || e.fid ≤ x.fid
      let seen := (es.filterMap fun e => (b.fib? e.fid).map fun f => (e, f)).map fun (x : KEnt × Fibre) =>
        let r := s.seeFibre b x.2
        (x.2, if lowest x.1 && (match r.1 with
          | .at_ _ => true
          | _ => false) then (s.survivorSpill b x.2, r.2) else r)
      if seen.any fun x => x.1.stuck || x.2.1 == .wait then .next s
      else match seen.findSome? fun x => match x.2.1 with
        | .fault y => some (x.1, y)
        | _ => none with
      | some (f, y) => .next (s.spillFault b f y)
      | none =>
        let members := seen.map fun x => x.2.2
        let groups := (distinct (es.map (·.key))).map fun k => (es.filter fun e => e.key == k).filterMap fun e =>
          members.find? fun f => f.fid == e.fid
        let ws := groups.filterMap fun g => match g with
          | f :: _ => some (f, r.clauses.flatMap fun c => c.combine g)
          | [] => none
        let lost := groups.flatMap fun g => (g.drop 1).map (·.fid)
        let at_ := fun (f : Fibre) => match seen.find? fun x => x.1.fid == f.fid with
          | some (_, .at_ pa, _) => pa
          | _ => 0
        let s1 := ws.foldl (fun (s : State) w => s.survive b w.1 (at_ w.1) w.2) (seen.foldl (fun s x => s.seenFibre b x.1 (at_ x.1)) s)
        .next ((s1.finish core slot { i with defer := distinct (i.defer ++ lost) }).collect core slot)
    | _, _ => .next s

end Sys2Proof.Machine
end

