-- ==== Sys2Proof/Machine/System.lean ====
section
/-! DEFINITION. Contexts, majors 0xF0, 0xF1, 0xF8 and 0xF9 (R97–R114): special registers, trap return, the context states,
save and restore, budgets, and the events of the drain, the fault queue and the stroke. -/

namespace Sys2Proof.Machine

open Sys2Proof

/-! ### Special registers (R23, R24, R111, R112) -/

/-- `%loc` (Table 1-8). -/
def locOf (core part : Nat) : Nat := part * 2 ^ 14 + coreDie core * 2 ^ 12 + core / 8 * 2 ^ 8 + core

/-- The live lanes of the running part. -/
def State.gmask (s : State) : Nat := match s.part? with
  | some (_, p) => p.lanes.foldl (fun m x => m + 2 ^ x.1) 0
  | none => 0

/-- The registers of one fibre. -/
def Fibre.sr (f : Fibre) (n : Nat) : Nat := match n with
  | 0x01 => f.col
  | 0x02 => f.fid
  | 0x09 => if f.nftrap then 1 else 0
  | 0x10 => f.x.xf0.toNat
  | 0x11 => f.x.xf1.toNat
  | 0x12 => f.x.xf2.toNat
  | 0x13 => f.x.xf3.toNat
  | 0x14 => f.x.xinst.toNat
  | 0x15 => f.x.xext.toNat
  | 0x16 => f.x.xcause.toNat
  | 0x17 => f.x.xpc.toNat
  | _ => 0

/-- The value of a special register for one party (Tables 1-7 and 5-8). -/
def State.sr (s : State) (b : Block) (v : View) (n : Nat) : Nat := match n with
  | 0x00 => locOf b.core (if v.isCox then 0 else s.curPart)
  | 0x03 => s.gmask
  | 0x04 => b.blk.toNat
  | 0x05 => b.nblk.toNat
  | 0x06 => b.ctx
  | 0x07 => (s.cdie (coreDie b.core)).cyc.toNat
  | 0x08 => (s.cdie (coreDie b.core)).cyc.toNat / 65536
  | 0x0A => b.scb.toNat
  | 0x0B => b.scs.toNat
  | 0x0C => (s.core b.core).wake.toNat
  | 0x0D => s.svc
  | _ => match v with
    | .fib f => f.sr n
    | .cox _ => 0

def execSrd (h : Hd) (d : RegNo) (n : BitVec 8) (s : State) : Res := match s.me with
  | none => .next s
  | some b => s.pure1 h fun v =>
      let x := s.sr b v n.toNat
      if srWide n.toNat then v.w64 d (BitVec.ofNat 64 x) else [v.w32 d (BitVec.ofNat 32 x)]

/-- A block register written by a group takes the value of the highest active lane (R112). -/
def execSwr (h : Hd) (a : RegNo) (n : BitVec 8) (s : State) : Res := match s.me, (s.views h).getLast? with
  | none, _ => .next s
  | _, none => .next (s.skip h)
  | some _, some x =>
    if n = 0x09 then s.pure1 h fun v => [.nft ((v.r32 a).getLsbD 0)]
    else if n = 0x0A then .next ((s.updMe fun b => { b with scb := x.2.2.r64 a }).skip h)
    else if n = 0x0B then
      .next ((s.updMe fun b => { b with scs := BitVec.ofNat 8 (Nat.min 63 ((x.2.2.r32 a).toNat % 256)) }).skip h)
    else .next (s.skip h)

/-! ### Traps and yields (R113, R114) -/

/-- Sets the block's user trap vector when some party is active. -/
def State.setVec (s : State) (h : Hd) (v : Option W32) : Res :=
  if (s.views h).isEmpty then .next (s.skip h) else .next ((s.updMe fun b => { b with xvec := v }).skip h)

def execXvec (h : Hd) (t : W32) (s : State) : Res := s.setVec h (some t)
def execXvecClr (h : Hd) (s : State) : Res := s.setVec h none

/-- Where `xret.skip` resumes after `%xpc`: the length that `%xf0`.LEN gives (R94). -/
def XRegs.skipLen (x : XRegs) : Nat := lenBytes (x.xf0.extractLsb' 30 2)

/-- The fibre leaves its handler: it goes to `%xpc`, or past that instruction, and `%xcause` becomes 0. -/
def Fibre.leave (f : Fibre) (past : Bool) : Fibre :=
  { f with pc := f.x.xpc + BitVec.ofNat 64 (if past then f.x.skipLen else 0), x := { f.x with xcause := 0 } }

/-- THE return from a trap (R113), with which every window of the stream closes (R114) (log 28, DEDUCED): lanes with no trap to
return from take code 0x0D (log 45, DEDUCED). -/
def State.xret (s : State) (h : Hd) (past : Bool) : State :=
  let ls := s.act h
  let stray := fun (f : Fibre) => f.x.xcause.extractLsb' 0 8 = 0
  let tr : List (Who × Flt) := ls.filterMap fun x => if stray x.2 then some (Who.fib x.2.fid, codeFault 0x0D) else none
  if !tr.isEmpty && s.busy then s
  else
    let s1 := (s.account h true).advance (s.issuers.filter fun w => !(ls.any fun x => w == .fib x.2.fid))
    let s2 := s1.updMe fun b => ls.foldl (fun b x => if stray x.2 then b else b.updFib x.2.fid fun f => f.leave past) b
    (s2.deliver 0 tr).tidy

def execXret (h : Hd) (s : State) : Res := .next (s.xret h false)
def execXretSkip (h : Hd) (s : State) : Res := .next (s.xret h true)

/-- `yield`: the thread issues nothing in the next cycle, and stands behind the others until it has let one issue (R113). -/
def execYield (h : Hd) (s : State) : Res :=
  if (s.views h).isEmpty then .next (s.skip h)
  else
    let s1 := s.account h false
    let m := some ((s.cdie s.myDie).cyc.toNat + 1)
    let s2 := match s.cur.th with
      | .cox => s1.updMe fun b => b.updCox fun c => { c with yielded := true, mute := m }
      | .part id => s1.updMe fun b => b.updPart id fun p => { p with yielded := true, mute := m }
      | .none => s1
    .next ((s2.advance s.issuers).tidy)

/-! ### Forms that answer with a status (R114) -/

/-- A form of the cox thread that acts and answers with one word. -/
def State.sysForm (s : State) (h : Hd) (d : RegNo) (f : Block → View → W64 × State) : Res := match s.me with
  | none => .next s
  | some b =>
    let r := f b (.cox b.cox)
    .next (r.2.commit h [(.cox, .ok [.s d.toNat r.1])])

def stWord (n : Nat) : W64 := BitVec.ofNat 64 n

/-- Whether a context is one that another created (R97). A FREE context has no creator. -/
def State.child (s : State) (me n : Nat) : Bool := (s.ctx n).creator == some me

/-- The context a form names: bits 5..0 of its operand, in every form of Table 5-9 (log 122, DESIGN CHOICE). -/
def ctxNo (x : W64) : Nat := bits x.toNat 5 0

/-- The status of a form on a child in one of some states: 2 before 1. -/
def State.onChild (s : State) (me n : Nat) (ok : CtxSt → Bool) (act : State) : W64 × State :=
  if !s.child me n then (2, s) else if ok (s.ctx n).st then (0, act) else (1, s)

/-! ### What goes when translations or a block go (R113, R257, R269) -/

/-- Removes a context's translations that meet a test from every TLB and die cache. -/
def State.dropXl (s : State) (ctx : Nat) (hit : Tlb → Bool) : State :=
  let keep := fun (l : List Tlb) => l.filter fun t => !(t.ctx == ctx && hit t)
  { s with
    cores := s.cores.map fun (c : Core) => { c with tlb := keep c.tlb }
    cdies := s.cdies.map fun (d : CDie) => { d with dtc := keep d.dtc } }

/-- Removes a context's copies of code from every core. -/
def State.dropCode (s : State) (ctx : Nat) (hit : Nat → Bool) : State :=
  { s with cores := s.cores.map fun (c : Core) =>
      { c with icache := c.icache.filter fun e => !(e.1 == ctx && hit e.2.1) } }

/-- Removes the translations that a context's Eddy slots hold, where they meet a test; a slot with one gone walks again. -/
def State.dropEdXl (s : State) (ctx : Nat) (hit : Tlb → Bool) : State :=
  s.updCtx ctx fun c => { c with eddy := c.eddy.map fun (e : EdSlot) => if e.xl.any hit then { e with xl := [] } else e }

/-- Whether a begun Eddy command of a context uses a translation that meets a test. -/
def State.edUsesXl (s : State) (ctx : Nat) (hit : Tlb → Bool) : Bool :=
  (s.ctx ctx).eddy.any fun e => e.xl.any hit && match e.cmds with
    | c :: _ => c.begun
    | [] => false

/-- Frees what a block holds on its core: its lease, its bank with the contents, its records' assignments, its commands
and its bindings (R121, R203, R334, R361). -/
def State.freeBlock (s : State) (core slot : Nat) : State := match s.block? core slot with
  | none => s
  | some b =>
    let s := match s.lease b with
      | some pair => s.freeLease core pair
      | none => s
    let s := s.dropReqs core slot fun _ => false
    let s := s.updBank core fun k =>
      let others := k.arrivals.filter fun a => a.slot != slot
      if k.holder == some slot then { arrivals := others, serving := k.serving } else { k with arrivals := others }
    let mine := fun (a : Option Assign) => match a with
      | some (.stage x _) => x == slot
      | some (.ret x _) => x == slot
      | none => false
    let s := s.updCore core fun c => { c with
      assign := c.assign.map fun a => if mine a then none else a
      rbuf := c.rbuf.filter fun r => r.slot != slot
      pbuf := c.pbuf.filter fun r => r.slot != slot
      coll := c.coll.map fun (e : CEnt) => { e with pools := e.pools.filter fun r => r.1 != slot } }
    let host := b.q.any fun q => q.bind == some .host
    { s with
      blocks := s.blocks.filter fun x => !(x.at core slot)
      cmds := s.cmds.filter fun c => !(c.core == core && c.slot == slot)
      drains := s.drains.filter fun x => !(x.core == core && x.slot == slot)
      stops := s.stops.filter fun x => !(x.core == core && x.slot == slot)
      lates := s.lates.filter fun x => !(x.core == core && x.slot == slot)
      hostHolder := if host then none else s.hostHolder }

/-- The blocks of a context. -/
def State.blocksOf (s : State) (ctx : Nat) : List Block := s.blocks.filter fun b => b.ctx == ctx

/-! ### `ctxctl` (R100, R105, R113) -/

/-- `ctxctl.create` (R97, R98, R113): the priority comes from Sb[7:4] (log 35, DEDUCED). -/
def execCtxctlCreate (h : Hd) (d a b : RegNo) (s : State) : Res := s.sysForm h d fun k v =>
  let _ := a
  let y := v.r64 b
  if y.getLsbD 0 && !(s.ctx k.ctx).priv then (8, s)
  else match (List.range 64).find? fun n => (s.ctx n).st = .free with
  | none => (3, s)
  | some n =>
    let c : Ctx := { st := .ready, priv := y.getLsbD 0, creator := some k.ctx, prio := y.extractLsb' 4 4 }
    (stWord (n * 256), s.updCtx n fun _ => c)

def execCtxctlStart (h : Hd) (d a b : RegNo) (s : State) : Res := s.sysForm h d fun k v =>
  let _ := b
  let n := ctxNo (v.r64 a)
  s.onChild k.ctx n (fun st => st = .ready && (s.ctx n).root.isSome) (s.updCtx n fun c => { c with st := .running })

def execCtxctlStop (h : Hd) (d a b : RegNo) (s : State) : Res := s.sysForm h d fun k v =>
  let _ := b
  let n := ctxNo (v.r64 a)
  s.onChild k.ctx n (fun st => st = .running) (s.updCtx n fun c => { c with st := .draining })

/-- A cox thread parked on an S-class fault retries. -/
def Cox.retry (c : Cox) : Cox := match c.wait with
  | some (.fault _ _ _) => { c with wait := none }
  | _ => c

/-- A fibre parked on an S-class fault retries, and a spill transfer that faulted is tried again (R260). -/
def Fibre.retry (f : Fibre) : Fibre := match f.wait with
  | some (.fault _ _ _) => { f with life := .ready, wait := none, stuck := false }
  | _ => { f with stuck := false }

/-- Blocks of a context go on, but for the parties whose faults are not posted yet: an overflow no longer stops them
(R103, R152). -/
def Block.retry (b : Block) (held : Who → Bool) : Block :=
  let fibre := fun (f : Fibre) => if held (.fib f.fid) then f else f.retry
  { b with cox := if held .cox then b.cox else b.cox.retry, fibres := b.fibres.map fibre, ovStop := false, idle := 0 }

/-- Puts every part of a block in order. -/
def State.settleBlock (s : State) (core slot : Nat) : State := match s.block? core slot with
  | some b => b.parts.foldl (fun s p => s.settle core slot p.id) s
  | none => s

/-- Every fibre and cox thread of a context that is parked on a posted S-class fault retries once (R103, R105, R116,
R261) (log 34, DEDUCED) (log 40, DEDUCED). -/
def State.resume (s : State) (n : Nat) : State :=
  let s1 := { (s.closePosted n fun _ => true) with
    blocks := s.blocks.map fun (b : Block) => if b.ctx == n then b.retry (s.heldBack n b.core b.slot) else b
    launches := s.launches.map fun (l : Launch) => if l.ctx == n then { l with parked := false } else l }
  (s1.blocksOf n).foldl (fun s b => (s.settleBlock b.core b.slot).rouse b.core 9 0) s1

/-- Every core with a block of a context gets a supervisor's command: a becalmed one wakes (R109). -/
def State.rouseAll (s : State) (n : Nat) : State := (s.blocksOf n).foldl (fun (s : State) b => s.rouse b.core 9 0) s

def execCtxctlResume (h : Hd) (d a b : RegNo) (s : State) : Res := s.sysForm h d fun k v =>
  let _ := b
  let n := ctxNo (v.r64 a)
  if (s.ctx n).st = .stopped then
    s.onChild k.ctx n (fun _ => true) ({ (s.updCtx n fun c => { c with st := .running }) with
      launches := s.launches.map fun (l : Launch) => if l.ctx == n then { l with parked := false } else l }.rouseAll n)
  else s.onChild k.ctx n (fun st => st = .running) (s.resume n)

/-- The words of the instruction at an address of a block, as a fetch reads them. -/
def State.wordsAt (s : State) (b : Block) (pc : W64) : W64 × W64 :=
  let off := pc.toNat % 32
  let va := b.kr.code.toNat + (pc.toNat - off)
  let words := fun (va pa : Nat) =>
    let f := fieldsAt (blockBytes (s.codeBytes b.core b.ctx va pa)) off
    (f.base, f.ext)
  match s.sysVa va with
  | none => if s.codeMiss b.core b.ctx va then (0, 0) else words va 0
  | some va => match s.xl b.core b.ctx va .fetch false with
    | .ok pa => words va pa
    | _ => (0, 0)

/-- The trap registers of a reflected translation fault (R94, R105) (log 41, DEDUCED). -/
def State.reflectRegs (s : State) (b : Block) (f : Fibre) (info : BitVec 16) : XRegs :=
  let w := s.wordsAt b f.pc
  ({ pc := f.pc, base := w.1, ext := w.2 } : Cur).xregs { code := 0x06, info := info } 0

/-- One fibre's parked translation fault becomes an H-class fault: it enters the handler, or with no vector stays parked
under code 0x0F (log 41, DEDUCED). -/
def State.reflectOne (s : State) (b : Block) (f : Fibre) (info : BitVec 16) : State :=
  let x := s.reflectRegs b f info
  s.updBlock b.core b.slot fun k => k.updFib f.fid fun g => match b.xvec with
    | some v => g.enter x v
    | none => g.parkFault (some x) g.pc (.fault 0x0F 6 0)

/-- The fibres of a block parked on a translation fault, with INFO. -/
def Block.parkedXl (b : Block) : List (Fibre × BitVec 16) := b.fibres.filterMap fun f => match f.wait with
  | some (.fault code info _) => if code = 0x06 then some (f, info) else none
  | _ => none

/-- The records of a block whose faults were reflected with no vector: one for each part and address (R102, R103). -/
def State.reflectRecs (s : State) (b : Block) (fs : List Fibre) : State :=
  let keyOf := fun (f : Fibre) => ((b.partsWith [f.fid]), f.pc, f.part)
  (distinct (fs.map keyOf)).foldl (fun s k =>
    let g := (fs.filter fun f => keyOf f == k).map fun (f : Fibre) => f.fid
    s.postRec b.ctx { mkRec 6 0x0F false k.2.2 b.core b.ctx k.2.1 0 g.length b.slot (lowest g) 0 with
      who := g.map fun f => (b.core, b.slot, .fib f) }) s

/-- Reflects the posted translation faults of a block's fibres that `s0` holds; a cox thread stays parked (R103, R105)
(log 34, DEDUCED). -/
def State.reflectBlock (s0 s : State) (b : Block) : State :=
  let fs := b.parkedXl.filter fun x => !s0.heldBack b.ctx b.core b.slot (.fib x.1.fid)
  let s1 := fs.foldl (fun s x => s.reflectOne b x.1 x.2) s
  let s2 := if b.xvec.isSome then s1 else s1.reflectRecs b (fs.map fun x => x.1)
  if fs.isEmpty then s2 else (s2.settleBlock b.core b.slot).rouse b.core 9 0

/-- Whether a fibre of a coalescing entry is parked on its translation fault, so that a reflection acts on it (R105, R261). -/
def State.reflects (s : State) (e : Coal) : Bool := e.parties.any fun p => match s.block? p.1 p.2.1, p.2.2 with
  | some b, .fib fid => b.parkedXl.any fun x => x.1.fid == fid
  | _, _ => false

def State.reflect (s : State) (n : Nat) : State := (s.blocksOf n).foldl (State.reflectBlock s) (s.closePosted n s.reflects)

def execCtxctlReflect (h : Hd) (d a b : RegNo) (s : State) : Res := s.sysForm h d fun k v =>
  let _ := b
  let n := ctxNo (v.r64 a)
  s.onChild k.ctx n (fun st => st = .running) (s.reflect n)

/-- Every fibre and the cox thread of a block end (R100, R161). -/
def Block.endEverything (b : Block) : Block :=
  { b with
    cox := { b.cox with ended := true, wait := none, windows := [] }
    fibres := [], parts := [], origins := [], keys := [], insts := [], regroups := [], emits := [] }

/-- Invalidates every barrier of a context (R181). -/
def State.endBarriers (s : State) (n : Nat) : State :=
  let dead := fun (x : Barrier) => match x.st with
    | .gather => { x with st := .abandoned, phase := x.phase + 1, abn := true }
    | _ => { x with st := .abandoned }
  { (s.updCtx n fun c => { c with gbars := c.gbars.map dead }) with
    groups := s.groups.map fun (g : CGroup) => if g.ctx == n then { g with bars := g.bars.map dead } else g
    blocks := s.blocks.map fun (b : Block) => if b.ctx == n then { b with bars := b.bars.map dead } else b }

/-- Launches at a kill: the unplaced blocks are dropped and STATE will be 2; a record that waits is dropped (R116, R120). -/
def Launch.kill (l : Launch) : Option Launch := match l.st with
  | .finishing _ => if l.parked then none else some l
  | _ => some { l with st := .finishing 2 }

/-- A kill begins; the grid barriers of a launch that it drops are free (R100, R116, R172, R413) (log 44, DEDUCED). -/
def State.kill (s : State) (n : Nat) : State :=
  let host := s.saved.any fun x => x.ctx == n && x.blocks.any fun b => b.q.any fun q => q.bind == some .host
  let s := ((s.closeCoals n).endBarriers n).dropWindows' n
  let gone := (s.launches.filter fun l => l.ctx == n && l.kill.isNone).map fun (l : Launch) => some l.num
  let left := fun (g : Option Nat) => if gone.contains g then none else g
  { (s.updCtx n fun c => { c with st := .killing, gown := c.gown.map left }) with
    blocks := s.blocks.map fun (b : Block) => if b.ctx == n then b.endEverything else b
    launches := s.launches.filterMap fun (l : Launch) => if l.ctx == n then l.kill else some l
    saved := s.saved.filter fun x => x.ctx != n
    hostHolder := if host then none else s.hostHolder }

def execCtxctlKill (h : Hd) (d a b : RegNo) (s : State) : Res := s.sysForm h d fun k v =>
  let _ := b
  let n := ctxNo (v.r64 a)
  s.onChild k.ctx n (fun st => st = .running || st = .draining || st = .stopped || st = .saved) (s.kill n)

/-- A fault queue with room takes the records that wait, oldest first (R103). -/
def Ctx.refill (c : Ctx) : Ctx :=
  let n := 256 - c.faultQ.length
  { c with faultQ := c.faultQ ++ c.waiting.take n, waiting := c.waiting.drop n }

/-- The context a record is about. -/
def Rec.ctxOf (r : Rec) : Nat := bits r.w0.toNat 29 24

/-- A context becomes FREE: its memory, queues and copies go, and records about it leave its supervisor's queue (R100)
(log 43, DEDUCED). Its own children keep its number as that of their creator (log 108, DESIGN CHOICE). -/
def State.free (s : State) (n : Nat) : State :=
  let other := fun (r : Rec) => r.ctxOf != n
  let s1 := match (s.ctx n).creator with
    | some sup => s.updCtx sup fun c =>
        { c with faultQ := c.faultQ.filter other, waiting := c.waiting.filter other }.refill
    | none => s
  let s2 := ((((s1.closeCoals n).dropXl n fun _ => true).dropCode n fun _ => true).dropWindows' n).updCtx n fun _ => {}
  { s2 with
    launches := s2.launches.filter fun l => l.ctx != n
    cdies := s2.cdies.map fun (d : CDie) => { d with hcache := d.hcache.filter fun e => e.ctx != n } }

def execCtxctlFree (h : Hd) (d a b : RegNo) (s : State) : Res := s.sysForm h d fun k v =>
  let _ := b
  let n := ctxNo (v.r64 a)
  s.onChild k.ctx n (fun st => st = .ready) (s.free n)

/-! ### The drain (R107) -/

/-- Whether a core and slot hold a block of a context. -/
def State.holds (s : State) (n core slot : Nat) : Bool := match s.block? core slot with
  | some b => b.ctx == n
  | none => false

/-- Whether none of a core's paths holds a write of a context's blocks, and its bank no arrival. -/
def State.coreQuiet (s : State) (n core : Nat) : Bool :=
  let c := s.core core
  let mine := fun (o : Outb) => s.holds n core o.slot || o.also.any fun a => s.holds n core a.slot
  !(c.paths.any fun e => s.holds n core e.slot) && !(c.outb.any mine) &&
  !(c.coll.any fun e => e.wreqs.any mine || e.pools.any fun r => s.holds n core r.1) &&
  !(c.bank.arrivals.any fun a => s.holds n core a.slot)

/-- The drain is complete: every access has returned or is acknowledged, and the faults that issues have met are taken; every
command taken has ended, but for a collective or dispatch, whose progress is its record (R411), and for Eddy's, whose gates not begun
stay queued; no collective of the relations emits, no begun Eddy command is left, and every flit has landed (R107). -/
def State.drained' (s : State) (n : Nat) : Bool :=
  (s.ctx n).drain = 0 &&
  !(s.pends.any fun p => s.holds n p.core p.slot) && !(s.outstanding.any fun o => o.ctx == n) &&
  !(s.copies.any fun c => s.holds n c.core c.slot) &&
  !(s.cmds.any fun c => s.holds n c.core c.slot && c.result.isNone && !(c.k == .coll && c.port == 0) && c.k != .eddy) &&
  !(s.stops.any fun o => s.holds n o.core o.slot) &&
  (distinct ((s.blocksOf n).map fun b => b.core)).all (s.coreQuiet n) &&
  !((s.blocksOf n).any fun b => b.insts.any fun i => i.st = .emit) &&
  !((s.ctx n).eddy.any fun e => match e.cmds with
    | c :: _ => c.begun
    | [] => false)

/-- The end of a kill: its blocks, groups, Eddy slots and collective commands go (R100, Table 22-1) (log 44, DEDUCED). -/
def State.endKill (s : State) (n : Nat) : State :=
  let s1 := (s.blocksOf n).foldl (fun s b => s.freeBlock b.core b.slot) s
  { (s1.updCtx n fun c => { c with st := .ready, eddy := List.replicate 4 {} }) with
    groups := s1.groups.filter fun g => g.ctx != n
    colls := s1.colls.filter fun c => c.ctx != n }

/-- What was read for instructions of a context that have not issued is read again after a stop. -/
def State.dropRead (s : State) (n : Nat) : State := (s.blocksOf n).foldl (fun (s : State) b => s.updCore b.core fun c => { c with
  rbuf := c.rbuf.filter fun r => r.slot != b.slot
  pbuf := c.pbuf.filter fun r => r.slot != b.slot }) s

/-- A draining or killing context whose work in flight has all finished (Table 5-1) (log 44, DEDUCED). -/
def execDrainComplete (ctx : Nat) (s : State) : Res :=
  if !s.drained' ctx then .next s
  else match (s.ctx ctx).st with
  | .draining => .next ((s.dropRead ctx).updCtx ctx fun c => { c with st := .stopped, imgSeed := s.tick })
  | .killing => .next (s.endKill ctx)
  | _ => .next s

/-! ### `ctxsave` and `ctxrest` (R108, R113) -/

/-- The length in bytes and the bytes of the image of a context's last stop (log 5, DESIGN CHOICE). -/
def imageLen (seed : Nat) : Nat := 256 * Config.imageUnits seed

/-- The lines of an area on this device, each with its offset, length and translation in the issuing context; the access is a
system one (R256) (log 36, DEDUCED). -/
def State.sysSpan (s : State) (b : Block) (va len : Nat) (r : Right) : List (Nat × Nat × Xl) :=
  (lineSpans va len).filterMap fun x => (s.sysVa x.1).map fun a => (x.1 - va, x.2, s.xl b.core b.ctx a r true)

/-- The lines of an area on other devices (R399), each with its offset, length, device and address there. -/
def State.farSpan (s : State) (va len : Nat) : List (Nat × Nat × Nat × Nat) :=
  (lineSpans va len).filterMap fun x =>
    if (s.sysVa x.1).isSome then none else some (x.1 - va, x.2, bits x.1 51 42, bits x.1 41 0)

/-- What an area's accesses to other devices come to: all are answered, one is to be asked next, or one has failed, with its CODE. -/
inductive Far where
  | done
  | need (dev va : Nat) (op : RemoteOp)
  | bad (code : Nat)
  deriving DecidableEq, Repr

/-- Whether what has come to a party answers a request: a read's bytes, or the bytes that were written. -/
def answersOp (op : RemoteOp) (r : RBuf) : Bool := r.bad.isSome || match op with
  | .read n => r.data.length = n
  | .write d => r.data == d.map (·.2)
  | _ => false

/-- The answer that a cox thread holds to a request. -/
def State.farAnswer (s : State) (b : Block) (dev va : Nat) (op : RemoteOp) : Option RBuf :=
  (s.core b.core).rbuf.find? fun r => r.slot == b.slot && r.who == .cox && r.dev == dev && r.va == va && answersOp op r

/-- Requests to other devices are made one after another (log 36, DEDUCED). -/
def State.farAsk (s : State) (b : Block) : List (Nat × Nat × RemoteOp) → Far
  | [] => .done
  | (dev, va, op) :: l =>
    if 512 ≤ dev || s.lostDevs.contains dev then .bad 6
    else match s.farAnswer b dev va op with
      | none => .need dev va op
      | some r => match r.bad with
        | some x => .bad x.1
        | none => s.farAsk b l

/-- The bytes of a line of an image. -/
def imageLine (seed off n : Nat) : List Byte := (List.range n).map fun i => Config.imageByte seed (off + i)

/-- What an area asks other devices: the W right of each page, the writes of its lines, or their reads. -/
def State.farRights (s : State) (va len : Nat) : List (Nat × Nat × RemoteOp) :=
  ((s.farSpan va len).filter fun x => x.1 % 4096 = 0).map fun x => (x.2.2.1, x.2.2.2, .write [])
def State.farWrites (s : State) (va len seed : Nat) : List (Nat × Nat × RemoteOp) :=
  (s.farSpan va len).map fun x => (x.2.2.1, x.2.2.2, .write ((imageLine seed x.1 x.2.1).zipIdx.map fun y => (x.2.2.2 + y.2, y.1)))
def State.farReads (s : State) (va len : Nat) : List (Nat × Nat × RemoteOp) :=
  (s.farSpan va len).map fun x => (x.2.2.1, x.2.2.2, .read x.2.1)

/-- The walks of an area's accesses have their traffic, those that fault too (R241, R257). -/
def State.areaWalks (s : State) (b : Block) (va len : Nat) (r : Right) : State :=
  (s.sysSpan b va len r).foldl (fun s x => match s.sysVa (va + x.1), x.2.2 with
    | some a, .ok _ => s.fill b.core b.ctx a
    | some a, .fault _ => s.walked b.core b.ctx a
    | _, _ => s) s

/-- Whether an area is well placed: aligned and global, with every page of this device mapped. A migrating page gives no answer yet,
nor does a line whose class is held (R104) (log 36, DEDUCED). -/
def State.areaOk (s : State) (b : Block) (a : W64) (len : Nat) (r : Right) : Option Bool :=
  if bits a.toNat 63 56 ≠ 0 || a.toNat % 4096 ≠ 0 then some false
  else
    let xs := s.sysSpan b a.toNat len r
    if (xs.any fun x => match x.2.2 with
      | .wait => true
      | .ok pa => s.lineHeld b.ctx pa
      | .fault _ => false) then none
    else some (xs.all fun x => match x.2.2 with
      | .ok _ => true
      | _ => false)

/-- Writes an image line by line at the home slices of this device. -/
def State.putImage (s : State) (b : Block) (va len seed : Nat) : State :=
  (s.sysSpan b va len .write).foldl (fun s x => match x.2.2 with
    | .ok pa =>
      let y := imageLine seed x.1 x.2.1
      (s.chargeWrite b.ctx pa (y.zipIdx.map fun z => (pa + z.2, z.1))).homePut pa y
    | _ => s) s

/-- What a saved context takes from its cores (R108). -/
def State.take (s : State) (n va len seed : Nat) : Saved :=
  let bs := s.blocksOf n
  let mine := fun (c sl : Nat) => bs.any fun b => b.at c sl
  let arrs := (List.range s.cores.length).filterMap fun c =>
    let a := s.arr c
    match a.holder with
    | some (hc, hs) => if mine hc hs then some (c, { a with queue := a.queue.filter fun r => r.granted && mine r.core r.slot }) else none
    | none => none
  let banks := bs.filterMap fun b =>
    let k := (s.core b.core).bank
    if k.holder == some b.slot then some (b.core, k) else none
  { ctx := n, va := BitVec.ofNat 64 va, len := len, seed := seed, blocks := bs
    groups := s.groups.filter fun g => g.ctx == n
    arrs := arrs, banks := banks
    cmds := s.cmds.filter fun c => mine c.core c.slot
    drains := s.drains.filter fun x => mine x.core x.slot
    lates := s.lates.filter fun x => mine x.core x.slot }

/-- A stopped context leaves its cores, its image written. A host binding stays held (R203) (log 5, DESIGN CHOICE). -/
def State.save (s : State) (b : Block) (n va : Nat) : State :=
  let seed := (s.ctx n).imgSeed
  let x := s.take n va (imageLen seed) seed
  let s1 := x.blocks.foldl (fun s k => s.freeBlock k.core k.slot) (s.putImage b va (imageLen seed) seed)
  { (s1.updCtx n fun c => { c with st := .saved }) with
    saved := s1.saved ++ [x]
    groups := s1.groups.filter fun g => g.ctx != n
    hostHolder := s.hostHolder }

/-- `ctxsave`: it waits while the context drains; statuses 2, 1, 6, 5 in that order (R114). The area is checked as far as
the image and Sc reach; one on another device is asked there first for its rights, then for its writes, and an answer that fails gives
status 6, or the fault of an uncorrectable error (R399, R401) (log 36, DEDUCED). Under statuses 1, 2 and 6 the length in Sd[63:8] is 0 (log 109, DESIGN CHOICE). -/
def execCtxsave (h : Hd) (d a b c : RegNo) (s : State) : Res := match s.me with
  | none => .next s
  | some k =>
    let v := View.cox k.cox
    let n := ctxNo (v.r64 a)
    let give := fun (s : State) (x : Nat) => Host.Outcome.next (s.commit h [(.cox, .ok [.s d.toNat (stWord x)])])
    let len := imageLen (s.ctx n).imgSeed
    let room := (v.r64 c).toNat
    if !s.child k.ctx n then give s 2
    else if (s.ctx n).st = .draining then .next s
    else if (s.ctx n).st ≠ .stopped then give s 1
    else
      let va := (v.r64 b).toNat
      let t := s.areaWalks k va (Nat.min len room) .write
      match s.areaOk k (v.r64 b) (Nat.min len room) .write with
      | none => .next s
      | some false => give t 6
      | some true => match s.farAsk k (s.farRights va (Nat.min len room)) with
        | .need dev x op => .next (s.askOp k .cox dev x op true)
        | .bad c => if c = 0x11 then .next (t.faultAll h 0 [.cox] { code := 0x11 }) else give t 6
        | .done =>
          if room < len then give t (len + 5)
          else match s.farAsk k (s.farWrites va len (s.ctx n).imgSeed) with
            | .need dev x op => .next (s.askOp k .cox dev x op true)
            | .bad c => if c = 0x11 then .next (t.faultAll h 0 [.cox] { code := 0x11 }) else give t 6
            | .done => give (t.save k n va) len

/-- The bytes of an area as a system access reads them at their homes, or as other devices have answered. -/
def State.getArea (s : State) (b : Block) (va len : Nat) : List Byte :=
  (lineSpans va len).flatMap fun x => match s.sysVa x.1 with
    | some a => (match s.xl b.core b.ctx a .read true with
      | .ok pa => s.mem.read pa x.2
      | _ => [])
    | none => (s.farAnswer b (bits x.1 51 42) (bits x.1 41 0) (.read x.2)).elim [] (·.data)

/-- Whether an area on this device holds data whose check has failed (R401). -/
def State.areaBad (s : State) (b : Block) (va len : Nat) : Bool :=
  (s.sysSpan b va len .read).any fun x => match x.2.2 with
    | .ok pa => s.bad pa x.2.1
    | _ => false

/-- The traffic of an area that is read (R241, R252). -/
def State.areaTouch (s : State) (b : Block) (va len : Nat) : State :=
  (s.sysSpan b va len .read).foldl (fun t x => match x.2.2 with
    | .ok pa => t.chargeLine b.ctx pa
    | _ => t) (s.areaWalks b va len .read)

/-- Whether a core holds room for a saved block in its slot, with the blocks there (R108, R124). -/
def State.fitsBack (s : State) (b : Block) : Bool :=
  let here := s.blocks.filter fun x => x.core == b.core
  let sum := fun (f : Block → Nat) => here.foldl (fun n x => n + f x) (f b)
  let up := fun (n : Nat) => (n + 1535) / 1536 * 1536
  let cells := fun (x : Block) (p c : Nat) => ((x.fibres.filter fun f => f.win && f.part == p && f.col == c).length)
  let cols := (List.range 4).all fun p => (List.range 32).all fun c =>
    sum (fun x => cells x p c) ≤ 64 && sum (fun x => cells x p c * x.kr.w.toNat) ≤ 4096
  s.dieUp (coreDie b.core) && (s.block? b.core b.slot).isNone &&
  sum (fun x => x.kr.csize.toNat) ≤ 131072 && sum (fun x => up x.kr.ssize.toNat) ≤ 786432 &&
  sum (fun x => x.keys.length) ≤ 16384 && cols &&
  (List.range 4).all fun p => b.records p ≤ s.freeRecords b.core p &&
    (b.origins.filter fun o => o.part == p).length ≤ s.freeOrigins b.core p

/-- Blocks of a saved context fit back together: one after another, each with those before it. -/
def State.fitAll (s : State) : List Block → Bool
  | [] => true
  | b :: r => s.fitsBack b && State.fitAll { s with blocks := s.blocks ++ [b] } r

/-- A saved context comes back to its cores, and becalmed ones wake (R13, R108, R109) (log 5, DESIGN CHOICE). -/
def State.restore (s : State) (x : Saved) : State :=
  let s1 := x.arrs.foldl (fun s a => s.updArr a.1 fun k => { a.2 with queue := k.queue ++ a.2.queue }) s
  let s2 := x.banks.foldl (fun s k => s.updBank k.1 fun y => { k.2 with arrivals := y.arrivals, serving := y.serving }) s1
  let s3 : State := { (s2.updCtx x.ctx fun c => { c with st := .stopped, imgSeed := s.tick }) with blocks := s2.blocks ++ x.blocks }
  { s3.rouseAll x.ctx with
    groups := s2.groups ++ x.groups
    cmds := s2.cmds ++ x.cmds
    drains := s2.drains ++ x.drains
    lates := s2.lates ++ x.lates
    saved := s2.saved.filter fun y => y.ctx != x.ctx }

/-- `ctxrest`: statuses 2, 1, 6, 7, 4 in that order (R114). The image is the one that the last save wrote (log 5, DESIGN CHOICE); its
lines on other devices are read there first (R399), and data whose check has failed gives its fault (R401) (log 36, DEDUCED). -/
def execCtxrest (h : Hd) (d a b : RegNo) (s : State) : Res := match s.me with
  | none => .next s
  | some k =>
    let v := View.cox k.cox
    let n := ctxNo (v.r64 a)
    let give := fun (s : State) (x : Nat) => Host.Outcome.next (s.commit h [(.cox, .ok [.s d.toNat (stWord x)])])
    if !s.child k.ctx n then give s 2
    else match (s.ctx n).st == .saved, s.saved.find? fun x => x.ctx == n with
    | true, some x =>
      let va := (v.r64 b).toNat
      let t := s.areaTouch k va x.len
      (match s.areaOk k (v.r64 b) x.len .read with
      | none => .next s
      | some false => give (s.areaWalks k va x.len .read) 6
      | some true => match s.farAsk k (s.farReads va x.len) with
        | .need dev a op => .next (s.askOp k .cox dev a op true)
        | .bad c => if c = 0x11 then .next (t.faultAll h 0 [.cox] { code := 0x11 }) else give (s.areaWalks k va x.len .read) 6
        | .done =>
          if s.areaBad k va x.len then .next (t.faultAll h 0 [.cox] { code := 0x11 })
          else if s.getArea k va x.len ≠ (List.range x.len).map (fun i => Config.imageByte x.seed i) then give t 7
          else if t.fitAll x.blocks && x.arrs.all (fun r => (t.arr r.1).st = .free) &&
              x.banks.all (fun r => (t.core r.1).bank.holder.isNone) then give (t.restore x) 0
          else give t 4)
    | _, _ => give s 1

/-- `ptroot` (R113): the old translations go at once; it waits while a begun Eddy command holds some (R383)
(log 37, DEDUCED). -/
def execPtroot (h : Hd) (d a b : RegNo) (s : State) : Res := match s.me with
  | none => .next s
  | some k =>
    let v := View.cox k.cox
    let n := ctxNo (v.r64 a)
    let st := (s.ctx n).st
    let give := fun (s : State) (x : Nat) => Host.Outcome.next (s.commit h [(.cox, .ok [.s d.toNat (stWord x)])])
    if !s.child k.ctx n then give s 2
    else if !(st = .ready || st = .running || st = .stopped) then give s 1
    else if (v.r64 b).toNat % 4096 ≠ 0 then give s 6
    else if s.edUsesXl n fun _ => true then .next s
    else
      let s1 := s.updCtx n fun c => { c with root := some (v.r64 b).toNat }
      give (((s1.dropXl n fun _ => true).dropCode n fun _ => true).dropEdXl n fun _ => true) 0

/-! ### Fault queue, budgets and priority (R103, R104, R113) -/

/-- `frpop`: the oldest record, or four zero words (log 42, DEDUCED). -/
def execFrpop (h : Hd) (d : RegNo) (s : State) : Res := match s.me with
  | none => .next s
  | some k =>
    let ws := match (s.ctx k.ctx).faultQ with
      | r :: _ => [r.w0, r.w1, r.w2, r.w3]
      | [] => [0, 0, 0, 0]
    let s1 := s.updCtx k.ctx fun c => { c with faultQ := c.faultQ.drop 1 }.refill
    .next (s1.commit h [(.cox, .ok (ws.zipIdx.map fun x => Wr.s (d.toNat + x.2) x.1))])

/-- A record that waits for room enters its supervisor's queue, or the management records (R103, R428). -/
def execFaultRecordPost (ctx : Nat) (s : State) : Res := .next ((s.updCtx ctx Ctx.refill).mgRefill)

/-- `bgset` (R113): the budget is in force from each die's next stroke boundary (log 42, DEDUCED). -/
def execBgset (h : Hd) (k : BClass) (a b : RegNo) (s : State) : Res := match s.me with
  | none => .next s
  | some m =>
    let v := View.cox m.cox
    let n := ctxNo (v.r64 a)
    let s1 := if s.child m.ctx n then s.updCtx n fun c => { c with budget := c.budget.set (bIdx k) (loWord (v.r64 b)) } else s
    .next (s1.skip h)

/-- `bgrd`: the budget and the charge of the current stroke on the issuing core's die. It answers for any context, child or not,
and it gives the budget that `bgset` last set, also before a die takes it at its next stroke (log 107, DESIGN CHOICE). -/
def execBgrd (h : Hd) (k : BClass) (d a : RegNo) (s : State) : Res := s.pure1 h fun v =>
  let c := s.ctx (ctxNo (v.r64 a))
  let ch := (((c.charge[s.myDie]?).getD [])[bIdx k]?).getD 0
  v.w64 d (BitVec.ofNat 32 ch ++ ((c.budget[bIdx k]?).getD 0 : W32))

def execCtxprio (h : Hd) (a b : RegNo) (s : State) : Res := match s.me with
  | none => .next s
  | some m =>
    let v := View.cox m.cox
    let n := ctxNo (v.r64 a)
    let s1 := if s.child m.ctx n then s.updCtx n fun c => { c with prio := (v.r64 b).extractLsb' 0 4 } else s
    .next (s1.skip h)

/-! ### Strokes (R104, R248, R427) -/

/-- The count of a line in the stroke just ended. -/
def CDie.count (d : CDie) (line : Nat) : Nat := match d.freq.find? fun x => x.1 == line with
  | some x => x.2
  | none => 0

/-- Drops pinned lines in ascending order of count, and of falling address among equals, until n are left (R427)
(log 46, DEDUCED). -/
def shrinkPins (l : List (Nat × Nat)) (n : Nat) : List (Nat × Nat) :=
  let order := sortBy (fun x => x.2) (sortBy (fun x => 2 ^ 46 - x.1) l)
  order.drop (l.length - n)

/-- One line that has reached the threshold is pinned where there is room, or where its count beats the lowest (R248)
(log 46, DEDUCED). -/
def pinLine (cap : Nat) (l : List (Nat × Nat)) (x : Nat × Nat) : List (Nat × Nat) :=
  if l.length < cap then l ++ [x]
  else match leastBy (fun y => y.2) (sortBy (fun y => 2 ^ 46 - y.1) l) with
  | some y => if y.2 < x.2 then l.filter (fun z => z.1 != y.1) ++ [x] else l
  | none => l

/-- The pinned lines of a die after a stroke: MGPIN's partition and threshold, and the counts of the stroke (R248)
(log 46, DEDUCED). -/
def CDie.repin (d : CDie) (pin : W64) : CDie :=
  let cap := 8192 * bits pin.toNat 4 0
  let th := bits pin.toNat 31 16
  let kept := shrinkPins (d.pinned.map fun x => (x.1, d.count x.1)) cap
  let fresh := d.freq.filter fun x => th ≠ 0 && th ≤ x.2 && !(kept.any fun y => y.1 == x.1)
  let order := sortBy (fun x => 2 ^ 64 - x.2) (sortBy (fun x => x.1) fresh)
  { d with pinned := order.foldl (pinLine cap) kept, freq := [] }

/-- Charges of a die restart, and the budgets set since take effect (R104). -/
def Ctx.stroke (c : Ctx) (die : Nat) : Ctx :=
  { c with charge := c.charge.set die (List.replicate 10 0), eff := c.eff.set die c.budget }

/-- The stroke boundary of a C-die (0–3) or an L-die (4–5). -/
def execStrokeBoundary (die : Nat) (s : State) : Res :=
  let due := if die < 4 then (s.cdie die).strokeDue else (s.ldie (die - 4)).strokeDue
  if !due then .next s
  else
    let s1 := { s with ctxs := s.ctxs.map fun (c : Ctx) => c.stroke die }
    if die < 4 then
      let pin := (s1.mgPinNext[die]?).getD 0
      let s2 := ({ s1 with mgPin := s1.mgPin.set die pin }).updDie die fun d => { d.repin pin with strokeDue := false }
      .next ((List.range 32).foldl (fun s i => s.rouse (32 * die + i) 8 0) s2)
    else .next { s1 with ldies := s1.ldies.modify (die - 4) fun d => { d with strokeDue := false } }.resendAll

end Sys2Proof.Machine
end

