-- ==== Sys2Proof/Machine/Handles.lean ====
section
/-! DEFINITION. Translations and cache handles, major 0xF2 (R263–R271). -/

namespace Sys2Proof.Machine

open Sys2Proof

/-! ### `xlat` (R268) -/

def sizeCode (sh : Nat) : Nat := if sh = 12 then 0 else if sh = 16 then 1 else if sh = 21 then 2 else 3

/-- The result word of a translation. -/
def Leaf.word (l : Leaf) (va : Nat) : W64 :=
  let bit := fun (i : Nat) (n : Nat) => if l.e.getLsbD i then 2 ^ n else 0
  BitVec.ofNat 64 (bit 1 62 + bit 2 61 + bit 7 60 + sizeCode l.sh * 2 ^ 58 + bit 6 57 + bit 5 56 + (l.pa + va % 2 ^ l.sh))

/-- The virtual address that the page table translates for a pointer, none for another space or device (R268, R399)
(log 39, DEDUCED). -/
def State.tableVa (s : State) (p : W64) : Option Nat :=
  let va := bits p.toNat 55 0
  if bits p.toNat 63 56 ≠ 0 then none
  else if isRemote va then (if bits va 51 42 = s.devNum.toNat then some (bits va 41 0) else none)
  else some va

/-- What `xlat` writes: NP alone, or the leaf's fields. -/
def State.xlatWord (s : State) (b : Block) (p : W64) : W64 := match s.tableVa p with
  | none => 0x8000000000000000
  | some va => match s.look b.core b.ctx va with
    | none => 0x8000000000000000
    | some l => l.word va

def execXlat (h : Hd) (d a : RegNo) (s : State) : Res := match s.me with
  | none => .next s
  | some b => s.pure1 h fun v => v.w64 d (s.xlatWord b (v.r64 a))

/-! ### Invalidation (R266, R269, R270) -/

/-- Accesses of a context issued before a number that have not completed: loads not returned, stores and atomics not
acknowledged (log 37, DEDUCED). -/
def State.inFlight (s : State) (ctx upto : Nat) : Bool :=
  let old := fun (issue core slot : Nat) => issue < upto && s.holds ctx core slot
  s.pends.any (fun p => old p.issue p.core p.slot) ||
  s.outstanding.any (fun o => (o.issue < upto || o.also.any fun a => a.issue < upto) && o.ctx == ctx) ||
  s.cores.zipIdx.any fun x =>
    x.1.paths.any (fun e => old e.issue x.2 e.slot) || x.1.outb.any (fun o => old o.issue x.2 o.slot || o.also.any fun a => old a.issue x.2 a.slot) ||
    x.1.coll.any fun e => e.wreqs.any fun o => old o.issue x.2 o.slot

/-- A form that has issued and completes once the accesses before it have: its register then gets a status. -/
def State.issueLate (s : State) (h : Hd) (d : RegNo) (v : W64) (kind : LateKind) : State :=
  let t : Late := { issue := s.nextId, core := s.cur.core, slot := s.cur.slot, reg := d.toNat, v := v, kind := kind }
  let s1 := s.skip h
  { s1 with lates := s1.lates ++ [t] }

/-- `tinv` (R269): it waits for the cox thread's stores, and for begun Eddy commands that hold a translation it removes
(log 37, DEDUCED). -/
def execTinv (h : Hd) (all : Bool) (d a b : RegNo) (s : State) : Res := match s.me with
  | none => .next s
  | some k =>
    let v := View.cox k.cox
    let n := ctxNo (v.r64 a)
    let va := bits (v.r64 b).toNat 55 0
    let hit := fun (t : Tlb) => all || t.va / 2 ^ t.sh == va / 2 ^ t.sh
    let code := fun (x : Nat) => all || x / 2 ^ 30 == va / 2 ^ 30
    let give := fun (x : W64) => Host.Outcome.next (s.commit h [(.cox, .ok [.s d.toNat x])])
    if (s.ctx n).st = .free then give 1
    else if n ≠ k.ctx && !s.child k.ctx n then give 2
    else if !s.performed k.core k.slot .cox .sys || s.edUsesXl n hit then .next s
    else .next ((((s.dropXl n hit).dropCode n code).dropEdXl n hit).issueLate h d 0 (.inval n s.nextId))

/-- Whether a remote place is that of an entry of a context's handle table (R264, R399). -/
def State.entryAt (s : State) (ctx : Nat) (hit : Nat → Bool) (dev va : Nat) : Bool :=
  let base := (s.ctx ctx).hbase.toNat
  let x := remoteVa dev va
  base ≤ x && (x - base) % 32 == 0 && hit ((x - base) / 32)

/-- Removes handle-table entries of a context from every die's cache, and those that have come from another device and have not been
used yet (R266). -/
def State.dropHandles (s : State) (ctx : Nat) (hit : Nat → Bool) : State :=
  let t : State :=
    { s with cdies := s.cdies.map fun (d : CDie) => { d with hcache := d.hcache.filter fun e => !(e.ctx == ctx && hit e.index) } }
  (s.blocksOf ctx).foldl (fun (t : State) b => t.updCore b.core fun c =>
    { c with rbuf := c.rbuf.filter fun r => !(r.slot == b.slot && s.entryAt ctx hit r.dev r.va) }) t

/-- Whether entries of a context's handle table are on their way from another device: bytes that an invalidation must not miss
(R266). -/
def State.entryComes (s : State) (ctx : Nat) (hit : Nat → Bool) : Bool :=
  s.outstanding.any fun o => o.buf && o.ctx == ctx && s.entryAt ctx hit o.dev o.va

/-- Ends the k-th form that waits, if what it waits for is over. A launch's wait ends with its record (R119). Handle-table entries
go once more when the stores before their invalidation are performed, so that it completes with no old entry left (R266)
(log 37, DEDUCED). -/
def State.endLate (s : State) (k : Nat) : State := match s.lates[k]? with
  | none => s
  | some t =>
    let give := fun (s : State) => { s.updBlock t.core t.slot (fun b => b.wr .cox [.s t.reg t.v]) with lates := s.lates.eraseIdx k }
    match t.kind with
    | .launch _ num =>
      if num ≠ 0 then s
      else { (s.updBlock t.core t.slot fun b => b.wr .cox [.s t.reg t.v]).acquireBy t.core t.slot [.cox] .sys with
        lates := s.lates.eraseIdx k }
    | .inval ctx upto => if s.inFlight ctx upto then s else give s
    | .handles ctx upto index again =>
      let hit := fun (i : Nat) => index.all fun j => i == j
      if s.inFlight ctx upto || (!again && s.entryComes ctx hit) then s
      else if again then give s
      else
        let gone := s.dropHandles ctx hit
        { gone with lates := s.lates.set k { t with kind := .handles ctx s.nextId index true } }

/-- `htab` (R264, R268) (log 38, DEDUCED). -/
def execHtab (h : Hd) (d a b : RegNo) (s : State) : Res := match s.me with
  | none => .next s
  | some k =>
    let v := View.cox k.cox
    let base := v.r64 a
    if bits base.toNat 63 56 ≠ 0 || base.toNat % 4096 ≠ 0 then .next (s.commit h [(.cox, .ok [.s d.toNat 6])])
    else
      let s1 := (s.dropHandles k.ctx fun _ => true).updCtx k.ctx fun c =>
        { c with hbase := base, hcount := bits (v.r64 b).toNat 20 0 }
      .next (s1.issueLate h d 0 (.handles k.ctx s.nextId none false))

def execHinv (h : Hd) (all : Bool) (d a : RegNo) (s : State) : Res := match s.me with
  | none => .next s
  | some k =>
    let i := bits ((View.cox k.cox).r64 a).toNat 19 0
    let index := if all then none else some i
    .next ((s.dropHandles k.ctx fun x => index.all fun j => x == j).issueLate h d 0 (.handles k.ctx s.nextId index false))

/-! ### Dereferences (R263–R265, R271) -/

/-- A handle-table entry from its 32 bytes; a malformed one is not valid (R264). -/
def hentOf (ctx index : Nat) (x : List Byte) : HEnt :=
  let f := fun (o n : Nat) => leNat ((x.drop o).take n)
  let ok := f 15 1 = 1 && (x.drop 16).all (fun b => b == 0) && f 0 8 % 64 = 0 && bits (f 0 8) 63 60 = 0 && f 8 4 % 64 = 0
  { ctx := ctx, index := index, base := BitVec.ofNat 64 (f 0 8), size := BitVec.ofNat 32 (f 8 4), gen := BitVec.ofNat 16 (f 12 2)
    tenant := BitVec.ofNat 8 (f 14 1), valid := ok }

/-- The checks of R265: the fault's INFO, 0 when all hold. -/
def HEnt.fail (e : HEnt) (hd : W64) (x n : Nat) : Nat :=
  let bound := bits hd.toNat 19 0
  let lim := if bound = 0 then e.size.toNat else Nat.min e.size.toNat (64 * bound)
  (if !e.valid || e.gen.toNat ≠ bits hd.toNat 63 48 then 4 else 0) +
  (if e.tenant.toNat ≠ bits hd.toNat 47 40 then 2 else 0) + (if x % n ≠ 0 || lim < x + n then 1 else 0)

/-- An entry that a dereference finds: in its die's cache, or in the table at its home. -/
inductive HGot where
  | wait
  | need (dev va : Nat)
  | bad (f : Flt)
  | ok (e : HEnt)
  deriving DecidableEq, Repr

def State.getHandle (s : State) (b : Block) (w : Who) (index : Nat) : HGot :=
  match (s.cdie (coreDie b.core)).hcache.find? fun e => e.ctx == b.ctx && e.index == index with
  | some e => .ok e
  | none =>
    let va := (s.ctx b.ctx).hbase.toNat + 32 * index
    match s.chkGlobal b va false with
    | .wait => .wait
    | .bad f => .bad f
    | .ok (.glob pa) _ =>
      if s.lineHeld b.ctx pa then .wait
      else if s.bad pa 32 then .bad { code := 0x11 }
      else .ok (hentOf b.ctx index (s.mem.read pa 32))
    | .ok l v => match s.getSpan b w [(0, 32, .ok l v)] with
      | .ok x => .ok (hentOf b.ctx index x)
      | .need dev va _ => .need dev va
      | .bad f _ => .bad f
      | .wait => .wait

/-- One lane's dereference: the access it comes to, with the entry it used. -/
inductive HChk where
  | need (dev va : Nat)
  | at_ (c : Chk) (e : Option HEnt)
  deriving DecidableEq, Repr

def hfault (info : Nat) : Flt := { code := 0x08, info := BitVec.ofNat 16 info }

def State.deref (s : State) (b : Block) (w : Who) (hd : W64) (x n : Nat) (write : Bool) : HChk :=
  let i := bits hd.toNat 39 20
  if (s.ctx b.ctx).hcount ≤ i then .at_ (.bad (hfault 1)) none
  else match s.getHandle b w i with
  | .wait => .at_ .wait none
  | .need dev va => .need dev va
  | .bad f => .at_ (.bad f) none
  | .ok e =>
    if e.fail hd x n ≠ 0 then .at_ (.bad (hfault (e.fail hd x n))) (some e)
    else .at_ (s.chk b w [0] e.base (x : Int) n write) (some e)

/-- Keeps the entries that an issue used in the die's cache; those that it read at their homes are charged (R252, R266). -/
def State.keepHandles (s : State) (b : Block) (es : List HEnt) : State := es.foldl (fun (s : State) e =>
  let die := coreDie b.core
  if (s.cdie die).hcache.any fun x => x.ctx == e.ctx && x.index == e.index then s
  else
    let s := match s.chkGlobal b ((s.ctx b.ctx).hbase.toNat + 32 * e.index) false with
      | .ok (.glob pa) _ => s.chargeLine b.ctx pa
      | _ => s
    s.updDie die fun d => { d with hcache := d.hcache ++ [e] }) s

/-- Checks every active party's dereference, then runs the access; remote entries are asked for first. -/
def State.derefAll (s : State) (h : Hd) (a b : RegNo) (n : Nat) (write : Bool)
    (run : State → List (Nat × Who × Chk) → Res) : Res := match s.me with
  | none => .next s
  | some k =>
    let xs := (s.views h).map fun x => (x.1, x.2.1, s.deref k x.2.1 (x.2.2.r64 a) (x.2.2.r32 b).toNat n write)
    match xs.findSome? fun x => match x.2.2 with
      | .need dev va => some (x.2.1, dev, va)
      | _ => none with
    | some (w, dev, va) => .next (s.askRead k w dev va 32)
    | none =>
      let cs := xs.filterMap fun x => match x.2.2 with
        | .at_ c _ => some (x.1, x.2.1, c)
        | .need _ _ => none
      let es := xs.filterMap fun x => match x.2.2 with
        | .at_ _ e => e
        | .need _ _ => none
      run (s.keepHandles k es) cs

def hldSz : HSz → LdSz
  | .b32 => .b32
  | .b64 => .b64
  | .b128 => .b128
def hstSz : HSz → StSz
  | .b32 => .b32
  | .b64 => .b64
  | .b128 => .b128

def execHld (h : Hd) (sz : HSz) (d a b : RegNo) (s : State) : Res :=
  s.derefAll h a b (ldBytes (hldSz sz)) false fun s cs => s.load h cs (hldSz sz) d none none

def execHst (h : Hd) (sz : HSz) (a b c : RegNo) (s : State) : Res :=
  s.derefAll h a b (stBytes (hstSz sz)) true fun s cs => s.store h cs (s.dataOf h (hstSz sz) c) none none false

end Sys2Proof.Machine
end

