-- ==== Sys2Proof/Machine/Integer.lean ====
section
/-! DEFINITION. The integer instructions, class 0x2 (R210–R217). -/

namespace Sys2Proof.Machine

open Sys2Proof

/-- A two-source integer form whose result is an exact integer of the typed operands. -/
def intBin (s : State) (h : Hd) (o : IBin) (f : Int → Int → Int) : Res := s.pure1 h fun v =>
  putTy v o.ty o.d (finishInt o.ty o.sat (f (tyVal o.ty (rawReg v o.ty o.a)) (tyVal o.ty (srcBits v o.ty o.b))))

/-- A one-source integer form. -/
def intUn (s : State) (h : Hd) (o : IUn) (f : Int → Int) : Res := s.pure1 h fun v =>
  putTy v o.ty o.d (finishInt o.ty o.sat (f (tyVal o.ty (rawReg v o.ty o.a))))

/-- A bitwise form with two sources. -/
def bitBin (s : State) (h : Hd) (o : BBin) (f : Nat → Nat → Nat) : Res := s.pure1 h fun v =>
  putTy v o.bw.ty o.d (f (rawReg v o.bw.ty o.a) (srcBits v o.bw.ty o.b))

/-- A bitwise form with one source and a result of its width. -/
def bitUn (s : State) (h : Hd) (o : BUn) (f : Nat → Nat) : Res := s.pure1 h fun v =>
  putTy v o.bw.ty o.d (f (rawReg v o.bw.ty o.a))

/-- A count in a single register (Table 10-2, columns marked 1). -/
def bitCount (s : State) (h : Hd) (o : BUn) (f : Nat → Nat) : Res := s.pure1 h fun v =>
  [v.w32 o.d (BitVec.ofNat 32 (f (rawReg v o.bw.ty o.a)))]

def bwWidth : BW → Nat
  | .b32 => 32
  | .b64 => 64

/-- Set bits among the low n bits. -/
def popCount (x : Nat) : Nat → Nat
  | 0 => 0
  | n + 1 => popCount x n + (if x.testBit n then 1 else 0)

/-- Leading zeros of an n-bit value; n for 0 (Table 10-2). -/
def leadZeros (x : Nat) : Nat → Nat
  | 0 => 0
  | n + 1 => if x.testBit n then 0 else 1 + leadZeros x n

/-- Trailing zeros, counting bits w − n and up. -/
def trailZeros (x w : Nat) : Nat → Nat
  | 0 => 0
  | n + 1 => if x.testBit (w - (n + 1)) then 0 else 1 + trailZeros x w n

/-- Bit n of the result is bit w − 1 − n (Table 10-2 `brev`). -/
def bitRev (x w : Nat) : Nat → Nat
  | 0 => 0
  | n + 1 => bitRev x w n + (if x.testBit (w - 1 - n) then 2 ^ n else 0)

def execAdd (h : Hd) (o : IBin) (s : State) : Res := intBin s h o (· + ·)
def execSub (h : Hd) (o : IBin) (s : State) : Res := intBin s h o (· - ·)
def execNeg (h : Hd) (o : IUn) (s : State) : Res := intUn s h o (- ·)
/-- |a|; a under `.n` types, whose values are never negative. -/
def execAbs (h : Hd) (o : IUn) (s : State) : Res := intUn s h o fun a => if a < 0 then -a else a
def execMin (h : Hd) (o : IBin) (s : State) : Res := intBin s h o fun a b => if b < a then b else a
def execMax (h : Hd) (o : IBin) (s : State) : Res := intBin s h o fun a b => if a < b then b else a
def execMul (h : Hd) (o : IBin) (s : State) : Res := intBin s h o (· * ·)
/-- Bits [2w−1:w] of the exact product. -/
def execMulhi (h : Hd) (o : IBin) (s : State) : Res := intBin s h o fun a b => (a * b) / 2 ^ tyWidth o.ty

/-- The exact 64-bit product of 32-bit operands (Table 10-2). -/
def execMulwide (h : Hd) (o : IBin) (s : State) : Res := s.pure1 h fun v =>
  v.w64 o.d (BitVec.ofInt 64 (tyVal o.ty (rawReg v o.ty o.a) * tyVal o.ty (srcBits v o.ty o.b)))

def execMad (h : Hd) (o : ITri) (s : State) : Res := s.pure1 h fun v =>
  putTy v o.ty o.d (tyBitsOf o.ty
    (tyVal o.ty (rawReg v o.ty o.a) * tyVal o.ty (rawReg v o.ty o.b) + tyVal o.ty (srcBits v o.ty o.c)))

/-- The quotient of R215: truncation toward zero, all ones for b = 0. The most negative value over −1 wraps to
itself in the w-bit result. -/
def divVal (a b : Int) : Int := if b = 0 then -1 else Int.tdiv a b
/-- The remainder of R215: a for b = 0. -/
def remVal (a b : Int) : Int := if b = 0 then a else a - b * Int.tdiv a b

def execDiv (h : Hd) (o : IBin) (s : State) : Res := intBin s h o divVal
def execRem (h : Hd) (o : IBin) (s : State) : Res := intBin s h o remVal

def execAnd (h : Hd) (o : BBin) (s : State) : Res := bitBin s h o (· &&& ·)
def execOr (h : Hd) (o : BBin) (s : State) : Res := bitBin s h o (· ||| ·)
def execXor (h : Hd) (o : BBin) (s : State) : Res := bitBin s h o (· ^^^ ·)
def execNot (h : Hd) (o : BUn) (s : State) : Res := bitUn s h o fun a => 2 ^ bwWidth o.bw - 1 - a
/-- a AND NOT b: the bits of a less those it shares with b. -/
def execAndn (h : Hd) (o : BBin) (s : State) : Res := bitBin s h o fun a b => a - (a &&& b)

/-- a × 2^n, and 0 when n ≥ w; the count is read unsigned (R214). -/
def execShl (h : Hd) (o : IBin) (s : State) : Res := s.pure1 h fun v =>
  let n := (src1Bits v o.b).toNat
  putTy v o.ty o.d (if tyWidth o.ty ≤ n then 0 else rawReg v o.ty o.a * 2 ^ n % 2 ^ tyWidth o.ty)

/-- Logical under `.n`, arithmetic under `.i`; n ≥ w gives 0 or sign fill. -/
def execShr (h : Hd) (o : IBin) (s : State) : Res := s.pure1 h fun v =>
  let n := Nat.min (src1Bits v o.b).toNat (tyWidth o.ty)
  putTy v o.ty o.d (tyBitsOf o.ty (tyVal o.ty (rawReg v o.ty o.a) / 2 ^ n))

def execSetp (h : Hd) (cc : ICc) (o : IBin) (s : State) : Res := s.pure1 h fun v =>
  [putFlag v o.d (iccHolds cc (tyVal o.ty (rawReg v o.ty o.a)) (tyVal o.ty (srcBits v o.ty o.b)))]

def execSel (h : Hd) (ty : IntTy) (d a b c : RegNo) (s : State) : Res := s.pure1 h fun v =>
  putTy v ty d (if getFlag v c then rawReg v ty a else rawReg v ty b)

def execPlog (h : Hd) (op : PlogOp) (pd pa pb : BitVec 3) (s : State) : Res := s.pure1 h fun v => match v with
  | .fib f => [.p pd.toNat (plogHolds op (f.pred pa.toNat) (f.pred pb.toNat))]
  | .cox _ => []

def execPopc (h : Hd) (o : BUn) (s : State) : Res := bitCount s h o fun a => popCount a (bwWidth o.bw)
def execClz (h : Hd) (o : BUn) (s : State) : Res := bitCount s h o fun a => leadZeros a (bwWidth o.bw)
def execCtz (h : Hd) (o : BUn) (s : State) : Res :=
  bitCount s h o fun a => trailZeros a (bwWidth o.bw) (bwWidth o.bw)
def execBrev (h : Hd) (o : BUn) (s : State) : Res := bitUn s h o fun a => bitRev a (bwWidth o.bw) (bwWidth o.bw)

/-- The position p′ and width n′ of R216. -/
def fieldSel (w : Nat) (c : W32) : Nat × Nat :=
  let p := Nat.min (bits c.toNat 7 0) w
  (p, Nat.min (bits c.toNat 15 8) (w - p))

/-- `bfe` (R216): the field sign-extended from its top bit under `.i`. -/
def execBfe (h : Hd) (o : IBin) (s : State) : Res := s.pure1 h fun v =>
  let (p, n) := fieldSel (tyWidth o.ty) (selBits v o.ty o.b)
  let x := rawReg v o.ty o.a / 2 ^ p % 2 ^ n
  let y : Int := if n ≠ 0 && tySigned o.ty && x.testBit (n - 1) then (x : Int) - 2 ^ n else x
  putTy v o.ty o.d (tyBitsOf o.ty y)

/-- `bfi` (R216): b with a field replaced by the low bits of a. -/
def execBfi (h : Hd) (o : ITri) (s : State) : Res := s.pure1 h fun v =>
  let (p, n) := fieldSel (tyWidth o.ty) (selBits v o.ty o.c)
  let b := rawReg v o.ty o.b
  let old := b / 2 ^ p % 2 ^ n
  putTy v o.ty o.d (b - old * 2 ^ p + rawReg v o.ty o.a % 2 ^ n * 2 ^ p)

def execMov (h : Hd) (ty : IntTy) (d : RegNo) (a : Src) (s : State) : Res := s.pure1 h fun v =>
  putTy v ty d (srcBits v ty a)

/-- d = EXT (Table 10-2). -/
def execMovx (h : Hd) (d : RegNo) (x : W64) (s : State) : Res := s.pure1 h fun v => v.w64 d x

end Sys2Proof.Machine
end

