-- ==== Sys2Proof/Machine/Kernel.lean ====
section
/-! DEFINITION. Kernels, majors 0xF3 and 0xF4 (R115–R135): the kernel record and `launch`, placement along the curve, the
completion of blocks and launches, the tile walker and the stages. -/

namespace Sys2Proof.Machine

open Sys2Proof

/-! ### The kernel record (R115) -/

/-- A field of n bytes at an offset, little-endian. -/
def fieldAt (x : List Byte) (o n : Nat) : Nat := leNat ((x.drop o).take n)

def krecOf (x : List Byte) : KRec where
  code := BitVec.ofNat 64 (fieldAt x 0 8)
  reltab := BitVec.ofNat 64 (fieldAt x 8 8)
  const := BitVec.ofNat 64 (fieldAt x 16 8)
  scratch := BitVec.ofNat 64 (fieldAt x 24 8)
  args := BitVec.ofNat 64 (fieldAt x 32 8)
  done := BitVec.ofNat 64 (fieldAt x 40 8)
  extent := BitVec.ofNat 32 (fieldAt x 48 4)
  csize := BitVec.ofNat 32 (fieldAt x 52 4)
  ssize := BitVec.ofNat 32 (fieldAt x 56 4)
  nfib := BitVec.ofNat 32 (fieldAt x 60 4)
  gx := BitVec.ofNat 32 (fieldAt x 64 4)
  gy := BitVec.ofNat 32 (fieldAt x 68 4)
  gz := BitVec.ofNat 16 (fieldAt x 72 2)
  w := BitVec.ofNat 16 (fieldAt x 74 2)
  nstage := BitVec.ofNat 8 (fieldAt x 76 1)
  nrel := BitVec.ofNat 8 (fieldAt x 77 1)
  curve := BitVec.ofNat 8 (fieldAt x 78 1)
  clusz := BitVec.ofNat 8 (fieldAt x 79 1)
  narg := BitVec.ofNat 8 (fieldAt x 80 1)
  gbar := BitVec.ofNat 8 (fieldAt x 81 1)
  depth := (x.drop 82).take 8
  resv := (x.drop 90).take 6
  entry := (List.range 8).map fun i => BitVec.ofNat 32 (fieldAt x (96 + 4 * i) 4)

/-- The stages that a kernel runs: a `.fibre` kernel runs one. -/
def KRec.stages (k : KRec) : Nat := Nat.max k.nstage.toNat 1

/-- The blocks of the grid. -/
def KRec.nblk (k : KRec) : Nat := k.gx.toNat * k.gy.toNat * k.gz.toNat

/-- The fields of Table 6-1 in ascending offset, with whether each is valid (log 48, DEDUCED). -/
def KRec.fields (k : KRec) : List (Nat × Bool) :=
  let mult := fun (n x : Nat) => x % n == 0
  let grid := fun (n : Nat) => decide (1 ≤ n) && decide (n ≤ 2 ^ 24)
  [(0, mult 32 k.code.toNat), (8, k.nrel == 0 || mult 4 k.reltab.toNat), (16, k.csize == 0 || mult 16 k.const.toNat),
   (24, k.ssize == 0 || mult 16 k.scratch.toNat), (32, k.narg == 0 || mult 8 k.args.toNat), (40, mult 32 k.done.toNat),
   (48, k.extent != 0 && mult 32 k.extent.toNat), (52, mult 16 k.csize.toNat && decide (k.csize.toNat ≤ 131072)),
   (56, mult 16 k.ssize.toNat && decide (k.ssize.toNat ≤ 786432)), (60, k.nfib != 0), (64, grid k.gx.toNat),
   (68, grid k.gy.toNat), (72, k.gz != 0), (74, mult 8 k.w.toNat && decide (8 ≤ k.w.toNat) && decide (k.w.toNat ≤ 256)),
   (76, decide (k.nstage.toNat ≤ 8)), (77, decide (k.nrel.toNat ≤ 8)),
   (78, let c := bits k.curve.toNat 3 0
        decide (c < 4) && bits k.curve.toNat 7 4 == 0 || c == 4),
   (79, decide (k.clusz.toNat ≤ 3)), (80, decide (k.narg.toNat ≤ 64)), (81, bits k.gbar.toNat 7 4 == 0)] ++
  (k.depth.zipIdx.map fun x => (82 + x.2, if x.2 < k.stages then decide (4 ≤ x.1.toNat) && decide (x.1.toNat ≤ 10) else x.1 == 0)) ++
  [(90, k.resv.all fun b => b == 0)] ++
  (k.entry.zipIdx.map fun x => (96 + 4 * x.2, if x.2 < k.stages then mult 4 x.1.toNat && decide (x.1.toNat < k.extent.toNat)
    else x.1 == 0xFFFFFFFF))

/-- The offset of the first invalid field (R117) (log 48, DEDUCED). -/
def KRec.invalid (k : KRec) : Option Nat := (k.fields.find? fun x => !x.2).map fun x => x.1

/-- The occupancy bound of R118. -/
def KRec.fits (k : KRec) : Bool := k.nfib.toNat ≤ 128 * Nat.min 64 (4096 / k.w.toNat)

/-! ### `launch` (R117, R119, R132) -/

/-- An address of the record as a global pointer: bits [63:56] are passed over (log 111, DESIGN CHOICE). -/
def globPtr (x : W64) : W64 := BitVec.ofNat 64 (bits x.toNat 55 0)

/-- Whether the grid barriers that a record names are free in a context. -/
def Ctx.gbarFree (c : Ctx) (k : KRec) : Bool := (List.range 4).all fun i =>
  !k.gbar.getLsbD i || ((c.gown[i]?).getD none).isNone

/-- Queues a launch: its number is taken, and its grid barriers are its own. -/
def State.queueLaunch (s : State) (n : Nat) (k : KRec) (args : List W64) : State × Nat :=
  let num := (s.ctx n).nextLaunch
  let own := fun (i : Nat) (g : Option Nat) => if k.gbar.getLsbD i then some num else g
  let bar := fun (i : Nat) (x : Barrier) => if k.gbar.getLsbD i then {} else x
  let c := fun (c : Ctx) => { c with
    nextLaunch := num + 1
    gown := c.gown.zipIdx.map fun x => own x.2 x.1
    gbars := c.gbars.zipIdx.map fun x => bar x.2 x.1 }
  ({ s.updCtx n c with launches := s.launches ++ [{ ctx := n, num := num, kr := k, args := args }] }, num)

/-- What checks 4 to 8 of R117 answer: a wait, a remote read or right to ask for, bad data, a status, or the launch to queue. -/
inductive LChk where
  | wait
  | need (b : Block) (dev va n : Nat)
  | right (b : Block) (dev va : Nat)
  | bad (f : Flt)
  | status (n : Nat)
  | ok (k : KRec) (args : List W64)
  deriving Repr

/-- Reading a range for a launch: an unreadable one gives status 5. -/
def gotL (b : Block) (g : Got) (f : List Byte → LChk) : LChk := match g with
  | .wait => .wait
  | .need dev va n => .need b dev va n
  | .bad f _ => if f.code = 0x11 then .bad f else .status 5
  | .ok x => f x

def State.launchChk (s : State) (b : Block) (n : Nat) (a : W64) : LChk :=
  if bits a.toNat 63 56 ≠ 0 || a.toNat % 64 ≠ 0 then .status 5
  else gotL b (s.getSpan b .cox (s.chkSpan b a 128 false)) fun x =>
    let k := krecOf x
    match k.invalid with
    | some o => .status (o * 256 + 4)
    | none =>
      if !k.fits then .status 4
      else if !(s.ctx n).gbarFree k then .status 6
      else
        let t := { b with ctx := n }
        gotL t (s.getSpan t .cox (s.chkSpan t (globPtr k.args) (8 * k.narg.toNat) false)) fun y =>
          let d := s.chkSpan t (globPtr k.done) 32 true
          let go := LChk.ok k ((List.range k.narg.toNat).map fun i => BitVec.ofNat 64 (fieldAt y (8 * i) 8))
          if spanWaits d then .wait
          else if (spanBad d).isSome then .status 5
          else match d with
          | [(_, _, .ok (.remote dev va) _)] =>
            (match (s.core b.core).rbuf.find? fun r => r.slot == b.slot && r.who == .cox && r.dev == dev && r.va == va && r.data.isEmpty with
            | none => .right t dev va
            | some r => if r.bad.isSome then .status 5 else go)
          | _ => go

/-- Launches of a context that are QUEUED or ACTIVE; one whose record is not written yet is still ACTIVE (R116, R120). -/
def State.heldLaunches (s : State) (n : Nat) : Nat := (s.launches.filter fun l => l.ctx == n).length

/-- The traffic of what a launch has read: its record, and its arguments in the target context (R252). -/
def State.launchTouch (s : State) (b : Block) (n : Nat) (a : W64) (k : KRec) : State :=
  let t := { b with ctx := n }
  (s.touch b .cox (s.chkSpan b a 128 false)).touch t .cox (s.chkSpan t (globPtr k.args) (8 * k.narg.toNat) false)

/-- `launch` (R117): its checks in order, then the launch is queued (log 47, DEDUCED). -/
def execLaunch (h : Hd) (wait : Bool) (d a b : RegNo) (s : State) : Res := match s.me with
  | none => .next s
  | some k =>
    let v := View.cox k.cox
    let y := v.r64 b
    let n := if y.getLsbD 6 then ctxNo y else k.ctx
    let give := fun (s : State) (x : Nat) => (Host.Outcome.next (s.commit h [(.cox, .ok [.s d.toNat (stWord x)])]) : Res)
    if !(s.readsDone k.core k.slot .cox && s.performed k.core k.slot .cox .sys) then .next s
    else if n ≠ k.ctx && !s.child k.ctx n then give s 2
    else if !((s.ctx n).st = .ready || (s.ctx n).st = .running) then give s 1
    else if 16 ≤ s.heldLaunches n then give s 3
    else match s.launchChk k n (v.r64 a) with
    | .wait => .next s
    | .need t dev va m => .next (s.askRead t .cox dev va m)
    | .right t dev va => .next (s.askRight t .cox dev va)
    | .bad f => .next (s.faultAll h 0 [.cox] f)
    | .status x => give s x
    | .ok kr args =>
      let r := (s.launchTouch k n (v.r64 a) kr).queueLaunch n kr args
      if wait then .next (r.1.issueLate h d (stWord (r.2 * 65536)) (.launch n r.2)) else give r.1 (r.2 * 65536)

/-! ### The curves (R122) -/

/-- hil(n, d) of R122. -/
def hil (n d : Nat) : Nat × Nat :=
  let step := fun (r : Nat × Nat × Nat × Nat) (_ : Nat) =>
    let (x, y, s, e) := r
    if n ≤ s then r
    else
      let rx := e / 2 % 2
      let ry := (e ^^^ rx) % 2
      let p := if ry = 0 then (if rx = 1 then (s - 1 - y, s - 1 - x) else (y, x)) else (x, y)
      (p.1 + s * rx, p.2 + s * ry, s * 2, e / 4)
  let r := (List.range 32).foldl step (0, 0, 1, d)
  (r.1, r.2.1)

/-- The Morton order: x takes the even bits of d, y the odd bits. -/
def morton (d : Nat) : Nat × Nat :=
  let pick := fun (o : Nat) => (List.range 32).foldl (fun n i => if d.testBit (2 * i + o) then n + 2 ^ i else n) 0
  (pick 0, pick 1)

/-- The least power of two that is at least n. -/
def side (n : Nat) : Nat := ((List.range 26).map fun m => 2 ^ m).find? (n ≤ ·) |>.getD (2 ^ 26)

/-- The p-th block of a layer when tiles of 2^t × 2^t blocks are taken in an order, row-major within a tile; what falls
outside the grid is skipped. -/
def tileWalk (order : Nat → Nat × Nat) (t gx gy : Nat) : Nat → Nat → Nat → Nat × Nat
  | 0, _, _ => (0, 0)
  | f + 1, d, p =>
    let (a, b) := order d
    let w := Nat.min (2 ^ t) (gx - a * 2 ^ t)
    let n := w * Nat.min (2 ^ t) (gy - b * 2 ^ t)
    if p < n then (a * 2 ^ t + p % w, b * 2 ^ t + p / w) else tileWalk order t gx gy f (d + 1) (p - n)

/-- The place in a layer of curve position p (Table 6-4). -/
def curveXY (curve gx gy p : Nat) : Nat × Nat :=
  let t := curve / 16 % 16
  let up := fun (n : Nat) => (n + 2 ^ t - 1) / 2 ^ t
  let n := side (Nat.max (up gx) (up gy))
  match curve % 16 with
  | 0 => (p % gx, p / gx)
  | 1 => (if p / gx % 2 = 0 then p % gx else gx - 1 - p % gx, p / gx)
  | 2 => tileWalk morton 0 gx gy (n * n) 0 p
  | _ => tileWalk (hil n) t gx gy (n * n) 0 p

/-- `%blk` of a curve position of the grid: layers in ascending z (R115, R122). -/
def KRec.blkAt (k : KRec) (pos : Nat) : Nat :=
  let gx := k.gx.toNat
  let gy := k.gy.toNat
  let layer := gx * gy
  let xy := curveXY k.curve.toNat gx gy (pos % layer)
  xy.1 + gx * (xy.2 + gy * (pos / layer))

/-! ### Placement (R52, R118, R123–R125) -/

/-- Launch fibres that R118 puts into a lane column of a partition. -/
def KRec.share (k : KRec) (part col : Nat) : Nat :=
  let rows := (k.nfib.toNat + 31 - col) / 32
  (rows + 3 - part) / 4

def upTo (n m : Nat) : Nat := (n + m - 1) / m * m

/-- Whether a core can take a block (R124, R235). -/
def State.canTake (s : State) (core : Nat) (k : KRec) : Bool :=
  let here := s.blocks.filter fun b => b.core == core
  let sum := fun (f : Block → Nat) => here.foldl (fun n b => n + f b) 0
  let cols := (List.range 4).all fun p => (List.range 32).all fun c =>
    let cells := fun (b : Block) => (b.fibres.filter fun f => f.win && f.part == p && f.col == c).length
    sum cells + k.share p c ≤ 64 && sum (fun b => cells b * b.kr.w.toNat) + k.share p c * k.w.toNat ≤ 4096
  here.length < 16 && sum (fun b => b.kr.csize.toNat) + k.csize.toNat ≤ 131072 &&
  sum (fun b => upTo b.kr.ssize.toNat 1536) + upTo k.ssize.toNat 1536 ≤ 786432 && cols

/-- The cores of a cluster that take the blocks of a group, if it fits there (R123, R125). -/
def State.clusterFor (s : State) (k : KRec) (n c : Nat) : Option (List Nat) :=
  if !s.dieUp (c / 4) then none
  else
    let cs := ((List.range 8).map fun i => 8 * c + i).filter fun i => s.canTake i k
    if n ≤ cs.length then some (cs.take n) else none

/-- The lines of images that have come from other devices, each with its device, offset and bytes. -/
abbrev FarLines := List (Nat × Nat × List Byte)

/-- What reading an image in the target context gives: its bytes as their homes hold them; a line of another device to ask for
(R399); or nothing while part of it cannot be read (log 17, DEDUCED). -/
inductive Img (α : Type) where
  | none
  | need (dev va n : Nat)
  | ok (x : α)

def Img.bind (x : Img α) (f : α → Img β) : Img β := match x with
  | .none => .none
  | .need d v n => .need d v n
  | .ok y => f y

def State.image? (s : State) (far : FarLines) (b : Block) (va : W64) (len : Nat) : Img (List Byte) :=
  (s.chkSpan b (globPtr va) len false).foldr (fun x acc => match x.2.2 with
    | .ok (.glob pa) _ => if s.bad pa x.2.1 || s.lineHeld b.ctx pa then .none else acc.bind fun r => .ok (s.mem.read pa x.2.1 ++ r)
    | .ok (.remote dev a) _ => (match far.find? fun y => y.1 == dev && y.2.1 == a && y.2.2.length == x.2.1 with
      | some y => acc.bind fun r => .ok (y.2.2 ++ r)
      | none => .need dev a x.2.1)
    | _ => .none) (.ok [])

/-- Records of a relation table (R50). -/
def State.relTable (s : State) (far : FarLines) (b : Block) : Nat → W64 → Img (List Relation)
  | 0, _ => .ok []
  | n + 1, va => (s.image? far b va 8).bind fun x =>
      let ncl := fieldAt x 6 1
      (s.image? far b (va + 8) (4 * ncl)).bind fun cs => (s.relTable far b n (va + BitVec.ofNat 64 (8 + 4 * ncl))).bind fun r =>
        let ref := fun (o : Nat) => if fieldAt x o 1 = 0xFF then none else some (fieldAt x o 1)
        let word := fun (i : Nat) => fieldAt cs (4 * i) 4
        let clause := fun (i : Nat) => ({
          kind := BitVec.ofNat 8 (bits (word i) 31 24), vd := BitVec.ofNat 8 (bits (word i) 23 16)
          arg := BitVec.ofNat 8 (bits (word i) 15 8) } : Clause)
        .ok ({ left := ref 4, right := ref 5, clauses := (List.range ncl).map clause } :: r)

/-- The launch fibres of a block (R118). -/
def KRec.fibres (k : KRec) : List Fibre := (List.range k.nfib.toNat).map fun f =>
  { fid := f, life := .ungrouped, stage := 0, part := f / 32 % 4, col := f % 32, fslot := f
    pc := label ((k.entry[0]?).getD 0), regs := List.replicate k.w.toNat 0 }

/-- A block of a launch on a core, before its images and relations are in place. -/
def Launch.block (l : Launch) (core slot blk group : Nat) : Block where
  core := core
  slot := slot
  ctx := l.ctx
  launch := l.num
  blk := BitVec.ofNat 64 blk
  nblk := BitVec.ofNat 64 l.kr.nblk
  group := group
  kr := l.kr
  rels := []
  cox := { s := (l.args ++ List.replicate 64 0).take 64 }
  fibres := l.kr.fibres
  nextFid := l.kr.nfib.toNat
  stageQ := List.replicate l.kr.stages []
  stageRR := List.replicate l.kr.stages 15
  stgres := List.replicate l.kr.stages 1
  scratch := []
  const := []

/-- The traffic of what a placed block has read (R252). -/
def State.imageTouch (s : State) (b : Block) : State :=
  let table := b.rels.foldl (fun n r => n + 8 + 4 * r.clauses.length) 0
  let one := fun (s : State) (x : W64 × Nat) => (s.chkSpan b (globPtr x.1) x.2 false).foldl (fun (s : State) y => match y.2.2 with
    | .ok (.glob pa) _ => s.chargeLine b.ctx pa
    | _ => s) s
  [(b.kr.reltab, table), (b.kr.const, b.kr.csize.toNat), (b.kr.scratch, b.kr.ssize.toNat)].foldl one s

/-- The windows of a block's launch fibres take their places, one after another (R11). -/
def State.placeFibres (s : State) (b : Block) : Block :=
  let put := fun (fs : List Fibre) (f : Fibre) =>
    fs ++ [{ f with wbase := ({ s with blocks := s.blocks ++ [{ b with fibres := fs }] } : State).freeBase b.core f.part f.col b.kr.w.toNat }]
  { b with fibres := b.fibres.foldl put [] }

/-- Puts the images and the relation table of a block in place (R52, R235, R238). -/
def State.imaged (s : State) (far : FarLines) (b : Block) : Img Block :=
  let put := fun (x : List Byte) => Mem.write [] 0 x
  (s.relTable far b b.kr.nrel.toNat b.kr.reltab).bind fun r => (s.image? far b b.kr.const b.kr.csize.toNat).bind fun c =>
    (s.image? far b b.kr.scratch b.kr.ssize.toNat).bind fun x => .ok { b with rels := r, const := put c, scratch := put x }

/-- The lowest free block slot of a core (log 49, DEDUCED). -/
def State.freeSlot (s : State) (core : Nat) : Nat := ((List.range 16).find? fun n => (s.block? core n).isNone).getD 0

/-- A block comes to its core: the core's old copies go, so that it sees what its launch released, and the core wakes
(R109, R119) (log 49, DEDUCED). -/
def State.seat (s : State) (b : Block) : State :=
  let s1 := ({ s with blocks := s.blocks ++ [b] }).discardL1 b.core
  (s1.updCore b.core fun c => { c with icache := c.icache.filter fun e => e.1 != b.ctx }).rouse b.core 7 0

/-- Places the blocks of a group on their cores, all or none. -/
def State.placeAll (s : State) (l : Launch) (group : Nat) : List (Nat × Nat) → Img State
  | [] => .ok s
  | (core, pos) :: r => (s.imaged l.far (l.block core (s.freeSlot core) (l.kr.blkAt pos) group)).bind fun b =>
      ((s.imageTouch b).seat (s.placeFibres b)).placeAll l group r

/-- Asks for a line of an image on another device, one at a time (R399). -/
def State.askImage (s : State) (l : Launch) (dev va n : Nat) : State :=
  if s.outstanding.any fun o => o.image && o.ctx == l.ctx && o.lane == l.num then s
  else
    let o : Outstanding :=
      { ldie := 0, tag := 0, dev := dev, va := va, ctx := l.ctx, core := 0, slot := 16, issue := 0, pc := 0
        parties := [], lane := l.num, op := .read n, image := true }
    (s.ask o).getD s

/-- The curve positions of a launch's next group (R123). -/
def Launch.positions (l : Launch) : List Nat :=
  let g := 2 ^ l.kr.clusz.toNat
  (List.range (Nat.min g (l.kr.nblk - l.next * g))).map fun i => l.next * g + i

/-- A launch with a group to place whose target runs. -/
def State.placeable (s : State) (l : Launch) : Bool :=
  (l.st = .queued || l.st = .active) && (s.ctx l.ctx).st = .running && !l.positions.isEmpty

/-- The launch that a turn takes: the highest priority, then the order of issue (R99, R125) (log 49, DEDUCED). -/
def State.nextLaunch (s : State) : Option Launch :=
  leastBy (fun l => 15 - (s.ctx l.ctx).prio.toNat) (s.launches.filter s.placeable)

/-- One placement turn (R125) (log 17, DEDUCED). -/
def execPlacementTurn (s : State) : Res := match s.nextLaunch with
  | none => .next s
  | some l =>
    let ps := l.positions
    let order := (List.range 16).map fun i => (s.placePtr + 1 + i) % 16
    match order.findSome? fun c => (s.clusterFor l.kr ps.length c).map fun cs => (c, cs) with
    | none => .next s
    | some (c, cs) =>
      let id := s.nextId
      let g : CGroup := { id := id, ctx := l.ctx, launch := l.num, n := ps.length }
      match ({ s with nextId := id + 1, groups := s.groups ++ [g] }).placeAll l id (cs.zip ps) with
      | .none => .next s
      | .need dev va n => .next (s.askImage l dev va n)
      | .ok t => .next ({ t with placePtr := c }.updLaunch l.ctx l.num fun l => { l with st := .active, next := l.next + 1, far := [] })

/-! ### Completion (R116, R120, R121, R181) -/

/-- The conditions of R121. -/
def State.blockDone (s : State) (b : Block) : Bool :=
  let c := s.core b.core
  let mine := fun (core slot : Nat) => core == b.core && slot == b.slot
  b.cox.ended && b.fibres.isEmpty && b.stageQ.all (fun q => q.isEmpty) &&
  !(s.cmds.any fun x => mine x.core x.slot && x.result.isNone) && !(s.copies.any fun x => mine x.core x.slot) &&
  !(s.colls.any fun x => mine x.core x.slot) && !(s.pends.any fun x => mine x.core x.slot) &&
  !(s.outstanding.any fun o => o.core == b.core && o.inSlot b.slot) && !(s.stops.any fun o => mine o.core o.slot) &&
  !((s.ctx b.ctx).eddy.any fun e => e.cmds.any fun x => mine x.core x.slot) &&
  !(c.paths.any fun e => e.slot == b.slot) && !(c.outb.any fun o => o.inSlot b.slot) &&
  !(c.coll.any fun e => e.wreqs.any fun o => o.inSlot b.slot) && !(c.bank.arrivals.any fun a => a.slot == b.slot)

/-- Invalidates barriers of one level. -/
def State.invalidateAll (s : State) (b : Block) (lvl : Nat) (ns : List Nat) : State :=
  ns.foldl (fun s n => s.invalidate b lvl n) s

/-- The barriers that a block's completion invalidates: the cluster's at the first block of its group, the grid's at the
first block of its launch (R181) (log 51, DEDUCED). -/
def State.endBars (s : State) (b : Block) (l : Launch) : State :=
  let peers := (s.blocks.filter fun q => q.group == b.group).length
  let first : Bool := match s.group? b.group with
    | some g => peers == g.n
    | none => false
  let own := (List.range 4).filter fun i => (((s.ctx b.ctx).gown[i]?).getD none) == some l.num
  let s1 := if first then s.invalidateAll b 1 (List.range 8) else s
  if l.ndone = 0 then s1.invalidateAll b 2 own else s1

/-- A block completes: its resources are released and its launch counts it; the last block ends the launch. -/
def execBlockComplete (core slot : Nat) (s : State) : Res := match s.block? core slot with
  | none => .next s
  | some b => match s.launch? b.ctx b.launch with
    | none => .next s
    | some l =>
      if !s.blockDone b || (s.ctx b.ctx).st = .killing then .next s
      else
        let s1 := (s.endBars b l).freeBlock core slot
        let s2 := { s1 with groups := s1.groups.filter fun g => g.id != b.group || s1.blocks.any fun q => q.group == b.group }
        .next (s2.updLaunch b.ctx b.launch fun l =>
          { l with ndone := l.ndone + 1, st := if l.ndone + 1 = l.kr.nblk then .finishing 1 else l.st })

/-- The completion record of a launch is written, at home or on the device that holds DONE (R116) (log 50, DEDUCED). -/
def execCompletionRecordWrite (ctx num : Nat) (s : State) : Res := match s.launch? ctx num with
  | none => .next s
  | some l => match l.st with
    | .finishing st =>
      let va := bits l.kr.done.toNat 55 0
      let dev := bits va 51 42
      let w0 := recordWord num st.toNat
      let w1 := BitVec.ofNat 64 l.ndone
      let here := fun (va : Nat) => (match s.xl 0 ctx va .write false with
        | .wait => .next s
        | .fault i => .next (s.parkRecord ctx num va i)
        | .ok pa =>
          if s.lineHeld ctx pa then .next s
          else .next (((s.chargeWrite ctx pa [(pa, 0)]).putRecord pa w0 w1).endLaunch ctx num) : Res)
      if l.parked || (s.ctx ctx).st = .killing || s.blocks.any (fun b => b.ctx == ctx && b.launch == num) then .next s
      else if !isRemote va then here va
      else if dev = s.devNum.toNat then here (bits va 41 0)
      else if 512 ≤ dev || s.lostDevs.contains dev then .next (s.parkRecord ctx num va 1)
      else if s.outstanding.any (fun o => o.ctx == ctx && o.lane == num && o.op == .record w0 w1) then .next s
      else
        let o : Outstanding :=
          { ldie := 0, tag := 0, dev := dev, va := bits va 41 0, ctx := ctx, core := 0, slot := 16, issue := 0, pc := 0
            parties := [], lane := num, op := .record w0 w1 }
        .next ((s.ask o).getD s)
    | _ => .next s

/-! ### The tile walker (R129, R133) -/

def execWalkInit (h : Hd) (a b c : RegNo) (s : State) : Res := match s.me with
  | none => .next s
  | some k =>
    let v := View.cox k.cox
    let x := (v.r64 a).toNat
    let w : Walker := { n0 := bits x 19 0, n1 := bits x 39 20, n2 := bits x 59 40, hint := v.r64 b, hsh := (v.r64 c).extractLsb' 0 6 }
    .next ((s.updMe fun b => { b with walker := w }).skip h)

/-- The x-th number that is not among those gone, which are listed in rising order. -/
def nthLeft (gone : List Nat) (x : Nat) : Nat := gone.foldl (fun x g => if g ≤ x then x + 1 else x) x

/-- The tile of a linear number. -/
def Walker.tile (w : Walker) (t : Nat) : W64 :=
  BitVec.ofNat 64 (t % w.n0 + t / w.n0 % w.n1 * 2 ^ 20 + t / w.n0 / w.n1 * 2 ^ 40)

/-- `walk.next`: any tile that has not been returned, as the free choice picks it. -/
def execWalkNext (h : Hd) (d : RegNo) (s : State) : Res := match s.me with
  | none => .next s
  | some k =>
    let w := k.walker
    let left := w.n0 * w.n1 * w.n2 - w.gone.length
    if left = 0 then .next (s.commit h [(.cox, .ok [.s d.toNat 0x8000000000000000])])
    else
      let t := nthLeft w.gone (Config.pick s.tick % left)
      let s1 := s.updMe fun b => { b with walker := { b.walker with gone := insertBy id t b.walker.gone } }
      .next (s1.commit h [(.cox, .ok [.s d.toNat (w.tile t)])])

/-! ### Stages and the end of the cox thread (R134, R135) -/

/-- The group records that a stage holds, over all partitions. -/
def Block.stageRecords (b : Block) (st : Nat) : Nat :=
  (b.parts.filter fun p => p.stage == st).length +
  ((b.regroups.filter fun r => r.stage == st).foldl (fun n r => n + r.records) 0) +
  (b.emits.filter fun e => e.stage == st && e.held).length

/-- `stgq`: 65,536 live fibres do not fit the field, so that what it then reads is free (R134) (log 113, DESIGN CHOICE). -/
def execStgq (h : Hd) (d : RegNo) (st : BitVec 3) (s : State) : Res := match s.me with
  | none => .next s
  | some b =>
    let n := st.toNat
    let x := if b.kr.stages ≤ n then 0
      else
        let live := (b.fibres.filter fun f => f.stage == n).length
        ((b.stageQ[n]?).getD []).length + (if live < 65536 then live else Config.pick s.tick % 65536) * 2 ^ 16 + b.stageRecords n * 2 ^ 32
    .next (s.commit h [(.cox, .ok [.s d.toNat (BitVec.ofNat 64 x)])])

def execStgres (h : Hd) (a : RegNo) (st : BitVec 3) (s : State) : Res := match s.me with
  | none => .next s
  | some b =>
    let v := bits ((View.cox b.cox).r64 a).toNat 3 0
    let s1 := if b.kr.stages ≤ st.toNat then s else s.updMe fun b => { b with stgres := b.stgres.set st.toNat (Nat.min v 8) }
    .next (s1.skip h)

/-- `kend` ends the cox thread; what its queues hold stays (R135). -/
def execKend (h : Hd) (s : State) : Res :=
  .next ((s.account h false).updMe fun b => b.updCox fun c => { c with ended := true })

end Sys2Proof.Machine
end

