-- ==== Sys2Proof/Machine/Manage.lean ====
section
/-! DEFINITION. Bring-up, power and management (R418–R428), and the loss of a die (R379). -/

namespace Sys2Proof.Machine

open Sys2Proof

/-! ### Stages (R418–R423) -/

/-- Ultra Ethernet port 0, which carries the management address (R422). -/
def port0 : Nat := 18

/-- Power-on, a reset, or the power cycle that ends HALTED: everything starts again in stage 0, and port 0 comes up. What
the device has sent stays sent (log 13, DESIGN CHOICE). -/
def execPowerOnReset (s : State) : Res :=
  .next ({ State.reset with tick := s.tick, agenda := s.agenda, nextId := s.nextId, sent := s.sent }.updPort port0
    fun p => { p with st := .up })

/-- MGSTAT.ERR of an image (R421, Table 24-4): it is malformed, or one of its signatures does not verify, for which a key counts too whose
digest is not the fused one (log 6, DESIGN CHOICE). -/
def imageErr (x : List Byte) : Byte :=
  if !Config.imageWellFormed x then 3
  else if !(sha384 (Config.rsaKey x) == Config.fusedRsa && Config.rsaVerifies (Config.rsaKey x) x) then 1
  else if !(sha384 (Config.slhKey x) == Config.fusedSlh && Config.slhVerifies (Config.slhKey x) x) then 2
  else 0

/-- Context 0, which firmware creates: privileged, with no supervisor, and running firmware (R97, log 4, DESIGN CHOICE). -/
def ctx0 : Ctx := { st := .running, priv := true }

/-- Entry to stage 1: C-die 0's memory reads zero and its sequence counters are 0 (R423) (log 53, DEDUCED). -/
def State.enterStage1 (s : State) (image : List Byte) : State :=
  { s.updCtx 0 (fun _ => ctx0) with
    stage := .stage1, mgErr := 0, image := image, mem := [], seq := [], poison := [], placePtr := 15 }

def execFirmwareImageRead (image : List Byte) (s : State) : Res :=
  if s.stage ≠ .stage0 then .next s
  else if imageErr image ≠ 0 then .next { s with mgErr := imageErr image }
  else .next (s.enterStage1 image)

/-- Whether C-die d and its three stacks passed training. -/
def trained (dies : BitVec 4) (stk : BitVec 12) (d : Nat) : Bool :=
  dies.getLsbD d && stk.getLsbD (3 * d) && stk.getLsbD (3 * d + 1) && stk.getLsbD (3 * d + 2)

/-- MISS: a bit for each C-die out of service. -/
def missOf (dies : BitVec 4) (stk : BitVec 12) : BitVec 4 :=
  BitVec.ofNat 4 ((List.range 4).foldl (fun n d => if trained dies stk d then n else n + 2 ^ d) 0)

/-- Memory that stage 1 had in service keeps its contents; the rest comes up zero (R423) (log 53, DEDUCED). -/
def stage1Mem (pa : Nat) : Bool := !pa.testBit 45 && homeDie pa == 0

/-- Entry to stage 2, in full or degraded service (R420) (log 53, DEDUCED). -/
def State.enterStage2 (s : State) (miss : BitVec 4) (lmiss : Bool) : State :=
  let s1 := { s with
    stage := .stage2, miss := miss, lmiss := lmiss, placePtr := 15
    mem := s.mem.filter fun c => stage1Mem c.1
    seq := s.seq.filter fun c => stage1Mem (c.1 * 128)
    poison := s.poison.filter fun w => stage1Mem (w * 8)
    cdies := s.cdies.map fun (d : CDie) => if d.hot then d else { d with mhz := 1800 } }
  (List.range 26).foldl (fun s n => if s.portServes n && (s.port n).st = .down then s.trainPort n else s) s1

/-- Training ends (Table 24-1); the bits tell what passed. -/
def execTrainingComplete (dies : BitVec 4) (stk : BitVec 12) (ldies : BitVec 2) (s : State) : Res :=
  if s.stage ≠ .stage1 || s.mgErr = 4 then .next s
  else if trained dies stk 0 && ldies.getLsbD 0 then .next (s.enterStage2 (missOf dies stk) (!ldies.getLsbD 1))
  else .next { s with mgErr := 4, miss := missOf dies stk, lmiss := !ldies.getLsbD 1 }

/-- An attestation challenge is answered in every state (R422) (log 6, DESIGN CHOICE). -/
def execAttestationChallenge (nonce : List Byte) (s : State) : Res :=
  if nonce.length ≠ 32 then .next s
  else
    let dg := sha384 s.image
    let body := nonce ++ dg ++ leBytes 8 s.mgstat.toNat ++ Config.identity
    .next { s with sent := s.sent ++
      [.attestation nonce dg s.mgstat Config.identity (Config.signRsa body) (Config.signSlh body)] }

/-! ### Power and temperature (R418, R425) -/

/-- The junction of a C-die in °C. -/
def State.junction (s : State) (die : Nat) : Nat := (byteAt s.mgTemp die).toNat

/-- A junction at 115 °C on any die halts the device; an L-die's junction has no register (log 52, DEDUCED). -/
def execThermalTrip (die : Nat) (s : State) : Res :=
  if (s.stage = .stage1 || s.stage = .stage2) && (4 ≤ die || 115 ≤ s.junction die) then
    .next { s with stage := .halted, mgTrip := true }
  else .next s

/-- The clock of a C-die with no limit on it (R418, R419). -/
def State.fullMhz (s : State) : Nat := if s.stage = .stage2 then 1800 else 900

/-- At 105 °C a die drops to 0.6 GHz. -/
def execThermalThrottle (die : Nat) (s : State) : Res :=
  if 105 ≤ s.junction die then .next (s.updDie die fun d => { d with hot := true, mhz := 600 }) else .next s

/-- A die that has cooled to 100 °C leaves that limit (log 52, DEDUCED). -/
def execThermalRecover (die : Nat) (s : State) : Res :=
  let full := s.fullMhz
  if (s.cdie die).hot && s.junction die ≤ 100 then .next (s.updDie die fun d => { d with hot := false, mhz := full }) else .next s

/-- A clock that the power limit may set: steps of 50 MHz down from the full clock, to 0.6 GHz. -/
def clockOk (full m : Nat) : Bool := 600 ≤ m && m ≤ full && (full - m) % 50 == 0

/-- At the end of a 1 ms window the device chooses the clocks of its dies; a hot die stays at 0.6 GHz. -/
def execPowerLimitWindow (mhz : List Nat) (s : State) : Res :=
  let full := s.fullMhz
  let set' := fun (x : CDie × Nat) => match mhz[x.2]? with
    | some m => if clockOk full m && !x.1.hot then { x.1 with mhz := m } else x.1
    | none => x.1
  .next { s with cdies := s.cdies.zipIdx.map set' }

/-! ### What writes to the management page do (R426–R428) -/

def execMgpwrWrite (v : W64) (s : State) : Res := .next (s.setMgPwr v)
def execMgpinWrite (die : Nat) (v : W64) (s : State) : Res := .next (s.setMgPin die v)
def execMgpopWrite (s : State) : Res := .next s.mgPop
/-- A write to a read-only or reserved register, or of another size, changes nothing. -/
def execManagementWriteOther (off : Nat) (s : State) : Res :=
  let _ := off
  .next s

/-! ### The loss of a die (R379) -/

/-- Whether a slot uses a C-die of this device: the dies 0 to 2^GE − 1 (R380). -/
def EdSlot.onDie (e : EdSlot) (die : Nat) : Bool := die < 2 ^ e.ge

/-- A die is lost: the Eddy slots that use it break, and the supervisor of each context receives event 0x10
(log 55, DEDUCED). -/
def execDieLost (die : Nat) (s : State) : Res :=
  let uses := fun (e : EdSlot) => e.onDie die
  .next ((s.edUsers uses).foldl (fun (s : State) x => s.postEvent x 0x10 (BitVec.ofNat 16 (die % 4))) (s.edLose uses))

end Sys2Proof.Machine
end

