-- ==== Sys2Proof/Machine/Dispatch.lean ====
section
/-! DEFINITION. The meaning of each instruction and event, one direct call per constructor. -/

namespace Sys2Proof.Machine

open Sys2Proof

/-- The effect of an instruction on the running issue, and of an event on the device. -/
def exec (i : Instr) (s : State) : Host.Outcome State Fault Refusal :=
  match i with
  | .nop h => Sys2Proof.Machine.execNop h s
  | .nopW12 h => Sys2Proof.Machine.execNopW12 h s
  | .nopW16 h => Sys2Proof.Machine.execNopW16 h s
  | .bra h t => Sys2Proof.Machine.execBra h t s
  | .braZ h a t => Sys2Proof.Machine.execBraZ h a t s
  | .braNz h a t => Sys2Proof.Machine.execBraNz h a t s
  | .braAny h pa t => Sys2Proof.Machine.execBraAny h pa t s
  | .braAll h pa t => Sys2Proof.Machine.execBraAll h pa t s
  | .call h d t => Sys2Proof.Machine.execCall h d t s
  | .callR h d a => Sys2Proof.Machine.execCallR h d a s
  | .ret h a => Sys2Proof.Machine.execRet h a s
  | .brx h a n t => Sys2Proof.Machine.execBrx h a n t s
  | .spawn h d a n t => Sys2Proof.Machine.execSpawn h d a n t s
  | .exit h => Sys2Proof.Machine.execExit h s
  | .kill h d a => Sys2Proof.Machine.execKill h d a s
  | .renter h rel => Sys2Proof.Machine.execRenter h rel s
  | .rleave h rel => Sys2Proof.Machine.execRleave h rel s
  | .rjoin h res t => Sys2Proof.Machine.execRjoin h res t s
  | .rfold h rel => Sys2Proof.Machine.execRfold h rel s
  | .matchAny h b64 d a => Sys2Proof.Machine.execMatchAny h b64 d a s
  | .matchAll h b64 pd a => Sys2Proof.Machine.execMatchAll h b64 pd a s
  | .rprobe h d a rel => Sys2Proof.Machine.execRprobe h d a rel s
  | .compact h t => Sys2Proof.Machine.execCompact h t s
  | .regroup h t => Sys2Proof.Machine.execRegroup h t s
  | .regroupKey h b64 a t => Sys2Proof.Machine.execRegroupKey h b64 a t s
  | .add h o => Sys2Proof.Machine.execAdd h o s
  | .sub h o => Sys2Proof.Machine.execSub h o s
  | .neg h o => Sys2Proof.Machine.execNeg h o s
  | .abs h o => Sys2Proof.Machine.execAbs h o s
  | .min h o => Sys2Proof.Machine.execMin h o s
  | .max h o => Sys2Proof.Machine.execMax h o s
  | .mul h o => Sys2Proof.Machine.execMul h o s
  | .mulhi h o => Sys2Proof.Machine.execMulhi h o s
  | .mulwide h o => Sys2Proof.Machine.execMulwide h o s
  | .mad h o => Sys2Proof.Machine.execMad h o s
  | .div h o => Sys2Proof.Machine.execDiv h o s
  | .rem h o => Sys2Proof.Machine.execRem h o s
  | .and h o => Sys2Proof.Machine.execAnd h o s
  | .or h o => Sys2Proof.Machine.execOr h o s
  | .xor h o => Sys2Proof.Machine.execXor h o s
  | .not h o => Sys2Proof.Machine.execNot h o s
  | .andn h o => Sys2Proof.Machine.execAndn h o s
  | .shl h o => Sys2Proof.Machine.execShl h o s
  | .shr h o => Sys2Proof.Machine.execShr h o s
  | .setp h cc o => Sys2Proof.Machine.execSetp h cc o s
  | .sel h ty d a b c => Sys2Proof.Machine.execSel h ty d a b c s
  | .plog h op pd pa pb => Sys2Proof.Machine.execPlog h op pd pa pb s
  | .popc h o => Sys2Proof.Machine.execPopc h o s
  | .clz h o => Sys2Proof.Machine.execClz h o s
  | .ctz h o => Sys2Proof.Machine.execCtz h o s
  | .brev h o => Sys2Proof.Machine.execBrev h o s
  | .bfe h o => Sys2Proof.Machine.execBfe h o s
  | .bfi h o => Sys2Proof.Machine.execBfi h o s
  | .mov h ty d a => Sys2Proof.Machine.execMov h ty d a s
  | .movx h d v => Sys2Proof.Machine.execMovx h d v s
  | .addF32 h o => Sys2Proof.Machine.execAddF32 h o s
  | .subF32 h o => Sys2Proof.Machine.execSubF32 h o s
  | .mulF32 h o => Sys2Proof.Machine.execMulF32 h o s
  | .fmaF32 h o c => Sys2Proof.Machine.execFmaF32 h o c s
  | .addF16 h o => Sys2Proof.Machine.execAddF16 h o s
  | .subF16 h o => Sys2Proof.Machine.execSubF16 h o s
  | .mulF16 h o => Sys2Proof.Machine.execMulF16 h o s
  | .fmaF16 h o c => Sys2Proof.Machine.execFmaF16 h o c s
  | .minF32 h num d a b => Sys2Proof.Machine.execMinF32 h num d a b s
  | .maxF32 h num d a b => Sys2Proof.Machine.execMaxF32 h num d a b s
  | .setpF32 h cc pd a b => Sys2Proof.Machine.execSetpF32 h cc pd a b s
  | .classF32 h d a => Sys2Proof.Machine.execClassF32 h d a s
  | .divF32 h o => Sys2Proof.Machine.execDivF32 h o s
  | .sqrtF32 h o => Sys2Proof.Machine.execSqrtF32 h o s
  | .rcpF32 h o => Sys2Proof.Machine.execRcpF32 h o s
  | .rsqrtF32 h o => Sys2Proof.Machine.execRsqrtF32 h o s
  | .caddC64 h o => Sys2Proof.Machine.execCaddC64 h o s
  | .cmulC64 h o => Sys2Proof.Machine.execCmulC64 h o s
  | .cfmaC64 h o c => Sys2Proof.Machine.execCfmaC64 h o c s
  | .cvt h rnd sat el dt st d a => Sys2Proof.Machine.execCvt h rnd sat el dt st d a s
  | .prmt h d a b c => Sys2Proof.Machine.execPrmt h d a b c s
  | .packF16 h ty rnd d a b => Sys2Proof.Machine.execPackF16 h ty rnd d a b s
  | .packF8 h ty sat rnd d a b => Sys2Proof.Machine.execPackF8 h ty sat rnd d a b s
  | .unpack h ty d a => Sys2Proof.Machine.execUnpack h ty d a s
  | .mxq h ty d a => Sys2Proof.Machine.execMxq h ty d a s
  | .mxw h ty d a b => Sys2Proof.Machine.execMxw h ty d a b s
  | .shflIdx h b64 d a b => Sys2Proof.Machine.execShflIdx h b64 d a b s
  | .shflUp h b64 d a b => Sys2Proof.Machine.execShflUp h b64 d a b s
  | .shflDown h b64 d a b => Sys2Proof.Machine.execShflDown h b64 d a b s
  | .shflXor h b64 d a b => Sys2Proof.Machine.execShflXor h b64 d a b s
  | .red h op d a => Sys2Proof.Machine.execRed h op d a s
  | .scan h op d a => Sys2Proof.Machine.execScan h op d a s
  | .scanx h op d a => Sys2Proof.Machine.execScanx h op d a s
  | .qxH h b64 d a => Sys2Proof.Machine.execQxH h b64 d a s
  | .qxV h b64 d a => Sys2Proof.Machine.execQxV h b64 d a s
  | .qxD h b64 d a => Sys2Proof.Machine.execQxD h b64 d a s
  | .qbc h b64 d a j => Sys2Proof.Machine.execQbc h b64 d a j s
  | .ballot h d pa => Sys2Proof.Machine.execBallot h d pa s
  | .pfxpop h d pa => Sys2Proof.Machine.execPfxpop h d pa s
  | .conf h b64 d a => Sys2Proof.Machine.execConf h b64 d a s
  | .confFirst h b64 pd a => Sys2Proof.Machine.execConfFirst h b64 pd a s
  | .bpcnt h d a b k => Sys2Proof.Machine.execBpcnt h d a b k s
  | .bpmatch h d a b k => Sys2Proof.Machine.execBpmatch h d a b k s
  | .mvWt h o => Sys2Proof.Machine.execMvWt h o s
  | .ld h acq sz d a disp => Sys2Proof.Machine.execLd h acq sz d a disp s
  | .st h rel sz a b disp => Sys2Proof.Machine.execSt h rel sz a b disp s
  | .stTag h rel sz d a b disp => Sys2Proof.Machine.execStTag h rel sz d a b disp s
  | .ldc h sz d a disp => Sys2Proof.Machine.execLdc h sz d a disp s
  | .cpa h o t a b c => Sys2Proof.Machine.execCpa h o t a b c s
  | .cpaReg h o t a b c n1 => Sys2Proof.Machine.execCpaReg h o t a b c n1 s
  | .gth h o => Sys2Proof.Machine.execGth h o s
  | .sct h o => Sys2Proof.Machine.execSct h o s
  | .gthx h o => Sys2Proof.Machine.execGthx h o s
  | .sctx h o => Sys2Proof.Machine.execSctx h o s
  | .cst h b64 pc d a b disp => Sys2Proof.Machine.execCst h b64 pc d a b disp s
  | .embpool h d a b c k1 => Sys2Proof.Machine.execEmbpool h d a b c k1 s
  | .embsw h scope d a b => Sys2Proof.Machine.execEmbsw h scope d a b s
  | .atomAdd h o => Sys2Proof.Machine.execAtomAdd h o s
  | .atomMin h o => Sys2Proof.Machine.execAtomMin h o s
  | .atomMax h o => Sys2Proof.Machine.execAtomMax h o s
  | .atomAnd h o => Sys2Proof.Machine.execAtomAnd h o s
  | .atomOr h o => Sys2Proof.Machine.execAtomOr h o s
  | .atomXor h o => Sys2Proof.Machine.execAtomXor h o s
  | .atomExch h o => Sys2Proof.Machine.execAtomExch h o s
  | .atomCas h o => Sys2Proof.Machine.execAtomCas h o s
  | .atomAddF32 h o => Sys2Proof.Machine.execAtomAddF32 h o s
  | .atomMinF32 h o => Sys2Proof.Machine.execAtomMinF32 h o s
  | .atomMaxF32 h o => Sys2Proof.Machine.execAtomMaxF32 h o s
  | .mredAdd h ty o a b disp => Sys2Proof.Machine.execMredAdd h ty o a b disp s
  | .mredMin h ty o a b disp => Sys2Proof.Machine.execMredMin h ty o a b disp s
  | .mredMax h ty o a b disp => Sys2Proof.Machine.execMredMax h ty o a b disp s
  | .mredAnd h ty o a b disp => Sys2Proof.Machine.execMredAnd h ty o a b disp s
  | .mredOr h ty o a b disp => Sys2Proof.Machine.execMredOr h ty o a b disp s
  | .mredXor h ty o a b disp => Sys2Proof.Machine.execMredXor h ty o a b disp s
  | .mredAddF32 h o a b disp => Sys2Proof.Machine.execMredAddF32 h o a b disp s
  | .mredMinF32 h num o a b disp => Sys2Proof.Machine.execMredMinF32 h num o a b disp s
  | .mredMaxF32 h num o a b disp => Sys2Proof.Machine.execMredMaxF32 h num o a b disp s
  | .fenceRel h scope => Sys2Proof.Machine.execFenceRel h scope s
  | .fenceAcq h scope => Sys2Proof.Machine.execFenceAcq h scope s
  | .fenceSc h scope => Sys2Proof.Machine.execFenceSc h scope s
  | .fenceAck h => Sys2Proof.Machine.execFenceAck h s
  | .fenceEng h scope => Sys2Proof.Machine.execFenceEng h scope s
  | .barSync h rlx d b c => Sys2Proof.Machine.execBarSync h rlx d b c s
  | .barArrive h rlx d b c => Sys2Proof.Machine.execBarArrive h rlx d b c s
  | .barWait h rlx d a b => Sys2Proof.Machine.execBarWait h rlx d a b s
  | .cbarSync h rlx d b c => Sys2Proof.Machine.execCbarSync h rlx d b c s
  | .cbarArrive h rlx d b c => Sys2Proof.Machine.execCbarArrive h rlx d b c s
  | .cbarWait h rlx d a b => Sys2Proof.Machine.execCbarWait h rlx d a b s
  | .gbarSync h rlx d b c => Sys2Proof.Machine.execGbarSync h rlx d b c s
  | .gbarArrive h rlx d b c => Sys2Proof.Machine.execGbarArrive h rlx d b c s
  | .gbarWait h rlx d a b => Sys2Proof.Machine.execGbarWait h rlx d a b s
  | .barinit h lvl a b => Sys2Proof.Machine.execBarinit h lvl a b s
  | .barinv h lvl b => Sys2Proof.Machine.execBarinv h lvl b s
  | .rjset h jd => Sys2Proof.Machine.execRjset h jd s
  | .rjw h ja => Sys2Proof.Machine.execRjw h ja s
  | .qbind h d a qb k => Sys2Proof.Machine.execQbind h d a qb k s
  | .qunbind h d qb => Sys2Proof.Machine.execQunbind h d qb s
  | .qpush h b64 qd a => Sys2Proof.Machine.execQpush h b64 qd a s
  | .qpop h b64 bc d qa => Sys2Proof.Machine.execQpop h b64 bc d qa s
  | .qdrain h d qa => Sys2Proof.Machine.execQdrain h d qa s
  | .dqPush h a => Sys2Proof.Machine.execDqPush h a s
  | .dqPop h b64 d => Sys2Proof.Machine.execDqPop h b64 d s
  | .dqPopf h b64 d => Sys2Proof.Machine.execDqPopf h b64 d s
  | .hrecv h try_ d qa => Sys2Proof.Machine.execHrecv h try_ d qa s
  | .mma h o => Sys2Proof.Machine.execMma h o s
  | .zzero h z => Sys2Proof.Machine.execZzero h z s
  | .zld h z a b => Sys2Proof.Machine.execZld h z a b s
  | .zst h a z b => Sys2Proof.Machine.execZst h a z b s
  | .zrd h d z j => Sys2Proof.Machine.execZrd h d z j s
  | .plse h pair try_ d => Sys2Proof.Machine.execPlse h pair try_ d s
  | .plrl h d => Sys2Proof.Machine.execPlrl h d s
  | .scinv h => Sys2Proof.Machine.execScinv h s
  | .scpf h a n => Sys2Proof.Machine.execScpf h a n s
  | .zq h e5m2 a z c => Sys2Proof.Machine.execZq h e5m2 a z c s
  | .cbcfg h d a b => Sys2Proof.Machine.execCbcfg h d a b s
  | .cbclr h d => Sys2Proof.Machine.execCbclr h d s
  | .cbrel h d => Sys2Proof.Machine.execCbrel h d s
  | .cbstat h d => Sys2Proof.Machine.execCbstat h d s
  | .cbpush h d a => Sys2Proof.Machine.execCbpush h d a s
  | .cbmerge h d => Sys2Proof.Machine.execCbmerge h d s
  | .cbrd h sum d a => Sys2Proof.Machine.execCbrd h sum d a s
  | .cbsave h d a => Sys2Proof.Machine.execCbsave h d a s
  | .cbrest h d a => Sys2Proof.Machine.execCbrest h d a s
  | .edgate h o k1 d a b sl => Sys2Proof.Machine.execEdgate h o k1 d a b sl s
  | .edmeas h o d a sl => Sys2Proof.Machine.execEdmeas h o d a sl s
  | .ednorm h o d sl => Sys2Proof.Machine.execEdnorm h o d sl s
  | .edmapInit h d a sl => Sys2Proof.Machine.execEdmapInit h d a sl s
  | .edmapRd h d a sl => Sys2Proof.Machine.execEdmapRd h d a sl s
  | .edmapWr h d a sl => Sys2Proof.Machine.execEdmapWr h d a sl s
  | .edswap h d a sl => Sys2Proof.Machine.execEdswap h d a sl s
  | .edmapFree h d sl => Sys2Proof.Machine.execEdmapFree h d sl s
  | .edsync h scope sl => Sys2Proof.Machine.execEdsync h scope sl s
  | .collRed h o d a => Sys2Proof.Machine.execCollRed h o d a s
  | .collRs h o d a => Sys2Proof.Machine.execCollRs h o d a s
  | .collAg h o d a => Sys2Proof.Machine.execCollAg h o d a s
  | .collBc h o d a => Sys2Proof.Machine.execCollBc h o d a s
  | .xdisp h o d a => Sys2Proof.Machine.execXdisp h o d a s
  | .xfix h o d a => Sys2Proof.Machine.execXfix h o d a s
  | .lkst h d a => Sys2Proof.Machine.execLkst h d a s
  | .lkctlUp h d a b => Sys2Proof.Machine.execLkctlUp h d a b s
  | .lkctlDown h d a b => Sys2Proof.Machine.execLkctlDown h d a b s
  | .lkctlRxbuf h d a b => Sys2Proof.Machine.execLkctlRxbuf h d a b s
  | .lkctlPost h d a b => Sys2Proof.Machine.execLkctlPost h d a b s
  | .lkctlClr h d a b => Sys2Proof.Machine.execLkctlClr h d a b s
  | .srd h d n => Sys2Proof.Machine.execSrd h d n s
  | .swr h a n => Sys2Proof.Machine.execSwr h a n s
  | .xvec h t => Sys2Proof.Machine.execXvec h t s
  | .xvecClr h => Sys2Proof.Machine.execXvecClr h s
  | .xret h => Sys2Proof.Machine.execXret h s
  | .xretSkip h => Sys2Proof.Machine.execXretSkip h s
  | .yield h => Sys2Proof.Machine.execYield h s
  | .ctxctlCreate h d a b => Sys2Proof.Machine.execCtxctlCreate h d a b s
  | .ctxctlStart h d a b => Sys2Proof.Machine.execCtxctlStart h d a b s
  | .ctxctlStop h d a b => Sys2Proof.Machine.execCtxctlStop h d a b s
  | .ctxctlResume h d a b => Sys2Proof.Machine.execCtxctlResume h d a b s
  | .ctxctlKill h d a b => Sys2Proof.Machine.execCtxctlKill h d a b s
  | .ctxctlFree h d a b => Sys2Proof.Machine.execCtxctlFree h d a b s
  | .ctxctlReflect h d a b => Sys2Proof.Machine.execCtxctlReflect h d a b s
  | .ctxsave h d a b c => Sys2Proof.Machine.execCtxsave h d a b c s
  | .ctxrest h d a b => Sys2Proof.Machine.execCtxrest h d a b s
  | .ptroot h d a b => Sys2Proof.Machine.execPtroot h d a b s
  | .frpop h d => Sys2Proof.Machine.execFrpop h d s
  | .bgset h k a b => Sys2Proof.Machine.execBgset h k a b s
  | .bgrd h k d a => Sys2Proof.Machine.execBgrd h k d a s
  | .ctxprio h a b => Sys2Proof.Machine.execCtxprio h a b s
  | .xlat h d a => Sys2Proof.Machine.execXlat h d a s
  | .tinv h all d a b => Sys2Proof.Machine.execTinv h all d a b s
  | .htab h d a b => Sys2Proof.Machine.execHtab h d a b s
  | .hinv h all d a => Sys2Proof.Machine.execHinv h all d a s
  | .hld h sz d a b => Sys2Proof.Machine.execHld h sz d a b s
  | .hst h sz a b c => Sys2Proof.Machine.execHst h sz a b c s
  | .launch h wait d a b => Sys2Proof.Machine.execLaunch h wait d a b s
  | .walkInit h a b c => Sys2Proof.Machine.execWalkInit h a b c s
  | .walkNext h d => Sys2Proof.Machine.execWalkNext h d s
  | .stgq h d sl => Sys2Proof.Machine.execStgq h d sl s
  | .stgres h a sl => Sys2Proof.Machine.execStgres h a sl s
  | .kend h => Sys2Proof.Machine.execKend h s
  | .joinEmit core slot res => Sys2Proof.Machine.execJoinEmit core slot res s
  | .foldCombine core slot rel => Sys2Proof.Machine.execFoldCombine core slot rel s
  | .compactClose core slot part => Sys2Proof.Machine.execCompactClose core slot part s
  | .regroupClose core slot entry => Sys2Proof.Machine.execRegroupClose core slot entry s
  | .pageWalk core ctx va => Sys2Proof.Machine.execPageWalk core ctx va s
  | .migRewalk core ctx va => Sys2Proof.Machine.execMigRewalk core ctx va s
  | .loadReturn id lane => Sys2Proof.Machine.execLoadReturn id lane s
  | .collectorSend core k => Sys2Proof.Machine.execCollectorSend core k s
  | .homeSliceWrite core k => Sys2Proof.Machine.execHomeSliceWrite core k s
  | .homeSliceAtomic core k => Sys2Proof.Machine.execHomeSliceAtomic core k s
  | .copyPerform id => Sys2Proof.Machine.execCopyPerform id s
  | .enginePortTake k unit port => Sys2Proof.Machine.execEnginePortTake k unit port s
  | .resultEnter k unit port => Sys2Proof.Machine.execResultEnter k unit port s
  | .stageQueueTake core slot stage => Sys2Proof.Machine.execStageQueueTake core slot stage s
  | .stageSpawn core slot stage => Sys2Proof.Machine.execStageSpawn core slot stage s
  | .commandMessageArrive msg => Sys2Proof.Machine.execCommandMessageArrive msg s
  | .groupForm core part => Sys2Proof.Machine.execGroupForm core part s
  | .recordAssign core part => Sys2Proof.Machine.execRecordAssign core part s
  | .partReturn core part slot fid => Sys2Proof.Machine.execPartReturn core part slot fid s
  | .fairnessExpiry core slot part => Sys2Proof.Machine.execFairnessExpiry core slot part s
  | .swapOut core slot fid => Sys2Proof.Machine.execSwapOut core slot fid s
  | .windowGrant core part slot => Sys2Proof.Machine.execWindowGrant core part slot s
  | .stuckBlock core slot => Sys2Proof.Machine.execStuckBlock core slot s
  | .leaseGrant core => Sys2Proof.Machine.execLeaseGrant core s
  | .quantiserCommand core => Sys2Proof.Machine.execQuantiserCommand core s
  | .copyPortCommand core => Sys2Proof.Machine.execCopyPortCommand core s
  | .collectorPrefetch core => Sys2Proof.Machine.execCollectorPrefetch core s
  | .bankArrival core => Sys2Proof.Machine.execBankArrival core s
  | .overflowRecordEnter core => Sys2Proof.Machine.execOverflowRecordEnter core s
  | .bankPushCommand core => Sys2Proof.Machine.execBankPushCommand core s
  | .bankMergeCommand core => Sys2Proof.Machine.execBankMergeCommand core s
  | .eddyCommandExecute ctx slot => Sys2Proof.Machine.execEddyCommandExecute ctx slot s
  | .eddySwapLand ctx slot kind data => Sys2Proof.Machine.execEddySwapLand ctx slot kind data s
  | .portRed ldie => Sys2Proof.Machine.execPortRed ldie s
  | .portRs ldie => Sys2Proof.Machine.execPortRs ldie s
  | .portAg ldie => Sys2Proof.Machine.execPortAg ldie s
  | .portBc ldie => Sys2Proof.Machine.execPortBc ldie s
  | .portXdisp ldie => Sys2Proof.Machine.execPortXdisp ldie s
  | .portXfix ldie => Sys2Proof.Machine.execPortXfix ldie s
  | .collectiveBlockArrive id n fields data => Sys2Proof.Machine.execCollectiveBlockArrive id n fields data s
  | .rmaWrite ldie => Sys2Proof.Machine.execRmaWrite ldie s
  | .rmaRead ldie => Sys2Proof.Machine.execRmaRead ldie s
  | .registerWindow ldie => Sys2Proof.Machine.execRegisterWindow ldie s
  | .releaseWindow ldie => Sys2Proof.Machine.execReleaseWindow ldie s
  | .uePacketReceive p => Sys2Proof.Machine.execUePacketReceive p s
  | .flitReceive port f => Sys2Proof.Machine.execFlitReceive port f s
  | .replay port => Sys2Proof.Machine.execReplay port s
  | .portTrained port peer => Sys2Proof.Machine.execPortTrained port peer s
  | .trainingTimeout port => Sys2Proof.Machine.execTrainingTimeout port s
  | .portFail port => Sys2Proof.Machine.execPortFail port s
  | .remoteRequest r => Sys2Proof.Machine.execRemoteRequest r s
  | .remoteReply ldie tag r => Sys2Proof.Machine.execRemoteReply ldie tag r s
  | .destinationLost dev => Sys2Proof.Machine.execDestinationLost dev s
  | .drainComplete ctx => Sys2Proof.Machine.execDrainComplete ctx s
  | .faultRecordPost ctx => Sys2Proof.Machine.execFaultRecordPost ctx s
  | .strokeBoundary die => Sys2Proof.Machine.execStrokeBoundary die s
  | .becalm core => Sys2Proof.Machine.execBecalm core s
  | .wake core => Sys2Proof.Machine.execWake core s
  | .placementTurn => Sys2Proof.Machine.execPlacementTurn s
  | .blockComplete core slot => Sys2Proof.Machine.execBlockComplete core slot s
  | .completionRecordWrite ctx num => Sys2Proof.Machine.execCompletionRecordWrite ctx num s
  | .powerOnReset => Sys2Proof.Machine.execPowerOnReset s
  | .firmwareImageRead image => Sys2Proof.Machine.execFirmwareImageRead image s
  | .trainingComplete dies stk ldies => Sys2Proof.Machine.execTrainingComplete dies stk ldies s
  | .attestationChallenge nonce => Sys2Proof.Machine.execAttestationChallenge nonce s
  | .thermalTrip die => Sys2Proof.Machine.execThermalTrip die s
  | .thermalThrottle die => Sys2Proof.Machine.execThermalThrottle die s
  | .thermalRecover die => Sys2Proof.Machine.execThermalRecover die s
  | .powerLimitWindow mhz => Sys2Proof.Machine.execPowerLimitWindow mhz s
  | .mgpwrWrite v => Sys2Proof.Machine.execMgpwrWrite v s
  | .mgpinWrite die v => Sys2Proof.Machine.execMgpinWrite die v s
  | .mgpopWrite => Sys2Proof.Machine.execMgpopWrite s
  | .managementWriteOther off => Sys2Proof.Machine.execManagementWriteOther off s
  | .dieLost die => Sys2Proof.Machine.execDieLost die s

end Sys2Proof.Machine
end

