-- ==== Sys2Proof/Machine/Turns.lean ====
section
/-! DEFINITION. Whose turn it is and what the turn does (R6, R9, R14, R127): an issue, an event, or time. -/

namespace Sys2Proof.Machine

open Sys2Proof

/-- What a thread that has been offered its slot does with it: fetch, checks, then the meaning of the instruction (R86–R94). -/
def runSlot (s : State) (core slot : Nat) (th : Thread) : Res :=
  let s := { s with cur := { core := core, slot := slot, th := th } }
  if !s.selectable then .next s
  else match s.me with
  | none => .next s
  | some b => match s.fetch b with
    | .stall => .next s
    | .ask dev va => .next (s.askCode b (s.issuers.headD .cox) dev va)
    | .trap t xf3 f => .next (t.fetchTrap xf3 f)
    | .go t i => exec i t.dropWindows

/-- Whether a thread can issue now: offered a slot, it issues or traps instead of stalling (R137, R198)
(log 26, DEDUCED). -/
def canIssue (s : State) (core slot : Nat) (th : Thread) : Bool := match runSlot s core slot th with
  | .next t => t.cur.went
  | _ => false

/-- The other groups of a thread's partition that can issue now, as (slot, part). -/
def rivals (s : State) (core slot : Nat) (th : Thread) : List (Nat × Nat) := match s.block? core slot, th with
  | some b, .part id => match b.part? id with
    | some p => ((s.partsOn core p.part).filter fun x => !(x.1.slot == slot && x.2.id == id) &&
        canIssue s core x.1.slot (.part x.2.id)).map fun x => (x.1.slot, x.2.id)
    | none => []
  | _, _ => []

/-- The path of a thread: its partition, or 4. -/
def pathOfTh (s : State) (core slot : Nat) (th : Thread) : Nat :=
  ({ s with cur := { core := core, slot := slot, th := th } }).curPath

/-- One issue of a thread that has been offered its slot: if it used it, the others there have been passed over (R127). -/
def issueSlot (s : State) (core slot : Nat) (th : Thread) : Res := match runSlot s core slot th with
  | .next t => .next (if t.cur.went then t.passOthers core slot (pathOfTh s core slot th) th (rivals s core slot th) else t)
  | r => r

/-- Whether another ready group of the partition, or another cox thread of the core in round-robin order, has the
slot (R14, R113, R127) (log 26, DEDUCED). -/
def outranked (s : State) (core slot : Nat) (th : Thread) : Bool := match s.block? core slot, th with
  | some b, .part id => match b.part? id with
    | some p => (s.partsOn core p.part).any fun x =>
        !(x.1.slot == slot && x.2.id == id) && groupBefore x (b, p) && canIssue s core x.1.slot (.part x.2.id)
    | none => false
  | some b, .cox =>
    let rr := (s.core core).coxRR
    let dist := fun (n : Nat) => (n + 15 - rr) % 16
    s.blocks.any fun q => q.core == core && q.slot != slot &&
      (if q.cox.yielded != b.cox.yielded then b.cox.yielded else dist q.slot < dist slot) && canIssue s core q.slot .cox
  | _, _ => false

/-- One issue turn of a thread: the slot goes to the thread that comes first among those that can issue
(log 26, DEDUCED). -/
def issue (s : State) (core slot : Nat) (th : Thread) : Res :=
  if outranked s core slot th then .next s else issueSlot s core slot th

/-- The state with the issue slots of a core open, as in its next cycle. -/
def State.nextCycle (s : State) (core : Nat) : State := s.updCore core fun c => { c with last := none }

/-- The groups of a core that can issue, for the event that asks (R171). -/
def readyFor (s : State) (i : Instr) : List (Nat × Nat) := match i with
  | .regroupClose core _ _ =>
    let s := s.nextCycle core
    ((s.blocks.filter fun b => b.core == core).flatMap fun b =>
      b.parts.map fun p => (b.slot, p.id)).filter fun x => canIssue s core x.1 (.part x.2)
  | _ => []

/-! ### Time on one die (R9, R104, R109, R150) -/

/-- The next stroke boundary after a count of cycles. -/
def nextStroke (c : Nat) : Nat := (c / 65536 + 1) * 65536

/-- Whether some thread of a core can issue (R109). -/
def coreBusy (s0 : State) (core : Nat) : Bool :=
  let s := s0.nextCycle core
  s.blocks.any fun b => b.core == core &&
  (canIssue s core b.slot .cox || b.parts.any fun p => canIssue s core b.slot (.part p.id))

/-- n cycles pass for a core: its wake counts down, cycles in which nothing can issue add up, and the 16th becalms it (R109). -/
def Core.pass (c : Core) (busy : Bool) (n : Nat) : Core :=
  ({ c with wakeIn := c.wakeIn - n, idle := if busy || c.becalmed || c.wakeIn ≠ 0 then 0 else c.idle + n } : Core).calm

/-- Up to n cycles of a C-die, or of an L-die (4 and 5): a stroke boundary ends them, and the next ones wait for its
event. -/
def advanceDie (s : State) (die n : Nat) : State :=
  if die < 4 then
    let d := s.cdie die
    let c := d.cyc.toNat
    let m := Nat.min n (nextStroke c - c)
    if d.strokeDue || m = 0 then s
    else
      let s1 := s.updDie die fun d => { d with cyc := BitVec.ofNat 64 (c + m), strokeDue := (c + m) % 65536 = 0 }
      { s1 with
        cores := s.cores.zipIdx.map fun x => if coreDie x.2 = die then x.1.pass (coreBusy s x.2) m else x.1
        blocks := s.blocks.map fun (b : Block) => if coreDie b.core = die then { b with idle := b.idle + m } else b }
  else
    let d := s.ldie (die - 4)
    let c := d.cyc.toNat
    let m := Nat.min n (nextStroke c - c)
    if d.strokeDue || m = 0 then s
    else { s with ldies := s.ldies.modify (die - 4) fun d =>
        { d with cyc := BitVec.ofNat 64 (c + m), strokeDue := (c + m) % 65536 = 0 } }

/-- A junction sensor reads a new value while the device runs (R426). -/
def sense (s : State) (die : Nat) (temp : Byte) : State :=
  if s.stage = .stage0 then s else { s with mgTemp := s.mgTemp.set die temp }

/-- The management firmware, which runs in stage 1, sets the device number (R394) (log 12, DESIGN CHOICE). -/
def number (s : State) (n : Nat) : State := if s.stage = .stage1 && n < 512 then { s with devNum := BitVec.ofNat 10 n } else s

/-- Whether an event happens by itself: what a write to the management page does is part of that write (R426). -/
def ownEvent : Instr → Bool
  | .mgpwrWrite _ => false
  | .mgpinWrite _ _ => false
  | .mgpopWrite => false
  | .managementWriteOther _ => false
  | i => i.isEvent

/-- What a turn does. -/
def takeTurn (t : Turn) (s : State) : Res := match t with
  | .issueCox core slot => issue s core slot .cox
  | .issuePart core slot part => issue s core slot (.part part)
  | .event i => if ownEvent i then exec i { s with cur := { ready := readyFor s i } } else .next s
  | .drain core path => .next (s.drainPath core path)
  | .advance die n => .next (advanceDie s die n)
  | .evictL1 core k => .next (s.updCore core fun c => { c with l1 := c.l1.eraseIdx k })
  | .evictRdc die k => .next (s.updDie die fun d => { d with rdc := dropLine Prod.snd d.rdc k })
  | .evictL2 die k => .next (s.evictL2 die k)
  | .evictTlb core k => .next (s.updCore core fun c => { c with tlb := c.tlb.eraseIdx k })
  | .evictDtc die k => .next (s.updDie die fun d =>
      match d.dtc[k]? with
      | some e => if e.pinned then d else { d with dtc := d.dtc.eraseIdx k }
      | none => d)
  | .evictHandle die k => .next (s.updDie die fun d => { d with hcache := d.hcache.eraseIdx k })
  | .evictScale core k => .next (s.updCore core fun c => { c with scale := c.scale.eraseIdx k })
  | .refetch core k => .next (s.updCore core fun c => { c with icache := c.icache.eraseIdx k })
  | .sense die temp => .next (sense s die temp)
  | .poison word => .next { s with poison := if s.poison.contains word then s.poison else word :: s.poison }
  | .coll id => .next (s.collStep id)
  | .late k => .next (s.endLate k)
  | .send id lane => .next (s.sendLoad id lane)
  | .planeReport dev port reached => .next (s.planeReport dev port reached)
  | .idle n => .next (s.idleFlit n)
  | .deviceNumber n => .next (number s n)

/-- The next turn and the rest of the agenda: an empty agenda leaves the choice open (R6) (log 1, DESIGN CHOICE). -/
def nextOf (s : State) : Turn × List Turn := match s.agenda with
  | [] => (Config.nextTurn s.tick, [])
  | t :: r => (t, r)

/-- Whether a turn goes on when every clock has stopped (R418, R422). -/
def worksHalted : Turn → Bool
  | .event .powerOnReset => true
  | .event (.attestationChallenge _) => true
  | _ => false

/-- A whole turn of the device (log 1, DESIGN CHOICE). -/
def turn (s : State) : Res :=
  let n := nextOf s
  if s.stage = .halted && !worksHalted n.1 then .fault .thermalHalt
  else takeTurn n.1 { s with tick := s.tick + 1, agenda := n.2 }

/-! ### Placing one instruction -/

/-- A kernel record for one 32-byte block of code at 0x10000. -/
def oneKernel : KRec where
  code := 0x10000
  reltab := 0
  const := 0
  scratch := 0
  args := 0
  done := 0
  extent := 32
  csize := 0
  ssize := 0
  nfib := 1
  gx := 1
  gy := 1
  gz := 1
  w := 256
  nstage := 0
  nrel := 8
  curve := 0
  clusz := 0
  narg := 0
  gbar := 0xF
  depth := [4, 0, 0, 0, 0, 0, 0, 0]
  resv := [0, 0, 0, 0, 0, 0]
  entry := [0, 0xFFFFFFFF, 0xFFFFFFFF, 0xFFFFFFFF, 0xFFFFFFFF, 0xFFFFFFFF, 0xFFFFFFFF, 0xFFFFFFFF]

/-- A resident block with one fibre in one part. -/
def oneBlock : Block where
  core := 0
  slot := 0
  ctx := 0
  launch := 1
  blk := 0
  nblk := 1
  group := 0
  kr := oneKernel
  rels := List.replicate 8 { left := some 0, right := some 0, clauses := [] }
  cox := {}
  fibres := [{ fid := 0, life := .ready, stage := 0, part := 0, col := 0, fslot := 0, pc := 0, regs := List.replicate 256 0, origin := some 0 }]
  parts := [{ id := 0, part := 0, stage := 0, origin := 0, lanes := [(0, 0)] }]
  origins := [{ id := 0, part := 0 }]
  nextFid := 1
  stageQ := [[]]
  stageRR := [0]
  stgres := [1]
  scratch := []
  const := []

/-- Places an instruction where the next step fetches it: a RUNNING privileged context 0 with one block on core
0, the code page in the core's TLB, the bytes in memory, and the turn that issues it (log 4, DESIGN CHOICE). -/
def placeWord (s : State) (nbits w : Nat) : State :=
  let bytes := leBytes 32 (w % 2 ^ nbits)
  let fib := match decode (DCtx.wide .fibre) (bytes.take 16) with
    | .ok _ => true
    | .error _ => false
  let t : Tlb := { ctx := 0, va := 0x10000, sh := 12, pa := 0x10000, leaf := 0x1000F }
  { (s.updCtx 0 fun c => { c with st := .running, priv := true }).updCore 0 fun c =>
      { c with becalmed := false, wakeIn := 0, icache := [], tlb := [t] } with
    mem := (s.mem.clear 0x10000 32).write 0x10000 bytes
    blocks := oneBlock :: s.blocks.filter fun b => !(b.at 0 0)
    agenda := (if fib then .issuePart 0 0 0 else .issueCox 0 0) :: s.agenda }

end Sys2Proof.Machine
end

