-- ==== Sys2Proof/Safety.lean ====
section
/-! DEFINITION. What a safe run is, and the terms in which the statements speak of one issue: the memories of the device
keep their canonical form, a step stops only when the device is halted, and what an issue leaves alone. -/

namespace Sys2Proof.Machine

open Sys2Proof

/-- The memories of a block have the canonical form. -/
def Block.memsOk (b : Block) : Bool := b.scratch.wf && b.const.wf

/-- The canonical form of the sequence counters: lines strictly rising above `lo`, and no counter that is zero. -/
def seqAbove : Option Nat → List (Nat × BitVec 16) → Bool
  | _, [] => true
  | lo, (x, v) :: r => (match lo with
      | none => true
      | some l => decide (l < x)) && decide (v ≠ 0) && seqAbove (some x) r

/-- Every memory that the state holds has the canonical form, those of saved contexts among them, and so have the
sequence counters. -/
def State.memsOk (s : State) : Bool :=
  s.mem.wf && seqAbove none s.seq && s.blocks.all Block.memsOk && s.saved.all fun x => x.blocks.all Block.memsOk

/-- A block stands on a core, in a slot and for a context that exist. -/
def Block.placed (b : Block) : Bool := b.core < 128 && b.slot < 16 && b.ctx < 64

/-- A block has its barriers, queue registers and cox registers, its origins have their masks, and its fibres have their
registers, or none while their spill image has them, in rising identifiers that the counter has passed, as have the lanes of its parts. -/
def Block.shapeOk (b : Block) : Bool :=
  b.placed && b.bars.length == 16 && b.q.length == 16 && b.cox.s.length == 64 && (b.origins.all fun o => o.j.length == 8) &&
  (b.fibres.all fun f => (f.regs.length == b.kr.w.toNat || (!f.win && f.regs.isEmpty)) && decide (f.fid < b.nextFid)) &&
  (b.parts.all fun p => p.lanes.all fun x => x.2 < b.nextFid) &&
  decide (b.fibres.Pairwise fun f g => f.fid < g.fid)

/-- The device has its dies, cores, contexts, ports and windows, each with its own parts, every launch its context, and
every block, saved ones among them, its shape. -/
def State.shapeOk (s : State) : Bool :=
  s.cdies.length == 4 && s.ldies.length == 2 && s.cores.length == 128 && s.ctxs.length == 64 && s.ports.length == 26 &&
  s.windows.length == 64 && s.mgTemp.length == 4 && s.mgPin.length == 4 && s.mgPinNext.length == 4 &&
  (s.cores.all fun c => c.assign.length == 4) && (s.groups.all fun g => g.bars.length == 8) &&
  (s.ctxs.all fun c => c.gbars.length == 4 && c.gown.length == 4 && c.eddy.length == 4) &&
  (s.launches.all fun l => l.ctx < 64) && s.blocks.all Block.shapeOk && s.saved.all fun x => x.blocks.all Block.shapeOk

/-- No two blocks stand in one place. -/
def State.placesOk (s : State) : Bool := decide (s.blocks.Pairwise fun x y => x.core ≠ y.core ∨ x.slot ≠ y.slot)

/-- The device may take a step. -/
def State.live (s : State) : Bool := s.stage != .halted

/-- A fibre by its block and identifier. -/
def State.fibAt (s : State) (core slot fid : Nat) : Option Fibre := (s.block? core slot).bind fun b => b.fib? fid

/-- A cox thread by its block. -/
def State.coxAt (s : State) (core slot : Nat) : Option Cox := (s.block? core slot).map fun b => b.cox

/-- A fibre of the running block. -/
def State.myFib (s : State) (fid : Nat) : Option Fibre := s.fibAt s.cur.core s.cur.slot fid

/-- The cox thread of the running block. -/
def State.myCox (s : State) : Option Cox := s.coxAt s.cur.core s.cur.slot

/-- A block without its threads, its parts and its count of cycles without an issue. -/
def Block.still (b : Block) : Block := { b with cox := {}, fibres := [], parts := [], idle := 0 }

/-- A context without the charges of its current stroke. -/
def Ctx.still (c : Ctx) : Ctx := { c with charge := [] }

/-- A core without its count of idle cycles and the bytes that wait for an instruction to use them. -/
def Core.still (c : Core) : Core := { c with idle := 0, rbuf := [], pbuf := [] }

/-- What an issue in the block at (core, slot) leaves alone unless its rule says otherwise: all of the state but the
numbering of operations, the running issue, budget charges, idle counts, and the threads and parts of that block. -/
def State.still (s : State) (core slot : Nat) : State :=
  { s with
    nextId := 0
    cur := {}
    cores := s.cores.map Core.still
    ctxs := s.ctxs.map Ctx.still
    blocks := s.blocks.map fun b => if b.at core slot then b.still else b }

/-! ### The promise of R128 -/

/-- A run: each state is a step after the one before it. -/
def isRun (r : Nat → State) : Prop := ∀ n, step (r n) = .next (r (n + 1))

/-- A fibre as it stands at its next instruction: its registers and pc are in its window, in its initial state or in its spill
image (Table 7-1, R147). A fibre that waits has none. -/
def State.atNext (s : State) (b : Block) (f : Fibre) : Option Fibre := match f.life with
  | .parked => none
  | .swapped => none
  | .ready => some f
  | .ungrouped => some f
  | .returning => if f.win then some { f with pc := f.next } else match s.spillXl b f .read with
    | .at_ pa => some (s.fromImage b f pa)
    | _ => none
  | .unborn => if f.regs ≠ [] then some f else match s.spillXl b f .read with
    | .at_ pa => some (s.fromImage b f pa)
    | _ => none

/-- A block whose only part is one fibre, on its own lane. -/
def Block.solo (b : Block) (f : Fibre) : Block :=
  { b.updFib f.fid fun _ => { f with life := .ready, wait := none, win := true, stuck := false, origin := some 0 } with
    parts := [{ id := 0, part := f.part, stage := f.stage, origin := 0, lanes := [(f.col, f.fid)] }]
    origins := [{ id := 0, part := f.part }] }

/-- Whether a fibre could execute its next instruction if the issue slot were offered to its part, or, where it issues in none, if
it stood in a part of its own. -/
def State.couldGo (s : State) (core slot fid : Nat) : Bool := match s.block? core slot with
  | none => false
  | some b => match b.parts.find? fun p => p.issuing.any fun x => x.2 == fid with
    | some p => canIssue (s.nextCycle core) core slot (.part p.id)
    | none => match (b.fib? fid).bind fun f => s.atNext b f with
      | some f => canIssue ((s.nextCycle core).updBlock core slot fun b => b.solo f) core slot (.part 0)
      | none => false

/-- Whether R128 promises a fibre its turn: it is resident, or its block has a resident fibre with a higher identifier. -/
def State.promised (s : State) (core slot fid : Nat) : Bool := match s.block? core slot with
  | none => false
  | some b => (b.fib? fid).isSome && b.fibres.any fun f => f.win && fid ≤ f.fid

/-- Whether the last turn was an issue of a fibre. -/
def State.didGo (s : State) (core slot fid : Nat) : Bool :=
  s.cur.went && s.cur.core == core && s.cur.slot == slot && s.issuers.contains (.fib fid)

/-- What R128 promises of the turns of a run, whose order is otherwise open (log 1): a resident fibre, or one of the same block with
a lower identifier, whose next instruction can complete again and again executes it in the end. For a fibre without a window that
is the promise of its return, for one without a part that of its grouping. -/
def KeepsPromise (r : Nat → State) : Prop := ∀ core slot fid n,
  (r n).promised core slot fid → (∀ m, n ≤ m → ∃ k, m ≤ k ∧ (r k).couldGo core slot fid) →
  ∃ k, n ≤ k ∧ (r (k + 1)).didGo core slot fid

/-! ### The runs of R331 -/

/-- The members of the input relations of a join's open instance, if it is in the given state (R155, R157). -/
def State.joinMembers (s : State) (core slot rel : Nat) (st : InstSt) : Option (List Nat) := match s.block? core slot with
  | none => none
  | some b => (b.insts.find? fun i => !i.fold && i.rel == rel && i.st = st).map fun _ => b.membersOf false rel

/-- What R331 and R332 ask of the turns of a run of their program, where a fibre enters an input relation once: no join goes to EMIT
before every live fibre that enters one of its inputs has entered. R155 and R157 let it go once the members so far have arrived, and
the order of turns is open, so the runs of the model are more than those (log 117, DEDUCED). -/
def JoinsAtOnce (r : Nat → State) : Prop := ∀ core slot rel fid n m ys,
  (r n).joinMembers core slot rel .emit = none → (r (n + 1)).joinMembers core slot rel .emit = some ys → n < m →
  ((r n).fibAt core slot fid).isSome → fid ∉ ys → ∀ b, (r m).block? core slot = some b → fid ∉ b.membersOf false rel

/-- A cox thread without its lookahead windows, its place among the yielded, the cycle after its `yield` and what its releases cover. -/
def Cox.bare (c : Cox) : Cox := { c with windows := [], yielded := false, mute := none, seen := 0 }

/-- A fibre without what its releases cover (log 73). -/
def Fibre.bare (f : Fibre) : Fibre := { f with seen := 0 }

end Sys2Proof.Machine
end

