-- ==== Sys2Proof/Certificates/Slice0/Obligations.lean ====
section
/-! DEFINITION. The statements for the provers, and the tables that they are stated with: what each instruction writes,
given from the spec's rules apart from the machine's own meanings. -/

namespace Sys2Proof.Claims

open Sys2Proof Sys2Proof.Machine

/-! ### What it is for an issue to complete -/

/-- The state issues in the fibre stream of block b, for its part p. -/
structure Issuing (s : State) (b : Block) (p : Part) : Prop where
  me : s.me = some b
  th : s.cur.th = .part p.id
  part : b.part? p.id = some p

/-- The state issues in the cox stream of block b. -/
structure CoxIssuing (s : State) (b : Block) : Prop where
  me : s.me = some b
  th : s.cur.th = .cox

/-- The writes of a lane, by its lane number and fibre, given every active lane. -/
abbrev LaneWrites := List (Nat × Fibre) → Nat × Fibre → List Wr

/-- A fibre after its lanes among the active ones have written; one without a window keeps its writes for it (R147). -/
def written (ls : List (Nat × Fibre)) (g : LaneWrites) (f : Fibre) : Fibre :=
  ls.foldl (fun f x => if x.2.fid = f.fid then f.wrs (g ls x) else f) f

/-- An issue in the fibre stream that writes registers and goes on: every fibre's active lanes write, every issuing lane
moves to the next instruction, no other fibre changes, and the cox thread and all that an issue leaves alone stay. -/
structure Writes (s t : State) (h : Hd) (g : LaneWrites) : Prop where
  fibres : ∀ fid, t.myFib fid = (s.myFib fid).map fun f =>
    if Who.fib fid ∈ s.issuers then { written (s.act h) g f with pc := s.nextPc } else f
  cox : t.myCox = s.myCox
  here : t.cur.core = s.cur.core ∧ t.cur.slot = s.cur.slot
  rest : t.still s.cur.core s.cur.slot = s.still s.cur.core s.cur.slot

/-- The same in the cox stream. -/
structure CoxWrites (s t : State) (ws : List Wr) : Prop where
  cox : t.myCox.map Cox.bare = s.myCox.map fun c => { (ws.foldl Cox.wr c).bare with pc := s.nextPc }
  fibres : ∀ fid, t.myFib fid = s.myFib fid
  here : t.cur.core = s.cur.core ∧ t.cur.slot = s.cur.slot
  rest : t.still s.cur.core s.cur.slot = s.still s.cur.core s.cur.slot

/-- An instruction of both streams, each party computing its writes from its own view of the registers. -/
def Computes (i : Instr) (h : Hd) (g : View → List Wr) : Prop := ∀ s b,
  (CoxIssuing s b → ∃ t, exec i s = .next t ∧ CoxWrites s t (g (.cox b.cox))) ∧
  ∀ p, Issuing s b p → ∃ t, exec i s = .next t ∧ Writes s t h fun _ x => g (.fib x.2)

/-- An instruction of the fibre stream whose lanes may read one another. -/
def Crosses (i : Instr) (h : Hd) (g : LaneWrites) : Prop := ∀ s b p,
  Issuing s b p → ∃ t, exec i s = .next t ∧ Writes s t h g

/-! ### Integer instructions (R210–R217, Table 10-2) -/

/-- The most negative and the most positive value of n bits. -/
def lowest (n : Nat) : BitVec n := BitVec.intMin n
def highest (n : Nat) : BitVec n := ~~~(BitVec.intMin n)

/-- a + b, a − b, −a, |a| and a × b modulo 2^n, or clamped under `.sat`; sg says that the type is signed. -/
def addBits (sg sat : Bool) {n : Nat} (a b : BitVec n) : BitVec n :=
  if sat && sg && a.saddOverflow b then (if a.msb then lowest n else highest n)
  else if sat && !sg && a.uaddOverflow b then BitVec.allOnes n
  else a + b
def subBits (sg sat : Bool) {n : Nat} (a b : BitVec n) : BitVec n :=
  if sat && sg && a.ssubOverflow b then (if a.msb then lowest n else highest n)
  else if sat && !sg && a.usubOverflow b then 0
  else a - b
def negBits (sg sat : Bool) {n : Nat} (a : BitVec n) : BitVec n := subBits sg sat 0 a
def absBits (sg sat : Bool) {n : Nat} (a : BitVec n) : BitVec n := if sg && a.msb then negBits sg sat a else a

def ltBits (sg : Bool) {n : Nat} (a b : BitVec n) : Bool := if sg then a.slt b else a.ult b
def minBits (sg : Bool) {n : Nat} (a b : BitVec n) : BitVec n := if ltBits sg b a then b else a
def maxBits (sg : Bool) {n : Nat} (a b : BitVec n) : BitVec n := if ltBits sg a b then b else a

/-- The value of n bits in m bits under a type. -/
def widen (sg : Bool) {n : Nat} (m : Nat) (a : BitVec n) : BitVec m := if sg then a.signExtend m else a.zeroExtend m

/-- Bits [2n−1:n] of the exact product. -/
def highBits (sg : Bool) {n : Nat} (a b : BitVec n) : BitVec n :=
  (widen sg (2 * n) a * widen sg (2 * n) b).extractLsb' n n

/-- R215: truncation toward zero, all ones for b = 0; the remainder is then a. -/
def divBits (sg : Bool) {n : Nat} (a b : BitVec n) : BitVec n :=
  if b = 0 then BitVec.allOnes n else if sg then a.sdiv b else a.udiv b
def remBits (sg : Bool) {n : Nat} (a b : BitVec n) : BitVec n :=
  if b = 0 then a else if sg then a.srem b else a.umod b

def shrBits (sg : Bool) {n : Nat} (a : BitVec n) (k : W32) : BitVec n :=
  if sg then a.sshiftRight k.toNat else a >>> k.toNat

/-- The field of R216: its position, clamped to n, and its width, clamped to what is left. -/
def fieldAt (n : Nat) (c : W32) : Nat × Nat :=
  let p := Nat.min (c.extractLsb' 0 8).toNat n
  (p, Nat.min (c.extractLsb' 8 8).toNat (n - p))
def bfeBits (sg : Bool) {n : Nat} (a : BitVec n) (c : W32) : BitVec n :=
  let (p, k) := fieldAt n c
  if k = 0 then 0
  else if sg then (a <<< (n - p - k)).sshiftRight (n - k) else (a <<< (n - p - k)) >>> (n - k)
def bfiBits {n : Nat} (a b : BitVec n) (c : W32) : BitVec n :=
  let (p, k) := fieldAt n c
  let m : BitVec n := (BitVec.allOnes n >>> (n - k)) <<< p
  (b &&& ~~~m) ||| ((a <<< p) &&& m)

/-- Whether an integer condition holds (Table 10-3). -/
def iccBits (c : ICc) (sg : Bool) {n : Nat} (a b : BitVec n) : Bool := match c with
  | .eq => a == b
  | .ne => a != b
  | .lt => ltBits sg a b
  | .le => !ltBits sg b a
  | .gt => ltBits sg b a
  | .ge => !ltBits sg a b

def signedTy : IntTy → Bool
  | .i32 | .i64 => true
  | .n32 | .n64 => false

/-- The last source, an immediate extended by the type (R211). -/
def last32 (v : View) (sg : Bool) : Src → W32
  | .reg r => v.r32 r
  | .imm8 x => widen sg 32 x
  | .imm32 x => x
def last64 (v : View) (sg : Bool) : Src → W64
  | .reg r => v.r64 r
  | .imm8 x => widen sg 64 x
  | .imm32 x => widen sg 64 x

/-- A 32-bit result of a type: V, or S sign- or zero-extended (R212). -/
def result32 (v : View) (sg : Bool) (d : RegNo) (x : W32) : Wr := if sg then v.w32s d x else v.w32 d x

/-- An integer operation at the width of its type, for one, two and three sources. -/
def one (v : View) (ty : IntTy) (d a : RegNo) (f : {n : Nat} → BitVec n → BitVec n) : List Wr :=
  if ty.is64 then v.w64 d (f (v.r64 a)) else [result32 v (signedTy ty) d (f (v.r32 a))]
def two (v : View) (ty : IntTy) (d a : RegNo) (b : Src) (f : {n : Nat} → BitVec n → BitVec n → BitVec n) : List Wr :=
  let sg := signedTy ty
  if ty.is64 then v.w64 d (f (v.r64 a) (last64 v sg b)) else [result32 v sg d (f (v.r32 a) (last32 v sg b))]
def three (v : View) (ty : IntTy) (d a b : RegNo) (c : Src) (f : {n : Nat} → BitVec n → BitVec n → BitVec n → BitVec n) :
    List Wr :=
  let sg := signedTy ty
  if ty.is64 then v.w64 d (f (v.r64 a) (v.r64 b) (last64 v sg c))
  else [result32 v sg d (f (v.r32 a) (v.r32 b) (last32 v sg c))]

/-- A shift count: its immediates are zero-extended (R211, R214). -/
def count32 (v : View) : Src → W32
  | .reg r => v.r32 r
  | .imm8 x => x.zeroExtend 32
  | .imm32 x => x

/-- Arithmetic of class 0x2. Forms with a saturating variant take it. -/
def arithmetic : Instr → Option (Hd × (View → List Wr))
  | .add h o => some (h, fun v => two v o.ty o.d o.a o.b (addBits (signedTy o.ty) o.sat))
  | .sub h o => some (h, fun v => two v o.ty o.d o.a o.b (subBits (signedTy o.ty) o.sat))
  | .neg h o => some (h, fun v => one v o.ty o.d o.a (negBits (signedTy o.ty) o.sat))
  | .abs h o => some (h, fun v => one v o.ty o.d o.a (absBits (signedTy o.ty) o.sat))
  | .min h o => some (h, fun v => two v o.ty o.d o.a o.b (minBits (signedTy o.ty)))
  | .max h o => some (h, fun v => two v o.ty o.d o.a o.b (maxBits (signedTy o.ty)))
  | .mul h o => if o.sat then none else some (h, fun v => two v o.ty o.d o.a o.b fun a b => a * b)
  | .mulhi h o => some (h, fun v => two v o.ty o.d o.a o.b (highBits (signedTy o.ty)))
  | .mulwide h o =>
    let sg := signedTy o.ty
    if o.ty.is64 then none
    else some (h, fun v => v.w64 o.d (widen sg 64 (v.r32 o.a) * widen sg 64 (last32 v sg o.b)))
  | .mad h o => some (h, fun v => three v o.ty o.d o.a o.b o.c fun a b c => a * b + c)
  | .div h o => if o.sat then none else some (h, fun v => two v o.ty o.d o.a o.b (divBits (signedTy o.ty)))
  | .rem h o => if o.sat then none else some (h, fun v => two v o.ty o.d o.a o.b (remBits (signedTy o.ty)))
  | _ => none

/-- The type that a bitwise form reads and writes its operands with. -/
def bwTy : BW → IntTy
  | .b32 => .n32
  | .b64 => .n64

/-- Bitwise, shift, count and field forms of class 0x2. -/
def bitwise : Instr → Option (Hd × (View → List Wr))
  | .and h o => some (h, fun v => two v (bwTy o.bw) o.d o.a o.b fun a b => a &&& b)
  | .or h o => some (h, fun v => two v (bwTy o.bw) o.d o.a o.b fun a b => a ||| b)
  | .xor h o => some (h, fun v => two v (bwTy o.bw) o.d o.a o.b fun a b => a ^^^ b)
  | .not h o => some (h, fun v => one v (bwTy o.bw) o.d o.a fun a => ~~~a)
  | .andn h o => some (h, fun v => two v (bwTy o.bw) o.d o.a o.b fun a b => a &&& ~~~b)
  | .shl h o => some (h, fun v => one v o.ty o.d o.a fun a => a <<< (count32 v o.b).toNat)
  | .shr h o => some (h, fun v => one v o.ty o.d o.a fun a => shrBits (signedTy o.ty) a (count32 v o.b))
  | .brev h o => some (h, fun v => one v (bwTy o.bw) o.d o.a fun a => a.reverse)
  | .bfe h o => some (h, fun v => one v o.ty o.d o.a fun a => bfeBits (signedTy o.ty) a (last32 v (signedTy o.ty) o.b))
  | .bfi h o => some (h, fun v =>
      let c := last32 v (signedTy o.ty) o.c
      if o.ty.is64 then v.w64 o.d (bfiBits (v.r64 o.a) (v.r64 o.b) c)
      else [result32 v (signedTy o.ty) o.d (bfiBits (v.r32 o.a) (v.r32 o.b) c)])
  | .popc h o => some (h, fun v =>
      [v.w32 o.d (match o.bw with
        | .b32 => (v.r32 o.a).cpop
        | .b64 => (v.r64 o.a).cpop.truncate 32)])
  | .clz h o => some (h, fun v =>
      [v.w32 o.d (match o.bw with
        | .b32 => (v.r32 o.a).clz
        | .b64 => (v.r64 o.a).clz.truncate 32)])
  | .ctz h o => some (h, fun v =>
      [v.w32 o.d (match o.bw with
        | .b32 => (v.r32 o.a).ctz
        | .b64 => (v.r64 o.a).ctz.truncate 32)])
  | _ => none

/-- A condition's result: P, or 0 or 1 in S (R214). -/
def flagWr (v : View) (d : RegNo) (x : Bool) : Wr := match v with
  | .cox _ => .s d.toNat (if x then 1 else 0)
  | .fib _ => .p d.toNat x

/-- Conditions, selection and moves of class 0x2. -/
def selection : Instr → Option (Hd × (View → List Wr))
  | .setp h cc o =>
    let sg := signedTy o.ty
    some (h, fun v => [flagWr v o.d (if o.ty.is64 then iccBits cc sg (v.r64 o.a) (last64 v sg o.b)
      else iccBits cc sg (v.r32 o.a) (last32 v sg o.b))])
  | .sel h ty d a b c => some (h, fun v => one v ty d (if (match v with
      | .cox x => x.reg c.toNat != 0
      | .fib f => f.pred c.toNat) then a else b) fun x => x)
  | .mov h ty d a => some (h, fun v => two v ty d 0 a fun _ b => b)
  | .movx h d x => some (h, fun v => v.w64 d x)
  | _ => none

end Sys2Proof.Claims

open Sys2Proof Sys2Proof.Machine Sys2Proof.Claims

/-- R210, R214, R215: the arithmetic of class 0x2, at 32 and 64 bits, signed and unsigned, saturating or not, in both
streams, with its frame. -/
def Sys2Proof.Claims.IntegerArithmetic : Prop := ∀ i h g, arithmetic i = some (h, g) → Computes i h g

/-- R214, R216: the bitwise, shift, count and field forms of class 0x2, with their frame. -/
def Sys2Proof.Claims.IntegerBits : Prop := ∀ i h g, bitwise i = some (h, g) → Computes i h g

/-- R211, R214, R217: conditions, selection and moves of class 0x2, with their frame. -/
def Sys2Proof.Claims.IntegerSelection : Prop :=
  (∀ i h g, selection i = some (h, g) → Computes i h g) ∧
  ∀ h op pd pa pb, Crosses (.plog h op pd pa pb) h fun _ x => [.p pd.toNat (match op with
    | .and => x.2.pred pa.toNat && x.2.pred pb.toNat
    | .or => x.2.pred pa.toNat || x.2.pred pb.toNat
    | .xor => x.2.pred pa.toNat ^^ x.2.pred pb.toNat
    | .andn => x.2.pred pa.toNat && !x.2.pred pb.toNat)]

/-- R210–R217: what every integer instruction writes, at 32 and 64 bits, in both streams, with its frame. -/
def Obligations.IntegerResults : Prop := IntegerArithmetic ∧ IntegerBits ∧ IntegerSelection

/-- R21, R212: a register that is written reads as written and no other changes; P0 reads 1 and ignores writes. -/
def Sys2Proof.Claims.RegisterFile : Prop :=
  (∀ (f : Fibre) r q x, (f.setReg r x).reg q = if q = r ∧ r < f.regs.length then x else f.reg q) ∧
  (∀ (f : Fibre) n m x, m < 8 → (f.setPred n x).pred m = if m = 0 then true else if m = n then x else f.pred m) ∧
  (∀ (f : Fibre) r x n, (f.setReg r x).pred n = f.pred n) ∧
  (∀ (f : Fibre) n x r, (f.setPred n x).reg r = f.reg r) ∧
  (∀ (c : Cox) r q x, (c.setReg r x).reg q = if q = r ∧ r < c.s.length then x else c.reg q)

/-! ### Control flow (R91, R142, R164) -/

namespace Sys2Proof.Claims

open Sys2Proof Sys2Proof.Machine

/-- What a party that takes a branch writes, and where it goes. -/
abbrev Jump := Option (List Wr × W64)

/-- A fibre after its lanes among the active ones have jumped or not. -/
def jumped (ls : List (Nat × Fibre)) (g : Fibre → Jump) (f : Fibre) : Fibre :=
  ls.foldl (fun f x => if x.2.fid = f.fid then (match g x.2 with
    | some o => { f.wrs o.1 with pc := o.2 }
    | none => f) else f) f

/-- A branch in the fibre stream: every issuing lane goes to the next instruction unless it jumps. -/
structure Branches (s t : State) (h : Hd) (g : Fibre → Jump) : Prop where
  fibres : ∀ fid, t.myFib fid = (s.myFib fid).map fun f =>
    if Who.fib fid ∈ s.issuers then jumped (s.act h) g { f with pc := s.nextPc } else f
  cox : t.myCox = s.myCox
  rest : t.still s.cur.core s.cur.slot = s.still s.cur.core s.cur.slot

/-- A branch in the cox stream. -/
structure CoxBranches (s t : State) (j : Jump) : Prop where
  cox : t.myCox.map Cox.bare = s.myCox.map fun c => match j with
    | some o => { (o.1.foldl Cox.wr c).bare with pc := o.2 }
    | none => { c.bare with pc := s.nextPc }
  fibres : ∀ fid, t.myFib fid = s.myFib fid
  rest : t.still s.cur.core s.cur.slot = s.still s.cur.core s.cur.slot

/-- A register that holds a code offset: V, or S (R164). -/
def offsetIn (v : View) (a : RegNo) : W64 := match v with
  | .cox c => c.reg a.toNat
  | .fib f => (f.reg a.toNat).zeroExtend 64

/-- The branches of both streams, by the state they issue in and the party's view (R164). -/
def branches : Instr → Option (Hd × (State → View → Jump))
  | .bra h t => some (h, fun _ _ => some ([], t.zeroExtend 64))
  | .braZ h a t => some (h, fun _ v => if offsetIn v a = 0 then some ([], t.zeroExtend 64) else none)
  | .braNz h a t => some (h, fun _ v => if offsetIn v a = 0 then none else some ([], t.zeroExtend 64))
  | .call h d t => some (h, fun s v =>
      some ([v.w32 d ((s.cur.pc + BitVec.ofNat 64 s.cur.len).truncate 32)], t.zeroExtend 64))
  | .callR h d a => some (h, fun s v =>
      some ([v.w32 d ((s.cur.pc + BitVec.ofNat 64 s.cur.len).truncate 32)], offsetIn v a))
  | .ret h a => some (h, fun _ v => some ([], offsetIn v a))
  | .brx h a n t => some (h, fun _ v =>
      some ([], t.zeroExtend 64 + BitVec.ofNat 64 (32 * Nat.min (offsetIn v a).toNat n.toNat)))
  | _ => none

/-- The branches of the fibre stream whose lanes decide together (R164). -/
def votes : Instr → Option (Hd × W32 × (List (Nat × Fibre) → Prop))
  | .braAny h pa t => some (h, t, fun ls => ∃ x ∈ ls, x.2.pred pa.toNat = true)
  | .braAll h pa t => some (h, t, fun ls => ∀ x ∈ ls, x.2.pred pa.toNat = true)
  | _ => none

/-- The fibres of a part stand together: all at one address and in one wait. -/
def together (b : Block) (q : Part) : Prop := ∀ x ∈ q.lanes, ∀ y ∈ q.lanes, ∀ f g,
  b.fib? x.2 = some f → b.fib? y.2 = some g → f.apart = g.apart

/-- The lanes of a list as a mask. -/
def lanesOf (ls : List (Nat × Fibre)) : BitVec 32 := ls.foldl (fun m x => m ||| (1#32 <<< x.1)) 0

/-- k of R142: the distinct places of a part's lanes, an address for each unparked lane and the wait of each parked one. -/
def standing (b : Block) (p : Part) : Nat := (distinct (p.lanes.filterMap fun x => (b.fib? x.2).map Fibre.apart)).length

/-- What a part has become: the part with its record, and the parts that a split has added. -/
def heirs (b b' : Block) (p : Part) : List Part := (b'.part? p.id).toList ++ b'.parts.drop b.parts.length

/-- The parts of a part's origin, a return that R127 has assigned to the origin among them (R141) (log 23, DEDUCED). -/
def originParts (s : State) (b : Block) (p : Part) : Nat :=
  (b.parts.filter fun q => q.origin == p.origin).length + match ((s.core b.core).assign[p.part]?).getD none with
  | some (.ret slot fid) => if slot = b.slot ∧ (b.fib? fid).any (fun f => f.origin == some p.origin) then 1 else 0
  | _ => 0

/-- R142: a part that stands at k > 1 places makes k parts, one for each place and its record with the lowest lane, if and only if
its origin would then hold at most 8 and k − 1 records are free; else it is in serial mode, its lowest ready lane running. A part at
one place stays whole, and one in serial mode never splits (R144). -/
def SplitsBy (s : State) (b b' : Block) (p : Part) : Prop :=
  let k := standing b' p
  let fits := originParts s b p + k - 1 ≤ 8 ∧ k - 1 ≤ s.freeRecords b.core p.part
  let qs := heirs b b' p
  (p.serial = true → 1 ≤ k → ∃ q, qs = [q] ∧ q.lanes = p.lanes) ∧
  (p.serial = false → k = 1 → ∃ q, qs = [q] ∧ q.lanes = p.lanes ∧ q.serial = false) ∧
  (p.serial = false → 2 ≤ k → fits → qs.length = k ∧
    (∀ q ∈ qs, q.serial = false ∧ q.origin = p.origin ∧ q.lanes ≠ [] ∧ (∀ x ∈ q.lanes, x ∈ p.lanes) ∧ together b' q) ∧
    (∀ x ∈ p.lanes, (b'.fib? x.2).isSome → ∃ q ∈ qs, x ∈ q.lanes) ∧
    ∀ x q, p.lanes.head? = some x → (b'.fib? x.2).isSome → b'.part? p.id = some q → x ∈ q.lanes) ∧
  (p.serial = false → 2 ≤ k → ¬ fits → ∃ q, qs = [q] ∧ q.serial = true ∧ q.lanes = p.lanes ∧
    q.running = (p.lanes.find? fun x => (b'.fib? x.2).any fun f => f.life = .ready).map (·.1))

end Sys2Proof.Claims

/-- R91: `nop` in its three lengths changes nothing but the address, in both streams. -/
def Sys2Proof.Claims.NopGoesOn : Prop := ∀ i h, i = .nop h ∨ i = .nopW12 h ∨ i = .nopW16 h → Computes i h fun _ => []

/-- R164: where each branch takes each party, what `call` writes, and what a branch leaves alone. -/
def Sys2Proof.Claims.BranchTargets : Prop :=
  (∀ i h g, branches i = some (h, g) → ∀ s b,
    (CoxIssuing s b → ∃ t, exec i s = .next t ∧ CoxBranches s t (g s (.cox b.cox))) ∧
    ∀ p, Issuing s b p → ∃ t, exec i s = .next t ∧ Branches s t h fun f => g s (.fib f)) ∧
  ∀ i h l v, votes i = some (h, l, v) → ∀ s b p, Issuing s b p → ∃ t, exec i s = .next t ∧
    (v (s.act h) → Branches s t h fun _ => some ([], l.zeroExtend 64)) ∧
    (¬ v (s.act h) → Branches s t h fun _ => none)

/-- R91, R164: where `nop` and the branches take each party. -/
def Obligations.BranchesAndNops : Prop := NopGoesOn ∧ BranchTargets

/-- R142: after every branch, every return from a trap and every `rjw` that waits, the part splits or enters serial mode by the
places of its lanes, and so it does whenever an issue has left some lanes parked and others not. -/
def Obligations.BranchSplits : Prop :=
  (∀ i h g, branches i = some (h, g) → ∀ s b p, Issuing s b p → ∃ t b', exec i s = .next t ∧ t.me = some b' ∧ SplitsBy s b b' p) ∧
  (∀ i h l v, votes i = some (h, l, v) → ∀ s b p, Issuing s b p →
    ∃ t b', exec i s = .next t ∧ t.me = some b' ∧ SplitsBy s b b' p) ∧
  (∀ i h, i = .xret h ∨ i = .xretSkip h → ∀ s b p, Issuing s b p → (∀ x ∈ s.act h, x.2.x.xcause.extractLsb' 0 8 ≠ 0) →
    ∃ t b', exec i s = .next t ∧ t.me = some b' ∧ SplitsBy s b b' p) ∧
  (∀ h (j : BitVec 3) s b p o, Issuing s b p → b.origin? p.origin = some o → o.j.length = 8 → p.serial = false →
    let x := o.mask j.toNat
    (x.arv ||| lanesOf ((s.act h).filter fun y => x.set.getLsbD y.1 && !x.arv.getLsbD y.1)) ≠ x.set →
    ∃ t b', exec (.rjw h j) s = .next t ∧ t.me = some b' ∧ SplitsBy s b b' p) ∧
  ∀ (s : State) b p, s.block? b.core b.slot = some b → b.part? p.id = some p →
    ∃ b', (s.settle b.core b.slot p.id).block? b.core b.slot = some b' ∧ SplitsBy s b b' p

/-! ### Floating point, conversion and MXFP8 (R53–R72, R218–R223) -/

namespace Sys2Proof.Claims

open Sys2Proof Sys2Proof.Machine

/-- The real value of a finite encoding; 0 for NaN and the infinities. -/
noncomputable def real : FVal → ℝ
  | .fin neg m e => (if neg then -1 else 1) * (m : ℝ) * (2 : ℝ) ^ e
  | _ => 0

/-- x is a finite encoding of the format. -/
def finiteIn (f : Fmt) (x : Nat) : Prop := x < 2 ^ (1 + f.ew + f.fw) ∧ (f.decode x).nonFinite = false

/-- The largest finite magnitude of the format, and half the distance from it to the next power of two step. -/
noncomputable def largest (f : Fmt) : ℝ := real (f.decode f.maxBits)
noncomputable def halfUlp (f : Fmt) : ℝ := (largest f - real (f.decode (f.maxBits - 1))) / 2

/-- x is the encoding of the real v ≠ 0 that Table 3-2 gives in the format and mode, for formats with infinities: the finite
neighbour on the mode's side, the nearer one with ties to even, or past the largest magnitude an infinity or that
magnitude. -/
def Rounded (f : Fmt) (r : Rnd) (v : ℝ) (x : Nat) : Prop :=
  let inf := f.infBits false (decide (v < 0))
  match r with
  | .rne => if largest f + halfUlp f ≤ |v| then x = inf
      else finiteIn f x ∧ ((f.decode x).negative = decide (v < 0)) ∧ ∀ y, finiteIn f y →
        |real (f.decode x) - v| ≤ |real (f.decode y) - v| ∧
        (|real (f.decode x) - v| = |real (f.decode y) - v| → real (f.decode x) = real (f.decode y) ∨ x % 2 = 0)
  | .rz => finiteIn f x ∧ ((f.decode x).negative = decide (v < 0)) ∧ |real (f.decode x)| ≤ |v| ∧
      ∀ y, finiteIn f y → |real (f.decode y)| ≤ |v| → |real (f.decode y)| ≤ |real (f.decode x)|
  | .ru => if largest f < v then x = inf
      else finiteIn f x ∧ ((f.decode x).negative = decide (v < 0)) ∧ v ≤ real (f.decode x) ∧
        ∀ y, finiteIn f y → v ≤ real (f.decode y) → real (f.decode x) ≤ real (f.decode y)
  | .rd => if v < -largest f then x = inf
      else finiteIn f x ∧ ((f.decode x).negative = decide (v < 0)) ∧ real (f.decode x) ≤ v ∧
        ∀ y, finiteIn f y → real (f.decode y) ≤ v → real (f.decode y) ≤ real (f.decode x)

/-- The formats of the arithmetic instructions. -/
def arithFmt (f : Fmt) : Prop := f = .f32 ∨ f = .f16 ∨ f = .bf16

/-- Every active lane leaves non-finite trap mode off (R69). -/
def noTrapMode (s : State) (h : Hd) : Prop := ∀ x ∈ s.act h, x.2.nftrap = false

/-- A fibre-stream instruction that writes its lanes' results where no lane is in trap mode. -/
def Delivers (i : Instr) (h : Hd) (g : LaneWrites) : Prop := ∀ s b p,
  Issuing s b p → noTrapMode s h → ∃ t, exec i s = .next t ∧ Writes s t h g

/-- An FP32 operand: a register, or the immediate (R211). -/
def f32In (f : Fibre) : FSrc → Nat
  | .reg r => (f.reg r.toNat).toNat
  | .imm x => x.toNat
def f32Reg (f : Fibre) (r : RegNo) : Nat := (f.reg r.toNat).toNat

/-- FP32 instructions: the result of a lane, as an encoding (R218). -/
def fp32 : Instr → Option (Hd × RegNo × (Fibre → Nat))
  | .addF32 h o => some (h, o.d, fun f => Fmt.f32.add o.rnd (f32Reg f o.a) (f32In f o.b))
  | .subF32 h o => some (h, o.d, fun f => Fmt.f32.sub o.rnd (f32Reg f o.a) (f32In f o.b))
  | .mulF32 h o => some (h, o.d, fun f => Fmt.f32.mul o.rnd (f32Reg f o.a) (f32In f o.b))
  | .fmaF32 h o c => some (h, o.d, fun f => Fmt.f32.fma o.rnd (f32Reg f o.a) (f32In f o.b) (f32In f c))
  | .minF32 h num d a b => some (h, d, fun f => Fmt.f32.minMax false num (f32Reg f a) (f32In f b))
  | .maxF32 h num d a b => some (h, d, fun f => Fmt.f32.minMax true num (f32Reg f a) (f32In f b))
  | .divF32 h o => some (h, o.d, fun f => Fmt.f32.div o.rnd (f32Reg f o.a) (f32In f o.b))
  | .sqrtF32 h o => some (h, o.d, fun f => Fmt.f32.sqrt o.rnd (f32Reg f o.a))
  | .rcpF32 h o => some (h, o.d, fun f => Fmt.f32.div o.rnd 0x3F800000 (f32Reg f o.a))
  | .rsqrtF32 h o => some (h, o.d, fun f => Fmt.f32.rsqrt o.rnd (f32Reg f o.a))
  | .mxw h ty d a b => some (h, d, fun f => mxWiden (fmt8 ty) (f32Reg f a % 256) (f32Reg f b % 256))
  | _ => none

/-- Half i of a register as an encoding of a 16-bit format. -/
def h16 (f : Fibre) (r : RegNo) (i : Nat) : Nat := ((f.reg r.toNat).extractLsb' (16 * i) 16).toNat
def f16s (ty : F16Ty) : Fmt := match ty with
  | .f16 => .f16
  | .bf16 => .bf16

/-- 16-bit instructions: the encodings of the two halves, low half first (R63, R218). -/
def fp16 : Instr → Option (Hd × RegNo × (Fibre → Nat → Nat))
  | .addF16 h o => some (h, o.d, fun f i => (f16s o.ty).add o.rnd (h16 f o.a i) (h16 f o.b i))
  | .subF16 h o => some (h, o.d, fun f i => (f16s o.ty).sub o.rnd (h16 f o.a i) (h16 f o.b i))
  | .mulF16 h o => some (h, o.d, fun f i => (f16s o.ty).mul o.rnd (h16 f o.a i) (h16 f o.b i))
  | .fmaF16 h o c => some (h, o.d, fun f i => (f16s o.ty).fma o.rnd (h16 f o.a i) (h16 f o.b i) (h16 f c i))
  | .packF16 h ty r d a b => some (h, d, fun f i =>
      (f16s ty).ofVal r false (Fmt.f32.decode (f32Reg f (if i = 0 then a else b))))
  | _ => none

/-- The real and imaginary parts of a `.c64` pair (R62). -/
def re (f : Fibre) (r : RegNo) : FVal := Fmt.f32.decode (f.reg r.toNat).toNat
def im (f : Fibre) (r : RegNo) : FVal := Fmt.f32.decode (f.reg (r.toNat + 1)).toNat

/-- Complex instructions: the terms whose exact sums the two parts are, each rounded once (R72). -/
def complex : Instr → Option (Hd × CBin × (Fibre → List FVal × List FVal))
  | .caddC64 h o => some (h, o, fun f => ([re f o.a, re f o.b], [im f o.a, im f o.b]))
  | .cmulC64 h o => some (h, o, fun f =>
      ([(re f o.a).mul (re f o.b), ((im f o.a).mul (im f o.b)).neg],
       [(re f o.a).mul (im f o.b), (im f o.a).mul (re f o.b)]))
  | .cfmaC64 h o c => some (h, o, fun f =>
      ([(re f o.a).mul (re f o.b), ((im f o.a).mul (im f o.b)).neg, re f c],
       [(re f o.a).mul (im f o.b), (im f o.a).mul (re f o.b), im f c]))
  | _ => none

/-- The class of an FP32 encoding by its fields (R219): −∞, negative normal, negative subnormal, −0, +0, positive
subnormal, positive normal, +∞, NaN, in bits 0 to 8. -/
def classOf (x : W32) : Nat :=
  let e := x.extractLsb' 23 8
  let m := x.extractLsb' 0 23
  if e = 255 then (if m ≠ 0 then 8 else if x.msb then 0 else 7)
  else if e = 0 then (if m = 0 then (if x.msb then 3 else 4) else if x.msb then 2 else 5)
  else if x.msb then 1 else 6

/-- Whether a floating condition holds between two values (Table 10-3). -/
def fcc (c : FCc) (a b : FVal) : Bool :=
  let un := a.isNan || b.isNan
  match c with
  | .eq => !un && !(a.lt b || b.lt a)
  | .ne => un || a.lt b || b.lt a
  | .lt => !un && a.lt b
  | .le => !un && !b.lt a
  | .gt => !un && b.lt a
  | .ge => !un && !a.lt b
  | .nan => un
  | .num => !un

end Sys2Proof.Claims

/-- Table 3-1: each format with its exponent width, fraction width, bias, canonical NaN, and whether it has infinities. -/
def Sys2Proof.Claims.formats : List (Fmt × Nat × Nat × Nat × Nat × Bool) :=
  [(.f32, 8, 23, 127, 0x7FC00000, true), (.f16, 5, 10, 15, 0x7E00, true), (.bf16, 8, 7, 127, 0x7FC0, true),
   (.e5m2, 5, 2, 15, 0x7E, true), (.e4m3fmt, 4, 3, 7, 0x7F, false)]

/-- R53: the value of every encoding of the five formats, by its fields. -/
def Sys2Proof.Claims.DecodesByFields : Prop := ∀ f ew fw bias nan hasInf, (f, ew, fw, bias, nan, hasInf) ∈ formats →
  ∀ x, x < 2 ^ (1 + ew + fw) →
    let s : Nat := x / 2 ^ (ew + fw)
    let e : Nat := x / 2 ^ fw % 2 ^ ew
    let m : Nat := x % 2 ^ fw
    let stands := fun (v : ℝ) => (f.decode x).nonFinite = false ∧ (f.decode x).negative = decide (s = 1) ∧ real (f.decode x) = (-1) ^ s * v
    (e = 0 → stands (m * (2 : ℝ) ^ (1 - (bias : ℤ) - fw))) ∧
    (0 < e → e < 2 ^ ew - 1 ∨ hasInf = false ∧ m < 2 ^ fw - 1 → stands ((1 + m / 2 ^ fw) * (2 : ℝ) ^ ((e : ℤ) - bias))) ∧
    (e = 2 ^ ew - 1 → hasInf = true → f.decode x = if m = 0 then .inf (decide (s = 1)) else .nan) ∧
    (e = 2 ^ ew - 1 → hasInf = false → m = 2 ^ fw - 1 → f.decode x = .nan)

/-- R53, R54: every finite encoding and every infinity is what its own value rounds to, in every mode, and a NaN rounds to the
canonical NaN of its format. -/
def Sys2Proof.Claims.EncodingsAreExact : Prop := ∀ f ew fw bias nan hasInf, (f, ew, fw, bias, nan, hasInf) ∈ formats →
  ∀ r sat x, x < 2 ^ (1 + ew + fw) →
    ((f.decode x).nonFinite = false → f.ofVal r sat (f.decode x) = x) ∧
    ((f.decode x).isNan = false → f.ofVal r false (f.decode x) = x) ∧
    ((f.decode x).isNan = true → f.ofVal r sat (f.decode x) = nan)

/-- R54: an operation writes the canonical NaN for a NaN operand, for the difference of two infinities, and for an infinity times
zero. -/
def Sys2Proof.Claims.NansAreCanonical : Prop := ∀ f ew fw bias nan hasInf, (f, ew, fw, bias, nan, hasInf) ∈ formats → ∀ r a b c,
  ((f.decode a).isNan ∨ (f.decode b).isNan → f.add r a b = nan ∧ f.sub r a b = nan ∧ f.mul r a b = nan ∧ f.div r a b = nan) ∧
  ((f.decode a).isNan ∨ (f.decode b).isNan ∨ (f.decode c).isNan → f.fma r a b c = nan) ∧
  ((f.decode a).isNan → f.sqrt r a = nan ∧ f.rsqrt r a = nan) ∧
  (∀ s, f.decode a = .inf s → f.decode b = .inf (!s) → f.add r a b = nan ∧ f.div r a b = nan) ∧
  (∀ s, f.decode a = .inf s → f.decode b = .inf s → f.sub r a b = nan ∧ f.div r a b = nan) ∧
  (∀ s, f.decode a = .inf s → (f.decode b).isZero → f.mul r a b = nan ∧ f.mul r b a = nan ∧ f.fma r a b c = nan)

/-- R64, R65: a finite value that is not zero rounds to the encoding Table 3-2 names. -/
def Sys2Proof.Claims.RoundingIsCorrect : Prop := ∀ f, arithFmt f → ∀ r neg m e, m ≠ 0 →
  Rounded f r (real (.fin neg m e)) (f.round r false neg m e false)

/-- R53, R54, R64, R65: what every encoding of every format stands for, that values round to it and back exactly, the canonical NaN,
and that rounding gives the encoding that Table 3-2 names. -/
def Obligations.NumberFormats : Prop := DecodesByFields ∧ EncodingsAreExact ∧ NansAreCanonical ∧ RoundingIsCorrect

/-- R66: z is the zero that a sum of two terms with exact sum zero gives, by the terms' values and signs. -/
def Sys2Proof.Claims.ZeroSum (f : Fmt) (r : Rnd) (x y : ℝ × Bool) (z : Nat) : Prop :=
  let both := fun (neg : Bool) => x = (0, neg) ∧ y = (0, neg)
  (both true → z = f.sign true) ∧ (both false → z = f.sign false) ∧ (¬ both true → ¬ both false → z = f.sign (r == .rd))

/-- R65, R66, R218: sums, differences, products and fused products of finite operands are rounded once from the exact
value, and an exact zero has the sign R66 gives. -/
def Sys2Proof.Claims.ArithmeticRoundsOnce : Prop := ∀ f, arithFmt f → ∀ r a b c, finiteIn f a → finiteIn f b → finiteIn f c →
  let A := real (f.decode a)
  let B := real (f.decode b)
  let C := real (f.decode c)
  (A + B ≠ 0 → Rounded f r (A + B) (f.add r a b)) ∧
  (A - B ≠ 0 → Rounded f r (A - B) (f.sub r a b)) ∧
  (A * B ≠ 0 → Rounded f r (A * B) (f.mul r a b)) ∧
  (A * B + C ≠ 0 → Rounded f r (A * B + C) (f.fma r a b c)) ∧
  let p := (f.decode a).negative
  let q := (f.decode b).negative
  (A * B = 0 → f.mul r a b = f.sign (p != q)) ∧
  (A + B = 0 → ZeroSum f r (A, p) (B, q) (f.add r a b)) ∧
  (A - B = 0 → ZeroSum f r (A, p) (-B, !q) (f.sub r a b)) ∧
  (A * B + C = 0 → ZeroSum f r (A * B, p != q) (C, (f.decode c).negative) (f.fma r a b c))

/-- R218: the quotient and the square roots of finite operands are correctly rounded. -/
def Sys2Proof.Claims.QuotientsAndRoots : Prop := ∀ r a b, finiteIn .f32 a → finiteIn .f32 b →
  let A := real (Fmt.f32.decode a)
  let B := real (Fmt.f32.decode b)
  (A ≠ 0 → B ≠ 0 → Rounded .f32 r (A / B) (Fmt.f32.div r a b)) ∧
  (0 < A → Rounded .f32 r (Real.sqrt A) (Fmt.f32.sqrt r a)) ∧
  (0 < A → Rounded .f32 r (1 / Real.sqrt A) (Fmt.f32.rsqrt r a)) ∧
  (A = 0 → B ≠ 0 → Fmt.f32.div r a b = Fmt.f32.sign ((Fmt.f32.decode a).negative != (Fmt.f32.decode b).negative)) ∧
  (A ≠ 0 → B = 0 → Fmt.f32.div r a b =
    Fmt.f32.infBits false ((Fmt.f32.decode a).negative != (Fmt.f32.decode b).negative)) ∧
  (A = 0 → B = 0 → Fmt.f32.div r a b = Fmt.f32.nanBits) ∧
  (A < 0 → Fmt.f32.sqrt r a = Fmt.f32.nanBits ∧ Fmt.f32.rsqrt r a = Fmt.f32.nanBits) ∧
  (A = 0 → Fmt.f32.sqrt r a = Fmt.f32.sign (Fmt.f32.decode a).negative ∧
    Fmt.f32.rsqrt r a = Fmt.f32.infBits false (Fmt.f32.decode a).negative)

/-- R65, R66, R218: sums, products, quotients and roots are rounded once, and their zeros have the signs that the spec gives. -/
def Obligations.FloatArithmetic : Prop := ArithmeticRoundsOnce ∧ QuotientsAndRoots

/-- R62, R63, R72, R218: the floating results, written where no lane is in trap mode, and their frame. -/
def Sys2Proof.Claims.FloatResults : Prop :=
  (∀ i h d g, fp32 i = some (h, d, g) → Delivers i h fun _ x => [.v d.toNat (BitVec.ofNat 32 (g x.2))]) ∧
  (∀ i h d g, fp16 i = some (h, d, g) → Delivers i h fun _ x =>
    [.v d.toNat (BitVec.ofNat 32 (g x.2 0 + g x.2 1 * 65536))]) ∧
  (∀ i h o g, complex i = some (h, o, g) → Delivers i h fun _ x =>
    [.v o.d.toNat (BitVec.ofNat 32 (Fmt.f32.sum o.rnd (g x.2).1)),
     .v (o.d.toNat + 1) (BitVec.ofNat 32 (Fmt.f32.sum o.rnd (g x.2).2))])

/-- R217–R219: `setp` and `class` never trap, whatever the lane's mode. -/
def Sys2Proof.Claims.FloatTests : Prop :=
  (∀ h cc pd a b, Crosses (.setpF32 h cc pd a b) h fun _ x =>
    [.p pd.toNat (fcc cc (Fmt.f32.decode (f32Reg x.2 a)) (Fmt.f32.decode (f32In x.2 b)))]) ∧
  ∀ h d a, Crosses (.classF32 h d a) h fun _ x =>
    [.v d.toNat (BitVec.ofNat 32 (2 ^ classOf (x.2.reg a.toNat)))]

/-- R218, R219: what every floating-point instruction writes. -/
def Obligations.FloatForms : Prop := FloatResults ∧ FloatTests

namespace Sys2Proof.Claims

open Sys2Proof Sys2Proof.Machine

/-- The width and signedness of an integer conversion type, and the format of a floating one (Table 10-5). -/
def intTy : CvtTy → Option (Nat × Bool)
  | .i8 => some (8, true)
  | .n8 => some (8, false)
  | .i16 => some (16, true)
  | .n16 => some (16, false)
  | .i32 => some (32, true)
  | .n32 => some (32, false)
  | .i64 => some (64, true)
  | .n64 => some (64, false)
  | _ => none
def floatTy : CvtTy → Option Fmt
  | .f32 => some .f32
  | .f16 => some .f16
  | .bf16 => some .bf16
  | .e4m3 => some .e4m3fmt
  | .e5m2 => some .e5m2
  | _ => none

/-- Element el of a source: a pair, a register, or a packed half or byte (R63). -/
def element (f : Fibre) (t : CvtTy) (el : Nat) (a : RegNo) : Nat := match t with
  | .i64 | .n64 => ((f.reg (a.toNat + 1)) ++ (f.reg a.toNat)).toNat
  | .i32 | .n32 | .f32 => (f.reg a.toNat).toNat
  | .i16 | .n16 | .f16 | .bf16 => ((f.reg a.toNat).extractLsb' (16 * el) 16).toNat
  | .i8 | .n8 | .e4m3 | .e5m2 => ((f.reg a.toNat).extractLsb' (8 * el) 8).toNat

/-- The value of w bits, and the range of w bits. -/
def asInt (w : Nat) (sg : Bool) (x : Nat) : Int := if sg then (BitVec.ofNat w x).toInt else x
def least (w : Nat) (sg : Bool) : Int := if sg then -(2 ^ (w - 1)) else 0
def most (w : Nat) (sg : Bool) : Int := if sg then 2 ^ (w - 1) - 1 else 2 ^ w - 1

/-- A floating value as an integer: NaN is 0, what is too large is clamped (R68). -/
def toInteger (r : Rnd) (w : Nat) (sg : Bool) : FVal → Int
  | .nan => 0
  | .inf neg => if neg then least w sg else most w sg
  | .fin neg m e => Max.max (least w sg) (Min.min (most w sg) (roundInt r neg m e))

/-- The result of a conversion: an integer, or an encoding (R68, R220, R221). -/
def convert (r : Rnd) (sat : Bool) (st dt : CvtTy) (x : Nat) : Int := match intTy st, floatTy st, intTy dt, floatTy dt with
  | _, some sf, _, some df => df.ofVal r sat (sf.decode x)
  | _, some sf, some (w, sg), _ => toInteger r w sg (sf.decode x)
  | some (w, sg), _, _, some df =>
    let v := asInt w sg x
    df.ofVal r sat (.fin (decide (v < 0)) v.natAbs 0)
  | some (w, sg), _, some (dw, dsg), _ =>
    let v := asInt w sg x
    if sat then Max.max (least dw dsg) (Min.min (most dw dsg) v) else asInt dw dsg (v % 2 ^ dw).toNat
  | _, _, _, _ => 0

/-- A result of 32 or 64 bits in a register or pair. -/
def intoReg (wide : Bool) (d : RegNo) (x : Int) : List Wr :=
  if wide then [.v d.toNat ((BitVec.ofInt 64 x).extractLsb' 0 32), .v (d.toNat + 1) ((BitVec.ofInt 64 x).extractLsb' 32 32)]
  else [.v d.toNat (BitVec.ofInt 32 x)]

/-- Byte i of a 32-bit word from its four bytes, byte 0 lowest. -/
def word4 (b : Nat → BitVec 8) : W32 := b 3 ++ b 2 ++ b 1 ++ b 0

/-- The byte that a selector of `prmt` picks: bits 2:0 name it among the eight bytes of (b, a), bit 3 fills with its sign
(Table 10-6). -/
def permuted (f : Fibre) (a b : RegNo) (c : W32) (i : Nat) : BitVec 8 :=
  let s := c.extractLsb' (4 * i) 4
  let y := ((f.reg b.toNat) ++ (f.reg a.toNat)).extractLsb' (8 * (s.toNat % 8)) 8
  if s.msb then (if y.msb then 0xFF else 0) else y

/-- The FP32 sources of `pack` to 8-bit formats: the registers of the pairs A and B in order. -/
def packed (f : Fibre) (a b : RegNo) : List Nat :=
  [a.toNat, a.toNat + 1, b.toNat, b.toNat + 1].map fun r => (f.reg r).toNat

end Sys2Proof.Claims

/-- R64, R68: rounding to an integer goes down, up, toward zero, or to the nearest with ties to even. -/
def Sys2Proof.Claims.IntegerRounding : Prop := ∀ r neg m e,
  let v := real (.fin neg m e)
  let n := roundInt r neg m e
  match r with
  | .rd => n = ⌊v⌋
  | .ru => n = ⌈v⌉
  | .rz => n = if neg then ⌈v⌉ else ⌊v⌋
  | .rne => |v - n| ≤ 1 / 2 ∧ (|v - n| = 1 / 2 → n % 2 = 0)

/-- R63, R68, R220–R222: conversions, permutation, packing and widening, written where no lane is in trap mode, and
their frame. -/
def Sys2Proof.Claims.ConversionResults : Prop :=
  (∀ h r sat el dt st d a, Delivers (.cvt h r sat el dt st d a) h fun _ x =>
    intoReg dt.wide d (convert r sat st dt (element x.2 st el.toNat a))) ∧
  (∀ h d a b c, Crosses (.prmt h d a b c) h fun _ x =>
    [.v d.toNat (word4 (permuted x.2 a b (match c with
      | .reg r => x.2.reg r.toNat
      | .imm v => v)))]) ∧
  (∀ h ty sat r d a b, Delivers (.packF8 h ty sat r d a b) h fun _ x =>
    [.v d.toNat (word4 fun i => BitVec.ofNat 8 ((fmt8 ty).ofVal r sat (Fmt.f32.decode ((packed x.2 a b).getD i 0))))]) ∧
  (∀ h ty d a, Delivers (.unpack h ty d a) h fun _ x =>
    let k := match ty with
      | .f16 | .bf16 => 2
      | .e4m3 | .e5m2 => 4
    let fm := match ty with
      | .f16 => Fmt.f16
      | .bf16 => Fmt.bf16
      | .e4m3 => Fmt.e4m3fmt
      | .e5m2 => Fmt.e5m2
    (List.range k).map fun i => .v (d.toNat + i) (BitVec.ofNat 32 (Fmt.f32.ofVal .rne false
      (fm.decode ((x.2.reg a.toNat).extractLsb' (32 / k * i) (32 / k)).toNat))))

/-- R58, R59, R223: `mxq` quantises the 32 lanes as one block, +0.0 in a lane that is not active, and gives each lane
its element with the shared scale above it. -/
def Sys2Proof.Claims.MxBlocks : Prop :=
  (∀ h ty d a, Delivers (.mxq h ty d a) h fun ls x =>
    let blk := (List.range 32).map fun L => match ls.find? fun y => y.1 == L with
      | some y => (y.2.reg a.toNat).toNat
      | none => 0
    let q := mxQuant (fmt8 ty) blk
    [.v d.toNat (BitVec.ofNat 16 0 ++ BitVec.ofNat 8 q.1 ++ BitVec.ofNat 8 (q.2.getD x.1 0))]) ∧
  ∀ ty (vs : List Nat), (∀ v ∈ vs, finiteIn .f32 v) → (∃ v ∈ vs, real (Fmt.f32.decode v) ≠ 0) →
    let q := mxQuant (fmt8 ty) vs
    let emax : Int := match ty with
      | .e4m3 => 8
      | .e5m2 => 15
    q.2.length = vs.length ∧ q.1 ≤ 254 ∧
    (∀ v ∈ vs, |real (Fmt.f32.decode v)| < (2 : ℝ) ^ ((q.1 : Int) - 127 + emax + 1) ∨ q.1 = 254) ∧
    (q.1 = 0 ∨ ∃ v ∈ vs, (2 : ℝ) ^ ((q.1 : Int) - 127 + emax) ≤ |real (Fmt.f32.decode v)|)

/-- R220–R223: conversions, packing and block formats. -/
def Obligations.Conversions : Prop := IntegerRounding ∧ ConversionResults ∧ MxBlocks

/-! ### Cross-lane instructions (R73, R146, R224–R230) and matches (R169) -/

namespace Sys2Proof.Claims

open Sys2Proof Sys2Proof.Machine

/-- A register, or a pair as 64 bits, of a fibre. -/
def value (f : Fibre) (b64 : Bool) (r : RegNo) : W64 :=
  if b64 then f.reg (r.toNat + 1) ++ f.reg r.toNat else (f.reg r.toNat).zeroExtend 64
/-- The writes of a value. -/
def into (b64 : Bool) (d : RegNo) (x : W64) : List Wr :=
  if b64 then [.v d.toNat (x.extractLsb' 0 32), .v (d.toNat + 1) (x.extractLsb' 32 32)]
  else [.v d.toNat (x.extractLsb' 0 32)]

/-- Shuffles: the source lane of lane L for operand n, none where there is none (R225). -/
def shuffles : Instr → Option (Hd × Bool × RegNo × RegNo × FSrc × (Nat → Nat → Option Nat))
  | .shflIdx h w d a b => some (h, w, d, a, b, fun _ n => some n)
  | .shflUp h w d a b => some (h, w, d, a, b, fun L n => if n ≤ L then some (L - n) else none)
  | .shflDown h w d a b => some (h, w, d, a, b, fun L n => some (L + n))
  | .shflXor h w d a b => some (h, w, d, a, b, fun L n => some (L ^^^ (n % 32)))
  | _ => none

/-- Quad exchanges: the source lane of lane L (R227). -/
def quads : Instr → Option (Hd × Bool × RegNo × RegNo × (Nat → Nat))
  | .qxH h w d a => some (h, w, d, a, fun L => L ^^^ 1)
  | .qxV h w d a => some (h, w, d, a, fun L => L ^^^ 2)
  | .qxD h w d a => some (h, w, d, a, fun L => L ^^^ 3)
  | .qbc h w d a j => some (h, w, d, a, fun L => L / 4 * 4 + j.toNat)
  | _ => none

/-- One step of a reduction, and the value of no lane (R73, R226). -/
def combine (o : RedOp) (a b : W32) : W32 := match o with
  | .addI | .addN => a + b
  | .addF r => BitVec.ofNat 32 (Fmt.f32.add r a.toNat b.toNat)
  | .minI => minBits true a b
  | .minN => minBits false a b
  | .maxI => maxBits true a b
  | .maxN => maxBits false a b
  | .minF => BitVec.ofNat 32 (Fmt.f32.minMax false false a.toNat b.toNat)
  | .maxF => BitVec.ofNat 32 (Fmt.f32.minMax true false a.toNat b.toNat)
  | .andB => a &&& b
  | .orB => a ||| b
  | .xorB => a ^^^ b
def identity (o : RedOp) : W32 := match o with
  | .addI | .addN | .orB | .xorB | .maxN => 0
  | .addF _ => 0x80000000
  | .minI => 0x7FFFFFFF
  | .maxI => 0x80000000
  | .minN | .andB => 0xFFFFFFFF
  | .minF => 0x7F800000
  | .maxF => 0xFF800000

/-- The fold of lanes' values in lane order, the identity over no lane; a floating NaN is the canonical one (R54, R73). -/
def folded (o : RedOp) : List W32 → W32
  | [] => identity o
  | a :: r =>
    let x := r.foldl (combine o) a
    match o with
    | .addF _ | .minF | .maxF => if (Fmt.f32.decode x.toNat).isNan then 0x7FC00000 else x
    | _ => x

/-- Reductions and scans: which active lanes' values lane L folds (R226). -/
def reductions : Instr → Option (Hd × RedOp × RegNo × RegNo × (Nat → Nat → Bool))
  | .red h o d a => some (h, o, d, a, fun _ _ => true)
  | .scan h o d a => some (h, o, d, a, fun L m => m ≤ L)
  | .scanx h o d a => some (h, o, d, a, fun L m => m < L)
  | _ => none

/-- A lane mask: bit m is set when some lane m of the list satisfies the test. -/
def maskOf (ls : List (Nat × Fibre)) (p : Nat × Fibre → Bool) : W32 :=
  (ls.filter p).foldl (fun m y => m ||| (1#32 <<< y.1)) 0

/-- Bits [31:k+1] of a register. -/
def above (k : Nat) (x : W32) : W32 := x >>> (k + 1)

/-- Votes, counts, conflicts and matches over the active lanes (Table 10-7, R169). -/
def polls : Instr → Option (Hd × LaneWrites)
  | .ballot h d pa => some (h, fun ls _ => [.v d.toNat (maskOf ls fun y => y.2.pred pa.toNat)])
  | .pfxpop h d pa => some (h, fun ls x =>
      [.v d.toNat (BitVec.ofNat 32 (ls.countP fun y => y.1 < x.1 && y.2.pred pa.toNat))])
  | .conf h w d a => some (h, fun ls x =>
      [.v d.toNat (maskOf ls fun y => y.1 < x.1 && value y.2 w a == value x.2 w a)])
  | .confFirst h w pd a => some (h, fun ls x =>
      [.p pd.toNat (ls.all fun y => x.1 ≤ y.1 || value y.2 w a != value x.2 w a)])
  | .bpcnt h d a b k => some (h, fun ls x =>
      [.v d.toNat (BitVec.ofNat 32 (ls.countP fun y => above k.toNat (y.2.reg a.toNat) == above k.toNat (x.2.reg b.toNat) &&
        (y.2.reg a.toNat).getLsbD k.toNat))])
  | .bpmatch h d a b k => some (h, fun ls x =>
      [.v d.toNat (BitVec.ofNat 32 (ls.countP fun y => above k.toNat (y.2.reg a.toNat) == above k.toNat (x.2.reg b.toNat)))])
  | .matchAny h w d a => some (h, fun ls x => [.v d.toNat (maskOf ls fun y => value y.2 w a == value x.2 w a)])
  | .matchAll h w pd a => some (h, fun ls x => [.p pd.toNat (ls.all fun y => value y.2 w a == value x.2 w a)])
  | _ => none

/-- n bytes of a block's constant space as a number; bytes from CSIZE on read zero (R238). -/
def constNat (b : Block) (off : Nat) : Nat → Nat
  | 0 => 0
  | n + 1 => (if off < b.kr.csize.toNat then (b.const.get off).toNat else 0) + 256 * constNat b (off + 1) n

/-- Output i of `mv` (R230): the exact sum of the products and the bias rounded once, then `.relu`. -/
def mvOut (b : Block) (f : Fibre) (o : MvOps) (i : Nat) : Nat :=
  let k := o.k1.toNat + 1
  let sz := if o.bf16 then 2 else 4
  let off := (f.reg o.b.toNat).toNat
  let w := fun j => (if o.bf16 then Fmt.bf16 else Fmt.f32).decode (constNat b (off + sz * (i * k + j)) sz)
  let bias := (off + sz * (o.m1.toNat + 1) * k + 3) / 4 * 4
  let y := Fmt.f32.sum o.rnd (((List.range k).map fun j => (w j).mul (Fmt.f32.decode (f.reg (o.a.toNat + j)).toNat)) ++
    if o.bias then [Fmt.f32.decode (constNat b (bias + 4 * i) 4)] else [])
  if o.relu && (Fmt.f32.decode y).negative then 0 else y

/-- The weights and biases of `mv` lie at an aligned offset within 131,072 bytes (R230). -/
def mvInside (f : Fibre) (o : MvOps) : Prop :=
  let off := (f.reg o.b.toNat).toNat
  let last := off + (if o.bf16 then 2 else 4) * (o.m1.toNat + 1) * (o.k1.toNat + 1)
  off % 4 = 0 ∧ (if o.bias then (last + 3) / 4 * 4 + 4 * (o.m1.toNat + 1) else last) ≤ 131072

end Sys2Proof.Claims

/-- R225, R227: shuffles and quad exchanges, and their frame. A shuffle reads the active lanes and keeps its own value
where there is none; a quad exchange reads any live lane of the part that issues, and R146 supplies a missing one. -/
def Sys2Proof.Claims.LaneMoves : Prop :=
  (∀ i h w d a n src, shuffles i = some (h, w, d, a, n, src) → Crosses i h fun ls x =>
    into w d (match (src x.1 (f32In x.2 n)).bind fun L => ls.find? fun y => y.1 == L with
      | some y => value y.2 w a
      | none => value x.2 w a)) ∧
  ∀ i h w d a src, quads i = some (h, w, d, a, src) → ∀ s b p, Issuing s b p →
    ∃ t, exec i s = .next t ∧ Writes s t h fun _ x =>
      into w d (match (b.lanesOf p).find? fun y => y.1 == src x.1 with
        | some y => value y.2 w a
        | none => match (b.lanesOf p).find? fun y => y.1 / 4 == x.1 / 4 with
          | some y => value y.2 w a
          | none => value x.2 w a)

/-- R73, R226: reductions and scans fold the active lanes in order, written where no lane is in trap mode, with their
frame; an exclusive scan gives the first lane the identity. -/
def Sys2Proof.Claims.Reductions : Prop := ∀ i h o d a sel, reductions i = some (h, o, d, a, sel) →
  Delivers i h fun ls x => [.v d.toNat (folded o ((ls.filter fun y => sel x.1 y.1).map fun y => y.2.reg a.toNat))]

/-- R169, R228: votes, counts, conflicts and matches over the active lanes, and their frame. -/
def Sys2Proof.Claims.LanePolls : Prop := ∀ i h g, polls i = some (h, g) → Crosses i h g

/-- R224–R229: what lanes read of one another. -/
def Obligations.CrossLane : Prop := LaneMoves ∧ LanePolls

/-- R229, R230: `mv` gives every lane its m outputs where its operands lie inside constant space, no lane is in trap mode, and
each lane's earlier reads and its stores to constant space are performed (R298), with its frame. -/
def Sys2Proof.Claims.MatrixVector : Prop := ∀ h o s b p, Issuing s b p → noTrapMode s h →
  (∀ x ∈ s.act h, mvInside x.2 o ∧ s.mayReadConst b (.fib x.2.fid) = true) → ∃ t, exec (.mvWt h o) s = .next t ∧ Writes s t h fun _ x =>
    (List.range (o.m1.toNat + 1)).map fun i => .v (o.d.toNat + i) (BitVec.ofNat 32 (mvOut b x.2 o i))

/-- R225, R230: reductions, scans and `mv.wt`. -/
def Obligations.LaneSums : Prop := Reductions ∧ MatrixVector

/-! ### Memory: addresses, loads, stores, and what performs them (R231–R279, R295–R298) -/

namespace Sys2Proof.Claims

open Sys2Proof Sys2Proof.Machine

/-- The state issues for block b, which is placed on a core that exists: for its cox thread, or for one of its parts. -/
structure Runs (s : State) (b : Block) : Prop where
  me : s.me = some b
  th : s.cur.th = .cox ∨ ∃ p : Part, s.cur.th = .part p.id ∧ b.part? p.id = some p
  core : b.core < s.cores.length

/-- Every issuing party goes to the next instruction, and no thread of the block changes in another way than `u` and `c`
say; each is applied for the active lanes of a fibre, and for the cox thread if it issues. -/
structure Advances (s t : State) (h : Hd) (u : Nat × Fibre → Fibre → Fibre) (c : Cox → Cox) : Prop where
  fibres : ∀ fid, (t.myFib fid).map Fibre.bare = (s.myFib fid).map fun f =>
    if Who.fib fid ∈ s.issuers then
      { ((s.act h).foldl (fun f x => if x.2.fid = f.fid then u x f else f) f).bare with pc := s.nextPc }
    else f.bare
  cox : t.myCox.map Cox.bare = s.myCox.map fun x =>
    if Who.cox ∈ s.issuers then { (c x).bare with pc := s.nextPc } else x.bare
  here : t.cur.core = s.cur.core ∧ t.cur.slot = s.cur.slot

/-- Every issuing party goes to the next instruction, and that is all that happens to the threads of the block. -/
def GoesOn (s t : State) (h : Hd) : Prop := Advances s t h (fun _ f => f) id

/-- What a memory issue may add to: the translation caches, the L2s that its walks read (R241), pending registers, copies, store
paths and the collector. -/
def calm (s : State) (core slot : Nat) : State :=
  let q := s.still core slot
  { q with
    pends := []
    copies := []
    cores := q.cores.map fun c => { c with tlb := [], paths := [], coll := [] }
    cdies := q.cdies.map fun d => { d with dtc := [], l2 := [] } }

/-- A memory issue leaves all else alone: all that `calm` keeps, and the store paths and collectors of other cores. -/
def Untouched (s t : State) (core slot : Nat) : Prop :=
  calm t core slot = calm s core slot ∧
  ∀ c, c ≠ core → (t.core c).paths = (s.core c).paths ∧ (t.core c).coll = (s.core c).coll

/-- Each active party's address passes the checks of Table 11-2 and of its page, and lies at `loc`. -/
def Reaches (s : State) (h : Hd) (b : Block) (spaces : View → List Nat) (ptr : View → W64) (disp : View → Int) (n : Nat)
    (write : Bool) (loc : Who → Loc) : Prop :=
  ∀ x ∈ s.views h, ∃ va, s.chk b x.2.1 (spaces x.2.2) (ptr x.2.2) (disp x.2.2) n write = .ok (loc x.2.1) va

/-- A displacement: signed (R272). -/
def signed : Disp → Int
  | .d8 v => v.toInt
  | .d32 v => v.toInt

/-- Bytes of the sizes of Table 13-2. -/
def loadBytes : LdSz → Nat
  | .n8 | .i8 => 1
  | .n16 | .i16 => 2
  | .b32 => 4
  | .b64 => 8
  | .b128 => 16
def storeBytes : StSz → Nat
  | .b8 => 1
  | .b16 => 2
  | .b32 => 4
  | .b64 => 8
  | .b128 => 16

/-- A load or gather: its size, destination, spaces, base, displacement, acquire scope and reuse class (R274, R278,
R284). -/
structure LoadForm where
  h : Hd
  sz : LdSz
  d : RegNo
  spaces : View → List Nat
  ptr : View → W64
  disp : View → Int
  acq : Option Scope := none
  cls : Option Reuse := none

/-- The spaces of a synchronous access: private space for fibres only (R233). -/
def syncSpaces (v : View) : List Nat := if v.isCox then [0, 1, 2] else [0, 1, 2, 3]

def loads : Instr → Option LoadForm
  | .ld h acq sz d a x => some { h, sz, d, acq, spaces := syncSpaces, ptr := fun v => v.r64 a, disp := fun _ => signed x }
  | .ldc h sz d a x => some { h, sz, d, spaces := fun _ => [2], disp := fun _ => signed x
                              ptr := fun v => (2 : BitVec 4) ++ (0 : BitVec 28) ++ v.r32 a }
  | .gth h o => some { h, sz := o.sz, d := o.r, cls := some o.cls, spaces := fun _ => [0, 1], ptr := fun v => v.r64 o.a
                       disp := fun _ => signed o.disp }
  | .gthx h o => some { h, sz := o.sz, d := o.r, cls := some o.cls, spaces := fun _ => [0, 1], ptr := fun v => v.r64 o.a
                        disp := fun v => (v.r32 o.b).toNat * 2 ^ o.sh.toNat + signed o.disp }
  | _ => none

/-- A store or scatter: its size, data, release scope and tag register (R275, R279, R284). -/
structure StoreForm where
  h : Hd
  sz : StSz
  r : RegNo
  spaces : View → List Nat
  ptr : View → W64
  disp : View → Int
  rel : Option Scope := none
  tag : Option RegNo := none
  coll : Bool := false

def stores : Instr → Option StoreForm
  | .st h rel sz a b x => some { h, sz, r := b, rel, spaces := syncSpaces, ptr := fun v => v.r64 a, disp := fun _ => signed x }
  | .stTag h rel sz d a b x => some { h, sz, r := b, rel, tag := some d, spaces := syncSpaces, ptr := fun v => v.r64 a
                                      disp := fun _ => signed x }
  | .sct h o => some { h, sz := o.sz, r := o.r, coll := true, spaces := fun _ => [0, 1], ptr := fun v => v.r64 o.a
                       disp := fun _ => signed o.disp }
  | .sctx h o => some { h, sz := o.sz, r := o.r, coll := true, spaces := fun _ => [0, 1], ptr := fun v => v.r64 o.a
                        disp := fun v => (v.r32 o.b).toNat * 2 ^ o.sh.toNat + signed o.disp }
  | _ => none

/-- The bytes of a stored register, least significant first (R3, R274). -/
def stored (v : View) (sz : StSz) (r : RegNo) : List Byte := match sz with
  | .b64 => leBytes 8 (v.r64 r).toNat
  | .b128 => leBytes 4 (v.r32 r).toNat ++ leBytes 4 (v.r32 (r + 1)).toNat ++ leBytes 4 (v.r32 (r + 2)).toNat ++
      leBytes 4 (v.r32 (r + 3)).toNat
  | _ => leBytes (storeBytes sz) (v.r32 r).toNat

/-- A private piece that a store of a fibre touches is written from then on (R260). -/
def touch (l : Loc) (f : Fibre) : Fibre := match l with
  | .priv _ o _ => if f.priv.contains (o / 64) then f else { f with priv := f.priv ++ [o / 64] }
  | _ => f

/-- The collector's entries but for whether they are closed. -/
def collLines (c : Core) : List (Nat × Bool × Nat × List (Nat × Nat) × List Outb) :=
  c.coll.map fun e => (e.line, e.write, e.start, e.reqs, e.wreqs)

/-- An unaligned or outlying access is found before it is translated: the reason of Table 11-2, none if all pass. -/
def reason (b : Block) (accept : List Nat) (p : W64) (disp : Int) (n : Nat) (write : Bool) : Option Nat :=
  let space := (p.extractLsb' 60 4).toNat
  let off : Int := (p.extractLsb' 0 56).toNat + disp
  let limit : Int := match space with
    | 0 => 2 ^ 56
    | 1 => b.kr.ssize.toNat
    | 2 => if write then b.kr.csize.toNat else 131072
    | _ => 16384
  if 3 < space ∨ p.extractLsb' 56 4 ≠ 0 then some 0
  else if space ∉ accept then some 5
  else if off < 0 ∨ 2 ^ 56 ≤ off then some 3
  else if off % n ≠ 0 then some 2
  else if limit < off + n then some 1
  else none

/-- A table entry that the walk goes on from or ends at (R254, R255): its fields. -/
def present (e : W64) : Prop := e.getLsbD 0 = true ∧ e.extractLsb' 46 18 = 0 ∧ e.extractLsb' 8 4 = 0
def base (e : W64) : Nat := (e.extractLsb' 12 34).toNat * 4096

/-- The log2 of what a leaf maps at a level, 64 KiB when its bit 4 is set at the lowest (R255). -/
def leafSize (lvl : Nat) (e : W64) : Option Nat :=
  if e.getLsbD 4 then (if lvl = 0 then some 16 else none)
  else if lvl = 0 then some 12 else if lvl = 1 then some 21 else if lvl = 2 then some 30 else none

/-- The index of a virtual address at a level (Table 12-1). -/
def index (lvl va : Nat) : Nat :=
  if lvl = 3 then va / 2 ^ 39 % 2 ^ 17 else va / 2 ^ (12 + 9 * lvl) % 512

/-- The walk from a table at a level finds a leaf (R253–R255). -/
inductive Maps (s : State) (va : Nat) : Nat → Nat → Leaf → Prop
  | leaf {lvl t e sh} : e = s.entry (t + 8 * index lvl va) → present e → e.getLsbD 3 = true → leafSize lvl e = some sh →
      base e % 2 ^ sh = 0 → s.populated (base e) = true →
      (sh = 30 → ∀ i ∈ [1, 2, 3], s.populated (base e + i * 2 ^ 21) = true) → Maps s va lvl t ⟨sh, base e, e⟩
  | table {lvl t e l} : e = s.entry (t + 8 * index (lvl + 1) va) → present e → e.extractLsb' 1 7 = 0 →
      s.populated (base e) = true → Maps s va lvl (base e) l → Maps s va (lvl + 1) t l

/-- The last byte that a request's writes give an address. -/
def lastWrite (ws : List (Who × Nat × Byte)) (a : Nat) : Option Byte :=
  ((ws.filter fun w => w.2.1 == a).getLast?).map fun w => w.2.2

end Sys2Proof.Claims

/-- R231–R233, Table 11-2: the checks of a generic pointer in their order, and what an access to each space reaches. -/
def Sys2Proof.Claims.PointerChecks : Prop := ∀ b accept p disp n write, 0 < n →
  ptrCheck b accept p disp n write = match reason b accept p disp n write with
    | some r => .bad r (p.extractLsb' 60 4).toNat
    | none => .ok (p.extractLsb' 60 4).toNat ((p.extractLsb' 0 56).toNat + disp).toNat

/-- R253–R255: the walk from a context's root finds exactly the leaves that the tables in memory map. -/
def Sys2Proof.Claims.PageWalkFollowsTables : Prop :=
  (∀ (s : State) va lvl t l, lvl ≤ 3 → (s.walkFrom va lvl t = some l ↔ Maps s va lvl t l)) ∧
  ∀ (s : State) ctx va, s.walk ctx va = (s.ctx ctx).root.bind (s.walkFrom va 3)

/-- R256, R259: a leaf's rights: a migrating page makes the access wait, a system page and a missing right fault, and
any other access has its physical address. -/
def Sys2Proof.Claims.LeafRights : Prop := ∀ (l : Leaf) r sys va,
  let info : BitVec 16 := if r = .write then 3 else 2
  l.check r sys va =
    if l.e.getLsbD 6 then .wait
    else if (l.e.getLsbD 7 ∧ sys = false) ∨ (r = .write ∧ l.e.getLsbD 1 = false) ∨ (r = .fetch ∧ l.e.getLsbD 2 = false) then
      .fault info
    else .ok (l.pa + va % 2 ^ l.sh)

/-- R231–R233, R253–R256: the checks of a pointer, the walk of its page, and the rights of its leaf. -/
def Obligations.AddressChecks : Prop := PointerChecks ∧ PageWalkFollowsTables ∧ LeafRights

/-- R275, R276, R284: a load or gather whose lanes all pass their checks issues: each active party has one pending read of its
place, marked for the collector where it is a global lane of a gather, and nothing else changes but translations. -/
def Obligations.LoadsIssue : Prop := ∀ i L, loads i = some L → ∀ s b loc, Runs s b →
  Reaches s L.h b L.spaces L.ptr L.disp (loadBytes L.sz) false loc → ∃ t, exec i s = .next t ∧
    GoesOn s t L.h ∧ Untouched s t b.core b.slot ∧
    t.pends = s.pends ++ (s.views L.h).map (fun x => { issue := s.nextId, lane := x.1, core := b.core, slot := b.slot
                                                       who := x.2.1, dst := L.d.toNat, pc := s.cur.pc
                                                       kind := .load (loc x.2.1) L.sz L.acq L.cls (L.cls.isSome && (match loc x.2.1 with
                                                         | .glob _ => true
                                                         | .remote _ _ => true
                                                         | _ => false)) }) ∧
    t.copies = s.copies ∧ (t.core b.core).paths = (s.core b.core).paths ∧
    collLines (t.core b.core) = collLines (s.core b.core)

/-- R260, R275, R279, R284: a store or scatter whose lanes all pass their checks issues: its bytes enter the store path
of its parties as the requests of its lines, tag registers wait for their numbers, and no byte of memory changes yet. -/
def Sys2Proof.Claims.StoresIssue : Prop := ∀ i S, stores i = some S → ∀ s b loc, Runs s b →
  Reaches s S.h b S.spaces S.ptr S.disp (storeBytes S.sz) true loc → ∃ t, exec i s = .next t ∧
    Advances s t S.h
      (fun x f => { (touch (loc (.fib x.2.fid)) f) with
        sb := f.sb ++ (match S.tag with
          | some d => [(d.toNat, s.nextId)]
          | none => []) })
      (fun c => { c with sb := c.sb ++ (match S.tag with
          | some d => [(d.toNat, s.nextId)]
          | none => []) }) ∧
    Untouched s t b.core b.slot ∧ t.pends = s.pends ∧ t.copies = s.copies ∧ (t.core b.core).coll = (s.core b.core).coll ∧
    (∀ a, t.mem.get a = s.mem.get a) ∧
    let ls := (s.views S.h).map fun x => (x.2.1, loc x.2.1, stored x.2.2 S.sz S.r)
    let tags := match S.tag with
      | some d => (s.views S.h).map fun x => (x.2.1, d.toNat)
      | none => []
    (s.views S.h = [] → (t.core b.core).paths = (s.core b.core).paths) ∧
    (s.views S.h ≠ [] → ∃ e, (t.core b.core).paths = (s.core b.core).paths ++ [e] ∧ e.issue = s.nextId ∧ e.slot = b.slot ∧
      e.parties = ls.map (·.1) ∧ e.pc = s.cur.pc ∧ e.rel = S.rel ∧ e.coll = S.coll ∧ e.reqs = mkReqs b ls tags)

/-- R279: the requests of one issue hold every stored byte at its address, one request for each line of global memory,
and no byte that no lane stores but the zeros that a first write to a private piece brings (R234, R260). -/
def Sys2Proof.Claims.RequestsHoldStoredBytes : Prop := ∀ b ls tags,
  (∀ x ∈ ls, ∀ i v, x.2.2[i]? = some v → ∃ r ∈ mkReqs b ls tags, r.loc.same x.2.1 = true ∧
    (x.1, x.2.1.addr + i, v) ∈ r.writes) ∧
  (∀ r ∈ mkReqs b ls tags, ∀ w ∈ r.writes, ∃ x ∈ ls, x.1 = w.1 ∧ r.loc.same x.2.1 = true ∧
    ((∃ i, x.2.2[i]? = some w.2.2 ∧ w.2.1 = x.2.1.addr + i) ∨
      ∃ f o pa, x.2.1 = .priv f o pa ∧ w.2.2 = 0 ∧ w.2.1 / 64 = o / 64)) ∧
  (mkReqs b ls tags).Pairwise (fun r q => r.loc ≠ q.loc) ∧
  ∀ r ∈ mkReqs b ls tags, ∀ pa, r.loc = .glob pa → pa % 128 = 0

/-- R275, R279, R284: stores and scatters issue, and their requests hold the stored bytes. -/
def Obligations.StoresAndRequests : Prop := StoresIssue ∧ RequestsHoldStoredBytes

/-- The pending lane is the only one of its issue and number. -/
def Sys2Proof.Claims.Pending (s : State) (p : Pend) : Prop := p ∈ s.pends ∧ ∀ q ∈ s.pends, q.issue = p.issue → q.lane = p.lane → q = p

/-- A pending lane's value x has come to its register: the lane is no longer pending, and no byte of memory and no other register
has changed. -/
structure Sys2Proof.Claims.Returned (s t : State) (p : Pend) (x : List Byte) : Prop where
  pends : t.pends = s.pends.filter fun q => !samePend p q
  mem : ∀ a, t.mem.get a = s.mem.get a
  fibres : ∀ fid, (t.fibAt p.core p.slot fid).map Fibre.bare = (s.fibAt p.core p.slot fid).map fun f =>
    if p.who = .fib fid then (f.wrs (match p.kind with
      | .load _ sz _ _ _ => ldWrites false sz p.dst x
      | .atom ty => atWrites false ty p.dst x
      | .version => [.v p.dst (BitVec.ofNat 32 (leNat x))]
      | .cst _ _ _ => [.v p.dst (BitVec.ofNat 32 (leNat (x.take 4))), .v (p.dst + 1) (BitVec.ofNat 32 (leNat (x.drop 4)))])).bare
    else f.bare
  cox : (t.coxAt p.core p.slot).map Cox.bare = (s.coxAt p.core p.slot).map fun c =>
    if p.who = .cox then ((match p.kind with
      | .load _ sz _ _ _ => ldWrites true sz p.dst x
      | .atom ty => atWrites true ty p.dst x
      | .version => [.s p.dst (BitVec.ofNat 64 (leNat x))]
      | .cst _ _ _ => []).foldl Cox.wr c).bare
    else c.bare

/-- R274, R276: when the data of a pending load, or the old value of a returning atomic, has come, its register gets the value,
extended as its form says, and a `cst` its count and status (R285). A load of global memory that the core has no copy of, and that no access of its party or its core
precedes, gets the bytes of memory in the same step. A lane of a gather that nothing precedes enters the collector and waits
there (R245, R284): that it enters on its turn is the model's reading (log 72, DEDUCED). -/
def Sys2Proof.Claims.LoadReturns : Prop := ∀ (s : State) (p : Pend) (b : Block), Pending s p → s.block? p.core p.slot = some b →
  (∀ x, p.gather = false → p.data = some x → ∃ t, exec (.loadReturn p.issue p.lane) s = .next t ∧ Returned s t p x) ∧
  (p.data = none → p.core < s.cores.length → (∀ q ∈ s.pends, q.core = p.core → q.slot = p.slot → q.who = p.who → p.issue ≤ q.issue) →
    (s.core p.core).paths = [] → (s.core p.core).outb = [] → (s.core p.core).coll = [] →
    (∀ pa sz acq, p.kind = .load (.glob pa) sz acq none false → (s.core p.core).l1 = [] → isMg pa = false →
      s.lineHeld b.ctx pa = false → s.bad pa (ldBytes sz) = false →
      ∃ t, exec (.loadReturn p.issue p.lane) s = .next t ∧
        Returned s t p ((List.range (ldBytes sz)).map fun i => s.mem.get (pa + i))) ∧
    (∀ pa sz cls, p.kind = .load (.glob pa) sz none (some cls) true → p.joined = false →
      ∃ t, exec (.loadReturn p.issue p.lane) s = .next t ∧ (∀ a, t.mem.get a = s.mem.get a) ∧
        collLines (t.core p.core) = [(pa / 128 * 128, false, (s.cdie (coreDie p.core)).cyc.toNat, [(p.issue, p.lane)], [])] ∧
        t.pends = s.pends.map fun q => if samePend p q then { q with joined := true } else q))

/-- R274, R288: the values that loads and atomics put into registers. -/
def Sys2Proof.Claims.LoadedValues : Prop := ∀ (x : List Byte) d,
  let v := leNat x
  ldWrites true .i8 d x = [.s d ((BitVec.ofNat 8 v).signExtend 64)] ∧ ldWrites true .i16 d x = [.s d ((BitVec.ofNat 16 v).signExtend 64)] ∧
  (∀ sz ∈ [LdSz.n8, .n16, .b32, .b64], ldWrites true sz d x = [.s d (BitVec.ofNat 64 v)]) ∧
  ldWrites false .i8 d x = [.v d ((BitVec.ofNat 8 v).signExtend 32)] ∧ ldWrites false .i16 d x = [.v d ((BitVec.ofNat 16 v).signExtend 32)] ∧
  (∀ sz ∈ [LdSz.n8, .n16, .b32], ldWrites false sz d x = [.v d (BitVec.ofNat 32 v)]) ∧
  ldWrites false .b64 d x = [.v d ((BitVec.ofNat 64 v).extractLsb' 0 32), .v (d + 1) ((BitVec.ofNat 64 v).extractLsb' 32 32)] ∧
  ldWrites false .b128 d x = (List.range 4).map (fun i => .v (d + i) ((BitVec.ofNat 128 v).extractLsb' (32 * i) 32)) ∧
  atWrites true .i32 d x = [.s d ((BitVec.ofNat 32 v).signExtend 64)] ∧
  (∀ ty ∈ [IntTy.n32, .i64, .n64], atWrites true ty d x = [.s d (BitVec.ofNat 64 v)]) ∧
  (∀ ty ∈ [IntTy.i32, .n32], atWrites false ty d x = [.v d (BitVec.ofNat 32 v)]) ∧
  ∀ ty ∈ [IntTy.i64, .n64], atWrites false ty d x = [.v d ((BitVec.ofNat 64 v).extractLsb' 0 32), .v (d + 1) ((BitVec.ofNat 64 v).extractLsb' 32 32)]

/-- R295, R298: a read of global memory by a party with nothing of its own on the way, on a core with no copy of the
line, returns the bytes of memory. -/
def Sys2Proof.Claims.ReadsReturnMemory : Prop := ∀ (s : State) core slot priv w upto pa n, isMg pa = false → 
  (∀ e ∈ (s.core core).paths, e.slot = slot → ∀ r ∈ e.reqs, ∀ x ∈ r.writes, x.1 ≠ w) →
  (∀ e ∈ (s.core core).coll, e.wreqs = []) → (s.core core).outb = [] → (s.core core).l1 = [] →
  s.readLoc core slot priv w upto (.glob pa) n false = (List.range n).map fun i => s.mem.get (pa + i)

/-- R274, R276, R288, R295, R298: what a load or a returning atomic gives its register, and the bytes a core reads. -/
def Obligations.LoadedData : Prop := LoadReturns ∧ LoadedValues ∧ ReadsReturnMemory

/-- R244, R279, R295: a home slice that performs a write changes exactly the bytes that the request holds, the newest of
each, counts one write to the line, drops every RDC copy of it, and gives the number to the tag registers. -/
def Sys2Proof.Claims.HomeSliceWrites : Prop := ∀ (s : State) core k o line b, s.memsOk = true → (s.core core).outb[k]? = some o →
  core < s.cores.length → o.req.loc = .glob line → line % 128 = 0 → o.req.atomic = none → (s.core core).ready k = true →
  isMg line = false → s.block? core o.slot = some b → s.lineHeld b.ctx line = false → s.cstWaits core o = false →
  ∃ t, exec (.homeSliceWrite core k) s = .next t ∧
    (∀ a, t.mem.get a = (lastWrite o.req.writes a).getD (s.mem.get a)) ∧
    seqGet t.seq (line / 128) = seqGet s.seq (line / 128) + 1 ∧
    (∀ l, l ≠ line / 128 → seqGet t.seq l = seqGet s.seq l) ∧
    (∀ d ∈ t.cdies, ∀ x ∈ d.rdc, x.1 ≠ line / 128) ∧
    (t.core core).outb = (s.core core).outb.eraseIdx k ∧ t.pends = s.pends ∧
    ∀ w r fid, o.req.tags = [(w, r)] → w = .fib fid → ∀ f, s.fibAt core o.slot fid = some f → (r, o.issue) ∈ f.sb →
      t.fibAt core o.slot fid = some { (f.setReg r ((seqGet s.seq (line / 128) + 1).zeroExtend 32)) with
        sb := f.sb.filter fun e => e != (r, o.issue) }

/-! ### Atomics, fences, copies and the embedding forms (R76, R245–R251, R280–R290, R311–R313) -/

namespace Sys2Proof.Claims

open Sys2Proof Sys2Proof.Machine

/-- An atomic form: its operation, type, order flags, register for the old value, base, displacement and operands
(R288). -/
structure AtomForm where
  h : Hd
  op : AtOp
  ty : IntTy
  o : Ord
  ret : Option RegNo
  a : RegNo
  disp : Disp
  ops : View → W64 × W64

/-- The operand of an atomic: 64 bits under a 64-bit type, else the low word. -/
def operand (ty : IntTy) (b : RegNo) (v : View) : W64 × W64 :=
  (if ty.is64 then v.r64 b else (v.r32 b).zeroExtend 64, 0)

def withReturn (h : Hd) (op : AtOp) (o : AtOps) : AtomForm :=
  { h, op, ty := o.ty, o := o.o, ret := some o.d, a := o.a, disp := o.disp, ops := operand o.ty o.b }
def floatReturn (h : Hd) (op : AtOp) (o : AtFOps) : AtomForm :=
  { h, op, ty := .n32, o := o.o, ret := some o.d, a := o.a, disp := o.disp, ops := operand .n32 o.b }
def reduction (h : Hd) (op : AtOp) (ty : IntTy) (o : Ord) (a b : RegNo) (disp : Disp) : AtomForm :=
  { h, op, ty, o, ret := none, a, disp, ops := operand ty b }

def atoms : Instr → Option AtomForm
  | .atomAdd h o => some (withReturn h .add o)
  | .atomMin h o => some (withReturn h .min o)
  | .atomMax h o => some (withReturn h .max o)
  | .atomAnd h o => some (withReturn h .and o)
  | .atomOr h o => some (withReturn h .or o)
  | .atomXor h o => some (withReturn h .xor o)
  | .atomExch h o => some (withReturn h .exch o)
  | .atomCas h o => some { withReturn h .cas o with ops := fun v => match v with
      | .cox c => (c.reg o.b.toNat, c.reg (o.b + 1).toNat)
      | .fib f =>
        if o.ty.is64 then (f.reg (o.b.toNat + 1) ++ f.reg o.b.toNat, f.reg ((o.b + 2).toNat + 1) ++ f.reg (o.b + 2).toNat)
        else ((f.reg o.b.toNat).zeroExtend 64, (f.reg (o.b + 1).toNat).zeroExtend 64) }
  | .atomAddF32 h o => some (floatReturn h .fadd o)
  | .atomMinF32 h o => some (floatReturn h (.fmin o.num) o)
  | .atomMaxF32 h o => some (floatReturn h (.fmax o.num) o)
  | .mredAdd h ty o a b x => some (reduction h .add ty o a b x)
  | .mredMin h ty o a b x => some (reduction h .min ty o a b x)
  | .mredMax h ty o a b x => some (reduction h .max ty o a b x)
  | .mredAnd h ty o a b x => some (reduction h .and ty o a b x)
  | .mredOr h ty o a b x => some (reduction h .or ty o a b x)
  | .mredXor h ty o a b x => some (reduction h .xor ty o a b x)
  | .mredAddF32 h o a b x => some (reduction h .fadd .n32 o a b x)
  | .mredMinF32 h n o a b x => some (reduction h (.fmin n) .n32 o a b x)
  | .mredMaxF32 h n o a b x => some (reduction h (.fmax n) .n32 o a b x)
  | _ => none

/-- The bytes that an atomic of a type reads and writes. -/
def atomBytes (ty : IntTy) : Nat := if ty.is64 then 8 else 4

/-- One lane's step of an integer atomic on n bits (R76, R289). -/
def atomStep (op : AtOp) (sg : Bool) {n : Nat} (x y z : BitVec n) : BitVec n := match op with
  | .add => x + y
  | .min => minBits sg x y
  | .max => maxBits sg x y
  | .and => x &&& y
  | .or => x ||| y
  | .xor => x ^^^ y
  | .exch => y
  | .cas => if x = y then z else x
  | _ => x

/-- The values before each lane of an integer atomic, and after the last. -/
def atomRun (op : AtOp) (sg : Bool) {n : Nat} (x : BitVec n) : List (BitVec n × BitVec n) → List (BitVec n) × BitVec n
  | [] => ([], x)
  | o :: r =>
    let t := atomRun op sg (atomStep op sg x o.1 o.2) r
    (x :: t.1, t.2)

/-- The old values of the lanes and the new value, for a type of 32 or 64 bits. -/
def atomResult (op : AtOp) (ty : IntTy) (old : Nat) (ops : List (W64 × W64)) : List Nat × Nat :=
  if ty.is64 then
    let r := atomRun op (signedTy ty) (BitVec.ofNat 64 old) ops
    (r.1.map BitVec.toNat, r.2.toNat)
  else
    let r := atomRun op (signedTy ty) (BitVec.ofNat 32 old) (ops.map fun o => (o.1.truncate 32, o.2.truncate 32))
    (r.1.map BitVec.toNat, r.2.toNat)

def integerOp (op : AtOp) : Prop := op ∈ [AtOp.add, .min, .max, .and, .or, .xor, .exch, .cas]

/-- A party has no read pending; nothing of it is in its store path, and no atomic of it is still to be performed (R244, R312). -/
def noReads (s : State) (b : Block) (w : Who) : Prop :=
  ∀ p ∈ s.pends, p.core = b.core → p.slot = b.slot → p.who ≠ w
def noWrites (s : State) (b : Block) (w : Who) : Prop :=
  (∀ e ∈ (s.core b.core).paths, e.slot = b.slot → w ∉ e.parties) ∧
  (∀ o ∈ (s.core b.core).outb, o.req.atomic.isSome = true → o.of b.slot w = false) ∧
  ∀ o ∈ s.outstanding, o.core = b.core → o.slot = b.slot → o.lanes ≠ [] → w ∉ o.parties
/-- Every write of a party that has entered its core's order, and those there that it has acquired, are acknowledged, in the
collector or beyond, the remote ones too. -/
def acknowledged (s : State) (b : Block) (w : Who) : Prop :=
  let mine := fun (here : Bool) (issue : Nat) (also : List Share) => here = true ∧ (issue < s.nextId ∨ also ≠ [])
  (∀ o ∈ (s.core b.core).onWay, ¬ mine (o.of b.slot w) o.issue o.also ∧ s.seenBy b.core b.slot w ≤ o.ord) ∧
  ∀ o ∈ s.outstanding, o.core = b.core → (∀ n, o.op ≠ .read n) →
    ¬ mine (o.of b.slot w) o.issue o.also ∧ s.seenBy b.core b.slot w ≤ o.issue
/-- The party's writes are performed at a scope. -/
def performedAt (s : State) (b : Block) (w : Who) (sc : Scope) : Prop :=
  noWrites s b w ∧ (sc ≠ .core → acknowledged s b w)
/-- A party has no tag register that waits for a number, and no engine command that is unfinished. -/
def noTags (s : State) (b : Block) (w : Who) : Prop :=
  (∀ e ∈ (s.core b.core).paths, e.slot = b.slot → ∀ r ∈ e.reqs, ∀ t ∈ r.tags, t.1 ≠ w) ∧
  (∀ o ∈ (s.core b.core).outb, o.slot = b.slot → ∀ t ∈ o.req.tags, t.1 ≠ w) ∧
  ∀ o ∈ s.outstanding, o.core = b.core → o.slot = b.slot → ∀ t ∈ o.tags, t.1 ≠ w
def noCommands (s : State) (b : Block) (w : Who) : Prop :=
  (∀ c ∈ s.copies, c.core = b.core → c.slot = b.slot → w ∉ c.parties) ∧
  (∀ c ∈ s.cmds, c.core = b.core → c.slot = b.slot → ∀ e ∈ c.ents, e.who ≠ w) ∧
  ∀ q ∈ b.q, (∃ k u p, q.bind = some (.engine k u p)) → ∀ e ∈ q.push, e.who ≠ w

/-- Fences: what each active party waits for, and the scope of an acquire (Table 14-5). -/
def fences : Instr → Option (Hd × (State → Block → Who → Prop) × Option Scope)
  | .fenceRel h sc => some (h, fun s b w => noReads s b w ∧ performedAt s b w sc, none)
  | .fenceAcq h sc => some (h, noReads, some sc)
  | .fenceSc h sc => some (h, fun s b w => noReads s b w ∧ performedAt s b w sc, some sc)
  | .fenceAck h => some (h, fun s b w => performedAt s b w .sys ∧ noTags s b w, none)
  | .fenceEng h sc => some (h, noCommands, some sc)
  | _ => none

/-- Whether a collector entry holds a request of one of some parties of a block: a gathered lane, a pooling or a scatter (R245). -/
def holdsOf (s : State) (b : Block) (ws : List Who) (e : CEnt) : Bool := ws.any fun w =>
  (e.reqs.any fun r => s.pends.any fun p =>
    p.issue == r.1 && p.lane == r.2 && p.core == b.core && p.slot == b.slot && p.who == w) ||
  (e.pools.any fun p => p.1 == b.slot && p.2.1 == w) || e.wreqs.any fun o => o.of b.slot w

/-- A core without its L1, its scale cache and whether its collector's entries are closed. -/
def Core.fenced (c : Core) : Core :=
  { c.still with l1 := [], scale := [], coll := c.coll.map fun e => { e with closed := false } }

/-- The state without those, and without the mark of a `fence.ack` on its pending reads. -/
def fenced (s : State) (core slot : Nat) : State :=
  { s.still core slot with
    cores := s.cores.map Core.fenced
    pends := s.pends.map fun p => { p with acked := false } }

/-- An aligned pointer into global memory or a block's scratchpad, whose range of len bytes lies in its space; the check
of a copy passes (R280). -/
def copyFits (b : Block) (dst src : W64) (len : Nat) : Prop := copyCheck b dst src len = none

end Sys2Proof.Claims

/-- R76, R288, R289: an atomic whose lanes all pass their checks issues: its lanes at one place make one request, in lane
order, in the store path of its parties; a register for the old value waits; no byte of memory changes yet. -/
def Obligations.AtomicsIssue : Prop := ∀ i A, atoms i = some A → ∀ s b loc, Runs s b →
  Reaches s A.h b (fun _ => [0, 1]) (fun v => v.r64 A.a) (fun _ => signed A.disp) (atomBytes A.ty) true loc →
  ∃ t, exec i s = .next t ∧ GoesOn s t A.h ∧ Untouched s t b.core b.slot ∧
    (∀ a, t.mem.get a = s.mem.get a) ∧ t.copies = s.copies ∧ collLines (t.core b.core) = collLines (s.core b.core) ∧
    t.pends = s.pends ++ (match A.ret with
      | some d => (s.views A.h).map fun x => { issue := s.nextId, lane := x.1, core := b.core, slot := b.slot, who := x.2.1
                                               dst := d.toNat, pc := s.cur.pc, kind := .atom A.ty }
      | none => []) ∧
    (s.views A.h = [] → (t.core b.core).paths = (s.core b.core).paths) ∧
    (s.views A.h ≠ [] → ∃ e, (t.core b.core).paths = (s.core b.core).paths ++ [e] ∧ e.issue = s.nextId ∧
      e.slot = b.slot ∧ e.parties = (s.views A.h).map (fun x => x.2.1) ∧ e.pc = s.cur.pc ∧ e.coll = false ∧
      e.rel = (if A.o.rel then some A.o.scope else none) ∧
      e.reqs.Pairwise (fun r q => r.loc ≠ q.loc) ∧ (∀ r ∈ e.reqs, ∃ x ∈ s.views A.h, r.loc = loc x.2.1) ∧
      ((s.views A.h).Pairwise (fun x y => x.2.1 ≠ y.2.1) → ∀ x ∈ s.views A.h, ∃ r ∈ e.reqs, r.loc = loc x.2.1 ∧
        r.writes = [] ∧ r.atomic = some
          { op := A.op, ty := A.ty, ret := A.ret.isSome, acq := if A.o.acq then some A.o.scope else none
            lanes := ((s.views A.h).filter fun y => loc y.2.1 == loc x.2.1).map fun y =>
              { who := y.2.1, lane := y.1, dst := (A.ret.getD 0).toNat, b := (A.ops y.2.2).1, c := (A.ops y.2.2).2 } }))

/-- R76, R77, R279, R289: a home slice applies an integer atomic as its lanes one after another, returns each lane the value
before it, changes no other byte, and drops the core's own copies of the line. -/
def Sys2Proof.Claims.HomeSliceAtomics : Prop := ∀ (s : State) core k o pa a b, s.memsOk = true →
  (s.core core).outb[k]? = some o → core < s.cores.length → o.req.loc = .glob pa → o.req.atomic = some a → integerOp a.op →
  (s.core core).ready k = true → s.block? core o.slot = some b → s.lineHeld b.ctx pa = false → isMg pa = false →
  pa % atomBytes a.ty = 0 → s.bad pa (atomBytes a.ty) = false →
  let n := atomBytes a.ty
  let r := atomResult a.op a.ty (leNat (s.mem.read pa n)) (a.lanes.map fun l => (l.b, l.c))
  ∃ t, exec (.homeSliceAtomic core k) s = .next t ∧ leNat (t.mem.read pa n) = r.2 ∧
    (∀ x, x < pa ∨ pa + n ≤ x → t.mem.get x = s.mem.get x) ∧
    (t.core core).outb = ((s.core core).outb.eraseIdx k).map (fun q =>
      if q.issue = o.issue ∧ q.req.atomic.isSome = true then { q with begun := true } else q) ∧
    (∀ x ∈ (t.core core).l1, x.1 / 8 ≠ pa / 128) ∧
    (∀ sc, a.acq = some sc → sc ≠ .core → (t.core core).l1 = []) ∧
    (a.ret = false → t.pends = s.pends) ∧
    (a.ret = true → t.pends = s.pends.map fun p =>
      if p.issue = o.issue ∧ p.core = core ∧ p.slot = o.slot then
        match (a.lanes.zip r.1).find? fun x => x.1.lane == p.lane && x.1.who == p.who with
        | some x => { p with data := some (leBytes n x.2) }
        | none => p
      else p)

/-- R244, R279, R289, R295: what a home slice does with a write and with an atomic. -/
def Obligations.HomeSlices : Prop := HomeSliceWrites ∧ HomeSliceAtomics

/-- R311–R313, Table 14-5: a fence goes on exactly when each active party has what it waits for, and an acquire wider than
the core discards the L1; until then nothing of the threads changes. In either case the collector entries that hold a request of the
parties are closed, and no others (R245). -/
def Obligations.FencesWait : Prop := ∀ i h P acq, fences i = some (h, P, acq) → ∀ s b, Runs s b →
  ∃ t, exec i s = .next t ∧ fenced t b.core b.slot = fenced s b.core b.slot ∧
    (t.core b.core).coll = (s.core b.core).coll.map (fun e =>
      if holdsOf s b ((s.views h).map (·.2.1)) e then { e with closed := true } else e) ∧
    (∀ c, c ≠ b.core → (t.core c).coll = (s.core c).coll) ∧
    ((∀ x ∈ s.views h, P s b x.2.1) → GoesOn s t h ∧
      (∀ sc, acq = some sc → sc ≠ .core → s.views h ≠ [] → (t.core b.core).l1 = []) ∧
      ((acq = none ∨ acq = some .core) → (t.core b.core).l1 = (s.core b.core).l1)) ∧
    ((∃ x ∈ s.views h, ¬ P s b x.2.1) → (∀ fid, t.myFib fid = s.myFib fid) ∧ t.myCox = s.myCox ∧
      (t.core b.core).l1 = (s.core b.core).l1)

/-- R280–R282: `cpa` hands one copy for each active party to the copy engine, and `cpa.reg` one copy for the part, with
their checks made; the token registers wait. Memory does not change yet. -/
def Sys2Proof.Claims.CopiesAreAccepted : Prop :=
  (∀ h o t a b c s k, Runs s k → s.held k.ctx (coreDie k.core) .copy = false →
    ∃ u, exec (.cpa h o t a b c) s = .next u ∧ Untouched s u k.core k.slot ∧ (∀ x, u.mem.get x = s.mem.get x) ∧
      u.pends = s.pends ∧ (u.core k.core).paths = (s.core k.core).paths ∧ collLines (u.core k.core) = collLines (s.core k.core) ∧
      (∀ fid, (u.myFib fid).map (fun f => (f.pc, f.regs)) = (s.myFib fid).map fun f =>
        (if Who.fib fid ∈ s.issuers then s.nextPc else f.pc, f.regs)) ∧
      u.myCox.map (fun f => (f.pc, f.s)) = s.myCox.map (fun f => (if Who.cox ∈ s.issuers then s.nextPc else f.pc, f.s)) ∧
      ∃ cs : List Copy, u.copies = s.copies ++ cs ∧ cs.length = (s.views h).length ∧
        ∀ (j : Nat) (x : Nat × Who × View), (s.views h)[j]? = some x → ∃ y : Copy, cs[j]? = some y ∧
        y.parties = [x.2.1] ∧ y.dst = x.2.2.r64 a ∧ y.src = x.2.2.r64 b ∧ y.len = (x.2.2.r32 c).toNat ∧ y.o = o ∧
        y.core = k.core ∧ y.slot = k.slot ∧ y.done = 0 ∧ y.data = [] ∧ y.reg = none ∧ y.dest = .regs [(x.2.1, t.toNat)] ∧
        (copyFits k y.dst y.src y.len → 0 < y.len → y.status = none) ∧
        (copyFits k y.dst y.src y.len → y.len = 0 → y.status = some 0) ∧
        (∀ w, copyCheck k y.dst y.src y.len = some w → y.status = some w)) ∧
  ∀ h o t a b c n1 s k p x, Issuing s k p → s.held k.ctx (coreDie k.core) .copy = false → (s.act h).head? = some x →
    ∃ (u : State) (y : Copy), exec (.cpaReg h o t a b c n1) s = .next u ∧ u.copies = s.copies ++ [y] ∧ (∀ z, u.mem.get z = s.mem.get z) ∧
      Untouched s u k.core k.slot ∧ u.pends = s.pends ∧ (u.core k.core).paths = (s.core k.core).paths ∧
      collLines (u.core k.core) = collLines (s.core k.core) ∧
      (∀ fid, (u.myFib fid).map (fun f => (f.pc, f.regs)) = (s.myFib fid).map fun f =>
        (if Who.fib fid ∈ s.issuers then s.nextPc else f.pc, f.regs)) ∧
      y.src = (View.fib x.2).r64 a ∧ y.o = o ∧ y.done = 0 ∧ y.data = [] ∧
      y.dest = .regs ((s.act h).map fun z => (Who.fib z.2.fid, t.toNat)) ∧
      let ls := (List.range 32).filter fun l => (x.2.reg b.toNat).getLsbD l
      y.reg = some (ls.map (fun l => (p.lanes.find? fun z => z.1 == l).map (·.2)), c.toNat, n1.toNat + 1) ∧
      y.len = 4 * (n1.toNat + 1) * ls.length

/-- The bytes of a place of this device's memory or of a block's storage, read by an engine whose core has no copies of it and
nothing on its way to it. -/
def Sys2Proof.Claims.heldAt (s : State) (b : Block) (n : Nat) : Loc → List Byte
  | .glob pa => (List.range n).map fun i => s.mem.get (pa + i)
  | .scratch o => (List.range n).map fun i => b.scratch.get (o + i)
  | .const o => (List.range n).map fun i => b.const.get (o + i)
  | _ => []

/-- The core has nothing on its way to memory, and no copies of it. -/
def Sys2Proof.Claims.NothingOut (s : State) (core : Nat) : Prop :=
  (s.core core).paths = [] ∧ (s.core core).coll = [] ∧ (s.core core).outb = [] ∧ (s.core core).l1 = []

/-- A place that an engine's read finds here and now: its line is fetched without a wait, and no check of its data fails. -/
def Sys2Proof.Claims.readableNow (s : State) (b : Block) (n : Nat) : Loc → Prop
  | .glob pa => s.lineHeld b.ctx pa = false ∧ s.bad pa n = false ∧ isMg pa = false
  | .scratch _ => True
  | .const _ => True
  | _ => False

/-- R280–R282: what a copy engine does of a copy in one move: with nothing read it reads the next unit of its source, 32 bytes, or
4 of a copy to registers; with all read it writes the next unit to its destination; when all is written it has its status, and
once its writes are performed its token registers get that and it is over. That each such unit is one read, and a copy to registers
delivers word by word, is the model's reading (logs 78 and 81, DEDUCED). -/
def Sys2Proof.Claims.CopiesMoveInOrder : Prop := ∀ (s : State) id (c : Copy) b, s.copies[id]? = some c →
  s.block? c.core c.slot = some b → c.core < s.cores.length →
  let unit := if c.reg.isSome then 4 else 32
  (∀ l va, c.status = none → c.data = [] → (0 < c.done ∨ s.copyMayStart c = true) → c.done < c.len / unit →
    s.copyPlace b c.src (unit * c.done) false = .ok l va → readableNow s b unit l → NothingOut s c.core →
    ∃ t, exec (.copyPerform id) s = .next t ∧ (∀ a, t.mem.get a = s.mem.get a) ∧
      t.copies = s.copies.set id { c with data := heldAt s b unit l }) ∧
  (∀ lanes r n fid f, c.reg = some (lanes, r, n) → c.status = none → c.data.length = 4 → c.done + 1 = c.len / 4 →
    lanes[c.done / n]? = some (some fid) → s.fibAt c.core c.slot fid = some f → (r + c.done % n, c.issue) ∈ f.sb →
    ∃ t, exec (.copyPerform id) s = .next t ∧ (∀ a, t.mem.get a = s.mem.get a) ∧
      t.copies = s.copies.set id { c with data := [], done := c.done + 1 } ∧
      t.fibAt c.core c.slot fid = some { (f.setReg (r + c.done % n) (BitVec.ofNat 32 (leNat c.data))) with
        sb := f.sb.filter fun e => e != (r + c.done % n, c.issue) }) ∧
  (∀ o va, b.memsOk = true → c.reg = none → c.status = none → c.data.length = 32 → c.done + 1 = c.len / 32 →
    s.copyPlace b c.dst (32 * c.done) true = .ok (.scratch o) va →
    ∃ t b', exec (.copyPerform id) s = .next t ∧ (∀ a, t.mem.get a = s.mem.get a) ∧
      t.copies = s.copies.set id { c with data := [], done := c.done + 1 } ∧ t.block? c.core c.slot = some b' ∧
      (∀ i, i < 32 → b'.scratch.get (o + i) = (c.data[i]?).getD 0) ∧
      ∀ a, a < o ∨ o + 32 ≤ a → b'.scratch.get a = b.scratch.get a) ∧
  (∀ src va, c.reg = none → c.status = none → c.data.length = 32 → c.done + 1 = c.len / 32 →
    s.copyPlace b c.dst (32 * c.done) true = .ok (.glob src) va →
    ∃ t o, exec (.copyPerform id) s = .next t ∧ (∀ a, t.mem.get a = s.mem.get a) ∧
      t.copies = s.copies.set id { c with data := [], done := c.done + 1 } ∧
      (t.core c.core).outb = (s.core c.core).outb ++ [o] ∧ o.req.loc = .glob src ∧
      o.req.writes.map (·.2) = c.data.zipIdx.map fun x => (src + x.2, x.1)) ∧
  (c.status = none → c.data = [] → c.done = c.len / unit → 0 < c.done →
    ∃ t, exec (.copyPerform id) s = .next t ∧ (∀ a, t.mem.get a = s.mem.get a) ∧
      t.copies = s.copies.set id { c with status := some (BitVec.ofNat 32 c.done) }) ∧
  (∀ w fid r, c.reg = none → c.status = some w → c.data = [] → c.dest = .regs [(.fib fid, r)] →
    (∀ o ∈ (s.core c.core).outb, o.issue ≠ c.issue) → (∀ o ∈ s.outstanding, o.core = c.core → o.issue ≠ c.issue) →
    ∃ t, exec (.copyPerform id) s = .next t ∧ (∀ a, t.mem.get a = s.mem.get a) ∧ t.copies = s.copies.eraseIdx id ∧
      ∀ f, s.fibAt c.core c.slot fid = some f → (r, c.issue) ∈ f.sb →
        (t.fibAt c.core c.slot fid).map Fibre.bare = some { (f.setReg r w).bare with sb := f.sb.filter fun e => e != (r, c.issue) })

namespace Sys2Proof.Claims

open Sys2Proof Sys2Proof.Machine

/-- The address and registers of the fibres of the running block, where each active lane of the issue writes. -/
def RegsAfter (s t : State) (h : Hd) (g : Nat × Fibre → List (Nat × W32)) : Prop := ∀ fid,
  (t.myFib fid).map (fun f => (f.pc, f.regs)) = (s.myFib fid).map fun f =>
    if Who.fib fid ∈ s.issuers then
      (s.nextPc, ((s.act h).foldl (fun f x => if x.2.fid = f.fid then f.wrs ((g x).map fun w => .v w.1 w.2) else f) f).regs)
    else (f.pc, f.regs)

/-- The lanes of `cst` that its predicate chooses, with their ranks (R285). -/
def chosen (s : State) (h : Hd) (pc : BitVec 3) : List ((Nat × Fibre) × Nat) :=
  ((s.act h).filter fun x => x.2.pred pc.toNat).zipIdx

/-- The check of the element of rank j of a `cst`, on the pointer of the lowest active lane. -/
def cstChk (s : State) (k : Block) (f0 : Fibre) (a : RegNo) (x : Disp) (n : Nat) (y : (Nat × Fibre) × Nat) : Chk :=
  s.chk k (.fib y.1.2.fid) [0, 1, 2, 3] ((View.fib f0).r64 a) (signed x + n * y.2) n true

/-- The eight words of a sector, from V or S registers (R287). -/
def sectorOf (v : View) (b : RegNo) : List Byte := match v with
  | .cox c => (List.range 4).flatMap fun i => leBytes 8 (c.reg (b + BitVec.ofNat 8 i).toNat).toNat
  | .fib f => (List.range 8).flatMap fun i => leBytes 4 (f.reg (b + BitVec.ofNat 8 i).toNat).toNat

/-- An element of an embedding row widened exactly, by FMT (Table 11-7). -/
def poolValue (fmt x : Nat) : FVal :=
  if fmt = 0 then Fmt.f32.decode x else if fmt = 1 then Fmt.f16.decode x else if fmt = 2 then Fmt.bf16.decode x
  else if fmt = 3 then Fmt.e4m3fmt.decode x else if fmt = 4 then Fmt.e5m2.decode x else FVal.ofInt (BitVec.ofNat 8 x).toInt

/-- out(e) of R286: every element times SCALE rounded once, then the exact weighted sum rounded once. -/
def poolOut (r : EmbRec) (ws : List W32) (rows : List (List Byte)) (e : Nat) : Nat :=
  let sz := if r.fmt = 0 then 4 else if r.fmt ≤ 2 then 2 else 1
  let x := fun (row : List Byte) =>
    Fmt.f32.sum .rne [(poolValue r.fmt (leNat ((row.drop (sz * e)).take sz))).mul (Fmt.f32.decode r.scale.toNat)]
  Fmt.f32.sum .rne ((ws.zip rows).map fun y => (Fmt.f32.decode y.1.toNat).mul (Fmt.f32.decode (x y.2)))

/-- A pooling that has passed its checks: its record, the bytes of its rows in turn, and where its outputs go. -/
structure Pooled where
  r : EmbRec
  rows : List (List Byte)
  dst : List (Nat × Nat × Chk)

/-- What a party's pooling needs to issue: its pointers are good, its record has been read and is valid, the collector has brought
its rows or they are zero rows, and its outputs' places pass their checks (R249, R250, R286). -/
structure PoolsNow (s : State) (k : Block) (w : Who) (v : View) (d a b c : RegNo) (n : Nat) (P : Pooled) : Prop where
  recPtr : ∃ va, ptrCheck k [0] (v.r64 a) 0 64 false = .ok 0 va
  dstPtr : ∃ sp o, ptrCheck k [0, 1] (v.r64 d) 0 4 true = .ok sp o ∧ o + 4 * P.r.dim ≤ limitOf k sp true
  record : ∃ pa va y, s.chkSpan k (v.r64 a) 64 false = [(0, 64, .ok (.glob pa) va)] ∧
    (s.core k.core).pbuf.find? (isRecOf k.slot w) = some y ∧ y.bad = [] ∧ 32 < y.data.length ∧ embRec y.data = P.r
  valid : P.r.valid = true
  count : P.rows.length = n
  rows : ∀ j x, P.rows[j]? = some x → let i := (v.r32 (b + BitVec.ofNat 8 j)).toNat
    if P.r.rows ≤ i ∧ P.r.dflt = 0 then x = List.replicate (P.r.dim * embSize P.r.fmt) 0
    else s.rowOf k P.r i ≠ [] ∧ s.rowPieces k w (s.rowOf k P.r i) = ([], .ok x)
  dst : s.chkSpan k (v.r64 d) (4 * P.r.dim) true = P.dst ∧ spanBad P.dst = none ∧ spanWaits P.dst = false
  order : s.mayReadNow k w = true

end Sys2Proof.Claims

/-- The bytes that a collected lane gets: those of its place as its core reads them. -/
def Sys2Proof.Claims.collected (s : State) (p : Pend) : List Byte := match p.kind with
  | .load l sz _ _ _ => s.readLoc p.core p.slot (s.privAt p.core p.slot) p.who p.issue l (loadBytes sz) false
  | _ => []

/-- R245, R246, R284: a collector entry that is due is sent as one request: a write entry with all its bytes in order, in the
place of its first request, and every lane of a read entry gets its bytes of the one copy of the line. That the merged write has the
issue, the slot and the place in the core's order of its first request is the model's reading (log 79, DEDUCED). -/
def Sys2Proof.Claims.CollectorSends : Prop := ∀ (s : State) core k e, (s.core core).coll[k]? = some e → core < s.cores.length →
  s.collDue core k e = true →
  (e.write = true → ∀ o r, e.wreqs = o :: r → s.held (s.ctxAt core o.slot) (coreDie core) .copy = false →
    ∃ t q, exec (.collectorSend core k) s = .next t ∧
    (∀ a, t.mem.get a = s.mem.get a) ∧ collLines (t.core core) = (collLines (s.core core)).eraseIdx k ∧
    (t.core core).outb = (s.core core).outb ++ [q] ∧
    q.req.loc = (match e.dev with
      | some d => .remote d e.line
      | none => .glob e.line) ∧
    q.issue = o.issue ∧ q.slot = o.slot ∧ q.ord = o.ord ∧ q.req.writes = e.wreqs.flatMap fun x => x.req.writes) ∧
  (e.write = false → e.dev = none → e.wreqs = [] → e.pools = [] → ∀ p rest b, s.collReads core e = p :: rest →
    (∀ q ∈ p :: rest, q.core = core ∧ (∃ pa sz cls, q.kind = .load (.glob pa) sz none (some cls) true ∧ s.bad pa (loadBytes sz) = false) ∧
      ∀ z ∈ s.pends, samePend q z = true → z = q) →
    s.block? core p.slot = some b → s.lineHeld b.ctx e.line = false → s.held b.ctx (coreDie core) .copy = false →
    ∃ t, exec (.collectorSend core k) s = .next t ∧ (∀ a, t.mem.get a = s.mem.get a) ∧
      (t.core core).coll = (s.core core).coll.eraseIdx k ∧
      t.pends = s.pends.map fun q => if q ∈ p :: rest then { q with data := some (collected s q) } else q)

/-- R285: `cst` stores the chosen lanes' registers at consecutive elements by rank, from the rank that V[d] of the lowest
active lane names; every active lane gets the count and the status, which at a failing element are its rank and fault, and at a
failing base that first rank and the pointer fault. Where an element is on another device, which translates it, the lanes wait for its
reply: they hold the count that they get when every element is stored, and the places by which a failing one gives its rank (R399). -/
def Sys2Proof.Claims.CompressStore : Prop := ∀ h b64 pc d a b x s k p l0, Issuing s k p → k.core < s.cores.length →
  (s.act h).head? = some l0 →
  let n : Nat := if b64 then 8 else 4
  let first := (l0.2.reg d.toNat).toNat
  let base := ptrCheck k [0, 1, 2, 3] ((View.fib l0.2).r64 a) (signed x) n true
  (∀ rs sp, base = .bad rs sp → ∃ t, exec (.cst h b64 pc d a b x) s = .next t ∧ Untouched s t k.core k.slot ∧
    (t.core k.core).paths = (s.core k.core).paths ∧
    RegsAfter s t h fun _ => [(d.toNat, BitVec.ofNat 32 first), (d.toNat + 1, statusWord 7 rs 1 0)]) ∧
  (∀ loc : Nat → Loc, (∃ sp o, base = .ok sp o) → (∀ y ∈ chosen s h pc, first ≤ y.2 → ∃ va, cstChk s k l0.2 a x n y = .ok (loc y.2) va) →
    let todo := (chosen s h pc).filter fun y => first ≤ y.2
    let count := (chosen s h pc).length
    let away := todo.any fun y => (loc y.2).far
    ∃ t, exec (.cst h b64 pc d a b x) s = .next t ∧ Untouched s t k.core k.slot ∧ (∀ z, t.mem.get z = s.mem.get z) ∧
      (away = false → RegsAfter s t h (fun _ => [(d.toNat, BitVec.ofNat 32 count), (d.toNat + 1, 0)]) ∧ t.pends = s.pends) ∧
      (away = true → GoesOn s t h ∧ t.pends = s.pends ++ (s.act h).map fun z =>
        { issue := s.nextId, lane := z.1, core := k.core, slot := k.slot, who := .fib z.2.fid, dst := d.toNat, pc := s.cur.pc
          kind := .cst (todo.map fun y => (loc y.2, y.2)) count 0 }) ∧
      let ls := todo.map fun y => (Who.fib y.1.2.fid, loc y.2, stored (.fib y.1.2) (if b64 then .b64 else .b32) b)
      (ls = [] → (t.core k.core).paths = (s.core k.core).paths) ∧
      (ls ≠ [] → ∃ e, (t.core k.core).paths = (s.core k.core).paths ++ [e] ∧ e.reqs = mkReqs k ls [] ∧ e.slot = k.slot)) ∧
  (∀ y f, (∃ sp o, base = .ok sp o) → y ∈ chosen s h pc → first ≤ y.2 → cstChk s k l0.2 a x n y = .bad f →
    (∀ z ∈ chosen s h pc, first ≤ z.2 → z.2 < y.2 → ∃ l va, cstChk s k l0.2 a x n z = .ok l va ∧ l.far = false) →
    ∃ t, exec (.cst h b64 pc d a b x) s = .next t ∧ Untouched s t k.core k.slot ∧
      RegsAfter s t h fun _ => [(d.toNat, BitVec.ofNat 32 y.2), (d.toNat + 1, f.status 1 0)])

/-- R245, R246, R285, R286: the collector and the compress-store. -/
def Obligations.GatherAndCompress : Prop := CollectorSends ∧ CompressStore

/-- R249, R250, R286: `embpool` of parties whose records and rows have been read issues, and the FP32 outputs of each enter its
store path in ascending element order; it writes no register. A party whose record has not been read, and that nothing earlier
holds, reads its sector 0 in one read, and then the half that holds SCALE in a read of its own (the model's reading: log 70, DEDUCED). -/
def Sys2Proof.Claims.EmbeddingPools : Prop := ∀ h d a b c k1 s k, Runs s k → let n := k1.toNat + 1
  (∀ P : Who → Pooled, (∀ x ∈ s.views h, PoolsNow s k x.2.1 x.2.2 d a b c n (P x.2.1)) →
    ∃ t, exec (.embpool h d a b c k1) s = .next t ∧ GoesOn s t h ∧ (∀ z, t.mem.get z = s.mem.get z) ∧ t.pends = s.pends ∧
      let out := fun (x : Nat × Who × View) => (List.range (P x.2.1).r.dim).flatMap fun e => leBytes 4
        (poolOut (P x.2.1).r ((List.range n).map fun j => x.2.2.r32 (c + BitVec.ofNat 8 j)) (P x.2.1).rows e)
      let ws := (s.views h).flatMap fun x => spanWrites x.2.1 (P x.2.1).dst (out x)
      (mkReqs k ws [] = [] → (t.core k.core).paths = (s.core k.core).paths) ∧
      (mkReqs k ws [] ≠ [] → ∃ e, (t.core k.core).paths = (s.core k.core).paths ++ [e] ∧ e.reqs = mkReqs k ws [] ∧
        e.parties = (s.views h).map fun x => x.2.1)) ∧
  ∀ x pa va got, s.views h = [x] → (∃ y, ptrCheck k [0] (x.2.2.r64 a) 0 64 false = .ok 0 y) →
    (∃ sp o, ptrCheck k [0, 1] (x.2.2.r64 d) 0 4 true = .ok sp o) →
    s.chkSpan k (x.2.2.r64 a) 64 false = [(0, 64, .ok (.glob pa) va)] → s.mayReadNow k x.2.1 = true →
    (s.core k.core).pbuf = got → (got = [] ∨ ∃ y, got = [y] ∧ isRecOf k.slot x.2.1 y = true ∧ y.bad = [] ∧ y.data.length = 32) →
    (s.core k.core).paths = [] → (s.core k.core).coll = [] → (s.core k.core).outb = [] →
    let old := got.flatMap (·.data)
    s.readHeld k.core k.ctx (pa + old.length) = false → isMg (pa + old.length) = false →
    ∃ t y, exec (.embpool h d a b c k1) s = .next t ∧ (t.core k.core).pbuf = [y] ∧ y.isRec = true ∧ y.who = x.2.1 ∧ y.slot = k.slot ∧
      y.data = old ++ (List.range 32).map (fun i => s.mem.get (pa + old.length + i)) ∧ (∀ z, t.mem.get z = s.mem.get z) ∧
      (∀ fid, t.myFib fid = s.myFib fid) ∧ t.myCox = s.myCox

/-- R287: `embsw` sends one version switch for the whole issue, a release at its scope, and every active party waits for the
old VERSION; at the home the sector is written only as the next version, and the old VERSION returns either way. -/
def Sys2Proof.Claims.EmbeddingSwitch : Prop :=
  (∀ h sc d a b s k x0 pa va, Runs s k → (s.views h).head? = some x0 →
    ptrCheck k [0] (x0.2.2.r64 a) 0 64 true = .ok 0 va → s.chkGlobal k va true = .ok (.glob pa) (some va) →
    ∃ t e q, exec (.embsw h sc d a b) s = .next t ∧ GoesOn s t h ∧ Untouched s t k.core k.slot ∧
      (∀ z, t.mem.get z = s.mem.get z) ∧
      (t.core k.core).paths = (s.core k.core).paths ++ [e] ∧ e.rel = some sc ∧ e.parties = (s.views h).map (fun x => x.2.1) ∧
      e.reqs = [{ loc := .glob pa, atomic := some q }] ∧ q.op = .embsw (sectorOf x0.2.2 b) ∧ q.ret = true ∧
      q.lanes.map (fun l => (l.who, l.lane, l.dst)) = (s.views h).map (fun x => (x.2.1, x.1, d.toNat)) ∧
      t.pends = s.pends ++ (s.views h).map fun x => { issue := s.nextId, lane := x.1, core := k.core, slot := k.slot
                                                      who := x.2.1, dst := d.toNat, pc := s.cur.pc, kind := .version }) ∧
  ∀ (s : State) pa sec ty ops, s.memsOk = true → isMg pa = false → pa % 64 = 0 → sec.length = 32 →
    let old := leNat (s.mem.read (pa + 8) 4)
    let r := s.homeAtomic pa (.embsw sec) ty ops
    r.2 = ops.map (fun _ => old) ∧
    ∀ x, r.1.mem.get x = if (old + 1) % 2 ^ 32 = leNat ((sec.drop 8).take 4) ∧ pa ≤ x ∧ x < pa + 32 then
      (sec[x - pa]?).getD 0 else s.mem.get x

/-- R247–R251, R287: `embpool` and `embsw`. -/
def Obligations.Embeddings : Prop := EmbeddingPools ∧ EmbeddingSwitch

/-- All that a walk leaves alone: everything but the translation caches, the L2s and the charges of the contexts. -/
def Sys2Proof.Claims.walkStill (s : State) : State :=
  { s with
    ctxs := s.ctxs.map fun c => { c with charge := [] }
    cores := s.cores.map fun c => { c with tlb := [] }
    cdies := s.cdies.map fun d => { d with dtc := [], l2 := [] } }

/-- R257, R259: a walk keeps the translation that it finds in the core's cache and its die's, unless the page migrates,
and changes nothing else but what its traffic leaves: the lines that it has read in the L2s (R241) and what these charge (R252). A walk
at a held controller waits (R104). -/
def Obligations.WalksFillCaches : Prop := ∀ i (s : State) core ctx (va : W64),
  i = .pageWalk core ctx va ∨ i = .migRewalk core ctx va → core < s.cores.length →
  (s.core core).tlb.find? (·.hits ctx va.toNat) = none → (s.cdie (coreDie core)).dtc.find? (·.hits ctx va.toNat) = none →
  (s.walkHeld core ctx va.toNat = true → exec i s = .next s) ∧
  (s.walkHeld core ctx va.toNat = false → ∃ t, exec i s = .next t ∧ walkStill t = walkStill s ∧
    (∀ l, s.walk ctx va.toNat = some l → l.e.getLsbD 6 = false →
      l.tlb ctx va.toNat ∈ (t.core core).tlb ∧ ∀ r sys, t.xl core ctx va.toNat r sys = l.check r sys va.toNat) ∧
    ((s.walk ctx va.toNat = none ∨ ∃ l, s.walk ctx va.toNat = some l ∧ l.e.getLsbD 6 = true) → t.cores = s.cores ∧
      t.cdies.map (·.dtc) = s.cdies.map (·.dtc)))

/-- R283: a copy command of a queue port becomes a copy with the port's queue register as its destination, or ends at once
with status 7 where its flag word is not well formed, a reserved SCOPE among these (the model's reading: log 78, DEDUCED); a prefetch command answers that it moved its line, or its pointer fault. -/
def Sys2Proof.Claims.PortCopies : Prop := ∀ (s : State) core c b,
  (s.firstCmd .copy core = some c → s.block? core c.slot = some b → ∀ d a f, c.ents.map (·.v) = [d, a, f] →
    (∀ sc, scopeOf (f.extractLsb' 32 3) = some sc → f.extractLsb' 37 27 = 0 → ∃ t y, exec (.copyPortCommand core) s = .next t ∧
      t.copies = s.copies ++ [y] ∧ y.dst = d ∧ y.src = a ∧ y.len = (f.extractLsb' 0 32).toNat ∧ y.dest = .queue c.q ∧
      y.issue = c.seq ∧ y.core = b.core ∧ y.slot = b.slot ∧ y.o = { acq := f.getLsbD 35, rel := f.getLsbD 36, scope := sc } ∧
      (∀ z, t.mem.get z = s.mem.get z) ∧
      t.cmds = s.cmds.map fun x => if x.seq = c.seq then { x with busy := true } else x) ∧
    (scopeOf (f.extractLsb' 32 3) = none ∨ f.extractLsb' 37 27 ≠ 0 → ∃ t, exec (.copyPortCommand core) s = .next t ∧ t.copies = s.copies ∧
      t.cmds = s.cmds.map fun x => if x.seq = c.seq then { x with busy := true, result := some [0x07000000] } else x)) ∧
  (s.firstCmd .collector core = some c → s.block? core c.slot = some b → ∀ p f, c.ents.map (·.v) = [p, f] →
    (f.extractLsb' 2 62 ≠ 0 → ∃ t, exec (.collectorPrefetch core) s = .next t ∧
      t.cmds = s.cmds.map fun x => if x.seq = c.seq then { x with result := some [0x07000000] } else x) ∧
    (f.extractLsb' 2 62 = 0 →
      let ends := fun (w : W64) => ∃ t, exec (.collectorPrefetch core) s = .next t ∧ (∀ z, t.mem.get z = s.mem.get z) ∧
        t.cmds = s.cmds.map fun x => if x.seq = c.seq then { x with result := some [w] } else x
      (∀ rs sp, ptrCheck b [0, 1] p 0 1 false = .bad rs sp → ends (((7 : BitVec 8) ++ BitVec.ofNat 4 rs ++ (0 : BitVec 20)).zeroExtend 64)) ∧
      (∀ o, ptrCheck b [0, 1] p 0 1 false = .ok 1 o → ends 1) ∧
      ∀ pa va y, ptrCheck b [0, 1] p 0 1 false = .ok 0 va → s.chkGlobal b va false = .ok (.glob pa) y →
        s.lineHeld b.ctx pa = false → s.held b.ctx (coreDie core) .copy = false → s.bad pa 1 = false → (s.core core).paths = [] →
        isMg pa = false → ends 1))

/-- R280–R283, R197: asynchronous copies, from instructions and from ports. -/
def Obligations.Copies : Prop := CopiesAreAccepted ∧ CopiesMoveInOrder ∧ PortCopies

/-! ### Barriers and rejoin (R172–R193) -/

namespace Sys2Proof.Claims

open Sys2Proof Sys2Proof.Machine

/-- An arrival form: its level (0 block, 1 cluster, 2 grid), barrier, whether it waits, whether it is relaxed, status or
token register and count. -/
structure ArrForm where
  h : Hd
  lvl : Nat
  n : Nat
  sync : Bool
  rlx : Bool
  d : RegNo
  c : Count

def arrivals : Instr → Option ArrForm
  | .barSync h rlx d b c => some { h, lvl := 0, n := b.toNat, sync := true, rlx, d, c }
  | .barArrive h rlx d b c => some { h, lvl := 0, n := b.toNat, sync := false, rlx, d, c }
  | .cbarSync h rlx d b c => some { h, lvl := 1, n := b.toNat, sync := true, rlx, d, c }
  | .cbarArrive h rlx d b c => some { h, lvl := 1, n := b.toNat, sync := false, rlx, d, c }
  | .gbarSync h rlx d b c => some { h, lvl := 2, n := b.toNat, sync := true, rlx, d, c }
  | .gbarArrive h rlx d b c => some { h, lvl := 2, n := b.toNat, sync := false, rlx, d, c }
  | _ => none

/-- A wait form: level, barrier, relaxed, status and phase register. -/
def waits : Instr → Option (Hd × Nat × Nat × Bool × RegNo × RegNo)
  | .barWait h rlx d a b => some (h, 0, b.toNat, rlx, d, a)
  | .cbarWait h rlx d a b => some (h, 1, b.toNat, rlx, d, a)
  | .gbarWait h rlx d a b => some (h, 2, b.toNat, rlx, d, a)
  | _ => none

/-- The scope of a level (Table 8-1). -/
def levelScope (lvl : Nat) : Scope := if lvl = 0 then .core else if lvl = 1 then .clu else .dev

/-- The block has the barrier. -/
def HasBar (s : State) (b : Block) (lvl n : Nat) : Prop :=
  if lvl = 0 then n < b.bars.length
  else if lvl = 1 then ∃ g, s.group? b.group = some g ∧ n < g.bars.length
  else b.ctx < s.ctxs.length ∧ n < (s.ctx b.ctx).gbars.length

/-- The count that an arrival brings. -/
def countIn (v : View) : Count → W32
  | .reg a => v.r32 a
  | .imm x => x

/-- The status of a party: Pd, or Sd zero-extended (R191). -/
def statusIn (v : View) (d : RegNo) (x : Nat) : Wr := match v with
  | .cox _ => .s d.toNat (BitVec.ofNat 64 x)
  | .fib _ => .p d.toNat (decide (x ≠ 0))

/-- The one active party of an issue writes and goes on. -/
def PartyGoes (s t : State) (w : Who) (ws : List Wr) : Prop := match w with
  | .cox => t.myCox.map Cox.bare = s.myCox.map fun c => { (ws.foldl Cox.wr c).bare with pc := s.nextPc }
  | .fib fid => (t.myFib fid).map Fibre.bare = (s.myFib fid).map fun f => { (f.wrs ws).bare with pc := s.nextPc }

/-- The one active party of an issue parks at the instruction, and is to go on after it. -/
def PartyParks (s t : State) (w : Who) (x : Wait) : Prop := match w with
  | .cox => t.myCox.map Cox.bare = s.myCox.map fun c => { c.bare with wait := some x, next := s.nextPc }
  | .fib fid => t.myFib fid = (s.myFib fid).map fun f => { f with life := .parked, wait := some x, next := s.nextPc }

/-- An arrival instruction does not wait: it is relaxed, or its parties' accesses are performed at the level's scope
(R185). -/
def mayArrive (s : State) (b : Block) (A : ArrForm) : Prop :=
  A.rlx = true ∨ ∀ x ∈ s.views A.h, noReads s b x.2.1 ∧ performedAt s b x.2.1 (levelScope A.lvl)

/-- None of the issuing parties waits. -/
def Awake (s : State) : Prop :=
  (Who.cox ∈ s.issuers → ∀ c, s.myCox = some c → c.wait = none) ∧
  ∀ fid, Who.fib fid ∈ s.issuers → ∀ f, s.myFib fid = some f → f.wait = none

/-- All that a barrier instruction of a block may not change: memory, pending operations, store paths, queues. -/
def BarFrame (s t : State) : Prop :=
  (∀ a, t.mem.get a = s.mem.get a) ∧ t.pends = s.pends ∧ t.copies = s.copies ∧ t.cmds = s.cmds ∧ t.outstanding = s.outstanding ∧
  t.ports = s.ports ∧ t.launches = s.launches ∧ t.seq = s.seq ∧
  (∀ c, (t.core c).paths = (s.core c).paths ∧ (t.core c).outb = (s.core c).outb ∧ collLines (t.core c) = collLines (s.core c)) ∧
  ∀ c sl b, s.block? c sl = some b → ∃ b', t.block? c sl = some b' ∧ b'.scratch = b.scratch ∧ b'.const = b.const ∧ b'.q = b.q ∧
    b'.keys = b.keys ∧ b'.fibres.length = b.fibres.length ∧
    (∀ f ∈ b'.fibres, ∃ g ∈ b.fibres, f.fid = g.fid ∧ (f.regs = g.regs ∨ Issues c sl s f.fid)) ∧ b'.dq = b.dq
where
  /-- The fibre is one of the issuing parties. -/
  Issues (c sl : Nat) (s : State) (fid : Nat) : Prop := s.cur.core = c ∧ s.cur.slot = sl ∧ Who.fib fid ∈ s.issuers

end Sys2Proof.Claims

/-- R175, R179: what one arrival with count c does to a barrier, and what comes of it. -/
def Sys2Proof.Claims.ArrivalRules : Prop := ∀ (x : Barrier) c,
  let cnt := if x.st = .idle then x.cnt else x.latch
  (x.st = .abandoned → x.arrive c = (x, .passed 1 x.phase)) ∧
  (x.st ≠ .abandoned → (c = 0 ∨ (cnt ≠ 0 ∧ c ≠ cnt)) → (x.arrive c).2 = .fault ∧ (x.arrive c).1.st = .abandoned ∧
    (x.arrive c).1.phase = x.phase + 1 ∧ (x.arrive c).1.abn = true ∧ (x.arrive c).1.cnt = x.cnt) ∧
  (x.st ≠ .abandoned → c ≠ 0 → (cnt = 0 ∨ c = cnt) → x.arr + 1 = c → (x.arrive c).2 = .passed 0 x.phase ∧
    (x.arrive c).1 = { x with abn := false, phase := x.phase + 1, st := .idle, arr := 0, latch := 0 }) ∧
  (x.st ≠ .abandoned → c ≠ 0 → (cnt = 0 ∨ c = cnt) → x.arr + 1 ≠ c → (x.arrive c).2 = .waits x.phase ∧
    (x.arrive c).1 = { x with latch := c, st := .gather, arr := x.arr + 1 })

/-- R172–R179, R185, R191: an arrival instruction. All active parties arrive in lane order; with one active party, it gets
its status or token and goes on, or parks until the phase ends; the last arrival releases every party that waits. -/
def Sys2Proof.Claims.BarrierArrivals : Prop := ∀ i A, arrivals i = some A → ∀ s b, Runs s b → Awake s →
  HasBar s b A.lvl A.n → mayArrive s b A →
  let x := s.bar b A.lvl A.n
  let come := fun (z : Barrier) (vs : List (Nat × Who × View)) => vs.foldl (fun z y => (z.arrive (countIn y.2.2 A.c)).1) z
  ((∀ k y, (s.views A.h)[k]? = some y →
      ((come x ((s.views A.h).take k)).arrive (countIn y.2.2 A.c)).2 ≠ .fault) →
    ∃ t, exec i s = .next t ∧ BarFrame s t ∧ t.bar b A.lvl A.n = come x (s.views A.h)) ∧
  ∀ y, s.views A.h = [y] → let r := x.arrive (countIn y.2.2 A.c)
    (∀ st p, r.2 = .passed st p → ∃ t, exec i s = .next t ∧ BarFrame s t ∧ t.bar b A.lvl A.n = r.1 ∧
      PartyGoes s t y.2.1 (if A.sync then [statusIn y.2.2 A.d st] else [y.2.2.w32 A.d p]) ∧
      (st = 0 → ∀ q f d a, q ∈ s.blocks → s.block? q.core q.slot = some q → b.shares q A.lvl = true → q.fib? f.fid = some f →
        f.life = .parked → f.wait = some (.barrier A.lvl A.n d none a) →
        (t.fibAt q.core q.slot f.fid).map Fibre.bare =
          some { (f.wrs [.p d.toNat false]).bare with life := .ready, wait := none, pc := f.next })) ∧
    (∀ p, r.2 = .waits p → ∃ t, exec i s = .next t ∧ BarFrame s t ∧ t.bar b A.lvl A.n = r.1 ∧
      (A.sync = false → PartyGoes s t y.2.1 [y.2.2.w32 A.d p]) ∧
      (A.sync = true → PartyParks s t y.2.1 (.barrier A.lvl A.n A.d none (!A.rlx))))

/-- R172–R181, R189: arrivals at barriers. -/
def Obligations.BarrierRules : Prop := ArrivalRules ∧ BarrierArrivals

/-- R177, R178, R191: a `.wait` with one active party goes on with status 0 when the phase it names has ended and was not
abandoned, with 1 when the barrier is abandoned or that phase was, and parks otherwise. -/
def Sys2Proof.Claims.BarrierWaits : Prop := ∀ i h lvl n rlx d a, waits i = some (h, lvl, n, rlx, d, a) → ∀ s b, Runs s b →
  ∀ y, s.views h = [y] →
  let x := s.bar b lvl n
  let p := y.2.2.r32 a
  (x.st = .abandoned → ∃ t, exec i s = .next t ∧ BarFrame s t ∧ PartyGoes s t y.2.1 [statusIn y.2.2 d 1]) ∧
  (x.st ≠ .abandoned → x.phase ≠ p → ∃ t, exec i s = .next t ∧ BarFrame s t ∧ t.bar b lvl n = x ∧
    PartyGoes s t y.2.1 [statusIn y.2.2 d (if x.phase = p + 1 ∧ x.abn = true then 1 else 0)]) ∧
  (x.st ≠ .abandoned → x.phase = p → ∃ t, exec i s = .next t ∧ BarFrame s t ∧ t.bar b lvl n = x ∧
    PartyParks s t y.2.1 (.barrier lvl n d (some p) (!rlx)))

/-- R180, R181, R189: `barinit` puts a barrier that no phase is open at into IDLE with its count, keeping its phase; `barinv`
abandons a barrier, ending an open phase, and the barrier stays so. -/
def Sys2Proof.Claims.BarrierSetUp : Prop := ∀ h (lvl : Level) (n : BitVec 4) s b, CoxIssuing s b → Runs s b →
  let l := match lvl with
    | .blk => 0
    | .clu => 1
    | .grid => 2
  HasBar s b l n.toNat → let x := s.bar b l n.toNat
  (∀ a, x.st ≠ .gather → ∃ t, exec (.barinit h lvl a n) s = .next t ∧ BarFrame s t ∧
    t.bar b l n.toNat = { x with st := .idle, cnt := (b.cox.reg a.toNat).truncate 32, latch := 0, arr := 0 } ∧
    PartyGoes s t .cox []) ∧
  ∃ t, exec (.barinv h lvl n) s = .next t ∧ BarFrame s t ∧ (t.bar b l n.toNat).st = .abandoned ∧
    (t.bar b l n.toNat).cnt = x.cnt ∧
    (t.bar b l n.toNat).phase = (if x.st = .gather then x.phase + 1 else x.phase) ∧
    (x.st = .gather → (t.bar b l n.toNat).abn = true) ∧
    (b.cox.wait = none → PartyGoes s t .cox [])

/-- R182–R192: waits at barriers, and setting them up. -/
def Obligations.BarrierUse : Prop := BarrierWaits ∧ BarrierSetUp

/-- R186, R187, R193: `rjset` records the active lanes in the origin's mask; `rjw` parks the recorded lanes that have not
arrived and lets the others go on, until every recorded lane has arrived: then they all go on and the mask is empty. -/
def Obligations.RejoinMasks : Prop := ∀ h s b p o (j : BitVec 3), Issuing s b p → b.origin? p.origin = some o → o.j.length = 8 →
  (∃ t b', exec (.rjset h j) s = .next t ∧ t.me = some b' ∧ GoesOn s t h ∧ (∀ a, t.mem.get a = s.mem.get a) ∧
    (b'.origin? p.origin).map (fun q => q.mask j.toNat) = some (let x := o.mask j.toNat
      if lanesOf (s.act h) = 0 then x
      else if x.arv = 0 then { x with set := lanesOf (s.act h) } else { x with set := x.set ||| lanesOf (s.act h) })) ∧
  (p.serial = false → let x := o.mask j.toNat
    let come := (s.act h).filter fun y => x.set.getLsbD y.1 && !x.arv.getLsbD y.1
    (x.arv ||| lanesOf come) ≠ x.set → ∃ t b', exec (.rjw h j) s = .next t ∧ t.me = some b' ∧
      (∀ a, t.mem.get a = s.mem.get a) ∧ t.pends = s.pends ∧
      (b'.origin? p.origin).map (fun q => q.mask j.toNat) = some { x with arv := x.arv ||| lanesOf come } ∧
      ∀ fid, t.myFib fid = (s.myFib fid).map fun f =>
        if ∃ y ∈ come, y.2.fid = fid then { f with life := .parked, wait := some (.rejoin j.toNat), next := s.nextPc }
        else if Who.fib fid ∈ s.issuers then { f with pc := s.nextPc } else f) ∧
  (p.serial = false → let x := o.mask j.toNat
    let come := (s.act h).filter fun y => x.set.getLsbD y.1 && !x.arv.getLsbD y.1
    x.set ≠ 0 → (x.arv ||| lanesOf come) = x.set → ∃ t b', exec (.rjw h j) s = .next t ∧ t.me = some b' ∧
      (∀ a, t.mem.get a = s.mem.get a) ∧ t.pends = s.pends ∧
      (b'.origin? p.origin).map (fun q => q.mask j.toNat) = some {} ∧
      ∀ fid f, s.myFib fid = some f → f.origin = some p.origin →
        ((∃ y ∈ come, y.2.fid = fid) → (t.myFib fid).map (fun g => (g.pc, g.life, g.regs)) = some (s.nextPc, .ready, f.regs)) ∧
        ((∀ y ∈ come, y.2.fid ≠ fid) → f.life = .parked → f.wait = some (.rejoin j.toNat) → Who.fib fid ∉ s.issuers →
          (t.myFib fid).map (fun g => (g.pc, g.life, g.regs)) = some (f.next, .ready, f.regs)))

/-! ### Fibres, relations and groups (R126–R171) -/

namespace Sys2Proof.Claims

open Sys2Proof Sys2Proof.Machine

/-- A block but for its threads, parts, identifiers, key-store entries, collectives and regrouping. -/
def shell (b : Block) : Block :=
  { b.still with origins := [], nextFid := 0, keys := [], insts := [], regroups := [], emits := [], ovStop := false }

/-- What the life of a block's fibres leaves alone: all but the inside of the block, what an issue is charged, fault
records, and the events that wake cores. -/
def outside (s : State) (core slot : Nat) : State :=
  let q := s.still core slot
  { q with
    ctxs := q.ctxs.map fun c => { c with faultQ := [], waiting := [] }
    mgRecs := []
    mgWaiting := []
    coals := []
    coalWait := []
    cores := q.cores.map fun c => { c with wakeReq := none }
    blocks := s.blocks.map fun b => if b.at core slot then shell b else b }

/-- All that happened, happened inside one block, and not to its cox thread. -/
structure Within (s t : State) (core slot : Nat) : Prop where
  rest : outside t core slot = outside s core slot
  cox : t.coxAt core slot = s.coxAt core slot
  here : t.cur.core = s.cur.core ∧ t.cur.slot = s.cur.slot

/-- A target of a relation collective, and the relations whose members it takes (R155). -/
def InputOf (b : Block) (fold : Bool) (rel r : Nat) : Prop :=
  if fold then r = rel else ∃ x, b.rels[rel]? = some x ∧ (x.left = some r ∨ x.right = some r)

def Member (b : Block) (fold : Bool) (rel fid : Nat) : Prop := ∃ k ∈ b.keys, k.fid = fid ∧ InputOf b fold rel k.rel

/-- A fibre that has arrived at a target's instance. -/
def Arrived (b : Block) (fold : Bool) (rel fid : Nat) : Prop :=
  ∃ f l, b.fib? fid = some f ∧ f.wait = some (.relation fold rel l true false)

/-- The key that a fibre's registers hold for a relation: a register or a pair (R50, R153). -/
def keyNow (r : Option Relation) (f : Fibre) : W64 := match r.bind fun x => x.clauses.find? fun c => c.kind == 1 || c.kind == 2 with
  | some c => if c.kind = 1 then (f.reg c.vd.toNat).zeroExtend 64 else f.reg (c.vd.toNat + 1) ++ f.reg c.vd.toNat
  | none => 0

/-- A relation has one key (R50). -/
def OneKey (r : Option Relation) : Prop := ∀ x, r = some x → (x.clauses.filter fun c => c.kind == 1 || c.kind == 2).length ≤ 1

/-- The registers of a join result: a projection copies one register of the left or right fibre (R158). -/
def projected (r : Relation) (w : Nat) (l g : Fibre) : List W32 :=
  r.clauses.foldl (fun z c => if c.kind = 3 then z.set c.vd.toNat (l.reg c.arg.toNat)
    else if c.kind = 4 then z.set c.vd.toNat (g.reg c.arg.toNat) else z) (List.replicate w 0)

/-- Every partition of a block's core has a column with room for n more of its windows (R11). -/
def WindowsFor (s : State) (b : Block) (n : Nat) : Prop := ∀ p < 4, ∃ c < 32,
  let ws := (s.blocks.filter fun q => q.core == b.core).flatMap fun q =>
    (q.fibres.filter fun f => f.win && f.part == p && f.col == c).map fun _ => q.kr.w.toNat
  ws.length + n ≤ 64 ∧ ws.sum + n * b.kr.w.toNat ≤ 4096

def meets : Instr → Option (Hd × Bool × Nat × W32)
  | .rjoin h r t => some (h, false, r.toNat, t)
  | .rfold h r => some (h, true, r.toNat, 0)
  | _ => none

/-- Two values of a fold column combined: added, or the lesser or greater by the column's type (R75, R160). -/
def combineTwo (kind arg : Nat) (x y : W64) : W64 :=
  let lt := if arg = 3 then x.slt y else if arg = 4 then x.ult y else if arg = 0 then (x.truncate 32).slt (y.truncate 32)
    else (x.truncate 32).ult (y.truncate 32)
  let gt := if arg = 3 then y.slt x else if arg = 4 then y.ult x else if arg = 0 then (y.truncate 32).slt (x.truncate 32)
    else (y.truncate 32).ult (x.truncate 32)
  if arg = 2 then
    (let a : W32 := x.truncate 32
     let b : W32 := y.truncate 32
     (if kind = 5 then f32add .rne a b else if kind = 6 then f32min false a b else f32max false a b).zeroExtend 64)
  else if kind = 5 then x + y
  else if kind = 6 then (if gt then y else x) else (if lt then y else x)

/-- The registers that a survivor gets for one clause from the fibres of its key, ascending (R160). -/
def column (c : Clause) (fs : List Fibre) (z : List W32) : List W32 :=
  let v := c.vd.toNat
  let wide := c.arg.toNat = 3 ∨ c.arg.toNat = 4
  let val := fun (f : Fibre) => if wide then f.reg (v + 1) ++ f.reg v else (f.reg v).zeroExtend 64
  match fs.map val with
  | [] => z
  | x :: r =>
    if c.kind = 9 then z.set v (BitVec.ofNat 32 fs.length)
    else if c.kind = 5 ∨ c.kind = 6 ∨ c.kind = 7 then
      (let y := r.foldl (combineTwo c.kind.toNat c.arg.toNat) x
       if wide then (z.set v (y.extractLsb' 0 32)).set (v + 1) (y.extractLsb' 32 32) else z.set v (y.extractLsb' 0 32))
    else z

end Sys2Proof.Claims

/-- R138, R161, R165, R166, R126: `spawn` makes one child per active lane, in lane order, with consecutive identifiers;
`exit` ends its active fibres; `kill` ends its targets and says which lane ended what; a stage's queue entry makes a fibre. -/
def Obligations.FibresComeAndGo : Prop :=
  (∀ h d a (n : BitVec 5) l s b p, Issuing s b p → s.shapeOk = true → b.emitting = false → let ls := s.act h
    b.nextFid + ls.length ≤ 2 ^ 32 → b.fibres.length + ls.length ≤ 65536 →
    ∃ t b', exec (.spawn h d a n l) s = .next t ∧ t.me = some b' ∧
      ((∀ k < ls.length, ∀ f, b'.fib? (b.nextFid + k) = some f → f.win = true) →
        (∀ fid f g, s.myFib fid = some f → t.myFib fid = some g → g.win = f.win) → Within s t s.cur.core s.cur.slot) ∧
      b'.fibres.map (·.fid) = b.fibres.map (·.fid) ++ (List.range ls.length).map (b.nextFid + ·) ∧
      b'.nextFid = b.nextFid + ls.length ∧
      (∀ k x, ls[k]? = some x → ∃ f, b'.fib? (b.nextFid + k) = some f ∧ f.stage = p.stage ∧ f.pc = l.zeroExtend 64 ∧
        f.preds = 1 ∧ f.nftrap = false ∧
        (f.win = true ∨ f.regs ≠ [] → f.regs =
          (((List.range n.toNat).map fun i => x.2.reg (a.toNat + i)) ++ List.replicate b.kr.w.toNat 0).take b.kr.w.toNat) ∧
        (f.life = .ungrouped ∧ f.win = true ∨ f.life = .unborn ∧ f.win = false)) ∧
      ((ls.map fun x => x.2.fid).Nodup → ∀ k x, ls[k]? = some x → d.toNat < x.2.regs.length → x.2.win = true → x.2.life ≠ .parked →
        (t.myFib x.2.fid).map (fun f => f.reg d.toNat) = some (BitVec.ofNat 32 (b.nextFid + k))) ∧
      ∀ fid f, s.myFib fid = some f → ∃ g, t.myFib fid = some g ∧ g.preds = f.preds ∧
        (g.win = f.win → ∀ r, r ≠ d.toNat ∨ Who.fib fid ∉ s.issuers → g.reg r = f.reg r) ∧
        g.pc = if Who.fib fid ∈ s.issuers then s.nextPc else f.pc) ∧
  (∀ h s b p, Issuing s b p → ∃ t, exec (.exit h) s = .next t ∧ Within s t s.cur.core s.cur.slot ∧
    (∀ x ∈ s.act h, (∀ k ∈ b.keys, k.fid = x.2.fid → k.st ≠ .emitting) → t.myFib x.2.fid = none) ∧
    (b.insts = [] → ∀ fid f, s.myFib fid = some f → (∀ x ∈ s.act h, x.2.fid ≠ fid) → ∃ g, t.myFib fid = some g ∧
      g.regs = f.regs ∧ g.preds = f.preds ∧
      (f.wait = none → g.life = f.life ∧ g.pc = if Who.fib fid ∈ s.issuers then s.nextPc else f.pc))) ∧
  (∀ h d a s b p, Issuing s b p → let ls := s.act h
    let aim := fun (x : Nat × Fibre) => (x.2.reg a.toNat).toNat
    ∃ t, exec (.kill h d a) s = .next t ∧ Within s t s.cur.core s.cur.slot ∧
      (∀ x ∈ ls, (∀ k ∈ b.keys, k.fid = aim x → k.st ≠ .emitting) → t.myFib (aim x) = none) ∧
      (b.insts = [] → (ls.map fun x => x.2.fid).Nodup → ∀ fid f, s.myFib fid = some f → (∀ x ∈ ls, aim x ≠ fid) →
        ∃ g, t.myFib fid = some g ∧ g.preds = f.preds ∧ (∀ r, r ≠ d.toNat → g.reg r = f.reg r) ∧
        (f.wait = none → g.life = f.life ∧ g.pc = if Who.fib fid ∈ s.issuers then s.nextPc else f.pc) ∧
        ∀ k x, ls[k]? = some x → x.2.fid = fid → d.toNat < f.regs.length → f.win = true →
          (g.reg d.toNat = 1 ∧ (s.myFib (aim x)).isSome ∧ ∀ y ∈ ls.take k, aim y ≠ aim x) ∨
          (g.reg d.toNat = 0 ∧ (s.myFib (aim x) = none ∨ ∃ y ∈ ls.take k, aim y = aim x)))) ∧
  ∀ (s : State) core slot b stage e r pl, s.block? core slot = some b → s.shapeOk = true → b.stageQ[stage]? = some (e :: r) →
    b.ovStop = false → b.emitting = false → b.fibres.length < 65536 → (s.ctx b.ctx).st ≠ .killing → b.nextFid < 2 ^ 32 →
    s.spawnPlace b = some pl →
    ∃ t b' f, exec (.stageSpawn core slot stage) s = .next t ∧ t.block? core slot = some b' ∧ t.mem = s.mem ∧
      b'.fibres = b.fibres ++ [f] ∧ b'.nextFid = b.nextFid + 1 ∧ b'.stageQ = b.stageQ.set stage r ∧ b'.cox = b.cox ∧ b'.q = b.q ∧
      f.fid = b.nextFid ∧ f.life = .ungrouped ∧ f.stage = stage ∧ (f.part, f.col) = pl ∧
      f.pc = ((b.kr.entry[stage]?).getD 0).zeroExtend 64 ∧
      f.regs = ([e.extractLsb' 0 32, e.extractLsb' 32 32] ++ List.replicate b.kr.w.toNat 0).take b.kr.w.toNat

/-- R154, R160, R167, R169: `renter`, `rleave` and `rprobe`, and the combination of a fold: the lowest fibre of each key
gets the columns, in its window or in its spill image, and the others end. -/
def Sys2Proof.Claims.RelationMembers : Prop :=
  (∀ h (rel : BitVec 3) s b p, Issuing s b p → OneKey b.rels[rel.toNat]? → let ls := s.act h
    let mine := fun (k : KEnt) => k.rel = rel.toNat ∧ ∃ x ∈ ls, x.2.fid = k.fid
    ((ls.filter fun x => !(b.keys.any fun k => k.rel == rel.toNat && k.fid == x.2.fid)).length ≤ s.freeKeys b.core →
      ∃ t b', exec (.renter h rel) s = .next t ∧ t.me = some b' ∧ GoesOn s t h ∧ Within s t s.cur.core s.cur.slot ∧
        (∀ k, ¬ mine k → (k ∈ b'.keys ↔ k ∈ b.keys)) ∧
        (∀ k ∈ b'.keys, mine k → ∀ f, b.fib? k.fid = some f → k.key = keyNow b.rels[rel.toNat]? f) ∧
        ∀ x ∈ ls, ∃ k ∈ b'.keys, k.rel = rel.toNat ∧ k.fid = x.2.fid) ∧
    (s.freeKeys b.core < (ls.filter fun x => !(b.keys.any fun k => k.rel == rel.toNat && k.fid == x.2.fid)).length →
      exec (.renter h rel) s = .next s)) ∧
  (∀ h (rel : BitVec 3) s b p, Issuing s b p → let ls := s.act h
    let mine := fun (k : KEnt) => k.rel = rel.toNat ∧ ∃ x ∈ ls, x.2.fid = k.fid
    ∃ t b', exec (.rleave h rel) s = .next t ∧ t.me = some b' ∧ Within s t s.cur.core s.cur.slot ∧ (∀ k ∈ b'.keys, ¬ mine k) ∧
      (b.insts = [] → GoesOn s t h ∧ ∀ k, ¬ mine k → (k ∈ b'.keys ↔ k ∈ b.keys))) ∧
  (∀ h d a (rel : BitVec 3) s b p, Issuing s b p → ∃ t, exec (.rprobe h d a rel) s = .next t ∧ Writes s t h fun _ x =>
    let pair := match b.rels[rel.toNat]? with
      | some r => r.clauses.any fun c => c.kind == 2
      | none => false
    let v : W64 := if pair then x.2.reg (a.toNat + 1) ++ x.2.reg a.toNat else (x.2.reg a.toNat).zeroExtend 64
    [.v d.toNat (BitVec.ofNat 32 (b.keys.filter fun k => k.rel == rel.toNat && k.key == v).length)]) ∧
  (∀ (s : State) core slot b rel r i, s.block? core slot = some b → s.shapeOk = true → b.rels[rel]? = some r → b.insts = [i] →
    i.fold = true → i.rel = rel → i.st = .emit → i.defer = [] →
    (∀ k ∈ b.keys, k.st = .emitting → k.rel = rel ∧ Arrived b true rel k.fid ∧
      ∀ f, b.fib? k.fid = some f → f.win = true ∧ f.stuck = false) →
    (b.keys.filter fun k => k.st == .emitting).Pairwise (fun k q => k.fid < q.fid) →
    ∃ t, exec (.foldCombine core slot rel) s = .next t ∧ t.mem = s.mem ∧ t.pends = s.pends ∧
      ∀ k ∈ b.keys, k.st = .emitting → let same := b.keys.filter fun q => q.st == .emitting && q.key == k.key
        ((∃ q ∈ same, q.fid < k.fid) → t.fibAt core slot k.fid = none) ∧
        ((∀ q ∈ same, k.fid ≤ q.fid) → ∀ f, b.fib? k.fid = some f → ∃ g, t.fibAt core slot k.fid = some g ∧
          g.regs = r.clauses.foldl (fun z c => column c (same.filterMap fun q => b.fib? q.fid) z) f.regs ∧ g.preds = f.preds ∧
          (f.life = .parked → g.life = .ready ∧ g.wait = none ∧ g.pc = f.next))) ∧
  ∀ (s : State) core slot b rel r i f pa, s.block? core slot = some b → s.shapeOk = true → b.rels[rel]? = some r → b.insts = [i] →
    i.fold = true → i.rel = rel → i.st = .emit → i.defer = [] →
    (∀ k ∈ b.keys, k.st = .emitting → k.rel = rel ∧ Arrived b true rel k.fid ∧
      ∀ g, b.fib? k.fid = some g → g.stuck = false ∧ (g = f ∨ g.win = true)) →
    (b.keys.filter fun k => k.st == .emitting).Pairwise (fun k q => k.fid < q.fid) →
    b.fib? f.fid = some f → f.life = .swapped → f.win = false → f.held = [] →
    s.spillXl b f .read = .at_ pa → s.spillXl b f .write = .at_ pa → s.mem.wf = true → (pa + 1112 ≤ mgBase ∨ mgBase + 4096 ≤ pa) →
    b.kr.w.toNat ≤ 256 → (∀ c ∈ r.clauses, c.vd.toNat < b.kr.w.toNat ∧ (c.arg.toNat = 3 ∨ c.arg.toNat = 4 → c.vd.toNat + 1 < b.kr.w.toNat)) →
    ∀ k ∈ b.keys, k.st = .emitting → k.fid = f.fid → let same := b.keys.filter fun q => q.st == .emitting && q.key == k.key
      (∀ q ∈ same, k.fid ≤ q.fid) →
      let w := b.kr.w.toNat
      let f' := f.ofImage w (s.mem.read pa 1112)
      let fs := (same.filterMap fun q => b.fib? q.fid).map fun g => if g.fid = f.fid then f' else g
      ∃ t g, exec (.foldCombine core slot rel) s = .next t ∧ t.fibAt core slot f.fid = some g ∧ g.life = .returning ∧ g.wait = none ∧
        g.next = f.next ∧ g.win = false ∧ (∀ z, z < pa ∨ pa + 1024 ≤ z → t.mem.get z = s.mem.get z) ∧
        ∀ n < w, some (BitVec.ofNat 32 (leNat (t.mem.read (pa + 4 * n) 4))) =
          (r.clauses.foldl (fun z c => column c fs z) f'.regs)[n]?

/-- R155–R159, R168: what an arrival at `rjoin` or `rfold` does: with no active member the part goes on; with one, the
active lanes park until every member has arrived, which starts the emission; and each pair of a join makes one fibre. -/
def Sys2Proof.Claims.RelationArrivals : Prop :=
  (∀ i h fold rel lab, meets i = some (h, fold, rel, lab) → ∀ s b p, Issuing s b p → let ls := s.act h
    let park := fun (t : State) (re : Bool) => ∀ fid, ∃ m : Bool, (m = true ↔ re = false ∧ Member b fold rel fid) ∧
      t.myFib fid = (s.myFib fid).map fun f =>
        if ∃ x ∈ ls, x.2.fid = fid then { f with life := .parked, wait := some (.relation fold rel lab m re), next := s.nextPc }
        else if Who.fib fid ∈ s.issuers then { f with pc := s.nextPc } else f
    ((∀ x ∈ ls, ¬ Member b fold rel x.2.fid) → ∃ t, exec i s = .next t ∧ GoesOn s t h ∧ Within s t s.cur.core s.cur.slot) ∧
    ((∃ x ∈ ls, Member b fold rel x.2.fid) → (∀ k ∈ b.insts, k.fold = fold ∧ k.rel = rel ∧ k.st = .gather ∧ k.defer = []) →
      ((∃ k ∈ b.keys, InputOf b fold rel k.rel ∧ (∃ f, b.fib? k.fid = some f ∧ f.arrivedAt fold rel = false) ∧ ∀ x ∈ ls, x.2.fid ≠ k.fid) →
        (ls.map (·.1)).Nodup →
        ∃ t b', exec i s = .next t ∧ t.me = some b' ∧ Within s t s.cur.core s.cur.slot ∧ park t false ∧
          (∃ k ∈ b'.insts, k.fold = fold ∧ k.rel = rel ∧ k.st = .gather) ∧
          ∀ k ∈ b'.keys, InputOf b fold rel k.rel → (∃ x ∈ ls, x.2.fid = k.fid) → k.st = .arrived) ∧
      ((∀ k ∈ b.keys, InputOf b fold rel k.rel → (Arrived b fold rel k.fid ∨ ∃ x ∈ ls, x.2.fid = k.fid) ∧
          noReads s b (.fib k.fid) ∧ performedAt s b (.fib k.fid) .core) →
        ∃ t b', exec i s = .next t ∧ t.me = some b' ∧ Within s t s.cur.core s.cur.slot ∧
          ((∃ k ∈ b'.insts, k.fold = fold ∧ k.rel = rel ∧ k.st = .emit) ∨
            fold = false ∧ ∀ x ∈ ls, (t.myFib x.2.fid).map (fun g => (g.life, g.pc)) = some (.ready, s.nextPc)))) ∧
    ((∃ x ∈ ls, Member b fold rel x.2.fid) → (∃ k ∈ b.insts, k.fold = fold ∧ k.rel = rel) →
      (∀ k ∈ b.insts, k.st = .emit ∧ (k.fold = true ∨ k.todo ≠ some [])) →
      ∃ t b', exec i s = .next t ∧ t.me = some b' ∧ Within s t s.cur.core s.cur.slot ∧ park t true ∧ b'.keys = b.keys ∧
        b'.insts = b.insts)) ∧
  ∀ (s : State) core slot b res r i ps, s.block? core slot = some b → s.shapeOk = true → b.rels[res]? = some r →
    OneKey (some r) → b.insts = [i] → i.fold = false → i.rel = res → i.st = .emit → i.defer = [] → i.todo = some ps → ps ≠ [] →
    b.ovStop = false → b.fibres.length + ps.length ≤ 65536 → ps.length ≤ s.freeKeys core → b.nextFid + ps.length ≤ 2 ^ 32 →
    WindowsFor s b ps.length →
    (∀ x ∈ ps, (∃ f, b.fib? x.1 = some f ∧ f.win = true ∧ f.stuck = false) ∧ ∃ f, b.fib? x.2 = some f ∧ f.win = true ∧ f.stuck = false) →
    ∃ t b', exec (.joinEmit core slot res) s = .next t ∧ t.block? core slot = some b' ∧ b'.nextFid = b.nextFid + ps.length ∧
      ((∀ k < ps.length, ∀ f, b'.fib? (b.nextFid + k) = some f → f.win = true) → Within s t core slot) ∧
      ∀ k x fl fg, ps[k]? = some x → b.fib? x.1 = some fl → b.fib? x.2 = some fg →
        ∃ f, b'.fib? (b.nextFid + k) = some f ∧ f.stage = i.stage ∧ f.pc = i.label.zeroExtend 64 ∧ f.preds = 1 ∧
          (f.win = true ∨ f.regs ≠ [] → f.regs = projected r b.kr.w.toNat fl fg) ∧
          (f.life = .ungrouped ∧ f.win = true ∨ f.life = .unborn ∧ f.win = false) ∧
          ∃ q ∈ b'.keys, q.rel = res ∧ q.fid = b.nextFid + k ∧
            q.key = keyNow (some r) { fl with regs := projected r b.kr.w.toNat fl fg }

/-- R153–R163, R165–R170: membership, joins and folds. -/
def Obligations.Relations : Prop := RelationMembers ∧ RelationArrivals

namespace Sys2Proof.Claims

open Sys2Proof Sys2Proof.Machine

/-- A fibre waits for a part with a window in hand, and its origin has room (R127, R140). -/
def MayReturn (b : Block) (part : Nat) (f : Fibre) : Prop :=
  f ∈ b.fibres ∧ f.life = .returning ∧ f.win = true ∧ f.part = part ∧
  (b.parts.filter fun p => some p.origin == f.origin).length < 8

/-- A stage of a block has a fibre of the partition to group. -/
def MayForm (b : Block) (part g : Nat) : Prop :=
  g < b.stageQ.length ∧ ∃ f ∈ b.fibres, f.life = .ungrouped ∧ f.part = part ∧ f.stage = g

/-- Entries queued for a stage, and how many its queue holds. -/
def fill (b : Block) (g : Nat) : Nat := ((b.stageQ[g]?).getD []).length
def depth (b : Block) (g : Nat) : Nat := 2 ^ ((b.kr.depth[g]?).getD 0).toNat

/-- The next stage's queue is full (R127). -/
def Blocked (b : Block) (g : Nat) : Prop := g + 1 < b.stageQ.length ∧ depth b (g + 1) ≤ fill b (g + 1)

/-- A stage holds fewer records of a partition than its reservation: its parts, and what its regrouping keeps. -/
def Below (b : Block) (part g : Nat) : Prop :=
  (b.parts.filter fun p => p.part == part && p.stage == g).length +
  ((b.regroups.filter fun r => r.part == part && r.stage == g).map (·.records)).sum +
  (b.emits.filter fun e => e.part == part && e.stage == g && e.held).length < (b.stgres[g]?).getD 0

/-- A fibre belongs to the group that forms: the lowest ungrouped one, and of each other column the lowest that stands at
its address (R139). -/
def InGroup (b : Block) (part g : Nat) (x : Fibre) : Prop :=
  let free := fun (f : Fibre) => f ∈ b.fibres ∧ f.life = .ungrouped ∧ f.part = part ∧ f.stage = g
  free x ∧ ∃ a, free a ∧ (∀ f, free f → a.fid ≤ f.fid) ∧
    (x = a ∨ x.col ≠ a.col ∧ x.col < 32 ∧ x.pc = a.pc ∧ ∀ f, free f → f.col = x.col → f.pc = a.pc → x.fid ≤ f.fid)

/-- The pages of a fibre's spill image are mapped for a system access, and none migrates (R260). -/
def SpillMapped (s : State) (b : Block) (f : Fibre) (r : Right) (pa : Nat) : Prop := s.spillXl b f r = .at_ pa

/-- Memory after an image has been written at a place that does not meet the management page. -/
def ImageAt (s t : State) (pa : Nat) (x : List Byte) : Prop :=
  s.mem.wf = true → pa + 1112 ≤ mgBase ∨ mgBase + 4096 ≤ pa → ∀ z, t.mem.get z =
    if pa ≤ z ∧ z < pa + 1112 then (x[z - pa]?).getD 0 else s.mem.get z

/-- Nothing but cores' records of what they assign changes. -/
def Assigns (s t : State) (core : Nat) : Prop :=
  { t with cores := [] } = { s with cores := [] } ∧ ∀ c, { t.core c with assign := [] } = { s.core c with assign := [] } ∧
    (c ≠ core → t.core c = s.core c)

/-- A part's lanes are all parked on the same compaction, by its address and time. -/
def Compacts (b : Block) (q : Part) (pc : W64) (t : Nat) : Prop :=
  q.lanes ≠ [] ∧ ∀ x ∈ q.lanes, ∃ f n, b.fib? x.2 = some f ∧ f.life = .parked ∧ f.wait = some (.compact t n) ∧ f.pc = pc

/-- The entry of a regrouping table that a part finds (R171). -/
def entryOf (b : Block) (p : Part) (pc : W64) : Option Regroup :=
  b.regroups.find? fun r => r.part == p.part && r.stage == p.stage && r.pc == pc

def regroups : Instr → Option (Hd × (Fibre → Nat))
  | .regroup h _ => some (h, fun _ => 0)
  | .regroupKey h b64 a _ => some (h, fun f =>
      if b64 then (f.reg (a.toNat + 1) ++ f.reg a.toNat).toNat else (f.reg a.toNat).toNat)
  | _ => none

end Sys2Proof.Claims

/-- R127, R139, R140: what a free record goes to, the group that a stage forms, the part that a returning fibre forms, and
the turn that 256 missed issue slots give. The model's readings (log 59, DEDUCED): only a stage with an ungrouped fibre takes
a record, and none does while no origin entry is free. -/
def Sys2Proof.Claims.RecordsAndGroups : Prop :=
  (∀ (s : State) core part, s.shapeOk = true → core < 128 → part < 4 → s.assigned core part = none →
    0 < s.freeRecords core part → let on := fun (b : Block) => b ∈ s.blocks ∧ b.core = core
    ∃ t, exec (.recordAssign core part) s = .next t ∧ Assigns s t core ∧
      (∀ b f, on b → MayReturn b part f → ∃ b' f', on b' ∧ MayReturn b' part f' ∧
        t.assigned core part = some (.ret b'.slot f'.fid) ∧ (b'.slot < b.slot ∨ b'.slot = b.slot ∧ f'.fid ≤ f.fid ∨ b'.slot = b.slot ∧ b ≠ b')) ∧
      ((∀ b f, on b → ¬ MayReturn b part f) → s.freeOrigins core part = 0 → t.assigned core part = none) ∧
      ((∀ b f, on b → ¬ MayReturn b part f) → 0 < s.freeOrigins core part →
        (∀ b g, on b → MayForm b part g → Below b part g → ∃ b' g', on b' ∧ MayForm b' part g' ∧ Below b' part g' ∧
          t.assigned core part = some (.stage b'.slot g') ∧ (b'.slot < b.slot ∨ b'.slot = b.slot ∧ (g' ≤ g ∨ b ≠ b'))) ∧
        ((∀ b g, on b → MayForm b part g → ¬ Below b part g) →
          ∀ b g, on b → MayForm b part g → ¬ Blocked b g → ∃ b' g', on b' ∧ MayForm b' part g' ∧ ¬ Blocked b' g' ∧
            t.assigned core part = some (.stage b'.slot g') ∧ fill b g * depth b' g' ≤ fill b' g' * depth b g))) ∧
  (∀ (s : State) core part slot g b f, s.shapeOk = true → core < 128 → part < 4 → s.assigned core part = some (.stage slot g) →
    s.block? core slot = some b → f ∈ b.fibres → f.life = .ungrouped → f.part = part → f.stage = g →
    0 < s.freeOrigins core part →
    ∃ t b' p o, exec (.groupForm core part) s = .next t ∧ t.block? core slot = some b' ∧ t.mem = s.mem ∧
      t.assigned core part = none ∧ b'.parts = b.parts ++ [p] ∧ b'.origins = b.origins ++ [{ id := o, part := part }] ∧
      p.part = part ∧ p.stage = g ∧ p.origin = o ∧ p.serial = false ∧
      (∀ c fid, (c, fid) ∈ p.lanes ↔ ∃ x, InGroup b part g x ∧ x.col = c ∧ x.fid = fid) ∧
      ∀ fid, b'.fib? fid = (b.fib? fid).map fun x =>
        if p.lanes.any (fun y => y.2 == fid) then { x with life := .ready, origin := some o } else x) ∧
  (∀ (s : State) core part slot f o b, s.shapeOk = true → core < 128 → part < 4 → s.block? core slot = some b → f ∈ b.fibres →
    s.assigned core part = some (.ret slot f.fid) → f.life = .returning → f.win = true → f.part = part → f.origin = some o →
    (8 ≤ (b.parts.filter fun p => p.origin == o).length →
      exec (.partReturn core part slot f.fid) s = .next (s.setAssign core part none)) ∧
    ((b.parts.filter fun p => p.origin == o).length < 8 → ∃ t b' p, exec (.partReturn core part slot f.fid) s = .next t ∧ t.block? core slot = some b' ∧ t.mem = s.mem ∧
      t.assigned core part = none ∧ b'.parts = b.parts ++ [p] ∧ p.origin = o ∧ p.part = part ∧ p.stage = f.stage ∧
      (∀ c fid, (c, fid) ∈ p.lanes ↔ ∃ x ∈ b.fibres, x.fid = fid ∧ x.col = c ∧ x.life = .returning ∧ x.win = true ∧ x.part = part ∧
        x.origin = some o ∧ x.pc = f.pc ∧ x.granted = f.granted) ∧
      ∀ fid, b'.fib? fid = (b.fib? fid).map fun x => if p.lanes.any (fun y => y.2 == fid) then { x with life := .ready } else x)) ∧
  (∀ (s : State) core slot b id p, s.block? core slot = some b → b.part? id = some p →
    ∃ t b', exec (.fairnessExpiry core slot id) s = .next t ∧ t.block? core slot = some b' ∧
      b'.part? id = some { p with must := p.must || decide (256 ≤ p.passed) } ∧ b'.fibres = b.fibres ∧ t.mem = s.mem)

/-- R136, R147–R152, R260: an image keeps a fibre's window, predicates, program counter and trap registers; an UNBORN fibre's initial
state goes to its image first, which stands in the core until then (the model's reading: log 58, DEDUCED); the fibre whose image is
written when one finds no window; the fibre that a free window goes to, and what is loaded, a RETURNING one going on after the wait that
its program counter names; and the fault of a stuck block. -/
def Sys2Proof.Claims.WindowsMove : Prop :=
  (∀ (f g : Fibre) part, f.regs.length ≤ 256 → (f.image part).length = 1112 ∧
    let r := g.ofImage f.regs.length (f.image part)
    r.regs = f.regs ∧ r.preds = f.preds ∧ r.pc = f.pc ∧ r.x = f.x ∧ r.nftrap = f.nftrap) ∧
  (∀ (s : State) core slot b f pa, s.block? core slot = some b → b.fib? f.fid = some f → f.life = .unborn → f.regs ≠ [] →
    f.stuck = false → SpillMapped s b f .write pa →
    ∃ t b', exec (.swapOut core slot f.fid) s = .next t ∧ t.block? core slot = some b' ∧ ImageAt s t pa (f.image none) ∧
      ∀ fid, b'.fib? fid = (b.fib? fid).map fun x => if fid = f.fid then { x with regs := [] } else x) ∧
  (∀ (s : State) core slot b f v, s.shapeOk = true → s.block? core slot = some b → f ∈ b.fibres → (f.life = .returning ∨ f.life = .unborn) →
    f.win = false → s.hasRoom b f = false → (f.life = .unborn → f.regs = []) →
    let may := fun (x : Fibre) => x ∈ b.fibres ∧ x.life = .parked ∧ x.win = true ∧ x.sb = [] ∧ x.part = f.part ∧
      (f.life = .returning → x.col = f.col) ∧ ∃ w, x.wait = some w ∧ ((∃ j, w = .rejoin j) ∨ (∃ l n d t a, w = .barrier l n d t a) ∨
        ∃ o r l a e, w = .relation o r l a e)
    may v → (∀ x, may x → x.fid ≤ v.fid) → v.fid < 2 ^ 32 → v.stuck = false → ∀ pa, SpillMapped s b v .write pa →
    ∃ t b', exec (.swapOut core slot f.fid) s = .next t ∧ t.block? core slot = some b' ∧
      ImageAt s t pa (v.image (b.partOf v.fid)) ∧
      (∀ fid, b'.fib? fid = (b.fib? fid).map fun x =>
        if fid = v.fid then { x with life := .swapped, win := false, regs := [] } else x) ∧
      (∀ p ∈ b'.parts, ∀ x ∈ p.lanes, x.2 ≠ v.fid) ∧ b'.keys = b.keys ∧ b'.origins = b.origins) ∧
  (∀ (s : State) core slot b part f, s.shapeOk = true → s.block? core slot = some b →
    let may := fun (x : Fibre) => x ∈ b.fibres ∧ (x.life = .returning ∨ x.life = .unborn) ∧ x.win = false ∧ x.part = part ∧
      x.stuck = false ∧ s.hasRoom b x = true
    may f → (∀ x, may x → (x.life = .returning → f.life = .returning) ∧ (x.life = f.life → f.fid ≤ x.fid)) → f.held = [] → f.regs = [] →
    ∀ pa, SpillMapped s b f .read pa → let at_ := fun (o k : Nat) => leNat (s.mem.read (pa + o) k)
    ∃ t, exec (.windowGrant core part slot) s = .next t ∧ t.mem = s.mem ∧
      (∀ fid, fid ≠ f.fid → t.fibAt core slot fid = s.fibAt core slot fid) ∧
      ∃ g, t.fibAt core slot f.fid = some g ∧ g.win = true ∧
        g.regs.length = b.kr.w.toNat ∧ (∀ i < b.kr.w.toNat, i < 256 → g.reg i = BitVec.ofNat 32 (at_ (4 * i) 4)) ∧
        g.preds = BitVec.ofNat 8 (at_ 1024 8) ∧
        g.pc = BitVec.ofNat 64 (at_ 1032 8) + (if f.life = .returning then f.next - f.pc else 0) ∧
        (f.life = .returning → g.life = .returning ∧ g.col = f.col) ∧
        (f.life = .unborn → g.life = .ungrouped ∧ s.colRoom core part g.col b.kr.w.toNat = true ∧
          ∀ c < g.col, s.colRoom core part c b.kr.w.toNat = false)) ∧
  (∀ (s : State) core slot b f, s.block? core slot = some b → b.ovStop = false → 65536 ≤ b.idle → f ∈ b.fibres →
    (f.life = .returning ∨ f.life = .unborn) → f.win = false → s.hasRoom b f = false → b.victimFor f = none →
    ∃ t b', exec (.stuckBlock core slot) s = .next t ∧ t.block? core slot = some b' ∧ b' = { b with ovStop := true, idle := 0 } ∧
      t.mem = s.mem ∧ let r := mkRec (BitVec.ofNat 16 b.slot) 0x0E false 0 b.core b.ctx 0 0 0 b.slot 0 0
      ∀ sup, (s.ctx b.ctx).creator = some sup → sup < s.ctxs.length →
        (t.ctx sup).faultQ ++ (t.ctx sup).waiting = (s.ctx sup).faultQ ++ (s.ctx sup).waiting ++ [r])

/-- R136–R150: group records, origin groups and windows. -/
def Obligations.GroupsAndWindows : Prop := RecordsAndGroups ∧ WindowsMove

/-- R170: the parts of an origin that wait at one `compact` close it, merge into one part and go on; a part with an
inactive lane passes it. -/
def Sys2Proof.Claims.Compaction : Prop :=
  (∀ h (n : BitVec 8) s b p, Issuing s b p →
    ((s.act h).length ≠ p.lanes.length → ∃ t, exec (.compact h n) s = .next t ∧ GoesOn s t h ∧ Within s t s.cur.core s.cur.slot) ∧
    ((s.act h).length = p.lanes.length → ∃ t, exec (.compact h n) s = .next t ∧ Within s t s.cur.core s.cur.slot ∧
      ∀ fid, t.myFib fid = (s.myFib fid).map fun f => if (s.act h).any (fun x => x.2.fid == fid) then
        { f with life := .parked, wait := some (.compact n.toNat (s.now b.core)), next := s.nextPc } else f)) ∧
  ∀ (s : State) core slot b p pc n nx, s.shapeOk = true → s.block? core slot = some b → b.part? p.id = some p → Compacts b p pc n →
    (∀ q ∈ b.parts, q.origin = p.origin → Compacts b q pc n ∧ q.serial = false) →
    (∀ q ∈ b.parts, q.origin = p.origin → ∀ x ∈ q.lanes, ∀ f, b.fib? x.2 = some f → f.next = nx) →
    (b.parts.map (·.id)).Nodup →
    (∀ q ∈ b.parts, ∀ r ∈ b.parts, q.origin = p.origin → r.origin ≠ p.origin → ∀ x ∈ q.lanes, ∀ y ∈ r.lanes, y.2 ≠ x.2) →
    ∃ t b', exec (.compactClose core slot p.id) s = .next t ∧ t.block? core slot = some b' ∧ t.mem = s.mem ∧
      (∃ q, b'.parts.filter (fun x => x.origin == p.origin) = [q] ∧
        ∀ x, x ∈ q.lanes ↔ ∃ r ∈ b.parts, r.origin = p.origin ∧ x ∈ r.lanes) ∧
      (∀ q ∈ b.parts, q.origin ≠ p.origin → q ∈ b'.parts) ∧
      ∀ fid, b'.fib? fid = (b.fib? fid).map fun f =>
        if b.parts.any (fun q => q.origin == p.origin && q.lanes.any fun x => x.2 == fid) then
          { f with life := .ready, wait := none, pc := nx } else f

/-- R171: `regroup` parks its active lanes in the partition's entry, in order of key and identifier, or passes when the
table is full; a closing entry lets all its fibres go on in groups, or wait for an origin entry. -/
def Sys2Proof.Claims.Regrouping : Prop :=
  (∀ i h key, regroups i = some (h, key) → ∀ s b p, Issuing s b p → s.shapeOk = true → let ls := s.act h
    ((ls = [] ∨ entryOf b p s.cur.pc = none ∧ 8 ≤ ((s.blocks.filter fun q => q.core == b.core).flatMap fun q =>
        q.regroups.filter fun r => r.part == p.part).length) →
      ∃ t, exec i s = .next t ∧ GoesOn s t h ∧ Within s t s.cur.core s.cur.slot) ∧
    (ls ≠ [] → (ls.map (·.1)).Nodup →
      (entryOf b p s.cur.pc ≠ none ∨ ((s.blocks.filter fun q => q.core == b.core).flatMap fun q =>
        q.regroups.filter fun r => r.part == p.part).length < 8) →
      (∃ c < 32, (∀ x ∈ ls, x.2.col ≠ c) ∧ ∀ r, entryOf b p s.cur.pc = some r → ∀ y ∈ r.keyed, ∀ f, b.fib? y.2 = some f → f.col ≠ c) →
      ∃ t b' r, exec i s = .next t ∧ t.me = some b' ∧ Within s t s.cur.core s.cur.slot ∧ entryOf b' p s.cur.pc = some r ∧
        r.keyed = (match entryOf b p s.cur.pc with
          | some q => q.keyed
          | none => []) ++ ls.map (fun x => (key x.2, x.2.fid)) ∧
        ∀ x ∈ ls, (t.myFib x.2.fid).map (fun f => (f.life, f.wait, f.next, f.regs)) =
          some (.parked, some (.regroup r.id), s.nextPc, x.2.regs))) ∧
  ∀ (s : State) core slot b r, s.shapeOk = true → s.block? core slot = some b → b.regroups.find? (fun x => x.id == r.id) = some r →
    (∀ e ∈ b.emits, e.id ≠ r.id) → (∀ q ∈ b.parts, (slot, q.id) ∉ s.cur.ready) → (∀ f ∈ b.fibres, f.col < 32) →
    (∀ f ∈ b.fibres, f.fid < 2 ^ 32) →
    ∃ t b', exec (.regroupClose core slot r.id) s = .next t ∧ t.block? core slot = some b' ∧ t.mem = s.mem ∧
      (∀ q ∈ b'.regroups, q.id ≠ r.id) ∧
      ∀ y ∈ r.keyed, ∀ f, b.fib? y.2 = some f → ∃ g, b'.fib? y.2 = some g ∧ g.regs = f.regs ∧
        ((∃ q ∈ b'.parts, (f.col, y.2) ∈ q.lanes ∧ g.life = .ready ∧ g.wait = none ∧ g.pc = f.next ∧ g.origin = some q.origin) ∨
          ∃ e ∈ b'.emits, y.2 ∈ e.fids)

/-- R158–R160, R171: compaction and regrouping. -/
def Obligations.Rearranging : Prop := Compaction ∧ Regrouping

/-- R109, R126, R199: an entry of a queue register bound to a stage enters the stage's queue while it has room; a core with
nothing to issue becalms, and its first event wakes it. -/
def Obligations.StagesAndCalm : Prop :=
  (∀ (s : State) core slot b stage n e r q, s.block? core slot = some b → b.stageGiver stage = some n → b.q[n]? = some q →
    q.push = e :: r → stage < b.stageQ.length → fill b stage < depth b stage → s.drains = [] →
    ∃ t b', exec (.stageQueueTake core slot stage) s = .next t ∧ t.block? core slot = some b' ∧ t.mem = s.mem ∧
      b'.stageQ = b.stageQ.set stage ((b.stageQ[stage]?).getD [] ++ [e.v]) ∧
      b'.q = b.q.set n { q with push := r, taken := q.taken + 1 } ∧ b'.fibres = b.fibres ∧ b'.cox = b.cox) ∧
  (∀ (s : State) core slot b stage sq, s.block? core slot = some b → b.stageQ[stage]? = some sq → depth b stage ≤ sq.length →
    exec (.stageQueueTake core slot stage) s = .next s) ∧
  (∀ (s : State) core, core < s.cores.length → ∃ t, exec (.becalm core) s = .next t ∧ { t with cores := [] } = { s with cores := [] } ∧
    (∀ c, c ≠ core → t.core c = s.core c) ∧ let k := s.core core
    t.core core = if k.becalmed = false ∧ k.wake ≠ 0 ∧ 16 ≤ k.idle then { k with becalmed := true, wakeReq := none } else k) ∧
  ∀ (s : State) core r i n, core < s.cores.length → (s.core core).becalmed = true → (s.core core).wakeReq = some (r, i, n) →
    r < 256 → i < 65536 →
    ∃ t, exec (.wake core) s = .next t ∧ { t with cores := [] } = { s with cores := [] } ∧ (∀ c, c ≠ core → t.core c = s.core c) ∧
      t.core core = { s.core core with becalmed := false, wakeReq := none, idle := 0, wakeIn := 64 - (s.now core - n)
                                       wake := BitVec.ofNat 32 (i * 65536 + r) }

/-! ### Queues (R17, R18, R194–R209) -/

namespace Sys2Proof.Claims

open Sys2Proof Sys2Proof.Machine

/-- All but the inside of a block, its queues and the queues of the device among what is left out. -/
def besideQueues (s : State) (core slot : Nat) : State :=
  let q := outside s core slot
  { q with
    hrq := []
    hostHolder := none
    drains := []
    cmds := []
    cores := q.cores.map fun c => { c with coll := c.coll.map fun e => { e with closed := false } }
    blocks := q.blocks.map fun b => if b.at core slot then { b with q := [], dq := [] } else b }

/-- A queue instruction: its parties go on with their writes, and nothing happens outside the block and the queues. -/
structure Gives (s t : State) (h : Hd) (w : Nat × Who × View → List Wr) : Prop where
  threads : Advances s t h (fun x f => f.wrs (w (x.1, .fib x.2.fid, .fib x.2)))
    fun c => (w (0, .cox, .cox c)).foldl Cox.wr c
  rest : besideQueues t s.cur.core s.cur.slot = besideQueues s s.cur.core s.cur.slot

/-- The host receive queue, its holder, the waiting drains and the commands stay. -/
def QueuesStay (s t : State) : Prop := t.hrq = s.hrq ∧ t.hostHolder = s.hostHolder ∧ t.drains = s.drains ∧ t.cmds = s.cmds

/-- A queue register of a block. -/
def qAt (b : Block) (n : Nat) : QReg := (b.q[n]?).getD {}

/-- How many active lanes stand below a lane. -/
def rank (s : State) (h : Hd) (l : Nat) : Nat := ((s.act h).filter fun y => y.1 < l).length

/-- The lanes of a part stand in rising order (R139). -/
def InOrder (s : State) (h : Hd) : Prop := ((s.act h).map (·.1)).Pairwise (· < ·)

/-- A pushed value: an S register, a pair, or a V register zero-extended. -/
def pushed (v : View) (b64 : Bool) (a : RegNo) : W64 := match v with
  | .cox c => c.reg a.toNat
  | .fib f => if b64 then f.reg (a.toNat + 1) ++ f.reg a.toNat else (f.reg a.toNat).zeroExtend 64

/-- The writes of a popped entry. -/
def popped (v : View) (b64 : Bool) (d : RegNo) (e : W64) : List Wr := match v with
  | .cox _ => [.s d.toNat e]
  | .fib _ => .v d.toNat (e.extractLsb' 0 32) :: if b64 then [.v (d.toNat + 1) (e.extractLsb' 32 32)] else []

/-- The sides of a binding that Table 9-1 gives; the bank's port 1 has no push side (R366). -/
def hasPush : Option Binding → Prop
  | some (.engine k _ p) => ¬ (k = .bank ∧ p = 1)
  | some (.stage _) => True
  | _ => False
def hasPop : Option Binding → Prop
  | some (.engine _ _ _) => True
  | _ => False

/-- The engines by number (Table 9-1). -/
def engines : List EngKind := [.copy, .collector, .bank, .eddy, .coll, .quant]

/-- What `qbind` answers for an unbound register (R206), and what it binds. -/
inductive Binds (s : State) (b : Block) (sel : Nat) : Nat → Nat → Option Binding → Prop
  | away {k e} : engines[k]? = some e → s.engUp e b.core = false → Binds s b sel k 2 none
  | absent {k e} : engines[k]? = some e → s.engUp e b.core = true → s.portOk b e (sel % 16) = false → Binds s b sel k 3 none
  | engine {k e} : engines[k]? = some e → s.engUp e b.core = true → s.portOk b e (sel % 16) = true →
      Binds s b sel k 0 (some (.engine e (engUnit e b.core) (sel % 16)))
  | noStage : Nat.max b.kr.nstage.toNat 1 ≤ sel % 8 → Binds s b sel 6 2 none
  | stage : sel % 8 < Nat.max b.kr.nstage.toNat 1 → Binds s b sel 6 0 (some (.stage (sel % 8)))
  | taken : (s.ctx b.ctx).priv = false ∨ s.hostHolder ≠ none → Binds s b sel 7 4 none
  | host : (s.ctx b.ctx).priv = true → s.hostHolder = none → Binds s b sel 7 0 (some .host)

/-- The order in which a port turns to registers: rising from the one after the last, then from the start (R17). -/
def turnOf (s : State) (k : EngKind) (unit port : Nat) (b : Block) (n : Nat) : Nat :=
  let i := (b.core * 16 + b.slot) * 16 + n
  if s.portLast k unit port < i then i else i + 65536

end Sys2Proof.Claims

/-- R194, R195, R203, R206: what `qbind` and `qunbind` answer and do. -/
def Sys2Proof.Claims.QueueBinding : Prop :=
  (∀ h d a (qb : BitVec 4) (k : BitVec 3) s b x rest, Runs s b → s.shapeOk = true → s.views h = x :: rest →
    let sel := (x.2.2.r32 a).toNat
    let same := fun (t : State) (st : Nat) => Gives s t h (fun y => [y.2.2.w32 d (BitVec.ofNat 32 st)]) ∧ t.drains = s.drains ∧
      t.cmds = s.cmds ∧ t.hrq = s.hrq
    ((qAt b qb.toNat).bind ≠ none → ∃ t, exec (.qbind h d a qb k) s = .next t ∧ same t 1 ∧ t.hostHolder = s.hostHolder ∧
      ∃ b', t.me = some b' ∧ b'.q = b.q ∧ b'.dq = b.dq) ∧
    ((qAt b qb.toNat).bind = none → ∀ st kd, Binds s b sel k.toNat st kd → ∃ t b', exec (.qbind h d a qb k) s = .next t ∧ same t st ∧
      t.me = some b' ∧ b'.dq = b.dq ∧
      b'.q = (if kd = none then b.q else b.q.set qb.toNat { qAt b qb.toNat with bind := kd }) ∧
      t.hostHolder = if kd = some .host then some (b.core, b.slot, qb.toNat) else s.hostHolder)) ∧
  ∀ h d (qb : BitVec 4) s b, Runs s b → s.shapeOk = true → s.views h ≠ [] → let q := qAt b qb.toNat
    let idle := q.push = [] ∧ q.pop = [] ∧ ∀ c ∈ s.cmds, ¬ (c.core = b.core ∧ c.slot = b.slot ∧ c.q = qb.toNat)
    ∃ t b' st, exec (.qunbind h d qb) s = .next t ∧ t.me = some b' ∧ b'.dq = b.dq ∧ t.drains = s.drains ∧ t.cmds = s.cmds ∧
      t.hrq = s.hrq ∧ Gives s t h (fun y => [y.2.2.w32 d (BitVec.ofNat 32 st)]) ∧
      (q.bind = none → st = 0 ∧ b'.q = b.q ∧ t.hostHolder = s.hostHolder) ∧
      (q.bind ≠ none → ¬ idle → st = 5 ∧ b'.q = b.q ∧ t.hostHolder = s.hostHolder) ∧
      (q.bind ≠ none → idle → st = 0 ∧ b'.q = b.q.set qb.toNat {} ∧
        t.hostHolder = if q.bind = some .host then none else s.hostHolder)

/-- R18, R196, R201, R207–R209: pushes and pops of queue registers, of the decision queue and of the host receive queue move
their entries in order when there is room or entries, and wait otherwise. -/
def Sys2Proof.Claims.QueueEntries : Prop :=
  (∀ h b64 (qd : BitVec 4) a s b, Runs s b → s.shapeOk = true → s.views h ≠ [] → let q := qAt b qd.toNat
    hasPush q.bind →
    (q.push.length + (s.views h).length ≤ 64 → ((∃ g, q.bind = some (.stage g)) → ∀ x ∈ s.views h,
        noReads s b x.2.1 ∧ performedAt s b x.2.1 .core) →
      ∃ t b', exec (.qpush h b64 qd a) s = .next t ∧ t.me = some b' ∧ b'.dq = b.dq ∧ Gives s t h (fun _ => []) ∧ QueuesStay s t ∧
        b'.q = b.q.set qd.toNat { q with push := q.push ++ (s.views h).map (fun x => { v := pushed x.2.2 b64 a, who := x.2.1, iss := s.nextId })
                                         pushed := q.pushed + (s.views h).length }) ∧
    (64 < q.push.length + (s.views h).length → exec (.qpush h b64 qd a) s = .next s)) ∧
  (∀ h b64 bc d (qa : BitVec 4) s b, Runs s b → s.shapeOk = true → s.views h ≠ [] → InOrder s h → let q := qAt b qa.toNat
    hasPop q.bind → let n := if bc then 1 else (s.views h).length
    (n ≤ q.pop.length → ∃ t b', exec (.qpop h b64 bc d qa) s = .next t ∧ t.me = some b' ∧ b'.dq = b.dq ∧ QueuesStay s t ∧
      b'.q = b.q.set qa.toNat { q with pop := q.pop.drop n } ∧
      Gives s t h fun x => popped x.2.2 b64 d ((q.pop[if bc then 0 else rank s h x.1]?).getD 0)) ∧
    (q.pop.length < n → exec (.qpop h b64 bc d qa) s = .next s)) ∧
  (∀ h a s b, Runs s b → s.cur.th = .cox →
    (b.dq.length < 64 → noReads s b .cox → performedAt s b .cox .core → ∃ t b', exec (.dqPush h a) s = .next t ∧ t.me = some b' ∧
      b'.q = b.q ∧ b'.dq = b.dq ++ [b.cox.reg a.toNat] ∧ Gives s t h (fun _ => []) ∧ QueuesStay s t) ∧
    (64 ≤ b.dq.length → exec (.dqPush h a) s = .next s)) ∧
  (∀ i h b64 d each, i = .dqPop h b64 d ∧ each = false ∨ i = .dqPopf h b64 d ∧ each = true → ∀ s b, Runs s b → s.views h ≠ [] →
    InOrder s h → let n := if each then (s.views h).length else 1
    (n ≤ b.dq.length → ∃ t b', exec i s = .next t ∧ t.me = some b' ∧ b'.q = b.q ∧ b'.dq = b.dq.drop n ∧ QueuesStay s t ∧
      Gives s t h fun x => popped x.2.2 b64 d ((b.dq[if each then rank s h x.1 else 0]?).getD 0)) ∧
    (b.dq.length < n → exec i s = .next s)) ∧
  ∀ h try_ d (qa : BitVec 4) s b, CoxIssuing s b → Runs s b → (qAt b qa.toNat).bind = some .host →
    (∀ e r, s.hrq = e :: r → ∃ t, exec (.hrecv h try_ d qa) s = .next t ∧ t.hrq = r ∧ t.mem = s.mem ∧
      (t.core b.core).l1 = [] ∧
      t.myCox.map Cox.bare = s.myCox.map (fun c => { (c.setReg d.toNat e).bare with pc := s.nextPc })) ∧
    (s.hrq = [] → try_ = true → ∃ t, exec (.hrecv h try_ d qa) s = .next t ∧ t.mem = s.mem ∧
      Gives s t h (fun _ => [.s d.toNat 0x8000000000000000]) ∧ QueuesStay s t) ∧
    (s.hrq = [] → try_ = false → exec (.hrecv h try_ d qa) s = .next s)

/-- R194–R209: bindings and entries of queue registers. -/
def Obligations.Queues : Prop := QueueBinding ∧ QueueEntries

/-- The D of a core's bank (R360). -/
def Sys2Proof.Claims.dimOf (s : State) (core : Nat) : Nat := ((s.core core).bank.cfg.extractLsb' 0 7).toNat

/-- Of the registers that offer a port a command, or the header of one, this one is next in turn (R17, R367). -/
def Sys2Proof.Claims.InTurn (s : State) (k : EngKind) (unit port : Nat) (b : Block) (n : Nat) : Prop :=
  ∀ c j, c ∈ s.blocks → j < 16 → ((s.offer k unit port c j).isSome = true ∨ s.offersHead k unit port c j = true) →
    turnOf s k unit port b n ≤ turnOf s k unit port c j

/-- R17, R194, R200, R207, R367: an engine port takes the command of the next register in turn; where the bank's port finds a header
whose further entries have not come, it takes D from the bank then (the model's reading: log 66, DEDUCED); a result enters the pop side when
it has room; and `qdrain` counts the pop side once all that was pushed has been taken and finished. -/
def Obligations.PortsTakeCommands : Prop :=
  (∀ (s : State) k unit port b n m, s.shapeOk = true → s.drains = [] → s.block? b.core b.slot = some b → n < 16 →
    s.offer k unit port b n = some m →
    InTurn s k unit port b n → let q := qAt b n
    ∃ t b' c, exec (.enginePortTake k unit port) s = .next t ∧ t.block? b.core b.slot = some b' ∧ t.mem = s.mem ∧
      t.cmds = s.cmds ++ [c] ∧ c.k = k ∧ c.unit = unit ∧ c.port = port ∧ c.core = b.core ∧ c.slot = b.slot ∧ c.q = n ∧
      c.ents = q.push.take m ∧ c.result = none ∧ c.busy = false ∧ c.dim = q.lead.getD (dimOf s b.core) ∧
      b'.q = b.q.set n { q with lead := none, push := q.push.drop m, taken := q.taken + m } ∧ b'.fibres = b.fibres ∧ b'.cox = b.cox ∧
      t.portLast k unit port = (b.core * 16 + b.slot) * 16 + n) ∧
  (∀ (s : State) k unit port b n, s.block? b.core b.slot = some b → n < 16 → s.offersHead k unit port b n = true → InTurn s k unit port b n →
    ∃ t b', exec (.enginePortTake k unit port) s = .next t ∧ t.block? b.core b.slot = some b' ∧ t.mem = s.mem ∧ t.cmds = s.cmds ∧
      b' = { b with q := b.q.set n { qAt b n with lead := some (dimOf s b.core) } }) ∧
  (∀ (s : State) k unit port c r b, s.drains = [] → c ∈ s.cmds → c.k = k → c.unit = unit → c.port = port → c.result = some r →
    s.block? c.core c.slot = some b → c.q < b.q.length → (qAt b c.q).pop.length + r.length ≤ 64 →
    (∀ x ∈ s.cmds, x ≠ c → ¬ (x.k = k ∧ x.unit = unit ∧ x.port = port) ∧ x.seq ≠ c.seq ∧
      ¬ (x.core = c.core ∧ x.slot = c.slot ∧ x.q = c.q ∧ x.seq < c.seq)) →
    ∃ t b', exec (.resultEnter k unit port) s = .next t ∧ t.block? c.core c.slot = some b' ∧ t.mem = s.mem ∧
      t.cmds = s.cmds.filter (· ≠ c) ∧ b'.fibres = b.fibres ∧ b'.cox = b.cox ∧
      b'.q = b.q.set c.q { qAt b c.q with pop := (qAt b c.q).pop ++ r }) ∧
  ∀ h d (qa : BitVec 4) s b, Runs s b → s.drains = [] → s.views h ≠ [] → let q := qAt b qa.toNat
    q.bind ≠ none → q.bind ≠ some .host →
    let done := q.pushed ≤ q.taken ∧ ∀ c ∈ s.cmds, c.core = b.core → c.slot = b.slot → c.q = qa.toNat → q.pushed ≤ c.first
    (done → q.pop.length ≤ 64 → ∃ t, exec (.qdrain h d qa) s = .next t ∧ t.drains = [] ∧ t.mem = s.mem ∧ t.cmds = s.cmds ∧
      Gives s t h fun x => [x.2.2.w32 d (BitVec.ofNat 32 q.pop.length)]) ∧
    (¬ done → ∃ t x, exec (.qdrain h d qa) s = .next t ∧ t.drains = [x] ∧ t.mem = s.mem ∧ t.cmds = s.cmds ∧ Gives s t h (fun _ => []) ∧
      x.core = b.core ∧ x.slot = b.slot ∧ x.q = qa.toNat ∧ x.target = q.pushed ∧
      x.regs = (s.views h).map fun y => (y.2.1, d.toNat))

/-! ### The matrix engine and the quantiser (R74, R333–R356) -/

namespace Sys2Proof.Claims

open Sys2Proof Sys2Proof.Machine

/-- All but the arrays, the store paths, and the copies of memory and of translations that a core and the dies keep. -/
def besideArrays (s : State) (core slot : Nat) : State :=
  let q := s.still core slot
  { q with
    cdies := []
    cores := q.cores.map fun c => { c with tlb := [], l1 := [], scale := [], arr := {}, paths := [] } }

/-- A form of the matrix engine: its parties go on with their writes, and all but the arrays stays. -/
structure OnArray (s t : State) (h : Hd) (w : Nat × Who × View → List Wr) : Prop where
  threads : Advances s t h (fun x f => f.wrs (w (x.1, .fib x.2.fid, .fib x.2)))
    fun c => (w (0, .cox, .cox c)).foldl Cox.wr c
  rest : besideArrays t s.cur.core s.cur.slot = besideArrays s s.cur.core s.cur.slot

/-- Who holds an array, and who waits for it. -/
def lessTiles (a : Arr) : Arr := { a with z := [] }

/-- The columns of a lease (R333). -/
def columns (pair : Bool) : Nat := if pair then 96 else 48

/-- One tile of a lease gets new elements; the other tiles, the leases and the other arrays stay. -/
structure TileIs (s t : State) (core : Nat) (pair : Bool) (z : Nat) (f : Nat → Nat → W32) : Prop where
  tiles : ∀ y r c, r < 128 → c < columns pair → t.zGet core y r c = if y = z then f r c else s.zGet core y r c
  held : ∀ c, lessTiles (t.arr c) = lessTiles (s.arr c)
  others : ∀ c, c ≠ core → (pair = true → c ≠ core + 1) → t.arr c = s.arr c

/-- The arrays and the store paths stay. -/
def ArraysStay (s t : State) : Prop := ∀ c, t.arr c = s.arr c
def PathsStay (s t : State) : Prop := ∀ c, (t.core c).paths = (s.core c).paths

/-- The block runs, one of its parties is active, its lease is of a kind, and its arrays are on cores that exist. -/
structure Leased (s : State) (h : Hd) (b : Block) (pair : Bool) (x : Nat × Who × View) : Prop where
  runs : Runs s b
  first : (s.views h).head? = some x
  open_ : s.heldHere .mma = false
  lease : s.lease b = some pair
  there : pair = true → b.core + 1 < s.cores.length

/-- One issue's entry of a store path holds these writes. -/
def Stores (s t : State) (b : Block) (w : Who) (ws : List (Who × Loc × List Byte)) : Prop :=
  (∀ c, c ≠ b.core → (t.core c).paths = (s.core c).paths) ∧
  (mkReqs b ws [] = [] → (t.core b.core).paths = (s.core b.core).paths) ∧
  (mkReqs b ws [] ≠ [] → ∃ e, (t.core b.core).paths = (s.core b.core).paths ++ [e] ∧ e.issue = s.nextId ∧ e.slot = b.slot ∧
    e.parties = [w] ∧ e.rel = none ∧ e.coll = false ∧ e.reqs = mkReqs b ws [])

/-- The word at a byte offset of a string of bytes, little-endian (R3). -/
def wordOf (x : List Byte) (i : Nat) : W32 := BitVec.ofNat 32 (leNat ((x.drop (4 * i)).take 4))

/-- The rows of a tile in memory: row r begins r pitches after the pointer (R352). -/
def rowsAt (s : State) (b : Block) (p : W64) (pitch n : Nat) (write : Bool) : List (Nat × Nat × Chk) :=
  (List.range 128).flatMap fun r =>
    (s.rowSpan b (p.extractLsb' 60 4).toNat ((p.extractLsb' 0 56).toNat + r * pitch) (4 * n) write).map fun x => (r * 4 * n + x.1, x.2)

/-- A tile pointer is well formed: SPACE 0 or 1, and it and its pitch are multiples of 16. -/
def tilePtr (p : W64) (pitch : W32) : Prop :=
  (p.extractLsb' 60 4).toNat < 2 ∧ p.extractLsb' 56 4 = 0 ∧ (p.extractLsb' 0 56).toNat % 16 = 0 ∧ pitch.toNat % 16 = 0

/-- No earlier live request waits for an array that is free (R334, R335). -/
def Free (s : State) (c : Nat) : Prop :=
  (s.arr c).st = .free ∧ ∀ q ∈ (s.arr c).queue, q.granted = false → s.reqLive q = false

/-- A request is the oldest live one that waits for an array. -/
def Oldest (s : State) (c : Nat) (r : LeaseReq) : Prop := (s.arr c).st = .free ∧
  ∃ x y, (s.arr c).queue = x ++ r :: y ∧ ∀ q ∈ x, q.granted = true ∨ s.reqLive q = false

/-- The block of 32 columns of a tile row as the quantiser takes it; columns beyond the lease count as +0 (R355). -/
def tileBlock (s : State) (core z n r b : Nat) : List Nat := (List.range 32).map fun i =>
  if 32 * b + i < n then (s.zGet core z r (32 * b + i)).toNat else 0

end Sys2Proof.Claims

/-- R74, R337–R352: `mma` from registers and from memory, `zzero`, `zld`, `zst` and `zrd`, each with its frame: the tile
elements, bytes and registers that each gives. -/
def Obligations.MatrixTiles : Prop :=
  (∀ h o s b x, Leased s h b o.pair x → o.th = false → ∃ t, exec (.mma h o) s = .next t ∧ OnArray s t h (fun _ => []) ∧ PathsStay s t ∧
    TileIs s t b.core o.pair o.z.toNat fun r n =>
      mmaElem (if o.init then 0 else s.zGet b.core o.z.toNat r n) (FVal.ofInt 1) (aElem s.fragment o r)
        (fun i => if o.nx.toNat ≤ n then .fin false 0 0 else bReg s.fragment o i n) (32 * o.kb.toNat)) ∧
  (∀ h o s b w y sc seen, Leased s h b o.pair w → o.th = true → let e := handleOf (w.2.2.r64 o.b)
    let len := e.block * o.kb.toNat
    let row := fun (n : Nat) => e.base + 64 * e.pitch * n
    let cs := if o.kb = 0 then [] else
      (List.range o.nx.toNat).flatMap fun n => (s.rowSpan b e.sp (row n) len false).map fun x => (n * len + x.1, x.2)
    e.ok o.afmt = true → s.mayReadNow b w.2.1 = true → s.getSpan b w.2.1 cs = .ok y →
    s.spanHeld b (cs ++ seen.flatMap fun x => x.1) = false → s.getScales b w.2.1 (if o.sb then (List.range o.nx.toNat).flatMap fun n => (List.range o.kb.toNat).map fun i => row n + e.block * i
      else []) = (.ok sc, seen) →
    ∃ t, exec (.mma h o) s = .next t ∧ OnArray s t h (fun _ => []) ∧ PathsStay s t ∧ TileIs s t b.core o.pair o.z.toNat fun r n =>
      mmaElem (if o.init then 0 else s.zGet b.core o.z.toNat r n)
        (if e.fmt = 3 ∨ e.fmt = 4 then Fmt.f32.decode o.mult.toNat else FVal.ofInt 1) (aElem s.fragment o r)
        (fun i => if o.nx.toNat ≤ n then .fin false 0 0 else
          e.elem ((y.drop (n * len + e.block * (i / 32))).take e.block)
            (if o.sb then ((sc[n * o.kb.toNat + i / 32]?).getD 0).toNat else if e.fmt = 3 ∨ e.fmt = 4 then 0x38 else 127) (i % 32))
        (32 * o.kb.toNat)) ∧
  (∀ h (z : BitVec 3) s b pair x, Leased s h b pair x → ∃ t, exec (.zzero h z) s = .next t ∧ OnArray s t h (fun _ => []) ∧
    PathsStay s t ∧ TileIs s t b.core pair z.toNat fun _ _ => 0) ∧
  (∀ h (z : BitVec 3) a c s b pair x y, Leased s h b pair x → let n := columns pair
    let cs := rowsAt s b (x.2.2.r64 a) (x.2.2.r32 c).toNat n false
    tilePtr (x.2.2.r64 a) (x.2.2.r32 c) → s.mayReadNow b x.2.1 = true → s.getSpan b x.2.1 cs = .ok y → s.spanHeld b cs = false →
    ∃ t, exec (.zld h z a c) s = .next t ∧ OnArray s t h (fun _ => []) ∧ PathsStay s t ∧
      TileIs s t b.core pair z.toNat fun r j => wordOf y (r * n + j)) ∧
  (∀ h a (z : BitVec 3) c s b pair x, Leased s h b pair x → let n := columns pair
    let cs := rowsAt s b (x.2.2.r64 a) (x.2.2.r32 c).toNat n true
    tilePtr (x.2.2.r64 a) (x.2.2.r32 c) → (∀ p ∈ cs, ∃ l va, p.2.2 = .ok l va) →
    ∃ t, exec (.zst h a z c) s = .next t ∧ OnArray s t h (fun _ => []) ∧ ArraysStay s t ∧
      Stores s t b x.2.1 (spanWrites x.2.1 cs ((List.range (128 * n)).flatMap fun i =>
        leBytes 4 (s.zGet b.core z.toNat (i / n) (i % n)).toNat))) ∧
  ∀ h d (z : BitVec 3) (j : BitVec 8) s b p pair x, Issuing s b p → Leased s h b pair x → 4 * j.toNat < columns pair →
    ∃ t, exec (.zrd h d z j) s = .next t ∧ ArraysStay s t ∧ PathsStay s t ∧ Writes s t h fun _ y => (List.range 16).map fun i =>
      .v (d.toNat + i) (s.zGet b.core z.toNat (4 * y.1 + i / 4) (4 * j.toNat + i % 4))

/-- R333–R335, R353: what `plse` and `plrl` answer, and the grant of a waiting request: a lease begins with zero tiles. -/
def Obligations.Leases : Prop :=
  (∀ h pair try_ d s b x rest, Runs s b → s.views h = x :: rest →
    let r : LeaseReq := { core := b.core, slot := b.slot, who := x.2.1, pair := pair }
    let tells := fun (t : State) (st : Nat) => exec (.plse h pair try_ d) s = .next t ∧ PathsStay s t ∧
      OnArray s t h fun y => [y.2.2.w32 d (BitVec.ofNat 32 st)]
    let free := Free s b.core ∧ (pair = true → Free s (b.core + 1))
    (s.lease b ≠ none → ∃ t, tells t (if { r with granted := true } ∈ (s.arr b.core).queue then 0 else 1) ∧ t.lease b = s.lease b ∧
      ∀ c, (t.arr c).z = (s.arr c).z) ∧
    (s.lease b = none → pair = true → b.core % 2 = 1 → ∃ t, tells t 3 ∧ ArraysStay s t) ∧
    (s.lease b = none → (pair = true → b.core % 2 = 0) → r ∉ (s.arr b.core).queue → (pair = true → r ∉ (s.arr (b.core + 1)).queue) →
      (free → ∃ t, tells t 0 ∧ t.lease b = some pair ∧ ∀ z i j, j < columns pair → t.zGet b.core z i j = 0) ∧
      (¬ free → try_ = true → ∃ t, tells t 2 ∧ ArraysStay s t) ∧
      (¬ free → try_ = false → ∃ t, exec (.plse h pair try_ d) s = .next t ∧ t.blocks = s.blocks ∧ t.mem = s.mem ∧
        (t.arr b.core).queue = (s.arr b.core).queue ++ [r]))) ∧
  (∀ h d s b, Runs s b → s.views h ≠ [] →
    let tells := fun (t : State) (st : Nat) => exec (.plrl h d) s = .next t ∧ PathsStay s t ∧
      OnArray s t h fun y => [y.2.2.w32 d (BitVec.ofNat 32 st)]
    (s.lease b = none → ∃ t, tells t 1 ∧ ArraysStay s t) ∧
    ∀ pair, s.lease b = some pair → ∃ t, tells t 0 ∧ t.lease b = none ∧ (t.arr b.core).st = .free ∧ (t.arr b.core).z = [] ∧
      (t.arr b.core).queue = (s.arr b.core).queue ∧ (∀ c, c ≠ b.core → (pair = true → c ≠ b.core + 1) → t.arr c = s.arr c)) ∧
  ∀ (s : State) core r b, core < s.cores.length → r.core = core → (r.pair = true → core + 1 < s.cores.length) → r.granted = false →
    s.reqLive r = true → Oldest s core r → (r.pair = true → Oldest s (core + 1) r) → s.block? core r.slot = some b → s.lease b = none →
    ∃ t, exec (.leaseGrant core) s = .next t ∧ { t with cores := [] } = { s with cores := [] } ∧ t.lease b = some r.pair ∧
      (∀ z i j, j < columns r.pair → t.zGet core z i j = 0) ∧ (∀ c, { t.core c with arr := {} } = { s.core c with arr := {} }) ∧
      ∀ c, c ≠ core → (r.pair = true → c ≠ core + 1) → t.arr c = s.arr c

/-- R345, R354–R356 (that a space not accepted goes before nonzero bits 59:56 is the model's reading: log 77, DEDUCED): the scale cache is emptied or filled and nothing else changes; `zq` puts a tile's elements and scales
into the store path; a quantiser command is refused, does its next row, or ends with its status word. -/
def Obligations.Quantising : Prop :=
  (∀ h s b, Runs s b → ∃ t, exec (.scinv h) s = .next t ∧ OnArray s t h (fun _ => []) ∧ ArraysStay s t ∧ PathsStay s t ∧
    (t.core b.core).scale = []) ∧
  (∀ h a (n : BitVec 8) s b, Runs s b → s.views h ≠ [] → ∃ t, exec (.scpf h a n) s = .next t ∧ OnArray s t h (fun _ => []) ∧
    ArraysStay s t ∧ PathsStay s t ∧ (t.core b.core).l1 = (s.core b.core).l1 ∧
    ∀ e ∈ (t.core b.core).scale, e ∈ (s.core b.core).scale ∨
      ∃ x ∈ s.views h, [e.2] = s.readLoc b.core b.slot (s.ctx b.ctx).priv x.2.1 s.nextId (.glob e.1) 1 false) ∧
  (∀ h e5m2 a (z : BitVec 3) c s b pair x, Leased s h b pair x → let n := columns pair
    let nb := if pair then 3 else 2
    let pe := x.2.2.r64 a
    let ps := x.2.2.r64 c
    let ce := s.chkSpan b pe (128 * n) true
    let cs := s.chkSpan b ps (128 * nb) true
    ptrFlt b pe 16 (128 * n) true = none → ptrFlt b ps 1 (128 * nb) true = none →
    (∀ p ∈ ce ++ cs, ∃ l va, p.2.2 = .ok l va) →
    let q := fun (r k : Nat) => mxQuant (if e5m2 then Fmt.e5m2 else Fmt.e4m3fmt) (tileBlock s b.core z.toNat n r k)
    ∃ t, exec (.zq h e5m2 a z c) s = .next t ∧ OnArray s t h (fun _ => []) ∧ ArraysStay s t ∧
      Stores s t b x.2.1
        (spanWrites x.2.1 ce ((List.range 128).flatMap fun r => (List.range n).map fun j => BitVec.ofNat 8 ((q r (j / 32)).2.getD (j % 32) 0)) ++
         spanWrites x.2.1 cs ((List.range 128).flatMap fun r => (List.range nb).map fun k => BitVec.ofNat 8 (q r k).1))) ∧
  ∀ (s : State) core c b, (s.cmds.find? fun y => y.k == .quant && y.unit == core && y.result.isNone) = some c →
    s.block? core c.slot = some b → ∀ p0 p1 p2 f, c.ents.map (·.v) = [p0, p1, p2, f] →
    let nb := (f.extractLsb' 16 7).toNat
    let rows := (f.extractLsb' 0 16).toNat
    let es := if f.getLsbD 23 then 2 else 4
    let formed := f.extractLsb' 37 27 = 0 ∧ f.extractLsb' 25 7 = 0 ∧ (f.extractLsb' 32 3).toNat ≤ 4 ∧ nb ≠ 0
    let why := fun (p : W64) => if 2 ≤ (p.extractLsb' 60 4).toNat then some 5 else if p.extractLsb' 56 4 ≠ 0 then some 0 else none
    let good := formed ∧ ∀ p ∈ [p0, p1, p2], why p = none
    let from_ := (p0.extractLsb' 0 56).toNat % es = 0
    let to_ := (p1.extractLsb' 0 56).toNat % 16 = 0
    let aligned := from_ ∧ to_
    let ends := fun (v : W64) => ∃ t, exec (.quantiserCommand core) s = .next t ∧ t.mem = s.mem ∧
      t.cmds = s.cmds.map fun y => if y.seq = c.seq then { y with result := some [v] } else y
    ((f.extractLsb' 37 27 ≠ 0 ∨ f.extractLsb' 25 7 ≠ 0 ∨ nb = 0) → ends 0x07000000) ∧
    (formed → ∀ r, why p0 = some r → ends (BitVec.ofNat 64 (0x07000000 + r * 2 ^ 20))) ∧
    (formed → why p0 = none → ∀ r, (why p1 = some r ∨ why p1 = none ∧ why p2 = some r) →
      ends (BitVec.ofNat 64 (0x07080000 + r * 2 ^ 20))) ∧
    (good → ¬ from_ → ends 0x07200000) ∧
    (good → from_ → ¬ to_ → ends 0x07280000) ∧
    (good → aligned → c.rows = rows → s.cmdClear core c.seq = true → ends (BitVec.ofNat 64 rows)) ∧
    (good → aligned → c.rows < rows → (f.getLsbD 35 = false ∨ c.rows ≠ 0 ∨ c.busy = true) → ∀ y,
      let w := cmdWho c.seq
      let row := fun (p : W64) (len : Nat) (write : Bool) =>
        s.rowSpan b (p.extractLsb' 60 4).toNat ((p.extractLsb' 0 56).toNat + c.rows * len) len write
      s.getSpan b w (row p0 (nb * 32 * es) false) = .ok y → s.spanHeld b (row p0 (nb * 32 * es) false) = false →
      (∀ x ∈ row p1 (nb * 32) true ++ row p2 nb true, ∃ l va, x.2.2 = .ok l va) →
      let val := fun (i : Nat) => if f.getLsbD 23 then leNat ((y.drop (2 * i)).take 2) * 65536 else leNat ((y.drop (4 * i)).take 4)
      let q := fun (k : Nat) => mxQuant (if f.getLsbD 24 then Fmt.e5m2 else Fmt.e4m3fmt) ((List.range 32).map fun i => val (32 * k + i))
      let reqs := ((spanWrites w (row p1 (nb * 32) true) (((List.range nb).flatMap fun k => (q k).2).map (BitVec.ofNat 8)) ++
        spanWrites w (row p2 nb true) ((List.range nb).map fun k => BitVec.ofNat 8 (q k).1)).flatMap sectorsOf).flatMap
          fun x => mkReqs b [x] []
      ∃ t b', exec (.quantiserCommand core) s = .next t ∧ t.block? core c.slot = some b' ∧ t.mem = s.mem ∧ b'.fibres = b.fibres ∧
        (t.cmds.find? fun y => y.seq == c.seq) = (s.cmds.find? fun y => y.seq == c.seq).map (fun y => { y with busy := true, rows := c.rows + 1 }) ∧
        (∀ r ∈ reqs, ∀ a, r.loc = .glob a → core < s.cores.length → ∃ o ∈ (t.core core).outb, o.issue = c.seq ∧ o.req = r) ∧
        b'.scratch = ((reqs.filter fun r => r.loc == .scratch 0).foldl (fun m r => m.setAll (r.writes.map (·.2))) b.scratch))

/-! ### The clustering bank (R359–R373) -/

namespace Sys2Proof.Claims

open Sys2Proof Sys2Proof.Machine

/-- All but the banks, the store paths, and the copies of memory and of translations that a core and the dies keep. -/
def besideBanks (s : State) (core slot : Nat) : State :=
  let q := s.still core slot
  { q with
    cdies := []
    cores := q.cores.map fun c => { c with tlb := [], l1 := [], bank := {}, paths := [] } }

/-- A form of the bank: its parties go on with their writes, and all but the bank stays. -/
structure OnBank (s t : State) (h : Hd) (w : Nat × Who × View → List Wr) : Prop where
  threads : Advances s t h (fun x f => f.wrs (w (x.1, .fib x.2.fid, .fib x.2)))
    fun c => (w (0, .cox, .cox c)).foldl Cox.wr c
  rest : besideBanks t s.cur.core s.cur.slot = besideBanks s s.cur.core s.cur.slot

/-- A word goes to every party of an issue: a status, or a result. -/
def word (d : RegNo) (v : W32) (x : Nat × Who × View) : List Wr := [x.2.2.w32 d v]

def BanksStay (s t : State) : Prop := ∀ c, t.bank c = s.bank c

/-- The block's bank is in its hands, and every earlier arrival has been processed. -/
def mine (s : State) (b : Block) : Prop := (s.bank b.core).holder = some b.slot
def quiet (s : State) (b : Block) : Prop :=
  (∀ a ∈ (s.bank b.core).arrivals, a.slot ≠ b.slot) ∧ (s.bank b.core).overflow = [] ∧
  ∀ c ∈ s.cmds, c.k = .bank → c.unit = b.core → c.slot = b.slot → c.result ≠ none ∨ c.busy = true

/-- An arrival with the source that it comes from (R365): the part that issues, and its cycle. -/
def sent (s : State) (core : Nat) (a : BArr) : BArr :=
  { a with src := (match s.cur.th with
             | .part id => id
             | _ => 0), cyc := s.now core }

/-- An arrival reaches the port before another of the list (R365): both are commands of port 0, or they come from one cycle, one
part or cox thread, or one party. -/
def ahead (x y : BArr) : Prop :=
  if x.fromPort ∨ y.fromPort then x.fromPort ∧ y.fromPort
  else x.cyc = y.cyc ∨ x.slot = y.slot ∧ (x.src = y.src ∨ ∃ w ∈ x.who, w ∈ y.who)

/-- No arrival that waits goes before an instruction of some parties that acts on the bank at its issue: none is of their part or cox
thread, of their cycle or of one of them, no overflow record waits, and the write port is not amid the block's arrivals of one
instruction. The order between sources is open (R365, R374). -/
def clear (s : State) (b : Block) (ws : List Who) : Prop := (s.bank b.core).overflow = [] ∧
  ∀ x ∈ (s.bank b.core).arrivals, x.slot = b.slot → x.issue ≠ (s.bank b.core).serving ∧
    ¬ ahead x (sent s b.core { issue := s.nextId, slot := b.slot, kind := .merge, dest := .regs (ws.map fun w => (w, 0)) })

/-- Register n of a block is bound to port 1 of a core's bank. -/
def OnPort1 (core : Nat) (b : Block) (n : Nat) : Prop := ∃ q, b.q[n]? = some q ∧ q.bind = some (.engine .bank core 1)

/-- The bank's holder has bound a register to port 1, register n of block b being its first (R366). -/
def Bound (s : State) (core : Nat) (b : Block) (n : Nat) : Prop :=
  ∃ slot, (s.bank core).holder = some slot ∧ s.block? core slot = some b ∧ OnPort1 core b n ∧ ∀ m < n, ¬ OnPort1 core b m

/-- A configuration word's fields (R360). -/
def dims (w : W64) : Nat := (w.extractLsb' 0 7).toNat
def count (w : W64) : Nat := (w.extractLsb' 8 11).toNat
def valid (w : W64) : Prop :=
  w.extractLsb' 24 40 = 0 ∧ w.getLsbD 19 = false ∧ w.getLsbD 7 = false ∧ w.extractLsb' 20 2 ≠ 3 ∧ 1 ≤ dims w ∧ dims w ≤ 64 ∧
  1 ≤ count w ∧ count w ≤ 1024 ∧ count w * dims w ≤ 8192

/-- The updates of an entry (R361). -/
def plus (x y : List W32) : List W32 := (x.zip y).map fun p => f32add .rne p.1 p.2
def capped (x y : W32) : W32 := if 2 ^ 32 ≤ x.toNat + y.toNat then 0xFFFFFFFF else x + y
def mean (s : List W32) (c : W32) : List W32 :=
  s.map fun x => BitVec.ofNat 32 (Fmt.f32.divVal .rne (Fmt.f32.decode x.toNat) (FVal.ofInt c.toNat))
def opened (v : List W32) : BEnt := { c := 1, s := v, m := v }
def grown (e : BEnt) (v : List W32) : BEnt := { c := capped e.c 1, s := plus e.s v, m := mean (plus e.s v) (capped e.c 1) }
def joined (e f : BEnt) : BEnt := { c := capped e.c f.c, s := plus e.s f.s, m := mean (plus e.s f.s) (capped e.c f.c) }

/-- An entry of a bank, and whether it is valid. -/
def entry (k : Bank) (i : Nat) : BEnt := (k.ents[i]?).getD {}
def Full (k : Bank) (i : Nat) : Prop := i < k.ents.length ∧ (entry k i).c ≠ 0

/-- The metric, dimensions and policy of a bank, and the distance of a vector from an entry (R362). -/
def metric (k : Bank) : Nat := (k.cfg.extractLsb' 20 2).toNat
def far (k : Bank) (v : List W32) (i : Nat) : FVal := distance (metric k) v (entry k i).m

/-- The nearest entry: of least distance, and among equals of lowest index (R362). -/
def Nearest (k : Bank) (v : List W32) (e : Nat) : Prop := Full k e ∧
  ∀ i, Full k i → distLt (far k v i) (far k v e) = false ∧ (i < e → distLt (far k v e) (far k v i) = true)

/-- The closest pair e < f (R362). -/
def Closest (k : Bank) (e f : Nat) : Prop := Full k e ∧ Full k f ∧ e < f ∧
  let gap := fun (i j : Nat) => distance (metric k) (entry k i).m (entry k j).m
  ∀ i j, Full k i → Full k j → i < j → distLt (gap i j) (gap e f) = false ∧
    (i < e ∨ i = e ∧ j < f → distLt (gap e f) (gap i j) = true)

/-- A vector lies within the bank's radius of an entry. -/
def Within' (k : Bank) (v : List W32) (e : Nat) : Prop := fccHolds .le (far k v e) (Fmt.f32.decode k.radius.toNat) = true

/-- The result word (R363). -/
def answer (act j e : Nat) : W32 := BitVec.ofNat 32 (act * 2 ^ 28 + j * 2 ^ 16 + e)

/-- Words in pairs, the last with zero (R366). -/
def paired : List W32 → List W64
  | [] => []
  | [a] => [a.zeroExtend 64]
  | a :: b :: r => (b ++ a) :: paired r

/-- What a vector does to a bank: its entries after, the result word, and the record that leaves (R363, R364). -/
inductive Placed (k : Bank) (v : List W32) : List BEnt → W32 → Option (List W64) → Prop
  | grow {e} : Nearest k v e → Within' k v e → Placed k v (k.ents.set e (grown (entry k e) v)) (answer 0 0 e) none
  | openFree {e} : (∀ n, Nearest k v n → ¬ Within' k v n) → e < k.ents.length → ¬ Full k e → (∀ i < e, Full k i) →
      Placed k v (k.ents.set e (opened v)) (answer 1 0 e) none
  | reject : (∀ n, Nearest k v n → ¬ Within' k v n) → (∀ i < k.ents.length, Full k i) → k.cfg.extractLsb' 22 2 = 0 →
      Placed k v k.ents (answer 5 0 0) (some (BitVec.ofNat 64 (2 ^ 62 + 1) :: paired v))
  | merge {e f} : (∀ n, Nearest k v n → ¬ Within' k v n) → (∀ i < k.ents.length, Full k i) → k.cfg.extractLsb' 22 2 = 1 →
      Closest k e f → Placed k v ((k.ents.set e (joined (entry k e) (entry k f))).set f (opened v)) (answer 3 f f) none
  | absorb {e} : Nearest k v e → ¬ Within' k v e → (∀ i < k.ents.length, Full k i) →
      (k.cfg.extractLsb' 22 2 = 2 ∨ k.cfg.extractLsb' 22 2 = 1 ∧ k.ents.length = 1) →
      Placed k v (k.ents.set e (grown (entry k e) v)) (answer 2 0 e) none
  | evict {e} : (∀ n, Nearest k v n → ¬ Within' k v n) → (∀ i < k.ents.length, Full k i) → k.cfg.extractLsb' 22 2 = 3 →
      Full k e → (∀ i < k.ents.length, (entry k e).c.toNat ≤ (entry k i).c.toNat ∧ (i < e → (entry k e).c.toNat < (entry k i).c.toNat)) →
      Placed k v (k.ents.set e (opened v)) (answer 4 e e)
        (some (BitVec.ofNat 64 (2 ^ 63 + e * 2 ^ 32 + (entry k e).c.toNat) :: paired (entry k e).s))

/-- Registers of a block's parties get a word each, and no other register of the block changes. -/
def TokensGet (s t : State) (core slot : Nat) (l : List (Who × Nat)) (v : W32) : Prop :=
  (∀ fid, t.fibAt core slot fid = (s.fibAt core slot fid).map fun f =>
    l.foldl (fun f x => if x.1 = .fib fid then f.wrs [.v x.2 v] else f) f) ∧
  t.coxAt core slot = (s.coxAt core slot).map fun c => l.foldl (fun c x => if x.1 = .cox then c.setReg x.2 (v.zeroExtend 64) else c) c

/-- The bytes of a bank's image (R373). -/
def imageOf (k : Bank) : List Byte :=
  let d := dims k.cfg
  let words := fun (v : List W32) => v.flatMap fun x => leBytes 4 x.toNat
  let record := fun (e : BEnt) =>
    let v := fun (x : List W32) => if e.c = 0 then List.replicate d (0 : W32) else x
    let r := leBytes 4 e.c.toNat ++ List.replicate 12 0 ++ words (v e.s) ++ words (v e.m)
    r ++ List.replicate (16 + 16 * ((d + 1) / 2) - r.length) 0
  leBytes 8 k.cfg.toNat ++ leBytes 4 k.radius.toNat ++ leBytes 4 k.drop.toNat ++ k.ents.flatMap record

end Sys2Proof.Claims

/-- R359, R360, R369–R373: what each instruction of the clustering bank does at its issue, and what it leaves alone. -/
def Sys2Proof.Claims.ClusterBankForms : Prop :=
  (∀ h d a r s b, CoxIssuing s b → Runs s b → let cfg := b.cox.reg a.toNat
    let k := s.bank b.core
    let tells := fun (t : State) (st : W32) => exec (.cbcfg h d a r) s = .next t ∧ OnBank s t h (word d st)
    (s.stage ≠ .stage2 → ∃ t, tells t 2 ∧ BanksStay s t) ∧
    (s.stage = .stage2 → (∃ x, k.holder = some x ∧ x ≠ b.slot) → ∃ t, tells t 1 ∧ BanksStay s t) ∧
    let now := k.holder = none ∧ clear s b [.cox] ∨ mine s b ∧ quiet s b
    (s.stage = .stage2 → now → ¬ valid cfg → ∃ t, tells t 3 ∧ BanksStay s t) ∧
    (s.stage = .stage2 → k.holder = none ∨ mine s b → ¬ now → exec (.cbcfg h d a r) s = .next s) ∧
    (s.stage = .stage2 → now → valid cfg → ∃ t, tells t 0 ∧
      (∀ c, c ≠ b.core → t.bank c = s.bank c) ∧ t.bank b.core = { k with
        holder := some b.slot
        cfg := cfg
        radius := (b.cox.reg r.toNat).truncate 32
        ents := List.replicate (count cfg) {}
        drop := 0 })) ∧
  (∀ h d s b, CoxIssuing s b → Runs s b → let k := s.bank b.core
    (¬ mine s b → (∃ t, exec (.cbclr h d) s = .next t ∧ OnBank s t h (word d 4) ∧ BanksStay s t) ∧
      (∃ t, exec (.cbrel h d) s = .next t ∧ OnBank s t h (word d 4) ∧ BanksStay s t) ∧
      ∃ t, exec (.cbstat h d) s = .next t ∧ OnBank s t h (fun _ => [.s d.toNat 4]) ∧ BanksStay s t) ∧
    (mine s b → (¬ quiet s b → exec (.cbclr h d) s = .next s ∧ exec (.cbrel h d) s = .next s) ∧
      (quiet s b → ∃ t, exec (.cbclr h d) s = .next t ∧ OnBank s t h (word d 0) ∧ (∀ c, c ≠ b.core → t.bank c = s.bank c) ∧
        t.bank b.core = { k with ents := List.replicate k.ents.length {} }) ∧
      (quiet s b → ∃ t, exec (.cbrel h d) s = .next t ∧ OnBank s t h (word d 0) ∧ (∀ c, c ≠ b.core → t.bank c = s.bank c) ∧
        t.bank b.core = { arrivals := k.arrivals, serving := k.serving })) ∧
    (mine s b → ∃ t, exec (.cbstat h d) s = .next t ∧ BanksStay s t ∧
      OnBank s t h fun _ => [.s d.toNat (k.drop ++ BitVec.ofNat 32 (k.ents.countP fun e => e.c ≠ 0))])) ∧
  (∀ h d a s b, Runs s b → s.heldHere .bank = false → let k := s.bank b.core
    (¬ mine s b → ∃ t, exec (.cbpush h d a) s = .next t ∧ OnBank s t h (word d 0xF0000000) ∧ BanksStay s t) ∧
    (mine s b → ∃ t, exec (.cbpush h d a) s = .next t ∧ OnBank s t h (fun _ => []) ∧ (∀ c, c ≠ b.core → t.bank c = s.bank c) ∧
      t.bank b.core = { k with arrivals := k.arrivals ++ (s.views h).map fun x => sent s b.core {
        issue := s.nextId, slot := b.slot, dest := .regs [(x.2.1, d.toNat)]
        kind := .vec ((List.range (dims k.cfg)).map fun i => x.2.2.r32 (a + BitVec.ofNat 8 i)) } })) ∧
  (∀ h d s b, Runs s b → s.heldHere .bank = false → s.views h ≠ [] → let k := s.bank b.core
    ∃ t, exec (.cbmerge h d) s = .next t ∧ OnBank s t h (fun _ => []) ∧ (∀ c, c ≠ b.core → t.bank c = s.bank c) ∧
      t.bank b.core = { k with arrivals := k.arrivals ++ [sent s b.core {
        issue := s.nextId, slot := b.slot, kind := .merge, dest := .regs ((s.views h).map fun x => (x.2.1, d.toNat)) }] }) ∧
  (∀ h sum d a s b, Runs s b → s.heldHere .bank = false → let k := s.bank b.core
    (¬ mine s b → ∃ t, exec (.cbrd h sum d a) s = .next t ∧ OnBank s t h (word d 0) ∧ BanksStay s t) ∧
    (mine s b → ∃ t, exec (.cbrd h sum d a) s = .next t ∧ OnBank s t h (fun _ => []) ∧ (∀ c, c ≠ b.core → t.bank c = s.bank c) ∧
      t.bank b.core = { k with arrivals := k.arrivals ++ (s.views h).map fun x => sent s b.core {
        issue := s.nextId, slot := b.slot, dest := .regs [(x.2.1, d.toNat)], kind := .rd (x.2.2.r32 a).toNat sum (dims k.cfg) } })) ∧
  (∀ h d a s b x rest, Runs s b → s.views h = x :: rest → let k := s.bank b.core
    let p := x.2.2.r64 a
    let n := 16 + count k.cfg * (16 + 16 * ((dims k.cfg + 1) / 2))
    (¬ mine s b → ∃ t, exec (.cbsave h d a) s = .next t ∧ OnBank s t h (word d 4) ∧ BanksStay s t ∧ PathsStay s t) ∧
    let all := (s.views h).map fun y => y.2.1
    (mine s b → ¬ clear s b all → exec (.cbsave h d a) s = .next s) ∧
    (mine s b → clear s b all → ptrFlt b p 16 n true = none → (∀ y ∈ s.chkSpan b p n true, ∃ l va, y.2.2 = .ok l va) →
      (∀ e ∈ k.ents, e.c ≠ 0 → e.s.length = dims k.cfg ∧ e.m.length = dims k.cfg) →
      ∃ t, exec (.cbsave h d a) s = .next t ∧ OnBank s t h (word d 0) ∧ BanksStay s t ∧
        Stores s t b x.2.1 (spanWrites x.2.1 (s.chkSpan b p n true) (imageOf k)))) ∧
  ∀ h d a s b x rest, Runs s b → s.views h = x :: rest → let k := s.bank b.core
    let p := x.2.2.r64 a
    (¬ mine s b → ∃ t, exec (.cbrest h d a) s = .next t ∧ OnBank s t h (word d 4) ∧ BanksStay s t ∧ PathsStay s t) ∧
    let all := (s.views h).map fun y => y.2.1
    (mine s b → ¬ clear s b all → exec (.cbrest h d a) s = .next s) ∧
    (mine s b → clear s b all → s.mayReadNow b x.2.1 = true → ptrFlt b p 16 16 false = none → ∀ y,
      s.getSpan b x.2.1 (s.chkSpan b p 16 false) = .ok y → s.spanHeld b (s.chkSpan b p 16 false) = false → let cfg : W64 := BitVec.ofNat 64 (leNat (y.take 8))
      let n := 16 + count cfg * (16 + 16 * ((dims cfg + 1) / 2))
      (¬ valid cfg → ∃ t, exec (.cbrest h d a) s = .next t ∧ OnBank s t h (word d 3) ∧ BanksStay s t ∧ PathsStay s t) ∧
      (valid cfg → ∀ k', k'.ents.length = count k'.cfg → (∀ e ∈ k'.ents, e.c = 0 ∧ e = {} ∨ e.c ≠ 0 ∧ e.s.length = dims k'.cfg ∧ e.m.length = dims k'.cfg) →
        k'.holder = k.holder → k'.overflow = [] → y = (imageOf k').take 16 → k'.cfg = cfg →
        ptrFlt b p 16 n false = none → s.getSpan b x.2.1 (s.chkSpan b p n false) = .ok (imageOf k') →
        s.spanHeld b (s.chkSpan b p n false) = false →
        ∃ t, exec (.cbrest h d a) s = .next t ∧ OnBank s t h (word d 0) ∧ PathsStay s t ∧ (∀ c, c ≠ b.core → t.bank c = s.bank c) ∧
          t.bank b.core = { k' with arrivals := k.arrivals, serving := k.serving }))

/-- R361–R367, R371, R372: what each arrival does at the bank's write port and what its parties get, how a record leaves,
and the commands of queue registers. -/
def Sys2Proof.Claims.ClusterBankArrivals : Prop :=
  (∀ (k : Bank) n, k.arrivals ≠ [] → ∃ a rest i, k.nextArr n = some (a, rest) ∧ k.arrivals[i]? = some a ∧ rest = k.arrivals.eraseIdx i ∧
    ((a.issue = k.serving ∧ ∀ j < i, ∀ y, k.arrivals[j]? = some y → y.issue ≠ k.serving) ∨
      (∀ y ∈ k.arrivals, y.issue ≠ k.serving) ∧ ∀ j < i, ∀ y, k.arrivals[j]? = some y → ¬ ahead y a)) ∧
  (∀ (s : State) core a rest, core < s.cores.length → let k := s.bank core
    k.nextArr (Config.pick s.tick) = some (a, rest) → k.overflow = [] → ∀ l, a.dest = .regs l →
    let k0 := { k with arrivals := rest, serving := a.issue }
    let ends := fun (t : State) (v : W32) => exec (.bankArrival core) s = .next t ∧ t.mem = s.mem ∧ TokensGet s t core a.slot l v ∧
      ∀ c, c ≠ core → t.bank c = s.bank c
    (∀ v, a.kind = .vec v → k.holder ≠ some a.slot ∨ v.length ≠ dims k.cfg → ∃ t, ends t 0xF0000000 ∧ t.bank core = k0) ∧
    (∀ v, a.kind = .vec v → k.holder = some a.slot → v.length = dims k.cfg → 0 < k.ents.length →
      ∀ es w r, Placed k0 v es w r → ∃ t, ends t w ∧
        (r = none → t.bank core = { k0 with ents := es }) ∧
        (∀ x, r = some x → (∃ b n, Bound s core b n) → t.bank core = { k0 with ents := es, overflow := [x] }) ∧
        (∀ x, r = some x → (¬ ∃ b n, Bound s core b n) → t.bank core = { k0 with ents := es, drop := capped k.drop 1 })) ∧
    (a.kind = .merge → k.holder ≠ some a.slot → ∃ t, ends t 0xF0000000 ∧ t.bank core = k0) ∧
    (a.kind = .merge → k.holder = some a.slot → (∀ e f, Closest k0 e f → ∃ t, ends t (answer 6 f e) ∧
        t.bank core = { k0 with ents := (k.ents.set e (joined (entry k e) (entry k f))).set f {} }) ∧
      ((∀ i j, Full k i → Full k j → i = j) → ∃ t, ends t (answer 7 0 0) ∧ t.bank core = k0)) ∧
    ∀ i sum dim, a.kind = .rd i sum dim → (k.holder ≠ some a.slot ∨ dim ≠ dims k.cfg → ∃ t, ends t 0 ∧ t.bank core = k0) ∧
      (k.holder = some a.slot → dim = dims k.cfg → ∀ w d, l = [(w, d)] →
        let e := if i < count k.cfg then entry k i else {}
        let v := if e.c = 0 then List.replicate dim 0 else if sum then e.s else e.m
        ∃ t, exec (.bankArrival core) s = .next t ∧ t.mem = s.mem ∧ t.bank core = k0 ∧
          (∀ fid, w = .fib fid → t.fibAt core a.slot fid = (s.fibAt core a.slot fid).map fun f =>
            f.wrs (Wr.v d e.c :: v.zipIdx.map fun x => Wr.v (d + 1 + x.2) x.1)) ∧
          (w = .cox → t.coxAt core a.slot = (s.coxAt core a.slot).map fun c => c.setReg d (e.c.zeroExtend 64)))) ∧
  (∀ (s : State) core r rest, core < s.cores.length → (s.bank core).overflow = r :: rest →
    ((¬ ∃ b n, Bound s core b n) → ∃ t, exec (.overflowRecordEnter core) s = .next t ∧
      t.blocks = s.blocks ∧ t.mem = s.mem ∧ t.bank core = { s.bank core with overflow := rest, drop := capped (s.bank core).drop 1 }) ∧
    ∀ b n q, Bound s core b n → b.q[n]? = some q →
      q.pop.length + r.length ≤ 64 → ∃ t b', exec (.overflowRecordEnter core) s = .next t ∧ t.mem = s.mem ∧
        t.bank core = { s.bank core with overflow := rest } ∧ t.block? b.core b.slot = some b' ∧ b'.fibres = b.fibres ∧
        b'.q = b.q.set n { q with pop := q.pop ++ r }) ∧
  ∀ (s : State) core c, core < s.cores.length → (s.cmds.find? fun y => y.k == .bank && y.unit == core && y.result.isNone && !y.busy) = some c →
    ∀ e es, c.ents.map (·.v) = e :: es → let k := s.bank core
    let arrives := fun (i : Instr) (x : BArrKind) => ∃ t, exec i s = .next t ∧ t.mem = s.mem ∧ t.blocks = s.blocks ∧
      t.bank core = { k with arrivals := k.arrivals ++ [{ issue := c.seq, slot := c.slot, kind := x, dest := .queue c.q }] } ∧
      t.cmds = s.cmds.map fun y => if y.seq = c.seq then { y with busy := true } else y
    let refused := fun (i : Instr) => ∃ t, exec i s = .next t ∧ t.mem = s.mem ∧ t.bank core = k ∧
      t.cmds = s.cmds.map fun y => if y.seq = c.seq then { y with busy := true, result := some [0xF0000000] } else y
    (e = 0x2000000000000000 → (k.holder = some c.slot → arrives (.bankMergeCommand core) .merge) ∧
      (k.holder ≠ some c.slot → refused (.bankMergeCommand core))) ∧
    (e = 0x1000000000000000 → k.holder = some c.slot → es ≠ [] →
      arrives (.bankPushCommand core) (.vec ((es.flatMap fun x => [x.extractLsb' 0 32, x.extractLsb' 32 32]).take c.dim))) ∧
    (e ≠ 0x2000000000000000 → k.holder ≠ some c.slot ∨ e ≠ 0x1000000000000000 ∨ es = [] → refused (.bankPushCommand core))

/-- R359–R378: the clustering bank. -/
def Obligations.ClusterBank : Prop := ClusterBankForms ∧ ClusterBankArrivals

/-! ### Eddy (R379–R393) -/

namespace Sys2Proof.Claims

open Sys2Proof Sys2Proof.Machine

/-- All but the Eddy slots, and the copies of memory and of translations that a core and the dies keep. -/
def besideEddy (s : State) (core slot : Nat) : State :=
  let q := s.still core slot
  { q with
    cdies := []
    cores := q.cores.map fun c => { c with tlb := [], l1 := [], scale := [], coll := c.coll.map fun e => { e with closed := false } }
    ctxs := q.ctxs.map fun c => { c with eddy := [] } }

/-- The slot commands of both streams: flags, destination, how many registers it takes, slot, and the operands that the
elected party gives at the issue (R389–R392). -/
structure EdForm where
  h : Hd
  o : Ord := {}
  d : RegNo
  n : Nat := 1
  slot : BitVec 2
  kind : View → EdKind

/-- A gate's operands: its matrix in the registers from a on, and its targets (R385). -/
def edGate (n : Nat) (a b : RegNo) (v : View) : EdKind :=
  .gate n ((List.range (2 * 4 ^ n)).map fun i => v.r32 (a + BitVec.ofNat 8 i)) (v.r32 b)

def eddyForms : Instr → Option EdForm
  | .edgate h o k1 d a b slot => some { h, o, d, slot, kind := edGate (k1.toNat + 1) a b }
  | .edmeas h o d a slot => some { h, o, d, n := 2, slot, kind := fun v => .meas (v.r32 a) }
  | .ednorm h o d slot => some { h, o, d, slot, kind := fun _ => .norm }
  | .edmapRd h d a slot => some { h, d, slot, kind := fun v => .rd (v.r32 a) }
  | .edmapWr h d a slot => some { h, d, slot, kind := fun v => .wr (v.r32 a) }
  | .edswap h d a slot => some { h, d, slot, kind := fun v => .swap (v.r32 a) }
  | .edmapFree h d slot => some { h, d, slot, kind := fun _ => .free }
  | _ => none

/-- A slot command joins its slot, and its parties' registers wait for its results (R276, R382). -/
def Queues (s t : State) (F : EdForm) (b : Block) (k : EdKind) : Prop :=
  besideEddy t b.core b.slot = besideEddy s b.core b.slot ∧
  ∃ id, s.nextId ≤ id ∧ id < t.nextId ∧
    Advances s t F.h (fun _ f => { f with sb := f.sb ++ (List.range F.n).map fun i => (F.d.toNat + i, id) })
      (fun c => { c with sb := c.sb ++ (List.range F.n).map fun i => (F.d.toNat + i, id) }) ∧
    (∀ x j, (x, j) ≠ (b.ctx, F.slot.toNat) → t.ed x j = s.ed x j) ∧
    t.ed b.ctx F.slot.toNat = { s.ed b.ctx F.slot.toNat with
      cmds := (s.ed b.ctx F.slot.toNat).cmds ++ [{ issue := id, kind := k, o := F.o, core := b.core, slot := b.slot
                                                   parties := (s.views F.h).map (fun x => x.2.1)
                                                   after := (s.views F.h).map fun x => (x.2.1, id)
                                                   dest := .regs ((s.views F.h).map fun x => (x.2.1, F.d.toNat))
                                                   early := s.stage != .stage2 }] }

/-- A descriptor's bytes (R380). -/
def descriptor (base tab : W64) (m ge gd rank : Nat) : List Byte :=
  leBytes 8 base.toNat ++ leBytes 8 tab.toNat ++ [BitVec.ofNat 8 m, BitVec.ofNat 8 ge, BitVec.ofNat 8 gd, 0] ++ leBytes 2 rank ++
    List.replicate 10 0

/-- What makes a descriptor good: its base, its fields and the dies (R380). -/
def good (s : State) (base : W64) (m ge gd rank : Nat) : Prop :=
  base.extractLsb' 56 8 = 0 ∧ base.toNat % 65536 = 0 ∧ m ≤ 21 ∧ ge ≤ 2 ∧ gd ≤ 9 ∧ rank < 2 ^ gd ∧ ∀ d < 2 ^ ge, s.dieUp d = true

/-- A region of n bytes at remote addresses of this device is local (R399). -/
def ownBase (s : State) (base : W64) (n : Nat) : W64 :=
  if base.extractLsb' 60 4 = 0 ∧ base.extractLsb' 52 4 = 0xE ∧ (base.extractLsb' 42 10).toNat = s.devNum.toNat ∧
    (base.extractLsb' 0 42).toNat + n ≤ 2 ^ 42 then base.extractLsb' 56 8 ++ (0 : BitVec 14) ++ base.extractLsb' 0 42
  else base

/-- Registers under the scoreboard bit of a command get the values of its results, in order. -/
def Answered (s t : State) (core slot issue : Nat) (l : List (Who × Nat)) (vs : List W32) : Prop :=
  (∀ c r v, s.coxAt core slot = some c → l = [(.cox, r)] → vs = [v] → (r, issue) ∈ c.sb →
    t.coxAt core slot = some { (c.setReg r (v.zeroExtend 64)) with sb := c.sb.filter (· ≠ (r, issue)) }) ∧
  ∀ fid f, s.fibAt core slot fid = some f → ∀ r, l = [(.fib fid, r)] → (∀ i < vs.length, (r + i, issue) ∈ f.sb) →
    r + vs.length ≤ f.regs.length → ∃ g, t.fibAt core slot fid = some g ∧ (∀ i v, vs[i]? = some v → g.reg (r + i) = v) ∧
      (∀ q, q < r ∨ r + vs.length ≤ q → g.reg q = f.reg q) ∧ g.pc = f.pc ∧ ∀ i < vs.length, (r + i, issue) ∉ g.sb

/-- The command at the head of a slot can be executed now (R382–R384). -/
structure Next (s : State) (ctx k : Nat) (c : EdCmd) (rest : List EdCmd) (l : List (Who × Nat)) : Prop where
  there : ctx < s.ctxs.length
  slot : k < (s.ctx ctx).eddy.length
  head : (s.ed ctx k).cmds = c :: rest
  dest : c.dest = .regs l
  ready : c.wait = none ∧ (s.ctx ctx).st = .running
  order : c.o.acq = false ∨ c.begun = true ∨ s.settled c.core c.slot c.after c.o.scope = true
  open_ : ∀ d < 2 ^ (s.ed ctx k).ge, s.held ctx d .eddy = false

/-- The command ends: it leaves the slot, and its registers get its results. -/
def Ends (s t : State) (ctx k : Nat) (c : EdCmd) (rest : List EdCmd) (l : List (Who × Nat)) (vs : List W32) : Prop :=
  exec (.eddyCommandExecute ctx k) s = .next t ∧ (t.ed ctx k).cmds = rest ∧ Answered s t c.core c.slot c.issue l vs

/-- A status word (R390). -/
def status (code swaps : Nat) : W32 := BitVec.ofNat 32 (code * 2 ^ 24 + swaps)

/-- What a command answers when it is refused with a status: NaN for measurements and normalisations, 0xFF for a map read. -/
def refusal (k : EdKind) (code swaps : Nat) : List W32 := match k with
  | .meas _ => [0x7FC00000, 0x7FC00000]
  | .norm => [0x7FC00000]
  | .rd _ => [0xFF]
  | _ => [status code swaps]

/-- The qubits of a slot, those that lie on this device, and those that need no swap (R380, R385). -/
def qubits (e : EdSlot) : Nat := 13 + e.m + e.ge + e.gd
def local' (e : EdSlot) : Nat := 13 + e.m + e.ge
def near (e : EdSlot) : Nat := 13 + e.m

/-- The operands that a gate, a swap and a measurement refuse: a target at or beyond the qubits, two equal ones, or a reserved bit
(R390–R392). -/
def gateRefused (e : EdSlot) (n : Nat) (t : W32) : Prop :=
  (∃ i < 32, t.getLsbD i = true ∧ ∀ m < n, i < 8 * m ∨ 8 * m + 6 ≤ i) ∨ (∃ m < n, qubits e ≤ (t.extractLsb' (8 * m) 6).toNat) ∨
  ∃ m k, m < k ∧ k < n ∧ t.extractLsb' (8 * m) 6 = t.extractLsb' (8 * k) 6
def swapRefused (e : EdSlot) (a : W32) : Prop :=
  a.extractLsb' 6 2 ≠ 0 ∨ a.extractLsb' 14 18 ≠ 0 ∨ qubits e ≤ (a.extractLsb' 0 6).toNat ∨ qubits e ≤ (a.extractLsb' 8 6).toNat ∨
  a.extractLsb' 0 6 = a.extractLsb' 8 6
def measRefused (e : EdSlot) (q : W32) : Prop := q.extractLsb' 6 26 ≠ 0 ∨ qubits e ≤ (q.extractLsb' 0 6).toNat

/-- The amplitude at an index of this device, as memory holds it (R62, R381). -/
def amplitude (s : State) (e : EdSlot) (j : Nat) : W64 :=
  BitVec.ofNat 64 (leNat (s.mem.read (e.linePa (j / 16) + 8 * (j % 16)) 8))

/-- The region's lines lie apart in memory, all of them readable and none held back. -/
def Region (s : State) (ctx : Nat) (e : EdSlot) : Prop :=
  e.xl ≠ [] ∧ s.edBad e = false ∧ s.edHeld ctx e = false ∧
  (∀ i < e.lines, e.linePa i % 128 = 0 ∧ isMg (e.linePa i) = false) ∧ ∀ i j, i < e.lines → j < e.lines → e.linePa i = e.linePa j → i = j

/-- Every other byte of memory stays. -/
def RegionOnly (s t : State) (e : EdSlot) : Prop :=
  ∀ a, (∀ i < e.lines, a < e.linePa i ∨ e.linePa i + 128 ≤ a) → t.mem.get a = s.mem.get a

/-- Bit p of an index set to a value. -/
def withBit (j p : Nat) (v : Bool) : Nat := if j.testBit p = v then j else if v then j + 2 ^ p else j - 2 ^ p
/-- The bits of an index at places ps, as a number, and the index with them set to a number. -/
def bitsAt (ps : List Nat) (j : Nat) : Nat := (ps.zipIdx.map fun x => if j.testBit x.1 then 2 ^ x.2 else 0).sum
def setAt (ps : List Nat) (v j : Nat) : Nat := ps.zipIdx.foldl (fun j x => withBit j x.1 (v.testBit x.2)) j

def realOf (x : W64) : FVal := Fmt.f32.decode (x.extractLsb' 0 32).toNat
def imagOf (x : W64) : FVal := Fmt.f32.decode (x.extractLsb' 32 32).toNat
def pair (r i : Nat) : W64 := BitVec.ofNat 32 i ++ BitVec.ofNat 32 r

/-- An amplitude after a gate: one row of the matrix over its group, each part rounded once (R385). -/
def afterGate (u : List W32) (ps : List Nat) (x : Nat → W64) (j : Nat) : W64 :=
  let n := 2 ^ ps.length
  let u := fun (c i : Nat) => Fmt.f32.decode ((u[2 * (bitsAt ps j * n + c) + i]?).getD 0).toNat
  let y := fun (c : Nat) => x (setAt ps c j)
  pair (Fmt.f32.sum .rne ((List.range n).flatMap fun c => [(u c 0).mul (realOf (y c)), ((u c 1).mul (imagOf (y c))).neg]))
    (Fmt.f32.sum .rne ((List.range n).flatMap fun c => [(u c 0).mul (imagOf (y c)), (u c 1).mul (realOf (y c))]))

/-- An index with two bits interchanged (R386). -/
def exchange (p l j : Nat) : Nat := withBit (withBit j p (j.testBit l)) l (j.testBit p)

/-- Amplitudes after a normalisation by a sum of squares (R388). -/
def Normalised (s t : State) (ctx k : Nat) (sum : W32) : Prop := let e := s.ed ctx k
  let v := Fmt.f32.decode sum.toNat
  RegionOnly s t e ∧ (v.isZero ∨ v.nonFinite → t.mem = s.mem) ∧
  (¬ (v.isZero ∨ v.nonFinite) → ∀ j < 2 ^ local' e, let f := Fmt.f32.decode (Fmt.f32.rsqrt .rne sum.toNat)
    amplitude t e j = pair (Fmt.f32.sum .rne [(realOf (amplitude s e j)).mul f]) (Fmt.f32.sum .rne [(imagOf (amplitude s e j)).mul f]))

/-- The physical index of this device's j-th amplitude. -/
def whole (e : EdSlot) (j : Nat) : Nat := e.rank * 2 ^ local' e + j

/-- The partial of a chunk over the amplitudes that a test takes, rounded once (R387). -/
def partialOf (x : Nat → W64) (on : Nat → Bool) (c : Nat) : W32 := BitVec.ofNat 32 (Fmt.f32.sum .rne
  (((List.range 8192).map fun i => 8192 * c + i).filter on |>.flatMap fun j => [(realOf (x j)).mul (realOf (x j)), (imagOf (x j)).mul (imagOf (x j))]))

/-- The sum of partials in order, one rounding per step. -/
def total : List W32 → W32
  | [] => 0
  | x :: r => r.foldl (f32add .rne) x

end Sys2Proof.Claims

/-- R276, R389–R393: every slot command joins its slot with the operands of its issue, and its parties go on, `edmap.init` with the
descriptor and the device table as its read at the issue gives them (the model's reading: log 88, DEDUCED); `edsync` goes
on once its parties have no command left in the slot. -/
def Sys2Proof.Claims.EddyCommandsQueue : Prop :=
  (∀ i F, eddyForms i = some F → ∀ s b x rest, Runs s b → s.shapeOk = true → s.views F.h = x :: rest → s.heldHere .eddy = false →
    ∃ t, exec i s = .next t ∧ Queues s t F b (F.kind x.2.2)) ∧
  (∀ h d a (slot : BitVec 2) s b x rest, Runs s b → s.shapeOk = true → s.views h = x :: rest → s.heldHere .eddy = false →
    let F : EdForm := { h, d, slot, kind := fun _ => .free }
    let p := x.2.2.r64 a
    (ptrCheck b [0] p 0 32 false ≠ .ok (ptrSpace p) (p.extractLsb' 0 56).toNat → ∃ t, exec (.edmapInit h d a slot) s = .next t ∧
      Queues s t F b (.init true [] [])) ∧
    (ptrCheck b [0] p 0 32 false = .ok (ptrSpace p) (p.extractLsb' 0 56).toNat → s.mayReadNow b x.2.1 = true → ∀ desc,
      s.getSpan b x.2.1 (s.chkSpan b p 32 false) = .ok desc → s.spanHeld b (s.chkSpan b p 32 false) = false →
      let gd := leNat ((desc.drop 18).take 1)
      let tab : W64 := BitVec.ofNat 64 (leNat ((desc.drop 8).take 8))
      let queues := fun (bad : Bool) (devs : List Nat) => ∃ t, exec (.edmapInit h d a slot) s = .next t ∧ Queues s t F b (.init bad desc devs)
      (gd = 0 ∨ 9 < gd → queues false []) ∧
      (0 < gd → gd ≤ 9 → (∀ rs sp, ptrCheck b [0, 1, 2] tab 0 1 false = .bad rs sp → queues true []) ∧
        ∀ sp off, ptrCheck b [0, 1, 2] tab 0 1 false = .ok sp off →
          (limitOf b sp false < off + 2 * 2 ^ gd → queues true []) ∧
          (off + 2 * 2 ^ gd ≤ limitOf b sp false → ∀ y, s.getSpan b x.2.1 (s.chkSpan b tab (2 * 2 ^ gd) false) = .ok y →
            s.spanHeld b (s.chkSpan b tab (2 * 2 ^ gd) false) = false →
            queues false ((List.range (2 ^ gd)).map fun i => leNat ((y.drop (2 * i)).take 2)))))) ∧
  ∀ h sc (slot : BitVec 2) s b, Runs s b → s.views h ≠ [] → let e := s.ed b.ctx slot.toNat
    let waits := ∃ c ∈ e.cmds, c.core = b.core ∧ c.slot = b.slot ∧ ∃ w ∈ c.parties, w ∈ s.issuers
    (e.st ≠ .free → waits → exec (.edsync h sc slot) s = .next s) ∧
    ((e.st = .free ∨ ¬ waits ∧ ∀ q ∈ b.q, ∀ unit port, q.bind = some (.engine .eddy unit port) → ∀ e ∈ q.push, e.who ∉ s.issuers) →
      ∃ t, exec (.edsync h sc slot) s = .next t ∧ GoesOn s t h ∧ besideEddy t b.core b.slot = besideEddy s b.core b.slot ∧
        (∀ x j, t.ed x j = s.ed x j) ∧ (sc ≠ .core → (t.core b.core).l1 = []))

/-- R379, R380, R382, R390–R392: what the coordinator answers to the commands that move no amplitude. -/
def Sys2Proof.Claims.EddySlots : Prop := ∀ (s : State) ctx k c rest l, Next s ctx k c rest l → let e := s.ed ctx k
  let ends := fun (vs : List W32) (e' : EdSlot) => ∃ t, Ends s t ctx k c rest l vs ∧ t.mem = s.mem ∧
    { t.ed ctx k with cmds := [], num := 0 } = { e' with cmds := [], num := 0 }
  (e.st = .free → (∀ b x y, c.kind ≠ .init b x y) → ends (refusal c.kind 1 c.swaps) e) ∧
  (e.st = .ready → (∃ b x y, c.kind = .init b x y) → ends [status 1 c.swaps] e) ∧
  (e.st = .broken → c.kind ≠ .free → ends (refusal c.kind e.why c.swaps) e) ∧
  ((e.st = .ready ∨ e.st = .broken) → c.kind = .free → ends [0] {}) ∧
  (∀ q, e.st = .ready → c.kind = .rd q → qubits e ≤ 64 → ends [if q.toNat < qubits e then BitVec.ofNat 32 ((e.pi[q.toNat]?).getD q.toNat) else 0xFF] e) ∧
  (∀ a, e.st = .ready → c.kind = .wr a → let p := (a.extractLsb' 0 6).toNat
    let q := (a.extractLsb' 8 6).toNat
    let fit := a.extractLsb' 6 2 = 0 ∧ a.extractLsb' 14 18 = 0 ∧ p < qubits e ∧ q < qubits e ∧ p ≠ q
    (¬ fit → ends [status 2 c.swaps] e) ∧
    (fit → e.pi.length = qubits e → ends [0] { e with pi := (e.pi.set p (e.pi.getD q q)).set q (e.pi.getD p p) })) ∧
  (∀ bad x y, e.st = .free → c.kind = .init bad x y → c.early = true → ends [status 4 0] e) ∧
  (∀ x y, e.st = .free → c.kind = .init true x y → c.early = false → ends [status 7 0] e) ∧
  ∀ base tab m ge gd rank y, m < 256 → ge < 256 → gd < 256 → rank < 65536 → e.st = .free → c.early = false →
    c.kind = .init false (descriptor base tab m ge gd rank) y →
    let base := ownBase s base (2 ^ (16 + m + ge))
    let e' : EdSlot := { st := .ready, base := base, m := m, ge := ge, gd := gd, rank := rank, devs := if gd = 0 then [] else y
                         pi := List.range (13 + m + ge + gd), coord := coreDie c.core }
    (¬ good s base m ge gd rank → ends [status 7 0] e) ∧
    (good s base m ge gd rank → s.edWalk ctx e' = .absent → ends [status 6 0] e) ∧
    ∀ xl, good s base m ge gd rank → s.edWalk ctx e' = .ok xl → ends [0] { e' with xl := xl }

/-- R379–R384, R389–R393: Eddy commands and slots. -/
def Obligations.EddyCommands : Prop := EddyCommandsQueue ∧ EddySlots

/-- R385–R388, R390–R392: what gates, swaps, measurements and normalisations do to the amplitudes of this device and to the bit map,
what they answer, the operands that they refuse, and the exchange that a device or die bit begins and ends. The model's choices: partial
sums go to the other devices outside the flits (log 106, DESIGN CHOICE), and devices that disagree on a command break the slot with
status 3 (log 89, DEDUCED). -/
def Obligations.EddyAmplitudes : Prop :=
  (∀ (s : State) ctx k c rest l, Next s ctx k c rest l → s.memsOk = true → let e := s.ed ctx k
    let size := 2 ^ local' e
    e.st = .ready → Region s ctx e → e.pi.length = qubits e → (∀ q ∈ e.pi, q < qubits e) → qubits e ≤ 64 →
    (∀ (n : Nat) (u : List W32) (ts : List Nat), 0 < n → n ≤ 3 → ts.length = n → (∀ q ∈ ts, q < qubits e) → ts.Nodup → let ps := ts.map fun q => e.pi.getD q q
      c.kind = .gate n u (BitVec.ofNat 32 (ts.zipIdx.map fun x => x.1 * 256 ^ x.2).sum) →
      ((∀ p ∈ ps, p < near e) → ps.Nodup → ∃ t, Ends s t ctx k c rest l [status 0 c.swaps] ∧ RegionOnly s t e ∧ (t.ed ctx k).pi = e.pi ∧
        ∀ j < size, amplitude t e j = afterGate u ps (amplitude s e) j) ∧
      (∀ m p x, ps[m]? = some p → near e ≤ p → (∀ q ∈ ps.take m, q < near e) → x < 13 → x ∉ ps → (∀ y, x < y → y < 13 → y ∈ ps) →
        ∃ t, exec (.eddyCommandExecute ctx k) s = .next t ∧ t.mem = s.mem ∧
          (t.ed ctx k).cmds = { c with begun := true, wait := some (.swap p x 0) } :: rest)) ∧
    (∀ a : W32, c.kind = .swap a → let p := (a.extractLsb' 0 6).toNat
      let q := (a.extractLsb' 8 6).toNat
      a.extractLsb' 6 2 = 0 → a.extractLsb' 14 18 = 0 → p < near e → q < near e → p ≠ q → c.swaps = 0 →
      ∃ t, Ends s t ctx k c rest l [status 0 1] ∧ RegionOnly s t e ∧ (∀ j < size, amplitude t e j = amplitude s e (exchange p q j)) ∧
        (t.ed ctx k).pi = e.pi.map fun x => if x = p then q else if x = q then p else x) ∧
    (∀ a : W32, c.kind = .swap a → ¬ swapRefused e a → let p := (a.extractLsb' 0 6).toNat
      let q := (a.extractLsb' 8 6).toNat
      (c.swaps = 1 → ∃ t, Ends s t ctx k c rest l [status 0 1] ∧ t.mem = s.mem ∧ (t.ed ctx k).pi = e.pi) ∧
      (near e ≤ p ∨ near e ≤ q → c.swaps = 0 → ∃ t, exec (.eddyCommandExecute ctx k) s = .next t ∧ t.mem = s.mem ∧
        (t.ed ctx k).cmds = { c with begun := true, wait := some (.swap p q 0) } :: rest)) ∧
    (∀ q : W32, c.kind = .meas q → q.toNat < qubits e → e.gd = 0 → ∃ t, t.mem = s.mem ∧
      Ends s t ctx k c rest l
        [total ((List.range (2 ^ (e.m + e.ge))).map (partialOf (amplitude s e) fun j => j.testBit (e.pi.getD q.toNat q.toNat))),
         total ((List.range (2 ^ (e.m + e.ge))).map (partialOf (amplitude s e) fun _ => true))]) ∧
    (∀ q : W32, c.kind = .meas q → q.toNat < qubits e → e.gd ≠ 0 →
      let own := (List.range (2 ^ (e.m + e.ge))).map fun i => (partialOf (amplitude s e) (fun _ => true) i,
        partialOf (amplitude s e) (fun j => (whole e j).testBit (e.pi.getD q.toNat q.toNat)) i)
      ∃ t, exec (.eddyCommandExecute ctx k) s = .next t ∧ t.mem = s.mem ∧
        t.sent = s.sent ++ (e.devs.filter fun d => d != s.devNum.toNat).map (fun d => Sent.partials d own) ∧
        (t.ed ctx k).cmds = { c with begun := true, wait := some (.sums own) } :: rest) ∧
    (c.kind = .norm → e.gd = 0 → let sum := total ((List.range (2 ^ (e.m + e.ge))).map (partialOf (amplitude s e) fun _ => true))
      ∃ t, Ends s t ctx k c rest l [sum] ∧ Normalised s t ctx k sum) ∧
    (c.kind = .norm → e.gd ≠ 0 → ∃ t own, exec (.eddyCommandExecute ctx k) s = .next t ∧ t.mem = s.mem ∧
      own.map Prod.fst = (List.range (2 ^ (e.m + e.ge))).map (partialOf (amplitude s e) fun _ => true) ∧
      t.sent = s.sent ++ (e.devs.filter fun d => d != s.devNum.toNat).map (fun d => Sent.partials d own) ∧
      (t.ed ctx k).cmds = { c with begun := true, wait := some (.sums own) } :: rest)) ∧
  (∀ (s : State) ctx k c rest l, Next s ctx k c rest l → let e := s.ed ctx k
    let refused := fun (vs : List W32) => ∃ t, Ends s t ctx k c rest l vs ∧ t.mem = s.mem ∧ (t.ed ctx k).pi = e.pi
    e.st = .ready → (∀ n u x, c.kind = .gate n u x → 0 < n → n ≤ 3 → gateRefused e n x → refused [status 2 c.swaps]) ∧
      (∀ a, c.kind = .swap a → swapRefused e a → refused [status 2 c.swaps]) ∧
      ∀ q, c.kind = .meas q → measRefused e q → refused [0x7FC00000, 0x7FC00000]) ∧
  ∀ (s : State) ctx k c rest, ctx < s.ctxs.length → k < (s.ctx ctx).eddy.length → s.memsOk = true → let e := s.ed ctx k
    e.st = .ready → e.cmds = c :: rest → Region s ctx e →
    (∀ p q n data, c.wait = some (.swap p q n) → p < qubits e → q < qubits e → p ≠ q →
      let away := fun (j : Nat) => exchange p q (whole e j) / 2 ^ local' e != e.rank
      data.length = ((List.range (2 ^ local' e)).filter away).length → data.length ≤ 16 * n →
      ∃ t, exec (.eddySwapLand ctx k c.kind.num data) s = .next t ∧ RegionOnly s t e ∧
        (t.ed ctx k).pi = e.pi.map (fun x => if x = p then q else if x = q then p else x) ∧
        (t.ed ctx k).cmds = { c with wait := none, swaps := c.swaps + 1 } :: rest ∧
        ∀ j < 2 ^ local' e, amplitude t e j =
          if away j then (data[((List.range j).filter away).length]?).getD 0
          else amplitude s e (exchange p q (whole e j) % 2 ^ local' e)) ∧
    (∀ q own data l, c.kind = .meas q → c.wait = some (.sums own) → c.dest = .regs l →
      data.length = (2 ^ e.gd - 1) * 2 ^ (e.m + e.ge) → let n := e.rank * 2 ^ (e.m + e.ge)
      let far := data.map fun x => (x.extractLsb' 32 32, x.extractLsb' 0 32)
      let all := far.take n ++ own ++ far.drop n
      ∃ t, exec (.eddySwapLand ctx k c.kind.num data) s = .next t ∧ t.mem = s.mem ∧ (t.ed ctx k).cmds = rest ∧
        Answered s t c.core c.slot c.issue l [total (all.map (·.2)), total (all.map (·.1))]) ∧
    (∀ own data l, c.kind = .norm → c.wait = some (.sums own) → c.dest = .regs l →
      data.length = (2 ^ e.gd - 1) * 2 ^ (e.m + e.ge) → let n := e.rank * 2 ^ (e.m + e.ge)
      let far := data.map fun x => x.extractLsb' 32 32
      let sum := total (far.take n ++ own.map Prod.fst ++ far.drop n)
      ∃ t, exec (.eddySwapLand ctx k c.kind.num data) s = .next t ∧ (t.ed ctx k).cmds = rest ∧ Normalised s t ctx k sum ∧
        Answered s t c.core c.slot c.issue l [sum]) ∧
    (∀ kind data, e.gd ≠ 0 → kind ≠ c.kind.num → ∃ t, exec (.eddySwapLand ctx k kind data) s = .next t ∧ t.mem = s.mem ∧
      (t.ed ctx k).st = .broken ∧ (t.ed ctx k).why = 3)

/-! ### Links, remote memory, collectives and Ultra Ethernet (R394–R417) -/

namespace Sys2Proof.Claims

open Sys2Proof Sys2Proof.Machine

/-- All but the ports, the receive region, what has gone out, and what the remote memory and the collectives keep. -/
def besideLinks (s : State) (core slot : Nat) : State :=
  let q := s.still core slot
  { q with
    ports := []
    rxBase := 0
    rxCtx := 0
    rxBufs := []
    colls := []
    cdies := []
    cores := q.cores.map fun c => { c with tlb := [], l1 := [], scale := [] } }

/-- What `lkst` reads (R416). -/
def linkWord (s : State) (n : W64) : W64 :=
  if n = 31 then s.devNum.zeroExtend 64
  else if n.toNat < 26 then
    let p := s.port n.toNat
    let peer : BitVec 16 := if n.toNat < 18 then p.peer.zeroExtend 16 else 0
    (0 : BitVec 16) ++ p.replays ++ peer ++ (match p.st with
      | .down => (0 : BitVec 16)
      | .training => 1
      | .up => 2
      | .failed => 3)
  else BitVec.allOnes 64

/-- The five forms of `lkctl` (R417). -/
inductive LinkOp where | up | down | rxbuf | post | clr
def linkOps : Instr → Option (LinkOp × RegNo × RegNo × RegNo)
  | .lkctlUp _ d a b => some (.up, d, a, b)
  | .lkctlDown _ d a b => some (.down, d, a, b)
  | .lkctlRxbuf _ d a b => some (.rxbuf, d, a, b)
  | .lkctlPost _ d a b => some (.post, d, a, b)
  | .lkctlClr _ d a b => some (.clr, d, a, b)
  | _ => none

/-- The port that an operand names. -/
def portNo (x : W64) : Nat := (x.extractLsb' 0 5).toNat

/-- The receive region: base, context and which buffers are in use. -/
def region (s : State) : W64 × Nat × List Bool := (s.rxBase, s.rxCtx, s.rxBufs)

/-- Only one port has changed, to a given state. -/
def OnePort (s t : State) (n : Nat) (p : Port) : Prop :=
  region t = region s ∧ ∀ m, t.port m = if m = n then p else s.port m

def NoPort (s t : State) : Prop := region t = region s ∧ ∀ m, t.port m = s.port m

/-- A receive region: a base that is a multiple of 64 KiB, not at remote addresses of another device, and 1 to 256 buffers (R417). -/
def RxFits (s : State) (x y : W64) : Prop :=
  x.extractLsb' 56 8 = 0 ∧ x.extractLsb' 0 16 = 0 ∧ 1 ≤ (y.extractLsb' 0 9).toNat ∧ (y.extractLsb' 0 9).toNat ≤ 256 ∧
  (x.extractLsb' 52 4 = 0xE → (x.extractLsb' 42 10).toNat = s.devNum.toNat)

/-- What an operation of a privileged context answers and does (R417, Table 23-2). -/
inductive LinkRule (s t : State) (ctx : Nat) (x y : W64) : LinkOp → Nat → Prop
  | upBad : 26 ≤ portNo x → NoPort s t → LinkRule s t ctx x y .up 3
  | upAway : portNo x < 26 → s.portServes (portNo x) = false → NoPort s t → LinkRule s t ctx x y .up 4
  | upNot : portNo x < 26 → s.portServes (portNo x) = true → (s.port (portNo x)).st = .training ∨ (s.port (portNo x)).st = .up →
      NoPort s t → LinkRule s t ctx x y .up 1
  | up : portNo x < 26 → s.portServes (portNo x) = true → (s.port (portNo x)).st = .down ∨ (s.port (portNo x)).st = .failed →
      OnePort s t (portNo x) { s.port (portNo x) with
        st := .training
        train := (s.ldie (portLdie (portNo x))).cyc.toNat
        buf := []
        closing := false
        asking := false
        fails := 0
        replays := if (s.port (portNo x)).st = .down then 0 else (s.port (portNo x)).replays } → LinkRule s t ctx x y .up 0
  | downBad : 26 ≤ portNo x → NoPort s t → LinkRule s t ctx x y .down 3
  | downNot : portNo x < 26 → (s.port (portNo x)).st = .down → NoPort s t → LinkRule s t ctx x y .down 1
  | down : portNo x < 26 → (s.port (portNo x)).st ≠ .down → (s.port (portNo x)).st ≠ .up ∨ (s.port (portNo x)).buf = [] →
      OnePort s t (portNo x) { s.port (portNo x) with st := .down, buf := [], closing := false } → LinkRule s t ctx x y .down 0
  | closing : portNo x < 26 → (s.port (portNo x)).st = .up → (s.port (portNo x)).buf ≠ [] →
      OnePort s t (portNo x) { s.port (portNo x) with closing := true } → LinkRule s t ctx x y .down 0
  | rxbufBad : ¬ RxFits s x y → NoPort s t → LinkRule s t ctx x y .rxbuf 3
  | rxbufUsed : RxFits s x y → true ∈ s.rxBufs → NoPort s t → LinkRule s t ctx x y .rxbuf 1
  | rxbuf : RxFits s x y → true ∉ s.rxBufs → region t = (x, ctx, List.replicate (y.extractLsb' 0 9).toNat false) → (∀ m, t.port m = s.port m) →
      LinkRule s t ctx x y .rxbuf 0
  | postNot : (∀ i, s.rxBufs[i]? = some true → x.toNat ≠ s.rxBase.toNat + 65536 * i) → NoPort s t → LinkRule s t ctx x y .post 3
  | post {i} : s.rxBufs[i]? = some true → x.toNat = s.rxBase.toNat + 65536 * i → region t = (s.rxBase, s.rxCtx, s.rxBufs.set i false) →
      (∀ m, t.port m = s.port m) → LinkRule s t ctx x y .post 0
  | clrBad : 26 ≤ portNo x → NoPort s t → LinkRule s t ctx x y .clr 3
  | clr : portNo x < 26 → OnePort s t (portNo x) { s.port (portNo x) with replays := 0 } → LinkRule s t ctx x y .clr 0

/-- The cox thread's register gets a value, it goes on, and all but the links stays. -/
def Tells (s t : State) (b : Block) (d : RegNo) (x : W64) : Prop :=
  t.myCox.map Cox.bare = s.myCox.map (fun c => { (c.setReg d.toNat x).bare with pc := s.nextPc }) ∧
  (∀ fid, t.myFib fid = s.myFib fid) ∧ besideLinks t b.core b.slot = besideLinks s b.core b.slot

/-- All but the ports and what has gone out. -/
def besidePorts (s : State) : State := { s with ports := [], sent := [] }

/-- The next port that is UP, stays so, and reaches a device as its plane reports, from a first choice on, wrapping (R398). -/
def usable (s : State) (dev n : Nat) : Prop :=
  n < 18 ∧ (s.port n).st = .up ∧ (s.port n).closing = false ∧ (dev, n) ∉ s.unreach
def NextUp (s : State) (dev q n : Nat) : Prop := q < 18 ∧ usable s dev n ∧ ∀ m, usable s dev m → (n + 18 - q) % 18 ≤ (m + 18 - q) % 18

/-- A port whose replay buffer has room for a flit of a context that is not held (R104, R396). -/
def Room (s : State) (ctx n : Nat) : Prop := (s.port n).buf.length < 2048 ∧ s.held ctx (4 + portLdie n) .flit = false

/-- No request and no other flit waits to go again (R398). -/
def NoneAgain (s : State) : Prop := (∀ o ∈ s.outstanding, o.again = false) ∧ s.strays = []

/-- What an acknowledgement leaves in a replay buffer (R396). -/
def Acks (buf : List Flit) (ack : BitVec 12) (rest : List Flit) : Prop :=
  (∃ x g, buf = x ++ g :: rest ∧ g.seq = ack ∧ ∀ z ∈ x, z.seq ≠ ack) ∨ (∀ g ∈ buf, g.seq ≠ ack) ∧ rest = buf

/-- A flit to a device waits on an L-die, or a request that must go again. -/
def Waiting (s : State) (dev l : Nat) : Prop :=
  (∃ p < 18, portLdie p = l ∧ ∃ f ∈ (s.port p).buf, f.dst.toNat = dev) ∨
    (∃ f ∈ s.strays, f.dst.toNat = dev ∧ f.sld.toNat = l) ∨ ∃ o ∈ s.outstanding, o.dev = dev ∧ o.ldie = l ∧ o.again = true

/-- A device is lost: no plane reaches it on any rail, or what waits for it on an L-die has had no acknowledgement for 2^20 of
that L-die's cycles (R398). -/
def Lost (s : State) (dev : Nat) : Prop :=
  (∀ p < 18, (dev, p) ∈ s.unreach) ∨ ∃ l c, (dev, l, c) ∈ s.quiet ∧ c + 2 ^ 20 ≤ (s.ldie l).cyc.toNat ∧ Waiting s dev l

/-- A flit of a request. -/
def CarriesRequest (f : Flit) (o : Outstanding) : Prop := (f.type = 1 ∨ f.type = 4) ∧ f.tag.toNat = o.tag ∧ f.sld.toNat = o.ldie

/-- A whole flit stands last in a port's replay buffer and has gone out, with what its payload tells. -/
def CarriesWith (s t : State) (n : Nat) (f : Flit) (x : List Sent) : Prop :=
  t.sent = s.sent ++ .flit n f :: x ∧ flitGood f = true ∧ (t.port n).buf = (s.port n).buf ++ [f] ∧ f.seq = (s.port n).seq + 1 ∧ (t.port n).seq = f.seq ∧
  ∀ m, m ≠ n → t.port m = s.port m

def Carries (s t : State) (n : Nat) (f : Flit) : Prop := CarriesWith s t n f []

end Sys2Proof.Claims

/-- R397, R403, R416, R417: what `lkst` reads, and what `lkctl` answers and does. -/
def Obligations.LinkControl : Prop :=
  (∀ h d a s b, (CoxIssuing s b → ∃ t, exec (.lkst h d a) s = .next t ∧
      CoxWrites s t ((View.cox b.cox).w64 d (linkWord s ((View.cox b.cox).r64 a)))) ∧
    ∀ p, Issuing s b p → ∃ t, exec (.lkst h d a) s = .next t ∧
      Writes s t h fun _ x => (View.fib x.2).w64 d (linkWord s ((View.fib x.2).r64 a))) ∧
  ∀ i op d a b, linkOps i = some (op, d, a, b) → ∀ s k, CoxIssuing s k → s.ports.length = 26 →
    ∃ t n, exec i s = .next t ∧ Tells s t k d (BitVec.ofNat 64 n) ∧ t.colls = s.colls ∧
      ((s.ctx k.ctx).priv = false → n = 2 ∧ NoPort s t) ∧
      ((s.ctx k.ctx).priv = true → LinkRule s t k.ctx (k.cox.reg a.toNat) (k.cox.reg b.toNat) op n)

/-- R395–R398: a port takes flits in sequence and frees what is acknowledged, asks for replay of a lost one, as soon as its buffer has
room, resends from its oldest flit with the ACK that then holds, and moves through training, service and failure; a failed port's request goes again, with its tag, on the
next port. -/
def Obligations.FlitsInOrder : Prop := ∀ (s : State) n, s.shapeOk = true → let p := s.port n
  (∀ f, n < 18 → p.st = .up →
    (flitGood f = true → f.seq = p.ack + 1 → NoneAgain s → p.asking = false → ∃ t, exec (.flitReceive n f) s = .next t ∧ (t.port n).ack = f.seq ∧
      (∀ m, m ≠ n → t.port m = s.port m) ∧
      { besidePorts t with ctxs := [], quiet := [] } = { besidePorts s with ctxs := [], quiet := [] } ∧ t.sent = s.sent ∧
      (∀ x g y, p.buf = x ++ g :: y → g.seq = f.ack → (∀ z ∈ x, z.seq ≠ f.ack) → ∀ z ∈ x ++ [g], ∀ c,
        (z.dst.toNat, portLdie n, c) ∈ t.quiet ↔ Waiting t z.dst.toNat (portLdie n) ∧ c = (s.ldie (portLdie n)).cyc.toNat) ∧
      ∀ rest, Acks p.buf f.ack rest → (t.port n).buf = rest) ∧
    (flitGood f = true → (f.seq ≠ p.ack + 1 ∨ p.asking = true) → NoneAgain s → p.closing = false → ∀ rest, Acks p.buf f.ack rest →
      rest.length < 2048 → ∃ t g, exec (.flitReceive n f) s = .next t ∧ t.sent = s.sent ++ [.flit n g] ∧ flitGood g = true ∧ g.type = 6 ∧
        g.ack = (t.port n).ack ∧ (t.port n).ack = (if f.seq = p.ack + 1 then f.seq else p.ack) ∧ (t.port n).asking = false ∧
        (t.port n).buf = rest ++ [g] ∧ ∀ m, m ≠ n → t.port m = s.port m) ∧
    (flitGood f = false → (p.buf.length < 2048 → ∃ t g, exec (.flitReceive n f) s = .next t ∧
        Carries s t n g ∧ g.type = 6 ∧ g.ack = p.ack ∧ (t.port n).ack = p.ack ∧ besidePorts t = besidePorts s) ∧
      (2048 ≤ p.buf.length → ∃ t, exec (.flitReceive n f) s = .next t ∧ t.sent = s.sent ∧ besidePorts t = besidePorts s ∧
        ∀ m, t.port m = if m = n then { p with asking := true } else s.port m))) ∧
  (n < 18 → p.st = .up → p.buf ≠ [] → ∃ t, exec (.replay n) s = .next t ∧
    t.sent = s.sent ++ p.buf.map (fun f => Sent.flit n (sealFlit { f with ack := p.ack })) ∧
    (∀ m, t.port m = if m = n then { p with fails := p.fails + 1, replays := if p.replays = BitVec.allOnes 16 then p.replays else p.replays + 1 }
      else s.port m) ∧ besidePorts t = besidePorts s) ∧
  (∀ peer, n < 26 → p.st = .training → NoneAgain s → ∃ t, exec (.portTrained n peer) s = .next t ∧
    (∀ m, t.port m = if m = n then { p with st := .up, seq := 0, ack := 0, buf := [], asking := false, fails := 0
                                            peer := if n < 18 then BitVec.ofNat 10 peer else 0 } else s.port m) ∧
    t.sent = s.sent ∧ besidePorts t = besidePorts s) ∧
  (n < 26 → p.st = .training → p.train + 2 ^ 24 ≤ (s.ldie (portLdie n)).cyc.toNat → ∃ t, exec (.trainingTimeout n) s = .next t ∧
    (∀ m, t.port m = if m = n then { p with st := .failed } else s.port m) ∧ t.sent = s.sent ∧ besidePorts t = besidePorts s) ∧
  (n < 18 → p.st = .up → 16 ≤ p.fails → (∀ f ∈ p.buf, f.type.toNat ∈ [0, 1, 4, 6]) →
    (NoneAgain s → (∀ o ∈ s.outstanding, o.port = n → ∀ f ∈ p.buf, ¬ CarriesRequest f o) → ∃ t, exec (.portFail n) s = .next t ∧
      (∀ m, t.port m = if m = n then { p with st := .failed, buf := [], closing := false, asking := false } else s.port m) ∧
      t.sent = s.sent ∧ besidePorts t = besidePorts s) ∧
    ∀ o q m, s.outstanding = [o] → s.strays = [] → o.port = n → (∃ f ∈ p.buf, CarriesRequest f o) → o.tag < 256 → o.dev < 1024 → m ≠ n →
      q = (if o.coll.isSome then o.dev % 18 else (o.dev + o.va / 128 % 64) % 18) → NextUp { s with ports := s.ports.set n {} } o.dev q m →
      Room s o.ctx m → ∃ t f, exec (.portFail n) s = .next t ∧ (t.port n).st = .failed ∧ t.sent = s.sent ++ [.flit m f] ∧
        (t.port m).buf = (s.port m).buf ++ [f] ∧ f.tag.toNat = o.tag ∧ f.dst.toNat = o.dev ∧
        f.type = (if o.coll.isSome then 4 else 1) ∧ t.outstanding = [{ o with port := m, resent := true, again := false }])

namespace Sys2Proof.Claims

open Sys2Proof Sys2Proof.Machine

/-- An issue has met no fault yet, and has nothing on its way but one remote request and what its fibre waits for with it. -/
def NothingElse (s : State) (o : Outstanding) (fid : Nat) : Prop := let c := s.core o.core
  (∀ x ∈ s.stops, x.issue ≠ o.issue) ∧
  (∀ p ∈ s.pends, p.issue = o.issue → p.core = o.core ∧ p.slot = o.slot ∧ p.who = .fib fid) ∧
  (∀ y ∈ s.outstanding, y.core = o.core → y.ofIssue o.issue = true → y.ldie = o.ldie ∧ y.tag = o.tag) ∧
  (∀ e ∈ c.paths, e.issue ≠ o.issue) ∧ (∀ e ∈ c.coll, ∀ r ∈ e.wreqs, r.issue ≠ o.issue) ∧ ∀ r ∈ c.outb, r.ofIssue o.issue = false

end Sys2Proof.Claims

/-- R398–R401: a request of another device is answered, and performed once, one sent again with the reply recorded for it; a reply
ends its request and gives its data, its old values, its number or its fault to the parties, but the first one that tells of a failed
sector, for which the request goes again; a device that is lost, and no other, is given up. That the port of a reply is found by the
formula for a request is the model's reading (log 92, DEDUCED). -/
def Obligations.RemoteMemory : Prop :=
  (∀ (s : State) r m, s.shapeOk = true → NextUp s r.src.toNat ((r.src.toNat + r.va.toNat / 128 % 64) % 18) m → Room s r.ctx.toNat m →
    let again := r.resent = true ∧ ∃ y ∈ s.replies, y.1 = r.src ∧ y.2.1 = r.sld ∧ y.2.2.1 = r.tag
    let answers := fun (t : State) (x : RemoteRep) => ∃ f, exec (.remoteRequest r) s = .next t ∧ f.type = 2 ∧ f.tag = r.tag ∧ f.dst = r.src ∧
      CarriesWith s t m f [.reply r.src.toNat r.sld.toNat r.tag.toNat x]
    let gives := fun (x : RemoteRep) (u : State) => ∃ t, answers t x ∧ t.mem = u.mem ∧ t.seq = u.seq ∧ (r.src, r.sld, r.tag, x) ∈ t.replies
    let ctx := s.ctx r.ctx.toNat
    let right := match r.op with
      | .read _ => Right.read
      | .fetch => Right.fetch
      | _ => Right.write
    let info : BitVec 16 := if right = .write then 1 else 0
    (again → ∃ t x, answers t x ∧ (r.src, r.sld, r.tag, x) ∈ s.replies ∧ t.mem = s.mem ∧ t.seq = s.seq ∧ t.replies = s.replies) ∧
    (¬ again → r.intact = false → ∃ t, answers t .sector ∧ t.mem = s.mem ∧ t.seq = s.seq ∧ t.replies = s.replies) ∧
    (¬ again → r.intact = true → ctx.st ≠ .running ∨ s.walk r.ctx.toNat r.va.toNat = none → gives (.fault info) s) ∧
    ∀ l, ¬ again → r.intact = true → ctx.st = .running → s.walk r.ctx.toNat r.va.toNat = some l →
      (∀ i, l.check right r.sys r.va.toNat = .fault i → gives (.fault i) s) ∧
      (∀ pa, l.check right r.sys r.va.toNat = .ok pa → r.op = .write [] → gives (.data [] 0) s) ∧
      ∀ pa, l.check right r.sys r.va.toNat = .ok pa → s.lineHeld r.ctx.toNat pa = false → isMg pa = false →
        (r.op = .fetch → (s.bad pa 32 = true → gives .bad s) ∧ (s.bad pa 32 = false → gives (.data (s.mem.read pa 32) 0) s)) ∧
        (∀ n, r.op = .read n → (s.bad pa n = true → gives .bad s) ∧
          (s.bad pa n = false → gives (.data (s.mem.read pa n) 0) s)) ∧
        (∀ x, r.op = .write x → x ≠ [] → gives (.data [] (seqGet s.seq (pa / 128) + 1))
          (s.homeWrite ctx.priv (pa / 128 * 128) (x.map fun d => (Who.cox, pa + d.1 - r.va.toNat, d.2))).1) ∧
        ∀ op ty ops, r.op = .atomic op ty ops → (∀ sec, op ≠ .embsw sec) → s.bad pa (atomBytes ty) = false →
          gives (.data ((s.homeAtomic pa op ty ops).2.flatMap (leBytes (atomBytes ty))) 0) (s.homeAtomic pa op ty ops).1) ∧
  (∀ (s : State) l tag rep, (s.outstanding.find? fun o => o.ldie == l && o.tag == tag) = none → exec (.remoteReply l tag rep) s = .next s) ∧
  (∀ (s : State) o x n, (s.outstanding.find? fun y => y.ldie == o.ldie && y.tag == o.tag) = some o → o.coll = none → o.acq = none → o.image = false →
    let rest := s.outstanding.filter fun y => !(y.ldie == o.ldie && y.tag == o.tag)
    let gone := fun (t : State) => exec (.remoteReply o.ldie o.tag (.data x n)) s = .next t ∧ t.outstanding = rest ∧ t.mem = s.mem
    (∀ d, o.op = .write d → ∃ t, gone t ∧ ∀ w r fid, o.tags = [(w, r)] → w = .fib fid → ∀ f, s.fibAt o.core o.slot fid = some f →
      (r, o.issue) ∈ f.sb → t.fibAt o.core o.slot fid = some { (f.setReg r (n.zeroExtend 32)) with sb := f.sb.filter fun e => e != (r, o.issue) }) ∧
    (∀ op ty ops, o.op = .atomic op ty ops → (∀ sec, op ≠ .embsw sec) → ∃ t, gone t ∧ t.pends.length = s.pends.length ∧
      ∀ i a, o.lanes[i]? = some a → (∀ j b, o.lanes[j]? = some b → b.lane = a.lane → b.who = a.who → j = i) → ∀ p ∈ s.pends,
        p.issue = o.issue → p.core = o.core → p.slot = o.slot → p.lane = a.lane → p.who = a.who →
        { p with data := some (leBytes (atomBytes ty) (leNat ((x.drop (atomBytes ty * i)).take (atomBytes ty)))) } ∈ t.pends) ∧
    ∀ k p b, o.op = .read k → o.buf = false → o.parties ≠ [] → o.gath = [] → o.pools = [] → s.block? o.core o.slot = some b → p.gather = false →
      (s.pends.find? fun q => q.issue == o.issue && q.core == o.core && q.slot == o.slot && q.lane == o.lane) = some p →
      (s.pends.find? fun q => q.issue == o.issue && q.lane == o.lane && q.core == o.core && q.slot == o.slot) = some p →
      ∃ t, gone t ∧ t.pends = s.pends.filter (fun q => !samePend p q) ∧
        ∀ fid sz loc c g, p.who = .fib fid → p.kind = .load loc sz c g false →
          t.fibAt o.core o.slot fid = (s.fibAt o.core o.slot fid).map fun f => f.wrs (ldWrites false sz p.dst x)) ∧
  (∀ (s : State) o m, s.shapeOk = true → s.outstanding = [o] → s.strays = [] → o.retried = false → o.coll = none → o.tag < 256 → o.dev < 1024 →
    NextUp s o.dev ((o.dev + o.va / 128 % 64) % 18) m → Room s o.ctx m →
    ∃ t f, exec (.remoteReply o.ldie o.tag .sector) s = .next t ∧ Carries s t m f ∧ f.type = 1 ∧ f.tag.toNat = o.tag ∧ f.dst.toNat = o.dev ∧
      t.mem = s.mem ∧ t.blocks = s.blocks ∧ t.outstanding = [{ o with port := m, resent := true, again := false, retried := true }]) ∧
  (∀ (s : State) o rep fid b f, (s.outstanding.find? fun y => y.ldie == o.ldie && y.tag == o.tag) = some o → o.coll = none → o.buf = false →
    o.image = false → rep = .bad ∨ (rep = .sector ∧ o.retried = true) ∨ (∃ i, rep = .fault i) → o.parties = [.fib fid] → o.lanes = [] →
    (∀ w0 w1, o.op ≠ .record w0 w1) → o.op ≠ .fetch → (∀ p ∈ s.pends, p.cstOf o.core o.issue = false) →
    s.block? o.core o.slot = some b → b.fib? fid = some f → (s.ctx b.ctx).st ≠ .killing → o.gath = [] → o.pools = [] → o.also = [] →
    NothingElse s o fid → (∀ p ∈ b.parts, p.windows = []) →
    ∃ t g, exec (.remoteReply o.ldie o.tag rep) s = .next t ∧ t.fibAt o.core o.slot fid = some g ∧ g.life = .parked ∧ g.pc = o.pc ∧
      t.mem = s.mem ∧ g.wait = some (match rep with
        | .fault i => .fault 0x06 i (pageOf (0xE * 2 ^ 52 + o.dev * 2 ^ 42 + o.va))
        | _ => .fault 0x11 0 0)) ∧
  (∀ (s : State) d, d ∈ s.lostDevs ∨ ¬ Lost s d → exec (.destinationLost d) s = .next s) ∧
  ∀ (s : State) d, d ∉ s.lostDevs → Lost s d → (∀ o ∈ s.outstanding, o.dev ≠ d) → (∀ c ∈ s.ctxs, ∀ e ∈ c.eddy, d ∉ e.devs) →
    ∃ t, exec (.destinationLost d) s = .next t ∧ t.lostDevs = s.lostDevs ++ [d] ∧ t.mem = s.mem ∧ t.blocks = s.blocks ∧
      t.outstanding = s.outstanding ∧ ∀ c ∈ s.colls, c.status = none → c.started = true →
        (c.kind < 4 → d ∈ c.mem → { c with status := some (BitVec.ofNat 32 (0x10 * 2 ^ 24 + c.done)), todo := [], inbox := [], tell := [] } ∈ t.colls) ∧
        (c.kind < 4 → d ∉ c.mem → c ∈ t.colls)

namespace Sys2Proof.Claims

open Sys2Proof Sys2Proof.Machine

/-- The instructions of the collective engines: flags, kind, token and descriptor (R413–R415). -/
def collForms : Instr → Option (Hd × Nat × Ord × RegNo × RegNo)
  | .collRed h o d a => some (h, 0, o, d, a)
  | .collRs h o d a => some (h, 1, o, d, a)
  | .collAg h o d a => some (h, 2, o, d, a)
  | .collBc h o d a => some (h, 3, o, d, a)
  | .xdisp h o d a => some (h, 4, o, d, a)
  | .xfix h o d a => some (h, 5, o, d, a)
  | _ => none

/-- The commands that port 0 takes, by kind (R413). -/
inductive CollPort (l : Nat) : Nat → Instr → Prop
  | red : CollPort l 0 (.portRed l)
  | rs : CollPort l 1 (.portRs l)
  | ag : CollPort l 2 (.portAg l)
  | bc : CollPort l 3 (.portBc l)
  | xdisp : CollPort l 4 (.portXdisp l)
  | xfix : CollPort l 5 (.portXfix l)

/-- The commands that port 1 takes, by operation (R413). -/
inductive UePort (l : Nat) : Nat → Instr → Prop
  | write : UePort l 0 (.rmaWrite l)
  | read : UePort l 1 (.rmaRead l)
  | register : UePort l 2 (.registerWindow l)
  | release : UePort l 3 (.releaseWindow l)

/-- An RMA window of the device. -/
def win (s : State) (k : Nat) : RmaWin := (s.windows[k]?).getD {}

/-- What the read of a descriptor comes to: a status word, or its bytes (R404, R415). -/
inductive Described (s : State) (b : Block) (w : Who) (p : W64) : Option W32 → Option (List Byte) → Prop
  | space : 2 ≤ (p.extractLsb' 60 4).toNat → Described s b w p (some 0x07500000) none
  | wild : (p.extractLsb' 60 4).toNat < 2 → p.extractLsb' 56 4 ≠ 0 → Described s b w p (some 0x07000000) none
  | crooked : (p.extractLsb' 60 4).toNat < 2 → p.extractLsb' 56 4 = 0 → p.extractLsb' 0 6 ≠ 0 → Described s b w p (some 0x07200000) none
  | scratch {y} : (p.extractLsb' 60 4).toNat = 1 → p.extractLsb' 56 4 = 0 → p.extractLsb' 0 6 = 0 →
      (p.extractLsb' 0 56).toNat + 64 ≤ b.kr.ssize.toNat → s.getSpan b w (s.chkSpan b p 64 false) = .ok y →
      Described s b w p none (some y)
  | far : p.extractLsb' 60 4 = 0 → p.extractLsb' 56 4 = 0 → p.extractLsb' 0 6 = 0 → p.extractLsb' 52 4 = 0xE →
      Described s b w p (some 0x07500000) none
  | global {y} : p.extractLsb' 60 4 = 0 → p.extractLsb' 56 4 = 0 → p.extractLsb' 0 6 = 0 → p.extractLsb' 52 4 ≠ 0xE →
      s.getSpan b w (s.chkSpan b p 64 false) = .ok y → s.spanHeld b (s.chkSpan b p 64 false) = false →
      Described s b w p none (some y)

/-- The places of a range within one line that a context may use, outside the management registers; at a remote address of this device
the range is local (R399). -/
def OnLine (s : State) (ctx va n : Nat) (r : Right) (pa : Nat) : Prop :=
  ∃ l x, s.sysVa va = some x ∧ s.walk ctx x = some l ∧ l.check r false x = .ok pa ∧ 0 < n ∧ va % 128 + n ≤ 128 ∧ isMg pa = false

/-- Consecutive bytes of memory get values, and no other byte changes. -/
def Filled (s t : State) (pa : Nat) (x : List Byte) : Prop :=
  ∀ a, t.mem.get a = if pa ≤ a ∧ a < pa + x.length then (x[a - pa]?).getD 0 else s.mem.get a

/-- A command that a port has taken and not begun, with its entries. -/
def AtHead (s : State) (l port : Nat) (c : Cmd) (b : Block) (ents : List W64) : Prop :=
  (s.cmds.find? fun x => x.k == .coll && x.unit == l && x.port == port && x.result.isNone && !x.busy) = some c ∧
  s.block? c.core c.slot = some b ∧ c.ents.map (·.v) = ents

/-- A command ends with a result, and that is all that changes. -/
def Results (i : Instr) (s : State) (c : Cmd) (v : W64) : Prop :=
  exec i s = .next { s with cmds := s.cmds.map fun x => if x.seq == c.seq then { x with result := some [v] } else x }

/-- A peer record: its first 36 bytes and zeros. -/
def Peer (s : State) (b : Block) (q : W64) (rec : List Byte) : Prop :=
  (q.extractLsb' 60 4).toNat < 2 ∧ q.extractLsb' 56 4 = 0 ∧ ueBad b q 64 false = none ∧ s.bufRead b q 0 64 = .ok rec ∧ ∀ x ∈ rec.drop 36, x = 0

/-- The fields that ring neighbours compare, as the descriptor and the member table give them (R404, R405). -/
def fieldsOf (c : CollCmd) : CollFields := let d := fun (o n : Nat) => leNat (((c.desc.getD []).drop o).take n)
  { kind := c.kind, seq := d 36 4, count := c.count, nmem := c.g, mem := c.mem, wfmt := d 32 1, ofmt := d 33 1 }

/-- The bytes of a block that a member sends on or writes: sums of the widened arrivals and its own elements (R406). -/
def sums (f : Fmt) (x own : List Byte) : List Nat := (List.range 32).map fun i =>
  Fmt.f32.add .rne (mxWiden f ((x[i + 1]?).getD 0).toNat ((x[0]?).getD 0).toNat) (leNat ((own.drop (4 * i)).take 4))

end Sys2Proof.Claims

/-- R404, R413, R415: an engine takes a collective or a dispatch from an instruction or from its port, with its descriptor
or with the status word that refuses it. The model's readings: reason 5 for a descriptor at remote addresses (log 94, DEDUCED), and
reason 0 for nonzero bits 59:56 (log 77, DEDUCED). -/
def Sys2Proof.Claims.CollectivesAreTaken : Prop :=
  (∀ i h kind o d a, collForms i = some (h, kind, o, d, a) → ∀ s b x rest, Runs s b → s.shapeOk = true → s.views h = x :: rest →
    let l := b.core / 64
    s.held b.ctx (4 + l) .coll = false → s.mayReadNow b x.2.1 = true → ∀ st desc, Described s b x.2.1 (x.2.2.r64 a) st desc →
    ∃ t id, exec i s = .next t ∧ s.nextId ≤ id ∧ id < t.nextId ∧ besideLinks t b.core b.slot = besideLinks s b.core b.slot ∧ NoPort s t ∧
      Advances s t h (fun _ f => { f with sb := f.sb ++ [(d.toNat, id)] }) (fun c => { c with sb := c.sb ++ [(d.toNat, id)] }) ∧
      let ws := (s.views h).map fun y => y.2.1
      t.colls = s.colls ++ [{ id := id, ldie := l, core := b.core, slot := b.slot, ctx := b.ctx, kind := kind, parties := ws
                              after := ws.map fun w => (w, id), ptr := x.2.2.r64 a, o := o, dest := .regs (ws.map fun w => (w, d.toNat)), desc := desc, status := st }]) ∧
  ∀ (s : State) l kind i c b p f, s.shapeOk = true → CollPort l kind i → AtHead s l 0 c b [p, f] → (f.extractLsb' 0 4).toNat = kind →
    (f.extractLsb' 37 27 ≠ 0 ∨ f.extractLsb' 4 28 ≠ 0 ∨ 4 < (f.extractLsb' 32 3).toNat → Results i s c 0x07000000) ∧
    ∀ sc st desc, f.extractLsb' 37 27 = 0 → f.extractLsb' 4 28 = 0 → scopeOf (f.extractLsb' 32 3) = some sc →
      s.settled c.core c.slot c.after .core = true → Described s b (cmdWho c.seq) p st desc →
      ∃ t, exec i s = .next t ∧ t.mem = s.mem ∧ t.cmds = s.cmds.map (fun x => if x.seq == c.seq then { x with busy := true } else x) ∧
        t.colls = s.colls ++ [{ id := c.seq, ldie := l, core := c.core, slot := c.slot, ctx := b.ctx, kind := kind, parties := c.parties
                                after := c.after, ptr := p, o := { acq := f.getLsbD 35, rel := f.getLsbD 36, scope := sc }, dest := .queue c.q
                                desc := desc, status := st }]

/-- R405–R408: what comes to a member of a collective from the others: a ring neighbour's fields, which end the command where they
differ; a block of a reduction, which gets the member's own elements and goes on, or ends at the last member; a unit of a copy, which is
written once the unit before it in its share has been. A scale byte before 32 elements is the model's layout of a block (log 94,
DEDUCED). -/
def Sys2Proof.Claims.CollectiveBlocks : Prop := ∀ (s : State) c n x, c ∈ s.colls → (∀ y ∈ s.colls, y.id = c.id → y = c) →
  c.kind < 4 → c.started = true → c.status = none →
  let come := fun k fields data (t : State) (c' : CollCmd) => exec (.collectiveBlockArrive c.id k fields data) s = .next t ∧ t.mem = s.mem ∧
    t.blocks = s.blocks ∧ t.colls = s.colls.map fun y => if y.id == c.id then c' else y
  let put := come n none x
  (∀ dev y z, dev ∈ c.meet →
    (y ≠ fieldsOf c → ∃ t c', come dev (some y) z t c' ∧ c'.status = some 0x12000000 ∧ c'.todo = [] ∧ c'.done = c.done) ∧
    (y = fieldsOf c → ∃ t, come dev (some y) z t { c with meet := c.meet.filter fun d => d != dev })) ∧
  (∀ dev y z, dev ∉ c.meet → exec (.collectiveBlockArrive c.id dev (some y) z) s = .next s) ∧
  ∀ b, c.tell = [] → c.meet = [] → c.todo = [] → c.inbox = [] → s.block? c.core c.slot = some b → b.ctx = c.ctx → (s.ctx c.ctx).st = .running →
    (∀ own, c.kind < 2 → n < c.count / 32 → let place := (c.rank + c.g - n % c.g) % c.g
      place ≠ 0 → n ∉ c.seen → x.length = 33 → s.bufRead b (c.p 0) (128 * n) 128 = .ok own → own.length = 128 →
      ∃ t, put t { c with
        seen := n :: c.seen
        todo := if place + 1 = c.g then c.result n (if c.mx then quantBytes c.wire (sums c.wire x own) else f32Bytes (sums c.wire x own)) (c.kind == 0)
          else [sendTo (c.member (c.rank + 1)) n (quantBytes c.wire (sums c.wire x own))] }) ∧
    (c.kind = 2 → 0 < c.count / 128 → n / (c.count / 128) < c.g → n / (c.count / 128) ≠ c.rank → n ∉ c.seen → x.length = 128 →
      (n % (c.count / 128) = 0 ∨ n - 1 ∈ c.seen) → ∃ t m, put t { c with
        seen := n :: c.seen
        todo := sectors (c.p 8 + BitVec.ofNat 64 (n / (c.count / 128) * c.count + 128 * (n % (c.count / 128)))) x m }) ∧
    (c.kind = 3 → c.rank ≠ 0 → n < c.count / 128 → n ∉ c.seen → x.length = 128 → (n = 0 ∨ n - 1 ∈ c.seen) →
      ∃ t, put t { c with seen := n :: c.seen, todo := sectors (c.p 8 + BitVec.ofNat 64 (128 * n)) x true })

/-- R404–R407, R413, R415: collectives are taken, and their blocks go on. -/
def Obligations.Collectives : Prop := CollectivesAreTaken ∧ CollectiveBlocks

/-- R402, R403, R413: the Ultra Ethernet commands, what a packet for a window does, and where a message lands. -/
def Obligations.UltraEthernet : Prop :=
  (∀ (s : State) l c b p q f i op, AtHead s l 1 c b [p, q, f] → UePort l op i →
    f.extractLsb' 62 2 = BitVec.ofNat 2 op → let n := (f.extractLsb' 0 32).toNat
    let priv := (s.ctx b.ctx).priv
    let goes := fun (t : State) => exec i s = .next t ∧ t.mem = s.mem ∧ t.windows = s.windows ∧
      t.cmds = s.cmds.map fun x => if x.seq == c.seq then { x with busy := true } else x
    (f.extractLsb' 32 30 ≠ 0 → Results i s c 0x07000000) ∧
    (f.extractLsb' 32 30 = 0 →
      (2 ≤ op → priv = false → Results i s c 0x07500000) ∧
      (∀ y x rec, op = 0 → Peer s b q rec → ueBad b p n false = none → s.bufRead b p 0 n = .ok x → portLdie (18 + y) = l → y < 8 →
        (s.port (18 + y)).st = .up → ∃ t, goes t ∧ t.sent = s.sent ++ [.rmaWrite rec x]) ∧
      (∀ y rec, op = 1 → Peer s b q rec → ueBad b p n true = none → portLdie (18 + y) = l → y < 8 → (s.port (18 + y)).st = .up →
        ∃ t, goes t ∧ t.sent = s.sent ++ [.rmaRead rec n]) ∧
      (∀ rec, op = 2 → priv = true → Peer s b q rec → ueBad b p n true = none → s.windows.length = 64 →
        ((∀ w ∈ s.windows, w.owner ≠ none) → Results i s c 0x13000000) ∧
        ∀ k, (∀ j < k, (win s j).owner ≠ none) → k < 64 → (win s k).owner = none →
          ∃ t, exec i s = .next t ∧ t.mem = s.mem ∧ t.blocks = s.blocks ∧
            t.windows = s.windows.set k { owner := some b.ctx, key := BitVec.ofNat 64 (leNat ((rec.drop 20).take 8)), base := p, len := n
                                          core := b.core, slot := b.slot } ∧
            t.cmds = s.cmds.map fun x => if x.seq == c.seq then { x with result := some [BitVec.ofNat 64 k] } else x) ∧
      (op = 3 → priv = true → let own := n < 64 ∧ (win s n).owner = some b.ctx
        (¬ own → Results i s c 0x07000000) ∧
        (own → exec i s = .next { s with
          windows := s.windows.set n ({} : RmaWin)
          cmds := s.cmds.map fun x => if x.seq == c.seq then { x with result := some [0] } else x })))) ∧
  (∀ (s : State) ep key off, let w := win s (ep - 1)
    let reach := fun (n : Nat) => ep ≠ 0 ∧ w.owner ≠ none ∧ w.key = key ∧ off + n ≤ w.len
    let va := (w.base.extractLsb' 0 56).toNat + off
    let sends := fun (p : UePacket) (x : Sent) (t : State) => exec (.uePacketReceive p) s = .next t ∧ t.sent = s.sent ++ [x]
    (∀ x, ¬ reach x.length → ∃ t, sends (.rmaWrite ep key off x) .errorResponse t ∧ t.mem = s.mem) ∧
    (∀ n, ¬ reach n → ∃ t, sends (.rmaRead ep key off n) .errorResponse t ∧ t.mem = s.mem) ∧
    (∀ x pa ctx, s.memsOk = true → reach x.length → w.owner = some ctx → w.base.extractLsb' 60 4 = 0 → OnLine s ctx va x.length .write pa →
      s.lineHeld ctx pa = false → ∃ t, sends (.rmaWrite ep key off x) .ok t ∧ Filled s t pa x) ∧
    (∀ n pa ctx, reach n → w.owner = some ctx → w.base.extractLsb' 60 4 = 0 → OnLine s ctx va n .read pa → s.bad pa n = false →
      s.lineHeld ctx pa = false → ∃ t, sends (.rmaRead ep key off n) (.rmaData (s.mem.read pa n)) t ∧ t.mem = s.mem) ∧
    ∃ t, sends .unsupported .unsupported t ∧ t.mem = s.mem) ∧
  ∀ (s : State) msg, let sends := fun (x : Sent) (t : State) => exec (.commandMessageArrive msg) s = .next t ∧ t.sent = s.sent ++ [x]
    (∃ y < 8, (s.port (18 + y)).st = .up) →
    (65536 < msg.length → ∃ t, sends .tooLong t ∧ t.mem = s.mem ∧ t.hrq = s.hrq) ∧
    (msg.length ≤ 65536 → (256 ≤ s.hrq.length ∨ ∀ u ∈ s.rxBufs, u = true) → ∃ t, sends .withheld t ∧ t.mem = s.mem ∧ t.hrq = s.hrq) ∧
    ∀ i pa, s.memsOk = true → let a := s.rxBase + BitVec.ofNat 64 (65536 * i)
      s.hrq.length < 256 → s.rxBufs[i]? = some false → (∀ j < i, s.rxBufs[j]? = some true) → a.extractLsb' 60 4 = 0 →
      OnLine s s.rxCtx (a.extractLsb' 0 56).toNat msg.length .write pa →
      s.lineHeld s.rxCtx pa = false → ∃ t, sends .ok t ∧ t.hrq = s.hrq ++ [a] ∧ t.rxBufs = s.rxBufs.set i true ∧ Filled s t pa msg

/-! ### Contexts, traps and special registers (R93–R114) -/

namespace Sys2Proof.Claims

open Sys2Proof Sys2Proof.Machine

/-- The cox thread makes its writes and goes on, and no fibre of its block changes. -/
def CoxGets (s t : State) (ws : List Wr) : Prop :=
  t.myCox.map Cox.bare = s.myCox.map (fun c => { (ws.foldl Cox.wr c).bare with pc := s.nextPc }) ∧ ∀ fid, t.myFib fid = s.myFib fid

/-- All but the registers of a block that its programs set. -/
def besideBlock (s : State) (core slot : Nat) : State :=
  let q := s.still core slot
  { q with blocks := q.blocks.map fun b =>
      if b.at core slot then { b with scb := 0, scs := 0, xvec := none, walker := {}, stgres := [] } else b }

/-- Only the registers of a block that its programs set have changed. -/
def Keeps (s t : State) (b b' : Block) : Prop :=
  t.me = some b' ∧ besideBlock t b.core b.slot = besideBlock s b.core b.slot

/-- What a special register holds for a party (Tables 1-7, 1-8 and 5-8). -/
def special (s : State) (b : Block) (v : View) (n : Nat) : W64 :=
  let die := s.cdie (b.core / 32)
  let part : Nat := if v.isCox then 0 else s.curPart
  let own := fun (f : Fibre → W64) => (match v with
    | .fib x => f x
    | .cox _ => 0 : W64)
  if n = 0x00 then BitVec.ofNat 64 (part * 16384 + b.core / 32 * 4096 + b.core / 8 * 256 + b.core)
  else if n = 0x01 then own fun x => BitVec.ofNat 64 x.col
  else if n = 0x02 then own fun x => BitVec.ofNat 64 x.fid
  else if n = 0x03 then BitVec.ofNat 64 s.gmask
  else if n = 0x04 then b.blk
  else if n = 0x05 then b.nblk
  else if n = 0x06 then BitVec.ofNat 64 b.ctx
  else if n = 0x07 then die.cyc
  else if n = 0x08 then die.cyc >>> 16
  else if n = 0x09 then own fun x => if x.nftrap then 1 else 0
  else if n = 0x0A then b.scb
  else if n = 0x0B then b.scs.zeroExtend 64
  else if n = 0x0C then (s.core b.core).wake.zeroExtend 64
  else if n = 0x0D then BitVec.ofNat 64 s.svc
  else if n = 0x10 then own fun x => x.x.xf0.zeroExtend 64
  else if n = 0x11 then own fun x => x.x.xf1.zeroExtend 64
  else if n = 0x12 then own fun x => x.x.xf2.zeroExtend 64
  else if n = 0x13 then own fun x => x.x.xf3.zeroExtend 64
  else if n = 0x14 then own fun x => x.x.xinst
  else if n = 0x15 then own fun x => x.x.xext
  else if n = 0x16 then own fun x => x.x.xcause.zeroExtend 64
  else if n = 0x17 then own fun x => x.x.xpc
  else 0

/-- The special registers of 64 bits. -/
def special64 : List Nat := [0x04, 0x05, 0x07, 0x08, 0x0A, 0x14, 0x15, 0x17]

/-- Where a lane goes on from its handler (R94, R113): at `%xpc`, or past the instruction there. -/
def resumeAt (past : Bool) (x : XRegs) : W64 :=
  let len : W64 := if x.xf0.extractLsb' 30 2 = 1 then 12 else if x.xf0.extractLsb' 30 2 = 2 then 16 else 8
  if past then x.xpc + len else x.xpc

/-- The record of a fault (Table 5-3). -/
def recordOf (info : BitVec 16) (code : BitVec 8) (cox : Bool) (part core ctx : Nat) (pc : W64) (n slot fid : Nat) : List W64 :=
  [info ++ code ++ (if cox then (1 : BitVec 1) else 0) ++ BitVec.ofNat 2 part ++ BitVec.ofNat 7 core ++ BitVec.ofNat 6 ctx ++ (0 : BitVec 24),
   pc, 0, BitVec.ofNat 16 n ++ BitVec.ofNat 16 slot ++ BitVec.ofNat 32 fid]

def recWords (r : Rec) : List W64 := [r.w0, r.w1, r.w2, r.w3]

/-- The fault queue of a context's supervisor has room. -/
def QueueRoom (s : State) (ctx sup : Nat) : Prop :=
  (s.ctx ctx).creator = some sup ∧ sup < s.ctxs.length ∧ (s.ctx sup).faultQ.length < 256 ∧ (s.ctx sup).waiting = []

end Sys2Proof.Claims

/-- R23, R24, R111, R112: what `srd` reads and `swr` writes. -/
def Sys2Proof.Claims.SpecialRegisters : Prop :=
  (∀ h d (n : BitVec 8) s b,
    let wr := fun (v : View) => if n.toNat ∈ special64 then v.w64 d (special s b v n.toNat) else [v.w32 d ((special s b v n.toNat).truncate 32)]
    (CoxIssuing s b → ∃ t, exec (.srd h d n) s = .next t ∧ CoxWrites s t (wr (.cox b.cox))) ∧
    ∀ p, Issuing s b p → ∃ t, exec (.srd h d n) s = .next t ∧ Writes s t h fun _ x => wr (.fib x.2)) ∧
  (∀ h a s b p, Issuing s b p → ∃ t, exec (.swr h a 0x09) s = .next t ∧ Writes s t h fun _ x => [.nft ((x.2.reg a.toNat).getLsbD 0)]) ∧
  ∀ h a (n : BitVec 8) s b x, Runs s b → (s.views h).getLast? = some x → n ≠ 0x09 → ∃ t b', exec (.swr h a n) s = .next t ∧ GoesOn s t h ∧
    Keeps s t b b' ∧ b'.xvec = b.xvec ∧ b'.walker = b.walker ∧ b'.stgres = b.stgres ∧
    b'.scb = (if n = 0x0A then x.2.2.r64 a else b.scb) ∧
    b'.scs = if n = 0x0B then BitVec.ofNat 8 (Nat.min 63 ((x.2.2.r32 a).extractLsb' 0 8).toNat) else b.scs

/-- R94, R113: the trap vector, the return from a trap, and `yield`. -/
def Sys2Proof.Claims.TrapReturns : Prop :=
  (∀ i h v, (∃ t, i = .xvec h t ∧ v = some t) ∨ (i = .xvecClr h ∧ v = none) → ∀ s b, Runs s b → s.views h ≠ [] →
    ∃ t b', exec i s = .next t ∧ GoesOn s t h ∧ Keeps s t b b' ∧ b'.xvec = v ∧ b'.scb = b.scb ∧ b'.scs = b.scs ∧ b'.walker = b.walker ∧
      b'.stgres = b.stgres) ∧
  (∀ i h past, (i = .xret h ∧ past = false) ∨ (i = .xretSkip h ∧ past = true) → ∀ s b p, Issuing s b p →
    (∀ x ∈ s.act h, x.2.x.xcause.extractLsb' 0 8 ≠ 0) → ∃ t, exec i s = .next t ∧ t.myCox = s.myCox ∧
      t.still s.cur.core s.cur.slot = s.still s.cur.core s.cur.slot ∧
      ∀ fid f, s.myFib fid = some f → t.myFib fid = some (
        if ∃ x ∈ s.act h, x.2.fid = fid then { f with pc := resumeAt past f.x, x := { f.x with xcause := 0 } }
        else if Who.fib fid ∈ s.issuers then { f with pc := s.nextPc } else f)) ∧
  ∀ h s b, Runs s b → s.views h ≠ [] → ∃ t b', exec (.yield h) s = .next t ∧ GoesOn s t h ∧ t.me = some b' ∧
    t.still b.core b.slot = s.still b.core b.slot ∧
    (s.cur.th = .cox → b'.cox.yielded = true) ∧ ∀ id, s.cur.th = .part id → ∀ q ∈ b'.parts, q.id = id → q.yielded = true

/-- R94, R111–R113: special registers, the trap vector, the return from a trap, and `yield`. -/
def Obligations.RegistersAndTraps : Prop := SpecialRegisters ∧ TrapReturns

/-- R93, R94, R101–R103: taking an exception: an H-class fault of a fibre enters the handler with its trap registers, or
parks with no vector; an S-class fault, and any fault of a cox thread, parks and posts its record to the supervisor. -/
def Obligations.FaultsAreTaken : Prop := ∀ (s : State) b (f : Flt) xf3, s.me = some b →
  (∀ fid g, b.fib? fid = some g → s.cur.th ≠ .cox → let t := s.deliver xf3 [(.fib fid, f)]
    let regs : XRegs := { xf0 := s.cur.xf0, xf1 := s.cur.xf1, xf2 := s.cur.xf2, xf3 := xf3, xinst := s.cur.base, xext := s.cur.ext
                          xcause := f.info ++ (0 : BitVec 8) ++ f.code, xpc := s.cur.pc }
    t.mem = s.mem ∧ t.cores = s.cores ∧ (∀ o, o ≠ fid → t.myFib o = s.myFib o) ∧ t.myCox = s.myCox ∧
    (f.code.toNat ∈ [1, 2, 3, 5, 7, 8, 9, 10, 12, 13] →
      (∀ v, b.xvec = some v → t.myFib fid = some { g with x := regs, pc := v.zeroExtend 64, life := .ready, wait := none } ∧ t.ctxs = s.ctxs) ∧
      ∀ sup, b.xvec = none → QueueRoom s b.ctx sup →
        t.myFib fid = some { g with x := regs, pc := s.cur.pc, life := .parked, wait := some (.fault 0x0F (f.code.zeroExtend 16) 0) } ∧
        ∃ r, (t.ctx sup).faultQ = (s.ctx sup).faultQ ++ [r] ∧
          recWords r = recordOf (f.code.zeroExtend 16) 0x0F false s.curPart b.core b.ctx s.cur.pc 1 b.slot fid) ∧
    (f.code.toNat ∈ [4, 11, 17] → ∀ sup, QueueRoom s b.ctx sup →
      t.myFib fid = some { g with x := { g.x with xpc := s.cur.pc }, pc := s.cur.pc, life := .parked, wait := some (.fault f.code f.info f.page) } ∧
      ∃ r, (t.ctx sup).faultQ = (s.ctx sup).faultQ ++ [r] ∧
        recWords r = recordOf f.info f.code false s.curPart b.core b.ctx s.cur.pc 1 b.slot fid)) ∧
  ∀ sup, s.cur.th = .cox → f.code ≠ 0x06 → QueueRoom s b.ctx sup → let t := s.deliver xf3 [(.cox, f)]
    t.mem = s.mem ∧ t.cores = s.cores ∧ (∀ o, t.myFib o = s.myFib o) ∧
    t.myCox = s.myCox.map (fun c => { c with wait := some (.fault f.code f.info f.page) }) ∧
    ∃ r, (t.ctx sup).faultQ = (s.ctx sup).faultQ ++ [r] ∧ recWords r = recordOf f.info f.code true 0 b.core b.ctx s.cur.pc 1 b.slot 0

namespace Sys2Proof.Claims

open Sys2Proof Sys2Proof.Machine

/-- All but the contexts. -/
def besideCtxs (s : State) (core slot : Nat) : State := { s.still core slot with ctxs := [] }

/-- Only one context has changed, to a given state; what a context is charged apart. -/
def OneCtx (s t : State) (core slot n : Nat) (c : Ctx) : Prop :=
  besideCtxs t core slot = besideCtxs s core slot ∧ ∀ m, (t.ctx m).still = if m = n then c.still else (s.ctx m).still

/-- All but what the launches of a context and its becalmed cores are told by its resumption (R109, R116). -/
def unrequested (s : State) : State := { s with launches := [], cores := s.cores.map fun (c : Core) => { c with wakeReq := none } }

/-- The forms of `ctxctl` on a context, with the states in which each acts (Table 5-1). -/
def ctxOps : Instr → Option (RegNo × RegNo × (Ctx → Prop))
  | .ctxctlStart _ d a _ => some (d, a, fun c => c.st = .ready ∧ c.root ≠ none)
  | .ctxctlStop _ d a _ => some (d, a, fun c => c.st = .running)
  | .ctxctlResume _ d a _ => some (d, a, fun c => c.st = .running ∨ c.st = .stopped)
  | .ctxctlKill _ d a _ => some (d, a, fun c => c.st = .running ∨ c.st = .draining ∨ c.st = .stopped ∨ c.st = .saved)
  | .ctxctlFree _ d a _ => some (d, a, fun c => c.st = .ready)
  | .ctxctlReflect _ d a _ => some (d, a, fun c => c.st = .running)
  | _ => none

/-- The context that a register names. -/
def named (k : Block) (a : RegNo) : Nat := ((k.cox.reg a.toNat).extractLsb' 0 6).toNat

/-- A cox thread issues, in a device of the right shape with one block in a place, for a context that is not its own
supervisor (R97). -/
structure Supervises (s : State) (k : Block) : Prop where
  cox : CoxIssuing s k
  shape : s.shapeOk = true
  places : s.placesOk = true
  ctx : k.ctx < 64
  other : (s.ctx k.ctx).creator ≠ some k.ctx

/-- An instruction answers with one word. -/
def Answers (i : Instr) (s t : State) (d : RegNo) (x : Nat) : Prop :=
  exec i s = .next t ∧ CoxGets s t [.s d.toNat (BitVec.ofNat 64 x)]

/-- All that a form over an area leaves alone: the walks of its pages and the area's lines have their traffic (R104, R241, R257). -/
def besideWalks (s : State) (core slot : Nat) : State :=
  let q := s.still core slot
  { q with
    cores := q.cores.map fun c => { c with tlb := [] }
    cdies := q.cdies.map fun d => { d with dtc := [], l2 := [] } }

/-- A context has no translation and no code left on any core or die. -/
def Dropped (t : State) (n : Nat) : Prop :=
  (∀ c ∈ t.cores, (∀ e ∈ c.tlb, e.ctx ≠ n) ∧ ∀ e ∈ c.icache, e.1 ≠ n) ∧ ∀ d ∈ t.cdies, ∀ e ∈ d.dtc, e.ctx ≠ n

end Sys2Proof.Claims

/-- R97, R98, R100, R105–R107, R114: the states of contexts: what each form answers and does, and the end of a drain. -/
def Obligations.ContextStates : Prop :=
  (∀ i d a ok, ctxOps i = some (d, a, ok) → ∀ s k, Supervises s k → let c := s.ctx (named k a)
    (c.creator ≠ some k.ctx → ∃ t, Answers i s t d 2 ∧ t.still k.core k.slot = s.still k.core k.slot) ∧
    (c.creator = some k.ctx → ¬ ok c → ∃ t, Answers i s t d 1 ∧ t.still k.core k.slot = s.still k.core k.slot) ∧
    (c.creator = some k.ctx → ok c → ∃ t, Answers i s t d 0 ∧ t.mem = s.mem)) ∧
  (∀ h d a b s k, Supervises s k → let y := k.cox.reg b.toNat
    (y.getLsbD 0 = true → (s.ctx k.ctx).priv = false →
      ∃ t, Answers (.ctxctlCreate h d a b) s t d 8 ∧ t.still k.core k.slot = s.still k.core k.slot) ∧
    (y.getLsbD 0 = false ∨ (s.ctx k.ctx).priv = true →
      ((∀ m < 64, (s.ctx m).st ≠ .free) → ∃ t, Answers (.ctxctlCreate h d a b) s t d 3 ∧ t.still k.core k.slot = s.still k.core k.slot) ∧
      ∀ n < 64, (s.ctx n).st = .free → (∀ m < n, (s.ctx m).st ≠ .free) → ∃ t, Answers (.ctxctlCreate h d a b) s t d (256 * n) ∧
        OneCtx s t k.core k.slot n { st := .ready, priv := y.getLsbD 0, creator := some k.ctx, prio := y.extractLsb' 4 4 })) ∧
  (∀ h d a b s k, Supervises s k → let n := named k a
    (s.ctx n).creator = some k.ctx →
    ((s.ctx n).st = .ready → (s.ctx n).root ≠ none → ∃ t, Answers (.ctxctlStart h d a b) s t d 0 ∧
      OneCtx s t k.core k.slot n { s.ctx n with st := .running }) ∧
    ((s.ctx n).st = .running → ∃ t, Answers (.ctxctlStop h d a b) s t d 0 ∧ OneCtx s t k.core k.slot n { s.ctx n with st := .draining }) ∧
    ((s.ctx n).st = .stopped → ∃ t, Answers (.ctxctlResume h d a b) s t d 0 ∧
      OneCtx (unrequested s) (unrequested t) k.core k.slot n { s.ctx n with st := .running } ∧
      ∀ q ∈ s.blocks, q.ctx = n → (s.core q.core).becalmed = true → (s.core q.core).wake ≠ 0 → (t.core q.core).wakeReq ≠ none) ∧
    ((s.ctx n).st = .running → ∃ t, Answers (.ctxctlResume h d a b) s t d 0 ∧ ∀ core slot q, s.block? core slot = some q → q.ctx = n →
      (∀ f ∈ q.fibres, s.heldBack n core slot (.fib f.fid) = false → q.fib? f.fid = some f →
        ((∃ c i p, f.wait = some (.fault c i p)) → t.fibAt core slot f.fid = some { f with life := .ready, wait := none, stuck := false }) ∧
        ((∀ c i p, f.wait ≠ some (.fault c i p)) → t.fibAt core slot f.fid = some { f with stuck := false })) ∧
      (s.heldBack n core slot .cox = false → (∃ c i p, q.cox.wait = some (.fault c i p)) →
        t.coxAt core slot = some { q.cox with wait := none })) ∧
    ((s.ctx n).st = .running →
      ∃ t, Answers (.ctxctlReflect h d a b) s t d 0 ∧ ∀ core slot q v, s.block? core slot = some q → q.ctx = n → q.xvec = some v →
        ∀ f ∈ q.fibres, ∀ i p, s.heldBack n core slot (.fib f.fid) = false → f.wait = some (.fault 0x06 i p) →
          ∃ g, t.fibAt core slot f.fid = some g ∧ g.pc = v.zeroExtend 64 ∧ g.life = .ready ∧ g.wait = none ∧ g.regs = f.regs ∧
            g.x.xpc = f.pc ∧ g.x.xcause = i ++ (0 : BitVec 8) ++ (6 : BitVec 8)) ∧
    ((s.ctx n).st ∈ [.running, .draining, .stopped, .saved] → ∃ t, Answers (.ctxctlKill h d a b) s t d 0 ∧
      (t.ctx n).st = .killing ∧ (t.ctx n).root = (s.ctx n).root ∧ t.mem = s.mem ∧ (∀ w ∈ t.windows, w.owner ≠ some n) ∧
      (∀ l ∈ s.launches, l.ctx = n → l.parked = true → (∃ st, l.st = .finishing st) → some l.num ∉ (t.ctx n).gown) ∧
      (∀ q ∈ t.blocks, q.ctx = n → q.fibres = [] ∧ q.cox.ended = true ∧ ∀ x ∈ q.bars, x.st = .abandoned) ∧
      ∀ l ∈ t.launches, l.ctx = n → ∃ st, l.st = .finishing st) ∧
    ((s.ctx n).st = .ready → ∃ t, Answers (.ctxctlFree h d a b) s t d 0 ∧ t.ctx n = {} ∧ t.mem = s.mem ∧ Dropped t n ∧
      (∀ w ∈ t.windows, w.owner ≠ some n) ∧ (∀ l ∈ t.launches, l.ctx ≠ n) ∧
      ∀ r ∈ (t.ctx k.ctx).faultQ, (r.w0.extractLsb' 24 6).toNat ≠ n)) ∧
  ∀ (s : State) n, s.shapeOk = true → n < 64 →
    (s.drained' n = false → exec (.drainComplete n) s = .next s) ∧
    (s.drained' n = true → (s.ctx n).st = .draining → ∃ t, exec (.drainComplete n) s = .next t ∧
      { t with ctxs := [], cores := t.cores.map Core.still } = { s with ctxs := [], cores := s.cores.map Core.still } ∧
      ∀ m, t.ctx m = if m = n then { s.ctx n with st := .stopped, imgSeed := s.tick } else s.ctx m) ∧
    (s.drained' n = true → (s.ctx n).st = .killing → ∃ t, exec (.drainComplete n) s = .next t ∧ (t.ctx n).st = .ready ∧
      (t.ctx n).root = (s.ctx n).root ∧ t.mem = s.mem ∧ (∀ q ∈ t.blocks, q.ctx ≠ n) ∧ ∀ q ∈ s.blocks, q.ctx ≠ n →
        (∀ x ∈ s.blocks, x.ctx = n → x.core ≠ q.core ∨ x.slot ≠ q.slot) → q ∈ t.blocks)

/-- R100, R108, R113, R114: the image of a context is written and read back, and its root is set. The bits that a status leaves
above its number are zero (the model's choice: log 109, DESIGN CHOICE); a new root drops the copies of code too (the model's reading:
log 37, DEDUCED); the lines of an area on other devices are asked there one after another, first for the right to write, and an answer
that fails gives status 6 (R399; the model's reading: log 36, DEDUCED). -/
def Obligations.ContextImages : Prop :=
  (∀ h d a b c s k, Supervises s k → let n := named k a
    let len := imageLen (s.ctx n).imgSeed
    let room := (k.cox.reg c.toNat).toNat
    let va := k.cox.reg b.toNat
    let i := Instr.ctxsave h d a b c
    let area := s.areaOk k va (Nat.min len room) .write
    let rights := s.farAsk k (s.farRights va.toNat (Nat.min len room))
    let writes := s.farAsk k (s.farWrites va.toNat len (s.ctx n).imgSeed)
    let same := fun (t : State) => besideWalks t k.core k.slot = besideWalks s k.core k.slot
    ((s.ctx n).creator ≠ some k.ctx → ∃ t, Answers i s t d 2 ∧ t.still k.core k.slot = s.still k.core k.slot) ∧
    ((s.ctx n).creator = some k.ctx → (s.ctx n).st = .draining → exec i s = .next s) ∧
    ((s.ctx n).creator = some k.ctx → (s.ctx n).st ∉ [.draining, .stopped] →
      ∃ t, Answers i s t d 1 ∧ t.still k.core k.slot = s.still k.core k.slot) ∧
    ((s.ctx n).creator = some k.ctx → (s.ctx n).st = .stopped →
      (area = none → exec i s = .next s) ∧
      (area = some false → ∃ t, Answers i s t d 6 ∧ same t) ∧
      (∀ dev x op, area = some true → rights = .need dev x op → exec i s = .next (s.askOp k .cox dev x op true)) ∧
      (area = some true → rights = .bad 6 → ∃ t, Answers i s t d 6 ∧ same t) ∧
      (area = some true → rights = .done → room < len → ∃ t, Answers i s t d (len + 5) ∧ same t) ∧
      (∀ dev x op, area = some true → rights = .done → len ≤ room → writes = .need dev x op →
        exec i s = .next (s.askOp k .cox dev x op true)) ∧
      (area = some true → rights = .done → len ≤ room → writes = .bad 6 → ∃ t, Answers i s t d 6 ∧ same t) ∧
      (area = some true → rights = .done → len ≤ room → writes = .done → ∃ t x, Answers i s t d len ∧ len % 256 = 0 ∧ (t.ctx n).st = .saved ∧
        (∀ q ∈ t.blocks, q.ctx ≠ n) ∧ t.saved = s.saved ++ [x] ∧ x.ctx = n ∧ x.len = len ∧ x.blocks = s.blocksOf n ∧
        x.groups = s.groups.filter (fun g => g.ctx == n)))) ∧
  (∀ h d a b s k, Supervises s k → let n := named k a
    let va := k.cox.reg b.toNat
    let i := Instr.ctxrest h d a b
    ((s.ctx n).creator ≠ some k.ctx → ∃ t, Answers i s t d 2 ∧ t.still k.core k.slot = s.still k.core k.slot) ∧
    ((s.ctx n).creator = some k.ctx → (s.ctx n).st ≠ .saved → ∃ t, Answers i s t d 1 ∧ t.still k.core k.slot = s.still k.core k.slot) ∧
    ∀ x, (s.ctx n).creator = some k.ctx → (s.ctx n).st = .saved → (s.saved.find? fun y => y.ctx == n) = some x →
      let image := (List.range x.len).map fun i => Config.imageByte x.seed i
      let same := fun (t : State) => besideWalks t k.core k.slot = besideWalks s k.core k.slot
      let reads := s.farAsk k (s.farReads va.toNat x.len)
      let whole := s.areaOk k va x.len .read = some true ∧ reads = .done ∧ s.areaBad k va.toNat x.len = false
      (s.areaOk k va x.len .read = none → exec i s = .next s) ∧
      (s.areaOk k va x.len .read = some false → ∃ t, Answers i s t d 6 ∧ same t) ∧
      (∀ dev y op, s.areaOk k va x.len .read = some true → reads = .need dev y op → exec i s = .next (s.askOp k .cox dev y op true)) ∧
      (s.areaOk k va x.len .read = some true → reads = .bad 6 → ∃ t, Answers i s t d 6 ∧ same t) ∧
      (s.areaOk k va x.len .read = some true → reads = .done ∧ s.areaBad k va.toNat x.len = true ∨ reads = .bad 0x11 →
        ∃ t, exec i s = .next t ∧ t.mem = s.mem ∧ t.saved = s.saved ∧ (t.ctx n).st = .saved) ∧
      (whole → s.getArea k va.toNat x.len ≠ image → ∃ t, Answers i s t d 7 ∧ same t) ∧
      (whole → s.getArea k va.toNat x.len = image → s.fitAll x.blocks = false → ∃ t, Answers i s t d 4 ∧ same t) ∧
      (whole → s.getArea k va.toNat x.len = image → s.fitAll x.blocks = true →
        (∀ r ∈ x.arrs, (s.arr r.1).st = .free) → (∀ r ∈ x.banks, (s.core r.1).bank.holder = none) →
        ∃ t, Answers i s t d 0 ∧ (t.ctx n).st = .stopped ∧ t.mem = s.mem ∧ t.saved = s.saved.filter (fun y => y.ctx != n) ∧
          (∀ q ∈ x.blocks, q.at k.core k.slot = false → q ∈ t.blocks) ∧ t.cmds = s.cmds ++ x.cmds ∧ t.groups = s.groups ++ x.groups)) ∧
  (∀ (s : State) b dev va op m, s.shapeOk = true → dev < 1024 → (∀ o ∈ s.outstanding, o.dev ≠ dev) →
    (∀ o ∈ s.outstanding, ¬ (o.buf = true ∧ o.core = b.core ∧ o.slot = b.slot)) → NextUp s dev ((dev + va / 128 % 64) % 18) m →
    Room s b.ctx m → (∃ g < 256, ∀ o ∈ s.outstanding, ¬ (o.ldie = portLdie m ∧ o.tag = g)) →
    let t := s.askOp b .cox dev va op true
    ∃ f o, Carries s t m f ∧ f.type = 1 ∧ f.dst.toNat = dev ∧ CarriesRequest f o ∧ t.outstanding = s.outstanding ++ [o] ∧ o.dev = dev ∧
      o.va = va ∧ o.op = op ∧ o.sys = true ∧ o.buf = true ∧ o.parties = [.cox] ∧ o.port = m ∧ t.mem = s.mem ∧ t.blocks = s.blocks) ∧
  ∀ h d a b s k, Supervises s k → let n := named k a
    let y := k.cox.reg b.toNat
    let i := Instr.ptroot h d a b
    let ok := (s.ctx n).st = .ready ∨ (s.ctx n).st = .running ∨ (s.ctx n).st = .stopped
    ((s.ctx n).creator ≠ some k.ctx → ∃ t, Answers i s t d 2 ∧ t.still k.core k.slot = s.still k.core k.slot) ∧
    ((s.ctx n).creator = some k.ctx → ¬ ok → ∃ t, Answers i s t d 1 ∧ t.still k.core k.slot = s.still k.core k.slot) ∧
    ((s.ctx n).creator = some k.ctx → ok → y.extractLsb' 0 12 ≠ 0 → ∃ t, Answers i s t d 6 ∧ t.still k.core k.slot = s.still k.core k.slot) ∧
    ((s.ctx n).creator = some k.ctx → ok → y.extractLsb' 0 12 = 0 → (∀ e ∈ (s.ctx n).eddy, e.cmds = [] ∨ e.xl = []) →
      ∃ t, Answers i s t d 0 ∧ (t.ctx n).root = some y.toNat ∧ (t.ctx n).st = (s.ctx n).st ∧ t.mem = s.mem ∧ Dropped t n ∧
        (∀ e ∈ (t.ctx n).eddy, e.xl = []) ∧ ∀ m, m ≠ n → (t.ctx m).still = (s.ctx m).still)

/-- R99, R103, R104, R113: the fault queue, budgets, priorities and strokes. That `bgrd` answers for every context, with the budget
that was set last, is the model's choice (log 107, DESIGN CHOICE). -/
def Obligations.QueuesAndBudgets : Prop :=
  (∀ h d s k, Supervises s k → let c := s.ctx k.ctx
    let ws := match c.faultQ with
      | r :: _ => recWords r
      | [] => [0, 0, 0, 0]
    let q := c.faultQ.drop 1
    ∃ t, exec (.frpop h d) s = .next t ∧ CoxGets s t (ws.zipIdx.map fun x => .s (d.toNat + x.2) x.1) ∧
      OneCtx s t k.core k.slot k.ctx { c with faultQ := q ++ c.waiting.take (256 - q.length), waiting := c.waiting.drop (256 - q.length) }) ∧
  (∀ h cl a b s k, Supervises s k → let n := named k a
    ((s.ctx n).creator = some k.ctx → ∃ t, exec (.bgset h cl a b) s = .next t ∧ CoxGets s t [] ∧
      OneCtx s t k.core k.slot n { s.ctx n with budget := (s.ctx n).budget.set (bIdx cl) ((k.cox.reg b.toNat).extractLsb' 0 32) }) ∧
    ((s.ctx n).creator = some k.ctx → ∃ t, exec (.ctxprio h a b) s = .next t ∧ CoxGets s t [] ∧
      OneCtx s t k.core k.slot n { s.ctx n with prio := (k.cox.reg b.toNat).extractLsb' 0 4 }) ∧
    ((s.ctx n).creator ≠ some k.ctx → ∀ i, i = Instr.bgset h cl a b ∨ i = .ctxprio h a b → ∃ t, exec i s = .next t ∧ CoxGets s t [] ∧
      t.still k.core k.slot = s.still k.core k.slot)) ∧
  (∀ h cl d a s k, CoxIssuing s k → let c := s.ctx (named k a)
    ∃ t, exec (.bgrd h cl d a) s = .next t ∧ t.still k.core k.slot = s.still k.core k.slot ∧
      CoxGets s t [.s d.toNat (BitVec.ofNat 32 (((c.charge[k.core / 32]?).getD [])[bIdx cl]?.getD 0) ++ (c.budget[bIdx cl]?).getD 0)]) ∧
  (∀ (s : State) n, n < s.ctxs.length → s.mgWaiting = [] → let c := s.ctx n
    ∃ t, exec (.faultRecordPost n) s = .next t ∧ { t with ctxs := [] } = { s with ctxs := [] } ∧ ∀ m, t.ctx m = if m = n then { c with
      faultQ := c.faultQ ++ c.waiting.take (256 - c.faultQ.length), waiting := c.waiting.drop (256 - c.faultQ.length) } else s.ctx m) ∧
  ∀ (s : State) die, s.shapeOk = true →
    (die < 4 → (s.cdie die).strokeDue = true → ∃ t, exec (.strokeBoundary die) s = .next t ∧ t.mem = s.mem ∧ t.blocks = s.blocks ∧
      (t.cdie die).strokeDue = false ∧ (t.cdie die).freq = [] ∧ (∀ i, i ≠ die → t.cdie i = s.cdie i) ∧
      (t.mgPin[die]?) = s.mgPinNext[die]? ∧
      ∀ n, t.ctx n = { s.ctx n with charge := (s.ctx n).charge.set die (List.replicate 10 0), eff := (s.ctx n).eff.set die (s.ctx n).budget }) ∧
    (die = 4 ∨ die = 5 → (s.ldie (die - 4)).strokeDue = true → NoneAgain s → ∃ t, exec (.strokeBoundary die) s = .next t ∧ t.mem = s.mem ∧
      t.blocks = s.blocks ∧ (t.ldie (die - 4)).strokeDue = false ∧
      ∀ n, t.ctx n = { s.ctx n with charge := (s.ctx n).charge.set die (List.replicate 10 0), eff := (s.ctx n).eff.set die (s.ctx n).budget })

/-! ### Translations, handles and kernels (R115–R135, R263–R271) -/

namespace Sys2Proof.Claims

open Sys2Proof Sys2Proof.Machine

/-- All but the copies of translations, code and table entries that cores and dies keep, and the forms that wait. -/
def besideCaches (s : State) (core slot : Nat) : State :=
  let q := s.still core slot
  { q with
    lates := []
    cores := q.cores.map fun c => { c with tlb := [], icache := [] }
    cdies := q.cdies.map fun d => { d with dtc := [], hcache := [] } }

/-- The word that `xlat` gives for a leaf (R268). -/
def leafWord (l : Leaf) (va : Nat) : W64 :=
  (0 : BitVec 1) ++ l.e.extractLsb' 1 1 ++ l.e.extractLsb' 2 1 ++ l.e.extractLsb' 7 1 ++
    (if l.sh = 12 then (0 : BitVec 2) else if l.sh = 16 then 1 else if l.sh = 21 then 2 else 3) ++
    l.e.extractLsb' 6 1 ++ l.e.extractLsb' 5 1 ++ (0 : BitVec 10) ++ BitVec.ofNat 46 (l.pa + va % 2 ^ l.sh)

/-- The virtual address that the page table translates for a pointer: none for another space or device (R268, R399). -/
def tableVa (s : State) (p : W64) : Option Nat :=
  if p.extractLsb' 56 8 ≠ 0 then none
  else if p.extractLsb' 52 4 ≠ 0xE then some (p.extractLsb' 0 56).toNat
  else if p.extractLsb' 42 10 = s.devNum then some (p.extractLsb' 0 42).toNat
  else none

/-- The cox thread goes on, and its register gets a status once the accesses before have completed. -/
def Waits (i : Instr) (s t : State) (k : Block) (d : RegNo) (kind : LateKind) : Prop :=
  exec i s = .next t ∧ CoxGets s t [] ∧
  t.lates = s.lates ++ [{ issue := s.nextId, core := k.core, slot := k.slot, reg := d.toNat, v := 0, kind := kind }]

/-- The k-th form that waits ends: its register has its value, and the form is no longer listed. -/
def Completes (s t : State) (k : Nat) (x : Late) : Prop :=
  t.lates = s.lates.eraseIdx k ∧ t.mem = s.mem ∧ t.ctxs = s.ctxs ∧
  t.coxAt x.core x.slot = (s.coxAt x.core x.slot).map (fun c => c.wr (.s x.reg x.v))

/-- A handle-table entry (R264). -/
def tableEntry (ctx index : Nat) (base : W64) (size : W32) (gen : BitVec 16) (tenant flags : Byte) (resv : List Byte) : HEnt :=
  { ctx := ctx, index := index, base := base, size := size, gen := gen, tenant := tenant
    valid := flags = 1 && resv.all (· == 0) && base.extractLsb' 60 4 == 0 && base.extractLsb' 0 6 == 0 && size.extractLsb' 0 6 == 0 }

/-- The checks of a dereference (R265): INFO, 0 when all hold. -/
def handleInfo (e : HEnt) (hd : W64) (x n : Nat) : Nat :=
  let lim := if hd.extractLsb' 0 20 = 0 then e.size.toNat else Nat.min e.size.toNat (64 * (hd.extractLsb' 0 20).toNat)
  (if e.valid = false ∨ e.gen ≠ hd.extractLsb' 48 16 then 4 else 0) + (if e.tenant ≠ hd.extractLsb' 40 8 then 2 else 0) +
    (if x % n ≠ 0 ∨ lim < x + n then 1 else 0)

/-- Each active lane's dereference passes its checks and its page's, and lies at `loc`. -/
def Derefs (s : State) (h : Hd) (k : Block) (a b : RegNo) (n : Nat) (write : Bool) (loc : Who → Loc) : Prop :=
  ∀ x ∈ s.views h, ∃ va e, s.deref k x.2.1 (x.2.2.r64 a) (x.2.2.r32 b).toNat n write = .at_ (.ok (loc x.2.1) va) e

def handleBytes : HSz → Nat
  | .b32 => 4
  | .b64 => 8
  | .b128 => 16

/-- A kernel's place among the checks of a launch (R117): what the record, its bound and its barriers come to. -/
def recordBytes (s : State) (k : Block) (a : W64) (x : List Byte) : Prop :=
  a.extractLsb' 56 8 = 0 ∧ a.extractLsb' 0 6 = 0 ∧ s.getSpan k .cox (s.chkSpan k a 128 false) = .ok x

/-- The cox thread's reads are done and its writes acknowledged (R119). -/
def Released (s : State) (k : Block) : Prop := noReads s k .cox ∧ performedAt s k .cox .sys

/-- A block as placement puts it: its launch fibres have their windows, one after another in each lane column of an empty core
(R11, R118). -/
def Seats (s : State) (b b' : Block) : Prop :=
  let bare := fun (f : Fibre) => { f with wbase := 0 }
  { b' with fibres := [] } = { b with fibres := [] } ∧ b'.fibres.map bare = b.fibres.map bare ∧
  ((∀ q ∈ s.blocks, q.core ≠ b.core) → (∀ f ∈ b.fibres, f.win = true) → ∀ p c i f,
    (b'.fibres.filter fun f => f.part == p && f.col == c)[i]? = some f → (i + 1) * b.kr.w.toNat ≤ 4096 → f.wbase = i * b.kr.w.toNat)

/-- A launch of a context. -/
def launchOf (s : State) (ctx num : Nat) (l : Launch) : Prop :=
  (s.launches.find? fun x => x.ctx == ctx && x.num == num) = some l

end Sys2Proof.Claims

/-- R268–R270: what `xlat` reads, and what the invalidating forms remove, answer and wait for. -/
def Sys2Proof.Claims.Translations : Prop :=
  (∀ h d a s b,
    let word := fun (p : W64) => match tableVa s p with
      | none => (0x8000000000000000 : W64)
      | some va => match s.look b.core b.ctx va with
        | none => 0x8000000000000000
        | some l => leafWord l va
    (∀ va l, s.look b.core b.ctx va = some l → l.pa + va % 2 ^ l.sh < 2 ^ 46) →
    (CoxIssuing s b → ∃ t, exec (.xlat h d a) s = .next t ∧ CoxWrites s t ((View.cox b.cox).w64 d (word ((View.cox b.cox).r64 a)))) ∧
    ∀ p, Issuing s b p → ∃ t, exec (.xlat h d a) s = .next t ∧ Writes s t h fun _ x => (View.fib x.2).w64 d (word ((View.fib x.2).r64 a))) ∧
  (∀ h all d a b s k, CoxIssuing s k → s.shapeOk = true → let n := named k a
    let va := ((k.cox.reg b.toNat).extractLsb' 0 56).toNat
    let hit := fun (t : Tlb) => t.ctx = n ∧ (all = true ∨ t.va / 2 ^ t.sh = va / 2 ^ t.sh)
    let i := Instr.tinv h all d a b
    ((s.ctx n).st = .free → ∃ t, Answers i s t d 1 ∧ t.still k.core k.slot = s.still k.core k.slot) ∧
    ((s.ctx n).st ≠ .free → n ≠ k.ctx → (s.ctx n).creator ≠ some k.ctx →
      ∃ t, Answers i s t d 2 ∧ t.still k.core k.slot = s.still k.core k.slot) ∧
    ((s.ctx n).st ≠ .free → n = k.ctx ∨ (s.ctx n).creator = some k.ctx → performedAt s k .cox .sys →
      (∀ e ∈ (s.ctx n).eddy, e.cmds = [] ∨ e.xl = []) → ∃ t, Waits i s t k d (.inval n s.nextId) ∧ t.mem = s.mem ∧
        (∀ c ∈ t.cores, ∀ e ∈ c.tlb, ¬ hit e) ∧ (∀ c ∈ t.cdies, ∀ e ∈ c.dtc, ¬ hit e) ∧
        (∀ c, ∀ e ∈ (s.core c).tlb, ¬ hit e → e ∈ (t.core c).tlb) ∧ ∀ c, ∀ e ∈ (s.cdie c).dtc, ¬ hit e → e ∈ (t.cdie c).dtc)) ∧
  (∀ h d a b s k, CoxIssuing s k → s.shapeOk = true → k.ctx < 64 → let x := k.cox.reg a.toNat
    let ok := x.extractLsb' 56 8 = 0 ∧ x.extractLsb' 0 12 = 0
    (¬ ok → ∃ t, Answers (.htab h d a b) s t d 6 ∧ t.still k.core k.slot = s.still k.core k.slot) ∧
    (ok → ∃ t, Waits (.htab h d a b) s t k d (.handles k.ctx s.nextId none false) ∧ t.mem = s.mem ∧ (t.ctx k.ctx).hbase = x ∧
      (t.ctx k.ctx).hcount = ((k.cox.reg b.toNat).extractLsb' 0 21).toNat ∧ ∀ c ∈ t.cdies, ∀ e ∈ c.hcache, e.ctx ≠ k.ctx)) ∧
  (∀ h all d a s k, CoxIssuing s k → s.shapeOk = true → let x := ((k.cox.reg a.toNat).extractLsb' 0 20).toNat
    ∃ t, Waits (.hinv h all d a) s t k d (.handles k.ctx s.nextId (if all then none else some x) false) ∧ besideCaches t k.core k.slot = besideCaches s k.core k.slot ∧
      (∀ c ∈ t.cdies, ∀ e ∈ c.hcache, ¬ (e.ctx = k.ctx ∧ (all = true ∨ e.index = x))) ∧
      ∀ c, ∀ e ∈ (s.cdie c).hcache, ¬ (e.ctx = k.ctx ∧ (all = true ∨ e.index = x)) → e ∈ (t.cdie c).hcache) ∧
  ∀ (s : State) k (x : Late), s.lates[k]? = some x → s.agenda.head? = some (.late k) → s.stage ≠ .halted → ∃ t, step s = .next t ∧
    (∀ ctx upto, x.kind = .inval ctx upto → (s.inFlight ctx upto = true → t.lates = s.lates) ∧ (s.inFlight ctx upto = false → Completes s t k x)) ∧
    (∀ num c, x.kind = .launch c num → (num ≠ 0 → t.lates = s.lates) ∧
      (num = 0 → t.lates = s.lates.eraseIdx k ∧ t.coxAt x.core x.slot = (s.coxAt x.core x.slot).map fun c => { c.wr (.s x.reg x.v) with seen := s.nextId })) ∧
    ∀ ctx upto index again, x.kind = .handles ctx upto index again →
      (s.inFlight ctx upto = true → t.lates = s.lates) ∧
      (s.inFlight ctx upto = false → again = true → Completes s t k x) ∧
      let hit := fun (i : Nat) => index.all fun j => i == j
      (again = false → s.entryComes ctx hit = true → t.lates = s.lates) ∧
      (s.inFlight ctx upto = false → again = false → s.entryComes ctx hit = false → t.lates = s.lates.set k { x with kind := .handles ctx s.nextId index true } ∧
        (∀ c ∈ t.cdies, ∀ e ∈ c.hcache, ¬ (e.ctx = ctx ∧ ∀ i, index = some i → e.index = i)) ∧
        (∀ b ∈ s.blocksOf ctx, ∀ r ∈ (t.core b.core).rbuf, r.slot = b.slot → s.entryAt ctx hit r.dev r.va = false) ∧
        ∀ c, ∀ e ∈ (s.cdie c).hcache, ¬ (e.ctx = ctx ∧ ∀ i, index = some i → e.index = i) → e ∈ (t.cdie c).hcache)

/-- R263–R265, R271: how a handle-table entry is read, the checks of a dereference, and the access that it makes. -/
def Sys2Proof.Claims.HandleAccess : Prop :=
  (∀ ctx index base size gen tenant flags resv, resv.length = 16 →
    hentOf ctx index (leBytes 8 (BitVec.toNat (w := 64) base) ++ leBytes 4 (BitVec.toNat (w := 32) size) ++
      leBytes 2 (BitVec.toNat (w := 16) gen) ++ [tenant, flags] ++ resv) = tableEntry ctx index base size gen tenant flags resv) ∧
  (∀ (e : HEnt) hd x n, 0 < n → e.fail hd x n = handleInfo e hd x n) ∧
  (∀ (s : State) b w (hd : W64) x n write, let i := (hd.extractLsb' 20 20).toNat
    ((s.ctx b.ctx).hcount ≤ i → s.deref b w hd x n write = .at_ (.bad { code := 0x08, info := 1 }) none) ∧
    ∀ e, i < (s.ctx b.ctx).hcount → s.getHandle b w i = .ok e → let k := handleInfo e hd x n
      0 < n → s.deref b w hd x n write = .at_ (if k = 0 then s.chk b w [0] e.base x n write else .bad { code := 0x08, info := BitVec.ofNat 16 k }) (some e)) ∧
  (∀ h sz d a b s k loc, Runs s k → Derefs s h k a b (handleBytes sz) false loc → ∃ t, exec (.hld h sz d a b) s = .next t ∧ GoesOn s t h ∧
    { calm t k.core k.slot with cdies := [] } = { calm s k.core k.slot with cdies := [] } ∧
    t.pends = s.pends ++ (s.views h).map (fun x => { issue := s.nextId, lane := x.1, core := k.core, slot := k.slot, who := x.2.1
                                                     dst := d.toNat, pc := s.cur.pc, kind := .load (loc x.2.1) (hldSz sz) none none false }) ∧
    t.copies = s.copies ∧ (t.core k.core).paths = (s.core k.core).paths) ∧
  ∀ h sz a b c s k loc, Runs s k → Derefs s h k a b (handleBytes sz) true loc → s.views h ≠ [] → ∃ t e, exec (.hst h sz a b c) s = .next t ∧
    Advances s t h (fun x f => touch (loc (.fib x.2.fid)) f) id ∧
    { calm t k.core k.slot with cdies := [] } = { calm s k.core k.slot with cdies := [] } ∧ t.pends = s.pends ∧ t.copies = s.copies ∧
    (∀ y, t.mem.get y = s.mem.get y) ∧ (t.core k.core).paths = (s.core k.core).paths ++ [e] ∧ e.issue = s.nextId ∧ e.slot = k.slot ∧
    e.pc = s.cur.pc ∧ e.rel = none ∧
    e.reqs = mkReqs k ((s.views h).map fun x => (x.2.1, loc x.2.1, stored x.2.2 (hstSz sz) c)) []

/-- R263–R271: `xlat`, the invalidating forms, and accesses through handles. -/
def Obligations.TranslationsAndHandles : Prop := Translations ∧ HandleAccess

/-- R115–R121: the checks of a launch in their order, what it queues, its placement, for which a line of an image on another device is
read first (R399), the completion of its blocks, and its record. That the record goes to DONE[55:0] whatever DONE[63:56] holds is the
model's choice (log 111, DESIGN CHOICE). -/
def Obligations.Launches : Prop :=
  (∀ h wait d a b s k, CoxIssuing s k → s.shapeOk = true → Released s k → let y := k.cox.reg b.toNat
    let n := if y.getLsbD 6 then (y.extractLsb' 0 6).toNat else k.ctx
    let i := Instr.launch h wait d a b
    let at_ := k.cox.reg a.toNat
    let tells := fun (x : Nat) => ∃ t, Answers i s t d x ∧ t.still k.core k.slot = s.still k.core k.slot
    let own := n = k.ctx ∨ (s.ctx n).creator = some k.ctx
    let open_ := (s.ctx n).st = .ready ∨ (s.ctx n).st = .running
    let few := (s.launches.filter fun l => l.ctx == n).length < 16
    (¬ own → tells 2) ∧ (own → ¬ open_ → tells 1) ∧ (own → open_ → ¬ few → tells 3) ∧
    (own → open_ → few → at_.extractLsb' 56 8 ≠ 0 ∨ at_.extractLsb' 0 6 ≠ 0 → tells 5) ∧
    ∀ x, own → open_ → few → recordBytes s k at_ x → let r := krecOf x
      (∀ o, r.invalid = some o → tells (256 * o + 4)) ∧
      (r.invalid = none → 128 * Nat.min 64 (4096 / r.w.toNat) < r.nfib.toNat → tells 4) ∧
      (r.invalid = none → r.nfib.toNat ≤ 128 * Nat.min 64 (4096 / r.w.toNat) →
        ((∃ j < 4, r.gbar.getLsbD j = true ∧ ((s.ctx n).gown[j]?).getD none ≠ none) → tells 6) ∧
        ∀ args, (∀ j < 4, r.gbar.getLsbD j = true → ((s.ctx n).gown[j]?).getD none = none) → s.launchChk k n at_ = .ok r args →
          let l : Launch := { ctx := n, num := (s.ctx n).nextLaunch, kr := r, args := args }
          let q := fun (t : State) => t.mem = s.mem ∧ t.blocks.length = s.blocks.length ∧ t.launches = s.launches ++ [l] ∧
            (t.ctx n).nextLaunch = (s.ctx n).nextLaunch + 1 ∧ ∀ j < 4, r.gbar.getLsbD j = true → (t.ctx n).gown[j]? = some (some l.num)
          (wait = false → ∃ t, Answers i s t d (65536 * l.num) ∧ q t) ∧
          (wait = true → ∃ t, exec i s = .next t ∧ CoxGets s t [] ∧ q t ∧
            t.lates = s.lates ++ [{ issue := s.nextId, core := k.core, slot := k.slot, reg := d.toNat, v := BitVec.ofNat 64 (65536 * l.num)
                                    kind := .launch n l.num }]))) ∧
  (∀ (s : State) l c cs, s.nextLaunch = some l → l.positions.length = 1 → s.placePtr < 16 → c < 16 →
    (∀ e < 16, s.clusterFor l.kr 1 e ≠ none → (c + 15 - s.placePtr) % 16 ≤ (e + 15 - s.placePtr) % 16) → s.clusterFor l.kr 1 c = some [cs] →
    let place := s.imaged l.far (l.block cs (s.freeSlot cs) (l.kr.blkAt (l.next * 2 ^ l.kr.clusz.toNat)) s.nextId)
    (place = .none → exec .placementTurn s = .next s) ∧
    (∀ dev va n m, place = .need dev va n → s.shapeOk = true → (∀ o ∈ s.outstanding, o.image = true → ¬ (o.ctx = l.ctx ∧ o.lane = l.num)) →
      (∀ o ∈ s.outstanding, o.dev ≠ dev) → dev < 1024 → NextUp s dev ((dev + va / 128 % 64) % 18) m → Room s l.ctx m → (∃ g < 256, ∀ o ∈ s.outstanding, ¬ (o.ldie = portLdie m ∧ o.tag = g)) →
      ∃ t f o, exec .placementTurn s = .next t ∧ Carries s t m f ∧ f.type = 1 ∧ f.dst.toNat = dev ∧ t.mem = s.mem ∧ t.blocks = s.blocks ∧
        t.launches = s.launches ∧ t.outstanding = s.outstanding ++ [o] ∧ o.op = .read n ∧ o.va = va ∧ o.image = true ∧ o.ctx = l.ctx ∧
        o.lane = l.num) ∧
    ∀ b, place = .ok b →
      ∃ t b', exec .placementTurn s = .next t ∧ t.mem = s.mem ∧ t.placePtr = c ∧ t.blocks = s.blocks ++ [b'] ∧ Seats s b b' ∧
        t.launches = s.launches.map fun x => if x.ctx == l.ctx && x.num == l.num then { x with st := .active, next := x.next + 1, far := [] } else x) ∧
  (∀ (s : State) b l, s.block? b.core b.slot = some b → launchOf s b.ctx b.launch l → (s.ctx b.ctx).st ≠ .killing →
    (s.blockDone b = false → exec (.blockComplete b.core b.slot) s = .next s) ∧
    (s.blockDone b = true → ∃ t, exec (.blockComplete b.core b.slot) s = .next t ∧ t.mem = s.mem ∧ t.block? b.core b.slot = none ∧
      launchOf t b.ctx b.launch { l with ndone := l.ndone + 1, st := if l.ndone + 1 = l.kr.nblk then .finishing 1 else l.st })) ∧
  ∀ (s : State) ctx num l st, s.memsOk = true → launchOf s ctx num l → l.st = .finishing st → l.parked = false → (s.ctx ctx).st ≠ .killing →
    (∀ b ∈ s.blocks, ¬ (b.ctx = ctx ∧ b.launch = num)) → (l.kr.done.extractLsb' 52 4) ≠ 0xE → let va := (l.kr.done.extractLsb' 0 56).toNat
    (∀ pa, s.xl 0 ctx va .write false = .ok pa → pa % 32 = 0 → isMg pa = false → s.lineHeld ctx pa = false → ∃ t, exec (.completionRecordWrite ctx num) s = .next t ∧
      Filled s t pa (leBytes 8 (num * 65536 + st.toNat) ++ leBytes 8 l.ndone ++ leBytes 8 (s.cdie (homeDie pa)).cyc.toNat ++ List.replicate 8 0) ∧
      t.launches = s.launches.filter fun x => !(x.ctx == ctx && x.num == num)) ∧
    (∀ i sup, s.xl 0 ctx va .write false = .fault i → QueueRoom s ctx sup → ∃ t r, exec (.completionRecordWrite ctx num) s = .next t ∧
      t.mem = s.mem ∧ launchOf t ctx num { l with parked := true } ∧ (t.ctx sup).faultQ = (s.ctx sup).faultQ ++ [r] ∧
      recWords r = [(i ||| 1) ++ (6 : BitVec 8) ++ (0 : BitVec 10) ++ BitVec.ofNat 6 ctx ++ (0 : BitVec 24), 0, BitVec.ofNat 64 (va / 4096 * 4096), 0])

/-- R129, R133–R135: the tile walker, the stages as the cox thread sees and sets them, and its end. -/
def Obligations.TilesAndStages : Prop :=
  (∀ h a b c s k, CoxIssuing s k → let x := k.cox.reg a.toNat
    ∃ t b', exec (.walkInit h a b c) s = .next t ∧ CoxGets s t [] ∧ Keeps s t k b' ∧ b'.stgres = k.stgres ∧ b'.xvec = k.xvec ∧ b'.scb = k.scb ∧ b'.scs = k.scs ∧
      b'.walker = { n0 := (x.extractLsb' 0 20).toNat, n1 := (x.extractLsb' 20 20).toNat, n2 := (x.extractLsb' 40 20).toNat
                    hint := k.cox.reg b.toNat, hsh := (k.cox.reg c.toNat).extractLsb' 0 6 }) ∧
  (∀ h d s k, CoxIssuing s k → let w := k.walker
    let all := w.n0 * w.n1 * w.n2
    w.gone.Pairwise (· < ·) → (∀ g ∈ w.gone, g < all) → w.n0 ≤ 2 ^ 20 → w.n1 ≤ 2 ^ 20 → w.n2 ≤ 2 ^ 20 →
    (w.gone.length = all → ∃ t, exec (.walkNext h d) s = .next t ∧ CoxGets s t [.s d.toNat 0x8000000000000000] ∧
      t.still k.core k.slot = s.still k.core k.slot) ∧
    (w.gone.length < all → ∃ t b' i0 i1 i2, exec (.walkNext h d) s = .next t ∧ Keeps s t k b' ∧ b'.stgres = k.stgres ∧ b'.xvec = k.xvec ∧ b'.scb = k.scb ∧ b'.scs = k.scs ∧ i0 < w.n0 ∧ i1 < w.n1 ∧ i2 < w.n2 ∧
      let g := i0 + w.n0 * (i1 + w.n1 * i2)
      g ∉ w.gone ∧ b'.walker.gone.Perm (g :: w.gone) ∧ b'.walker.gone.Pairwise (· < ·) ∧
      CoxGets s t [.s d.toNat (BitVec.ofNat 64 (i0 + i1 * 2 ^ 20 + i2 * 2 ^ 40))])) ∧
  (∀ h d (n : BitVec 3) s k, CoxIssuing s k → let live := k.fibres.countP fun f => f.stage == n.toNat
    ∃ t x, exec (.stgq h d n) s = .next t ∧ t.still k.core k.slot = s.still k.core k.slot ∧ x < 65536 ∧ (live < 65536 → x = live) ∧
      CoxGets s t [.s d.toNat (if n.toNat < Nat.max k.kr.nstage.toNat 1 then
        BitVec.ofNat 64 (((k.stageQ[n.toNat]?).getD []).length + 2 ^ 16 * x + 2 ^ 32 * k.stageRecords n.toNat)
        else 0)]) ∧
  (∀ h a (n : BitVec 3) s k, CoxIssuing s k → ∃ t b', exec (.stgres h a n) s = .next t ∧ CoxGets s t [] ∧ Keeps s t k b' ∧
    b'.walker = k.walker ∧ b'.xvec = k.xvec ∧ b'.scb = k.scb ∧ b'.scs = k.scs ∧ b'.stgres = if n.toNat < Nat.max k.kr.nstage.toNat 1 then
      k.stgres.set n.toNat (Nat.min 8 ((k.cox.reg a.toNat).extractLsb' 0 4).toNat) else k.stgres) ∧
  ∀ h s k, CoxIssuing s k → ∃ t, exec (.kend h) s = .next t ∧ t.still k.core k.slot = s.still k.core k.slot ∧
    t.myCox.map Cox.bare = s.myCox.map (fun c => { c.bare with ended := true }) ∧ ∀ fid, t.myFib fid = s.myFib fid

/-! ### Bring-up, power and management (R418–R428) -/

namespace Sys2Proof.Claims

open Sys2Proof Sys2Proof.Machine

/-- Only the clock and the throttling of one C-die have changed. -/
def OneDie (s t : State) (die : Nat) (d : CDie) : Prop :=
  { t with cdies := [] } = { s with cdies := [] } ∧ ∀ i, t.cdie i = if i = die then d else s.cdie i

/-- A C-die and its stacks have passed training. -/
def passed (dies : BitVec 4) (stk : BitVec 12) (d : Nat) : Prop :=
  dies.getLsbD d = true ∧ stk.getLsbD (3 * d) = true ∧ stk.getLsbD (3 * d + 1) = true ∧ stk.getLsbD (3 * d + 2) = true

/-- Memory that stage 1 has in service: the HBM of C-die 0 (R419, R423). -/
def early (pa : Nat) : Prop := pa.testBit 45 = false ∧ homeDie pa = 0

/-- An image's key has the digest that is fused into L-die 0, and its signature verifies under that key. -/
def RsaSigned (x : List Byte) : Prop := sha384 (Config.rsaKey x) = Config.fusedRsa ∧ Config.rsaVerifies (Config.rsaKey x) x = true
def SlhSigned (x : List Byte) : Prop := sha384 (Config.slhKey x) = Config.fusedSlh ∧ Config.slhVerifies (Config.slhKey x) x = true

/-- The turn that the agenda gives next, with the rest of it. -/
structure Turned (s : State) (u : Turn) (rest : List Turn) : Prop where
  live : s.stage ≠ .halted
  agenda : s.agenda = u :: rest

/-- The state that a turn is taken in: time has gone on. -/
def begun (s : State) (rest : List Turn) : State := { s with tick := s.tick + 1, agenda := rest }

/-- The turns that offer a thread its issue slot. -/
inductive Offers (core slot : Nat) : Turn → Thread → Prop
  | cox : Offers core slot (.issueCox core slot) .cox
  | part {id} : Offers core slot (.issuePart core slot id) (.part id)

/-- What a turn makes of an issue that ends in r: if the thread used its slot, those that were ready there have been passed over. -/
def counted (s r : State) (core slot : Nat) (th : Thread) : State :=
  if r.cur.went then r.passOthers core slot (pathOfTh s core slot th) th (rivals s core slot th) else r

def streamOf : Thread → Stream
  | .cox => .cox
  | _ => .fibre

end Sys2Proof.Claims

/-- R418–R424: bring-up: what each of its events does to the stage, the dies in service, memory and the ports. Where in an image
its keys and signatures lie, and the two signature schemes, are open constants of the model (log 6). -/
def Obligations.BringUp : Prop :=
  (∀ s : State, ∃ t, exec .powerOnReset s = .next t ∧ t.stage = .stage0 ∧ (t.port 18).st = .up ∧ (∀ n, n ≠ 18 → t.port n = State.reset.port n) ∧ t.sent = s.sent ∧
    { t with tick := 0, agenda := [], nextId := 1, sent := [], ports := [] } = { State.reset with tick := 0, agenda := [], nextId := 1, sent := [], ports := [] }) ∧
  (∀ (s : State) x, s.stage = .stage0 →
    (Config.imageWellFormed x = false → exec (.firmwareImageRead x) s = .next { s with mgErr := 3 }) ∧
    (Config.imageWellFormed x = true → ¬ RsaSigned x → exec (.firmwareImageRead x) s = .next { s with mgErr := 1 }) ∧
    (Config.imageWellFormed x = true → RsaSigned x → ¬ SlhSigned x → exec (.firmwareImageRead x) s = .next { s with mgErr := 2 }) ∧
    (Config.imageWellFormed x = true → RsaSigned x → SlhSigned x → ∃ t, exec (.firmwareImageRead x) s = .next t ∧
      t.stage = .stage1 ∧ t.image = x ∧ t.mgErr = 0 ∧ (∀ a, t.mem.get a = 0) ∧ (∀ l, seqGet t.seq l = 0) ∧ t.placePtr = 15 ∧
      (s.ctxs.length = 64 → t.ctx 0 = { st := .running, priv := true, creator := none }) ∧ ∀ n, n ≠ 0 → t.ctx n = s.ctx n)) ∧
  (∀ (s : State) x, s.stage ≠ .stage0 → exec (.firmwareImageRead x) s = .next s) ∧
  (∀ (s : State) dies stk ldies, s.stage = .stage1 → s.mgErr ≠ 4 → s.shapeOk = true → let base := passed dies stk 0 ∧ ldies.getLsbD 0 = true
    ∃ t, exec (.trainingComplete dies stk ldies) s = .next t ∧ (∀ d < 4, t.miss.getLsbD d = true ↔ ¬ passed dies stk d) ∧
      t.lmiss = !ldies.getLsbD 1 ∧
      (¬ base → t.stage = .stage1 ∧ t.mgErr = 4 ∧ t.mem = s.mem) ∧
      (base → t.stage = .stage2 ∧ t.mgErr = s.mgErr ∧ t.placePtr = 15 ∧ (∀ d < 4, (t.cdie d).mhz = 1800) ∧
        (∀ a, early a → t.mem.get a = s.mem.get a) ∧ (∀ a, ¬ early a → t.mem.get a = 0) ∧
        ∀ n < 26, (s.port n).st = .down → n < 9 ∨ 18 ≤ n ∧ n < 22 ∨ ldies.getLsbD 1 = true → (t.port n).st = .training)) ∧
  (∀ (s : State) dies stk ldies, s.stage ≠ .stage1 ∨ s.mgErr = 4 → exec (.trainingComplete dies stk ldies) s = .next s) ∧
  ∀ (s : State) nonce, (nonce.length ≠ 32 → exec (.attestationChallenge nonce) s = .next s) ∧
    (nonce.length = 32 → let body := nonce ++ sha384 s.image ++ leBytes 8 s.mgstat.toNat ++ Config.identity
      (sha384 s.image).length = 48 ∧
      exec (.attestationChallenge nonce) s = .next { s with sent := s.sent ++ [.attestation nonce (sha384 s.image) s.mgstat Config.identity
        (Config.signRsa body) (Config.signSlh body)] })

/-- R418, R425–R428, R379: temperature, power, the management registers, and the loss of a die. -/
def Obligations.Management : Prop :=
  (∀ (s : State) die, s.stage = .stage1 ∨ s.stage = .stage2 →
    (4 ≤ die ∨ 115 ≤ (byteAt s.mgTemp die).toNat → exec (.thermalTrip die) s = .next { s with stage := .halted, mgTrip := true }) ∧
    (die < 4 → (byteAt s.mgTemp die).toNat < 115 → exec (.thermalTrip die) s = .next s)) ∧
  (∀ (s : State) die, die < s.cdies.length →
    (105 ≤ (byteAt s.mgTemp die).toNat → ∃ t, exec (.thermalThrottle die) s = .next t ∧ OneDie s t die { s.cdie die with hot := true, mhz := 600 }) ∧
    ((s.cdie die).hot = true → (byteAt s.mgTemp die).toNat ≤ 100 → ∃ t, exec (.thermalRecover die) s = .next t ∧
      OneDie s t die { s.cdie die with hot := false, mhz := if s.stage = .stage2 then 1800 else 900 }) ∧
    ((s.cdie die).hot = true → 100 < (byteAt s.mgTemp die).toNat → exec (.thermalRecover die) s = .next s)) ∧
  (∀ (s : State) l, ∃ t, exec (.powerLimitWindow l) s = .next t ∧ { t with cdies := [] } = { s with cdies := [] } ∧ ∀ d < s.cdies.length,
    ∃ m, t.cdie d = { s.cdie d with mhz := m } ∧ (m = (s.cdie d).mhz ∨ (s.cdie d).hot = false ∧ 600 ≤ m ∧ ∃ k, (if s.stage = .stage2 then 1800 else 900) = m + 50 * k)) ∧
  (∀ (s : State) v, let w := (BitVec.extractLsb' 0 12 (n := 64) v).toNat
    exec (.mgpwrWrite v) s = .next { s with mgPwr := BitVec.ofNat 64 (if w < 1000 then 1000 else if 3400 < w then 3400 else w) }) ∧
  (∀ (s : State) die v, let m := (BitVec.extractLsb' 0 5 (n := 64) v).toNat
    let x : W64 := (0 : BitVec 32) ++ v.extractLsb' 16 16 ++ (0 : BitVec 11) ++ (if 16 < m then (16 : BitVec 5) else v.extractLsb' 0 5)
    exec (.mgpinWrite die v) s = .next (if s.stage ≠ .stage2 ∨ s.dieUp die = true then { s with mgPinNext := s.mgPinNext.set die x } else s)) ∧
  (∀ s : State, s.mgWaiting = [] → exec .mgpopWrite s = .next { s with mgRecs := s.mgRecs.drop 1 }) ∧
  (∀ (s : State) r rest, s.mgWaiting = r :: rest → s.mgRecs.length ≤ 64 → s.mgRecs ≠ [] →
    exec .mgpopWrite s = .next { s with mgRecs := s.mgRecs.drop 1 ++ [r], mgWaiting := rest }) ∧
  (∀ (s : State) off, exec (.managementWriteOther off) s = .next s) ∧
  (∀ s : State,
    s.homeRead true mgBase 8 = leBytes 8 s.mgstat.toNat ∧ s.homeRead true (mgBase + 8) 8 = leBytes 8 s.mgPwr.toNat ∧
    s.homeRead true (mgBase + 16) 8 = [byteAt s.mgTemp 0, byteAt s.mgTemp 1, byteAt s.mgTemp 2, byteAt s.mgTemp 3, 0, 0, 0, 0] ∧
    (∀ d < 4, s.homeRead true (mgBase + 32 + 8 * d) 8 = leBytes 8 ((s.mgPin[d]?).getD 0).toNat) ∧
    (∀ i < 4, s.homeRead true (mgBase + 64 + 8 * i) 8 = leBytes 8 (match s.mgRecs with
      | [] => 0
      | r :: _ => ((recWords r)[i]?).getD 0).toNat) ∧
    (∀ pa n, mgBase ≤ pa → pa < mgBase + 4096 → s.homeRead false pa n = List.replicate n 0)) ∧
  ∀ (s : State) die, s.shapeOk = true → ∃ t, exec (.dieLost die) s = .next t ∧ t.mem = s.mem ∧ t.blocks = s.blocks ∧
    ∀ x k, x < 64 → k < 4 → ((s.ed x k).st = .ready → die < 2 ^ (s.ed x k).ge → (t.ed x k).st = .broken ∧ (t.ed x k).why = 3) ∧
      (¬ ((s.ed x k).st = .ready ∧ die < 2 ^ (s.ed x k).ge) → t.ed x k = s.ed x k)

/-! ### Steps, reset and invariants -/

/-- R3, R423: a byte reads as it was last written, and no other changes; the canonical form is kept, and two memories in it
that read alike are the same. -/
def Sys2Proof.Claims.MemoryLaws : Prop :=
  (∀ (m : Mem) a v b, m.wf = true → (m.set a v).get b = if b = a then v else m.get b) ∧
  (∀ (m : Mem) a v, m.wf = true → (m.set a v).wf = true) ∧
  (∀ (m : Mem) a x b, m.wf = true → (m.write a x).get b = if a ≤ b ∧ b < a + x.length then (x[b - a]?).getD 0 else m.get b) ∧
  (∀ (m : Mem) a n, m.read a n = (List.range n).map fun i => m.get (a + i)) ∧
  ∀ m k : Mem, m.wf = true → k.wf = true → (∀ a, m.get a = k.get a) → m = k

/-- R3, R21, R212: registers, predicates and bytes of memory read as they were last written. -/
def Obligations.StorageLaws : Prop := RegisterFile ∧ MemoryLaws

/-- R418, R426: the state that a reset leaves, as the tables of the spec give it. -/
def Obligations.ResetState : Prop :=
  State.reset.stage = .stage0 ∧ State.reset.svc = 0 ∧ State.reset.mgstat = 0 ∧ State.reset.mgPwr = 3400 ∧ State.reset.mgTrip = false ∧
  State.reset.mgPin = List.replicate 4 0 ∧ State.reset.mgRecs = [] ∧ (∀ a, State.reset.mem.get a = 0) ∧ State.reset.blocks = [] ∧
  (∀ n, (State.reset.ctx n).st = .free) ∧ (∀ n, n ≠ 18 → (State.reset.port n).st = .down) ∧
  (∀ n, (State.reset.core n).becalmed = true ∧ (State.reset.core n).wake = 0)

/-- The invariants hold at reset. -/
def Obligations.ResetIsSound : Prop :=
  State.reset.memsOk = true ∧ State.reset.shapeOk = true ∧ State.reset.placesOk = true

/-- Every step keeps the canonical form of every memory of the device and of its sequence counters. -/
def Obligations.StepKeepsMemories : Prop := ∀ s t, s.memsOk = true → step s = .next t → t.memsOk = true

/-- Every step keeps the shape of the device: its dies, cores, contexts and ports with their parts, every block with its
registers and its fibres in order, and one block at most in each place. -/
def Obligations.StepKeepsShape : Prop := ∀ s t, s.shapeOk = true → s.placesOk = true → step s = .next t →
  t.shapeOk = true ∧ t.placesOk = true

/-- An instruction stands in a window and names a register of its form, or is a branch (R87). -/
def Sys2Proof.Claims.Breaks (k : DCtx) (an : Ana) (f : Fields) (w : Window) : Prop :=
  w.left ≠ 0 ∧ ((∃ n ∈ allNames k an f, namedReg n ∈ w.names) ∨ f.opc = 1 ∨ f.opc = 2 ∨ f.opc = 3)

/-- REG of Table 4-10. -/
def Sys2Proof.Claims.regOf (k : DCtx) (an : Ana) (f : Fields) (w : Window) : BitVec 8 :=
  match (fieldNames k an f).find? fun x => x.2.any fun n => w.names.contains (namedReg n) with
  | some x => BitVec.ofNat 8 x.1
  | none => if (impliedNames an f).any fun n => w.names.contains (namedReg n) then 0xFF else 0xFE

/-- R86, R87, R92, R114, R276, R429: what a thread does with the block of code `x` that it has fetched at `va`: it takes the trap of the
first check that fails, waits, or runs what the bytes decode to. `s` is the state before the turn, `s4` the state in which the code
has come; `stays` says that the turn changes nothing, `goes` what it ends in. -/
def Sys2Proof.Claims.Executes (s s4 : State) (b : Block) (th : Thread) (va : Nat) (x : BitVec 256) (stays : Prop) (goes : State → Prop) : Prop :=
  let bytes := (blockBytes x).drop (s4.cur.pc.toNat % 32)
  let f := fieldsAt bytes 0
  let k := b.dctx (s.ctx b.ctx).priv (streamOf th)
  let s5 := (s4.keepCode b.core b.ctx va x).setCur f (lenBytes f.len)
  let trap := fun (n : Nat) (code : BitVec 8) => goes (s5.fetchTrap (BitVec.ofNat 4 n ++ (0 : BitVec 28)) { code := code })
  let runs := fun (i : Instr) (names : List RName) (long : Bool) =>
    let t := { s5 with cur := { s5.cur with names := names, isLong := long } }.dropWindows
    (∃ r, exec i t = .next r ∧ goes r) ∧ t.me.map Block.still = some b.still ∧ (∀ fid, t.myFib fid = s4.myFib fid) ∧
    t.myCox.map Cox.bare = s4.myCox.map Cox.bare ∧ t.mem = s.mem ∧ t.ctxs.map Ctx.still = s.ctxs.map Ctx.still ∧
    t.cur.core = b.core ∧ t.cur.slot = b.slot ∧ t.cur.th = th ∧ t.cur.pc = s4.cur.pc ∧ t.cur.len = lenBytes f.len ∧ t.cur.base = f.base ∧
    t.cur.went = false
  (∀ n, decode k bytes = .error (.illegal n) → trap n 1) ∧
  (decode k bytes = .error .malformed → trap 14 2) ∧
  (decode k bytes = .error .privilege → trap 0 4) ∧
  ∀ i an long, decode k bytes = .ok (i, an, long) →
    let ws := (s5.windowsOf b.core b.slot th).filter fun w => w.left ≠ 0 || s5.pending w.issue
    let back := f.opc = 0xF1 ∧ (f.sub = 2 ∨ f.sub = 3)
    (∀ n, s5.stateCheck b k f = some n → trap n 1) ∧
    (s5.stateCheck b k f = none → back →
      (s5.busy = true → stays) ∧ (s5.busy = false → runs i [] false)) ∧
    (s5.stateCheck b k f = none → ¬ back →
      (∀ first w rest, ws = first ++ w :: rest → (∀ y ∈ first, ¬ Breaks k an f y) → Breaks k an f w →
        goes (s5.fetchTrap ((0xF : BitVec 4) ++ BitVec.ofNat 4 w.pos ++ regOf k an f w ++ (0 : BitVec 16)) { code := 0x03 })) ∧
      ((∀ w ∈ ws, ¬ Breaks k an f w) → let held := (∃ w ∈ ws, w.left = 0) ∨ s5.scoreboard f.hd (readsAll f) (readNames k an f) = true
        (held → stays) ∧ (¬ held → runs i ((allNames k an f).map namedReg) long)))

/-- R14, R83–R87, R92, R106, R252, R399, R429: a turn that offers a thread its slot fetches at the thread's address and runs what the
bytes there decode to, or takes the trap of the check that fails. Code on another device is asked for and waited for. -/
def Sys2Proof.Claims.TurnsIssue : Prop := ∀ (s : State) u rest core slot th b, Turned s u rest → Offers core slot u th →
  let s1 := begun s rest
  let s2 := { s1 with cur := { core := core, slot := slot, th := th } }
  let goes := fun (r : State) => step s = .next (counted s1 r core slot th)
  s2.me = some b →
  (outranked s1 core slot th = true → step s = .next s1) ∧
  (outranked s1 core slot th = false → s2.selectable = false → step s = .next s2) ∧
  (outranked s1 core slot th = false → s2.selectable = true →
    let pc := s2.threadPc.toNat
    let at_ := b.kr.code.toNat + (pc - pc % 32)
    let dev := BitVec.extractLsb' 42 10 (BitVec.ofNat 64 at_)
    let off := at_ % 2 ^ 42
    let far := isRemote at_ = true ∧ dev ≠ s.devNum
    let va := if isRemote at_ = true then off else at_
    let s3 := { s2 with cur := { s2.cur with pc := s2.threadPc, len := 8 } }
    let stays := step s = .next s2
    (pc % 4 ≠ 0 ∨ 24 < pc % 32 ∨ b.kr.extent.toNat ≤ pc → goes (s3.fetchTrap 0xE0000000 { code := 0x02 })) ∧
    (pc % 4 = 0 → pc % 32 ≤ 24 → pc < b.kr.extent.toNat →
      (¬ far →
        (s3.xl b.core b.ctx va .fetch false = .wait → stays) ∧
        (∀ info, s3.xl b.core b.ctx va .fetch false = .fault info →
          goes ((s3.walked b.core b.ctx va).fetchTrap 0 { code := 0x06, info := info, page := pageOf va })) ∧
        ∀ pa, s3.xl b.core b.ctx va .fetch false = .ok pa →
          let s4 := (s3.fill b.core b.ctx va).touchCode b.core b.ctx va pa
          let miss := s3.codeMiss b.core b.ctx va = true
          (miss → s3.lineHeld b.ctx pa = true → stays) ∧
          (miss → s3.lineHeld b.ctx pa = false → s3.bad pa 32 = true → goes (s4.fetchTrap 0 { code := 0x11 })) ∧
          ((miss → s3.lineHeld b.ctx pa = false ∧ s3.bad pa 32 = false) →
            Executes s s4 b th va (s3.codeBytes b.core b.ctx va pa) stays goes)) ∧
      (far → let mine := fun (r : RBuf) => r.slot == slot && s2.issuers.contains r.who && r.dev == dev.toNat && r.va == off
        let s4 := s3.updCore core fun c => { c with rbuf := c.rbuf.filter fun r => !mine r }
        (512 ≤ dev.toNat ∨ dev.toNat ∈ s.lostDevs → goes (s3.fetchTrap 0 { code := 0x06, page := pageOf at_ })) ∧
        (dev.toNat < 512 → dev.toNat ∉ s.lostDevs →
          (s3.codeMiss b.core b.ctx at_ = false → Executes s s3 b th at_ (s3.codeBytes b.core b.ctx at_ 0) stays goes) ∧
          (s3.codeMiss b.core b.ctx at_ = true →
            ((s.core core).rbuf.find? mine = none → goes (s2.askCode b (s2.issuers.headD .cox) dev.toNat off)) ∧
            ∀ r, (s.core core).rbuf.find? mine = some r →
              (∀ e, r.bad = some e → goes (s4.fetchTrap 0 (remoteFlt dev.toNat off e.1 e.2))) ∧
              (r.bad = none → Executes s s4 b th at_ (BitVec.ofNat 256 (leNat r.data)) stays goes))))))

/-- R14, R127: what an issue that has used its slot counts: the slot is taken for its cycle, the cox threads go round from its
block's, and each other group of the partition has been passed over once more if it was ready. -/
def Sys2Proof.Claims.TurnsCount : Prop := ∀ (r : State) core slot path th ready, core < r.cores.length → let t := r.passOthers core slot path th ready
  { t with blocks := [], cores := [] } = { r with blocks := [], cores := [] } ∧ (∀ c, c ≠ core → t.core c = r.core c) ∧
  t.core core = { r.core core with last := some ((r.cdie (core / 32)).cyc.toNat, path), coxRR := if path = 4 then slot else (r.core core).coxRR } ∧
  (∀ q ∈ r.blocks, q.core ≠ core → q ∈ t.blocks) ∧
  (th = .cox → ∀ q ∈ r.blocks, q.core = core → (if q.slot = slot then q else { q with cox := { q.cox with yielded := false } }) ∈ t.blocks) ∧
  ∀ id, th = .part id → ∀ q ∈ r.blocks, q.core = core → ∃ q' ∈ t.blocks, { q' with parts := [] } = { q with parts := [] } ∧
    ∀ k : Nat, q'.parts[k]? = (q.parts[k]?).map fun (p : Part) =>
      if p.part ≠ path ∨ q.slot = slot ∧ p.id = id then p
      else { p with yielded := false, passed := if (q.slot, p.id) ∈ ready then p.passed + 1 else 0 }

/-- R14, R86, R92, R106, R127: a turn runs the decoded instruction, and what it then counts. -/
def Obligations.StepRunsDecoded : Prop := TurnsIssue ∧ TurnsCount

/-- R418: when every clock has stopped, nothing goes on but a power cycle and an attestation; at any other time a step
never stops. -/
def Obligations.HaltedStops : Prop :=
  (∀ (s : State) u rest, s.stage = .halted → s.agenda = u :: rest →
    (worksHalted u = false → step s = .fault .thermalHalt) ∧
    ∀ i, u = .event i → (i = .powerOnReset ∨ ∃ x, i = .attestationChallenge x) → step s = exec i { begun s rest with cur := {} }) ∧
  (∀ (s : State), s.stage ≠ .halted → ∃ t, step s = .next t) ∧ ∀ i s, ∃ t, exec i s = .next t

/-- R79, R81, R89: an encoded instruction decodes to itself, and what decodes is well formed and encodes to the bytes it
was read from: no bit of an encoding is dropped, in either direction. -/
def Obligations.DecodeEncode : Prop :=
  (∀ k i bytes, i.wf k = true → encode i = some bytes → ∃ an long, decode k bytes = .ok (i, an, long)) ∧
  ∀ k bytes i an long, decode k bytes = .ok (i, an, long) → i.wf k = true ∧ encode i = some (bytes.take (lenBytes (fieldsAt bytes 0).len))

/-- Words that the spec writes out decode to the instructions it gives them. -/
def Obligations.DecodeWords : Prop :=
  decodeTableWord 64 0x00001C00001003C0 = some (.srd {} 4 0x07) ∧
  decodeTableWord 64 0x00000014100803CC = some (.launch {} false 2 4 5) ∧
  decodeTableWord 64 0x00000000081803C8 = some (.xlat {} 6 2) ∧
  decodeTableWord 64 0x10000010082003C8 = some (.hld {} .b32 8 2 4) ∧
  decodeTableWord 64 0x0400000C080403C8 = some (.tinv {} false 1 2 3) ∧
  decodeTableWord 64 0x004C000010500380 = some (.collRed {} { rel := true, scope := .dev } 20 4) ∧
  decodeTableWord 64 0x0400000018340384 = some (.xfix {} {} 13 6) ∧
  decodeTableWord 64 0x0000000014100388 = some (.lkst {} 4 5) ∧
  decodeTableWord 64 0x040C000C08040388 = some (.lkctlPost {} 1 2 3)
end

