-- ==== Sys2Proof/Laws/Memory.lean ====
section
/-! SUPPORT. Every memory operation keeps the canonical form of memory (R3, R423): addresses strictly rising and no
entry that is zero. -/

namespace Sys2Proof.Machine

open Sys2Proof

/-- A memory above a bound is one above any lower bound. -/
theorem Mem.above_none (m : Mem) (lo : Option Nat) (h : Mem.above lo m = true) : Mem.above none m = true := by
  cases m with
  | nil => rfl
  | cons x r => simp only [Mem.above, Bool.and_eq_true] at h ⊢; exact ⟨⟨trivial, h.1.2⟩, h.2⟩

theorem Mem.above_lower (m : Mem) (l k : Nat) (hk : k ≤ l) (h : Mem.above (some l) m = true) :
    Mem.above (some k) m = true := by
  cases m with
  | nil => rfl
  | cons x r =>
    simp only [Mem.above, Bool.and_eq_true, decide_eq_true_eq] at h ⊢
    exact ⟨⟨by omega, h.1.2⟩, h.2⟩

/-- A bound below both the memory and the written address is kept. -/
theorem Mem.above_set (m : Mem) : ∀ (l a : Nat) (v : Byte), l < a → Mem.above (some l) m = true →
    Mem.above (some l) (m.set a v) = true := by
  induction m with
  | nil =>
    intro l a v hl _
    unfold Mem.set
    split
    · rfl
    · simp_all [Mem.above]
  | cons x r ih =>
    intro l a v hl h
    obtain ⟨x, w⟩ := x
    simp only [Mem.above, Bool.and_eq_true, decide_eq_true_eq] at h
    unfold Mem.set
    split
    · split
      · simpa [Mem.above] using ⟨⟨h.1.1, h.1.2⟩, h.2⟩
      · rename_i hx hv
        simpa [Mem.above] using ⟨⟨hl, hv⟩, ⟨hx, h.1.2⟩, h.2⟩
    · split
      · split
        · exact Mem.above_lower r x l (by omega) h.2
        · rename_i hx ha hv
          subst ha
          simpa [Mem.above] using ⟨⟨hl, hv⟩, h.2⟩
      · rename_i hx ha
        simpa [Mem.above] using ⟨⟨h.1.1, h.1.2⟩, ih x a v (by omega) h.2⟩

/-- Writing one byte keeps the form. -/
theorem Mem.wf_set (m : Mem) (a : Nat) (v : Byte) (h : m.wf = true) : (m.set a v).wf = true := by
  cases m with
  | nil =>
    unfold Mem.set
    split
    · rfl
    · simp_all [Mem.wf, Mem.above]
  | cons x r =>
    obtain ⟨x, w⟩ := x
    simp only [Mem.wf, Mem.above, Bool.and_eq_true, decide_eq_true_eq, true_and] at h
    unfold Mem.set
    split
    · split
      · simpa [Mem.wf, Mem.above] using h
      · rename_i hx hv
        simpa [Mem.wf, Mem.above] using ⟨hv, ⟨hx, h.1⟩, h.2⟩
    · split
      · split
        · exact Mem.above_none r _ h.2
        · rename_i hx ha hv
          subst ha
          simpa [Mem.wf, Mem.above] using ⟨hv, h.2⟩
      · simpa [Mem.wf, Mem.above] using ⟨h.1, Mem.above_set r x a v (by omega) h.2⟩

/-- Writing a run of bytes keeps it. -/
theorem Mem.wf_write (x : List Byte) : ∀ (m : Mem) (a : Nat), m.wf = true → (m.write a x).wf = true := by
  induction x with
  | nil => exact fun _ _ h => h
  | cons b r ih => exact fun m a h => ih _ _ (Mem.wf_set m a b h)

/-- Writing bytes at their addresses keeps it. -/
theorem Mem.wf_setAll (x : List (Nat × Byte)) : ∀ m : Mem, m.wf = true → (m.setAll x).wf = true := by
  induction x with
  | nil => exact fun _ h => h
  | cons b r ih => exact fun m h => ih _ (Mem.wf_set m b.1 b.2 h)

theorem Mem.above_filter (p : Host.Cell → Bool) (m : Mem) : ∀ l, Mem.above (some l) m = true →
    Mem.above (some l) (m.filter p) = true := by
  induction m with
  | nil => exact fun _ h => h
  | cons x r ih =>
    intro l h
    simp only [Mem.above, Bool.and_eq_true, decide_eq_true_eq] at h
    by_cases hp : p x = true
    · simpa [hp, Mem.above] using ⟨⟨h.1.1, h.1.2⟩, ih _ h.2⟩
    · simpa [hp] using Mem.above_lower _ x.1 l (by omega) (ih _ h.2)

/-- Dropping entries keeps it. -/
theorem Mem.wf_filter (p : Host.Cell → Bool) (m : Mem) (h : m.wf = true) : Mem.wf (m.filter p) = true := by
  cases m with
  | nil => rfl
  | cons x r =>
    simp only [Mem.wf, Mem.above, Bool.and_eq_true, decide_eq_true_eq, true_and] at h
    by_cases hp : p x = true
    · simpa [hp, Mem.wf, Mem.above] using ⟨h.1, Mem.above_filter p r x.1 h.2⟩
    · simpa [hp, Mem.wf] using Mem.above_none _ _ (Mem.above_filter p r x.1 h.2)

/-- Clearing a range keeps it. -/
theorem Mem.wf_clear (m : Mem) (a n : Nat) (h : m.wf = true) : (m.clear a n).wf = true := Mem.wf_filter _ m h

/-- Memory at reset has it. -/
theorem Mem.wf_reset : State.reset.mem.wf = true := rfl

/-- The byte under the lower bound of a memory is zero. -/
theorem Mem.get_below (m : Mem) : ∀ (l a : Nat), a ≤ l → Mem.above (some l) m = true → m.get a = 0 := by
  induction m with
  | nil => exact fun _ _ _ _ => rfl
  | cons x r ih =>
    intro l a ha h
    simp only [Mem.above, Bool.and_eq_true, decide_eq_true_eq] at h
    unfold Mem.get
    rw [if_neg (by omega)]
    exact ih x.1 a (by omega) h.2

end Sys2Proof.Machine
end

