-- ==== Sys2Proof/Laws/State.lean ====
section
/-! SUPPORT. What each update of the state, of a block, of a fibre and of the cox thread leaves alone, one lemma for each
field, and what a lookup gives after an update. -/

namespace Sys2Proof.Machine

open Sys2Proof

section

variable (s : State) (c : Nat) (f : Core → Core)

@[simp] theorem State.updCore_tick : (s.updCore c f).tick = s.tick := rfl
@[simp] theorem State.updCore_agenda : (s.updCore c f).agenda = s.agenda := rfl
@[simp] theorem State.updCore_cur : (s.updCore c f).cur = s.cur := rfl
@[simp] theorem State.updCore_nextId : (s.updCore c f).nextId = s.nextId := rfl
@[simp] theorem State.updCore_stage : (s.updCore c f).stage = s.stage := rfl
@[simp] theorem State.updCore_mgErr : (s.updCore c f).mgErr = s.mgErr := rfl
@[simp] theorem State.updCore_mgTrip : (s.updCore c f).mgTrip = s.mgTrip := rfl
@[simp] theorem State.updCore_miss : (s.updCore c f).miss = s.miss := rfl
@[simp] theorem State.updCore_lmiss : (s.updCore c f).lmiss = s.lmiss := rfl
@[simp] theorem State.updCore_mgPwr : (s.updCore c f).mgPwr = s.mgPwr := rfl
@[simp] theorem State.updCore_mgTemp : (s.updCore c f).mgTemp = s.mgTemp := rfl
@[simp] theorem State.updCore_mgPin : (s.updCore c f).mgPin = s.mgPin := rfl
@[simp] theorem State.updCore_mgPinNext : (s.updCore c f).mgPinNext = s.mgPinNext := rfl
@[simp] theorem State.updCore_mgRecs : (s.updCore c f).mgRecs = s.mgRecs := rfl
@[simp] theorem State.updCore_mgWaiting : (s.updCore c f).mgWaiting = s.mgWaiting := rfl
@[simp] theorem State.updCore_image : (s.updCore c f).image = s.image := rfl
@[simp] theorem State.updCore_cdies : (s.updCore c f).cdies = s.cdies := rfl
@[simp] theorem State.updCore_ldies : (s.updCore c f).ldies = s.ldies := rfl
@[simp] theorem State.updCore_mem : (s.updCore c f).mem = s.mem := rfl
@[simp] theorem State.updCore_seq : (s.updCore c f).seq = s.seq := rfl
@[simp] theorem State.updCore_poison : (s.updCore c f).poison = s.poison := rfl
@[simp] theorem State.updCore_blocks : (s.updCore c f).blocks = s.blocks := rfl
@[simp] theorem State.updCore_groups : (s.updCore c f).groups = s.groups := rfl
@[simp] theorem State.updCore_ctxs : (s.updCore c f).ctxs = s.ctxs := rfl
@[simp] theorem State.updCore_launches : (s.updCore c f).launches = s.launches := rfl
@[simp] theorem State.updCore_saved : (s.updCore c f).saved = s.saved := rfl
@[simp] theorem State.updCore_placePtr : (s.updCore c f).placePtr = s.placePtr := rfl
@[simp] theorem State.updCore_pends : (s.updCore c f).pends = s.pends := rfl
@[simp] theorem State.updCore_copies : (s.updCore c f).copies = s.copies := rfl
@[simp] theorem State.updCore_cmds : (s.updCore c f).cmds = s.cmds := rfl
@[simp] theorem State.updCore_drains : (s.updCore c f).drains = s.drains := rfl
@[simp] theorem State.updCore_lates : (s.updCore c f).lates = s.lates := rfl
@[simp] theorem State.updCore_portRR : (s.updCore c f).portRR = s.portRR := rfl
@[simp] theorem State.updCore_stops : (s.updCore c f).stops = s.stops := rfl
@[simp] theorem State.updCore_coals : (s.updCore c f).coals = s.coals := rfl
@[simp] theorem State.updCore_coalWait : (s.updCore c f).coalWait = s.coalWait := rfl
@[simp] theorem State.updCore_hrq : (s.updCore c f).hrq = s.hrq := rfl
@[simp] theorem State.updCore_hostHolder : (s.updCore c f).hostHolder = s.hostHolder := rfl
@[simp] theorem State.updCore_rxBase : (s.updCore c f).rxBase = s.rxBase := rfl
@[simp] theorem State.updCore_rxCtx : (s.updCore c f).rxCtx = s.rxCtx := rfl
@[simp] theorem State.updCore_rxBufs : (s.updCore c f).rxBufs = s.rxBufs := rfl
@[simp] theorem State.updCore_ports : (s.updCore c f).ports = s.ports := rfl
@[simp] theorem State.updCore_devNum : (s.updCore c f).devNum = s.devNum := rfl
@[simp] theorem State.updCore_outstanding : (s.updCore c f).outstanding = s.outstanding := rfl
@[simp] theorem State.updCore_replies : (s.updCore c f).replies = s.replies := rfl
@[simp] theorem State.updCore_lostDevs : (s.updCore c f).lostDevs = s.lostDevs := rfl
@[simp] theorem State.updCore_strays : (s.updCore c f).strays = s.strays := rfl
@[simp] theorem State.updCore_unreach : (s.updCore c f).unreach = s.unreach := rfl
@[simp] theorem State.updCore_quiet : (s.updCore c f).quiet = s.quiet := rfl
@[simp] theorem State.updCore_colls : (s.updCore c f).colls = s.colls := rfl
@[simp] theorem State.updCore_windows : (s.updCore c f).windows = s.windows := rfl
@[simp] theorem State.updCore_sent : (s.updCore c f).sent = s.sent := rfl

end

section

variable (s : State) (d : Nat) (f : CDie → CDie)

@[simp] theorem State.updDie_tick : (s.updDie d f).tick = s.tick := rfl
@[simp] theorem State.updDie_agenda : (s.updDie d f).agenda = s.agenda := rfl
@[simp] theorem State.updDie_cur : (s.updDie d f).cur = s.cur := rfl
@[simp] theorem State.updDie_nextId : (s.updDie d f).nextId = s.nextId := rfl
@[simp] theorem State.updDie_stage : (s.updDie d f).stage = s.stage := rfl
@[simp] theorem State.updDie_mgErr : (s.updDie d f).mgErr = s.mgErr := rfl
@[simp] theorem State.updDie_mgTrip : (s.updDie d f).mgTrip = s.mgTrip := rfl
@[simp] theorem State.updDie_miss : (s.updDie d f).miss = s.miss := rfl
@[simp] theorem State.updDie_lmiss : (s.updDie d f).lmiss = s.lmiss := rfl
@[simp] theorem State.updDie_mgPwr : (s.updDie d f).mgPwr = s.mgPwr := rfl
@[simp] theorem State.updDie_mgTemp : (s.updDie d f).mgTemp = s.mgTemp := rfl
@[simp] theorem State.updDie_mgPin : (s.updDie d f).mgPin = s.mgPin := rfl
@[simp] theorem State.updDie_mgPinNext : (s.updDie d f).mgPinNext = s.mgPinNext := rfl
@[simp] theorem State.updDie_mgRecs : (s.updDie d f).mgRecs = s.mgRecs := rfl
@[simp] theorem State.updDie_mgWaiting : (s.updDie d f).mgWaiting = s.mgWaiting := rfl
@[simp] theorem State.updDie_image : (s.updDie d f).image = s.image := rfl
@[simp] theorem State.updDie_ldies : (s.updDie d f).ldies = s.ldies := rfl
@[simp] theorem State.updDie_mem : (s.updDie d f).mem = s.mem := rfl
@[simp] theorem State.updDie_seq : (s.updDie d f).seq = s.seq := rfl
@[simp] theorem State.updDie_poison : (s.updDie d f).poison = s.poison := rfl
@[simp] theorem State.updDie_cores : (s.updDie d f).cores = s.cores := rfl
@[simp] theorem State.updDie_blocks : (s.updDie d f).blocks = s.blocks := rfl
@[simp] theorem State.updDie_groups : (s.updDie d f).groups = s.groups := rfl
@[simp] theorem State.updDie_ctxs : (s.updDie d f).ctxs = s.ctxs := rfl
@[simp] theorem State.updDie_launches : (s.updDie d f).launches = s.launches := rfl
@[simp] theorem State.updDie_saved : (s.updDie d f).saved = s.saved := rfl
@[simp] theorem State.updDie_placePtr : (s.updDie d f).placePtr = s.placePtr := rfl
@[simp] theorem State.updDie_pends : (s.updDie d f).pends = s.pends := rfl
@[simp] theorem State.updDie_copies : (s.updDie d f).copies = s.copies := rfl
@[simp] theorem State.updDie_cmds : (s.updDie d f).cmds = s.cmds := rfl
@[simp] theorem State.updDie_drains : (s.updDie d f).drains = s.drains := rfl
@[simp] theorem State.updDie_lates : (s.updDie d f).lates = s.lates := rfl
@[simp] theorem State.updDie_portRR : (s.updDie d f).portRR = s.portRR := rfl
@[simp] theorem State.updDie_stops : (s.updDie d f).stops = s.stops := rfl
@[simp] theorem State.updDie_coals : (s.updDie d f).coals = s.coals := rfl
@[simp] theorem State.updDie_coalWait : (s.updDie d f).coalWait = s.coalWait := rfl
@[simp] theorem State.updDie_hrq : (s.updDie d f).hrq = s.hrq := rfl
@[simp] theorem State.updDie_hostHolder : (s.updDie d f).hostHolder = s.hostHolder := rfl
@[simp] theorem State.updDie_rxBase : (s.updDie d f).rxBase = s.rxBase := rfl
@[simp] theorem State.updDie_rxCtx : (s.updDie d f).rxCtx = s.rxCtx := rfl
@[simp] theorem State.updDie_rxBufs : (s.updDie d f).rxBufs = s.rxBufs := rfl
@[simp] theorem State.updDie_ports : (s.updDie d f).ports = s.ports := rfl
@[simp] theorem State.updDie_devNum : (s.updDie d f).devNum = s.devNum := rfl
@[simp] theorem State.updDie_outstanding : (s.updDie d f).outstanding = s.outstanding := rfl
@[simp] theorem State.updDie_replies : (s.updDie d f).replies = s.replies := rfl
@[simp] theorem State.updDie_lostDevs : (s.updDie d f).lostDevs = s.lostDevs := rfl
@[simp] theorem State.updDie_strays : (s.updDie d f).strays = s.strays := rfl
@[simp] theorem State.updDie_unreach : (s.updDie d f).unreach = s.unreach := rfl
@[simp] theorem State.updDie_quiet : (s.updDie d f).quiet = s.quiet := rfl
@[simp] theorem State.updDie_colls : (s.updDie d f).colls = s.colls := rfl
@[simp] theorem State.updDie_windows : (s.updDie d f).windows = s.windows := rfl
@[simp] theorem State.updDie_sent : (s.updDie d f).sent = s.sent := rfl

end

section

variable (s : State) (n : Nat) (f : Ctx → Ctx)

@[simp] theorem State.updCtx_tick : (s.updCtx n f).tick = s.tick := rfl
@[simp] theorem State.updCtx_agenda : (s.updCtx n f).agenda = s.agenda := rfl
@[simp] theorem State.updCtx_cur : (s.updCtx n f).cur = s.cur := rfl
@[simp] theorem State.updCtx_nextId : (s.updCtx n f).nextId = s.nextId := rfl
@[simp] theorem State.updCtx_stage : (s.updCtx n f).stage = s.stage := rfl
@[simp] theorem State.updCtx_mgErr : (s.updCtx n f).mgErr = s.mgErr := rfl
@[simp] theorem State.updCtx_mgTrip : (s.updCtx n f).mgTrip = s.mgTrip := rfl
@[simp] theorem State.updCtx_miss : (s.updCtx n f).miss = s.miss := rfl
@[simp] theorem State.updCtx_lmiss : (s.updCtx n f).lmiss = s.lmiss := rfl
@[simp] theorem State.updCtx_mgPwr : (s.updCtx n f).mgPwr = s.mgPwr := rfl
@[simp] theorem State.updCtx_mgTemp : (s.updCtx n f).mgTemp = s.mgTemp := rfl
@[simp] theorem State.updCtx_mgPin : (s.updCtx n f).mgPin = s.mgPin := rfl
@[simp] theorem State.updCtx_mgPinNext : (s.updCtx n f).mgPinNext = s.mgPinNext := rfl
@[simp] theorem State.updCtx_mgRecs : (s.updCtx n f).mgRecs = s.mgRecs := rfl
@[simp] theorem State.updCtx_mgWaiting : (s.updCtx n f).mgWaiting = s.mgWaiting := rfl
@[simp] theorem State.updCtx_image : (s.updCtx n f).image = s.image := rfl
@[simp] theorem State.updCtx_cdies : (s.updCtx n f).cdies = s.cdies := rfl
@[simp] theorem State.updCtx_ldies : (s.updCtx n f).ldies = s.ldies := rfl
@[simp] theorem State.updCtx_mem : (s.updCtx n f).mem = s.mem := rfl
@[simp] theorem State.updCtx_seq : (s.updCtx n f).seq = s.seq := rfl
@[simp] theorem State.updCtx_poison : (s.updCtx n f).poison = s.poison := rfl
@[simp] theorem State.updCtx_cores : (s.updCtx n f).cores = s.cores := rfl
@[simp] theorem State.updCtx_blocks : (s.updCtx n f).blocks = s.blocks := rfl
@[simp] theorem State.updCtx_groups : (s.updCtx n f).groups = s.groups := rfl
@[simp] theorem State.updCtx_launches : (s.updCtx n f).launches = s.launches := rfl
@[simp] theorem State.updCtx_saved : (s.updCtx n f).saved = s.saved := rfl
@[simp] theorem State.updCtx_placePtr : (s.updCtx n f).placePtr = s.placePtr := rfl
@[simp] theorem State.updCtx_pends : (s.updCtx n f).pends = s.pends := rfl
@[simp] theorem State.updCtx_copies : (s.updCtx n f).copies = s.copies := rfl
@[simp] theorem State.updCtx_cmds : (s.updCtx n f).cmds = s.cmds := rfl
@[simp] theorem State.updCtx_drains : (s.updCtx n f).drains = s.drains := rfl
@[simp] theorem State.updCtx_lates : (s.updCtx n f).lates = s.lates := rfl
@[simp] theorem State.updCtx_portRR : (s.updCtx n f).portRR = s.portRR := rfl
@[simp] theorem State.updCtx_stops : (s.updCtx n f).stops = s.stops := rfl
@[simp] theorem State.updCtx_coals : (s.updCtx n f).coals = s.coals := rfl
@[simp] theorem State.updCtx_coalWait : (s.updCtx n f).coalWait = s.coalWait := rfl
@[simp] theorem State.updCtx_hrq : (s.updCtx n f).hrq = s.hrq := rfl
@[simp] theorem State.updCtx_hostHolder : (s.updCtx n f).hostHolder = s.hostHolder := rfl
@[simp] theorem State.updCtx_rxBase : (s.updCtx n f).rxBase = s.rxBase := rfl
@[simp] theorem State.updCtx_rxCtx : (s.updCtx n f).rxCtx = s.rxCtx := rfl
@[simp] theorem State.updCtx_rxBufs : (s.updCtx n f).rxBufs = s.rxBufs := rfl
@[simp] theorem State.updCtx_ports : (s.updCtx n f).ports = s.ports := rfl
@[simp] theorem State.updCtx_devNum : (s.updCtx n f).devNum = s.devNum := rfl
@[simp] theorem State.updCtx_outstanding : (s.updCtx n f).outstanding = s.outstanding := rfl
@[simp] theorem State.updCtx_replies : (s.updCtx n f).replies = s.replies := rfl
@[simp] theorem State.updCtx_lostDevs : (s.updCtx n f).lostDevs = s.lostDevs := rfl
@[simp] theorem State.updCtx_strays : (s.updCtx n f).strays = s.strays := rfl
@[simp] theorem State.updCtx_unreach : (s.updCtx n f).unreach = s.unreach := rfl
@[simp] theorem State.updCtx_quiet : (s.updCtx n f).quiet = s.quiet := rfl
@[simp] theorem State.updCtx_colls : (s.updCtx n f).colls = s.colls := rfl
@[simp] theorem State.updCtx_windows : (s.updCtx n f).windows = s.windows := rfl
@[simp] theorem State.updCtx_sent : (s.updCtx n f).sent = s.sent := rfl

end

section

variable (s : State) (c l : Nat) (f : Block → Block)

@[simp] theorem State.updBlock_tick : (s.updBlock c l f).tick = s.tick := rfl
@[simp] theorem State.updBlock_agenda : (s.updBlock c l f).agenda = s.agenda := rfl
@[simp] theorem State.updBlock_cur : (s.updBlock c l f).cur = s.cur := rfl
@[simp] theorem State.updBlock_nextId : (s.updBlock c l f).nextId = s.nextId := rfl
@[simp] theorem State.updBlock_stage : (s.updBlock c l f).stage = s.stage := rfl
@[simp] theorem State.updBlock_mgErr : (s.updBlock c l f).mgErr = s.mgErr := rfl
@[simp] theorem State.updBlock_mgTrip : (s.updBlock c l f).mgTrip = s.mgTrip := rfl
@[simp] theorem State.updBlock_miss : (s.updBlock c l f).miss = s.miss := rfl
@[simp] theorem State.updBlock_lmiss : (s.updBlock c l f).lmiss = s.lmiss := rfl
@[simp] theorem State.updBlock_mgPwr : (s.updBlock c l f).mgPwr = s.mgPwr := rfl
@[simp] theorem State.updBlock_mgTemp : (s.updBlock c l f).mgTemp = s.mgTemp := rfl
@[simp] theorem State.updBlock_mgPin : (s.updBlock c l f).mgPin = s.mgPin := rfl
@[simp] theorem State.updBlock_mgPinNext : (s.updBlock c l f).mgPinNext = s.mgPinNext := rfl
@[simp] theorem State.updBlock_mgRecs : (s.updBlock c l f).mgRecs = s.mgRecs := rfl
@[simp] theorem State.updBlock_mgWaiting : (s.updBlock c l f).mgWaiting = s.mgWaiting := rfl
@[simp] theorem State.updBlock_image : (s.updBlock c l f).image = s.image := rfl
@[simp] theorem State.updBlock_cdies : (s.updBlock c l f).cdies = s.cdies := rfl
@[simp] theorem State.updBlock_ldies : (s.updBlock c l f).ldies = s.ldies := rfl
@[simp] theorem State.updBlock_mem : (s.updBlock c l f).mem = s.mem := rfl
@[simp] theorem State.updBlock_seq : (s.updBlock c l f).seq = s.seq := rfl
@[simp] theorem State.updBlock_poison : (s.updBlock c l f).poison = s.poison := rfl
@[simp] theorem State.updBlock_cores : (s.updBlock c l f).cores = s.cores := rfl
@[simp] theorem State.updBlock_groups : (s.updBlock c l f).groups = s.groups := rfl
@[simp] theorem State.updBlock_ctxs : (s.updBlock c l f).ctxs = s.ctxs := rfl
@[simp] theorem State.updBlock_launches : (s.updBlock c l f).launches = s.launches := rfl
@[simp] theorem State.updBlock_saved : (s.updBlock c l f).saved = s.saved := rfl
@[simp] theorem State.updBlock_placePtr : (s.updBlock c l f).placePtr = s.placePtr := rfl
@[simp] theorem State.updBlock_pends : (s.updBlock c l f).pends = s.pends := rfl
@[simp] theorem State.updBlock_copies : (s.updBlock c l f).copies = s.copies := rfl
@[simp] theorem State.updBlock_cmds : (s.updBlock c l f).cmds = s.cmds := rfl
@[simp] theorem State.updBlock_drains : (s.updBlock c l f).drains = s.drains := rfl
@[simp] theorem State.updBlock_lates : (s.updBlock c l f).lates = s.lates := rfl
@[simp] theorem State.updBlock_portRR : (s.updBlock c l f).portRR = s.portRR := rfl
@[simp] theorem State.updBlock_stops : (s.updBlock c l f).stops = s.stops := rfl
@[simp] theorem State.updBlock_coals : (s.updBlock c l f).coals = s.coals := rfl
@[simp] theorem State.updBlock_coalWait : (s.updBlock c l f).coalWait = s.coalWait := rfl
@[simp] theorem State.updBlock_hrq : (s.updBlock c l f).hrq = s.hrq := rfl
@[simp] theorem State.updBlock_hostHolder : (s.updBlock c l f).hostHolder = s.hostHolder := rfl
@[simp] theorem State.updBlock_rxBase : (s.updBlock c l f).rxBase = s.rxBase := rfl
@[simp] theorem State.updBlock_rxCtx : (s.updBlock c l f).rxCtx = s.rxCtx := rfl
@[simp] theorem State.updBlock_rxBufs : (s.updBlock c l f).rxBufs = s.rxBufs := rfl
@[simp] theorem State.updBlock_ports : (s.updBlock c l f).ports = s.ports := rfl
@[simp] theorem State.updBlock_devNum : (s.updBlock c l f).devNum = s.devNum := rfl
@[simp] theorem State.updBlock_outstanding : (s.updBlock c l f).outstanding = s.outstanding := rfl
@[simp] theorem State.updBlock_replies : (s.updBlock c l f).replies = s.replies := rfl
@[simp] theorem State.updBlock_lostDevs : (s.updBlock c l f).lostDevs = s.lostDevs := rfl
@[simp] theorem State.updBlock_strays : (s.updBlock c l f).strays = s.strays := rfl
@[simp] theorem State.updBlock_unreach : (s.updBlock c l f).unreach = s.unreach := rfl
@[simp] theorem State.updBlock_quiet : (s.updBlock c l f).quiet = s.quiet := rfl
@[simp] theorem State.updBlock_colls : (s.updBlock c l f).colls = s.colls := rfl
@[simp] theorem State.updBlock_windows : (s.updBlock c l f).windows = s.windows := rfl
@[simp] theorem State.updBlock_sent : (s.updBlock c l f).sent = s.sent := rfl

end

section

variable (s : State) (f : Block → Block)

@[simp] theorem State.updMe_tick : (s.updMe f).tick = s.tick := rfl
@[simp] theorem State.updMe_agenda : (s.updMe f).agenda = s.agenda := rfl
@[simp] theorem State.updMe_cur : (s.updMe f).cur = s.cur := rfl
@[simp] theorem State.updMe_nextId : (s.updMe f).nextId = s.nextId := rfl
@[simp] theorem State.updMe_stage : (s.updMe f).stage = s.stage := rfl
@[simp] theorem State.updMe_mgErr : (s.updMe f).mgErr = s.mgErr := rfl
@[simp] theorem State.updMe_mgTrip : (s.updMe f).mgTrip = s.mgTrip := rfl
@[simp] theorem State.updMe_miss : (s.updMe f).miss = s.miss := rfl
@[simp] theorem State.updMe_lmiss : (s.updMe f).lmiss = s.lmiss := rfl
@[simp] theorem State.updMe_mgPwr : (s.updMe f).mgPwr = s.mgPwr := rfl
@[simp] theorem State.updMe_mgTemp : (s.updMe f).mgTemp = s.mgTemp := rfl
@[simp] theorem State.updMe_mgPin : (s.updMe f).mgPin = s.mgPin := rfl
@[simp] theorem State.updMe_mgPinNext : (s.updMe f).mgPinNext = s.mgPinNext := rfl
@[simp] theorem State.updMe_mgRecs : (s.updMe f).mgRecs = s.mgRecs := rfl
@[simp] theorem State.updMe_mgWaiting : (s.updMe f).mgWaiting = s.mgWaiting := rfl
@[simp] theorem State.updMe_image : (s.updMe f).image = s.image := rfl
@[simp] theorem State.updMe_cdies : (s.updMe f).cdies = s.cdies := rfl
@[simp] theorem State.updMe_ldies : (s.updMe f).ldies = s.ldies := rfl
@[simp] theorem State.updMe_mem : (s.updMe f).mem = s.mem := rfl
@[simp] theorem State.updMe_seq : (s.updMe f).seq = s.seq := rfl
@[simp] theorem State.updMe_poison : (s.updMe f).poison = s.poison := rfl
@[simp] theorem State.updMe_cores : (s.updMe f).cores = s.cores := rfl
@[simp] theorem State.updMe_groups : (s.updMe f).groups = s.groups := rfl
@[simp] theorem State.updMe_ctxs : (s.updMe f).ctxs = s.ctxs := rfl
@[simp] theorem State.updMe_launches : (s.updMe f).launches = s.launches := rfl
@[simp] theorem State.updMe_saved : (s.updMe f).saved = s.saved := rfl
@[simp] theorem State.updMe_placePtr : (s.updMe f).placePtr = s.placePtr := rfl
@[simp] theorem State.updMe_pends : (s.updMe f).pends = s.pends := rfl
@[simp] theorem State.updMe_copies : (s.updMe f).copies = s.copies := rfl
@[simp] theorem State.updMe_cmds : (s.updMe f).cmds = s.cmds := rfl
@[simp] theorem State.updMe_drains : (s.updMe f).drains = s.drains := rfl
@[simp] theorem State.updMe_lates : (s.updMe f).lates = s.lates := rfl
@[simp] theorem State.updMe_portRR : (s.updMe f).portRR = s.portRR := rfl
@[simp] theorem State.updMe_stops : (s.updMe f).stops = s.stops := rfl
@[simp] theorem State.updMe_coals : (s.updMe f).coals = s.coals := rfl
@[simp] theorem State.updMe_coalWait : (s.updMe f).coalWait = s.coalWait := rfl
@[simp] theorem State.updMe_hrq : (s.updMe f).hrq = s.hrq := rfl
@[simp] theorem State.updMe_hostHolder : (s.updMe f).hostHolder = s.hostHolder := rfl
@[simp] theorem State.updMe_rxBase : (s.updMe f).rxBase = s.rxBase := rfl
@[simp] theorem State.updMe_rxCtx : (s.updMe f).rxCtx = s.rxCtx := rfl
@[simp] theorem State.updMe_rxBufs : (s.updMe f).rxBufs = s.rxBufs := rfl
@[simp] theorem State.updMe_ports : (s.updMe f).ports = s.ports := rfl
@[simp] theorem State.updMe_devNum : (s.updMe f).devNum = s.devNum := rfl
@[simp] theorem State.updMe_outstanding : (s.updMe f).outstanding = s.outstanding := rfl
@[simp] theorem State.updMe_replies : (s.updMe f).replies = s.replies := rfl
@[simp] theorem State.updMe_lostDevs : (s.updMe f).lostDevs = s.lostDevs := rfl
@[simp] theorem State.updMe_strays : (s.updMe f).strays = s.strays := rfl
@[simp] theorem State.updMe_unreach : (s.updMe f).unreach = s.unreach := rfl
@[simp] theorem State.updMe_quiet : (s.updMe f).quiet = s.quiet := rfl
@[simp] theorem State.updMe_colls : (s.updMe f).colls = s.colls := rfl
@[simp] theorem State.updMe_windows : (s.updMe f).windows = s.windows := rfl
@[simp] theorem State.updMe_sent : (s.updMe f).sent = s.sent := rfl

end

section

variable (s : State) (i : Nat) (f : Fibre → Fibre)

@[simp] theorem State.updMyFib_tick : (s.updMyFib i f).tick = s.tick := rfl
@[simp] theorem State.updMyFib_agenda : (s.updMyFib i f).agenda = s.agenda := rfl
@[simp] theorem State.updMyFib_cur : (s.updMyFib i f).cur = s.cur := rfl
@[simp] theorem State.updMyFib_nextId : (s.updMyFib i f).nextId = s.nextId := rfl
@[simp] theorem State.updMyFib_stage : (s.updMyFib i f).stage = s.stage := rfl
@[simp] theorem State.updMyFib_mgErr : (s.updMyFib i f).mgErr = s.mgErr := rfl
@[simp] theorem State.updMyFib_mgTrip : (s.updMyFib i f).mgTrip = s.mgTrip := rfl
@[simp] theorem State.updMyFib_miss : (s.updMyFib i f).miss = s.miss := rfl
@[simp] theorem State.updMyFib_lmiss : (s.updMyFib i f).lmiss = s.lmiss := rfl
@[simp] theorem State.updMyFib_mgPwr : (s.updMyFib i f).mgPwr = s.mgPwr := rfl
@[simp] theorem State.updMyFib_mgTemp : (s.updMyFib i f).mgTemp = s.mgTemp := rfl
@[simp] theorem State.updMyFib_mgPin : (s.updMyFib i f).mgPin = s.mgPin := rfl
@[simp] theorem State.updMyFib_mgPinNext : (s.updMyFib i f).mgPinNext = s.mgPinNext := rfl
@[simp] theorem State.updMyFib_mgRecs : (s.updMyFib i f).mgRecs = s.mgRecs := rfl
@[simp] theorem State.updMyFib_mgWaiting : (s.updMyFib i f).mgWaiting = s.mgWaiting := rfl
@[simp] theorem State.updMyFib_image : (s.updMyFib i f).image = s.image := rfl
@[simp] theorem State.updMyFib_cdies : (s.updMyFib i f).cdies = s.cdies := rfl
@[simp] theorem State.updMyFib_ldies : (s.updMyFib i f).ldies = s.ldies := rfl
@[simp] theorem State.updMyFib_mem : (s.updMyFib i f).mem = s.mem := rfl
@[simp] theorem State.updMyFib_seq : (s.updMyFib i f).seq = s.seq := rfl
@[simp] theorem State.updMyFib_poison : (s.updMyFib i f).poison = s.poison := rfl
@[simp] theorem State.updMyFib_cores : (s.updMyFib i f).cores = s.cores := rfl
@[simp] theorem State.updMyFib_groups : (s.updMyFib i f).groups = s.groups := rfl
@[simp] theorem State.updMyFib_ctxs : (s.updMyFib i f).ctxs = s.ctxs := rfl
@[simp] theorem State.updMyFib_launches : (s.updMyFib i f).launches = s.launches := rfl
@[simp] theorem State.updMyFib_saved : (s.updMyFib i f).saved = s.saved := rfl
@[simp] theorem State.updMyFib_placePtr : (s.updMyFib i f).placePtr = s.placePtr := rfl
@[simp] theorem State.updMyFib_pends : (s.updMyFib i f).pends = s.pends := rfl
@[simp] theorem State.updMyFib_copies : (s.updMyFib i f).copies = s.copies := rfl
@[simp] theorem State.updMyFib_cmds : (s.updMyFib i f).cmds = s.cmds := rfl
@[simp] theorem State.updMyFib_drains : (s.updMyFib i f).drains = s.drains := rfl
@[simp] theorem State.updMyFib_lates : (s.updMyFib i f).lates = s.lates := rfl
@[simp] theorem State.updMyFib_portRR : (s.updMyFib i f).portRR = s.portRR := rfl
@[simp] theorem State.updMyFib_stops : (s.updMyFib i f).stops = s.stops := rfl
@[simp] theorem State.updMyFib_coals : (s.updMyFib i f).coals = s.coals := rfl
@[simp] theorem State.updMyFib_coalWait : (s.updMyFib i f).coalWait = s.coalWait := rfl
@[simp] theorem State.updMyFib_hrq : (s.updMyFib i f).hrq = s.hrq := rfl
@[simp] theorem State.updMyFib_hostHolder : (s.updMyFib i f).hostHolder = s.hostHolder := rfl
@[simp] theorem State.updMyFib_rxBase : (s.updMyFib i f).rxBase = s.rxBase := rfl
@[simp] theorem State.updMyFib_rxCtx : (s.updMyFib i f).rxCtx = s.rxCtx := rfl
@[simp] theorem State.updMyFib_rxBufs : (s.updMyFib i f).rxBufs = s.rxBufs := rfl
@[simp] theorem State.updMyFib_ports : (s.updMyFib i f).ports = s.ports := rfl
@[simp] theorem State.updMyFib_devNum : (s.updMyFib i f).devNum = s.devNum := rfl
@[simp] theorem State.updMyFib_outstanding : (s.updMyFib i f).outstanding = s.outstanding := rfl
@[simp] theorem State.updMyFib_replies : (s.updMyFib i f).replies = s.replies := rfl
@[simp] theorem State.updMyFib_lostDevs : (s.updMyFib i f).lostDevs = s.lostDevs := rfl
@[simp] theorem State.updMyFib_strays : (s.updMyFib i f).strays = s.strays := rfl
@[simp] theorem State.updMyFib_unreach : (s.updMyFib i f).unreach = s.unreach := rfl
@[simp] theorem State.updMyFib_quiet : (s.updMyFib i f).quiet = s.quiet := rfl
@[simp] theorem State.updMyFib_colls : (s.updMyFib i f).colls = s.colls := rfl
@[simp] theorem State.updMyFib_windows : (s.updMyFib i f).windows = s.windows := rfl
@[simp] theorem State.updMyFib_sent : (s.updMyFib i f).sent = s.sent := rfl

end

section

variable (s : State) (c n : Nat) (f : Launch → Launch)

@[simp] theorem State.updLaunch_tick : (s.updLaunch c n f).tick = s.tick := rfl
@[simp] theorem State.updLaunch_agenda : (s.updLaunch c n f).agenda = s.agenda := rfl
@[simp] theorem State.updLaunch_cur : (s.updLaunch c n f).cur = s.cur := rfl
@[simp] theorem State.updLaunch_nextId : (s.updLaunch c n f).nextId = s.nextId := rfl
@[simp] theorem State.updLaunch_stage : (s.updLaunch c n f).stage = s.stage := rfl
@[simp] theorem State.updLaunch_mgErr : (s.updLaunch c n f).mgErr = s.mgErr := rfl
@[simp] theorem State.updLaunch_mgTrip : (s.updLaunch c n f).mgTrip = s.mgTrip := rfl
@[simp] theorem State.updLaunch_miss : (s.updLaunch c n f).miss = s.miss := rfl
@[simp] theorem State.updLaunch_lmiss : (s.updLaunch c n f).lmiss = s.lmiss := rfl
@[simp] theorem State.updLaunch_mgPwr : (s.updLaunch c n f).mgPwr = s.mgPwr := rfl
@[simp] theorem State.updLaunch_mgTemp : (s.updLaunch c n f).mgTemp = s.mgTemp := rfl
@[simp] theorem State.updLaunch_mgPin : (s.updLaunch c n f).mgPin = s.mgPin := rfl
@[simp] theorem State.updLaunch_mgPinNext : (s.updLaunch c n f).mgPinNext = s.mgPinNext := rfl
@[simp] theorem State.updLaunch_mgRecs : (s.updLaunch c n f).mgRecs = s.mgRecs := rfl
@[simp] theorem State.updLaunch_mgWaiting : (s.updLaunch c n f).mgWaiting = s.mgWaiting := rfl
@[simp] theorem State.updLaunch_image : (s.updLaunch c n f).image = s.image := rfl
@[simp] theorem State.updLaunch_cdies : (s.updLaunch c n f).cdies = s.cdies := rfl
@[simp] theorem State.updLaunch_ldies : (s.updLaunch c n f).ldies = s.ldies := rfl
@[simp] theorem State.updLaunch_mem : (s.updLaunch c n f).mem = s.mem := rfl
@[simp] theorem State.updLaunch_seq : (s.updLaunch c n f).seq = s.seq := rfl
@[simp] theorem State.updLaunch_poison : (s.updLaunch c n f).poison = s.poison := rfl
@[simp] theorem State.updLaunch_cores : (s.updLaunch c n f).cores = s.cores := rfl
@[simp] theorem State.updLaunch_blocks : (s.updLaunch c n f).blocks = s.blocks := rfl
@[simp] theorem State.updLaunch_groups : (s.updLaunch c n f).groups = s.groups := rfl
@[simp] theorem State.updLaunch_ctxs : (s.updLaunch c n f).ctxs = s.ctxs := rfl
@[simp] theorem State.updLaunch_saved : (s.updLaunch c n f).saved = s.saved := rfl
@[simp] theorem State.updLaunch_placePtr : (s.updLaunch c n f).placePtr = s.placePtr := rfl
@[simp] theorem State.updLaunch_pends : (s.updLaunch c n f).pends = s.pends := rfl
@[simp] theorem State.updLaunch_copies : (s.updLaunch c n f).copies = s.copies := rfl
@[simp] theorem State.updLaunch_cmds : (s.updLaunch c n f).cmds = s.cmds := rfl
@[simp] theorem State.updLaunch_drains : (s.updLaunch c n f).drains = s.drains := rfl
@[simp] theorem State.updLaunch_lates : (s.updLaunch c n f).lates = s.lates := rfl
@[simp] theorem State.updLaunch_portRR : (s.updLaunch c n f).portRR = s.portRR := rfl
@[simp] theorem State.updLaunch_stops : (s.updLaunch c n f).stops = s.stops := rfl
@[simp] theorem State.updLaunch_coals : (s.updLaunch c n f).coals = s.coals := rfl
@[simp] theorem State.updLaunch_coalWait : (s.updLaunch c n f).coalWait = s.coalWait := rfl
@[simp] theorem State.updLaunch_hrq : (s.updLaunch c n f).hrq = s.hrq := rfl
@[simp] theorem State.updLaunch_hostHolder : (s.updLaunch c n f).hostHolder = s.hostHolder := rfl
@[simp] theorem State.updLaunch_rxBase : (s.updLaunch c n f).rxBase = s.rxBase := rfl
@[simp] theorem State.updLaunch_rxCtx : (s.updLaunch c n f).rxCtx = s.rxCtx := rfl
@[simp] theorem State.updLaunch_rxBufs : (s.updLaunch c n f).rxBufs = s.rxBufs := rfl
@[simp] theorem State.updLaunch_ports : (s.updLaunch c n f).ports = s.ports := rfl
@[simp] theorem State.updLaunch_devNum : (s.updLaunch c n f).devNum = s.devNum := rfl
@[simp] theorem State.updLaunch_outstanding : (s.updLaunch c n f).outstanding = s.outstanding := rfl
@[simp] theorem State.updLaunch_replies : (s.updLaunch c n f).replies = s.replies := rfl
@[simp] theorem State.updLaunch_lostDevs : (s.updLaunch c n f).lostDevs = s.lostDevs := rfl
@[simp] theorem State.updLaunch_strays : (s.updLaunch c n f).strays = s.strays := rfl
@[simp] theorem State.updLaunch_unreach : (s.updLaunch c n f).unreach = s.unreach := rfl
@[simp] theorem State.updLaunch_quiet : (s.updLaunch c n f).quiet = s.quiet := rfl
@[simp] theorem State.updLaunch_colls : (s.updLaunch c n f).colls = s.colls := rfl
@[simp] theorem State.updLaunch_windows : (s.updLaunch c n f).windows = s.windows := rfl
@[simp] theorem State.updLaunch_sent : (s.updLaunch c n f).sent = s.sent := rfl

end

section

variable (s : State) (c d : Nat) (k : BClass) (n : Nat)

@[simp] theorem State.charge_tick : (s.charge c d k n).tick = s.tick := rfl
@[simp] theorem State.charge_agenda : (s.charge c d k n).agenda = s.agenda := rfl
@[simp] theorem State.charge_cur : (s.charge c d k n).cur = s.cur := rfl
@[simp] theorem State.charge_nextId : (s.charge c d k n).nextId = s.nextId := rfl
@[simp] theorem State.charge_stage : (s.charge c d k n).stage = s.stage := rfl
@[simp] theorem State.charge_mgErr : (s.charge c d k n).mgErr = s.mgErr := rfl
@[simp] theorem State.charge_mgTrip : (s.charge c d k n).mgTrip = s.mgTrip := rfl
@[simp] theorem State.charge_miss : (s.charge c d k n).miss = s.miss := rfl
@[simp] theorem State.charge_lmiss : (s.charge c d k n).lmiss = s.lmiss := rfl
@[simp] theorem State.charge_mgPwr : (s.charge c d k n).mgPwr = s.mgPwr := rfl
@[simp] theorem State.charge_mgTemp : (s.charge c d k n).mgTemp = s.mgTemp := rfl
@[simp] theorem State.charge_mgPin : (s.charge c d k n).mgPin = s.mgPin := rfl
@[simp] theorem State.charge_mgPinNext : (s.charge c d k n).mgPinNext = s.mgPinNext := rfl
@[simp] theorem State.charge_mgRecs : (s.charge c d k n).mgRecs = s.mgRecs := rfl
@[simp] theorem State.charge_mgWaiting : (s.charge c d k n).mgWaiting = s.mgWaiting := rfl
@[simp] theorem State.charge_image : (s.charge c d k n).image = s.image := rfl
@[simp] theorem State.charge_cdies : (s.charge c d k n).cdies = s.cdies := rfl
@[simp] theorem State.charge_ldies : (s.charge c d k n).ldies = s.ldies := rfl
@[simp] theorem State.charge_mem : (s.charge c d k n).mem = s.mem := rfl
@[simp] theorem State.charge_seq : (s.charge c d k n).seq = s.seq := rfl
@[simp] theorem State.charge_poison : (s.charge c d k n).poison = s.poison := rfl
@[simp] theorem State.charge_cores : (s.charge c d k n).cores = s.cores := rfl
@[simp] theorem State.charge_blocks : (s.charge c d k n).blocks = s.blocks := rfl
@[simp] theorem State.charge_groups : (s.charge c d k n).groups = s.groups := rfl
@[simp] theorem State.charge_launches : (s.charge c d k n).launches = s.launches := rfl
@[simp] theorem State.charge_saved : (s.charge c d k n).saved = s.saved := rfl
@[simp] theorem State.charge_placePtr : (s.charge c d k n).placePtr = s.placePtr := rfl
@[simp] theorem State.charge_pends : (s.charge c d k n).pends = s.pends := rfl
@[simp] theorem State.charge_copies : (s.charge c d k n).copies = s.copies := rfl
@[simp] theorem State.charge_cmds : (s.charge c d k n).cmds = s.cmds := rfl
@[simp] theorem State.charge_drains : (s.charge c d k n).drains = s.drains := rfl
@[simp] theorem State.charge_lates : (s.charge c d k n).lates = s.lates := rfl
@[simp] theorem State.charge_portRR : (s.charge c d k n).portRR = s.portRR := rfl
@[simp] theorem State.charge_stops : (s.charge c d k n).stops = s.stops := rfl
@[simp] theorem State.charge_coals : (s.charge c d k n).coals = s.coals := rfl
@[simp] theorem State.charge_coalWait : (s.charge c d k n).coalWait = s.coalWait := rfl
@[simp] theorem State.charge_hrq : (s.charge c d k n).hrq = s.hrq := rfl
@[simp] theorem State.charge_hostHolder : (s.charge c d k n).hostHolder = s.hostHolder := rfl
@[simp] theorem State.charge_rxBase : (s.charge c d k n).rxBase = s.rxBase := rfl
@[simp] theorem State.charge_rxCtx : (s.charge c d k n).rxCtx = s.rxCtx := rfl
@[simp] theorem State.charge_rxBufs : (s.charge c d k n).rxBufs = s.rxBufs := rfl
@[simp] theorem State.charge_ports : (s.charge c d k n).ports = s.ports := rfl
@[simp] theorem State.charge_devNum : (s.charge c d k n).devNum = s.devNum := rfl
@[simp] theorem State.charge_outstanding : (s.charge c d k n).outstanding = s.outstanding := rfl
@[simp] theorem State.charge_replies : (s.charge c d k n).replies = s.replies := rfl
@[simp] theorem State.charge_lostDevs : (s.charge c d k n).lostDevs = s.lostDevs := rfl
@[simp] theorem State.charge_strays : (s.charge c d k n).strays = s.strays := rfl
@[simp] theorem State.charge_unreach : (s.charge c d k n).unreach = s.unreach := rfl
@[simp] theorem State.charge_quiet : (s.charge c d k n).quiet = s.quiet := rfl
@[simp] theorem State.charge_colls : (s.charge c d k n).colls = s.colls := rfl
@[simp] theorem State.charge_windows : (s.charge c d k n).windows = s.windows := rfl
@[simp] theorem State.charge_sent : (s.charge c d k n).sent = s.sent := rfl

end

section

variable (b : Block) (i : Nat) (f : Fibre → Fibre)

@[simp] theorem Block.updFib_core : (b.updFib i f).core = b.core := rfl
@[simp] theorem Block.updFib_slot : (b.updFib i f).slot = b.slot := rfl
@[simp] theorem Block.updFib_ctx : (b.updFib i f).ctx = b.ctx := rfl
@[simp] theorem Block.updFib_launch : (b.updFib i f).launch = b.launch := rfl
@[simp] theorem Block.updFib_blk : (b.updFib i f).blk = b.blk := rfl
@[simp] theorem Block.updFib_nblk : (b.updFib i f).nblk = b.nblk := rfl
@[simp] theorem Block.updFib_group : (b.updFib i f).group = b.group := rfl
@[simp] theorem Block.updFib_kr : (b.updFib i f).kr = b.kr := rfl
@[simp] theorem Block.updFib_rels : (b.updFib i f).rels = b.rels := rfl
@[simp] theorem Block.updFib_cox : (b.updFib i f).cox = b.cox := rfl
@[simp] theorem Block.updFib_walker : (b.updFib i f).walker = b.walker := rfl
@[simp] theorem Block.updFib_parts : (b.updFib i f).parts = b.parts := rfl
@[simp] theorem Block.updFib_origins : (b.updFib i f).origins = b.origins := rfl
@[simp] theorem Block.updFib_nextFid : (b.updFib i f).nextFid = b.nextFid := rfl
@[simp] theorem Block.updFib_keys : (b.updFib i f).keys = b.keys := rfl
@[simp] theorem Block.updFib_insts : (b.updFib i f).insts = b.insts := rfl
@[simp] theorem Block.updFib_regroups : (b.updFib i f).regroups = b.regroups := rfl
@[simp] theorem Block.updFib_emits : (b.updFib i f).emits = b.emits := rfl
@[simp] theorem Block.updFib_dq : (b.updFib i f).dq = b.dq := rfl
@[simp] theorem Block.updFib_q : (b.updFib i f).q = b.q := rfl
@[simp] theorem Block.updFib_stageQ : (b.updFib i f).stageQ = b.stageQ := rfl
@[simp] theorem Block.updFib_stageRR : (b.updFib i f).stageRR = b.stageRR := rfl
@[simp] theorem Block.updFib_stgres : (b.updFib i f).stgres = b.stgres := rfl
@[simp] theorem Block.updFib_bars : (b.updFib i f).bars = b.bars := rfl
@[simp] theorem Block.updFib_scratch : (b.updFib i f).scratch = b.scratch := rfl
@[simp] theorem Block.updFib_const : (b.updFib i f).const = b.const := rfl
@[simp] theorem Block.updFib_xvec : (b.updFib i f).xvec = b.xvec := rfl
@[simp] theorem Block.updFib_scb : (b.updFib i f).scb = b.scb := rfl
@[simp] theorem Block.updFib_scs : (b.updFib i f).scs = b.scs := rfl
@[simp] theorem Block.updFib_ovStop : (b.updFib i f).ovStop = b.ovStop := rfl
@[simp] theorem Block.updFib_idle : (b.updFib i f).idle = b.idle := rfl

end

section

variable (b : Block) (i : Nat) (f : Part → Part)

@[simp] theorem Block.updPart_core : (b.updPart i f).core = b.core := rfl
@[simp] theorem Block.updPart_slot : (b.updPart i f).slot = b.slot := rfl
@[simp] theorem Block.updPart_ctx : (b.updPart i f).ctx = b.ctx := rfl
@[simp] theorem Block.updPart_launch : (b.updPart i f).launch = b.launch := rfl
@[simp] theorem Block.updPart_blk : (b.updPart i f).blk = b.blk := rfl
@[simp] theorem Block.updPart_nblk : (b.updPart i f).nblk = b.nblk := rfl
@[simp] theorem Block.updPart_group : (b.updPart i f).group = b.group := rfl
@[simp] theorem Block.updPart_kr : (b.updPart i f).kr = b.kr := rfl
@[simp] theorem Block.updPart_rels : (b.updPart i f).rels = b.rels := rfl
@[simp] theorem Block.updPart_cox : (b.updPart i f).cox = b.cox := rfl
@[simp] theorem Block.updPart_walker : (b.updPart i f).walker = b.walker := rfl
@[simp] theorem Block.updPart_fibres : (b.updPart i f).fibres = b.fibres := rfl
@[simp] theorem Block.updPart_origins : (b.updPart i f).origins = b.origins := rfl
@[simp] theorem Block.updPart_nextFid : (b.updPart i f).nextFid = b.nextFid := rfl
@[simp] theorem Block.updPart_keys : (b.updPart i f).keys = b.keys := rfl
@[simp] theorem Block.updPart_insts : (b.updPart i f).insts = b.insts := rfl
@[simp] theorem Block.updPart_regroups : (b.updPart i f).regroups = b.regroups := rfl
@[simp] theorem Block.updPart_emits : (b.updPart i f).emits = b.emits := rfl
@[simp] theorem Block.updPart_dq : (b.updPart i f).dq = b.dq := rfl
@[simp] theorem Block.updPart_q : (b.updPart i f).q = b.q := rfl
@[simp] theorem Block.updPart_stageQ : (b.updPart i f).stageQ = b.stageQ := rfl
@[simp] theorem Block.updPart_stageRR : (b.updPart i f).stageRR = b.stageRR := rfl
@[simp] theorem Block.updPart_stgres : (b.updPart i f).stgres = b.stgres := rfl
@[simp] theorem Block.updPart_bars : (b.updPart i f).bars = b.bars := rfl
@[simp] theorem Block.updPart_scratch : (b.updPart i f).scratch = b.scratch := rfl
@[simp] theorem Block.updPart_const : (b.updPart i f).const = b.const := rfl
@[simp] theorem Block.updPart_xvec : (b.updPart i f).xvec = b.xvec := rfl
@[simp] theorem Block.updPart_scb : (b.updPart i f).scb = b.scb := rfl
@[simp] theorem Block.updPart_scs : (b.updPart i f).scs = b.scs := rfl
@[simp] theorem Block.updPart_ovStop : (b.updPart i f).ovStop = b.ovStop := rfl
@[simp] theorem Block.updPart_idle : (b.updPart i f).idle = b.idle := rfl

end

section

variable (b : Block) (i : Nat) (f : Origin → Origin)

@[simp] theorem Block.updOrigin_core : (b.updOrigin i f).core = b.core := rfl
@[simp] theorem Block.updOrigin_slot : (b.updOrigin i f).slot = b.slot := rfl
@[simp] theorem Block.updOrigin_ctx : (b.updOrigin i f).ctx = b.ctx := rfl
@[simp] theorem Block.updOrigin_launch : (b.updOrigin i f).launch = b.launch := rfl
@[simp] theorem Block.updOrigin_blk : (b.updOrigin i f).blk = b.blk := rfl
@[simp] theorem Block.updOrigin_nblk : (b.updOrigin i f).nblk = b.nblk := rfl
@[simp] theorem Block.updOrigin_group : (b.updOrigin i f).group = b.group := rfl
@[simp] theorem Block.updOrigin_kr : (b.updOrigin i f).kr = b.kr := rfl
@[simp] theorem Block.updOrigin_rels : (b.updOrigin i f).rels = b.rels := rfl
@[simp] theorem Block.updOrigin_cox : (b.updOrigin i f).cox = b.cox := rfl
@[simp] theorem Block.updOrigin_walker : (b.updOrigin i f).walker = b.walker := rfl
@[simp] theorem Block.updOrigin_fibres : (b.updOrigin i f).fibres = b.fibres := rfl
@[simp] theorem Block.updOrigin_parts : (b.updOrigin i f).parts = b.parts := rfl
@[simp] theorem Block.updOrigin_nextFid : (b.updOrigin i f).nextFid = b.nextFid := rfl
@[simp] theorem Block.updOrigin_keys : (b.updOrigin i f).keys = b.keys := rfl
@[simp] theorem Block.updOrigin_insts : (b.updOrigin i f).insts = b.insts := rfl
@[simp] theorem Block.updOrigin_regroups : (b.updOrigin i f).regroups = b.regroups := rfl
@[simp] theorem Block.updOrigin_emits : (b.updOrigin i f).emits = b.emits := rfl
@[simp] theorem Block.updOrigin_dq : (b.updOrigin i f).dq = b.dq := rfl
@[simp] theorem Block.updOrigin_q : (b.updOrigin i f).q = b.q := rfl
@[simp] theorem Block.updOrigin_stageQ : (b.updOrigin i f).stageQ = b.stageQ := rfl
@[simp] theorem Block.updOrigin_stageRR : (b.updOrigin i f).stageRR = b.stageRR := rfl
@[simp] theorem Block.updOrigin_stgres : (b.updOrigin i f).stgres = b.stgres := rfl
@[simp] theorem Block.updOrigin_bars : (b.updOrigin i f).bars = b.bars := rfl
@[simp] theorem Block.updOrigin_scratch : (b.updOrigin i f).scratch = b.scratch := rfl
@[simp] theorem Block.updOrigin_const : (b.updOrigin i f).const = b.const := rfl
@[simp] theorem Block.updOrigin_xvec : (b.updOrigin i f).xvec = b.xvec := rfl
@[simp] theorem Block.updOrigin_scb : (b.updOrigin i f).scb = b.scb := rfl
@[simp] theorem Block.updOrigin_scs : (b.updOrigin i f).scs = b.scs := rfl
@[simp] theorem Block.updOrigin_ovStop : (b.updOrigin i f).ovStop = b.ovStop := rfl
@[simp] theorem Block.updOrigin_idle : (b.updOrigin i f).idle = b.idle := rfl

end

section

variable (b : Block) (f : Cox → Cox)

@[simp] theorem Block.updCox_core : (b.updCox f).core = b.core := rfl
@[simp] theorem Block.updCox_slot : (b.updCox f).slot = b.slot := rfl
@[simp] theorem Block.updCox_ctx : (b.updCox f).ctx = b.ctx := rfl
@[simp] theorem Block.updCox_launch : (b.updCox f).launch = b.launch := rfl
@[simp] theorem Block.updCox_blk : (b.updCox f).blk = b.blk := rfl
@[simp] theorem Block.updCox_nblk : (b.updCox f).nblk = b.nblk := rfl
@[simp] theorem Block.updCox_group : (b.updCox f).group = b.group := rfl
@[simp] theorem Block.updCox_kr : (b.updCox f).kr = b.kr := rfl
@[simp] theorem Block.updCox_rels : (b.updCox f).rels = b.rels := rfl
@[simp] theorem Block.updCox_walker : (b.updCox f).walker = b.walker := rfl
@[simp] theorem Block.updCox_fibres : (b.updCox f).fibres = b.fibres := rfl
@[simp] theorem Block.updCox_parts : (b.updCox f).parts = b.parts := rfl
@[simp] theorem Block.updCox_origins : (b.updCox f).origins = b.origins := rfl
@[simp] theorem Block.updCox_nextFid : (b.updCox f).nextFid = b.nextFid := rfl
@[simp] theorem Block.updCox_keys : (b.updCox f).keys = b.keys := rfl
@[simp] theorem Block.updCox_insts : (b.updCox f).insts = b.insts := rfl
@[simp] theorem Block.updCox_regroups : (b.updCox f).regroups = b.regroups := rfl
@[simp] theorem Block.updCox_emits : (b.updCox f).emits = b.emits := rfl
@[simp] theorem Block.updCox_dq : (b.updCox f).dq = b.dq := rfl
@[simp] theorem Block.updCox_q : (b.updCox f).q = b.q := rfl
@[simp] theorem Block.updCox_stageQ : (b.updCox f).stageQ = b.stageQ := rfl
@[simp] theorem Block.updCox_stageRR : (b.updCox f).stageRR = b.stageRR := rfl
@[simp] theorem Block.updCox_stgres : (b.updCox f).stgres = b.stgres := rfl
@[simp] theorem Block.updCox_bars : (b.updCox f).bars = b.bars := rfl
@[simp] theorem Block.updCox_scratch : (b.updCox f).scratch = b.scratch := rfl
@[simp] theorem Block.updCox_const : (b.updCox f).const = b.const := rfl
@[simp] theorem Block.updCox_xvec : (b.updCox f).xvec = b.xvec := rfl
@[simp] theorem Block.updCox_scb : (b.updCox f).scb = b.scb := rfl
@[simp] theorem Block.updCox_scs : (b.updCox f).scs = b.scs := rfl
@[simp] theorem Block.updCox_ovStop : (b.updCox f).ovStop = b.ovStop := rfl
@[simp] theorem Block.updCox_idle : (b.updCox f).idle = b.idle := rfl

end

section

variable (x : Fibre) (y : Cox) (r p : Nat) (v : W32) (w : W64) (t : Bool)

@[simp] theorem Fibre.setReg_fid : (x.setReg r v).fid = x.fid := rfl
@[simp] theorem Fibre.setReg_life : (x.setReg r v).life = x.life := rfl
@[simp] theorem Fibre.setReg_stage : (x.setReg r v).stage = x.stage := rfl
@[simp] theorem Fibre.setReg_part : (x.setReg r v).part = x.part := rfl
@[simp] theorem Fibre.setReg_col : (x.setReg r v).col = x.col := rfl
@[simp] theorem Fibre.setReg_fslot : (x.setReg r v).fslot = x.fslot := rfl
@[simp] theorem Fibre.setReg_pc : (x.setReg r v).pc = x.pc := rfl
@[simp] theorem Fibre.setReg_preds : (x.setReg r v).preds = x.preds := rfl
@[simp] theorem Fibre.setReg_nftrap : (x.setReg r v).nftrap = x.nftrap := rfl
@[simp] theorem Fibre.setReg_x : (x.setReg r v).x = x.x := rfl
@[simp] theorem Fibre.setReg_origin : (x.setReg r v).origin = x.origin := rfl
@[simp] theorem Fibre.setReg_wait : (x.setReg r v).wait = x.wait := rfl
@[simp] theorem Fibre.setReg_sb : (x.setReg r v).sb = x.sb := rfl
@[simp] theorem Fibre.setReg_priv : (x.setReg r v).priv = x.priv := rfl
@[simp] theorem Fibre.setReg_win : (x.setReg r v).win = x.win := rfl
@[simp] theorem Fibre.setReg_wbase : (x.setReg r v).wbase = x.wbase := rfl
@[simp] theorem Fibre.setReg_held : (x.setReg r v).held = x.held := rfl
@[simp] theorem Fibre.setReg_seen : (x.setReg r v).seen = x.seen := rfl
@[simp] theorem Fibre.setReg_granted : (x.setReg r v).granted = x.granted := rfl
@[simp] theorem Fibre.setReg_next : (x.setReg r v).next = x.next := rfl
@[simp] theorem Fibre.setReg_stuck : (x.setReg r v).stuck = x.stuck := rfl
@[simp] theorem Fibre.setPred_fid : (x.setPred p t).fid = x.fid := by
  unfold Fibre.setPred; split <;> rfl
@[simp] theorem Fibre.setPred_life : (x.setPred p t).life = x.life := by
  unfold Fibre.setPred; split <;> rfl
@[simp] theorem Fibre.setPred_stage : (x.setPred p t).stage = x.stage := by
  unfold Fibre.setPred; split <;> rfl
@[simp] theorem Fibre.setPred_part : (x.setPred p t).part = x.part := by
  unfold Fibre.setPred; split <;> rfl
@[simp] theorem Fibre.setPred_col : (x.setPred p t).col = x.col := by
  unfold Fibre.setPred; split <;> rfl
@[simp] theorem Fibre.setPred_fslot : (x.setPred p t).fslot = x.fslot := by
  unfold Fibre.setPred; split <;> rfl
@[simp] theorem Fibre.setPred_pc : (x.setPred p t).pc = x.pc := by
  unfold Fibre.setPred; split <;> rfl
@[simp] theorem Fibre.setPred_regs : (x.setPred p t).regs = x.regs := by
  unfold Fibre.setPred; split <;> rfl
@[simp] theorem Fibre.setPred_nftrap : (x.setPred p t).nftrap = x.nftrap := by
  unfold Fibre.setPred; split <;> rfl
@[simp] theorem Fibre.setPred_x : (x.setPred p t).x = x.x := by
  unfold Fibre.setPred; split <;> rfl
@[simp] theorem Fibre.setPred_origin : (x.setPred p t).origin = x.origin := by
  unfold Fibre.setPred; split <;> rfl
@[simp] theorem Fibre.setPred_wait : (x.setPred p t).wait = x.wait := by
  unfold Fibre.setPred; split <;> rfl
@[simp] theorem Fibre.setPred_sb : (x.setPred p t).sb = x.sb := by
  unfold Fibre.setPred; split <;> rfl
@[simp] theorem Fibre.setPred_priv : (x.setPred p t).priv = x.priv := by
  unfold Fibre.setPred; split <;> rfl
@[simp] theorem Fibre.setPred_win : (x.setPred p t).win = x.win := by
  unfold Fibre.setPred; split <;> rfl
@[simp] theorem Fibre.setPred_wbase : (x.setPred p t).wbase = x.wbase := by
  unfold Fibre.setPred; split <;> rfl
@[simp] theorem Fibre.setPred_held : (x.setPred p t).held = x.held := by
  unfold Fibre.setPred; split <;> rfl
@[simp] theorem Fibre.setPred_seen : (x.setPred p t).seen = x.seen := by
  unfold Fibre.setPred; split <;> rfl
@[simp] theorem Fibre.setPred_granted : (x.setPred p t).granted = x.granted := by
  unfold Fibre.setPred; split <;> rfl
@[simp] theorem Fibre.setPred_next : (x.setPred p t).next = x.next := by
  unfold Fibre.setPred; split <;> rfl
@[simp] theorem Fibre.setPred_stuck : (x.setPred p t).stuck = x.stuck := by
  unfold Fibre.setPred; split <;> rfl
@[simp] theorem Cox.setReg_pc : (y.setReg r w).pc = y.pc := rfl
@[simp] theorem Cox.setReg_ended : (y.setReg r w).ended = y.ended := rfl
@[simp] theorem Cox.setReg_wait : (y.setReg r w).wait = y.wait := rfl
@[simp] theorem Cox.setReg_windows : (y.setReg r w).windows = y.windows := rfl
@[simp] theorem Cox.setReg_seen : (y.setReg r w).seen = y.seen := rfl
@[simp] theorem Cox.setReg_sb : (y.setReg r w).sb = y.sb := rfl
@[simp] theorem Cox.setReg_yielded : (y.setReg r w).yielded = y.yielded := rfl
@[simp] theorem Cox.setReg_mute : (y.setReg r w).mute = y.mute := rfl
@[simp] theorem Cox.setReg_next : (y.setReg r w).next = y.next := rfl

end

/-! ### Lookups after updates -/

theorem State.core_updCore (s : State) (c d : Nat) (f : Core → Core) :
    (s.updCore c f).core d = if c = d ∧ d < s.cores.length then f (s.core d) else s.core d := by
  unfold State.core State.updCore
  rw [List.getElem?_modify]
  by_cases h : d < s.cores.length <;> by_cases e : c = d <;> simp [h, e]

theorem State.cdie_updDie (s : State) (c d : Nat) (f : CDie → CDie) :
    (s.updDie c f).cdie d = if c = d ∧ d < s.cdies.length then f (s.cdie d) else s.cdie d := by
  unfold State.cdie State.updDie
  rw [List.getElem?_modify]
  by_cases h : d < s.cdies.length <;> by_cases e : c = d <;> simp [h, e]

theorem State.ctx_updCtx (s : State) (c d : Nat) (f : Ctx → Ctx) :
    (s.updCtx c f).ctx d = if c = d ∧ d < s.ctxs.length then f (s.ctx d) else s.ctx d := by
  unfold State.ctx State.updCtx
  rw [List.getElem?_modify]
  by_cases h : d < s.ctxs.length <;> by_cases e : c = d <;> simp [h, e]

@[simp] theorem State.core_updBlock (s : State) (c l n : Nat) (f : Block → Block) : (s.updBlock c l f).core n = s.core n := rfl
@[simp] theorem State.core_updCtx (s : State) (c n : Nat) (f : Ctx → Ctx) : (s.updCtx c f).core n = s.core n := rfl
@[simp] theorem State.ctx_updBlock (s : State) (c l n : Nat) (f : Block → Block) : (s.updBlock c l f).ctx n = s.ctx n := rfl
@[simp] theorem State.ctx_updCore (s : State) (c n : Nat) (f : Core → Core) : (s.updCore c f).ctx n = s.ctx n := rfl
@[simp] theorem State.block?_updCore (s : State) (c l n : Nat) (f : Core → Core) :
    (s.updCore n f).block? c l = s.block? c l := rfl
@[simp] theorem State.block?_updCtx (s : State) (c l n : Nat) (f : Ctx → Ctx) : (s.updCtx n f).block? c l = s.block? c l := rfl
@[simp] theorem State.me_updCore (s : State) (n : Nat) (f : Core → Core) : (s.updCore n f).me = s.me := rfl
@[simp] theorem State.me_updCtx (s : State) (n : Nat) (f : Ctx → Ctx) : (s.updCtx n f).me = s.me := rfl
@[simp] theorem State.charge_me (s : State) (c d n : Nat) (k : BClass) : (s.charge c d k n).me = s.me := rfl

/-- An update that keeps a block's place is found where the block was. -/
theorem State.block?_updBlock (s : State) (c l : Nat) (f : Block → Block)
    (hf : ∀ b, (f b).core = b.core ∧ (f b).slot = b.slot) : (s.updBlock c l f).block? c l = (s.block? c l).map f := by
  unfold State.block? State.updBlock
  generalize s.blocks = bs
  induction bs with
  | nil => rfl
  | cons b r ih =>
    by_cases h : b.at c l = true
    · have h2 : (f b).at c l = true := by simpa [Block.at, (hf b).1, (hf b).2] using h
      simp [h, h2]
    · simp only [Bool.not_eq_true] at h
      simp [h, ih]

/-- Another block is found as before. -/
theorem State.block?_updBlock_ne (s : State) (c l c' l' : Nat) (f : Block → Block)
    (hf : ∀ b, (f b).core = b.core ∧ (f b).slot = b.slot) (h : c ≠ c' ∨ l ≠ l') :
    (s.updBlock c l f).block? c' l' = s.block? c' l' := by
  unfold State.block? State.updBlock
  generalize s.blocks = bs
  induction bs with
  | nil => rfl
  | cons b r ih =>
    by_cases e : b.at c l = true
    · have e1 : b.at c' l' = false := by
        simp only [Block.at, Bool.and_eq_true, beq_iff_eq] at e
        simp only [Block.at, Bool.and_eq_false_iff, beq_eq_false_iff_ne]
        omega
      have e2 : (f b).at c' l' = false := by simpa [Block.at, (hf b).1, (hf b).2] using e1
      simp [e, e1, e2, ih]
    · simp only [Bool.not_eq_true] at e
      simp [e, List.find?_cons, ih]

/-- The running block after an update of it. -/
theorem State.me_updMe (s : State) (f : Block → Block) (hf : ∀ b, (f b).core = b.core ∧ (f b).slot = b.slot) :
    (s.updMe f).me = s.me.map f := s.block?_updBlock s.cur.core s.cur.slot f hf

theorem Block.fib?_updFib (b : Block) (i j : Nat) (f : Fibre → Fibre) (hf : ∀ x, (f x).fid = x.fid) :
    (b.updFib i f).fib? j = if i = j then (b.fib? j).map f else b.fib? j := by
  unfold Block.fib? Block.updFib
  generalize b.fibres = fs
  induction fs with
  | nil => simp
  | cons x r ih =>
    by_cases h : x.fid = i <;> by_cases e : x.fid = j <;> simp_all
    exact fun e => absurd e.symm h

@[simp] theorem Block.fib?_updPart (b : Block) (i j : Nat) (f : Part → Part) : (b.updPart i f).fib? j = b.fib? j := rfl
@[simp] theorem Block.fib?_updCox (b : Block) (j : Nat) (f : Cox → Cox) : (b.updCox f).fib? j = b.fib? j := rfl
@[simp] theorem Block.part?_updFib (b : Block) (i j : Nat) (f : Fibre → Fibre) : (b.updFib i f).part? j = b.part? j := rfl

end Sys2Proof.Machine
end

