-- ==== Sys2Proof/Laws/Ops.lean ====
section
/-! SUPPORT. What the shared operations of an issue can change: they leave memory, the dies, the engines, the links and
everything else of the device alone, and only retiring an issue touches the running issue and its core. -/

namespace Sys2Proof.Machine

open Sys2Proof

/-- The state without what an issue and its faults change in passing: the numbering and the running issue, the threads,
idle counts, budget charges and the records of faults. -/
def State.outside (s : State) : State :=
  { s with cur := {}, nextId := 0, cores := [], blocks := [], ctxs := [], mgRecs := [], mgWaiting := [], coals := []
           coalWait := [] }

@[simp] theorem State.outside_updCore (s : State) (c : Nat) (f : Core → Core) : (s.updCore c f).outside = s.outside := rfl
@[simp] theorem State.outside_updCtx (s : State) (c : Nat) (f : Ctx → Ctx) : (s.updCtx c f).outside = s.outside := rfl
@[simp] theorem State.outside_updBlock (s : State) (c l : Nat) (f : Block → Block) :
    (s.updBlock c l f).outside = s.outside := rfl
@[simp] theorem State.outside_updMe (s : State) (f : Block → Block) : (s.updMe f).outside = s.outside := rfl
@[simp] theorem State.outside_updMyFib (s : State) (i : Nat) (f : Fibre → Fibre) :
    (s.updMyFib i f).outside = s.outside := rfl
@[simp] theorem State.outside_charge (s : State) (c d n : Nat) (k : BClass) : (s.charge c d k n).outside = s.outside := rfl

/-- States that agree outside agree on all that an issue leaves alone. -/
theorem State.mem_of_outside {s t : State} (h : t.outside = s.outside) : t.mem = s.mem := by
  have := congrArg State.mem h; exact this
theorem State.stage_of_outside {s t : State} (h : t.outside = s.outside) : t.stage = s.stage := by
  have := congrArg State.stage h; exact this
theorem State.pends_of_outside {s t : State} (h : t.outside = s.outside) : t.pends = s.pends := by
  have := congrArg State.pends h; exact this
theorem State.copies_of_outside {s t : State} (h : t.outside = s.outside) : t.copies = s.copies := by
  have := congrArg State.copies h; exact this
theorem State.cdies_of_outside {s t : State} (h : t.outside = s.outside) : t.cdies = s.cdies := by
  have := congrArg State.cdies h; exact this

/-- A fold of steps that each keep a view keeps it. -/
theorem keeps_foldl {α β : Type} (v : State → β) (f : State → α → State) (hf : ∀ s a, v (f s a) = v s) (l : List α) :
    ∀ s, v (l.foldl f s) = v s := by
  induction l with
  | nil => exact fun _ => rfl
  | cons a r ih => exact fun s => (ih (f s a)).trans (hf s a)

/-! ### Faults (R93, R94, R101–R103, R261) -/

/-- What a view must not look at to be kept by the posting of records. -/
structure Quiet {β : Type} (v : State → β) : Prop where
  ctx : ∀ s c f, v (State.updCtx s c f) = v s
  recs : ∀ (s : State) r w, v { s with mgRecs := r, mgWaiting := w } = v s
  coal : ∀ (s : State) n c w, v { s with nextId := n, coals := c, coalWait := w } = v s
  block : ∀ s c l f, v (State.updBlock s c l f) = v s

theorem Quiet.postRec {β : Type} {v : State → β} (q : Quiet v) (s : State) (c : Nat) (r : Rec) : v (s.postRec c r) = v s := by
  unfold State.postRec
  cases (s.ctx c).creator with
  | some p => simp only []; split <;> exact q.ctx _ _ _
  | none => simp only []; split <;> exact q.recs s _ _

theorem Quiet.updKeyed {β : Type} {v : State → β} (q : Quiet v) (s : State) (c k : Nat) (f : Rec → Rec) :
    v (s.updKeyed c k f) = v s := by
  unfold State.updKeyed
  split
  · exact q.ctx _ _ _
  · exact q.recs s _ _

theorem Quiet.joinCoal {β : Type} {v : State → β} (q : Quiet v) (s : State) (x : CoalWait) : v (s.joinCoal x) = v s := by
  unfold State.joinCoal
  split
  · exact (q.updKeyed _ _ _ _).trans (q.coal s s.nextId _ s.coalWait)
  · split
    · exact q.coal s s.nextId s.coals _
    · exact (q.postRec _ _ _).trans (q.coal s _ _ s.coalWait)

theorem Quiet.coalesce {β : Type} {v : State → β} (q : Quiet v) (s : State) (c : Nat) (ws : List Who) (f : Flt) :
    v (s.coalesce c ws f) = v s := q.joinCoal s _

theorem Quiet.postIssue {β : Type} {v : State → β} (q : Quiet v) (s : State) (c : Nat) (ws : List Who) (k : BitVec 8)
    (i : BitVec 16) : v (s.postIssue c ws k i) = v s := q.postRec s _ _

theorem Quiet.parkOn {β : Type} {v : State → β} (q : Quiet v) (s : State) (w : Who) (x : Option XRegs) (f : Flt) :
    v (s.parkOn w x f) = v s := by
  cases w <;> exact q.block _ _ _ _

/-- Taking the faults of an issue changes only the block's threads and the records of faults. -/
theorem Quiet.deliver {β : Type} {v : State → β} (q : Quiet v) (s : State) (x : W32) (fs : List (Who × Flt)) :
    v (s.deliver x fs) = v s := by
  unfold State.deliver
  refine (keeps_foldl v _ (fun s g => ?_) _ _).trans (keeps_foldl v _ (fun s wf => ?_) _ _)
  · split
    · exact q.coalesce _ _ _ _
    · exact q.postIssue _ _ _ _ _
  · cases wf.1 with
    | cox => exact q.parkOn _ _ _ _
    | fib i =>
      simp only []
      split
      · split
        · exact q.block _ _ _ _
        · exact q.parkOn _ _ _ _
      · exact q.parkOn _ _ _ _

/-! ### Parts (R141–R145) -/

/-- Putting a part in order changes only its block and the numbering. -/
theorem Quiet.settle {β : Type} {v : State → β} (q : Quiet v) (s : State) (c l i : Nat) : v (s.settle c l i) = v s := by
  have id : ∀ (s : State) n, v { s with nextId := n } = v s := fun s n => q.coal s n s.coals s.coalWait
  unfold State.settle
  simp only []
  repeat' split
  all_goals first
    | rfl
    | exact q.block _ _ _ _
    | exact (q.block _ _ _ _).trans (id s _)

theorem Quiet.tidy {β : Type} {v : State → β} (q : Quiet v) (s : State) : v s.tidy = v s := by
  unfold State.tidy
  split
  · exact q.settle _ _ _ _
  · rfl

theorem Quiet.advance {β : Type} {v : State → β} (q : Quiet v) (s : State) (ws : List Who) : v (s.advance ws) = v s :=
  q.block _ _ _ _

/-! ### Retiring an issue -/

theorem Quiet.outside : Quiet State.outside := ⟨fun _ _ _ => rfl, fun _ _ _ => rfl, fun _ _ _ _ => rfl, fun _ _ _ _ => rfl⟩
theorem Quiet.cur : Quiet State.cur := ⟨fun _ _ _ => rfl, fun _ _ _ => rfl, fun _ _ _ _ => rfl, fun _ _ _ _ => rfl⟩
theorem Quiet.cores : Quiet State.cores := ⟨fun _ _ _ => rfl, fun _ _ _ => rfl, fun _ _ _ _ => rfl, fun _ _ _ _ => rfl⟩

/-- An issue takes one number, or none where no thread runs it, and is marked as issued. -/
theorem State.cur_account (s : State) (h : Hd) (c : Bool) : (s.account h c).cur = { s.cur with went := true } := by
  unfold State.account; cases s.cur.th <;> rfl

theorem State.nextId_account (s : State) (h : Hd) (c : Bool) : (s.account h c).nextId = s.nextId + 1 := by
  unfold State.account; cases s.cur.th <;> rfl

theorem State.outside_account (s : State) (h : Hd) (c : Bool) : (s.account h c).outside = s.outside := by
  unfold State.account; cases s.cur.th <;> rfl

/-- An issue with only register writes and faults leaves everything outside its block, its core's idle count, the
charges and the records of faults as it was. -/
theorem State.outside_commit (s : State) (h : Hd) (os : List (Who × LOut)) : (s.commit h os).outside = s.outside := by
  unfold State.commit
  simp only []
  split
  · rfl
  · exact (Quiet.outside.tidy _).trans ((Quiet.outside.deliver _ _ _).trans
      ((Quiet.outside.advance _ _).trans (s.outside_account h _)))

/-- The running issue after it has retired: the same, marked as issued; while a fault waits nothing changes. -/
theorem State.cur_commit (s : State) (h : Hd) (os : List (Who × LOut)) (ok : outTraps os = []) :
    (s.commit h os).cur = { s.cur with went := true } := by
  unfold State.commit
  simp only [ok, List.isEmpty_nil, Bool.not_true, Bool.false_and, Bool.false_eq_true, if_false]
  exact (Quiet.cur.tidy _).trans ((Quiet.cur.deliver _ _ _).trans ((Quiet.cur.advance _ _).trans (s.cur_account h _)))

theorem State.outside_faultAll (s : State) (h : Hd) (x : W32) (ws : List Who) (f : Flt) :
    (s.faultAll h x ws f).outside = s.outside := by
  unfold State.faultAll
  split
  · rfl
  · exact (Quiet.outside.tidy _).trans ((Quiet.outside.deliver _ _ _).trans (s.outside_account h true))

/-- A lane-wise instruction always goes on. -/
theorem State.lanewise_next (s : State) (h : Hd) (g : View → LOut) :
    ∃ t, s.lanewise h g = .next t ∧ t.outside = s.outside := ⟨_, rfl, s.outside_commit h _⟩

/-- An instruction whose lanes only write raises no fault. -/
theorem outTraps_writes {α : Type} (l : List α) (w : α → Who) (g : α → List Wr) :
    outTraps (l.map fun x => (w x, .ok (g x))) = [] := by
  simp [outTraps]

theorem State.pure1_next (s : State) (h : Hd) (g : View → List Wr) :
    ∃ t, s.pure1 h g = .next t ∧ t.outside = s.outside ∧ t.cur = { s.cur with went := true } :=
  ⟨_, rfl, s.outside_commit h _, s.cur_commit h _ (outTraps_writes _ _ _)⟩

end Sys2Proof.Machine
end

