-- ==== Sys2Proof/Machine/AsmText.lean ====
section
/-! DEFINITION. The text of a twistas source file: lines, tokens, statements, operands and expressions (R25–R29, R32–R36).
The assembler is a program beside the device: no step of the machine runs it, and what it makes is the object that a loader
reads (R47–R52). -/

namespace Sys2Proof.Machine

open Sys2Proof

/-! ### Lines and tokens (R25, R26) -/

/-- A token (R26). A decimal floating literal is m × 10^e; a `0f` literal is a pattern. -/
inductive ATok where
  | ident (s : String)
  | int (n : Nat)
  | flt (m : Nat) (e : Int)
  | fbits (w : Nat)
  | op (c : String)
  deriving DecidableEq, Repr

def isDig (c : Char) : Bool := '0' ≤ c && c ≤ '9'
def isLet (c : Char) : Bool := ('a' ≤ c && c ≤ 'z') || ('A' ≤ c && c ≤ 'Z')
def isHexD (c : Char) : Bool := isDig c || ('a' ≤ c && c ≤ 'f') || ('A' ≤ c && c ≤ 'F')
def isBinD (c : Char) : Bool := c == '0' || c == '1'
def isIdC (c : Char) : Bool := isLet c || isDig c || c == '_'

/-- The longest prefix of characters that pass, and the rest. -/
def takeChars (p : Char → Bool) : List Char → List Char × List Char
  | [] => ([], [])
  | c :: l => if p c then
      let r := takeChars p l
      (c :: r.1, r.2)
    else ([], c :: l)

def digVal (c : Char) : Nat :=
  if isDig c then c.toNat - 48 else if 'a' ≤ c then c.toNat - 87 else c.toNat - 55

/-- The number that digits write in a base; underscores are passed over. -/
def numVal (base : Nat) (l : List Char) : Nat := l.foldl (fun n c => if c == '_' then n else base * n + digVal c) 0

/-- Digits of a literal: at least one, and an underscore only between two digits. -/
def digits? (p : Char → Bool) (l : List Char) : Option (List Char × List Char) :=
  let r := takeChars (fun c => p c || c == '_') l
  if r.1.isEmpty || r.1.head? == some '_' || r.1.getLast? == some '_' then none else some r

def plainCount (l : List Char) : Nat := (l.filter fun c => c != '_').length

/-- The exponent part of a literal, if one follows. -/
def expPart (l : List Char) : Option (Int × List Char) := match l with
  | c :: r =>
    if c == 'e' || c == 'E' then
      let sg := match r with
        | '+' :: t => (false, t)
        | '-' :: t => (true, t)
        | t => (false, t)
      (digits? isDig sg.2).map fun d => (if sg.1 then -(numVal 10 d.1 : Int) else (numVal 10 d.1 : Int), d.2)
    else none
  | [] => none

/-- A numeric literal (R26). -/
def lexNum (l : List Char) : Option (ATok × List Char) := match l with
  | '0' :: 'x' :: r => (digits? isHexD r).bind fun d =>
      if numVal 16 d.1 < 2 ^ 64 then some (.int (numVal 16 d.1), d.2) else none
  | '0' :: 'b' :: r => (digits? isBinD r).bind fun d =>
      if numVal 2 d.1 < 2 ^ 64 then some (.int (numVal 2 d.1), d.2) else none
  | '0' :: 'f' :: r => (digits? isHexD r).bind fun d =>
      if plainCount d.1 = 8 then some (.fbits (numVal 16 d.1), d.2) else none
  | _ => (digits? isDig l).bind fun d =>
      let whole := numVal 10 d.1
      let frac := match d.2 with
        | '.' :: t => digits? isDig t
        | _ => none
      match frac with
      | some f =>
        let m := whole * 10 ^ plainCount f.1 + numVal 10 f.1
        let e := -(plainCount f.1 : Int)
        (match expPart f.2 with
          | some x => some (.flt m (e + x.1), x.2)
          | none => some (.flt m e, f.2))
      | none => match expPart d.2 with
        | some x => some (.flt whole x.1, x.2)
        | none => if whole < 2 ^ 64 then some (.int whole, d.2) else none

def twoCharOps : List String := ["<<", ">>", "<=", ">=", "==", "!=", "&&", "||"]
def oneCharOps : List Char := ['+', '-', '*', '/', '%', '~', '!', '<', '>', '&', '^', '|', '?', ':', '(', ')', '[', ']', ',', '#', '.', '=']

/-- The tokens of a line up to its comment; none where a character or a literal breaks R26. -/
def lexLine : Nat → List Char → Option (List ATok)
  | 0, _ => none
  | _ + 1, [] => some []
  | n + 1, c :: l =>
    if c == ' ' || c == '\t' then lexLine n l
    else if c == ';' || (c == '/' && l.head? == some '/') then some []
    else if isLet c || c == '_' then
      let r := takeChars isIdC (c :: l)
      (lexLine n r.2).map fun ts => .ident (String.ofList r.1) :: ts
    else if isDig c then match lexNum (c :: l) with
      | none => none
      | some (t, r) => (lexLine n r).map fun ts => t :: ts
    else
      let two := String.ofList (c :: l.take 1)
      if twoCharOps.contains two then (lexLine n (l.drop 1)).map fun ts => .op two :: ts
      else if oneCharOps.contains c then (lexLine n l).map fun ts => .op (String.ofList [c]) :: ts
      else none

/-- The lines of a file, and whether each ends with LF or CR LF (R25): a last line without its end is a line in error. -/
def splitLines : List Char → List Char → List (List Char) × Bool
  | [], [] => ([], true)
  | acc@(_ :: _), [] => ([acc.reverse], false)
  | acc, '\n' :: l =>
    let line := match acc with
      | '\r' :: t => t.reverse
      | t => t.reverse
    let r := splitLines [] l
    (line :: r.1, r.2)
  | acc, c :: l => splitLines (c :: acc) l

/-! ### Expressions (R34–R36) -/

inductive AExpr where
  | num (n : Nat)
  | sym (s : String)
  | dot
  | un (op : String) (e : AExpr)
  | bin (op : String) (a b : AExpr)
  | cond (c a b : AExpr)
  | call (f : String) (e : AExpr)
  deriving DecidableEq, Repr

/-- A register's letter and number: one of V, P, S, J, Q or Z followed only by digits (R27). -/
def regName (s : String) : Option (Char × Nat) := match s.toList with
  | c :: l => if ['V', 'P', 'S', 'J', 'Q', 'Z'].contains c && !l.isEmpty && l.all isDig then some (c, numVal 10 l) else none
  | [] => none

def reservedNames : List String := ["inf", "nan", "lo", "hi", "log2", "sizeof", "dup"]

/-- Whether an identifier can name a symbol (R27). -/
def symbolOk (s : String) : Bool := (regName s).isNone && !reservedNames.contains s

/-- The precedence of a binary operator (Table 2-1). -/
def binLevel (op : String) : Nat :=
  if ["*", "/", "%"].contains op then 3 else if ["+", "-"].contains op then 4 else if ["<<", ">>"].contains op then 5
  else if ["<", "<=", ">", ">="].contains op then 6 else if ["==", "!="].contains op then 7 else if op == "&" then 8
  else if op == "^" then 9 else if op == "|" then 10 else if op == "&&" then 11 else if op == "||" then 12 else 0

/-- Operators of one level after a first operand, grouped to the left. -/
def leftOps (sub : List ATok → Option (AExpr × List ATok)) (lvl : Nat) : Nat → AExpr → List ATok → Option (AExpr × List ATok)
  | 0, _, _ => none
  | n + 1, a, ts => match ts with
    | .op c :: r => if binLevel c = lvl then (sub r).bind fun x => leftOps sub lvl n (.bin c a x.1) x.2 else some (a, ts)
    | _ => some (a, ts)

/-- An expression of a level of Table 2-1: 2 is unary, 3 to 12 binary, 13 conditional. -/
def parseExpr : Nat → Nat → List ATok → Option (AExpr × List ATok)
  | 0, _, _ => none
  | n + 1, lvl, ts =>
    if lvl = 13 then (parseExpr n 12 ts).bind fun c => match c.2 with
      | .op "?" :: r => (parseExpr n 13 r).bind fun a => match a.2 with
        | .op ":" :: q => (parseExpr n 13 q).map fun b => (.cond c.1 a.1 b.1, b.2)
        | _ => none
      | _ => some c
    else if 3 ≤ lvl then (parseExpr n (lvl - 1) ts).bind fun a => leftOps (parseExpr n (lvl - 1)) lvl (ts.length + 1) a.1 a.2
    else match ts with
      | .op c :: r =>
        if c == "-" || c == "~" || c == "!" then (parseExpr n 2 r).map fun x => (.un c x.1, x.2)
        else if c == "(" then (parseExpr n 13 r).bind fun x => match x.2 with
          | .op ")" :: q => some (x.1, q)
          | _ => none
        else if c == "." then some (.dot, r)
        else none
      | .int v :: r => some (.num v, r)
      | .ident f :: .op "(" :: r =>
        if ["lo", "hi", "log2", "sizeof"].contains f then (parseExpr n 13 r).bind fun x => match x.2 with
          | .op ")" :: q => some (.call f x.1, q)
          | _ => none
        else none
      | .ident s :: r => if symbolOk s then some (.sym s, r) else none
      | _ => none

def expr? (ts : List ATok) : Option (AExpr × List ATok) := parseExpr (14 * (ts.length + 1)) 13 ts

/-- The symbols that an expression refers to, each with whether it stands under `sizeof`. -/
def AExpr.refs : AExpr → List (Bool × String)
  | .num _ => []
  | .sym s => [(false, s)]
  | .dot => []
  | .un _ e => e.refs
  | .bin _ a b => a.refs ++ b.refs
  | .cond c a b => c.refs ++ a.refs ++ b.refs
  | .call f e => if f == "sizeof" then e.refs.map fun x => (true, x.2) else e.refs

/-- Whether the value of an expression needs a relocatable symbol: one that stands under `sizeof` gives an absolute size. -/
def AExpr.needsRel (isRel : String → Bool) (e : AExpr) : Bool := e.refs.any fun r => !r.1 && isRel r.2

/-- A 64-bit two's-complement integer. -/
def wrap64 (x : Int) : Int := (x + 0x8000000000000000) % 0x10000000000000000 - 0x8000000000000000
def pat64 (x : Int) : Nat := (x % 0x10000000000000000).toNat

/-- A binary operator on values (R34); none is an error. -/
def binVal (op : String) (a b : Int) : Option Int :=
  let flag := fun (p : Bool) => some (if p then 1 else 0)
  if op == "*" then some (wrap64 (a * b)) else if op == "+" then some (wrap64 (a + b)) else if op == "-" then some (wrap64 (a - b))
  else if op == "/" then (if b = 0 || (a = -0x8000000000000000 && b = -1) then none else some (a.tdiv b))
  else if op == "%" then (if b = 0 then none else some (a.tmod b))
  else if op == "<<" then (if 0 ≤ b && b ≤ 63 then some (wrap64 (a * 2 ^ b.toNat)) else none)
  else if op == ">>" then (if 0 ≤ b && b ≤ 63 then some (a.fdiv (2 ^ b.toNat)) else none)
  else if op == "<" then flag (a < b) else if op == "<=" then flag (a ≤ b) else if op == ">" then flag (b < a)
  else if op == ">=" then flag (b ≤ a) else if op == "==" then flag (a == b) else if op == "!=" then flag (a != b)
  else if op == "&" then some (wrap64 ((pat64 a &&& pat64 b : Nat) : Int))
  else if op == "^" then some (wrap64 ((pat64 a ^^^ pat64 b : Nat) : Int))
  else if op == "|" then some (wrap64 ((pat64 a ||| pat64 b : Nat) : Int))
  else none

/-- The function log2 (R35): k where x = 2^k; a negative value is no power of two. -/
def log2Val (x : Int) : Option Int :=
  let n := x.toNat
  if 0 < x && 2 ^ n.log2 == n then some n.log2 else none

/-- The value of an expression in which every symbol is absolute. `look` gives a symbol's value and `size` what `sizeof` of a
name gives; `&&`, `||` and `?:` evaluate only the operands that they need (R34, R35). -/
def AExpr.eval (look size : String → Option Int) (here : Int) : AExpr → Option Int
  | .num n => some (wrap64 n)
  | .sym s => look s
  | .dot => some here
  | .un op e => (e.eval look size here).map fun v =>
      if op == "-" then wrap64 (-v) else if op == "~" then -v - 1 else if v = 0 then 1 else 0
  | .bin op a b => (a.eval look size here).bind fun x =>
      if op == "&&" then (if x = 0 then some 0 else (b.eval look size here).map fun y => if y = 0 then 0 else 1)
      else if op == "||" then (if x ≠ 0 then some 1 else (b.eval look size here).map fun y => if y = 0 then 0 else 1)
      else (b.eval look size here).bind fun y => binVal op x y
  | .cond c a b => (c.eval look size here).bind fun x => if x ≠ 0 then a.eval look size here else b.eval look size here
  | .call f e =>
    if f == "sizeof" then (match e with
      | .sym s => size s
      | _ => none)
    else (e.eval look size here).bind fun v =>
      if f == "lo" then some ((pat64 v % 2 ^ 32 : Nat) : Int) else if f == "hi" then some ((pat64 v / 2 ^ 32 : Nat) : Int) else log2Val v

/-- `sym + k` under `lo` or `hi` with a relocatable symbol (R36): the half, the symbol, and the terms of the absolute part; k
itself may be a sum or a difference. `sym` alone is taken as `sym + 0`, and `sym - k` is no such form: R36 writes `sym + k`
only (log 112, DESIGN CHOICE). -/
def AExpr.relPart (isRel : String → Bool) : AExpr → Option (String × List AExpr)
  | .sym s => if isRel s then some (s, []) else none
  | .bin "+" a b => (a.relPart isRel).bind fun r => if b.needsRel isRel then none else some (r.1, r.2 ++ [b])
  | .bin "-" a b => (a.relPart isRel).bind fun r =>
      if r.2.isEmpty || b.needsRel isRel then none else some (r.1, r.2 ++ [.un "-" b])
  | _ => none

def AExpr.half? (isRel : String → Bool) : AExpr → Option (Bool × String × List AExpr)
  | .call f e => if f == "lo" || f == "hi" then (e.relPart isRel).map fun r => (f == "hi", r.1, r.2) else none
  | _ => none

/-! ### Floating operands (R28) -/

/-- m × 10^e in FP32 by RNE; none where it rounds to infinity. -/
def decF32 (m : Nat) (e : Int) : Option W32 :=
  if m = 0 || e < -4300 then some 0
  else if 64 < e then none
  else
    let x := if 0 ≤ e then Fmt.f32.round .rne false false (m * 10 ^ e.toNat) 0 false
      else
        let d : Nat := 10 ^ (-e).toNat
        let k := d.log2 + 200
        let n := m * 2 ^ k
        Fmt.f32.round .rne false false (n / d) (-(k : Int)) (n % d ≠ 0)
    if x = 0x7F800000 then none else some (BitVec.ofNat 32 x)

/-- A floating operand and the tokens after it: none where the tokens are not one; the value is none on an error. -/
def fltop? (ts : List ATok) : Option (Option W32 × List ATok) :=
  let s := match ts with
    | .op "-" :: r => (true, r)
    | r => (false, r)
  let flip := fun (w : Option W32) => w.map fun x => if s.1 then x ^^^ 0x80000000 else x
  match s.2 with
  | .flt m e :: r => some (flip (decF32 m e), r)
  | .fbits w :: r => some (flip (some (BitVec.ofNat 32 w)), r)
  | .ident "inf" :: r => some (flip (some 0x7F800000), r)
  | .ident "nan" :: r => some (flip (some 0x7FC00000), r)
  | _ => none

/-! ### Statements (R29–R32) -/

inductive AOperand where
  | reg (k : Char) (n : Nat)
  | pair (a : Nat)
  | special (s : String)
  | imm (e : AExpr)
  | fimm (w : W32)
  | mem (k : Char) (n : Nat) (disp : Option (Bool × AExpr))
  | val (e : AExpr)
  deriving DecidableEq, Repr

/-- One operand and the tokens after it (R29). A pair has an even first register and the next one after it (R31). -/
def operand? (ts : List ATok) : Option (AOperand × List ATok) := match ts with
  | .op "%" :: .ident s :: r => some (.special s, r)
  | .op "#" :: r => match fltop? r with
    | some (w, q) => w.map fun x => (.fimm x, q)
    | none => (expr? r).map fun x => (.imm x.1, x.2)
  | .op "[" :: .ident s :: r => (regName s).bind fun g =>
      if g.1 != 'V' && g.1 != 'S' then none
      else match r with
        | .op "]" :: q => some (.mem g.1 g.2 none, q)
        | .op c :: q => if c == "+" || c == "-" then (expr? q).bind fun x => match x.2 with
            | .op "]" :: t => some (.mem g.1 g.2 (some (c == "-", x.1)), t)
            | _ => none
          else none
        | _ => none
  | .ident s :: r => match regName s with
    | some g => match r with
      | .op ":" :: .ident t :: q => (regName t).bind fun y =>
          if g.1 == 'V' && y.1 == 'V' && g.2 % 2 = 0 && y.2 = g.2 + 1 then some (.pair g.2, q) else none
      | _ => some (.reg g.1 g.2, r)
    | none => (expr? ts).map fun x => (.val x.1, x.2)
  | _ => (expr? ts).map fun x => (.val x.1, x.2)

/-- The operands of a statement, between commas. -/
def operands? : Nat → List ATok → Option (List AOperand)
  | 0, _ => none
  | n + 1, ts => (operand? ts).bind fun x => match x.2 with
    | [] => some [x.1]
    | .op "," :: r => (operands? n r).map fun l => x.1 :: l
    | _ => none

/-- The modifiers after a base name, with the tokens that follow. -/
def modifiers : List ATok → List String × List ATok
  | .op "." :: .ident s :: r =>
    let x := modifiers r
    (s :: x.1, x.2)
  | ts => ([], ts)

/-- An instruction statement: the guard as (negated, number), the base name, the modifiers without `.laN`, the cap of
`.laN`, and the operands (R30, R46). -/
structure AInsn where
  guard : Option (Bool × Nat)
  base : String
  mods : List String
  cap : Option Nat
  ops : List AOperand
  deriving DecidableEq, Repr

/-- A statement after its label. -/
inductive AStmt where
  | none
  | dir (name : String) (args : List ATok)
  | insn (i : AInsn)
  deriving DecidableEq, Repr

/-- The N of a last modifier `.laN` (R46). -/
def laOf (s : String) : Option Nat := match s.toList with
  | 'l' :: 'a' :: l => if !l.isEmpty && l.all isDig && numVal 10 l ≤ 15 then some (numVal 10 l) else none
  | _ => none

/-- An instruction after its guard. -/
def insn? (guard : Option (Bool × Nat)) (ts : List ATok) : Option AStmt := match ts with
  | .ident b :: r =>
    let m := modifiers r
    let cap := m.1.getLast?.bind laOf
    let mods := if cap.isSome then m.1.dropLast else m.1
    let ops := if m.2.isEmpty then some [] else operands? (m.2.length + 1) m.2
    ops.map fun o => .insn { guard := guard, base := b, mods := mods, cap := cap, ops := o }
  | _ => none

/-- The predicate of a guard. -/
def guardReg (s : String) : Option Nat := match regName s with
  | some ('P', n) => if n < 8 then some n else none
  | _ => none

/-- A line as its label and its statement (R29). -/
def parseLine (l : List Char) : Option (Option String × AStmt) :=
  if 4096 < l.length || l.any (fun c => 127 < c.toNat) then none
  else (lexLine (l.length + 1) l).bind fun ts =>
    let lab : Option (Option String × List ATok) := match ts with
      | .ident s :: .op ":" :: r => if symbolOk s then some (some s, r) else none
      | r => some (none, r)
    lab.bind fun x =>
      let st : Option AStmt := match x.2 with
        | [] => some .none
        | .op "." :: .ident d :: r => some (.dir d r)
        | .op "?" :: .op "!" :: .ident p :: r => (guardReg p).bind fun n => insn? (some (true, n)) r
        | .op "?" :: .ident p :: r => (guardReg p).bind fun n => insn? (some (false, n)) r
        | r => insn? none r
      st.map fun s => (x.1, s)

end Sys2Proof.Machine
end

