-- ==== Sys2Proof/Machine/AsmForms.lean ====
section
/-! DEFINITION. The assembly syntax of every instruction (R29–R33, and the syntax column of each chapter's encoding table): from
a base name, its modifiers and its operands to the instruction. -/

namespace Sys2Proof.Machine

open Sys2Proof

/-- The value of an immediate: the number; whether it was known where it stands, so that imm8 may hold it; whether it has no
value yet; and for a relocatable one the half and the data offset (R33, R36). -/
structure AImm where
  v : Int
  known : Bool := true
  late : Bool := false
  reloc : Option (Bool × Int) := none
  deriving DecidableEq, Repr

/-- An operand whose expressions have their values. -/
inductive AOp where
  | reg (k : Char) (n : Nat)
  | pair (a : Nat)
  | special (s : String)
  | imm (x : AImm)
  | fimm (w : W32)
  | mem (k : Char) (n : Nat) (disp : Option AImm)
  | val (x : AImm)
  deriving DecidableEq, Repr

/-- What is left of a statement while a form reads it. -/
structure ASt where
  cox : Bool
  mods : List String
  ops : List AOp
  deriving DecidableEq, Repr

/-- A form's reader: it takes modifiers and operands in order, and is none where one is unknown, misplaced or of the wrong
kind. -/
abbrev AR (α : Type) := ASt → Option (α × ASt)

def AR.ret {α : Type} (x : α) : AR α := fun s => some (x, s)
def AR.and {α β : Type} (p : AR α) (f : α → AR β) : AR β := fun s => (p s).bind fun r => f r.1 r.2
def AR.map {α β : Type} (f : α → β) (p : AR α) : AR β := fun s => (p s).map fun r => (f r.1, r.2)
def AR.or {α : Type} (p q : AR α) : AR α := fun s => match p s with
  | some r => some r
  | none => q s

/-! ### Modifiers -/

def modAny {α : Type} (l : List (String × α)) : AR α := fun s => match s.mods with
  | m :: r => (l.find? fun x => x.1 == m).map fun x => (x.2, { s with mods := r })
  | [] => none
def modIs (m : String) : AR Unit := modAny [(m, ())]
def modOpt {α : Type} (l : List (String × α)) (dflt : α) : AR α := AR.or (modAny l) (AR.ret dflt)
def modFlag (m : String) : AR Bool := modOpt [(m, true)] false

def tyMods : List (String × IntTy) := [("i32", .i32), ("n32", .n32), ("i64", .i64), ("n64", .n64)]
def bwMods : List (String × BW) := [("b32", .b32), ("b64", .b64)]
def rndMods : List (String × Rnd) := [("rz", .rz), ("ru", .ru), ("rd", .rd)]
def scopeMods : List (String × Scope) := [("core", .core), ("clu", .clu), ("die", .die), ("dev", .dev), ("sys", .sys)]
def iccMods : List (String × ICc) := [("eq", .eq), ("ne", .ne), ("lt", .lt), ("le", .le), ("gt", .gt), ("ge", .ge)]
def fccMods : List (String × FCc) :=
  [("eq", .eq), ("ne", .ne), ("lt", .lt), ("le", .le), ("gt", .gt), ("ge", .ge), ("nan", .nan), ("num", .num)]
def plogMods : List (String × PlogOp) := [("and", .and), ("or", .or), ("xor", .xor), ("andn", .andn)]
def ldMods : List (String × LdSz) :=
  [("n8", .n8), ("i8", .i8), ("n16", .n16), ("i16", .i16), ("b32", .b32), ("b64", .b64), ("b128", .b128)]
def stMods : List (String × StSz) := [("b8", .b8), ("b16", .b16), ("b32", .b32), ("b64", .b64), ("b128", .b128)]
def f8Mods : List (String × F8Ty) := [("e4m3", .e4m3), ("e5m2", .e5m2)]
def f16Mods : List (String × F16Ty) := [("f16", .f16), ("bf16", .bf16)]
def cvtMods : List (String × CvtTy) :=
  [("i8", .i8), ("n8", .n8), ("i16", .i16), ("n16", .n16), ("i32", .i32), ("n32", .n32), ("i64", .i64), ("n64", .n64),
   ("f32", .f32), ("f16", .f16), ("bf16", .bf16), ("e4m3", .e4m3), ("e5m2", .e5m2)]
def clsMods : List (String × Reuse) := [("stream", .stream), ("keep", .keep), ("bypass", .bypass)]
def hszMods : List (String × HSz) := [("b32", .b32), ("b64", .b64), ("b128", .b128)]
def levelMods : List (String × Level) := [("blk", .blk), ("clu", .clu), ("grid", .grid)]
def bclassMods : List (String × BClass) :=
  [("grp", .grp), ("cox", .cox), ("mma", .mma), ("bank", .bank), ("eddy", .eddy), ("coll", .coll), ("copy", .copy),
   ("hbm", .hbm), ("far", .far), ("flit", .flit)]
def afmtMods : List (String × AFmt) := [("e4m3", .e4m3), ("e5m2", .e5m2), ("bf16", .bf16)]

/-- An integer type; the bit types `.b32` and `.b64` stand for codes 1 and 3 on the forms that take them (R210, R288). -/
def tyOrBits : List (String × IntTy) := tyMods ++ [("b32", .n32), ("b64", .n64)]

/-- `{.acq}{.rel}{.scope}`, in that order (R280, R288, R389, R414). No scope is `.core`; the decoder's FIELD 10 refuses a scope
other than `.core` without a flag (R273) (log 103, DEDUCED). -/
def ordMods : AR Ord :=
  AR.and (modFlag "acq") fun a => AR.and (modFlag "rel") fun r =>
    AR.map (fun sc => { acq := a, rel := r, scope := sc }) (modOpt scopeMods .core)

/-- `{.acq.scope}` and `{.rel.scope}` (R278). -/
def flagScope (m : String) : AR (Option Scope) :=
  AR.or (AR.and (modIs m) fun _ => AR.map some (modAny scopeMods)) (AR.ret none)

/-! ### Operands -/

def opNext {α : Type} (f : Bool → AOp → Option α) : AR α := fun s => match s.ops with
  | o :: r => (f s.cox o).map fun x => (x, { s with ops := r })
  | [] => none

/-- A register of the stream: S in a cox section, V in a fibre section (R31). -/
def isThread (cox : Bool) (k : Char) : Bool := if cox then k == 'S' else k == 'V'

def numReg (max n : Nat) : Option RegNo := if n < max then some (BitVec.ofNat 8 n) else none
def threadReg (cox : Bool) (n : Nat) : Option RegNo := numReg (if cox then 64 else 256) n

def r1 : AR RegNo := opNext fun cox o => match o with
  | .reg k n => if isThread cox k then threadReg cox n else none
  | _ => none
/-- A 64-bit operand: an S register, or an even pair, written whole or as its even register (R31) (log 103, DEDUCED). -/
def r2 : AR RegNo := opNext fun cox o => match o with
  | .reg k n => if isThread cox k && (cox || n % 2 = 0) then threadReg cox n else none
  | .pair n => if cox then none else threadReg false n
  | _ => none
def rw (b64 : Bool) : AR RegNo := if b64 then r2 else r1
def namedRegOp (k : Char) (max : Nat) : AR RegNo := opNext fun _ o => match o with
  | .reg c n => if c == k then numReg max n else none
  | _ => none
def sreg1 : AR RegNo := namedRegOp 'S' 64
def preg : AR (BitVec 3) := AR.map (fun r => r.extractLsb' 0 3) (namedRegOp 'P' 8)
def jreg : AR (BitVec 3) := AR.map (fun r => r.extractLsb' 0 3) (namedRegOp 'J' 8)
def zreg : AR (BitVec 3) := AR.map (fun r => r.extractLsb' 0 3) (namedRegOp 'Z' 8)
def qreg : AR (BitVec 4) := AR.map (fun r => r.extractLsb' 0 4) (namedRegOp 'Q' 16)

/-- A predicate destination in a fibre section, an S register in a cox section. -/
def predOrS : AR RegNo := opNext fun cox o => match o with
  | .reg 'P' n => if cox then none else numReg 8 n
  | .reg 'S' n => if cox then numReg 64 n else none
  | _ => none

/-- An immediate that a form has one field for (R33): a forward reference may stand in it (log 103, DEDUCED). -/
def small (lo hi : Nat) : AR Nat := opNext fun _ o => match o with
  | .imm x =>
    if x.late then some lo
    else if x.reloc.isNone && (lo : Int) ≤ x.v && x.v ≤ (hi : Int) then some x.v.toNat else none
  | _ => none

/-- A 32-bit field takes any value from −2^31 to 2^32 − 1 as its low 32 bits (R33). -/
def field32 (x : AImm) : Option W32 :=
  if -0x80000000 ≤ x.v && x.v ≤ 0xFFFFFFFF then some (BitVec.ofInt 32 x.v) else none

/-- An integer immediate: imm8 when it is known and the field holds it as it is read, else imm32 (R33, R211). -/
def immSrc (signed : Bool) (x : AImm) : Option Src :=
  let fits := if signed then -128 ≤ x.v && x.v ≤ 127 else 0 ≤ x.v && x.v ≤ 255
  if x.known && x.reloc.isNone && fits then some (.imm8 (BitVec.ofInt 8 x.v)) else (field32 x).map .imm32

/-- The last source of an integer form: a register or an immediate. A floating immediate stands in IMM32 (R33). -/
def srcOp (b64 signed : Bool) : AR Src := fun s => match s.ops with
  | .imm x :: r => (immSrc signed x).map fun v => (v, { s with ops := r })
  | .fimm w :: r => some (.imm32 w, { s with ops := r })
  | _ => (rw b64 s).map fun x => (.reg x.1, x.2)

/-- The last source of a floating form, of `prmt` and of the shuffles: a register, or an immediate in IMM32 (R33, R211,
R225). -/
def fsrcOp : AR FSrc := fun s => match s.ops with
  | .fimm w :: r => some (.imm w, { s with ops := r })
  | .imm x :: r => (field32 x).map fun v => (.imm v, { s with ops := r })
  | _ => (r1 s).map fun x => (.reg x.1, x.2)

/-- A label or a value in IMM32. -/
def label32 : AR W32 := opNext fun _ o => match o with
  | .val x => if x.reloc.isNone then field32 x else none
  | _ => none

def imm32Op : AR W32 := opNext fun _ o => match o with
  | .imm x => field32 x
  | .fimm w => some w
  | _ => none

/-- A memory operand with a displacement (R32, R33): `pairBase` where the base names a pair. -/
def memOp (pairBase : Bool) : AR (RegNo × Disp) := opNext fun cox o => match o with
  | .mem k n d =>
    if isThread cox k && (cox || !pairBase || n % 2 = 0) then
      (threadReg cox n).bind fun r => match d with
        | none => some (r, .d8 0)
        | some x =>
          if x.known && x.reloc.isNone && -128 ≤ x.v && x.v ≤ 127 then some (r, .d8 (BitVec.ofInt 8 x.v))
          else if x.reloc.isNone then (field32 x).map fun v => (r, .d32 v) else none
    else none
  | _ => none

/-- A memory operand of a form that takes no displacement (R272). -/
def ptrOp : AR RegNo := opNext fun cox o => match o with
  | .mem k n none => if isThread cox k && (cox || n % 2 = 0) then threadReg cox n else none
  | _ => none

/-! ### Readers of one shape -/

/-- A form's reader gives an instruction for a guard and lookahead. -/
abbrev AForm := AR (Hd → Instr)

def dA (p q : AR RegNo) (f : RegNo → RegNo → Hd → Instr) : AForm := AR.and p fun d => AR.map (fun a => f d a) q
def dAB (p q t : AR RegNo) (f : RegNo → RegNo → RegNo → Hd → Instr) : AForm :=
  AR.and p fun d => AR.and q fun a => AR.map (fun b => f d a b) t
def noOps (i : Hd → Instr) : AForm := AR.ret i

def signedTy : IntTy → Bool
  | .i32 => true
  | .i64 => true
  | _ => false

def iBin (sat : Bool) (f : Hd → IBin → Instr) : AForm :=
  AR.and (if sat then modFlag "sat" else AR.ret false) fun st => AR.and (modAny tyMods) fun ty =>
    AR.and (rw ty.is64) fun d => AR.and (rw ty.is64) fun a =>
      AR.map (fun b h => f h { ty := ty, sat := st, d := d, a := a, b := b }) (srcOp ty.is64 (signedTy ty))
def iUn (f : Hd → IUn → Instr) : AForm :=
  AR.and (modFlag "sat") fun st => AR.and (modAny tyMods) fun ty => AR.and (rw ty.is64) fun d =>
    AR.map (fun a h => f h { ty := ty, sat := st, d := d, a := a }) (rw ty.is64)
/-- `mulwide`: 32-bit types, and a pair for the product. -/
def iWide (f : Hd → IBin → Instr) : AForm :=
  AR.and (modAny [("i32", IntTy.i32), ("n32", .n32)]) fun ty => AR.and r2 fun d => AR.and r1 fun a =>
    AR.map (fun b h => f h { ty := ty, d := d, a := a, b := b }) (srcOp false (signedTy ty))
/-- Shifts: the count is one register, or an immediate read unsigned (R211, R212). -/
def iShift (f : Hd → IBin → Instr) : AForm :=
  AR.and (modAny tyMods) fun ty => AR.and (rw ty.is64) fun d => AR.and (rw ty.is64) fun a =>
    AR.map (fun b h => f h { ty := ty, d := d, a := a, b := b }) (srcOp false false)
/-- `bfe`: the selector is one register, or an immediate of the type. -/
def iField (f : Hd → IBin → Instr) : AForm :=
  AR.and (modAny tyMods) fun ty => AR.and (rw ty.is64) fun d => AR.and (rw ty.is64) fun a =>
    AR.map (fun b h => f h { ty := ty, d := d, a := a, b := b }) (srcOp false (signedTy ty))
def iTri (f : Hd → ITri → Instr) : AForm :=
  AR.and (modAny tyMods) fun ty => AR.and (rw ty.is64) fun d => AR.and (rw ty.is64) fun a => AR.and (rw ty.is64) fun b =>
    AR.map (fun c h => f h { ty := ty, d := d, a := a, b := b, c := c }) (srcOp ty.is64 (signedTy ty))
def bwTy : BW → IntTy
  | .b32 => .n32
  | .b64 => .n64
def bBin (f : Hd → BBin → Instr) : AForm :=
  AR.and (modAny bwMods) fun w => let q := w == .b64
    AR.and (rw q) fun d => AR.and (rw q) fun a => AR.map (fun b h => f h { bw := w, d := d, a := a, b := b }) (srcOp q false)
def bUn (one : Bool) (f : Hd → BUn → Instr) : AForm :=
  AR.and (modAny bwMods) fun w => let q := w == .b64
    AR.and (rw (q && !one)) fun d => AR.map (fun a h => f h { bw := w, d := d, a := a }) (rw q)
def bTri (f : Hd → ITri → Instr) : AForm :=
  AR.and (modAny bwMods) fun w => let q := w == .b64
    AR.and (rw q) fun d => AR.and (rw q) fun a => AR.and (rw q) fun b =>
      AR.map (fun c h => f h { ty := bwTy w, d := d, a := a, b := b, c := c }) (srcOp false false)

def rndThen {α : Type} (l : List (String × α)) (f : Rnd → α → AForm) : AForm :=
  AR.and (modOpt rndMods .rne) fun r => AR.and (modAny l) fun t => f r t
def f32Only : List (String × Unit) := [("f32", ())]
def fBin (f : Hd → FBin → Instr) : AForm := rndThen f32Only fun r _ => AR.and r1 fun d => AR.and r1 fun a =>
  AR.map (fun b h => f h { rnd := r, d := d, a := a, b := b }) fsrcOp
def fUn (f : Hd → FUn → Instr) : AForm := rndThen f32Only fun r _ => dA r1 r1 fun d a h => f h { rnd := r, d := d, a := a }
/-- `fma.f32`: the last source may be immediate. -/
def fTri : AForm := rndThen f32Only fun r _ => AR.and r1 fun d => AR.and r1 fun a => AR.and r1 fun b =>
  AR.map (fun c h => .fmaF32 h { rnd := r, d := d, a := a, b := .reg b } c) fsrcOp
def hBin (f : Hd → HBin → Instr) : AForm := rndThen f16Mods fun r t => dAB r1 r1 r1 fun d a b h =>
  f h { ty := t, rnd := r, d := d, a := a, b := b }
def hTri : AForm := rndThen f16Mods fun r t => AR.and r1 fun d => AR.and r1 fun a => AR.and r1 fun b =>
  AR.map (fun c h => .fmaF16 h { ty := t, rnd := r, d := d, a := a, b := b } c) r1
def cBin (f : Hd → CBin → Instr) : AForm := rndThen [("c64", ())] fun r _ => dAB r2 r2 r2 fun d a b h =>
  f h { rnd := r, d := d, a := a, b := b }
def cTri : AForm := rndThen [("c64", ())] fun r _ => AR.and r2 fun d => AR.and r2 fun a => AR.and r2 fun b =>
  AR.map (fun c h => .cfmaC64 h { rnd := r, d := d, a := a, b := b } c) r2
def fMin (f : Hd → Bool → RegNo → RegNo → FSrc → Instr) : AForm :=
  AR.and (modFlag "num") fun m => AR.and (modIs "f32") fun _ => AR.and r1 fun d => AR.and r1 fun a =>
    AR.map (fun b h => f h m d a b) fsrcOp

/-- The element selector `.elN` of `cvt`. -/
def elMods : List (String × BitVec 2) := [("el0", 0), ("el1", 1), ("el2", 2), ("el3", 3)]
def wideCvt : CvtTy → Bool
  | .i64 => true
  | .n64 => true
  | _ => false
def cvtForm : AForm :=
  AR.and (modOpt rndMods .rne) fun r => AR.and (modFlag "sat") fun st => AR.and (modOpt elMods 0) fun el =>
    AR.and (modAny cvtMods) fun dt => AR.and (modAny cvtMods) fun t =>
      dA (rw (wideCvt dt)) (rw (wideCvt t)) fun d a h => .cvt h r st el dt t d a

/-- `.op.ty` of the reductions and scans (R226); a rounding modifier stands between them on `.add.f32`. -/
def redMods : AR RedOp :=
  let t := fun (i n f : RedOp) => modAny [("i32", i), ("n32", n), ("f32", f)]
  let b := fun (o : RedOp) => AR.map (fun _ => o) (modIs "b32")
  AR.and (modAny [("add", 0), ("min", 1), ("max", 2), ("and", 3), ("or", 4), ("xor", 5)]) fun (k : Nat) =>
    if k = 0 then AR.or (AR.and (modAny rndMods) fun r => AR.map (fun _ => .addF r) (modIs "f32")) (t .addI .addN (.addF .rne))
    else if k = 1 then t .minI .minN .minF else if k = 2 then t .maxI .maxN .maxF
    else if k = 3 then b .andB else if k = 4 then b .orB else b .xorB
def redForm (f : Hd → RedOp → RegNo → RegNo → Instr) : AForm := AR.and redMods fun o => dA r1 r1 fun d a h => f h o d a

def b64Flag : AR Bool := modFlag "b64"
def shflForm : AForm :=
  AR.and (modAny [("idx", Instr.shflIdx), ("up", .shflUp), ("down", .shflDown), ("xor", .shflXor)]) fun f =>
    AR.and b64Flag fun q => AR.and (rw q) fun d => AR.and (rw q) fun a => AR.map (fun b h => f h q d a b) fsrcOp
def qxForm : AForm := AR.and (modAny [("h", Instr.qxH), ("v", .qxV), ("d", .qxD)]) fun f =>
  AR.and b64Flag fun q => dA (rw q) (rw q) fun d a h => f h q d a
def qbcForm : AForm := AR.and b64Flag fun q => AR.and (rw q) fun d => AR.and (rw q) fun a =>
  AR.map (fun j h => .qbc h q d a (BitVec.ofNat 2 j)) (small 0 3)
def confForm : AForm :=
  AR.or (AR.and (modIs "first") fun _ => AR.and b64Flag fun q => AR.and preg fun p => AR.map (fun a h => .confFirst h q p a) (rw q))
    (AR.and b64Flag fun q => dA r1 (rw q) fun d a h => .conf h q d a)
def bpForm (f : Hd → RegNo → RegNo → RegNo → BitVec 5 → Instr) : AForm := AR.and r1 fun d => AR.and r1 fun a => AR.and r1 fun b =>
  AR.map (fun k h => f h d a b (BitVec.ofNat 5 k)) (small 0 31)
/-- `mv` with its modifiers in the order of its syntax (R229). -/
def mvForm : AForm :=
  AR.and (modAny [("f32", false), ("bf16", true)]) fun t => AR.and (modFlag "bias") fun bi => AR.and (modFlag "relu") fun re =>
    AR.and (modOpt rndMods .rne) fun r => AR.and r1 fun d => AR.and r1 fun a => AR.and r1 fun b => AR.and (small 1 16) fun m =>
      AR.map (fun k h => .mvWt h { bf16 := t, bias := bi, relu := re, rnd := r, d := d, a := a, b := b
                                   m1 := BitVec.ofNat 4 (m - 1), k1 := BitVec.ofNat 4 (k - 1) }) (small 1 16)

/-! ### Memory forms -/

def ldWidth (cox : Bool) (z : LdSz) : AR RegNo := if !cox && z == .b64 then r2 else r1
def stWidth (cox : Bool) (z : StSz) : AR RegNo := if !cox && z == .b64 then r2 else r1
/-- A reader that looks at the stream. -/
def inStream {α : Type} (f : Bool → AR α) : AR α := fun s => f s.cox s

def ldForm : AForm := inStream fun cox => AR.and (flagScope "acq") fun q => AR.and (modAny ldMods) fun z =>
  AR.and (ldWidth cox z) fun d => AR.map (fun m h => .ld h q z d m.1 m.2) (memOp true)
def stForm : AForm := inStream fun cox => AR.and (modFlag "tag") fun tag => AR.and (flagScope "rel") fun q =>
  AR.and (modAny stMods) fun z =>
    if tag then AR.and r1 fun d => AR.and (memOp true) fun m => AR.map (fun b h => .stTag h q z d m.1 b m.2) (stWidth cox z)
    else AR.and (memOp true) fun m => AR.map (fun b h => .st h q z m.1 b m.2) (stWidth cox z)
def ldcForm : AForm := inStream fun cox => AR.and (modAny ldMods) fun z => AR.and (ldWidth cox z) fun d =>
  AR.map (fun m h => .ldc h z d m.1 m.2) (memOp false)
def cpaForm : AForm :=
  AR.or (AR.and (modIs "reg") fun _ => AR.and ordMods fun o => AR.and r1 fun t => AR.and ptrOp fun a => AR.and r1 fun b =>
      AR.and r1 fun c => AR.map (fun n h => .cpaReg h o t a b c (BitVec.ofNat 3 (n - 1))) (small 1 8))
    (AR.and ordMods fun o => AR.and r1 fun t => AR.and ptrOp fun a => AR.and ptrOp fun b => AR.map (fun c h => .cpa h o t a b c) r1)
def gthForm : AForm := AR.and (modOpt clsMods .normal) fun c => AR.and (modAny ldMods) fun z =>
  AR.and (rw (z == .b64)) fun d => AR.map (fun m h => .gth h { cls := c, sz := z, r := d, a := m.1, disp := m.2 }) (memOp true)
def sctForm : AForm := AR.and (modOpt clsMods .normal) fun c => AR.and (modAny stMods) fun z => AR.and (memOp true) fun m =>
  AR.map (fun d h => .sct h { cls := c, sz := z, r := d, a := m.1, disp := m.2 }) (rw (z == .b64))
def gthxForm : AForm := AR.and (modOpt clsMods .normal) fun c => AR.and (modAny ldMods) fun z => AR.and (rw (z == .b64)) fun d =>
  AR.and (memOp true) fun m => AR.and r1 fun b =>
    AR.map (fun k h => .gthx h { cls := c, sz := z, sh := BitVec.ofNat 3 k, r := d, a := m.1, b := b, disp := m.2 }) (small 0 7)
def sctxForm : AForm := AR.and (modOpt clsMods .normal) fun c => AR.and (modAny stMods) fun z => AR.and (rw (z == .b64)) fun d =>
  AR.and (memOp true) fun m => AR.and r1 fun b =>
    AR.map (fun k h => .sctx h { cls := c, sz := z, sh := BitVec.ofNat 3 k, r := d, a := m.1, b := b, disp := m.2 }) (small 0 7)
def cstForm : AForm := AR.and (modAny [("b32", false), ("b64", true)]) fun q => AR.and r2 fun d => AR.and (memOp true) fun m =>
  AR.and (rw q) fun b => AR.map (fun p h => .cst h q p d m.1 b m.2) preg
def embpoolForm : AForm := AR.and ptrOp fun d => AR.and ptrOp fun a => AR.and r1 fun b => AR.and r1 fun c =>
  AR.map (fun k h => .embpool h d a b c (BitVec.ofNat 4 (k - 1))) (small 1 16)
/-- R287 shows no scope in the syntax of `embsw`, though its write is a release at SCOPE: an optional scope modifier, `.core`
where none is written (log 112, DESIGN CHOICE). -/
def embswForm : AForm := AR.and (modOpt scopeMods .core) fun sc => AR.and r1 fun d => AR.and ptrOp fun a =>
  AR.map (fun b h => .embsw h sc d a b) r1

/-- The integer operations with return, in the order of Table 13-8; the last five take the bit types. -/
def atomOps : List (String × Bool × (Hd → AtOps → Instr)) :=
  [("add", false, .atomAdd), ("min", false, .atomMin), ("max", false, .atomMax), ("and", true, .atomAnd), ("or", true, .atomOr),
   ("xor", true, .atomXor), ("exch", true, .atomExch), ("cas", true, .atomCas)]
def bitTyMods : List (String × IntTy) := [("n32", .n32), ("n64", .n64), ("b32", .n32), ("b64", .n64)]
def atomFOps : List (String × (Hd → AtFOps → Instr)) := [("add", .atomAddF32), ("min", .atomMinF32), ("max", .atomMaxF32)]
/-- The operand of an atomic: of `cas` the compare value and the new one (R288). -/
def atomSrc (cas cox : Bool) (ty : IntTy) : AR RegNo := if cox then r1 else if ty.is64 || cas then r2 else r1
def atomForm : AForm := inStream fun cox =>
  AR.or (AR.and (modAny atomOps) fun x => AR.and ordMods fun o => AR.and (modAny (if x.1 then bitTyMods else tyOrBits)) fun ty =>
      AR.and (rw ty.is64) fun d => AR.and (memOp true) fun m =>
        AR.map (fun b h => x.2 h { ty := ty, o := o, d := d, a := m.1, b := b, disp := m.2 })
          (atomSrc ((x.2 {} { ty := ty, o := o, d := d, a := 0, b := 0, disp := .d8 0 }) ==
            (.atomCas {} { ty := ty, o := o, d := d, a := 0, b := 0, disp := .d8 0 })) cox ty))
    (AR.and (modAny atomFOps) fun f => AR.and (modFlag "num") fun n => AR.and ordMods fun o => AR.and (modIs "f32") fun _ =>
      AR.and r1 fun d => AR.and (memOp true) fun m =>
        AR.map (fun b h => f h { num := n, o := o, d := d, a := m.1, b := b, disp := m.2 }) r1)
def mredOps : List (String × Bool × (Hd → IntTy → Ord → RegNo → RegNo → Disp → Instr)) :=
  [("add", false, .mredAdd), ("min", false, .mredMin), ("max", false, .mredMax), ("and", true, .mredAnd), ("or", true, .mredOr),
   ("xor", true, .mredXor)]
def mredForm : AForm := inStream fun cox =>
  AR.or (AR.and (modAny mredOps) fun x => AR.and ordMods fun o => AR.and (modAny (if x.1 then bitTyMods else tyOrBits)) fun ty =>
      AR.and (memOp true) fun m => AR.map (fun b h => x.2 h ty o m.1 b m.2) (atomSrc false cox ty))
    (AR.and (modAny [("add", 0), ("min", 1), ("max", 2)]) fun (k : Nat) => AR.and (modFlag "num") fun n => AR.and ordMods fun o =>
      AR.and (modIs "f32") fun _ => AR.and (memOp true) fun m => fun s =>
        if k = 0 && n then none
        else AR.map (fun b h => if k = 0 then .mredAddF32 h o m.1 b m.2 else if k = 1 then .mredMinF32 h n o m.1 b m.2
          else .mredMaxF32 h n o m.1 b m.2) r1 s)
def fenceForm : AForm :=
  AR.or (AR.map (fun _ h => .fenceAck h) (modIs "ack"))
    (AR.and (modAny [("rel", Instr.fenceRel), ("acq", .fenceAcq), ("sc", .fenceSc), ("eng", .fenceEng)]) fun f =>
      AR.map (fun sc h => f h sc) (modAny scopeMods))

/-! ### Control, fibres, barriers and queues -/

def labelLast (p : AR (W32 → Hd → Instr)) : AForm := AR.and p fun f => AR.map (fun t => f t) label32
def braForm : AForm :=
  AR.or (AR.and (modIs "z") fun _ => labelLast (AR.map (fun a t h => .braZ h a t) r1))
    (AR.or (AR.and (modIs "nz") fun _ => labelLast (AR.map (fun a t h => .braNz h a t) r1))
      (AR.or (AR.and (modIs "any") fun _ => labelLast (AR.map (fun a t h => .braAny h a t) preg))
        (AR.or (AR.and (modIs "all") fun _ => labelLast (AR.map (fun a t h => .braAll h a t) preg))
          (AR.map (fun t h => .bra h t) label32))))
def callForm : AForm := AR.or (AR.and (modIs "r") fun _ => dA r1 r1 fun d a h => .callR h d a)
  (labelLast (AR.map (fun d t h => .call h d t) r1))
def brxForm : AForm := AR.and r1 fun a => AR.and (small 0 255) fun n => AR.map (fun t h => .brx h a (BitVec.ofNat 8 n) t) label32
def spawnForm : AForm := AR.and r1 fun d => AR.and r1 fun a => AR.and (small 0 31) fun n =>
  AR.map (fun t h => .spawn h d a (BitVec.ofNat 5 n) t) label32
def relNo : AR (BitVec 3) := AR.map (BitVec.ofNat 3) (small 0 7)
def byteNo : AR (BitVec 8) := AR.map (BitVec.ofNat 8) (small 0 255)
def b32or64 : AR Bool := modAny [("b32", false), ("b64", true)]
def matchForm : AForm :=
  AR.or (AR.and (modIs "any") fun _ => AR.and b32or64 fun q => dA r1 (rw q) fun d a h => .matchAny h q d a)
    (AR.and (modIs "all") fun _ => AR.and b32or64 fun q => AR.and preg fun p => AR.map (fun a h => .matchAll h q p a) (rw q))
def regroupForm : AForm :=
  AR.or (AR.and (modIs "key") fun _ => AR.and b32or64 fun q => AR.and (rw q) fun a => AR.map (fun t h => .regroupKey h q a t) byteNo)
    (AR.map (fun t h => .regroup h t) byteNo)

def countOp : AR Count := fun s => match s.ops with
  | .imm _ :: _ => (imm32Op s).map fun x => (.imm x.1, x.2)
  | .fimm _ :: _ => (imm32Op s).map fun x => (.imm x.1, x.2)
  | _ => (r1 s).map fun x => (.reg x.1, x.2)
/-- The three forms of a barrier level with n bits of number (Table 8-5). -/
def barForm {n : Nat} (sync arr : Hd → Bool → RegNo → BitVec n → Count → Instr) (wt : Hd → Bool → RegNo → RegNo → BitVec n → Instr) :
    AForm :=
  let num := AR.map (BitVec.ofNat n) (small 0 (2 ^ n - 1))
  AR.or (AR.and (modIs "sync") fun _ => AR.and (modFlag "rlx") fun x => AR.and predOrS fun d => AR.and num fun b =>
      AR.map (fun c h => sync h x d b c) countOp)
    (AR.or (AR.and (modIs "arrive") fun _ => AR.and (modFlag "rlx") fun x => AR.and r1 fun d => AR.and num fun b =>
        AR.map (fun c h => arr h x d b c) countOp)
      (AR.and (modIs "wait") fun _ => AR.and (modFlag "rlx") fun x => AR.and predOrS fun d => AR.and num fun b =>
        AR.map (fun a h => wt h x d a b) r1))
def barinitForm : AForm := AR.and (modAny levelMods) fun l => AR.and (small 0 15) fun b =>
  AR.map (fun a h => .barinit h l a (BitVec.ofNat 4 b)) sreg1
def barinvForm : AForm := AR.and (modAny levelMods) fun l => AR.map (fun b h => .barinv h l (BitVec.ofNat 4 b)) (small 0 15)

/-- An entry of a queue: an S register, a V register, or a pair under `.b64`, which only the fibre stream has (R205). -/
def qpushForm : AForm := inStream fun cox => AR.and (if cox then AR.ret false else b64Flag) fun q => AR.and qreg fun n =>
  AR.map (fun a h => .qpush h q n a) (rw q)
def qpopForm : AForm := inStream fun cox => AR.and (if cox then AR.ret false else b64Flag) fun q =>
  AR.and (if cox then AR.ret false else modFlag "bc") fun bc => AR.and (rw q) fun d => AR.map (fun n h => .qpop h q bc d n) qreg
/-- The selector is one register in either stream (R205). -/
def qbindForm : AForm := AR.and r1 fun d => AR.and qreg fun q => AR.and r1 fun a =>
  AR.map (fun k h => .qbind h d a q (BitVec.ofNat 3 k)) (small 0 7)
def dqForm : AForm :=
  AR.or (AR.and (modIs "push") fun _ => AR.map (fun a h => .dqPush h a) sreg1)
    (AR.or (AR.and (modIs "pop") fun _ => AR.and b64Flag fun q => AR.map (fun d h => .dqPop h q d) (rw q))
      (AR.and (modIs "popf") fun _ => AR.and b64Flag fun q => AR.map (fun d h => .dqPopf h q d) (rw q)))

/-! ### Engines -/

/-- An optional last group of immediates of `mma`: kb, nx and mult (R347). -/
def mmaTail (pair k64 : Bool) : AR (Nat × Nat × W32) := fun s =>
  let kn := if k64 then 2 else 1
  let nn := if pair then 96 else 48
  let mult := fun (x : Nat × Nat) (s : ASt) => match s.ops with
    | .fimm w :: r => some ((x.1, x.2, w), { s with ops := r })
    | _ => some ((x.1, x.2, (0x3F800000 : W32)), s)
  match s.ops with
  | .imm _ :: _ => (AR.and (small 0 kn) (fun a => AR.map (fun b => (a, b)) (small 0 nn)) s).bind fun r => mult r.1 r.2
  | _ => mult (kn, nn) s

/-- `mma` (R347): the modifiers and operands in the order of its syntax. -/
def mmaForm : AForm :=
  AR.and (modFlag "pair") fun pr => AR.and (modFlag "init") fun ini => AR.and (modFlag "k64") fun k64 => AR.and (modFlag "sb") fun sb =>
  AR.and (modAny afmtMods) fun af => AR.and (modAny ([("tile", none)] ++ afmtMods.map fun x => (x.1, some x.2))) fun bf =>
  AR.and zreg fun z => AR.and r1 fun a => AR.and (if bf.isNone then ptrOp else r1) fun b =>
  AR.and (fun s => match s.ops with
    | .reg 'V' _ :: _ => (r2 s).map fun x => (some x.1, x.2)
    | .pair _ :: _ => (r2 s).map fun x => (some x.1, x.2)
    | _ => some (none, s)) fun c =>
  AR.map (fun (t : Nat × Nat × W32) h => .mma h
    { z := z, a := a, b := b, c := c.getD 0, pair := pr, th := bf.isNone, sa := c.isSome, sb := sb, init := ini, mult := t.2.2
      nx := BitVec.ofNat 7 t.2.1, kb := BitVec.ofNat 2 t.1, k64 := k64, afmt := af, bfmt := bf.getD .e4m3 }) (mmaTail pr k64)
def zldForm : AForm := AR.and zreg fun z => AR.and ptrOp fun a => AR.map (fun b h => .zld h z a b) r1
def zstForm : AForm := AR.and ptrOp fun a => AR.and zreg fun z => AR.map (fun b h => .zst h a z b) r1
def zrdForm : AForm := AR.and r1 fun d => AR.and zreg fun z => AR.map (fun j h => .zrd h d z j) byteNo
def plseForm : AForm := AR.and (modFlag "pair") fun p => AR.and (modFlag "try") fun t => AR.map (fun d h => .plse h p t d) r1
def scpfForm : AForm := AR.and r2 fun a => AR.map (fun n h => .scpf h a (BitVec.ofNat 8 n)) (small 1 255)
def zqForm : AForm := AR.and (modFlag "e5m2") fun q => AR.and ptrOp fun a => AR.and zreg fun z => AR.map (fun c h => .zq h q a z c) ptrOp
def cbrdForm : AForm := AR.and (modFlag "sum") fun q => dA r1 r1 fun d a h => .cbrd h q d a
def slotNo : AR (BitVec 2) := AR.map (BitVec.ofNat 2) (small 0 3)
def edgateForm : AForm := AR.and (modAny [("k1", 0), ("k2", 1), ("k3", 2)]) fun k => AR.and ordMods fun o => AR.and r1 fun d =>
  AR.and slotNo fun s => AR.and r1 fun a => AR.map (fun b h => .edgate h o k d a b s) r1
def edmeasForm : AForm := AR.and ordMods fun o => AR.and r2 fun d => AR.and slotNo fun s => AR.map (fun a h => .edmeas h o d a s) r1
def ednormForm : AForm := AR.and ordMods fun o => AR.and r1 fun d => AR.map (fun s h => .ednorm h o d s) slotNo
def edmapForm : AForm :=
  AR.or (AR.and (modIs "init") fun _ => AR.and r1 fun d => AR.and slotNo fun s => AR.map (fun a h => .edmapInit h d a s) ptrOp)
    (AR.or (AR.and (modIs "free") fun _ => AR.and r1 fun d => AR.map (fun s h => .edmapFree h d s) slotNo)
      (AR.and (modAny [("rd", Instr.edmapRd), ("wr", .edmapWr)]) fun f => AR.and r1 fun d => AR.and slotNo fun s =>
        AR.map (fun a h => f h d a s) r1))
def edswapForm : AForm := AR.and r1 fun d => AR.and slotNo fun s => AR.map (fun a h => .edswap h d a s) r1
def edsyncForm : AForm := AR.and (modAny scopeMods) fun sc => AR.map (fun s h => .edsync h sc s) slotNo
def collForm : AForm := AR.and (modAny [("red", Instr.collRed), ("rs", .collRs), ("ag", .collAg), ("bc", .collBc)]) fun f =>
  AR.and ordMods fun o => AR.and r1 fun d => AR.map (fun a h => f h o d a) ptrOp
def dispForm (f : Hd → Ord → RegNo → RegNo → Instr) : AForm := AR.and ordMods fun o => AR.and r1 fun d => AR.map (fun a h => f h o d a) ptrOp
def lkctlForm : AForm :=
  AR.and (modAny [("up", Instr.lkctlUp), ("down", .lkctlDown), ("rxbuf", .lkctlRxbuf), ("post", .lkctlPost), ("clr", .lkctlClr)]) fun f =>
    dAB sreg1 sreg1 sreg1 fun d a b h => f h d a b

/-! ### System forms -/

/-- The numbers of the special registers (Table 5-8). -/
def srNames : List (String × Nat) :=
  [("loc", 0x00), ("lane", 0x01), ("fid", 0x02), ("gmask", 0x03), ("blk", 0x04), ("nblk", 0x05), ("ctx", 0x06), ("cyc", 0x07),
   ("stroke", 0x08), ("nftrap", 0x09), ("scb", 0x0A), ("scs", 0x0B), ("wake", 0x0C), ("svc", 0x0D), ("xf0", 0x10), ("xf1", 0x11),
   ("xf2", 0x12), ("xf3", 0x13), ("xinst", 0x14), ("xext", 0x15), ("xcause", 0x16), ("xpc", 0x17)]
def specialOp : AR Nat := opNext fun _ o => match o with
  | .special s => (srNames.find? fun x => x.1 == s).map (·.2)
  | _ => none
def srdForm : AForm := fun s => match s.ops with
  | o :: .special n :: r => (specialOp { s with ops := [.special n] }).bind fun x =>
      ((rw (srWide x.1)) { s with ops := [o] }).map fun d => (fun h => .srd h d.1 (BitVec.ofNat 8 x.1), { s with ops := r })
  | _ => none
def swrForm : AForm := AR.and specialOp fun n => AR.map (fun a h => .swr h a (BitVec.ofNat 8 n)) (rw (srWide n))
def ctxctlForm : AForm :=
  AR.and (modAny [("create", Instr.ctxctlCreate), ("start", .ctxctlStart), ("stop", .ctxctlStop), ("resume", .ctxctlResume),
      ("kill", .ctxctlKill), ("free", .ctxctlFree), ("reflect", .ctxctlReflect)]) fun f =>
    dAB sreg1 sreg1 sreg1 fun d a b h => f h d a b
def stageNo : AR (BitVec 3) := AR.map (BitVec.ofNat 3) (small 0 7)
def hldForm : AForm := inStream fun cox => AR.and (modAny hszMods) fun z => AR.and (if !cox && z == .b64 then r2 else r1) fun d =>
  dA r2 r1 fun a b h => .hld h z d a b
def hstForm : AForm := inStream fun cox => AR.and (modAny hszMods) fun z => AR.and r2 fun a => AR.and r1 fun b =>
  AR.map (fun c h => .hst h z a b c) (if !cox && z == .b64 then r2 else r1)
def walkForm : AForm :=
  AR.or (AR.and (modIs "init") fun _ => dAB sreg1 sreg1 sreg1 fun a b c h => .walkInit h a b c)
    (AR.and (modIs "next") fun _ => AR.map (fun d h => .walkNext h d) sreg1)

/-- An integer form, or a floating form of the same base name. -/
def alt (l : List AForm) : AForm := l.foldr AR.or fun _ => none

/-- Every base name with its forms. -/
def asmForms : List (String × AForm) :=
  [("nop", alt [AR.map (fun _ h => .nopW12 h) (modIs "w12"), AR.map (fun _ h => .nopW16 h) (modIs "w16"), noOps .nop]),
   ("bra", braForm), ("call", callForm), ("ret", AR.map (fun a h => .ret h a) r1), ("brx", brxForm),
   ("spawn", spawnForm), ("exit", noOps .exit), ("kill", dA r1 r1 fun d a h => .kill h d a),
   ("renter", AR.map (fun r h => .renter h r) relNo), ("rleave", AR.map (fun r h => .rleave h r) relNo),
   ("rjoin", labelLast (AR.map (fun r t h => .rjoin h r t) relNo)), ("rfold", AR.map (fun r h => .rfold h r) relNo),
   ("match", matchForm),
   ("rprobe", AR.and r1 fun d => AR.and (AR.or r1 r2) fun a => AR.map (fun r h => .rprobe h d a r) relNo),
   ("compact", AR.map (fun t h => .compact h t) byteNo), ("regroup", regroupForm)] ++
  [("add", alt [iBin true .add, fBin .addF32, hBin .addF16]), ("sub", alt [iBin true .sub, fBin .subF32, hBin .subF16]),
   ("neg", iUn .neg), ("abs", iUn .abs),
   ("min", alt [iBin false .min, fMin .minF32]), ("max", alt [iBin false .max, fMin .maxF32]),
   ("mul", alt [iBin false .mul, fBin .mulF32, hBin .mulF16]), ("mulhi", iBin false .mulhi), ("mulwide", iWide .mulwide),
   ("mad", iTri .mad), ("div", alt [iBin false .div, fBin .divF32]), ("rem", iBin false .rem),
   ("and", bBin .and), ("or", bBin .or), ("xor", bBin .xor), ("not", bUn false .not), ("andn", bBin .andn),
   ("shl", iShift .shl), ("shr", iShift .shr),
   ("setp", alt [AR.and (modAny iccMods) fun c => AR.and (modAny tyMods) fun ty => AR.and predOrS fun d => AR.and (rw ty.is64) fun a =>
        AR.map (fun b h => .setp h c { ty := ty, d := d, a := a, b := b }) (srcOp ty.is64 (signedTy ty)),
      AR.and (modAny fccMods) fun c => AR.and (modIs "f32") fun _ => AR.and preg fun p => AR.and r1 fun a =>
        AR.map (fun b h => .setpF32 h c p a b) fsrcOp]),
   ("sel", AR.and (modAny tyMods) fun ty => AR.and (rw ty.is64) fun d => AR.and (rw ty.is64) fun a => AR.and (rw ty.is64) fun b =>
      AR.map (fun c h => .sel h ty d a b c) predOrS),
   ("plog", AR.and (modAny plogMods) fun o => AR.and preg fun d => AR.and preg fun a => AR.map (fun b h => .plog h o d a b) preg),
   ("popc", bUn true .popc), ("clz", bUn true .clz), ("ctz", bUn true .ctz), ("brev", bUn false .brev),
   ("bfe", iField .bfe), ("bfi", bTri .bfi),
   ("mov", AR.and (modAny tyMods) fun ty => AR.and (rw ty.is64) fun d => AR.map (fun a h => .mov h ty d a) (srcOp ty.is64 (signedTy ty))),
   ("movx", AR.and r2 fun d => opNext fun _ o => match o with
      | .imm x => if x.reloc.isNone then some fun h => .movx h d (BitVec.ofInt 64 x.v) else none
      | _ => none)] ++
  [("fma", alt [fTri, hTri]),
   ("class", AR.and (modIs "f32") fun _ => dA r1 r1 fun d a h => .classF32 h d a),
   ("sqrt", fUn .sqrtF32), ("rcp", fUn .rcpF32), ("rsqrt", fUn .rsqrtF32),
   ("cadd", cBin .caddC64), ("cmul", cBin .cmulC64), ("cfma", cTri), ("cvt", cvtForm),
   ("prmt", AR.and r1 fun d => AR.and r1 fun a => AR.and r1 fun b => AR.map (fun c h => .prmt h d a b c) fsrcOp),
   ("pack", alt [rndThen f16Mods fun r t => dAB r1 r1 r1 fun d a b h => .packF16 h t r d a b,
      AR.and (modOpt rndMods .rne) fun r => AR.and (modFlag "sat") fun st => AR.and (modAny f8Mods) fun t =>
        dAB r1 r2 r2 fun d a b h => .packF8 h t st r d a b]),
   ("unpack", AR.and (modAny [("f16", UnpackTy.f16), ("bf16", .bf16), ("e4m3", .e4m3), ("e5m2", .e5m2)]) fun t =>
      dA r1 r1 fun d a h => .unpack h t d a),
   ("mxq", AR.and (modAny f8Mods) fun t => dA r1 r1 fun d a h => .mxq h t d a),
   ("mxw", AR.and (modAny f8Mods) fun t => dAB r1 r1 r1 fun d a b h => .mxw h t d a b),
   ("shfl", shflForm), ("red", redForm .red), ("scan", redForm .scan), ("scanx", redForm .scanx), ("qx", qxForm), ("qbc", qbcForm),
   ("ballot", AR.and r1 fun d => AR.map (fun p h => .ballot h d p) preg),
   ("pfxpop", AR.and r1 fun d => AR.map (fun p h => .pfxpop h d p) preg),
   ("conf", confForm), ("bpcnt", bpForm .bpcnt), ("bpmatch", bpForm .bpmatch), ("mv", mvForm)] ++
  [("ld", ldForm), ("st", stForm), ("ldc", ldcForm), ("cpa", cpaForm), ("gth", gthForm), ("sct", sctForm), ("gthx", gthxForm),
   ("sctx", sctxForm), ("cst", cstForm), ("embpool", embpoolForm), ("embsw", embswForm), ("atom", atomForm), ("mred", mredForm),
   ("fence", fenceForm),
   ("bar", barForm .barSync .barArrive .barWait), ("cbar", barForm .cbarSync .cbarArrive .cbarWait),
   ("gbar", barForm .gbarSync .gbarArrive .gbarWait), ("barinit", barinitForm), ("barinv", barinvForm),
   ("rjset", AR.map (fun j h => .rjset h j) jreg), ("rjw", AR.map (fun j h => .rjw h j) jreg),
   ("qbind", qbindForm), ("qunbind", AR.and r1 fun d => AR.map (fun q h => .qunbind h d q) qreg),
   ("qpush", qpushForm), ("qpop", qpopForm), ("qdrain", AR.and r1 fun d => AR.map (fun q h => .qdrain h d q) qreg), ("dq", dqForm),
   ("hrecv", AR.and (modFlag "try") fun t => AR.and sreg1 fun d => AR.map (fun q h => .hrecv h t d q) qreg)] ++
  [("mma", mmaForm), ("zzero", AR.map (fun z h => .zzero h z) zreg), ("zld", zldForm), ("zst", zstForm), ("zrd", zrdForm),
   ("plse", plseForm), ("plrl", AR.map (fun d h => .plrl h d) r1), ("scinv", noOps .scinv), ("scpf", scpfForm), ("zq", zqForm),
   ("cbcfg", dAB sreg1 sreg1 sreg1 fun d a b h => .cbcfg h d a b), ("cbclr", AR.map (fun d h => .cbclr h d) sreg1),
   ("cbrel", AR.map (fun d h => .cbrel h d) sreg1), ("cbstat", AR.map (fun d h => .cbstat h d) sreg1),
   ("cbpush", dA r1 r1 fun d a h => .cbpush h d a), ("cbmerge", AR.map (fun d h => .cbmerge h d) r1), ("cbrd", cbrdForm),
   ("cbsave", AR.and r1 fun d => AR.map (fun a h => .cbsave h d a) ptrOp),
   ("cbrest", AR.and r1 fun d => AR.map (fun a h => .cbrest h d a) ptrOp),
   ("edgate", edgateForm), ("edmeas", edmeasForm), ("ednorm", ednormForm), ("edmap", edmapForm), ("edswap", edswapForm),
   ("edsync", edsyncForm), ("coll", collForm), ("xdisp", dispForm .xdisp), ("xfix", dispForm .xfix),
   ("lkst", dA sreg1 sreg1 fun d a h => .lkst h d a), ("lkctl", lkctlForm)] ++
  [("srd", srdForm), ("swr", swrForm),
   ("xvec", alt [AR.map (fun _ h => .xvecClr h) (modIs "clr"), AR.map (fun t h => .xvec h t) label32]),
   ("xret", alt [AR.map (fun _ h => .xretSkip h) (modIs "skip"), noOps .xret]), ("yield", noOps .yield), ("ctxctl", ctxctlForm),
   ("ctxsave", AR.and sreg1 fun d => AR.and sreg1 fun a => AR.and sreg1 fun b => AR.map (fun c h => .ctxsave h d a b c) sreg1),
   ("ctxrest", dAB sreg1 sreg1 sreg1 fun d a b h => .ctxrest h d a b), ("ptroot", dAB sreg1 sreg1 sreg1 fun d a b h => .ptroot h d a b),
   ("frpop", AR.map (fun d h => .frpop h d) sreg1), ("bgset", AR.and (modAny bclassMods) fun k => dA sreg1 sreg1 fun a b h => .bgset h k a b),
   ("bgrd", AR.and (modAny bclassMods) fun k => dA sreg1 sreg1 fun d a h => .bgrd h k d a), ("ctxprio", dA sreg1 sreg1 fun a b h => .ctxprio h a b),
   ("xlat", dA r2 r2 fun d a h => .xlat h d a),
   ("tinv", AR.and (modFlag "all") fun q => dAB sreg1 sreg1 sreg1 fun d a b h => .tinv h q d a b),
   ("htab", dAB sreg1 sreg1 sreg1 fun d a b h => .htab h d a b),
   ("hinv", AR.and (modFlag "all") fun q => dA sreg1 sreg1 fun d a h => .hinv h q d a), ("hld", hldForm), ("hst", hstForm),
   ("launch", AR.and (modFlag "wait") fun q => dAB sreg1 sreg1 sreg1 fun d a b h => .launch h q d a b), ("walk", walkForm),
   ("stgq", AR.and sreg1 fun d => AR.map (fun k h => .stgq h d k) stageNo),
   ("stgres", AR.and stageNo fun k => AR.map (fun a h => .stgres h a k) sreg1), ("kend", noOps .kend)]

/-- The instruction of a statement: its form reads every modifier and operand; a guard stands only in a fibre section
(R29–R31). -/
def asmInstr (cox : Bool) (guard : Option (Bool × Nat)) (base : String) (mods : List String) (ops : List AOp) : Option Instr :=
  if cox && guard.isSome then none
  else match asmForms.find? fun x => x.1 == base with
  | none => none
  | some f => match f.2 { cox := cox, mods := mods, ops := ops } with
    | some (g, s) =>
      if s.mods.isEmpty && s.ops.isEmpty then some (g (match guard with
        | some (n, p) => { pg := BitVec.ofNat 3 p, pn := n, la := 0 }
        | none => {})) else none
    | none => none

end Sys2Proof.Machine
end

