-- ==== Sys2Proof/Machine/Assemble.lean ====
section
/-! DEFINITION. The twistas assembler and the loader (R35–R52): directives, sections, code layout, lookahead, the kernel
object, and what a loader makes of it. No step of the machine runs them; a launched kernel's images and record come from
them (R52, R115). -/

namespace Sys2Proof.Machine

open Sys2Proof

/-! ### Symbols (R27, R35, R36) -/

inductive AKind where
  | equ
  | code (k : Nat)
  | const (k : Nat)
  | scratch (k : Nat)
  | data
  | kernel (k : Nat)
  | stage
  | relation
  deriving DecidableEq, Repr

/-- A symbol: its kind and value, the line and the turn of its definition, and what `sizeof` gives, with the line and the turn
from which that is known (log 101, DEDUCED). -/
structure ASym where
  name : String
  kind : AKind
  val : Int
  line : Nat
  ord : Nat
  size : Option (Nat × Nat × Nat) := none
  deriving DecidableEq, Repr

/-- Where an expression stands: the symbols, those that an earlier pass gave (R33), the kernel, the line and the turn, `.`, and
whether every symbol has its value. -/
structure AEnv where
  syms : List ASym
  pre : List ASym
  kern : Option Nat
  line : Nat
  ord : Nat
  dot : Nat
  all : Bool

/-- A symbol of an earlier line as an earlier pass gave it. -/
def AEnv.old (v : AEnv) (n : String) : Option ASym := v.pre.find? fun y => y.name == n && y.line < v.line

def AEnv.find (v : AEnv) (n : String) : Option ASym := (v.syms.find? fun y => y.name == n).or (v.old n)

/-- What `sizeof` of a name gives, with the line and the turn from which that is known. -/
def AEnv.sizeOf (v : AEnv) (n : String) : Option (Nat × Nat × Nat) := ((v.find n).bind ASym.size).or ((v.old n).bind ASym.size)

/-- The value of a symbol in an absolute expression; a code label has none outside its kernel (Table 2-2). -/
def AEnv.look (v : AEnv) (n : String) : Option Int := (v.find n).bind fun y => match y.kind with
  | .equ => some y.val
  | .const _ => some y.val
  | .scratch _ => some y.val
  | .code k => if v.kern == some k then some y.val else none
  | .data => none
  | .kernel _ => none
  | .stage => none
  | .relation => none

def AEnv.size (v : AEnv) (n : String) : Option Int := (v.sizeOf n).map fun z => (z.1 : Int)

/-- Whether a reference is no forward one: what it names was complete at an earlier line of the file, and its value is known
there, from this pass or from the pass before (log 101, DEDUCED). -/
def AEnv.seen (v : AEnv) (r : Bool × String) : Bool :=
  if r.1 then (match v.sizeOf r.2 with
    | some z => z.2.1 < v.line && (z.2.2 < v.ord || (((v.old r.2).bind ASym.size).any fun y => y.2.1 < v.line))
    | none => false)
  else match v.find r.2 with
    | some y => y.line < v.line && (y.ord < v.ord || (v.old r.2).isSome)
    | none => false

def AEnv.isRel (v : AEnv) (n : String) : Bool := match v.find n with
  | some y => y.kind == .data
  | none => false

def AEnv.eval (v : AEnv) (e : AExpr) : Option Int := e.eval v.look v.size v.dot

/-- An expression with no forward reference and no relocatable symbol, as `.equ` and the counts need it (R36). -/
def AEnv.now (v : AEnv) (e : AExpr) : Option Int := if e.refs.all v.seen then v.eval e else none

/-- An immediate, a displacement, a label or a `.b32` item (R33, R36). Before every symbol has its value, a forward reference
stands for 0. -/
def AEnv.imm (v : AEnv) (e : AExpr) : Option AImm := match e.half? v.isRel with
  | some (hi, s, ks) =>
    let term := fun (k : AExpr) => if k.refs.all v.seen || v.all then v.eval k else some 0
    (ks.mapM term).bind fun xs => (v.find s).map fun y =>
      { v := 0, known := false, reloc := some (hi, wrap64 (xs.foldl (fun a b => a + b) y.val)) }
  | none =>
    if e.needsRel v.isRel then none
    else if e.refs.all v.seen then (v.eval e).map fun x => { v := x }
    else if v.all then
      (if (e.refs.all fun r => (v.find r.2).isSome) then (v.eval e).map fun x => { v := x, known := false } else none)
    else some { v := 0, known := false, late := true }

/-- An operand with its values. -/
def AEnv.opd (v : AEnv) : AOperand → Option AOp
  | .reg k n => some (.reg k n)
  | .pair n => some (.pair n)
  | .special s => some (.special s)
  | .imm e => (v.imm e).map .imm
  | .fimm w => some (.fimm w)
  | .mem k n none => some (.mem k n none)
  | .mem k n (some (neg, e)) => (v.imm (if neg then .un "-" e else e)).map fun x => .mem k n (some x)
  | .val e => (v.imm e).map .val

/-- An instruction statement as an instruction, with the relocations of its IMM32. -/
def AEnv.insn (v : AEnv) (cox : Bool) (i : AInsn) : Option (Instr × List (Bool × Int)) :=
  (i.ops.mapM v.opd).bind fun ops =>
    let rel := ops.filterMap fun o => match o with
      | .imm x => x.reloc
      | _ => none
    (asmInstr cox i.guard i.base i.mods ops).map fun x => (x, rel)

/-! ### The source as sections -/

/-- A data item: an expression, a floating word, or a repeated expression. -/
inductive AWord where
  | expr (e : AExpr)
  | flt (w : W32)
  | dup (n : Nat) (e : AExpr)
  deriving DecidableEq, Repr

def AWord.words : AWord → Nat
  | .expr _ => 1
  | .flt _ => 1
  | .dup n _ => n

/-- What a section holds: padding, an instruction of a length, or data words. -/
inductive ABody where
  | pad (n : Nat)
  | insn (i : AInsn) (len : Nat)
  | words (l : List AWord)
  deriving DecidableEq, Repr

/-- An item with its line and turn, the kernel it stands in, its offset, and the offset of its statement in the section before
padding. -/
structure AItem where
  kern : Option Nat := none
  line : Nat
  ord : Nat
  off : Nat
  dot : Nat
  body : ABody
  deriving DecidableEq, Repr

/-- A code section of a kernel's image, its items the last first. -/
structure ACode where
  cox : Bool
  depth : Nat
  base : Nat
  size : Nat
  items : List AItem
  deriving DecidableEq, Repr

structure AData where
  size : Nat := 0
  items : List AItem := []
  deriving DecidableEq, Repr

/-- A relation of the source, with its name and its record (R40, R50). -/
structure ARel where
  name : String
  rel : Relation
  deriving DecidableEq, Repr

structure AKern where
  name : String
  line : Nat
  w : Option Nat := none
  opened : Bool := false
  fibre : Bool := false
  codes : List ACode := []
  const : AData := {}
  scratch : AData := {}
  rels : List ARel := []
  deriving DecidableEq, Repr

inductive ASec where
  | none
  | code
  | const
  | scratch
  | data
  deriving DecidableEq, Repr

/-- The assembler between two lines. `pend` are code labels that wait for the next instruction (R43), `pre` the symbols of the
pass before. -/
structure AAsm where
  pre : List ASym := []
  syms : List ASym := []
  kerns : List AKern := []
  inKern : Bool := false
  sec : ASec := .none
  data : AData := {}
  pend : List (String × Nat) := []
  globals : List (String × Nat) := []
  errs : List Nat := []
  ord : Nat := 0

def AAsm.fail (a : AAsm) (line : Nat) : AAsm := { a with errs := a.errs ++ [line] }
/-- As many errors of one line. -/
def AAsm.failN (a : AAsm) (line n : Nat) : AAsm := { a with errs := a.errs ++ List.replicate n line }
def AAsm.kern? (a : AAsm) : Option AKern := if a.inKern then a.kerns.getLast? else none
def AAsm.kidx (a : AAsm) : Nat := a.kerns.length - 1
def AAsm.updKern (a : AAsm) (f : AKern → AKern) : AAsm := match a.kerns.getLast? with
  | some k => { a with kerns := a.kerns.dropLast ++ [f k] }
  | none => a

/-- The size of a kernel's image so far. -/
def AKern.extent (k : AKern) : Nat := match k.codes.getLast? with
  | some c => c.base + c.size
  | none => 0

def AKern.updCode (k : AKern) (f : ACode → ACode) : AKern := match k.codes.getLast? with
  | some c => { k with codes := k.codes.dropLast ++ [f c] }
  | none => k

/-- The offset of the next statement in its section (R35); 0 on a line outside any section (log 112, DESIGN CHOICE). -/
def AAsm.dot (a : AAsm) : Nat := match a.sec, a.kerns.getLast? with
  | .code, some k => (k.codes.getLast?.map fun c => c.size).getD 0
  | .const, some k => k.const.size
  | .scratch, some k => k.scratch.size
  | .data, _ => a.data.size
  | _, _ => 0

def AAsm.env (a : AAsm) (line : Nat) : AEnv where
  syms := a.syms
  pre := a.pre
  kern := if a.inKern then some a.kidx else none
  line := line
  ord := a.ord
  dot := a.dot
  all := false

/-- One name has one definition in a file (R27). -/
def AAsm.define (a : AAsm) (line : Nat) (n : String) (k : AKind) (v : Int) : AAsm :=
  if (a.syms.any fun y => y.name == n) || (a.pend.any fun y => y.1 == n) || !symbolOk n then a.fail line
  else { a with syms := a.syms ++ [{ name := n, kind := k, val := v, line := line, ord := a.ord }] }

/-- A data label ends the extent of the label before it in its section (R35). -/
def AAsm.closeLabel (a : AAsm) (k : AKind) (stop line : Nat) : AAsm :=
  { a with syms := a.syms.map fun y =>
      if y.kind == k && y.size.isNone then { y with size := some (stop - y.val.toNat, line, a.ord) } else y }

/-- The last kernel's extent, and its images with their last labels, are complete (R35). -/
def AAsm.closeLabels (a : AAsm) (line : Nat) : AAsm := match a.kerns.getLast? with
  | some k => ((a.closeLabel (.kernel a.kidx) k.extent line).closeLabel (.const a.kidx) k.const.size line).closeLabel
      (.scratch a.kidx) k.scratch.size line
  | none => a

/-- The kind of a data label of the open section. -/
def AAsm.dataKind (a : AAsm) : Option AKind := match a.sec with
  | .data => some .data
  | .const => some (.const a.kidx)
  | .scratch => some (.scratch a.kidx)
  | _ => none

def AAsm.label (a : AAsm) (line : Nat) (n : String) : AAsm := match a.dataKind with
  | some k => (a.closeLabel k a.dot line).define line n k a.dot
  | none =>
    if a.sec == .code then
      (if (a.syms.any fun y => y.name == n) || (a.pend.any fun y => y.1 == n) then a.fail line
       else { a with pend := a.pend ++ [(n, line)] })
    else a.fail line

/-! ### Code layout (R43) -/

def sumNat (l : List Nat) : Nat := l.foldl (· + ·) 0

/-- 64-bit `nop`s from an 8-aligned offset up to a multiple of n. -/
def nopsTo (n off : Nat) : List Nat := List.replicate ((n - off % n) % n / 8) 8

/-- The lengths of the `nop`s before an instruction of a length: steps 1 to 3. -/
def padsBefore (off len : Nat) : List Nat :=
  let p1 := if off % 8 = 4 && len ≠ 12 then [12] else []
  let o1 := off + sumNat p1
  let p2 := if len = 12 && o1 % 8 = 0 && 8 < o1 % 32 then nopsTo 32 o1 else []
  let o2 := o1 + sumNat p2
  let p3 := if 32 < o2 % 32 + len then nopsTo 32 o2 else []
  p1 ++ p2 ++ p3

/-- The lengths of the `nop`s that `.align n`, or the end of a section with n = 32, inserts. -/
def padsTo (n off : Nat) : List Nat :=
  let p1 := if off % 8 = 4 then [12] else []
  p1 ++ nopsTo n (off + sumNat p1)

/-- Items of padding after a section's end. -/
def ACode.pads (c : ACode) (line ord : Nat) (l : List Nat) : ACode := l.foldl (fun c n =>
  { c with size := c.size + n, items := { line := line, ord := ord, off := c.base + c.size, dot := 0, body := .pad n } :: c.items }) c

/-- Waiting code labels take an address of the image. -/
def AAsm.settle (a : AAsm) (addr : Nat) : AAsm :=
  a.pend.foldl (fun a x => a.define x.2 x.1 (.code a.kidx) addr) { a with pend := [] }

/-- The end of a code section: padding to a block, then the labels that no instruction followed. -/
def AAsm.closeCode (a : AAsm) (line : Nat) : AAsm :=
  if a.sec == .code then
    let a1 := a.updKern fun k => k.updCode fun c => c.pads line a.ord (padsTo 32 (c.base + c.size))
    let a2 := a1.settle ((a1.kerns.getLast?.map AKern.extent).getD 0)
    let full := match a2.kerns.getLast?.bind fun k => k.codes.getLast? with
      | some c => c.items.any fun i => match i.body with
        | .insn _ _ => true
        | _ => false
      | none => false
    if full then a2 else a2.fail line
  else a

/-! ### Relations (R40, R50) -/

/-- A left side: one V register, or a pair. -/
def relReg (ts : List ATok) : Option ((Nat × Bool) × List ATok) := match operand? ts with
  | some (.reg 'V' n, r) => some ((n, false), r)
  | some (.pair n, r) => some ((n, true), r)
  | _ => none

def foldTypes : List (String × Nat) := [("i32", 0), ("n32", 1), ("f32", 2), ("i64", 3), ("n64", 4)]

/-- One clause: `left` or `right` of a relation, or a clause word. -/
inductive AClause where
  | left (s : String)
  | right (s : String)
  | word (pair : Bool) (c : Clause)
  deriving DecidableEq, Repr

def clause? (ts : List ATok) : Option (AClause × List ATok) := match ts with
  | .ident "left" :: .op "=" :: .ident s :: r => some (.left s, r)
  | .ident "right" :: .op "=" :: .ident s :: r => some (.right s, r)
  | _ => (relReg ts).bind fun x =>
    let n := x.1.1
    let p := x.1.2
    let mk := fun (k a : Nat) => (⟨BitVec.ofNat 8 k, BitVec.ofNat 8 n, BitVec.ofNat 8 a⟩ : Clause)
    let proj := fun (k : Nat) (s : String) (r : List ATok) => match regName s with
      | some ('V', m) => if m < 256 && !p then some (AClause.word false (mk k m), r) else none
      | _ => none
    let fold := fun (k : Nat) (t : String) (r : List ATok) => (foldTypes.find? fun y => y.1 == t).bind fun y =>
      if p == decide (3 ≤ y.2) then some (AClause.word p (mk k y.2), r) else none
    if 256 ≤ n then none
    else match x.2 with
      | .op "=" :: .ident "L" :: .op "." :: .ident s :: r => proj 3 s r
      | .op "=" :: .ident "R" :: .op "." :: .ident s :: r => proj 4 s r
      | .op "=" :: .ident "add" :: .op "." :: .ident t :: r => fold 5 t r
      | .op "=" :: .ident "min" :: .op "." :: .ident t :: r => fold 6 t r
      | .op "=" :: .ident "max" :: .op "." :: .ident t :: r => fold 7 t r
      | .op "=" :: .ident "first" :: r => if p then none else some (.word false (mk 8 0), r)
      | .op "=" :: .ident "count" :: r => if p then none else some (.word false (mk 9 0), r)
      | _ => none

def clauses? : Nat → List ATok → Option (List AClause)
  | 0, _ => none
  | _ + 1, [] => some []
  | n + 1, .op "," :: r => (clause? r).bind fun x => (clauses? n x.2).map fun l => x.1 :: l
  | _ + 1, _ => none

def AClause.regs : AClause → List Nat
  | .left _ => []
  | .right _ => []
  | .word p c => if p then [c.vd.toNat, c.vd.toNat + 1] else [c.vd.toNat]

def AClause.isProj : AClause → Bool
  | .word _ c => c.kind == 3 || c.kind == 4
  | _ => false

def AClause.isWord : AClause → Bool
  | .word _ _ => true
  | _ => false

def distinctNats (l : List Nat) : Bool := l.eraseDups.length == l.length

/-- `.relation` (R40): the name and the relation, against the relations declared before it (log 104, DEDUCED). -/
def relation? (w : Nat) (old : List ARel) (ts : List ATok) : Option ARel := match ts with
  | .ident nm :: .op "," :: .ident "key" :: .op "=" :: r => (relReg r).bind fun x =>
    (clauses? (x.2.length + 1) x.2).bind fun cs =>
      let key := if x.1.2 then [x.1.1, x.1.1 + 1] else [x.1.1]
      let lefts := cs.filterMap fun c => match c with
        | .left s => some s
        | _ => none
      let rights := cs.filterMap fun c => match c with
        | .right s => some s
        | _ => none
      let idx := fun (s : String) => old.findIdx? fun q => q.name == s
      let li := lefts.head?.bind idx
      let ri := rights.head?.bind idx
      let join := !lefts.isEmpty
      let dests := cs.flatMap AClause.regs
      let projs := (cs.filter AClause.isProj).flatMap AClause.regs
      let srcs := cs.filterMap fun c => match c with
        | .word _ q => if q.kind == 3 || q.kind == 4 then some q.arg.toNat else none
        | _ => none
      let folds := (cs.filter fun c => c.isWord && !c.isProj).flatMap AClause.regs
      let ok := lefts.length ≤ 1 && rights.length == lefts.length && (!join || (li.isSome && ri.isSome)) &&
        (join || projs.isEmpty) && cs.length ≤ 16 && distinctNats dests && (!join || key.all projs.contains) &&
        !(folds.any key.contains) && (key ++ dests ++ srcs).all (· < w) && old.length < 8 && symbolOk nm
      let kw : Clause := ⟨if x.1.2 then 2 else 1, BitVec.ofNat 8 x.1.1, 0⟩
      let ws := cs.filterMap fun c => match c with
        | .word _ q => some q
        | _ => none
      if ok then some { name := nm, rel := { left := li, right := ri, clauses := kw :: ws } } else none
  | _ => none

/-! ### Directives (R38–R42) -/

def pow2 (n : Int) : Bool := 0 < n && 2 ^ n.toNat.log2 == n.toNat

/-- The depth of an input queue, as its log2 (R39). -/
def depthLog (v : Int) : Option Nat := if pow2 v && 16 ≤ v && v ≤ 1024 then some v.toNat.log2 else none

/-- A list of items between commas. -/
def itemList {α : Type} (p : List ATok → Option (α × List ATok)) : Nat → List ATok → Option (List α)
  | 0, _ => none
  | n + 1, ts => (p ts).bind fun x => match x.2 with
    | [] => some [x.1]
    | .op "," :: r => (itemList p n r).map fun l => x.1 :: l
    | _ => none

def word? (v : AEnv) (ts : List ATok) : Option (AWord × List ATok) := match ts with
  | .ident "dup" :: .op "(" :: r => (expr? r).bind fun c => match c.2 with
    | .op "," :: q => (expr? q).bind fun e => match e.2, v.now c.1 with
      | .op ")" :: t, some n => if 1 ≤ n && n ≤ 0x100000 then some (.dup n.toNat e.1, t) else none
      | _, _ => none
    | _ => none
  | _ => (expr? ts).map fun x => (.expr x.1, x.2)

def fltItem? (ts : List ATok) : Option (AWord × List ATok) := (fltop? ts).bind fun x => x.1.map fun w => (.flt w, x.2)

/-- The bound of a data section (Table 2-3). -/
def ASec.limit : ASec → Nat
  | .const => 131072
  | .scratch => 786432
  | _ => 0xFFFFFFFF

def AData.put (d : AData) (kern : Option Nat) (line ord : Nat) (n : Nat) (b : ABody) : AData :=
  { size := d.size + n, items := { kern := kern, line := line, ord := ord, off := d.size, dot := d.size, body := b } :: d.items }

/-- Data of n bytes in the open data section. -/
def AAsm.putData (a : AAsm) (line n : Nat) (b : ABody) : AAsm :=
  let k0 := if a.inKern then some a.kidx else none
  if a.sec.limit < a.dot + n then a.fail line
  else match a.sec with
    | .data => { a with data := a.data.put k0 line a.ord n b }
    | .const => a.updKern fun k => { k with const := k.const.put k0 line a.ord n b }
    | .scratch => a.updKern fun k => { k with scratch := k.scratch.put k0 line a.ord n b }
    | _ => a.fail line

/-- An expression that is all of a directive's operands, with its value. -/
def AAsm.oneExpr (a : AAsm) (line : Nat) (ts : List ATok) : Option Int := (expr? ts).bind fun x =>
  if x.2.isEmpty then (a.env line).now x.1 else none

/-- A section opens: an open code section ends first. -/
def AAsm.open (a : AAsm) (line : Nat) (s : ASec) : AAsm :=
  let a1 := a.closeCode line
  { (if a.inKern then a1.updKern fun k => { k with opened := true } else a1) with sec := s }

/-- A code section opens at the end of the image. -/
def AAsm.openCode (a : AAsm) (line : Nat) (cox fibre : Bool) (depth : Nat) : AAsm :=
  (a.open line .code).updKern fun k => { k with
    fibre := k.fibre || fibre
    codes := k.codes ++ [{ cox := cox, depth := depth, base := k.extent, size := 0, items := [] }] }

/-- `.endk` (R38). -/
def AAsm.endKern (a : AAsm) (line : Nat) : AAsm :=
  let a1 := a.closeCode line
  match a1.kern? with
  | none => a1.fail line
  | some k =>
    let lacks := [k.w.isSome, k.codes.any fun c => c.cox, k.codes.any fun c => !c.cox].filter fun b => !b
    let a2 := a1.failN line lacks.length
    { a2.closeLabels line with inKern := false, sec := if a2.sec == .data then .data else .none }

/-- A directive that is not a section of a kernel. -/
def AAsm.plainDir (a : AAsm) (line : Nat) (d : String) (ts : List ATok) : Option AAsm :=
  if d == "equ" then match ts with
    | .ident n :: .op "," :: r => (a.oneExpr line r).map fun v => a.define line n .equ v
    | _ => none
  else if d == "global" then match ts with
    | [.ident n] => some { a with globals := a.globals ++ [(n, line)] }
    | _ => none
  else if d == "align" then (a.oneExpr line ts).bind fun n =>
    if !pow2 n || 4096 < n then none
    else if a.sec == .code then
      (if n < 8 then none
       else some (a.updKern fun k => k.updCode fun c => c.pads line a.ord (padsTo n.toNat (c.base + c.size))))
    else if a.dataKind.isSome then
      let m := n.toNat
      let z := (m - a.dot % m) % m
      some (if z = 0 then a else a.putData line z (.pad z))
    else none
  else if d == "b32" then
    (if a.dataKind.isNone then none else (itemList (word? (a.env line)) (ts.length + 1) ts).map fun l =>
      a.putData line (4 * sumNat (l.map AWord.words)) (.words l))
  else if d == "f32" then
    (if a.dataKind.isNone then none else (itemList fltItem? (ts.length + 1) ts).map fun l => a.putData line (4 * l.length) (.words l))
  else if d == "data" then (if ts.isEmpty then some (a.open line .data) else none)
  else none

/-- A directive of a kernel. The names of kernels, stages and relations are symbols: they stand in the one namespace of the
file, and no two kernels declare a stage or a relation of the same name (log 112, DESIGN CHOICE). -/
def AAsm.kernDir (a : AAsm) (line : Nat) (d : String) (ts : List ATok) : Option AAsm :=
  if d == "kernel" then match ts with
    | [.ident n] =>
      if a.inKern then none
      else
        let a1 : AAsm := { a with kerns := a.kerns ++ [{ name := n, line := line }], inKern := true }
        some (a1.define line n (.kernel a1.kidx) 0)
    | _ => none
  else match a.kern? with
  | none => none
  | some k =>
    if d == "endk" then (if ts.isEmpty then some (a.endKern line) else none)
    else if d == "window" then
      (if k.w.isSome || k.opened then none else (a.oneExpr line ts).bind fun v =>
        if 8 ≤ v && v ≤ 256 && v % 8 = 0 then some (a.updKern fun k => { k with w := some v.toNat }) else none)
    else if d == "cox" then
      (if !ts.isEmpty || (k.codes.any fun c => c.cox) then none else some (a.openCode line true false 0))
    else if d == "fibre" then
      (if k.codes.any fun c => !c.cox then none
       else if ts.isEmpty then some (a.openCode line false true 4)
       else ((a.oneExpr line ts).bind depthLog).map fun n => a.openCode line false true n)
    else if d == "stage" then match ts with
      | .ident n :: .op "," :: r =>
        if k.fibre || 8 ≤ (k.codes.filter fun c => !c.cox).length then none
        else ((a.oneExpr line r).bind depthLog).map fun x => (a.openCode line false false x).define line n .stage 0
      | _ => none
    else if d == "relation" then (k.w.bind fun w => relation? w k.rels ts).map fun x =>
      (a.updKern fun k => { k with rels := k.rels ++ [x] }).define line x.name .relation 0
    else if d == "const" then (if ts.isEmpty then some (a.open line .const) else none)
    else if d == "scratch" then (if ts.isEmpty then some (a.open line .scratch) else none)
    else none

/-- The errors of an instruction that makes no word: one for each operand in error, else one (R37). -/
def AEnv.insnErrs (v : AEnv) (i : AInsn) : Nat := max 1 (i.ops.filter fun o => (v.opd o).isNone).length

/-- An instruction: padding, then the waiting labels, then the instruction (R43). -/
def AAsm.place (a : AAsm) (line : Nat) (i : AInsn) : AAsm := match a.kern?.bind fun k => k.codes.getLast? with
  | some c =>
    if a.sec != .code then a.fail line
    else match (((a.env line).insn c.cox i).bind fun x => encode x.1) with
      | none => (a.settle (c.base + c.size)).failN line ((a.env line).insnErrs i)
      | some bs =>
        let dot := c.size
        let c1 := c.pads line a.ord (padsBefore (c.base + c.size) bs.length)
        let at0 := c1.base + c1.size
        let it : AItem := { line := line, ord := a.ord, off := at0, dot := dot, body := .insn i bs.length }
        let c2 := { c1 with size := c1.size + bs.length, items := it :: c1.items }
        (a.updKern fun k => k.updCode fun _ => c2).settle at0
  | none => a.fail line

/-- One line. -/
def AAsm.stmt (a : AAsm) (line : Nat) (l : Option (Option String × AStmt)) : AAsm :=
  let a0 := { a with ord := a.ord + 1 }
  match l with
  | none => a0.fail line
  | some (lab, st) =>
    let a1 := match lab with
      | some n => a0.label line n
      | none => a0
    match st with
    | .none => a1
    | .insn i => a1.place line i
    | .dir d ts =>
      if d == "equ" && lab.isSome then a1.fail line
      else match a1.plainDir line d ts with
        | some r => r
        | none => (a1.kernDir line d ts).getD (a1.fail line)

/-! ### The order of layout (R44) -/

abbrev ALine : Type := Nat × Option (Option String × AStmt)

def dirOf (l : ALine) : String := match l.2 with
  | some (_, .dir d _) => d
  | _ => ""

def opensSection (d : String) : Bool := ["cox", "fibre", "stage", "data", "const", "scratch", "endk"].contains d

/-- The directive of a `.relation` line, without its label. -/
def ALine.relation? (l : ALine) : Option ALine := match l.2 with
  | some (_, .dir "relation" ts) => some (l.1, some (none, .dir "relation" ts))
  | _ => none

/-- A line without a `.relation`; its label stays. -/
def ALine.unrelated (l : ALine) : ALine := match l.2 with
  | some (lab, .dir "relation" _) => (l.1, some (lab, .none))
  | _ => l

/-- A kernel's lines with its cox section before the fibre-stream sections (R44). Its relations keep the order of their
declarations (R40, R50). -/
def coxFirst (ls : List ALine) : List ALine :=
  let pre := ls.takeWhile fun l => !(dirOf l == "fibre" || dirOf l == "stage" || dirOf l == "cox")
  let rest := ls.drop pre.length
  let before := rest.takeWhile fun l => dirOf l != "cox"
  match before, rest.drop before.length with
  | _ :: _, c :: r =>
    let body := r.takeWhile fun l => !opensSection (dirOf l)
    pre ++ (c :: body.map ALine.unrelated) ++ before ++ body.filterMap ALine.relation? ++ r.drop body.length
  | _, _ => ls

/-- The lines of a file in the order of layout: each kernel from `.kernel` to `.endk`. -/
def layoutOrder : Nat → List ALine → List ALine
  | 0, ls => ls
  | _ + 1, [] => []
  | n + 1, l :: r =>
    if dirOf l == "kernel" then
      let body := r.takeWhile fun x => dirOf x != "endk"
      l :: coxFirst body ++ layoutOrder n (r.drop body.length)
    else l :: layoutOrder n r

/-! ### Words and lookahead (R45, R46) -/

/-- A relocation: section kind by kernel, place, half and addend (R51). -/
structure AReloc where
  sec : AKind
  place : Nat
  hi : Bool
  addend : Int
  deriving DecidableEq, Repr

/-- An instruction of an image, checked. -/
structure APlaced where
  line : Nat
  off : Nat
  f : Fields
  names : List Named
  long : Bool
  cap : Option Nat
  rels : List (Bool × Int)
  deriving DecidableEq, Repr

def AKern.dctx (k : AKern) (cox : Bool) : DCtx where
  stream := if cox then .cox else .fibre
  priv := true
  w := k.w.getD 256
  extent := k.extent
  rels := (List.range k.rels.length).map (relInfoOf (k.rels.map ARel.rel))
  gbar := 0xF

/-- An item of a code section: the instruction passes every check of the decoder in its kernel (R31) (log 102, DEDUCED). -/
def AKern.item (k : AKern) (cox : Bool) (v : AEnv) (x : AItem) : Option APlaced := match x.body with
  | .pad n => some { line := x.line, off := x.off, f := Fields.ofWord (if n = 12 then 1 else 0) 0, names := [], long := false, cap := none, rels := [] }
  | .insn i len => (({ v with line := x.line, ord := x.ord, dot := x.dot } : AEnv).insn cox i).bind fun r =>
      (fieldsOf r.1).bind fun f => (encode r.1).bind fun bs => match decode (k.dctx cox) bs with
        | .ok (_, an, long) =>
          if bs.length = len && (r.2.isEmpty || (len = 12 && r.2.length = 1)) then
            some { line := x.line, off := x.off, f := f, names := allNames (k.dctx cox) an f, long := long, cap := i.cap, rels := r.2 }
          else none
        | .error _ => none
  | .words _ => none

/-- The largest n from 0 to 15 (R45). -/
def lookahead (names : List Named) (rest : List APlaced) : Nat :=
  ((rest.take 15).takeWhile fun q => !isBranch q.f && !(q.names.any names.contains)).length

/-- LA of every instruction of a section; none where a `.laN` is an error (R46). -/
def withLa : List APlaced → List (Nat × Option APlaced)
  | [] => []
  | p :: r =>
    let n := lookahead p.names r
    let set := fun (m : Nat) => (p.line, some { p with f := { p.f with la := BitVec.ofNat 4 m } })
    (if p.long then (match p.cap with
        | some c => if n < c then (p.line, none) else set c
        | none => set n)
      else if p.cap.isSome then (p.line, none) else set 0) :: withLa r

/-- What a section gives: bytes, relocations with their places, and the lines in error. -/
structure AOut where
  bytes : List Byte := []
  rels : List (Nat × Bool × Int) := []
  errs : List Nat := []
  deriving DecidableEq, Repr

def AOut.add (a b : AOut) : AOut := { bytes := a.bytes ++ b.bytes, rels := a.rels ++ b.rels, errs := a.errs ++ b.errs }

def APlaced.out (p : APlaced) : AOut :=
  { bytes := leBytes 8 p.f.base.toNat ++ leBytes (lenBytes p.f.len - 8) p.f.ext.toNat
    rels := p.rels.map fun r => (p.off + 8, r.1, r.2) }

def AKern.code (k : AKern) (v : AEnv) (c : ACode) : AOut :=
  let its := c.items.reverse.map fun x => (x.line, k.item c.cox v x)
  let bad := its.filterMap fun x => if x.2.isNone then some x.1 else none
  (withLa (its.filterMap fun x => x.2)).foldl (fun o x => o.add (match x.2 with
    | some p => p.out
    | none => { errs := [x.1] })) { errs := bad }

/-- A data word (R41). -/
def dataWord (v : AEnv) (place : Nat) (e : AExpr) : Option AOut := (v.imm e).bind fun x => match x.reloc with
  | some r => some { bytes := leBytes 4 0, rels := [(place, r.1, r.2)] }
  | none => (field32 x).map fun w => { bytes := leBytes 4 w.toNat }

def wordsOut (v : AEnv) (line : Nat) : Nat → List AWord → AOut
  | _, [] => {}
  | p, w :: r =>
    let bad : AOut := { errs := [line] }
    let rep := fun (n : Nat) (e : AExpr) => match dataWord v p e with
      | none => bad
      | some o =>
        { bytes := (List.replicate n o.bytes).flatten
          rels := (List.range n).flatMap fun i => o.rels.map fun (q : Nat × Bool × Int) => (q.1 + 4 * i, q.2) }
    let o := match w with
      | .expr e => rep 1 e
      | .flt x => { bytes := leBytes 4 x.toNat }
      | .dup n e => rep n e
    o.add (wordsOut v line (p + 4 * w.words) r)

def AData.out (d : AData) (v : AEnv) : AOut := d.items.reverse.foldl (fun o x => o.add (match x.body with
  | .pad n => { bytes := List.replicate n 0 }
  | .words l => wordsOut { v with kern := x.kern, line := x.line, ord := x.ord, dot := x.dot } x.line x.off l
  | .insn _ _ => { errs := [x.line] })) {}

/-! ### The kernel object (R47–R51) -/

/-- A section of the object: TYPE, KERN, log2 of its alignment, and its bytes (log 105, DESIGN CHOICE). -/
structure OSec where
  ty : Nat
  kern : Nat
  align : Nat
  key : AKind
  bytes : List Byte
  deriving DecidableEq, Repr

/-- Strings end with a zero byte; a name is its offset (log 105, DESIGN CHOICE). -/
def strBytes (s : String) : List Byte := (s.toList.map fun c => BitVec.ofNat 8 c.toNat) ++ [0]

def nameOff (names : List String) (s : String) : Nat :=
  sumNat ((names.takeWhile fun n => n != s).map fun n => n.length + 1)

/-- A relation's record (R50). -/
def relBytes (names : List String) (r : ARel) : List Byte :=
  let ref := fun (x : Option Nat) => leBytes 1 (x.getD 0xFF)
  leBytes 4 (nameOff names r.name) ++ ref r.rel.left ++ ref r.rel.right ++ leBytes 1 r.rel.clauses.length ++ [0] ++
    r.rel.clauses.flatMap fun c => leBytes 4 (c.kind.toNat * 0x1000000 + c.vd.toNat * 0x10000 + c.arg.toNat * 0x100)

/-- A kernel entry (R49). -/
def kernBytes (names : List String) (k : AKern) : List Byte :=
  let fs := k.codes.filter fun c => !c.cox
  let nst := if k.fibre then 0 else fs.length
  let entry := (List.range 8).flatMap fun i => leBytes 4 ((fs[i]?.map fun c => c.base).getD 0xFFFFFFFF)
  let depth := (List.range 8).flatMap fun i => leBytes 1 ((fs[i]?.map fun c => c.depth).getD 0)
  leBytes 4 (nameOff names k.name) ++ leBytes 2 (k.w.getD 0) ++ leBytes 1 nst ++ leBytes 1 k.rels.length ++
    leBytes 4 k.extent ++ leBytes 4 k.const.size ++ leBytes 4 k.scratch.size ++ entry ++ depth ++ leBytes 4 0

/-- An object's parts before they are laid out. -/
structure AObj where
  secs : List OSec
  rels : List AReloc
  kerns : List (List Byte)
  syms : List (List Byte)
  names : List String

/-- The sections of a file, with their relocations and the lines in error. -/
def AAsm.sections (a : AAsm) : List (OSec × AOut) :=
  let v : AEnv := { syms := a.syms, pre := a.pre, kern := none, line := 0, ord := 0, dot := 0, all := true }
  let some? : OSec → AOut → List (OSec × AOut) := fun s o => if o.bytes.isEmpty && o.errs.isEmpty then [] else
    [({ s with bytes := o.bytes }, o)]
  let ks := (List.range a.kerns.length).flatMap fun i => match a.kerns[i]? with
    | none => []
    | some k =>
      let vk := { v with kern := some i }
      let code := k.codes.foldl (fun o c => o.add (k.code vk c)) {}
      some? { ty := 1, kern := i, align := 5, key := .code i, bytes := [] } code ++
      some? { ty := 3, kern := i, align := 4, key := .const i, bytes := [] } (k.const.out vk) ++
      some? { ty := 4, kern := i, align := 4, key := .scratch i, bytes := [] } (k.scratch.out vk)
  ks ++ some? { ty := 2, kern := 0xFFFF, align := 12, key := .data, bytes := [] } (a.data.out v)

/-- A symbol entry (R51): only a kernel or a `.data` label is exported (R38). -/
def symBytes (names : List String) (y : ASym) : Option (List Byte) :=
  let entry := fun (kind v : Nat) => leBytes 4 (nameOff names y.name) ++ leBytes 1 kind ++ leBytes 3 0 ++ leBytes 8 v
  match y.kind with
  | .kernel k => some (entry 1 k)
  | .data => some (entry 2 y.val.toNat)
  | _ => none

/-- A relocation entry (R51). -/
def relocBytes (sect : Nat) (r : Nat × Bool × Int) : List Byte :=
  leBytes 2 sect ++ leBytes 1 (if r.2.1 then 2 else 1) ++ leBytes 1 0 ++ leBytes 4 r.1 ++ leBytes 8 (pat64 r.2.2)

/-- The offsets of sections laid out one after the other on multiples of 16. -/
def secOffs : Nat → List OSec → List Nat
  | _, [] => []
  | o, s :: r => o :: secOffs ((o + s.bytes.length + 15) / 16 * 16) r

/-- The object's bytes: the header, the three tables, then the sections (log 105, DESIGN CHOICE). -/
def objBytes (kerns syms : List (List Byte)) (secs : List OSec) : List Byte :=
  let so := 32
  let ko := so + 16 * secs.length
  let yo := ko + 64 * kerns.length
  let offs := secOffs (yo + 16 * syms.length) secs
  let hdr := fun (x : OSec × Nat) => leBytes 1 x.1.ty ++ [0] ++ leBytes 2 x.1.kern ++ leBytes 4 x.1.bytes.length ++
    leBytes 4 x.2 ++ leBytes 1 x.1.align ++ leBytes 3 0
  let body := (secs.zip offs).foldl (fun (o : List Byte) x => o ++ List.replicate (x.2 - o.length) 0 ++ x.1.bytes)
    (leBytes 4 0x314F4B4E ++ leBytes 2 1 ++ leBytes 2 secs.length ++ leBytes 4 so ++ leBytes 4 kerns.length ++ leBytes 4 ko ++
     leBytes 4 syms.length ++ leBytes 4 yo ++ leBytes 4 0 ++ (secs.zip offs).flatMap hdr ++ kerns.flatten ++ syms.flatten)
  body

/-- A file after its last line, with the symbols that an earlier pass gave: every line in order of layout, and the end of the
file. -/
def asmPass (pre : List ASym) (ls : List ALine) : AAsm :=
  let a : AAsm := (layoutOrder (ls.length + 1) ls).foldl (fun (a : AAsm) (l : ALine) => a.stmt l.1 l.2) { pre := pre }
  let stop := ls.length
  let a1 := if a.inKern then (a.fail stop).closeLabels stop else a
  a1.closeLabel .data a1.data.size stop

/-- Passes until the symbols stand: a line of a cox section that is laid out before earlier lines of its kernel takes from the
pass before what those lines define (R33, R36). -/
def asmPasses : Nat → List ALine → AAsm → AAsm
  | 0, ls, _ => asmPass [] ls
  | n + 1, ls, a =>
    let b := asmPass a.syms ls
    if b.syms == a.syms then b else asmPasses n ls b

/-- A file laid out. Where the order of layout is the order of the lines one pass gives every earlier symbol (log 101,
DEDUCED). -/
def asmRun (ls : List ALine) : AAsm :=
  let a := asmPass [] ls
  if ((layoutOrder (ls.length + 1) ls).map fun l => l.1) == ls.map fun l => l.1 then a else asmPasses 16 ls a

/-- The lines of a file, numbered from 1, and whether the last one has its end. -/
def asmLines (text : String) : List ALine × Bool :=
  let r := splitLines [] text.toList
  ((List.range r.1.length).zip (r.1.map parseLine) |>.map fun x => (x.1 + 1, x.2), r.2)

/-- The lines in error of a file laid out, each as often as it has errors. -/
def AAsm.allErrs (a : AAsm) (xs : List (OSec × AOut)) (exports : List (Nat × Option (List Byte))) : List Nat :=
  a.errs ++ (xs.flatMap fun x => x.2.errs) ++ exports.filterMap fun e => if e.2.isNone then some e.1 else none

/-- The assembler: an object, or every error with its file and line (R37). The names of the object's kernels and relations
stand among its strings whether they are exported or not, because their records hold a NAME (R49, R50) (log 105,
DESIGN CHOICE). A name that `.global` names on two lines has two entries (log 112, DESIGN CHOICE). -/
def assemble (file text : String) : Except (List (String × Nat)) (List Byte) :=
  let ls := asmLines text
  let a := asmRun ls.1
  let xs := a.sections
  let names := (a.kerns.flatMap fun k => k.name :: k.rels.map ARel.name) ++ a.globals.map fun g => g.1
  let exports := a.globals.map fun g => (g.2, (a.syms.find? fun y => y.name == g.1).bind (symBytes names))
  let errs := a.allErrs xs exports ++ (if ls.2 then [] else [ls.1.length])
  if errs.isEmpty then
    let rels := (List.range xs.length).flatMap fun i => match xs[i]? with
      | some x => x.2.rels.flatMap (relocBytes i)
      | none => []
    let tabs := (List.range a.kerns.length).flatMap fun i => match a.kerns[i]? with
      | some k => if k.rels.isEmpty then [] else
          [({ ty := 5, kern := i, align := 2, key := .relation, bytes := k.rels.flatMap (relBytes names) } : OSec)]
      | none => []
    let whole := fun (ty : Nat) (b : List Byte) => if b.isEmpty then [] else
      [({ ty := ty, kern := 0xFFFF, align := 3, key := .equ, bytes := b } : OSec)]
    .ok (objBytes (a.kerns.map (kernBytes names)) (exports.filterMap fun e => e.2)
      (xs.map (fun x => x.1) ++ tabs ++ whole 6 rels ++ whole 7 (names.flatMap strBytes)))
  else .error (errs.map fun n => (file, n))

/-! ### The loader (R52) -/

/-- A section header read back (R48). -/
structure LSec where
  ty : Nat
  kern : Nat
  bytes : List Byte
  deriving DecidableEq, Repr

def secOf (obj : List Byte) (o : Nat) : LSec where
  ty := fieldAt obj o 1
  kern := fieldAt obj (o + 2) 2
  bytes := (obj.drop (fieldAt obj (o + 8) 4)).take (fieldAt obj (o + 4) 4)

/-- A word written at a place of a section. -/
def patchWord (x : List Byte) (place v : Nat) : List Byte := x.take place ++ leBytes 4 v ++ x.drop (place + 4)

/-- One relocation (R51, R52). -/
def relocate (base : Nat) (secs : List LSec) (r : List Byte) : List LSec :=
  let v := (base + fieldAt r 8 8) % 2 ^ 64
  let w := if fieldAt r 2 1 = 1 then v % 2 ^ 32 else v / 2 ^ 32
  let i := fieldAt r 0 2
  match secs[i]? with
  | some s => secs.set i { s with bytes := patchWord s.bytes (fieldAt r 4 4) w }
  | none => secs

/-- A kernel of a loaded object: its entry and its images. -/
structure LKern where
  entry : List Byte
  code : List Byte
  const : List Byte
  scratch : List Byte
  rels : List Byte
  deriving DecidableEq, Repr

structure Loaded where
  data : List Byte
  kerns : List LKern
  deriving DecidableEq, Repr

/-- Loading an object with its global data at a base. An object with another magic number, another version or a reserved
section TYPE is rejected (R47, R48). -/
def loadObj (obj : List Byte) (base : Nat) : Option Loaded :=
  let n := fieldAt obj 6 2
  let secs := (List.range n).map fun i => secOf obj (fieldAt obj 8 4 + 16 * i)
  if fieldAt obj 0 4 ≠ 0x314F4B4E || fieldAt obj 4 2 ≠ 1 || base % 4096 ≠ 0 || (secs.any fun s => s.ty = 0 || 7 < s.ty) then none
  else
    let rl := (secs.filter fun s => s.ty == 6).flatMap fun s => (List.range (s.bytes.length / 16)).map fun i => (s.bytes.drop (16 * i)).take 16
    let done := rl.foldl (relocate base) secs
    let pick := fun (ty k : Nat) => ((done.find? fun s => s.ty == ty && s.kern == k).map fun s => s.bytes).getD []
    some { data := pick 2 0xFFFF
           kerns := (List.range (fieldAt obj 12 4)).map fun k =>
             { entry := (obj.drop (fieldAt obj 16 4 + 64 * k)).take 64
               code := pick 1 k, const := pick 3 k, scratch := pick 4 k, rels := pick 5 k } }

/-- What a kernel record takes from outside the object (R115): where the images, the arguments and DONE stand, the grid and
the launch. -/
structure LArgs where
  code : Nat
  reltab : Nat
  const : Nat
  scratch : Nat
  args : Nat
  done : Nat
  nfib : Nat
  gx : Nat
  gy : Nat
  gz : Nat
  curve : Nat
  clusz : Nat
  narg : Nat
  gbar : Nat
  deriving DecidableEq, Repr

/-- The kernel record that a loader builds from a kernel entry (R115). CSIZE and SSIZE are rounded up to a multiple of 16,
as Table 6-1 needs them (log 105, DESIGN CHOICE). -/
def LKern.record (k : LKern) (x : LArgs) : List Byte :=
  let r16 := fun (n : Nat) => (n + 15) / 16 * 16
  leBytes 8 x.code ++ leBytes 8 x.reltab ++ leBytes 8 x.const ++ leBytes 8 x.scratch ++ leBytes 8 x.args ++ leBytes 8 x.done ++
  (k.entry.drop 8).take 4 ++ leBytes 4 (r16 (fieldAt k.entry 12 4)) ++ leBytes 4 (r16 (fieldAt k.entry 16 4)) ++
  leBytes 4 x.nfib ++ leBytes 4 x.gx ++ leBytes 4 x.gy ++ leBytes 2 x.gz ++ (k.entry.drop 4).take 2 ++ (k.entry.drop 6).take 2 ++
  leBytes 1 x.curve ++ leBytes 1 x.clusz ++ leBytes 1 x.narg ++ leBytes 1 x.gbar ++ (k.entry.drop 52).take 8 ++ leBytes 6 0 ++
  (k.entry.drop 20).take 32

end Sys2Proof.Machine
end

