-- ==== Sys2Proof/Machine/Mesh.lean ====
section
/-! DEFINITION. The bridges between the compute dies and the fixed route of traffic over them (R8). What crosses a bridge is
not ordered by it: the turns that perform an access say when it arrives. -/

namespace Sys2Proof.Machine

open Sys2Proof

/-- A die-to-die bridge joins dies whose numbers differ in one bit of two (R8). -/
def bridged (a b : Nat) : Bool := a < 4 && b < 4 && (a ^^^ b == 1 || a ^^^ b == 2)

/-- The dies that traffic from C-die a to C-die b visits after a: first across in bit 0, then in bit 1 (R8). -/
def meshRoute (a b : Nat) : List Nat :=
  let c := if a % 2 = b % 2 then a else a ^^^ 1
  (if c = a then [] else [c]) ++ (if c = b then [] else [b])

/-- The dies after a on the route that takes the other intermediate die: first across in bit 1, then in bit 0 (R420). -/
def otherRoute (a b : Nat) : List Nat :=
  let c := if a / 2 = b / 2 then a else a ^^^ 2
  (if c = a then [] else [c]) ++ (if c = b then [] else [b])

/-- The route of traffic between two dies in service: the fixed one, or the other while that passes through a die out of service
(R8, R420). -/
def State.routeOf (s : State) (a b : Nat) : List Nat :=
  if (meshRoute a b).dropLast.all fun d => s.dieUp d then meshRoute a b else otherRoute a b

/-- Whether traffic from C-die a to C-die b passes through a die on its way. -/
def passesDie (a b d : Nat) : Bool := (meshRoute a b).dropLast.contains d

/-- The bridges of a route, in order. -/
def meshBridges (a b : Nat) : List (Nat × Nat) := (a :: meshRoute a b).zip (meshRoute a b)

end Sys2Proof.Machine
end

