-- ==== Sys2Proof/Machine/Ordering.lean ====
section
/-! DEFINITION. The memory model of the device as relations over the events of an execution, and the axioms that an allowed
execution satisfies (R292–R310). The machine's turns perform one execution; these definitions say which are allowed. -/

namespace Sys2Proof.Machine

open Sys2Proof

/-! ### Events and parties -/

/-- A party of an execution (R292). -/
inductive MParty where
  | fibre (core slot fid : Nat)
  | cox (core slot : Nat)
  | engine (core id : Nat)
  | eddy (die id : Nat)
  | collective (id : Nat)
  | remote (id : Nat)
  deriving DecidableEq, Repr

/-- The core that a fibre or a cox thread runs on. -/
def MParty.thread : MParty → Option Nat
  | .fibre c _ _ => some c
  | .cox c _ => some c
  | _ => none

/-- The core that a party lies on. -/
def MParty.core : MParty → Option Nat
  | .fibre c _ _ => some c
  | .cox c _ => some c
  | .engine c _ => some c
  | _ => none

/-- The instance of a scope that a party lies in (R296, Table 14-2): a core, a cluster, a compute die, the device, the pod. -/
def MParty.inst (p : MParty) : Scope → Option Nat
  | .core => p.core
  | .clu => p.core.map (· / 8)
  | .die => match p with
    | .eddy d _ => some d
    | _ => p.core.map (· / 32)
  | .dev => match p with
    | .remote _ => none
    | _ => some 0
  | .sys => some 0

/-- A party lies in another's instance of a scope (R296). -/
def MParty.within (a b : MParty) (s : Scope) : Bool := match a.inst s, b.inst s with
  | some x, some y => x == y
  | _, _ => false

/-- A release of one party and an acquire of another include each other (R297). -/
def bothIn (s t : Scope) (a b : MParty) : Bool := b.within a s && a.within b t

inductive MFence where | rel | acq | sc | ack | eng
  deriving DecidableEq, Repr

/-- The kinds of events (R292); `point` is a release or acquire point that accesses no memory itself (Table 14-3). -/
inductive MKind where
  | read
  | write
  | rmw
  | fence (f : MFence)
  | point
  deriving DecidableEq, Repr

/-- A byte of memory: a space (0 is global memory, others are the spaces of a core) and an address. -/
abbrev MByte := Nat × Nat

/-- What pairs a release with an acquire by its source, each with a number of its own (Table 14-3). -/
inductive MSource where
  /-- A phase of a barrier: each arrival releases, each party's release acquires (R185). -/
  | phase (lvl : Level) (id : Nat)
  /-- A rejoin or fold: each arrival releases, each resumption and each spawned fibre acquires (R188). -/
  | members (id : Nat)
  /-- A token: its `dq.push` releases, its pop acquires (R204). -/
  | token (id : Nat)
  /-- An entry of a stage queue: its push releases, the start of its fibre acquires (R204). -/
  | entry (id : Nat)
  /-- A command message: its landing releases, `hrecv` acquires (R204). -/
  | message (id : Nat)
  /-- A launch: `launch` releases, every access of the kernel acquires (R119). -/
  | kernel (id : Nat)
  /-- A launch's completion record: its write releases, `launch.wait` acquires (R116). -/
  | record (id : Nat)
  /-- A copy: its last write releases, the first read of its token acquires (R282). -/
  | copy (id : Nat)
  deriving DecidableEq, Repr

/-- What an event does to a source of Table 14-3, or to an engine command (R301): a push of one of the command's entries, the
command's first access with its `.acq`, the end of its last write with its `.rel`, the pop of its result or the read of its
token. -/
inductive MPoint where
  | gives (src : MSource) (s : Scope)
  | takes (src : MSource) (s : Scope)
  | pushes (cmd : Nat)
  | starts (cmd : Nat) (acq : Option Scope)
  | stops (cmd : Nat) (rel : Option Scope)
  | pops (cmd : Nat)
  deriving DecidableEq, Repr

/-- The place of an engine command's access in the order that its chapter gives (R294): a copy's read or write of a sector (R280); a
step of a row, of the quantiser its reads, elements and scales (R356), of a dispatch its sectors and then SVEC (R410); a sector of a
collective's block or share (R408); a read or write of an amplitude in a phase of an Eddy command, a swap or what follows it
(R385). -/
inductive MPlace where
  | copyRead (k : Nat)
  | copyWrite (k : Nat)
  | row (i step : Nat)
  | share (i k : Nat)
  | amp (phase j : Nat) (write : Bool)
  deriving DecidableEq, Repr

/-- Whether a place comes before another of the same command. -/
def MPlace.before : MPlace → MPlace → Bool
  | .copyRead j, .copyRead k => j < k
  | .copyWrite j, .copyWrite k => j < k
  | .copyRead j, .copyWrite k => j ≤ k
  | .row i a, .row j b => i < j || (i == j && a < b)
  | .share i a, .share j b => i == j && a < b
  | .amp p i w, .amp q j v => p < q || (p == q && i == j && !w && v)
  | _, _ => false

/-- An event (R292). `rel` and `acq` are its scopes as a release and as an acquire that pair through memory (R300), `points` what
it does by the other rows of Table 14-3; `place` is an engine command's; `issue` numbers the instruction that made it and `lane` its lane there, none for an
event that is its instruction's only one; `unit` is the sector of a copy that it writes, and the copy's number (R308); `deps`
are the earlier reads of its party on whose values its address, data, guard or control path depends (R309). -/
structure MEvent where
  party : MParty
  kind : MKind
  bytes : List MByte := []
  got : List Byte := []
  put : List Byte := []
  rel : Option Scope := none
  acq : Option Scope := none
  points : List MPoint := []
  place : Option MPlace := none
  issue : Option Nat := none
  lane : Nat := 0
  unit : Option (Nat × Nat) := none
  deps : List Nat := []
  deriving DecidableEq, Repr

/-- An execution: its events, those of one party in program order; from which write each byte of a read comes, none for the
initial value; the coherence order of each byte; and the initial values that are not zero. -/
structure MExec where
  events : List MEvent
  rf : List (Nat × MByte × Option Nat) := []
  co : List (MByte × List Nat) := []
  init : List (MByte × Byte) := []
  deriving DecidableEq, Repr

def MEvent.reads (e : MEvent) : Bool := e.kind == .read || e.kind == .rmw
def MEvent.writes (e : MEvent) : Bool := e.kind == .write || e.kind == .rmw

/-- The value that an event reads or writes at a byte. -/
def MEvent.at_ (e : MEvent) (vs : List Byte) (b : MByte) : Option Byte :=
  ((e.bytes.zip vs).find? fun x => x.1 == b).map (·.2)

def MExec.ev (x : MExec) (i : Nat) : MEvent := (x.events[i]?).getD { party := .remote 0, kind := .point }
def MExec.ids (x : MExec) : List Nat := List.range x.events.length

/-- The writes of a byte in coherence order. -/
def MExec.coOf (x : MExec) (b : MByte) : List Nat := ((x.co.find? fun c => c.1 == b).map (·.2)).getD []

/-- The write from which a read takes a byte; none inside is the initial value. -/
def MExec.source (x : MExec) (r : Nat) (b : MByte) : Option (Option Nat) :=
  (x.rf.find? fun f => f.1 == r && f.2.1 == b).map (·.2.2)

def MExec.initAt (x : MExec) (b : MByte) : Byte := ((x.init.find? fun i => i.1 == b).map (·.2)).getD 0

/-- The scope of a source's points (Table 14-3, Table 8-1); a copy's is `.core`, or its SCOPE under `.rel`. -/
def MSource.scopeOk (s : Scope) : MSource → Bool
  | .phase .blk _ => s == .core
  | .phase .clu _ => s == .clu
  | .phase .grid _ => s == .dev
  | .members _ => s == .core
  | .token _ => s == .core
  | .entry _ => s == .core
  | .message _ => s == .sys
  | .kernel _ => s == .sys
  | .record _ => s == .sys
  | .copy _ => true

def MPoint.scopeOk : MPoint → Bool
  | .gives src s => src.scopeOk s
  | .takes src s => src.scopeOk s
  | _ => true

/-- Two accesses of one party in the order that R294 asks for: ascending addresses within one instruction, and within an engine
command the order that its chapter gives. The reads of an instruction that also writes keep the order of its chapter (R286). -/
def MExec.inTurn (x : MExec) (a b : Nat) : Bool :=
  let e := x.ev a
  let f := x.ev b
  let up := match e.bytes.head?, f.bytes.head? with
    | some p, some q => p.1 < q.1 || (p.1 == q.1 && p.2 ≤ q.2)
    | _, _ => true
  let pooled := x.events.any fun g => g.party == e.party && g.issue == e.issue && g.writes
  (e.issue.isNone || e.issue != f.issue || e.party.thread.isNone || e.writes != f.writes || (!e.writes && pooled) || up) &&
  (match e.unit, f.unit with
    | some (c, j), some (d, k) => c != d || j ≤ k
    | _, _ => true) &&
  (match e.place, f.place with
    | some p, some q => !q.before p
    | _, _ => true)

/-- The events of one party stand in its order (R294), the points have the scopes of Table 14-3, each read byte has one source with
its value, and the coherence order of a byte lists its writes once each. -/
def MExec.sound (x : MExec) : Bool :=
  x.events.all (fun e => e.points.all MPoint.scopeOk) &&
  (x.ids.all fun b => (List.range b).all fun a => (x.ev a).party != (x.ev b).party || x.inTurn a b) &&
  x.ids.all fun i =>
    let e := x.ev i
    (!e.reads || e.bytes.all fun b => match x.source i b with
      | none => false
      | some none => e.at_ e.got b == some (x.initAt b)
      | some (some w) => (x.ev w).writes && (x.ev w).at_ (x.ev w).put b == e.at_ e.got b && (e.at_ e.got b).isSome) &&
    (!e.writes || e.bytes.all fun b => (x.coOf b).filter (· == i) == [i]) &&
    x.co.all fun c => c.2.all fun w => (x.ev w).writes && (x.ev w).bytes.contains c.1

/-! ### Relations (R294, Table 14-1) -/

/-- A relation over the events, as its edges. -/
abbrev MRel := List (Nat × Nat)

def MExec.rel (x : MExec) (f : Nat → Nat → Bool) : MRel :=
  x.ids.flatMap fun a => (x.ids.filter fun b => f a b).map fun b => (a, b)

def MRel.comp (r q : MRel) : MRel := r.flatMap fun e => (q.filter fun f => f.1 == e.2).map fun f => (e.1, f.2)

def MRel.join (r q : MRel) : MRel := r ++ q.filter fun e => !r.contains e

/-- The transitive closure, by at most n doublings. -/
def MRel.plus : Nat → MRel → MRel
  | 0, r => r
  | n + 1, r => MRel.plus n (MRel.join r (distinct (MRel.comp r r)))

/-- Whether a relation has no cycle: events without a predecessor that is left are taken away until none is left. -/
def MRel.peel (r : MRel) : Nat → List Nat → List Nat
  | 0, l => l
  | n + 1, l => MRel.peel r n (l.filter fun b => l.any fun a => r.contains (a, b))
def MExec.acyclic (x : MExec) (r : MRel) : Bool := (MRel.peel r x.events.length x.ids).isEmpty

def MExec.po (x : MExec) : MRel := x.rel fun a b => a < b && (x.ev a).party == (x.ev b).party

def MEvent.meets (e f : MEvent) : Bool := e.bytes.any f.bytes.contains

def MExec.poLoc (x : MExec) : MRel := x.po.filter fun e => (x.ev e.1).meets (x.ev e.2)

def MExec.rfr (x : MExec) : MRel := distinct (x.rf.filterMap fun f => f.2.2.map fun w => (w, f.1))

/-- The pairs of a list in its order. -/
def inOrder : List Nat → MRel
  | [] => []
  | a :: l => l.map (fun b => (a, b)) ++ inOrder l

def MExec.cor (x : MExec) : MRel := distinct (x.co.flatMap fun c => inOrder c.2)

/-- The writes of a byte that come after a source in its coherence order. -/
def MExec.afterSrc (x : MExec) (b : MByte) : Option Nat → List Nat
  | none => x.coOf b
  | some w => ((x.coOf b).dropWhile fun y => y != w).drop 1

/-- fr: a read, and a write other than itself that comes after its source (log 100, DEDUCED). -/
def MExec.fr (x : MExec) : MRel :=
  distinct (x.rf.flatMap fun f => ((x.afterSrc f.2.1 f.2.2).filter fun w => w != f.1).map fun w => (f.1, w))

def MExec.comms (x : MExec) : MRel := MRel.join (MRel.join x.rfr x.cor) x.fr
def MExec.eco (x : MExec) : MRel := MRel.plus x.events.length x.comms

/-- ack: a write or U of a party, and a later `fence.ack` of it. -/
def MExec.ack (x : MExec) : MRel := x.po.filter fun e => (x.ev e.1).writes && (x.ev e.2).kind == .fence .ack

/-! ### The order of a core (R298) -/

/-- An event that accesses memory. -/
def MEvent.accesses (e : MEvent) : Bool := e.reads || e.writes

/-- ppo, over the accesses of memory: po without a write followed by a read of other bytes, unless the read is that of a U or an
acquire, or a `fence.sc` or a `fence.ack` lies between. A fence has no place of its own there, so that no other fence keeps such
a pair (log 100, DEDUCED). -/
def MExec.ppo (x : MExec) : MRel := x.po.filter fun e =>
  let a := x.ev e.1
  let b := x.ev e.2
  let between := x.ids.any fun f => e.1 < f && f < e.2 && (x.ev f).party == a.party &&
    ((x.ev f).kind == .fence .sc || (x.ev f).kind == .fence .ack)
  a.accesses && b.accesses && (!(a.kind == .write && b.kind == .read && !a.meets b) || b.acq.isSome || between)

/-- The writes of one issue stand together in the core's order: one of them, the lowest, stands for all. -/
def MExec.lead (x : MExec) (i : Nat) : Nat :=
  let e := x.ev i
  if !e.writes || e.issue.isNone then i
  else (x.ids.find? fun j => (x.ev j).writes && (x.ev j).issue == e.issue && (x.ev j).party.thread == e.party.thread).getD i

/-- core-tso of a core (R298). -/
def MExec.coreTso (x : MExec) (core : Nat) : MRel :=
  let on := fun (e : Nat × Nat) => (x.ev e.1).party.thread == some core && (x.ev e.2).party.thread == some core
  let rfe := x.rfr.filter fun e => (x.ev e.1).party != (x.ev e.2).party
  (MRel.join (MRel.join x.ppo rfe) (MRel.join x.cor x.fr)).filter on

/-- The core's order exists: core-tso has no cycle when the writes of one issue are taken together, and among these it
follows the lanes. -/
def MExec.coreOk (x : MExec) (core : Nat) : Bool :=
  let r := x.coreTso core
  let same := fun (e : Nat × Nat) => x.lead e.1 == x.lead e.2
  let up := fun (e : Nat × Nat) => (x.ev e.1).lane < (x.ev e.2).lane || ((x.ev e.1).lane == (x.ev e.2).lane && e.1 < e.2)
  x.acyclic ((r.filter fun e => !same e).map fun e => (x.lead e.1, x.lead e.2)) && (r.filter same).all up

/-! ### Synchronisation (R299–R301) -/

/-- A write and the U events that read from its release sequence (R300). -/
def MExec.relSeq (x : MExec) : Nat → List Nat → List Nat
  | 0, l => l
  | n + 1, l => x.relSeq n (l ++ x.ids.filter fun u => !l.contains u && (x.ev u).kind == .rmw && x.rfr.any fun e => l.contains e.1 && e.2 == u)

/-- A release that orders through a write: a release write, or a fence before the write in po. -/
def MExec.relWrites (x : MExec) (a : Nat) : List Nat := match (x.ev a).kind with
  | .fence f => if f == .rel || f == .sc || f == .ack then
      (x.po.filter fun e => e.1 == a && (x.ev e.2).writes).map (·.2) else []
  | _ => if (x.ev a).writes && (x.ev a).rel.isSome then [a] else []

/-- An acquire that orders through a read: an acquire read, or a fence after the read in po. -/
def MExec.acqReads (x : MExec) (b : Nat) : List Nat := match (x.ev b).kind with
  | .fence f => if f == .acq || f == .sc then (x.po.filter fun e => e.2 == b && (x.ev e.1).reads).map (·.1) else []
  | _ => if (x.ev b).reads && (x.ev b).acq.isSome then [b] else []

/-- The scopes of a release and an acquire allow them to pair (R297). -/
def MExec.mayPair (x : MExec) (a b : Nat) : Bool := match (x.ev a).rel, (x.ev b).acq with
  | some s, some t => bothIn s t (x.ev a).party (x.ev b).party
  | _, _ => false

/-- A release and an acquire that the same source of Table 14-3 matches, under R297. -/
def MExec.bySource (x : MExec) (a b : Nat) : Bool := (x.ev a).points.any fun p => (x.ev b).points.any fun q => match p, q with
  | .gives u s, .takes v t => u == v && bothIn s t (x.ev a).party (x.ev b).party
  | _, _ => false

/-- `.acq` of a command (R301): a party's push of its own last entry, and the command's first access. -/
def MExec.byAcq (x : MExec) (a b : Nat) : Bool := (x.ev b).points.any fun q => match q with
  | .starts c (some s) => (x.ev a).points.contains (.pushes c) && bothIn s s (x.ev a).party (x.ev b).party &&
      !(x.po.any fun e => e.1 == a && (x.ev e.2).points.contains (.pushes c))
  | _ => false

/-- Whether a party does something with a command before an event of its own, in po. -/
def MExec.poBefore (x : MExec) (b : Nat) (p : MPoint) : Bool := x.po.any fun e => e.2 == b && (x.ev e.1).points.contains p

/-- `.rel` of a command, and `fence.eng` (R301): the end of a command, and a fence after the pop of its result, or a `fence.eng` of
a party that pushed an entry of it, as if it carried `.rel` at the fence's scope. -/
def MExec.byRel (x : MExec) (a b : Nat) : Bool := (x.ev a).points.any fun p => match p, (x.ev b).kind, (x.ev b).acq with
  | .stops c rel, .fence f, some t =>
    let flag := match rel with
      | some s => (f == .acq || f == .sc || f == .eng) && x.poBefore b (.pops c) && bothIn s t (x.ev a).party (x.ev b).party
      | none => false
    flag || (f == .eng && x.poBefore b (.pushes c) && bothIn t t (x.ev a).party (x.ev b).party)
  | _, _, _ => false

/-- sw: through memory, by the sources of Table 14-3, and by the flags of engine commands (R300, R301). -/
def MExec.sw (x : MExec) : MRel :=
  let n := x.events.length
  let thru := fun (a b : Nat) => (x.relWrites a).any fun w => (x.acqReads b).any fun d =>
    x.rfr.any fun e => e.2 == d && (x.relSeq n [w]).contains e.1
  x.rel fun a b => a != b && ((x.mayPair a b && thru a b) || x.bySource a b || x.byAcq a b || x.byRel a b)

def MExec.hb (x : MExec) : MRel := MRel.plus x.events.length (MRel.join x.po x.sw)

/-! ### Axioms (R293, R302–R309) -/

/-- R293: of an indivisible write that a read overlaps, the read takes every byte that they share, or none; a byte
overwritten since counts as taken (log 100, DEDUCED). -/
def MExec.single (x : MExec) : Bool := x.ids.all fun r => x.ids.all fun w =>
  let shared := (x.ev r).bytes.filter (x.ev w).bytes.contains
  let seen := fun (b : MByte) => match x.source r b with
    | some (some y) => y == w || (x.afterSrc b (some w)).contains y
    | _ => false
  !((x.ev r).reads && (x.ev w).writes && r != w) || shared.all seen || shared.all fun b => !seen b

/-- COHERENCE (R302), for each byte. -/
def MExec.coherence (x : MExec) : Bool := (distinct (x.events.flatMap (·.bytes))).all fun b =>
  let at_ := fun (e : Nat × Nat) => (x.ev e.1).bytes.contains b && (x.ev e.2).bytes.contains b
  let rf := x.rf.filterMap fun f => if f.2.1 == b then f.2.2.map fun w => (w, f.1) else none
  let fr := x.rf.flatMap fun f => if f.2.1 == b then ((x.afterSrc b f.2.2).filter fun w => w != f.1).map fun w => (f.1, w) else []
  x.acyclic (MRel.join (MRel.join (x.po.filter at_) rf) (MRel.join (inOrder (x.coOf b)) fr))

/-- ATOMICITY (R303): no write of a U's bytes comes between the write that it reads and its own. -/
def MExec.atomicity (x : MExec) : Bool := x.ids.all fun u => (x.ev u).kind != .rmw || (x.ev u).bytes.all fun b =>
  match x.source u b with
  | none => false
  | some src => (x.afterSrc b src).head? == some u

/-- CORE-TSO (R304), for each core. -/
def MExec.coreTsoOk (x : MExec) : Bool := (distinct (x.events.filterMap fun e => e.party.thread)).all x.coreOk

/-- CAUSALITY (R305). -/
def MExec.causality (x : MExec) : Bool :=
  let eco := x.eco
  x.hb.all fun e => !eco.contains (e.2, e.1)

/-- Whether an event is an acquire of `.clu` scope or wider. The start of a launched kernel's accesses is none: it orders them after
the launch alone, as the catalogue's plain loads show (log 100, DEDUCED). -/
def MEvent.wideAcq (e : MEvent) : Bool := (e.acq.toList ++ e.points.filterMap fun p => match p with
  | .takes (.kernel _) _ => none
  | .takes _ s => some s
  | _ => none).any wide

/-- The reads that a `fence.ack` orders (R306): that of a U, and one that is, or follows, an acquire of `.clu` scope or wider
after the fence. -/
def MExec.ackReads (x : MExec) (f r : Nat) : Bool :=
  let e := x.ev r
  e.reads && (e.kind == .rmw || x.ids.any fun a => f < a && (a == r || a < r) && (x.ev a).party == e.party &&
    (x.ev a).wideAcq)

/-- ACK (R306). -/
def MExec.ackOk (x : MExec) : Bool :=
  let toH := x.ack.flatMap fun e => (x.po.filter fun g => g.1 == e.2 && x.ackReads e.2 g.2).map fun g => (e.1, g.2)
  x.acyclic (MRel.join toH x.comms)

/-- SC-FENCE (R307). -/
def MExec.scFence (x : MExec) : Bool :=
  let hb := x.hb
  let thru := MRel.comp (MRel.comp hb x.eco) hb
  let sc := fun (i : Nat) => (x.ev i).kind == .fence .sc
  x.acyclic (x.rel fun a b => a != b && sc a && sc b &&
    (match (x.ev a).rel, (x.ev b).rel with
      | some s, some t => bothIn s t (x.ev a).party (x.ev b).party
      | _, _ => false) && (hb.contains (a, b) || thru.contains (a, b)))

/-- SECTOR (R308): what is read after a sector of a copy is not older than the copy's lower sectors. -/
def MExec.sector (x : MExec) : Bool := x.rf.all fun f => match f.2.2 with
  | none => true
  | some w => match (x.ev w).unit with
    | none => true
    | some (c, k) =>
      let r := x.ev f.1
      let eng := (x.ev w).party
      let wide' := match r.acq with
        | some s => eng.within r.party s
        | none => false
      let near := r.party.core.isSome && r.party.core == eng.core
      !(wide' || near) || x.po.all fun p => p.1 != f.1 || x.ids.all fun v => match (x.ev v).unit with
        | none => true
        | some (d, j) => !(d == c && j < k) || (x.ev v).bytes.all fun b =>
          !((x.ev p.2).reads && (x.ev p.2).bytes.contains b) || (match x.source p.2 b with
            | some (some y) => y == v || (x.afterSrc b (some v)).contains y
            | _ => false)

/-- NO-THIN-AIR (R309). -/
def MExec.noThinAir (x : MExec) : Bool :=
  let dep := x.rel fun a b => a < b && (x.ev b).deps.contains a && (x.ev a).reads && (x.ev a).party == (x.ev b).party
  x.acyclic (MRel.join dep x.rfr)

/-- An execution whose rf and co make every axiom hold (R310). -/
def MExec.ok (x : MExec) : Bool :=
  x.sound && x.single && x.coherence && x.atomicity && x.coreTsoOk && x.causality && x.ackOk && x.scFence && x.sector && x.noThinAir

/-- Events, with what they read, are allowed when some rf and co make the axioms hold together (R310). -/
def MAllowed (events : List MEvent) (init : List (MByte × Byte)) : Prop := ∃ rf co, (MExec.mk events rf co init).ok = true

/-! ### The points of Table 14-3 -/

/-- The scope at which a push to a queue register releases: to a stage queue `.core`, to an engine or the host none (R204). -/
def pushRel : Binding → Option Scope
  | .stage _ => some .core
  | _ => none

/-- How a fibre starts: with its block, from a rejoin or fold, or from an entry of a stage queue. -/
inductive MBirth where
  | block
  | members (id : Nat)
  | entry (id : Nat)
  deriving DecidableEq, Repr

/-- The acquire with which a fibre starts (R188, R204). -/
def MBirth.point : MBirth → Option MPoint
  | .block => none
  | .members n => some (.takes (.members n) .core)
  | .entry n => some (.takes (.entry n) .core)

/-- The acquire that every access of a launched kernel makes (R119). -/
def kernelPoint (launch : Nat) : MPoint := .takes (.kernel launch) .sys

/-- The release of a command message's landing, and the acquire of its `hrecv` (R204). -/
def landingPoint (msg : Nat) : MPoint := .gives (.message msg) .sys
def hrecvPoint (msg : Nat) : MPoint := .takes (.message msg) .sys

/-- The completion record's write: a release at `.sys`, that `launch.wait` takes, and an acquire read of the record (R116). -/
def recordWrite (p : MParty) (launch : Nat) (bytes : List MByte) (put : List Byte) : MEvent :=
  { party := p, kind := .write, bytes := bytes, put := put, rel := some .sys, points := [.gives (.record launch) .sys] }
def waitPoint (launch : Nat) : MPoint := .takes (.record launch) .sys

/-- A copy's last write, and the first read of its token: `.core`, or SCOPE under `.rel` (R282). -/
def copyEndPoints (cmd : Nat) (rel : Option Scope) : List MPoint := [.gives (.copy cmd) (rel.getD .core), .stops cmd rel]
def tokenPoints (cmd : Nat) (rel : Option Scope) : List MPoint := [.takes (.copy cmd) (rel.getD .core), .pops cmd]

def ordRel (o : Ord) : Option Scope := if o.rel then some o.scope else none
def ordAcq (o : Ord) : Option Scope := if o.acq then some o.scope else none
def unlessRlx (rlx : Bool) (sc : Scope) : Option Scope := if rlx then none else some sc

/-- The scope at which a party releases by an instruction (R291, R299, R301). Of a push to a queue register the binding decides,
and of an engine's command its flags: with `.acq` the issue is the push that releases. -/
def instrRel : Instr → Option Scope
  | .st _ rel _ _ _ _ => rel
  | .stTag _ rel _ _ _ _ _ => rel
  | .embsw _ sc _ _ _ => some sc
  | .atomAdd _ a => ordRel a.o
  | .atomMin _ a => ordRel a.o
  | .atomMax _ a => ordRel a.o
  | .atomAnd _ a => ordRel a.o
  | .atomOr _ a => ordRel a.o
  | .atomXor _ a => ordRel a.o
  | .atomExch _ a => ordRel a.o
  | .atomCas _ a => ordRel a.o
  | .atomAddF32 _ a => ordRel a.o
  | .atomMinF32 _ a => ordRel a.o
  | .atomMaxF32 _ a => ordRel a.o
  | .mredAdd _ _ o _ _ _ => ordRel o
  | .mredMin _ _ o _ _ _ => ordRel o
  | .mredMax _ _ o _ _ _ => ordRel o
  | .mredAnd _ _ o _ _ _ => ordRel o
  | .mredOr _ _ o _ _ _ => ordRel o
  | .mredXor _ _ o _ _ _ => ordRel o
  | .mredAddF32 _ o _ _ _ => ordRel o
  | .mredMinF32 _ _ o _ _ _ => ordRel o
  | .mredMaxF32 _ _ o _ _ _ => ordRel o
  | .fenceRel _ sc => some sc
  | .fenceSc _ sc => some sc
  | .fenceAck _ => some .sys
  | .barSync _ rlx _ _ _ => unlessRlx rlx .core
  | .barArrive _ rlx _ _ _ => unlessRlx rlx .core
  | .cbarSync _ rlx _ _ _ => unlessRlx rlx .clu
  | .cbarArrive _ rlx _ _ _ => unlessRlx rlx .clu
  | .gbarSync _ rlx _ _ _ => unlessRlx rlx .dev
  | .gbarArrive _ rlx _ _ _ => unlessRlx rlx .dev
  | .rjoin _ _ _ => some .core
  | .rfold _ _ => some .core
  | .dqPush _ _ => some .core
  | .launch _ _ _ _ _ => some .sys
  | .cpa _ o _ _ _ _ => ordAcq o
  | .cpaReg _ o _ _ _ _ _ => ordAcq o
  | .edgate _ o _ _ _ _ _ => ordAcq o
  | .edmeas _ o _ _ _ => ordAcq o
  | .ednorm _ o _ _ => ordAcq o
  | .collRed _ o _ _ => ordAcq o
  | .collRs _ o _ _ => ordAcq o
  | .collAg _ o _ _ => ordAcq o
  | .collBc _ o _ _ => ordAcq o
  | .xdisp _ o _ _ => ordAcq o
  | .xfix _ o _ _ => ordAcq o
  | _ => none

/-- The scope at which a party acquires by an instruction (R299, R301). -/
def instrAcq : Instr → Option Scope
  | .ld _ acq _ _ _ _ => acq
  | .atomAdd _ a => ordAcq a.o
  | .atomMin _ a => ordAcq a.o
  | .atomMax _ a => ordAcq a.o
  | .atomAnd _ a => ordAcq a.o
  | .atomOr _ a => ordAcq a.o
  | .atomXor _ a => ordAcq a.o
  | .atomExch _ a => ordAcq a.o
  | .atomCas _ a => ordAcq a.o
  | .atomAddF32 _ a => ordAcq a.o
  | .atomMinF32 _ a => ordAcq a.o
  | .atomMaxF32 _ a => ordAcq a.o
  | .fenceAcq _ sc => some sc
  | .fenceSc _ sc => some sc
  | .fenceEng _ sc => some sc
  | .edsync _ sc _ => some sc
  | .barSync _ rlx _ _ _ => unlessRlx rlx .core
  | .barWait _ rlx _ _ _ => unlessRlx rlx .core
  | .cbarSync _ rlx _ _ _ => unlessRlx rlx .clu
  | .cbarWait _ rlx _ _ _ => unlessRlx rlx .clu
  | .gbarSync _ rlx _ _ _ => unlessRlx rlx .dev
  | .gbarWait _ rlx _ _ _ => unlessRlx rlx .dev
  | .rjoin _ _ _ => some .core
  | .rfold _ _ => some .core
  | .dqPop _ _ _ => some .core
  | .dqPopf _ _ _ => some .core
  | .hrecv _ _ _ _ => some .sys
  | .launch _ wait _ _ _ => if wait then some .sys else none
  | _ => none

/-! ### The events of an instruction (R292) -/

/-- What kinds the events of an instruction are (Table 13-9, Table 14-3, Table 19-6, R373). `embpool` reads and then writes; a form
that also reads a descriptor or a record does so as a plain load (R117, R380, R404, R409). -/
def instrKinds : Instr → List MKind
  | .ld _ _ _ _ _ _ => [.read]
  | .ldc _ _ _ _ _ => [.read]
  | .gth _ _ => [.read]
  | .gthx _ _ => [.read]
  | .hld _ _ _ _ _ => [.read]
  | .mvWt _ _ => [.read]
  | .zld _ _ _ _ => [.read]
  | .mma _ _ => [.read]
  | .cbrest _ _ _ => [.read]
  | .edmapInit _ _ _ _ => [.read]
  | .launch _ _ _ _ _ => [.read, .point]
  | .collRed _ _ _ _ => [.read, .point]
  | .collRs _ _ _ _ => [.read, .point]
  | .collAg _ _ _ _ => [.read, .point]
  | .collBc _ _ _ _ => [.read, .point]
  | .xdisp _ _ _ _ => [.read, .point]
  | .xfix _ _ _ _ => [.read, .point]
  | .st _ _ _ _ _ _ => [.write]
  | .stTag _ _ _ _ _ _ _ => [.write]
  | .sct _ _ => [.write]
  | .sctx _ _ => [.write]
  | .cst _ _ _ _ _ _ _ => [.write]
  | .hst _ _ _ _ _ => [.write]
  | .zst _ _ _ _ => [.write]
  | .zq _ _ _ _ _ => [.write]
  | .cbsave _ _ _ => [.write]
  | .embpool _ _ _ _ _ _ => [.read, .write]
  | .embsw _ _ _ _ _ => [.rmw]
  | .atomAdd _ _ => [.rmw]
  | .atomMin _ _ => [.rmw]
  | .atomMax _ _ => [.rmw]
  | .atomAnd _ _ => [.rmw]
  | .atomOr _ _ => [.rmw]
  | .atomXor _ _ => [.rmw]
  | .atomExch _ _ => [.rmw]
  | .atomCas _ _ => [.rmw]
  | .atomAddF32 _ _ => [.rmw]
  | .atomMinF32 _ _ => [.rmw]
  | .atomMaxF32 _ _ => [.rmw]
  | .mredAdd _ _ _ _ _ _ => [.rmw]
  | .mredMin _ _ _ _ _ _ => [.rmw]
  | .mredMax _ _ _ _ _ _ => [.rmw]
  | .mredAnd _ _ _ _ _ _ => [.rmw]
  | .mredOr _ _ _ _ _ _ => [.rmw]
  | .mredXor _ _ _ _ _ _ => [.rmw]
  | .mredAddF32 _ _ _ _ _ => [.rmw]
  | .mredMinF32 _ _ _ _ _ _ => [.rmw]
  | .mredMaxF32 _ _ _ _ _ _ => [.rmw]
  | .fenceRel _ _ => [.fence .rel]
  | .fenceAcq _ _ => [.fence .acq]
  | .fenceSc _ _ => [.fence .sc]
  | .fenceAck _ => [.fence .ack]
  | .fenceEng _ _ => [.fence .eng]
  | i => if (instrRel i).isSome || (instrAcq i).isSome then [.point] else []

/-- One access of one lane: its number, its fibre, the bytes, and what it reads or writes. -/
structure MLane where
  lane : Nat
  fid : Nat
  kind : MKind
  bytes : List MByte
  got : List Byte := []
  put : List Byte := []
  deriving DecidableEq, Repr

/-- The lanes of an atomic or `mred` as the aggregator sends them: one for each distinct address, the lowest lane's, which reads
what that lane receives and writes what the last one leaves (R76, R289, R292). -/
def aggregate : List MLane → List MLane
  | [] => []
  | l :: r =>
    let same := r.filter fun m => m.bytes == l.bytes
    let last := (same.getLast?).getD l
    { l with put := last.put } :: (aggregate r).filter fun m => m.bytes != l.bytes

/-- The events that an issue of an instruction in the fibre stream makes: one for each lane's access, of that lane's fibre, in
lane order; of an atomic or `mred` one U for each distinct address (R292). -/
def fibreEvents (i : Instr) (core slot issue : Nat) (ls : List MLane) : List MEvent :=
  let plain := fun (l : MLane) => (instrKinds i).contains .point && l.kind != .point
  (if instrKinds i == [.rmw] then aggregate ls else ls).map fun l =>
    { party := .fibre core slot l.fid, kind := l.kind, bytes := l.bytes, got := l.got, put := l.put
      rel := if l.kind == .read then none else instrRel i, acq := if l.kind == .write || plain l then none else instrAcq i
      issue := some issue, lane := l.lane }

/-- The events of a cox thread's instruction. -/
def coxEvents (i : Instr) (core slot issue : Nat) (ls : List MLane) : List MEvent :=
  (fibreEvents i core slot issue ls).map fun e => { e with party := .cox core slot }

end Sys2Proof.Machine
end

