-- ==== Sys2Proof/Tests/Slice0.lean ====
section
/-! SUPPORT. The model's own tests: ill-formed terms that the checks refuse, words written out from the encoding tables,
single steps with the results that the spec's examples give, and states that meet the hypotheses of the statements. -/

namespace Sys2Proof.Tests

-- One theorem after another: side by side they fill the memory.
set_option Elab.async false

open Sys2Proof Sys2Proof.Machine Sys2Proof.Claims

/-! ### Small states -/

/-- A demo record: one block of four fibres, with 4,096 bytes of scratchpad and constant space. -/
def demoKernel : KRec := { oneKernel with ssize := 4096, csize := 4096, nfib := 4 }

/-- Fibre i of the demo block: V0 = i, V1 = 0, a scratchpad pointer in V2 and V3, a pointer to line 0x10000 in V4 and V5,
3, 0 in V6 and V7, a pointer to the last 8 bytes of the scratchpad in V8 and V9, and the handle of a tile at 0x10000 in V10
and V11. -/
def demoFibre (i : Nat) : Fibre :=
  { fid := i, life := .ready, stage := 0, part := 0, col := i, fslot := i, pc := 0, origin := some 0
    regs := [BitVec.ofNat 32 i, 0, 0x10, 0x10000000, 0x10040, 0, 3, 0, 0xFF8, 0x10000000, 0x1000, 0x00100000] ++
      List.replicate 244 0 }

def demoPart : Part := { id := 0, part := 0, stage := 0, origin := 0, lanes := [(0, 0), (1, 1), (2, 2), (3, 3)] }

/-- The cox thread: S2 is a scratchpad pointer, S4 one to 0x10040, S6 is 3, and the others are 0. -/
def demoCoxThread : Cox := { s := [0, 0, 0x1000000000000010, 0, 0x10040, 0, 3] ++ List.replicate 57 0 }

def demoBlock : Block :=
  { oneBlock with kr := demoKernel, fibres := (List.range 4).map demoFibre, parts := [demoPart], nextFid := 4, cox := demoCoxThread }

def demoTlb : Tlb := { ctx := 0, va := 0x10000, sh := 12, pa := 0x10000, leaf := 0x1000F }

/-- A running device in stage 2 with block b on core 0, and a thread that issues. -/
def device (b : Block) (th : Thread) : State :=
  { State.reset with
    stage := .stage2
    blocks := [b]
    ctxs := { st := .running, priv := true } :: List.replicate 63 {}
    cores := { becalmed := false, tlb := [demoTlb] } :: List.replicate 127 {}
    launches := [{ ctx := 0, num := 1, kr := b.kr, args := [], st := .active, next := 1 }]
    groups := [{ id := 0, ctx := 0, launch := 1 }]
    cur := { core := 0, slot := 0, th := th } }

/-- The demo device, issuing in the fibre stream. -/
def demo : State := device demoBlock (.part 0)
/-- The demo device, issuing in the cox stream. -/
def demoCox : State := device demoBlock .cox

/-- Register r of fibre i, and S register r, after an instruction. -/
def vAfter (s : State) (i : Instr) (fid r : Nat) : Option W32 := match exec i s with
  | .next t => (t.myFib fid).map fun f => f.reg r
  | _ => none
def sAfter (s : State) (i : Instr) (r : Nat) : Option W64 := match exec i s with
  | .next t => t.myCox.map fun c => c.reg r
  | _ => none
/-- The state after an instruction. -/
def after (s : State) (i : Instr) : State := match exec i s with
  | .next t => t
  | _ => s

/-- The demo states are sound: their registers, parts and memories have their shape. -/
theorem witness_demo_sound : demo.memsOk && demo.shapeOk && demo.placesOk && demoCox.shapeOk = true := by decide +kernel

theorem witness_issuing : Issuing demo demoBlock demoPart := ⟨by decide +kernel, rfl, by decide +kernel⟩
theorem witness_cox_issuing : CoxIssuing demoCox demoBlock := ⟨by decide +kernel, rfl⟩
theorem witness_runs : Runs demo demoBlock ∧ Runs demoCox demoBlock :=
  ⟨⟨by decide +kernel, .inr ⟨demoPart, rfl, by decide +kernel⟩, by decide +kernel⟩, ⟨by decide +kernel, .inl rfl, by decide +kernel⟩⟩

/-! ### The tables of the statements have entries -/

theorem witness_integer_tables :
    (arithmetic (.div {} { ty := .i32, d := 0, a := 1, b := .reg 2 })).isSome ∧
    (arithmetic (.add {} { ty := .i64, sat := true, d := 0, a := 2, b := .imm8 0xFF })).isSome ∧
    (bitwise (.bfi {} { ty := .n32, d := 0, a := 1, b := 2, c := .reg 3 })).isSome ∧
    (selection (.setp {} .ge { ty := .n64, d := 1, a := 2, b := .reg 4 })).isSome :=
  ⟨rfl, rfl, rfl, rfl⟩

theorem witness_branch_tables :
    (branches (.brx {} 0 3 0x40)).isSome ∧ (votes (.braAny {} 1 0x40)).isSome ∧ (votes (.braAll {} 1 0x40)).isSome :=
  ⟨rfl, rfl, rfl⟩

theorem witness_branch_splits : demoPart.serial = false ∧ 32 ≤ demo.freeRecords demo.cur.core demoPart.part ∧
    (demoBlock.parts.filter fun q => q.origin == demoPart.origin).length = 1 ∧ demoPart.lanes.length ≤ 8 := by
  decide +kernel

theorem witness_float_tables :
    (fp32 (.fmaF32 {} { rnd := .rne, d := 0, a := 1, b := .reg 2 } (.reg 3))).isSome ∧
    (fp16 (.addF16 {} { ty := .bf16, rnd := .rz, d := 0, a := 1, b := 2 })).isSome ∧
    (complex (.cfmaC64 {} { rnd := .rne, d := 0, a := 2, b := 4 } 6)).isSome :=
  ⟨rfl, rfl, rfl⟩

theorem witness_no_trap_mode : noTrapMode demo {} := by unfold noTrapMode; decide +kernel

theorem witness_encodings : (0x7F7FFFFF < 2 ^ (1 + Fmt.f32.ew + Fmt.f32.fw) ∧ (Fmt.f32.decode 0x7F7FFFFF).nonFinite = false) ∧
    (0x7E < 2 ^ (1 + Fmt.e4m3fmt.ew + Fmt.e4m3fmt.fw) ∧ (Fmt.e4m3fmt.decode 0x7E).nonFinite = false) := by
  decide +kernel

theorem test_decode_ones : Fmt.f32.decode 0x3F800000 = .fin false 8388608 (-23) ∧
    Fmt.f32.decode 0xBF800000 = .fin true 8388608 (-23) ∧ Fmt.f32.decode 0 = .fin false 0 (-149) := by
  decide +kernel

theorem real_one : real (Fmt.f32.decode 0x3F800000) = 1 := by
  rw [test_decode_ones.1]; simp only [real]; norm_num
theorem real_minus_one : real (Fmt.f32.decode 0xBF800000) = -1 := by
  rw [test_decode_ones.2.1]; simp only [real]; norm_num
theorem real_zero : real (Fmt.f32.decode 0) = 0 := by
  rw [test_decode_ones.2.2]; simp [real]

theorem finite_ones : finiteIn .f32 0x3F800000 ∧ finiteIn .f32 0xBF800000 ∧ finiteIn .f32 0 := by
  unfold finiteIn; decide +kernel

/-- Operands for each clause of the arithmetic and root statements. -/
theorem witness_arithmetic : arithFmt .f32 ∧
    (let A := real (Fmt.f32.decode 0x3F800000)
     let M := real (Fmt.f32.decode 0xBF800000)
     let Z := real (Fmt.f32.decode 0)
     A + A ≠ 0 ∧ A - M ≠ 0 ∧ A * A ≠ 0 ∧ A * A + A ≠ 0 ∧ A * Z = 0 ∧ (A + M = 0 ∧ A ≠ 0) ∧
     0 < A ∧ (Z = 0 ∧ A ≠ 0) ∧ M < 0) := by
  refine ⟨.inl rfl, ?_⟩
  simp only [real_one, real_minus_one, real_zero]
  norm_num

theorem witness_mx : ∃ v ∈ [0x3F800000], real (Fmt.f32.decode v) ≠ 0 :=
  ⟨_, List.mem_singleton.mpr rfl, by rw [real_one]; norm_num⟩

theorem witness_rounding : arithFmt .f16 ∧ arithFmt .bf16 ∧ (1 : Nat) ≠ 0 := ⟨.inr (.inl rfl), .inr (.inr rfl), by decide⟩

theorem witness_lane_tables :
    (shuffles (.shflXor {} true 0 2 (.imm 31))).isSome ∧ (quads (.qbc {} false 0 1 3)).isSome ∧
    (reductions (.scanx {} .maxN 0 1)).isSome ∧ (polls (.confFirst {} true 1 2)).isSome :=
  ⟨rfl, rfl, rfl, rfl⟩

/-- `mv` at offset 0: 16 outputs of 16 inputs with biases. -/
theorem witness_mv : ∀ x ∈ demo.act {}, mvInside x.2
    { bf16 := false, bias := true, relu := true, rnd := .rne, d := 16, a := 32, b := 1, m1 := 15, k1 := 15 } := by
  unfold mvInside; decide +kernel

/-! ### Memory: states that meet the hypotheses, one for each clause -/

theorem reaches_of {s : State} {h : Hd} {b : Block} {sp : View → List Nat} {ptr : View → W64} {disp : View → Int} {n : Nat}
    {w : Bool} {loc : Who → Loc} (va : Option Nat)
    (c : ∀ x ∈ s.views h, s.chk b x.2.1 (sp x.2.2) (ptr x.2.2) (disp x.2.2) n w = .ok (loc x.2.1) va) :
    Reaches s h b sp ptr disp n w loc := fun x hx => ⟨va, c x hx⟩

theorem witness_load_scratch : (loads (.ld {} none .b64 10 2 (.d8 8))).isSome ∧
    Reaches demo {} demoBlock syncSpaces (fun v => v.r64 2) (fun _ => signed (.d8 8)) (loadBytes .b64) false fun _ => .scratch 24 :=
  ⟨rfl, reaches_of none (by decide +kernel)⟩

theorem witness_load_cox : Reaches demoCox {} demoBlock syncSpaces (fun v => v.r64 4) (fun _ => signed (.d8 0)) (loadBytes .b32)
    false fun _ => .glob 0x10040 := reaches_of (some 0x10040) (by decide +kernel)

theorem witness_gather : (loads (.gth {} { cls := .keep, sz := .b32, r := 10, a := 4, disp := .d8 0 })).isSome ∧
    Reaches demo {} demoBlock (fun _ => [0, 1]) (fun v => v.r64 4) (fun _ => signed (.d8 0)) (loadBytes .b32) false
      fun _ => .glob 0x10040 := ⟨rfl, reaches_of (some 0x10040) (by decide +kernel)⟩

theorem witness_store : (stores (.stTag {} none .b32 10 8 6 (.d8 4))).isSome ∧
    Reaches demo {} demoBlock syncSpaces (fun v => v.r64 8) (fun _ => signed (.d8 4)) (storeBytes .b32) true fun _ => .scratch 0xFFC :=
  ⟨rfl, reaches_of none (by decide +kernel)⟩

/-- A lane's first store to a private piece, and a global one. -/
theorem witness_requests :
    (mkReqs demoBlock [(.fib 0, .priv 0 64 none, [1, 2]), (.fib 1, .glob 0x1007F, [3])] []).length = 2 := by decide +kernel

theorem witness_atomic : (atoms (.atomCas {} { ty := .n32, o := { acq := true, scope := .dev }, d := 10, a := 4, b := 6, disp := .d8 0 })).isSome ∧
    Reaches demo {} demoBlock (fun _ => [0, 1]) (fun v => v.r64 4) (fun _ => signed (.d8 0)) (atomBytes .n32) true
      (fun _ => .glob 0x10040) ∧
    (demo.views {}).Pairwise (fun x y => x.2.1 ≠ y.2.1) ∧ demo.views {} ≠ [] :=
  ⟨rfl, reaches_of (some 0x10040) (by decide +kernel), by decide +kernel, by decide +kernel⟩

/-- Four tables that map page 0x5000 of context 0 to 0x10000, and nothing else. -/
def pagedMem : Mem :=
  (((Mem.write [] 0x20000 (leBytes 8 0x21001)).write 0x21000 (leBytes 8 0x22001)).write 0x22000 (leBytes 8 0x23001)).write
    0x23028 (leBytes 8 0x1000F)
def paged : State :=
  { demo with
    mem := pagedMem
    ctxs := { st := .running, priv := true, root := some 0x20000 } :: List.replicate 63 {}
    cores := { becalmed := false } :: List.replicate 127 {} }

theorem witness_walk : paged.walkFrom 0x5000 3 0x20000 = some ⟨12, 0x10000, 0x1000F⟩ ∧
    paged.walk 0 0x5000 = some ⟨12, 0x10000, 0x1000F⟩ ∧ (0x1000F : W64).getLsbD 6 = false ∧ paged.walk 0 0x6000 = none ∧
    (paged.core 0).tlb.find? (·.hits 0 0x5000) = none ∧ (paged.cdie (coreDie 0)).dtc.find? (·.hits 0 0x5000) = none ∧
    0 < paged.cores.length := by
  decide +kernel

/-- A load of fibre 1 whose data has come; one that is still to be performed; and a lane of a gather. -/
def loadPend : Pend := { issue := 7, lane := 1, core := 0, slot := 0, who := .fib 1, dst := 10, pc := 0
                         kind := .load (.glob 0x10040) .i8 none none false, data := some [0xFF] }
def gatherPend : Pend := { loadPend with kind := .load (.glob 0x10040) .b32 none (some .normal) true, data := none }
def waiting (p : Pend) : State := { demo with pends := [p] }
theorem witness_load_return : (∀ p ∈ [loadPend, { loadPend with data := none }, gatherPend], Pending (waiting p) p ∧
      (waiting p).block? p.core p.slot = some demoBlock) ∧ loadPend.gather = false ∧
    (∀ p ∈ [{ loadPend with data := none }, gatherPend], p.data = none ∧ let s := waiting p
      p.core < s.cores.length ∧ (∀ q ∈ s.pends, q.core = p.core → q.slot = p.slot → q.who = p.who → p.issue ≤ q.issue) ∧
      (s.core p.core).paths = [] ∧ (s.core p.core).outb = [] ∧ (s.core p.core).coll = [] ∧ (s.core p.core).l1 = [] ∧
      s.lineHeld demoBlock.ctx 0x10040 = false ∧ s.bad 0x10040 4 = false) ∧ isMg 0x10040 = false ∧ gatherPend.joined = false := by
  unfold Pending; decide +kernel

theorem witness_read : isMg 0x10040 = false ∧ (demo.core 0).paths = [] ∧ (demo.core 0).coll = [] ∧ (demo.core 0).outb = [] ∧
    (demo.core 0).l1 = [] := by decide +kernel

/-- A write request with a tag register of fibre 0, and an atomic, on their way to their home slices. -/
def homeWrite : Outb := { issue := 7, slot := 0, path := 0, parties := [.fib 0], pc := 0
                          req := { loc := .glob 0x10000, writes := [(.fib 0, 0x10040, 0xAB)], tags := [(.fib 0, 9)] } }
def homeAtom : Outb := { issue := 7, slot := 0, path := 0, parties := [.fib 0], pc := 0
                         req := { loc := .glob 0x10044
                                  atomic := some { op := .add, ty := .n32, ret := true, acq := some .dev
                                                   lanes := [{ who := .fib 0, lane := 0, dst := 9, b := 5, c := 0 }] } } }
def homeState (o : Outb) : State :=
  { device { demoBlock with fibres := [{ demoFibre 0 with sb := [(9, 7)] }], parts := [] } .none with
    cores := { becalmed := false, outb := [o], l1 := [(0x10040 / 16, 0)] } :: List.replicate 127 {} }

theorem witness_home_write : let s := homeState homeWrite
    s.memsOk = true ∧ (s.core 0).outb[0]? = some homeWrite ∧ 0 < s.cores.length ∧ 0x10000 % 128 = 0 ∧ homeWrite.req.atomic = none ∧
    (s.core 0).ready 0 = true ∧ isMg 0x10000 = false ∧ (s.block? 0 homeWrite.slot).isSome ∧ s.lineHeld 0 0x10000 = false ∧ s.cstWaits 0 homeWrite = false ∧
    homeWrite.req.tags = [(.fib 0, 9)] ∧ ∃ f, s.fibAt 0 0 0 = some f ∧ (9, homeWrite.issue) ∈ f.sb := by
  refine ⟨by decide +kernel, by decide +kernel, by decide +kernel, by decide, rfl, by decide +kernel, by decide +kernel,
    by decide +kernel, by decide +kernel, by decide +kernel, rfl, { demoFibre 0 with sb := [(9, 7)] }, by decide +kernel, by decide +kernel⟩

theorem witness_home_atomic : let s := homeState homeAtom
    s.memsOk = true ∧ (s.core 0).outb[0]? = some homeAtom ∧ 0 < s.cores.length ∧ (s.core 0).ready 0 = true ∧ (s.block? 0 homeAtom.slot).isSome ∧
    s.lineHeld 0 0x10044 = false ∧ isMg 0x10044 = false ∧ 0x10044 % atomBytes .n32 = 0 ∧ s.bad 0x10044 (atomBytes .n32) = false ∧
    (AtOp.add ∈ [AtOp.add, .min, .max, .and, .or, .xor, .exch, .cas]) := by
  decide +kernel

/-- Where nothing is on its way, what every party has written is performed. -/
theorem performed_quiet {s : State} {b : Block} {w : Who} {sc : Scope} (h : (s.core b.core).paths = [] ∧ (s.core b.core).coll = [] ∧
    (s.core b.core).outb = [] ∧ s.outstanding = []) : performedAt s b w sc := by
  obtain ⟨h1, h2, h3, h4⟩ := h
  exact ⟨by simp [noWrites, h1, h3, h4], fun _ => by simp [acknowledged, Core.onWay, h2, h3, h4]⟩

/-- A fence of parties that have nothing pending, and one whose first party has a load pending. -/
theorem witness_fence : (fences (.fenceAcq {} .dev)).isSome ∧ (∀ x ∈ demo.views {}, noReads demo demoBlock x.2.1) ∧
    demo.views {} ≠ [] ∧ (∀ x ∈ demo.views {}, performedAt demo demoBlock x.2.1 .sys) ∧
    ∃ x ∈ (waiting loadPend).views {}, ¬ noReads (waiting loadPend) demoBlock x.2.1 := by
  refine ⟨rfl, by unfold noReads; decide +kernel, by decide +kernel, fun _ _ => performed_quiet (by decide +kernel), ?_⟩
  refine ⟨(1, .fib 1, .fib (demoFibre 1)), by decide +kernel, ?_⟩
  intro h
  exact h loadPend (by decide +kernel) rfl rfl rfl

/-- The whole scratchpad copied to a global page, nothing copied, and a copy from an unaligned address. -/
theorem witness_copies : demo.held demoBlock.ctx (coreDie demoBlock.core) .copy = false ∧
    copyFits demoBlock 0x10000 0x1000000000000000 4096 ∧ copyFits demoBlock 0x10000 0x1000000000000000 0 ∧
    (copyCheck demoBlock 0x10000 0x1000000000000010 32).isSome ∧ (demo.act {}).head?.isSome := by
  unfold copyFits; decide +kernel

/-- The moves of a copy of one unit, and of one to a register. -/
def moving (data : List Byte) (done : Nat) (st : Option W32) : Copy :=
  { issue := 7, core := 0, slot := 0, path := 0, parties := [.fib 0], dst := 0x10040, src := 0x1000000000000000, len := 32
    done := done, o := {}, dest := .regs [(.fib 0, 9)], data := data, status := st }
def copying (c : Copy) : State :=
  { demo with copies := [c], blocks := [{ demoBlock with fibres := [{ demoFibre 0 with sb := [(9, 7), (12, 7)] }] }] }
def regCopy : Copy := { moving [1, 2, 3, 4] 0 none with len := 4, reg := some ([some 0], 12, 1) }

theorem witness_copy_moves :
    (let s := copying (moving [] 0 none)
     s.copyMayStart (moving [] 0 none) = true ∧ (∃ b ∈ s.block? 0 0, s.copyPlace b (moving [] 0 none).src (32 * 0) false = .ok (.scratch 0) none ∧
       readableNow s b 32 (.scratch 0)) ∧ NothingOut s 0) ∧
    (let s := copying { moving [] 0 none with src := 0x10040 }
     ∃ b ∈ s.block? 0 0, s.copyPlace b 0x10040 (32 * 0) false = .ok (.glob 0x10040) (some 0x10040) ∧ readableNow s b 32 (.glob 0x10040)) ∧
    (∃ f, (copying regCopy).fibAt 0 0 0 = some f ∧ (12 + 0 % 1, regCopy.issue) ∈ f.sb) ∧ regCopy.data.length = 4 ∧ regCopy.done + 1 = regCopy.len / 4 ∧
    (let c := moving (List.replicate 32 1) 0 none
     c.data.length = 32 ∧ c.done + 1 = c.len / 32 ∧ ∃ b ∈ (copying c).block? 0 0, b.memsOk = true ∧
       (copying c).copyPlace b 0x1000000000000000 (32 * 0) true = .ok (.scratch 0) none ∧
       (copying c).copyPlace b c.dst (32 * 0) true = .ok (.glob 0x10040) (some 0x10040)) ∧
    ((moving [] 1 none).done = (moving [] 1 none).len / 32 ∧ 0 < (moving [] 1 none).done) ∧
    (let s := copying (moving [] 1 (some 1))
     (∃ f, s.fibAt 0 0 0 = some f ∧ (9, 7) ∈ f.sb) ∧ (s.core 0).outb = [] ∧ s.outstanding = []) := by
  refine ⟨⟨by decide +kernel, ⟨_, rfl, by decide +kernel, trivial⟩, by unfold NothingOut; decide +kernel⟩,
    ⟨_, rfl, by decide +kernel, by unfold readableNow; decide +kernel⟩, ⟨_, rfl, by decide⟩, rfl, rfl,
    ⟨rfl, rfl, _, rfl, by decide +kernel, by decide +kernel, by decide +kernel⟩, by decide, ⟨_, rfl, by decide⟩, rfl, rfl⟩

/-- A due write entry and a due read entry of the collector. -/
def collWrite : CEnt := { line := 0x10000, write := true, start := 0, closed := true, wreqs := [homeWrite] }
def collRead : CEnt := { line := 0x10000, write := false, start := 0, closed := true, reqs := [(7, 1)] }
def collState (e : CEnt) : State :=
  { demo with cores := { becalmed := false, coll := [e] } :: List.replicate 127 {}, pends := [{ gatherPend with joined := true }] }

theorem witness_collector :
    (let s := collState collWrite
     s.collDue 0 0 collWrite = true ∧ (s.core 0).coll[0]? = some collWrite ∧ 0 < s.cores.length ∧
     s.held (s.ctxAt 0 homeWrite.slot) (coreDie 0) .copy = false) ∧
    (let s := collState collRead
     s.collDue 0 0 collRead = true ∧ (s.core 0).coll[0]? = some collRead ∧ collRead.dev = none ∧ collRead.pools = [] ∧
     s.collReads 0 collRead = [{ gatherPend with joined := true }] ∧ s.block? 0 0 = some demoBlock ∧ s.lineHeld 0 0x10000 = false ∧
     s.held 0 (coreDie 0) .copy = false ∧ s.bad 0x10040 (loadBytes .b32) = false) := by
  decide +kernel

/-- All four lanes store; and from the last 8 bytes of the scratchpad, the third lane's element does not fit. -/
theorem witness_compress_store : ∃ l0, (demo.act {}).head? = some l0 ∧
    ptrCheck demoBlock [0, 1, 2, 3] ((View.fib l0.2).r64 2) 0 4 true = .ok 1 16 ∧
    ptrCheck demoBlock [0, 1, 2, 3] ((View.fib l0.2).r64 8) 0 4 true = .ok 1 0xFF8 ∧
    ptrCheck demoBlock [0, 1, 2, 3] ((View.fib l0.2).r64 2) 1 4 true = .bad 2 1 ∧
    (∀ y ∈ chosen demo {} 0, cstChk demo demoBlock l0.2 2 (.d8 0) 4 y = .ok (.scratch (16 + 4 * y.2)) none) ∧
    (∃ y ∈ chosen demo {} 0, y.2 = 2 ∧ (∃ f, cstChk demo demoBlock l0.2 8 (.d8 0) 4 y = .bad f) ∧
      ∀ z ∈ chosen demo {} 0, z.2 < 2 → cstChk demo demoBlock l0.2 8 (.d8 0) 4 z = .ok (.scratch (0xFF8 + 4 * z.2)) none) := by
  refine ⟨(0, demoFibre 0), by decide +kernel, by decide +kernel, by decide +kernel, by decide +kernel, by decide +kernel, ((2, demoFibre 2), 2), by decide +kernel, rfl, ?_, by decide +kernel⟩
  exact ⟨{ code := 0x07, info := ptrInfo 1 1 }, by decide +kernel⟩

/-- A table of two rows of two FP32 elements at 0x10100, with its record at 0x10040, and what the collector has read of both. -/
def embRecord : List Byte := leBytes 8 0x10100 ++ leBytes 4 1 ++ leBytes 4 2 ++ leBytes 2 2 ++ [0, 0] ++ leBytes 4 16 ++
  leBytes 8 0 ++ leBytes 4 0x3F800000 ++ List.replicate 28 0
def embRow : List Byte := leBytes 4 0x3F800000 ++ leBytes 4 0x40000000
def embBlock : Block := { demoBlock with fibres := [demoFibre 0], parts := [{ demoPart with lanes := [(0, 0)] }] }
def embState (read : List PoolBuf) : State :=
  { device embBlock (.part 0) with cores := { becalmed := false, tlb := [demoTlb], pbuf := read } :: List.replicate 127 {} }
def embRead : State := embState [{ slot := 0, who := .fib 0, pa := 0x10040, isRec := true, data := embRecord },
  { slot := 0, who := .fib 0, pa := 0x10100, data := embRow ++ List.replicate 120 0 }]
def embPooled : Pooled := { r := embRec embRecord, rows := [embRow], dst := embRead.chkSpan embBlock 0x1000000000000010 8 true }

theorem witness_embpool : Runs embRead embBlock ∧ embRead.views {} = [(0, .fib 0, .fib (demoFibre 0))] ∧
    PoolsNow embRead embBlock (.fib 0) (.fib (demoFibre 0)) 2 4 1 6 1 embPooled :=
  ⟨⟨by decide +kernel, .inr ⟨{ demoPart with lanes := [(0, 0)] }, by decide +kernel, by decide +kernel⟩, by decide +kernel⟩, by decide +kernel,
   ⟨⟨0x10040, by decide +kernel⟩, ⟨1, 16, by decide +kernel⟩,
    ⟨0x10040, some 0x10040, { slot := 0, who := .fib 0, pa := 0x10040, isRec := true, data := embRecord }, by decide +kernel, by decide +kernel, rfl, by decide +kernel, rfl⟩,
    by decide +kernel, rfl, fun j y hj => (match j, hj with
      | 0, hj => (by obtain rfl : y = embRow := by simpa [embPooled] using hj.symm
                     rw [if_neg (by decide +kernel)]; exact ⟨by decide +kernel, by decide +kernel⟩)
      | j + 1, hj => by simp [embPooled] at hj), ⟨rfl, by decide +kernel, by decide +kernel⟩, by decide +kernel⟩⟩

/-- Nothing is read yet. -/
theorem witness_embpool_record : let s := embState []
    s.views {} = [(0, .fib 0, .fib (demoFibre 0))] ∧ s.chkSpan embBlock ((View.fib (demoFibre 0)).r64 4) 64 false = [(0, 64, .ok (.glob 0x10040) (some 0x10040))] ∧
    ptrCheck embBlock [0] ((View.fib (demoFibre 0)).r64 4) 0 64 false = .ok 0 0x10040 ∧
    ptrCheck embBlock [0, 1] ((View.fib (demoFibre 0)).r64 2) 0 4 true = .ok 1 16 ∧ s.mayReadNow embBlock (.fib 0) = true ∧
    (s.core 0).pbuf = [] ∧ (s.core 0).paths = [] ∧ (s.core 0).coll = [] ∧ (s.core 0).outb = [] ∧ s.readHeld 0 0 0x10040 = false ∧
    isMg 0x10040 = false := by decide +kernel

theorem witness_embsw : ∃ x0, (demo.views {}).head? = some x0 ∧ ptrCheck demoBlock [0] (x0.2.2.r64 4) 0 64 true = .ok 0 0x10040 ∧
    demo.chkGlobal demoBlock 0x10040 true = .ok (.glob 0x10040) (some 0x10040) ∧ isMg 0x10040 = false :=
  ⟨(0, .fib 0, .fib (demoFibre 0)), by decide +kernel⟩

/-- Commands of the copy port and of the collector port. -/
def portCmd (k : EngKind) (vs : List W64) : Cmd :=
  { k := k, unit := 0, port := 0, core := 0, slot := 0, q := 0, ents := vs.map fun v => { v := v }, seq := 5 }
theorem witness_port_copies :
    (let c := portCmd .copy [0x10040, 0x1000000000000000, 32]
     let s := { demo with cmds := [c] }
     s.firstCmd .copy 0 = some c ∧ s.block? 0 0 = some demoBlock ∧ (scopeOf ((32 : W64).extractLsb' 32 3)).isSome ∧
       (32 : W64).extractLsb' 37 27 = 0 ∧ ((1 : W64) <<< 37).extractLsb' 37 27 ≠ 0) ∧
    (let c := portCmd .collector [0x10040, 0]
     let s := { demo with cmds := [c] }
     s.firstCmd .collector 0 = some c ∧ (4 : W64).extractLsb' 2 62 ≠ 0 ∧ (3 : W64).extractLsb' 2 62 = 0 ∧
       ptrCheck demoBlock [0, 1] 0x10040 0 1 false = .ok 0 0x10040 ∧
       s.chkGlobal demoBlock 0x10040 false = .ok (.glob 0x10040) (some 0x10040) ∧ s.lineHeld 0 0x10040 = false ∧ s.held 0 (coreDie 0) .copy = false ∧ isMg 0x10040 = false ∧ s.bad 0x10040 1 = false ∧
       (s.core 0).paths = [] ∧ ptrCheck demoBlock [0, 1] 0x1000000000000000 0 1 false = .ok 1 0 ∧
       ptrCheck demoBlock [0, 1] 0x2000000000000000 0 1 false = .bad 5 2) := by
  decide +kernel

/-! ### Barriers, rejoin, fibres and relations -/

/-- One fibre in a part, and one that waits at block barrier 3 for its second arrival. -/
def soloBlock : Block :=
  { demoBlock with
    fibres := [demoFibre 0, { demoFibre 1 with life := .parked, wait := some (.barrier 0 3 5 none true), next := 8 }]
    parts := [{ demoPart with lanes := [(0, 0)] }, { demoPart with id := 1, lanes := [(1, 1)] }]
    bars := (List.replicate 16 {}).set 3 { st := .gather, latch := 2, arr := 1 } |>.set 4 { st := .abandoned, phase := 7, abn := true } }
def solo : State := device soloBlock (.part 0)

theorem awake_of {s : State} (c : Who.cox ∉ s.issuers) (f : ∀ w ∈ s.issuers, ∀ f ∈ s.myFib w.fid, f.wait = none) : Awake s :=
  ⟨fun h => absurd h c, fun _ h g hg => f _ h g hg⟩

theorem witness_arrivals : (arrivals (.barSync {} true 5 15 (.imm 8))).isSome ∧ Awake demo ∧ HasBar demo demoBlock 0 15 ∧
    HasBar demo demoBlock 1 7 ∧ HasBar demo demoBlock 2 3 ∧
    (∀ k < 4, ∀ y ∈ (demo.views {})[k]?, (((demo.views {}).take k).foldl (fun (z : Barrier) x =>
      (z.arrive (countIn x.2.2 (.imm 8))).1) (demo.bar demoBlock 0 15) |>.arrive (countIn y.2.2 (.imm 8))).2 ≠ .fault) ∧
    (demo.views {}).length = 4 := by
  refine ⟨rfl, awake_of (by decide +kernel) (by decide +kernel), by unfold HasBar; decide +kernel, ?_, by unfold HasBar; decide +kernel,
    by decide +kernel, by decide +kernel⟩
  exact ⟨{ id := 0, ctx := 0, launch := 1 }, by decide +kernel, by decide⟩

/-- The last arrival of a phase with a party that it releases, a first arrival, and one at an abandoned barrier. -/
theorem witness_one_arrival : Runs solo soloBlock ∧ Awake solo ∧ (∃ y, solo.views {} = [y]) ∧
    ((solo.bar soloBlock 0 3).arrive 2).2 = .passed 0 0 ∧ ((solo.bar soloBlock 0 5).arrive 2).2 = .waits 0 ∧
    ((solo.bar soloBlock 0 4).arrive 2).2 = .passed 1 7 ∧
    (soloBlock.fib? 1 = some { demoFibre 1 with life := .parked, wait := some (.barrier 0 3 5 none true), next := 8 }) ∧
    soloBlock.shares soloBlock 0 = true := by
  refine ⟨⟨by decide +kernel, .inr ⟨{ demoPart with lanes := [(0, 0)] }, rfl, by decide +kernel⟩, by decide +kernel⟩,
    awake_of (by decide +kernel) (by decide +kernel), ⟨(0, .fib 0, .fib (demoFibre 0)), by decide +kernel⟩, ?_⟩
  decide +kernel

/-- Barriers for the clauses of an arrival: abandoned; a count of 0; the last of two; and the first of two. -/
theorem witness_arrival_rules : (solo.bar soloBlock 0 4).st = .abandoned ∧
    (let x := solo.bar soloBlock 0 3; x.st ≠ .abandoned ∧ x.latch = 2 ∧ x.arr + 1 = 2 ∧ (3 : W32) ≠ x.latch) ∧
    (let x := solo.bar soloBlock 0 5; x.st = .idle ∧ x.cnt = 0 ∧ x.arr + 1 ≠ 2) := by decide +kernel

theorem witness_barrier_waits : (waits (.barWait {} false 5 1 4)).isSome ∧ (∃ y, solo.views {} = [y] ∧ y.2.2.r32 1 = 0) ∧
    (solo.bar soloBlock 0 4).st = .abandoned ∧ (solo.bar soloBlock 0 3).phase = 0 ∧
    (let s := device { soloBlock with bars := List.replicate 16 { phase := 1 } } (.part 0); (s.bar soloBlock 0 0).phase ≠ 0) :=
  ⟨rfl, ⟨(0, .fib 0, .fib (demoFibre 0)), by decide +kernel⟩, by decide +kernel⟩

theorem witness_barrier_set_up : CoxIssuing (device soloBlock .cox) soloBlock ∧ Runs (device soloBlock .cox) soloBlock ∧
    HasBar (device soloBlock .cox) soloBlock 0 3 ∧ (solo.bar soloBlock 0 3).st = .gather ∧ (solo.bar soloBlock 0 5).st ≠ .gather ∧
    soloBlock.cox.wait = none := by
  refine ⟨⟨by decide +kernel, rfl⟩, ⟨by decide +kernel, .inl rfl, by decide +kernel⟩, by unfold HasBar; decide +kernel, ?_⟩
  decide +kernel

/-- An origin with three masks: empty, with lanes that have not come, and with just the active lanes. -/
def maskBlock : Block :=
  { demoBlock with origins := [{ id := 0, part := 0, j := (List.replicate 8 {}).set 1 { set := 0x1F } |>.set 2 { set := 0xF } }] }
theorem witness_rejoin : let s := device maskBlock (.part 0)
    Issuing s maskBlock demoPart ∧ (∃ o, maskBlock.origin? 0 = some o ∧ o.j.length = 8 ∧
      ((o.mask 1).arv ||| Claims.lanesOf ((s.act {}).filter fun y => (o.mask 1).set.getLsbD y.1 && !(o.mask 1).arv.getLsbD y.1)) ≠
        (o.mask 1).set ∧ (o.mask 2).set ≠ 0 ∧
      ((o.mask 2).arv ||| Claims.lanesOf ((s.act {}).filter fun y => (o.mask 2).set.getLsbD y.1 && !(o.mask 2).arv.getLsbD y.1)) =
        (o.mask 2).set) ∧ demoPart.serial = false := by
  refine ⟨⟨by decide +kernel, rfl, by decide +kernel⟩, ⟨{ id := 0, part := 0, j := (List.replicate 8 {}).set 1 { set := 0x1F } |>.set 2 { set := 0xF } },
    by decide +kernel⟩, rfl⟩

theorem witness_spawn : demoBlock.emitting = false ∧ demoBlock.nextFid + (demo.act {}).length ≤ 2 ^ 32 ∧
    demoBlock.fibres.length + (demo.act {}).length ≤ 65536 ∧ ((demo.act {}).map fun x => x.2.fid).Nodup ∧
    (∀ x ∈ demo.act {}, 10 < x.2.regs.length) ∧ demoBlock.insts = [] ∧ demoBlock.keys = [] := by decide +kernel

theorem witness_stage_spawn : let b := { demoBlock with stageQ := [[0x1122334455667788]] }
    let s := device b .none
    s.block? 0 0 = some b ∧ s.shapeOk = true ∧ b.stageQ[0]? = some [0x1122334455667788] ∧ b.ovStop = false ∧
    (s.ctx b.ctx).st ≠ .killing ∧ (s.spawnPlace b).isSome := by decide +kernel

/-- A relation on V6, and a join of it with itself; a block whose fibres 0 to k − 1 are members. -/
def keyed : Relation := { left := none, right := none, clauses := [{ kind := 1, vd := 6, arg := 0 }] }
def joined : Relation := { left := some 0, right := some 0, clauses := [{ kind := 1, vd := 6, arg := 0 }, { kind := 3, vd := 7, arg := 6 }] }
def relBlock (k : Nat) (st : KState) (is : List Inst) : Block :=
  { demoBlock with rels := [keyed, joined], insts := is
                   keys := (List.range k).map fun i => { rel := 0, fid := i, key := 3, st := st } }

theorem witness_one_key : OneKey (relBlock 0 .member []).rels[0]? ∧ OneKey (some joined) ∧
    ((demo.act {}).filter fun x => !((relBlock 0 .member []).keys.any fun k => k.rel == 0 && k.fid == x.2.fid)).length ≤
      (device (relBlock 0 .member []) (.part 0)).freeKeys 0 := by
  refine ⟨?_, ?_, by decide +kernel⟩
  · intro x h; cases h; decide
  · intro x h; cases h; decide

/-- No member arrives; a member arrives before the others; the last members arrive; and one arrives while an emission is
under way. -/
theorem witness_meets : (meets (.rfold {} 0)).isSome ∧ (∀ x ∈ demo.act {}, ¬ Member (relBlock 0 .member []) true 0 x.2.fid) ∧
    (∃ x ∈ demo.act {}, Member (relBlock 4 .member []) true 0 x.2.fid) ∧
    (∀ k ∈ (relBlock 4 .member []).keys, ∃ x ∈ demo.act {}, x.2.fid = k.fid) ∧
    (∃ k ∈ (relBlock 4 .member []).keys, InputOf (relBlock 4 .member []) true 0 k.rel ∧ ∀ x ∈ solo.act {}, x.2.fid ≠ k.fid) ∧
    (∃ k ∈ (relBlock 4 .member [{ fold := true, rel := 0, st := .emit }]).insts, k.fold = true ∧ k.rel = 0 ∧ k.st = .emit) ∧
    InputOf (relBlock 4 .member []) false 1 0 ∧
    (∀ k ∈ (relBlock 4 .member []).keys, noReads demo demoBlock (.fib k.fid) ∧ performedAt demo demoBlock (.fib k.fid) .core) ∧
    (∀ k ∈ (relBlock 4 .member [{ fold := true, rel := 0, st := .emit }]).insts, k.st = .emit ∧ k.fold = true) := by
  refine ⟨rfl, ?_, ?_, by decide +kernel, ?_, by decide +kernel, ⟨joined, rfl, .inl rfl⟩,
    fun k _ => ⟨by unfold noReads; intro p hp; exact absurd hp (by simp [demo, device, State.reset]), performed_quiet (by decide +kernel)⟩,
    by decide +kernel⟩
  · intro x _ h; obtain ⟨k, hk, _⟩ := h; exact absurd hk (by simp [relBlock])
  · exact ⟨(0, demoFibre 0), by decide +kernel, { rel := 0, fid := 0, key := 3 }, by decide +kernel, rfl, rfl⟩
  · exact ⟨{ rel := 0, fid := 3, key := 3 }, by decide +kernel, rfl, by decide +kernel⟩

/-- Two fibres of one key whose fold emits, and a pair that a join emits. -/
def foldBlock : Block :=
  { relBlock 2 .emitting [{ fold := true, rel := 0, st := .emit }] with
    fibres := (List.range 2).map fun i => { demoFibre i with life := .parked, wait := some (.relation true 0 0 true false), next := 8 }
    parts := [{ demoPart with lanes := [(0, 0), (1, 1)] }] }
theorem witness_fold : let s := device foldBlock .none
    s.block? 0 0 = some foldBlock ∧ s.shapeOk = true ∧ foldBlock.rels[0]? = some keyed ∧
    (foldBlock.keys.filter fun k => k.st == .emitting).Pairwise (fun k q => k.fid < q.fid) ∧
    (∀ k ∈ foldBlock.keys, k.rel = 0 ∧ ∃ f ∈ foldBlock.fib? k.fid, f.wait = some (.relation true 0 0 true false) ∧ f.win = true ∧ f.stuck = false) ∧
    (∃ k ∈ foldBlock.keys, ∃ q ∈ foldBlock.keys, q.fid < k.fid ∧ q.key = k.key) := by decide +kernel

def joinBlock : Block := relBlock 2 .emitting [{ fold := false, rel := 1, st := .emit, label := 64, todo := some [(0, 1), (1, 0)] }]
theorem witness_join : let s := device joinBlock .none
    s.block? 0 0 = some joinBlock ∧ s.shapeOk = true ∧ joinBlock.rels[1]? = some joined ∧ joinBlock.ovStop = false ∧
    2 ≤ s.freeKeys 0 ∧ joinBlock.nextFid + 2 ≤ 2 ^ 32 ∧ joinBlock.fibres.length + 2 ≤ 65536 ∧ (∃ i, joinBlock.insts = [i] ∧ i.defer = []) ∧
    ∀ k ∈ [0, 1], ∃ f ∈ joinBlock.fib? k, f.win = true ∧ f.stuck = false :=
  ⟨by decide +kernel, by decide +kernel, rfl, rfl, by decide +kernel, by decide +kernel, by decide +kernel, ⟨_, rfl, rfl⟩, by decide +kernel⟩
theorem witness_join_windows : WindowsFor (device joinBlock .none) joinBlock 2 := by
  intro p hp
  exact ⟨31, by decide, by revert p; decide +kernel⟩

/-! ### Groups, windows, compaction, regrouping, stages -/

/-- Two stages, the second with a full queue; fibre 4 is ungrouped in stage 0, fibre 5 RETURNING. -/
def groupBlock : Block :=
  { demoBlock with
    fibres := (List.range 4).map demoFibre ++
      [{ demoFibre 4 with life := .ungrouped, origin := none }, { demoFibre 5 with life := .returning }]
    nextFid := 6
    kr := { demoKernel with nstage := 1, depth := [4, 0, 0, 0, 0, 0, 0, 0] }
    stageQ := [[], [1]], stageRR := [0, 0], stgres := [2, 0] }
def assigned (a : Option Assign) : State :=
  { device groupBlock .none with cores := { becalmed := false, assign := [a, none, none, none] } :: List.replicate 127 {} }

theorem witness_records : let s := assigned none
    s.shapeOk = true ∧ s.assigned 0 0 = none ∧ 0 < s.freeRecords 0 0 ∧ groupBlock ∈ s.blocks ∧
    MayReturn groupBlock 0 { demoFibre 5 with life := .returning } ∧ MayForm groupBlock 0 0 ∧ Below groupBlock 0 0 ∧
    Blocked groupBlock 0 ∧ (¬ Below { groupBlock with stgres := [1, 0] } 0 0 ∧ ¬ Blocked { groupBlock with stageQ := [[], []] } 0) := by
  unfold MayReturn MayForm Below Blocked depth fill; decide +kernel

theorem witness_group_form : let s := assigned (some (.stage 0 0))
    s.shapeOk = true ∧ s.block? 0 0 = some groupBlock ∧ { demoFibre 4 with life := .ungrouped, origin := none } ∈ groupBlock.fibres ∧
    0 < s.freeOrigins 0 0 := by decide +kernel

theorem witness_part_return : let s := assigned (some (.ret 0 5))
    s.shapeOk = true ∧ s.assigned 0 0 = some (.ret 0 5) ∧ { demoFibre 5 with life := .returning } ∈ groupBlock.fibres ∧
    (groupBlock.parts.filter fun p => p.origin == 0).length < 8 ∧ groupBlock.part? 0 = some demoPart ∧
    8 ≤ ({ groupBlock with parts := (List.range 8).map fun i => { demoPart with id := i } }.parts.filter fun (p : Part) => p.origin == 0).length := by
  decide +kernel

/-- A core whose column 0 is full: sixteen fibres of 256 registers, one of them parked at a rejoin, and one that has no
window; its spill pages are mapped. -/
def fullBlock (inc : Life) : Block :=
  { demoBlock with
    fibres := { demoFibre 0 with life := .parked, wait := some (.rejoin 1) } ::
      (((List.range 15).map fun i => { demoFibre (i + 1) with col := 0 }) ++ [{ demoFibre 16 with life := inc, win := false, col := 0 }])
    parts := [{ demoPart with lanes := [(0, 0)] }], nextFid := 17 }
def spillTlb : Tlb := { ctx := 0, va := 0x00FF000000000000, sh := 21, pa := 0x200000, leaf := 0x20000F }
def windowState (b : Block) : State :=
  { device b .none with cores := { becalmed := false, tlb := [spillTlb] } :: List.replicate 127 {} }

theorem witness_swap_out : let b := fullBlock .returning
    let s := windowState b
    let f := { demoFibre 16 with life := .returning, win := false, col := 0 }
    let v := { demoFibre 0 with life := .parked, wait := some (.rejoin 1) }
    s.shapeOk = true ∧ f ∈ b.fibres ∧ s.hasRoom b f = false ∧ v ∈ b.fibres ∧ v.sb = [] ∧ v.part = f.part ∧ v.col = f.col ∧
    v.stuck = false ∧ SpillMapped s b v .write 0x204000 ∧ s.mem.wf = true := by unfold SpillMapped; decide +kernel

/-- Room for a RETURNING and for an UNBORN fibre; and a block with no victim that has been idle for 65,536 cycles. -/
theorem witness_windows :
    (∀ l ∈ [Life.returning, .unborn], ∀ r ∈ [[], (demoFibre 0).regs],
      let f := { demoFibre 0 with life := l, win := false, regs := r }
      let b := { demoBlock with fibres := [f], parts := [], nextFid := 1 }
      let s := windowState b
      s.shapeOk = true ∧ s.hasRoom b f = true ∧ f.stuck = false ∧ f.held = [] ∧ SpillMapped s b f .read 0x204000) ∧
    (let b := { fullBlock .returning with
                fibres := (((List.range 16).map fun i => { demoFibre i with col := 0 }) ++ [{ demoFibre 16 with life := .returning, win := false, col := 0 }])
                idle := 65536 }
     let s := { windowState b with ctxs := { st := .running, creator := some 1 } :: List.replicate 63 {} }
     let f := { demoFibre 16 with life := .returning, win := false, col := 0 }
     s.block? 0 0 = some b ∧ f ∈ b.fibres ∧ s.hasRoom b f = false ∧ b.victimFor f = none ∧ (s.ctx b.ctx).creator = some 1 ∧ 1 < s.ctxs.length) := by
  unfold SpillMapped; decide +kernel

theorem witness_compact : (demo.act {}).length = demoPart.lanes.length ∧ (demo.act { pg := 1 }).length ≠ demoPart.lanes.length := by
  decide +kernel

/-- Two parts of one origin that wait at one compaction. -/
def compactBlock : Block :=
  { demoBlock with
    fibres := (List.range 4).map fun i => { demoFibre i with life := .parked, wait := some (.compact 2 0), next := 8 }
    parts := [{ demoPart with lanes := [(0, 0), (1, 1)] }, { demoPart with id := 1, lanes := [(2, 2), (3, 3)] }] }
theorem witness_compact_close : let s := device compactBlock .none
    s.shapeOk = true ∧ s.block? 0 0 = some compactBlock ∧ (compactBlock.parts.map (·.id)).Nodup ∧
    (∀ q ∈ compactBlock.parts, q.lanes ≠ [] ∧ q.serial = false ∧ ∀ x ∈ q.lanes, ∃ f ∈ compactBlock.fib? x.2,
      f.life = .parked ∧ f.wait = some (.compact 2 0) ∧ f.pc = 0 ∧ f.next = 8) := by decide +kernel

/-- A first regroup, one that finds its entry, and an entry that closes. -/
def regroupBlock : Block :=
  { demoBlock with
    fibres := (List.range 4).map demoFibre ++ [{ demoFibre 4 with life := .parked, wait := some (.regroup 9), next := 8 }]
    nextFid := 5, regroups := [{ id := 9, part := 0, stage := 0, pc := 0, next := 8, t := 1, start := 0, keyed := [(3, 4)] }] }
theorem witness_regroup : (regroups (.regroupKey {} true 0 1)).isSome ∧ entryOf demoBlock demoPart 0 = none ∧ demo.act {} ≠ [] ∧
    ((demo.act {}).map (·.1)).Nodup ∧ (entryOf regroupBlock demoPart 0 ≠ none) ∧
    (∃ c < 32, (∀ x ∈ demo.act {}, x.2.col ≠ c) ∧ ∀ r ∈ entryOf regroupBlock demoPart 0, ∀ y ∈ r.keyed, ∀ f ∈ regroupBlock.fib? y.2, f.col ≠ c) ∧
    (let s := device regroupBlock .none
     s.shapeOk = true ∧ s.block? 0 0 = some regroupBlock ∧ (regroupBlock.regroups.find? fun x => x.id == 9).isSome ∧ regroupBlock.emits = [] ∧
      s.cur.ready = [] ∧ ∀ f ∈ regroupBlock.fibres, f.col < 32 ∧ f.fid < 2 ^ 32) := by decide +kernel

/-- A queue register that feeds stage 0, a full stage, a core that may becalm, and one that wakes. -/
theorem witness_stages_calm :
    (let b := { demoBlock with q := (List.replicate 16 {}).set 2 { bind := some (.stage 0), push := [{ v := 5 }] } }
     (device b .none).block? 0 0 = some b ∧ b.stageGiver 0 = some 2 ∧ fill b 0 < depth b 0) ∧
    depth groupBlock 1 ≤ fill groupBlock 1 ∧
    (let s := { demo with cores := [{ becalmed := false, wake := 7, idle := 16 }, { wakeReq := some (2, 15, 0) }] }
     1 < s.cores.length ∧ (s.core 0).wake ≠ 0 ∧ 16 ≤ (s.core 0).idle ∧ (s.core 1).becalmed = true ∧ (s.core 1).wakeReq = some (2, 15, 0)) := by
  unfold fill depth; decide +kernel

/-! ### Queues and ports -/

/-- Queue registers of the demo block: 0 unbound, 1 bound to the copy engine with a full push side and 4 entries to pop, 2
bound to stage 0, 3 to the host, 4 to the copy engine with a command, and 5 to the copy engine and idle. -/
def queueBlock : Block :=
  { demoBlock with
    dq := [1, 2, 3, 4]
    q := [{}, { bind := some (.engine .copy 0 0), push := List.replicate 64 { v := 0 }, pop := [1, 2, 3, 4], pushed := 64 },
      { bind := some (.stage 0) }, { bind := some .host },
      { bind := some (.engine .copy 0 0), push := [{ v := 0x10040 }, { v := 0x1000000000000000 }, { v := 32 }], pushed := 3 },
      { bind := some (.engine .copy 0 0) }] ++ List.replicate 10 {} }
def queues : State := device queueBlock (.part 0)
def queuesCox : State := device queueBlock .cox

theorem witness_queue_states : Runs queues queueBlock ∧ Runs queuesCox queueBlock ∧ CoxIssuing queuesCox queueBlock ∧
    queues.shapeOk = true ∧ queues.views {} ≠ [] ∧ InOrder queues {} :=
  ⟨⟨by decide +kernel, .inr ⟨demoPart, rfl, by decide +kernel⟩, by decide +kernel⟩, ⟨by decide +kernel, .inl rfl, by decide +kernel⟩,
    ⟨by decide +kernel, rfl⟩, by decide +kernel, by decide +kernel, by unfold InOrder; decide +kernel⟩

/-- Every answer of `qbind` has its operands, and registers that are bound and not. -/
theorem witness_qbind : (qAt queueBlock 0).bind = none ∧ (qAt queueBlock 1).bind ≠ none ∧
    Binds { queues with stage := .stage1 } queueBlock 0 2 2 none ∧ Binds queues queueBlock 1 0 3 none ∧
    Binds queues queueBlock 0 0 0 (some (.engine .copy (engUnit .copy 0) 0)) ∧ Binds queues queueBlock 7 6 2 none ∧
    Binds queues queueBlock 0 6 0 (some (.stage 0)) ∧ Binds { queues with hostHolder := some (0, 0, 3) } queueBlock 0 7 4 none ∧
    Binds queues queueBlock 0 7 0 (some .host) :=
  ⟨by decide +kernel, by decide +kernel, .away (e := .bank) rfl (by decide +kernel), .absent (e := .copy) rfl (by decide +kernel) (by decide +kernel),
    .engine (e := .copy) rfl (by decide +kernel) (by decide +kernel), .noStage (by decide +kernel), .stage (by decide +kernel),
    .taken (.inr (by decide)), .host (by decide +kernel) (by decide +kernel)⟩

theorem witness_qunbind : (qAt queueBlock 5).bind ≠ none ∧ (qAt queueBlock 5).push = [] ∧ (qAt queueBlock 5).pop = [] ∧
    queues.cmds = [] ∧ (qAt queueBlock 1).push ≠ [] := by decide +kernel

/-- A push with room and one without; pops of four entries and of one; a decision queue with entries, and a full one; and
host entries. -/
theorem witness_queue_entries : hasPush (qAt queueBlock 2).bind ∧ hasPush (qAt queueBlock 1).bind ∧ hasPop (qAt queueBlock 1).bind ∧
    hasPop (qAt queueBlock 5).bind ∧
    (qAt queueBlock 2).push.length + (queues.views {}).length ≤ 64 ∧ 64 < (qAt queueBlock 1).push.length + (queues.views {}).length ∧
    (queues.views {}).length ≤ (qAt queueBlock 1).pop.length ∧ (qAt queueBlock 5).pop.length < 1 ∧ queueBlock.dq.length < 64 ∧
    (queues.views {}).length ≤ queueBlock.dq.length ∧ demoBlock.dq.length < 1 ∧ 64 ≤ { demoBlock with dq := List.replicate 64 0 }.dq.length ∧
    (qAt queueBlock 3).bind = some .host ∧ queuesCox.hrq = [] ∧ { queuesCox with hrq := [5] }.hrq = 5 :: [] :=
  ⟨trivial, by simp [qAt, queueBlock, hasPush], trivial, trivial, by decide +kernel⟩

theorem witness_port_take : queues.offer .copy 0 0 queueBlock 4 = some 3 ∧ queues.offer .copy 0 0 queueBlock 1 = some 3 ∧
    queues.drains = [] ∧ queues.block? queueBlock.core queueBlock.slot = some queueBlock ∧
    turnOf queues .copy 0 0 queueBlock 1 ≤ turnOf queues .copy 0 0 queueBlock 4 ∧
    (∀ c ∈ queues.blocks, ∀ j < 16, (queues.offer .copy 0 0 c j).isSome →
      turnOf queues .copy 0 0 queueBlock 1 ≤ turnOf queues .copy 0 0 c j) := by decide +kernel

theorem witness_result : let c := { portCmd .copy [] with q := 5, result := some [1, 2] }
    let s := { queues with cmds := [c] }
    s.block? c.core c.slot = some queueBlock ∧ c.q < queueBlock.q.length ∧ (qAt queueBlock c.q).pop.length + 2 ≤ 64 := by decide +kernel

/-- A register from which all has been taken, and one from which nothing has. -/
theorem witness_qdrain : (qAt queueBlock 5).bind ≠ none ∧ (qAt queueBlock 5).bind ≠ some .host ∧
    (qAt queueBlock 5).pushed ≤ (qAt queueBlock 5).taken ∧ (qAt queueBlock 5).pop.length ≤ 64 ∧
    ¬ (qAt queueBlock 1).pushed ≤ (qAt queueBlock 1).taken := by decide +kernel

/-! ### The matrix engine and the quantiser -/

/-- The demo block holds its core's array alone, or a pair of arrays; pages at 0 are mapped. -/
def bigTlb : Tlb := { ctx := 0, va := 0, sh := 21, pa := 0x200000, leaf := 0x20000F }
def arrays (a b : Arr) (th : Thread) : State :=
  { device demoBlock th with cores := { becalmed := false, tlb := [bigTlb], arr := a } :: { arr := b } :: List.replicate 126 {} }
def single : State := arrays { st := .single, holder := some (0, 0) } {} (.part 0)
def paired : State := arrays { st := .leader, holder := some (0, 0) } { st := .follower, holder := some (0, 0) } (.part 0)
def firstView : Nat × Who × View := (0, .fib 0, .fib (demoFibre 0))

theorem leased_single : Leased single {} demoBlock false firstView :=
  ⟨⟨by decide +kernel, .inr ⟨demoPart, rfl, by decide +kernel⟩, by decide +kernel⟩, by decide +kernel, by decide +kernel, by decide +kernel,
    by decide⟩
theorem leased_pair : Leased paired {} demoBlock true firstView :=
  ⟨⟨by decide +kernel, .inr ⟨demoPart, rfl, by decide +kernel⟩, by decide +kernel⟩, by decide +kernel, by decide +kernel, by decide +kernel,
    fun _ => by decide +kernel⟩

theorem got_ok {g : Got} (h : (match g with | .ok _ => true | _ => false) = true) : ∃ y, g = .ok y := by
  cases g <;> simp_all

/-- A tile operand in memory: one row of one block of E4M3 elements, with no scales. -/
theorem witness_mma_tile : (handleOf (firstView.2.2.r64 10)).ok .e4m3 = true ∧ single.mayReadNow demoBlock (.fib 0) = true ∧
    let cs := (single.rowSpan demoBlock 0 0x10000 32 false)
    (∃ y, single.getSpan demoBlock (.fib 0) cs = .ok y) ∧ single.spanHeld demoBlock cs = false ∧
    (match single.getScales demoBlock (.fib 0) [] with | (.ok x, y) => x.isEmpty && y.isEmpty | _ => false) = true :=
  ⟨by decide +kernel, by decide +kernel, got_ok (by decide +kernel), by decide +kernel, by decide +kernel⟩

theorem witness_tile_memory : tilePtr (firstView.2.2.r64 4) (firstView.2.2.r32 1) ∧
    (let cs := rowsAt single demoBlock (firstView.2.2.r64 4) 16 48 false
     (∃ y, single.getSpan demoBlock (.fib 0) cs = .ok y) ∧ single.spanHeld demoBlock cs = false) ∧
    (∀ p ∈ rowsAt paired demoBlock (firstView.2.2.r64 4) 16 96 true, p.2.2 ≠ .wait ∧ (match p.2.2 with | .ok _ _ => true | _ => false) = true) ∧
    4 * 11 < columns false ∧ 4 * 23 < columns true :=
  ⟨by unfold tilePtr; decide +kernel, ⟨got_ok (by decide +kernel), by decide +kernel⟩, by decide +kernel, by decide⟩

/-- Leases: free arrays, a pair asked on an odd core, an array that another block holds, and a request to grant. -/
theorem witness_leases : demo.lease demoBlock = none ∧ Free demo 0 ∧ Free demo 1 ∧ demo.views {} = firstView :: (demo.views {}).tail ∧
    (let s := arrays { st := .single, holder := some (0, 3) } {} (.part 0); s.lease demoBlock = none ∧ (s.arr 0).st ≠ .free) ∧
    ({ demoBlock with core := 1 }.core % 2 = 1) ∧
    (let r : LeaseReq := { core := 0, slot := 0, who := .fib 0, pair := true }
     let s := arrays { queue := [r] } { queue := [r] } .none
     s.reqLive r = true ∧ (s.arr 0).st = .free ∧ (s.arr 1).st = .free ∧ (s.arr 0).queue = [] ++ r :: [] ∧ s.lease demoBlock = none) := by
  unfold Free; decide +kernel

theorem witness_zq : ptrFlt demoBlock (firstView.2.2.r64 4) 16 (128 * 96) true = none ∧
    ptrFlt demoBlock (firstView.2.2.r64 4) 1 (128 * 3) true = none ∧
    (∀ p ∈ paired.chkSpan demoBlock (firstView.2.2.r64 4) (128 * 96) true ++ paired.chkSpan demoBlock (firstView.2.2.r64 4) (128 * 3) true,
      (match p.2.2 with | .ok _ _ => true | _ => false) = true) := by decide +kernel

/-- Quantiser commands: with a reserved bit, with unaligned sources, done with all rows, and with a row to do. -/
def quantCmd (p0 f : W64) : Cmd := portCmd .quant [p0, 0x10100, 0x10200, f]
theorem witness_quantiser :
    ((1#64 <<< 37).extractLsb' 37 27 ≠ 0) ∧
    (let f : W64 := 0x00010001
     f.extractLsb' 37 27 = 0 ∧ f.extractLsb' 25 7 = 0 ∧ (f.extractLsb' 32 3).toNat ≤ 4 ∧ (f.extractLsb' 16 7).toNat = 1 ∧
       (f.extractLsb' 0 16).toNat = 1 ∧ ([(0x10000 : W64), 0x10100, 0x10200].all fun p => p.extractLsb' 60 4 == 0 && p.extractLsb' 56 4 == 0)) ∧
    ((0x10001 : W64).extractLsb' 0 56).toNat % 4 ≠ 0 ∧ ((0x10004 : W64).extractLsb' 0 56).toNat % 16 ≠ 0 ∧
    2 ≤ ((0x5000000000010000 : W64).extractLsb' 60 4).toNat ∧ (0x0100000000010000 : W64).extractLsb' 56 4 ≠ 0 ∧
    (let c := quantCmd 0x10000 0x00010001
     let s := { single with cmds := [c] }
     (s.cmds.find? fun y => y.k == .quant && y.unit == 0 && y.result.isNone) = some c ∧ s.cmdClear 0 c.seq = true ∧ c.rows < 1 ∧
       (∀ x ∈ s.rowSpan demoBlock 0 0x10100 32 true ++ s.rowSpan demoBlock 0 0x10200 1 true, (match x.2.2 with | .ok _ _ => true | _ => false) = true) ∧
       s.spanHeld demoBlock (s.rowSpan demoBlock 0 0x10000 128 false) = false ∧
       (match s.getSpan demoBlock (cmdWho c.seq) (s.rowSpan demoBlock 0 0x10000 128 false) with | .ok _ => true | _ => false) = true) := by
  decide +kernel

/-! ### The clustering bank -/

/-- A bank of two entries of one dimension, with a policy and a radius. -/
def bankCfg (policy : Nat) : W64 := BitVec.ofNat 64 (1 + 2 * 256 + policy * 2 ^ 22)
def bankOf (policy : Nat) (radius : W32) (es : List BEnt) (a : List BArr) : Bank :=
  { holder := some 0, cfg := bankCfg policy, radius := radius, ents := es, arrivals := a }
def zeroEnt : BEnt := { c := 1, s := [0], m := [0] }
def oneEnt : BEnt := { c := 1, s := [0x3F800000], m := [0x3F800000] }
def banked (k : Bank) (th : Thread) : State :=
  { device demoBlock th with cores := { becalmed := false, tlb := [demoTlb], bank := k } :: List.replicate 127 {} }

theorem witness_bank_holder : mine (banked (bankOf 0 0 [zeroEnt, {}] []) .cox) demoBlock ∧
    quiet (banked (bankOf 0 0 [zeroEnt, {}] []) .cox) demoBlock ∧ ¬ mine demoCox demoBlock ∧ (demoCox.bank 0).holder = none ∧
    ¬ quiet (banked (bankOf 0 0 [] [{ issue := 7, slot := 0, kind := .merge, dest := .regs [] }]) .cox) demoBlock ∧
    demo.heldHere .bank = false ∧ demo.stage = .stage2 := by unfold mine quiet; decide +kernel

/-- Valid configurations at both ends of their ranges, and invalid ones. -/
theorem witness_bank_config : valid (bankCfg 3) ∧ valid (BitVec.ofNat 64 (64 + 128 * 256)) ∧ valid (BitVec.ofNat 64 (8 + 1024 * 256)) ∧
    ¬ valid 0 ∧ ¬ valid (BitVec.ofNat 64 (65 + 256)) ∧ ¬ valid (BitVec.ofNat 64 (64 + 129 * 256)) := by
  unfold valid dims count; decide +kernel

theorem witness_bank_save : let s := banked (bankOf 0 0 [zeroEnt, {}] []) (.part 0)
    let n := 16 + 2 * (16 + 16 * ((1 + 1) / 2))
    s.views {} = firstView :: (s.views {}).tail ∧ ptrFlt demoBlock (firstView.2.2.r64 4) 16 n true = none ∧
    (∀ y ∈ s.chkSpan demoBlock (firstView.2.2.r64 4) n true, (match y.2.2 with | .ok _ _ => true | _ => false) = true) ∧
    (∀ e ∈ (s.bank 0).ents, e.c ≠ 0 → e.s.length = 1 ∧ e.m.length = 1) := by decide +kernel

/-- The image of a bank in memory, and an invalid one. -/
def imageState (x : List Byte) : State :=
  { banked (bankOf 0 0 [{}, {}] []) (.part 0) with mem := Mem.write [] 0x10040 x }
theorem witness_bank_restore : let k := bankOf 0 0 [zeroEnt, {}] []
    let s := imageState (imageOf k)
    s.mayReadNow demoBlock (.fib 0) = true ∧
    s.getSpan demoBlock (.fib 0) (s.chkSpan demoBlock 0x10040 16 false) = .ok ((imageOf k).take 16) ∧
    BitVec.ofNat 64 (leNat (((imageOf k).take 16).take 8)) = k.cfg ∧
    ptrFlt demoBlock 0x10040 16 (imageOf k).length false = none ∧
    s.getSpan demoBlock (.fib 0) (s.chkSpan demoBlock 0x10040 (imageOf k).length false) = .ok (imageOf k) ∧ (imageOf k).length = 80 ∧
    s.spanHeld demoBlock (s.chkSpan demoBlock 0x10040 (imageOf k).length false) = false ∧
    (let s := imageState []; s.getSpan demoBlock (.fib 0) (s.chkSpan demoBlock 0x10040 16 false) = .ok (List.replicate 16 0)) := by
  decide +kernel

/-- Arrivals of each kind, of the holder and of another block. -/
def arrival (slot : Nat) (k : BArrKind) : BArr := { issue := 7, slot := slot, kind := k, dest := .regs [(.fib 0, 9)] }
theorem witness_bank_arrivals : ∀ x ∈ [arrival 0 (.vec [0]), arrival 1 (.vec [0]), arrival 0 (.vec [0, 0]), arrival 0 .merge, arrival 1 .merge,
      arrival 0 (.rd 1 true 1), arrival 0 (.rd 2 false 1), arrival 1 (.rd 0 true 1)],
    let k := bankOf 0 0 [zeroEnt, oneEnt] [x]
    k.nextArr (Config.pick 0) = some (x, []) ∧ k.overflow = [] ∧ 0 < k.ents.length := by
  decide +kernel

/-- No entry of two is within a zero radius of 8.0, and any is within the largest finite radius. -/
theorem far_away (policy : Nat) (hp : policy < 4) (es : List BEnt) (he : es = [zeroEnt, oneEnt] ∨ es = [zeroEnt, {}]) (n : Nat)
    (h : Nearest (bankOf policy 0 es []) [0x41000000] n) : ¬ Within' (bankOf policy 0 es []) [0x41000000] n := by
  have hn : n < es.length := h.1.1
  revert h
  rcases he with rfl | rfl <;> (simp only [List.length_cons, List.length_nil] at hn; interval_cases policy <;> interval_cases n) <;>
    (intro h; unfold Within'; first | decide +kernel | exact absurd h.1.2 (by decide +kernel))

theorem full_two {policy : Nat} {r : W32} (i : Nat) (h : i < (bankOf policy r [zeroEnt, oneEnt] []).ents.length) :
    Full (bankOf policy r [zeroEnt, oneEnt] []) i := by
  refine ⟨h, ?_⟩
  have h2 : i < 2 := h
  interval_cases i <;> (show (1 : W32) ≠ 0; decide)

theorem nearest_one (policy : Nat) (hp : policy < 4) (r : W32) (hr : r = 0 ∨ r = 0x7F000000) :
    Nearest (bankOf policy r [zeroEnt, oneEnt] []) [0x41000000] 1 := by
  refine ⟨full_two 1 (by show 1 < 2; decide), fun i h => ?_⟩
  have h2 : i < 2 := h.1
  interval_cases policy <;> rcases hr with rfl | rfl <;> interval_cases i <;> decide +kernel

/-- Every way in which a vector can be placed. -/
theorem witness_placed :
    (∃ es w, Placed (bankOf 0 0x7F000000 [zeroEnt, oneEnt] []) [0x41000000] es w none) ∧
    (∃ es w, Placed (bankOf 0 0 [zeroEnt, {}] []) [0x41000000] es w none) ∧
    (∃ es w r, Placed (bankOf 0 0 [zeroEnt, oneEnt] []) [0x41000000] es w (some r)) ∧
    (∃ es w, Placed (bankOf 1 0 [zeroEnt, oneEnt] []) [0x41000000] es w none) ∧
    (∃ es w, Placed (bankOf 2 0 [zeroEnt, oneEnt] []) [0x41000000] es w none) ∧
    ∃ es w r, Placed (bankOf 3 0 [zeroEnt, oneEnt] []) [0x41000000] es w (some r) := by
  refine ⟨⟨_, _, .grow (nearest_one 0 (by decide) _ (.inr rfl)) ?_⟩, ⟨_, _, .openFree (e := 1) ?_ (by decide) ?_ ?_⟩, ⟨_, _, _, .reject ?_ ?_ (by decide)⟩,
    ⟨_, _, .merge (e := 0) (f := 1) ?_ ?_ (by decide) ?_⟩, ⟨_, _, .absorb (nearest_one 2 (by decide) _ (.inl rfl)) ?_ ?_ (.inl (by decide))⟩,
    ⟨_, _, _, .evict (e := 0) ?_ ?_ (by decide) ?_ ?_⟩⟩
  · unfold Within'; decide +kernel
  · exact fun n h => far_away 0 (by decide) _ (.inr rfl) n h
  · intro h; exact absurd h.2 (by decide)
  · intro i hi; exact ⟨by show i < 2; omega, by interval_cases i; decide⟩
  · exact fun n h => far_away 0 (by decide) _ (.inl rfl) n h
  · exact full_two
  · exact fun n h => far_away 1 (by decide) _ (.inl rfl) n h
  · exact full_two
  · refine ⟨full_two 0 (by decide), full_two 1 (by decide), by decide, ?_⟩
    intro _ i j hi hj hij
    have h2 : j < 2 := hj.1
    have : i = 0 ∧ j = 1 := by omega
    obtain ⟨rfl, rfl⟩ := this
    decide +kernel
  · unfold Within'; decide +kernel
  · exact full_two
  · exact fun n h => far_away 3 (by decide) _ (.inl rfl) n h
  · exact full_two
  · exact full_two 0 (by decide)
  · intro i hi
    have h2 : i < 2 := hi
    interval_cases i <;> decide

/-- A bank with one entry has no pair to merge, and a record waits with and without a queue register of the holder for it. -/
def boundBlock : Block := { demoBlock with q := (List.replicate 16 ({} : QReg)).set 6 { bind := some (.engine .bank 0 1) } }
def emitting (b : Block) : State := { banked { bankOf 0 0 [zeroEnt, {}] [] with overflow := [[1, 2]] } .none with blocks := [b] }
theorem witness_overflow : (∀ i j, Full (bankOf 0 0 [zeroEnt, {}] []) i → Full (bankOf 0 0 [zeroEnt, {}] []) j → i = j) ∧
    Bound (emitting boundBlock) 0 boundBlock 6 ∧ ((emitting boundBlock).bank 0).overflow = [1, 2] :: [] ∧
    ¬ ∃ b n, Bound (emitting demoBlock) 0 b n := by
  refine ⟨?_, ⟨0, by decide +kernel, by decide +kernel, ⟨_, rfl, rfl⟩, ?_⟩, by decide +kernel, ?_⟩
  · intro i j hi hj
    have h1 : i < 2 := hi.1
    have h2 : j < 2 := hj.1
    have e1 : i ≠ 1 := by rintro rfl; exact absurd hi.2 (by decide)
    have e2 : j ≠ 1 := by rintro rfl; exact absurd hj.2 (by decide)
    omega
  · intro m hm
    rintro ⟨q, hq, hb⟩
    interval_cases m <;> (obtain rfl := Option.some.inj hq; cases hb)
  · rintro ⟨b, n, slot, hs, hb, ⟨q, hq, hq'⟩, _⟩
    obtain rfl : slot = 0 := by simpa [emitting, banked, bankOf, State.bank, State.core] using hs.symm
    obtain rfl : b = demoBlock := by
      have : (emitting demoBlock).block? 0 0 = some demoBlock := by decide +kernel
      exact Option.some.inj (hb.symm.trans this)
    have none_bound : ∀ q ∈ demoBlock.q, q.bind ≠ some (.engine .bank 0 1) := by decide +kernel
    exact none_bound q (List.mem_of_getElem? hq) hq'

theorem witness_bank_commands : ∀ v ∈ [[(0x2000000000000000 : W64)], [0x1000000000000000, 5], [3]],
    let c := portCmd .bank v
    let s := { banked (bankOf 0 0 [zeroEnt, {}] []) .none with cmds := [c] }
    (s.cmds.find? fun y => y.k == .bank && y.unit == 0 && y.result.isNone && !y.busy) = some c ∧ c.ents.map (·.v) = v ∧
    (s.bank 0).holder = some c.slot := by
  intro v hv
  fin_cases hv <;> decide +kernel

/-! ### Eddy -/

/-- A slot of 13 qubits at 0x10000 whose pages are held, one of 14 with two dies, and one of 14 with two devices. -/
def edSlot (ge gd : Nat) : EdSlot :=
  { st := .ready, base := 0x10000, ge := ge, gd := gd, pi := List.range (13 + ge + gd), xl := [bigTlb], devs := if gd = 0 then [] else [0, 1] }
def edCmd (k : EdKind) : EdCmd := { issue := 7, kind := k, o := {}, core := 0, slot := 0, parties := [.fib 0], dest := .regs [(.fib 0, 9)] }
def edState (e : EdSlot) (c : EdCmd) : State :=
  { demo with ctxs := { st := .running, priv := true, eddy := { e with cmds := [c] } :: List.replicate 3 {} } :: List.replicate 63 {} }

theorem next_ed (e : EdSlot) (k : EdKind) (h : e.ge ≤ 2) : Next (edState e (edCmd k)) 0 0 (edCmd k) [] [(.fib 0, 9)] := by
  refine ⟨by simp [edState], by simp [edState, State.ctx], rfl, rfl, ⟨rfl, rfl⟩, .inl rfl, fun d hd => ?_⟩
  have h4 : d < 4 := Nat.lt_of_lt_of_le hd (Nat.pow_le_pow_right (by decide) h)
  match d, h4 with
  | 0, _ | 1, _ | 2, _ | 3, _ => rfl

theorem witness_eddy_issue : (eddyForms (.edgate {} {} 2 9 12 8 1)).isSome ∧ demo.heldHere .eddy = false ∧
    ptrCheck demoBlock [0] (firstView.2.2.r64 2) 0 32 false ≠ .ok (ptrSpace (firstView.2.2.r64 2)) ((firstView.2.2.r64 2).extractLsb' 0 56).toNat ∧
    ptrCheck demoBlock [0] (firstView.2.2.r64 4) 0 32 false = .ok (ptrSpace (firstView.2.2.r64 4)) ((firstView.2.2.r64 4).extractLsb' 0 56).toNat ∧
    demo.mayReadNow demoBlock (.fib 0) = true ∧
    (demo.getSpan demoBlock (.fib 0) (demo.chkSpan demoBlock (firstView.2.2.r64 4) 32 false) = .ok (List.replicate 32 0)) ∧
    (demo.ed 0 3).cmds = [] := by decide +kernel

/-- A slot in each state, operands of a map write that fit and that do not, and descriptors that are good and not. -/
theorem witness_eddy_slots : (edState {} (edCmd .norm)).ed 0 0 = { cmds := [edCmd .norm] } ∧ (edSlot 0 0).st = .ready ∧
    { edSlot 0 0 with st := .broken }.st = .broken ∧ qubits (edSlot 0 0) = 13 ∧ (edSlot 0 0).pi.length = 13 ∧
    (let a : W32 := 0x0C00; a.extractLsb' 6 2 = 0 ∧ a.extractLsb' 14 18 = 0 ∧ (a.extractLsb' 0 6).toNat < 13 ∧ (a.extractLsb' 8 6).toNat < 13 ∧
      a.extractLsb' 0 6 ≠ a.extractLsb' 8 6) ∧ ¬ ((0x0D00 : W32).extractLsb' 8 6).toNat < 13 ∧
    demo.stage = .stage2 ∧ { demo with stage := .stage1 }.stage ≠ .stage2 := by decide +kernel

theorem witness_descriptors : good demo 0x10000 21 2 9 511 ∧ ¬ good demo 0x10000 22 0 0 0 ∧ ¬ good demo 0x10040 0 0 0 0 := by
  unfold good; decide +kernel

/-- Tables that map the first 2 MiB of context 0, and none. -/
def mapped : State :=
  { paged with mem := ((Mem.write [] 0x20000 (leBytes 8 0x21001)).write 0x21000 (leBytes 8 0x22001)).write 0x22000 (leBytes 8 0x20000F) }
theorem witness_eddy_walk : demo.edWalk 0 (edSlot 0 0) = .absent ∧
    (match mapped.edWalk 0 (edSlot 0 0) with | .ok _ => true | _ => false) = true := by decide +kernel

theorem region_of (s : State) (e : EdSlot) (n : Nat) (hn : e.lines = n) (hs : n ≤ 1024) (h : ∀ i < n, e.linePa i = 0x210000 + 128 * i)
    (hx : e.xl ≠ []) (hb : s.edBad e = false) (hh : s.edHeld 0 e = false) : Region s 0 e := by
  subst hn
  refine ⟨hx, hb, hh, fun i hi => ?_, fun i j hi hj hij => ?_⟩
  · rw [h i hi]
    refine ⟨by omega, ?_⟩
    simp only [isMg, mgBase, Bool.and_eq_false_iff]
    exact .inl (decide_eq_false (by omega))
  · rw [h i hi, h j hj] at hij
    omega

theorem region_one : let s := edState (edSlot 0 0) (edCmd .norm); Region s 0 (s.ed 0 0) :=
  region_of _ _ 512 (by decide +kernel) (by decide) (by decide +kernel) (by decide) (by decide +kernel) (by decide +kernel)
theorem region_two : let s := edState (edSlot 1 0) (edCmd .norm); Region s 0 (s.ed 0 0) :=
  region_of _ _ 1024 (by decide +kernel) (by decide) (by decide +kernel) (by decide) (by decide +kernel) (by decide +kernel)

/-- A gate on one qubit of the device, one whose qubit is a die bit, a swap, a measurement and a normalisation; a swap with
another device. -/
theorem witness_amplitudes : (edState (edSlot 0 0) (edCmd .norm)).memsOk = true ∧
    ([12].zipIdx.map fun x => x.1 * 256 ^ x.2).sum = 12 ∧ near (edSlot 1 0) = 13 ∧ (edSlot 1 0).pi.getD 13 13 = 13 ∧
    (∀ y, 12 < y → y < 13 → y ∈ ([13] : List Nat)) ∧
    (let a : W32 := 0x0C00; a.extractLsb' 6 2 = 0 ∧ a.extractLsb' 14 18 = 0 ∧ (a.extractLsb' 0 6).toNat < 13 ∧ (a.extractLsb' 8 6).toNat < 13) ∧
    (edSlot 0 0).gd = 0 ∧ (∀ q ∈ (edSlot 0 0).pi, q < qubits (edSlot 0 0)) ∧ (edSlot 0 1).gd ≠ 0 ∧ (3 : Nat) ≠ (EdKind.norm).num ∧
    ((List.range (2 ^ local' (edSlot 0 1))).filter fun j => exchange 0 13 (whole (edSlot 0 1) j) / 2 ^ local' (edSlot 0 1) != 0).length = 4096 := by
  refine ⟨by decide +kernel, by decide, by decide, by decide, fun y _ _ => by omega, by decide +kernel⟩

/-- A command that waits, between two devices, for the halves of a swap or for partial sums. -/
def edWaiting (k : EdKind) (w : EdWait) : State := edState (edSlot 0 1) { edCmd k with begun := true, wait := some w }
theorem region_landing : let s := edWaiting (.swap 0x0D00) (.swap 0 13 256); Region s 0 (s.ed 0 0) :=
  region_of _ _ 512 (by decide +kernel) (by decide) (by decide +kernel) (by decide) (by decide +kernel) (by decide +kernel)
theorem region_sums : let s := edWaiting (.meas 0) (.sums [(1, 2)]); Region s 0 (s.ed 0 0) :=
  region_of _ _ 512 (by decide +kernel) (by decide) (by decide +kernel) (by decide) (by decide +kernel) (by decide +kernel)
theorem witness_eddy_landing : (edWaiting (.swap 0x0D00) (.swap 0 13 256)).memsOk = true ∧ 0 < qubits (edSlot 0 1) ∧ 13 < qubits (edSlot 0 1) ∧
    (List.replicate 4096 (0 : W64)).length ≤ 16 * 256 ∧ (edWaiting (.meas 0) (.sums [(1, 2)])).memsOk = true ∧
    (List.replicate 1 (0 : W64)).length = (2 ^ (edSlot 0 1).gd - 1) * 2 ^ ((edSlot 0 1).m + (edSlot 0 1).ge) := by decide +kernel

/-- Parties that have nothing left in a slot and nothing at Eddy's port. -/
theorem witness_edsync : demo.views {} ≠ [] ∧ (∀ c ∈ (demo.ed 0 1).cmds, c.core ≠ 0) ∧ ∀ q ∈ demoBlock.q, q.push = [] := by decide +kernel

/-! ### Links and remote memory -/

/-- A flit, whole or with a CRC that fails. -/
def flitOf (seq : Nat) (ok : Bool) : Flit :=
  let f := sealFlit { seq := BitVec.ofNat 12 seq, ack := 1, type := 1, dst := 1, src := 0, tag := 5, sld := 0, ctx := 0
                      payload := List.replicate 128 0, crc := 0 }
  if ok then f else { f with crc := ~~~f.crc }
/-- A port that is UP with two flits to acknowledge, and every other port UP. -/
def upPort : Port := { st := .up, seq := 2, ack := 4, buf := [flitOf 1 true, flitOf 2 true], fails := 16 }
def linked (p : Port) : State := { demo with ports := p :: List.replicate 25 { st := .up } }

theorem witness_link_control : demoCox.ports.length = 26 ∧ (demoCox.ctx 0).priv = true ∧
    (let s := { demoCox with ctxs := List.replicate 64 {} }; (s.ctx 0).priv = false) ∧ (linkOps (.lkctlUp {} 1 2 3)).isSome := by decide +kernel

/-- A flit with its CRC is whole, and one with another CRC is not. -/
theorem whole_flit (n : Nat) : flitGood (flitOf n true) = true := by
  simp [flitGood, flitOf, sealFlit, headerBytes, flitHeader]
theorem broken_flit (n : Nat) : flitGood (flitOf n false) = false := by
  have h (c : BitVec 32) : ~~~c ≠ c := fun h => by
    have := congrArg (BitVec.getLsbD · 0) h
    simp at this
  simp [flitGood, flitOf, sealFlit, headerBytes, flitHeader, h]
theorem witness_flits : let s := linked upPort
    s.shapeOk = true ∧ (s.port 0).st = .up ∧ (flitOf 5 true).seq = (s.port 0).ack + 1 ∧ flitGood (flitOf 5 true) = true ∧
    NoneAgain s ∧ (s.port 0).asking = false ∧ (s.port 0).closing = false ∧ Acks (s.port 0).buf (flitOf 5 true).ack [flitOf 2 true] ∧
    flitGood (flitOf 5 false) = false ∧ (flitOf 6 true).seq ≠ (s.port 0).ack + 1 ∧ (s.port 0).buf.length < 2048 ∧ 16 ≤ (s.port 0).fails ∧
    2048 ≤ { upPort with buf := List.replicate 2048 (flitOf 1 true) }.buf.length ∧ s.outstanding = [] := by
  refine ⟨by decide +kernel, by decide +kernel, by decide +kernel, whole_flit 5, by unfold NoneAgain; decide +kernel, by decide +kernel,
    by decide +kernel, .inl ⟨[], flitOf 1 true, rfl, by decide +kernel, by simp⟩, broken_flit 5, by decide +kernel, by decide +kernel,
    by decide +kernel, (List.length_replicate (n := 2048)).ge, by decide +kernel⟩

theorem witness_training : let s := { linked { st := .training } with ldies := [{ cyc := 16777216 }, {}] }
    s.shapeOk = true ∧ (s.port 0).st = .training ∧ (s.port 0).train + 2 ^ 24 ≤ (s.ldie (portLdie 0)).cyc.toNat := by decide +kernel

/-- A port that fails with a request outstanding, whose port is then the next. -/
def asked : Outstanding := { ldie := 0, tag := 5, dev := 0, va := 0, ctx := 0, core := 0, slot := 0, issue := 7, pc := 0, parties := [.fib 1]
                             lane := 1, op := .read 4, port := 0 }
theorem witness_port_fail : let s := { linked upPort with outstanding := [asked] }
    NextUp { s with ports := s.ports.set 0 {} } asked.dev 0 1 ∧ Room s asked.ctx 1 ∧ asked.tag < 256 ∧ asked.dev < 1024 ∧
    ∃ f ∈ (s.port 0).buf, CarriesRequest f asked := by
  refine ⟨⟨by decide, by unfold usable; decide +kernel, fun m hm => ?_⟩, by unfold Room; decide +kernel, by decide, by decide,
    flitOf 1 true, .head _, by unfold CarriesRequest; decide +kernel⟩
  have h18 := hm.1
  have h0 : m ≠ 0 := by rintro rfl; exact absurd hm.2.1 (by decide +kernel)
  omega

/-- A request of another device that comes first, and one that comes again. -/
def request (op : RemoteOp) (again : Bool) : RemoteReq := { src := 1, sld := 0, tag := 5, ctx := 0, va := 0x5040, op := op, resent := again }
def remote : State := { paged with ports := List.replicate 26 { st := .up } }
theorem witness_remote_request : remote.shapeOk = true ∧ NextUp remote 1 ((1 + 0x5040 / 128 % 64) % 18) 15 ∧ Room remote 0 15 ∧
    (remote.ctx 0).st = .running ∧ remote.replies = [] ∧ (let s := { remote with replies := [(1, 0, 5, .bad)] }; (1, 0, 5, .bad) ∈ s.replies) ∧
    remote.walk 0 0x5040 = some ⟨12, 0x10000, 0x1000F⟩ ∧ remote.walk 0 0x6000 = none ∧
    (⟨12, 0x10000, 0x1000F⟩ : Leaf).check .write false 0x5040 = .ok 0x10040 ∧ (⟨12, 0x10000, 0x10009⟩ : Leaf).check .write false 0x5040 = .fault 3 ∧
    remote.lineHeld 0 0x10040 = false ∧ isMg 0x10040 = false ∧ remote.bad 0x10040 4 = false ∧
    { remote with poison := [0x10040 / 8] }.bad 0x10040 4 = true := by
  refine ⟨by decide +kernel, ⟨by decide, by unfold usable; decide +kernel, fun m hm => ?_⟩, by unfold Room; decide +kernel, ?_⟩
  · have := hm.1; omega
  · decide +kernel

/-- R398: a port whose replay buffer holds a request's flit fails, and one without; and a device that every plane reports
unreachable, or whose flit has waited 2^20 cycles, is lost, where a flit of 2^20 − 1 cycles still waits. -/
def lone (f : Flit) (c : W64) : State :=
  { linked { upPort with buf := [f] } with quiet := [(1, 0, 7)], ldies := [{ cyc := c }, {}] }
theorem witness_lost : let f : Flit := { seq := 1, ack := 0, type := 1, dst := 1, src := 0, tag := 5, sld := 0, ctx := 0, payload := [], crc := 0 }
    CarriesRequest f asked ∧ NoneAgain (lone f 0) ∧ Lost (lone f 1048583) 1 ∧ ¬ Lost (lone f 1048582) 1 ∧
    Lost { demo with unreach := (List.range 18).map fun p => (1, p) } 1 ∧ ¬ Lost demo 1 := by
  refine ⟨by unfold CarriesRequest; decide, by unfold NoneAgain; decide, .inr ⟨0, 7, by decide, by decide, .inl ⟨0, by decide, by decide, ?_⟩⟩, ?_,
    .inl (by decide), ?_⟩
  · exact ⟨_, List.mem_singleton.2 rfl, rfl⟩
  · rintro (h | ⟨l, c, h, hc, -⟩)
    · exact absurd (h 0 (by decide)) (by decide)
    · obtain ⟨rfl, rfl⟩ : l = 0 ∧ c = 7 := by simpa [lone] using h
      exact absurd hc (by decide)
  · rintro (h | ⟨l, c, h, -⟩)
    · exact absurd (h 0 (by decide)) (by decide)
    · exact absurd h (by simp [show demo.quiet = [] from rfl])

/-- The fields of a header stand where Table 23-1 puts them, and the ports of trunks 0–2 lie on L-die 0 (R394, R395). -/
theorem test_flit_header : let h := flitHeader { flitOf 5 true with ack := 3, dst := 0x155, src := 0x2AA, sld := 1, ctx := 9 }
    h.extractLsb' 84 12 = 5 ∧ h.extractLsb' 72 12 = 3 ∧ h.extractLsb' 68 4 = 1 ∧ h.extractLsb' 58 10 = 0x155 ∧ h.extractLsb' 48 10 = 0x2AA ∧
    h.extractLsb' 40 8 = 5 ∧ h.extractLsb' 39 1 = 1 ∧ h.extractLsb' 26 6 = 9 ∧ h.extractLsb' 32 7 = 0 ∧ h.extractLsb' 0 26 = 0 ∧
    ∀ p < 18, portLdie p = (if trunkOf p < 3 then 0 else 1) ∧ 3 * trunkOf p + railOf p = p := by decide

/-- The wait for a destination begins with a flit, and ends when it is acknowledged (R398). -/
theorem test_quiet : let s := linked { upPort with buf := [] }
    (s.sendFlit 0 3 1 0 0 0).quiet = [(1, 0, 0)] ∧ ((s.sendFlit 0 3 1 0 0 0).acked 0 ((s.port 0).seq + 1)).quiet = [] := by decide +kernel

/-- R398: a request to device 1 passes over the port on which its plane reports it unreachable, until it reports it reached. -/
theorem test_plane_report : remote.pickPort 1 15 = some 15 ∧ (remote.planeReport 1 15 false).pickPort 1 15 = some 16 ∧
    (remote.planeReport 1 15 false).pickPort 2 15 = some 15 ∧
    ((remote.planeReport 1 15 false).planeReport 1 15 true).pickPort 1 15 = some 15 := by decide +kernel

/-- Replies: to nothing outstanding; to a write, an atomic and a read; and a fault. -/
def remotePend : Pend := { loadPend with kind := .load (.remote 1 0x5040) .b32 none none false, data := none }
def askedFor (op : RemoteOp) : State :=
  { device { demoBlock with fibres := (List.range 4).map fun i => { demoFibre i with sb := [(9, 7)] } } .none with
    outstanding := [{ asked with op := op, tags := [(.fib 1, 9)], lanes := [{ who := .fib 1, lane := 1, dst := 9, b := 0, c := 0 }] }]
    pends := [remotePend] }
theorem witness_remote_reply : (demo.outstanding.find? fun o => o.ldie == 0 && o.tag == 5) = none ∧
    (∀ op ∈ [RemoteOp.read 4, .write [(0, 1)], .atomic .add .n32 [(1, 0)]],
      ((askedFor op).outstanding.find? fun y => y.ldie == 0 && y.tag == 5).isSome) ∧
    (∃ f ∈ (askedFor (.write [])).fibAt 0 0 1, (9, asked.issue) ∈ f.sb) ∧ remotePend.gather = false ∧
    ((askedFor (.read 4)).pends.find? fun q => q.issue == asked.issue && q.core == 0 && q.slot == 0 && q.lane == asked.lane) = some remotePend ∧
    ((askedFor (.read 4)).block? 0 0).isSome ∧ asked.parties = [.fib 1] ∧ asked.lanes = [] ∧ asked.coll = none ∧ asked.acq = none ∧ asked.buf = false ∧
    1 ∉ demo.lostDevs ∧ demo.outstanding = [] ∧ (∀ c ∈ demo.ctxs, ∀ e ∈ c.eddy, 1 ∉ e.devs) ∧ 1 ∈ { demo with lostDevs := [1] }.lostDevs := by
  decide +kernel

/-- A read that fails has nothing else of its issue on the way. -/
theorem witness_remote_fault : let s := askedFor (.read 4)
    NothingElse s asked 1 ∧ (∀ p ∈ demoBlock.parts, p.windows = []) ∧ (s.ctx 0).st ≠ .killing ∧ (s.block? 0 0).isSome ∧
    asked.gath = [] ∧ asked.pools = [] ∧ asked.also = [] := by
  unfold NothingElse; decide +kernel

/-! ### Collectives and Ultra Ethernet -/

/-- A descriptor of each kind of Table of R404: a space that engines do not use, reserved bits, off its boundary, in the
scratchpad, of another device, and in global memory. -/
theorem witness_descriptor_reads (w : Who) (hw : w = .fib 0 ∨ w = .cox) :
    Described demo demoBlock w 0x4000000000000000 (some 0x07500000) none ∧
    Described demo demoBlock w 0x0100000000000000 (some 0x07000000) none ∧
    Described demo demoBlock w 0x1000000000000010 (some 0x07200000) none ∧
    Described demo demoBlock w 0x1000000000000FC0 none (some (List.replicate 64 0)) ∧
    Described demo demoBlock w 0x00E0000000000000 (some 0x07500000) none ∧
    Described demo demoBlock w 0x10040 none (some (List.replicate 64 0)) := by
  rcases hw with rfl | rfl <;>
  exact ⟨.space (by decide), .wild (by decide) (by decide), .crooked (by decide) (by decide) (by decide),
    .scratch (by decide) (by decide) (by decide) (by decide) (by decide +kernel), .far (by decide) (by decide) (by decide) (by decide),
    .global (by decide) (by decide) (by decide) (by decide) (by decide +kernel) (by decide +kernel)⟩

theorem witness_collective : (collForms (.collRed {} {} 9 4)).isSome ∧ demo.shapeOk = true ∧ demo.held 0 4 .coll = false ∧
    demo.mayReadNow demoBlock (.fib 0) = true ∧ firstView.2.2.r64 4 = 0x10040 ∧ (demo.views {}).head? = some firstView := by
  refine ⟨rfl, ?_⟩; decide +kernel

/-- Port 0 of L-die 0 with a command of each clause. -/
def collPort (f : W64) : State := { demo with cmds := [portCmd .coll [0x10040, f]] }
theorem witness_collective_port : (∀ n ∈ [0x700000000, 0x800000001, 0x100000000, 5], let f := BitVec.ofNat 64 n
      AtHead (collPort f) 0 0 (portCmd .coll [0x10040, f]) demoBlock [0x10040, f]) ∧
    (4 < ((0x700000000 : W64).extractLsb' 32 3).toNat) ∧ (0x100000000 : W64).extractLsb' 4 28 = 0 ∧ (0x100000000 : W64).extractLsb' 37 27 = 0 ∧
    scopeOf ((0x100000000 : W64).extractLsb' 32 3) = some .clu ∧
    (collPort 0x100000000).settled 0 0 (portCmd .coll []).after .core = true := by
  unfold AtHead; decide +kernel

/-- Members 0 and 1 of three of a reduction and of a copy, whose buffers are in the scratchpad; they still wait for the fields of
some devices. -/
def member (kind rank : Nat) (meet : List Nat) : CollCmd :=
  { id := 7, ldie := 0, core := 0, slot := 0, ctx := 0, kind := kind, parties := [.fib 0], ptr := 0x10040, o := {}, dest := .regs [(.fib 0, 9)]
    desc := some (leBytes 8 0x1000000000000000 ++ leBytes 8 0x1000000000000800 ++ leBytes 4 256 ++ leBytes 2 3 ++ leBytes 2 rank ++ List.replicate 40 0)
    mem := [0, 1, 2], started := true, meet := meet }
def inRing (c : CollCmd) : State := { demo with colls := [c] }
theorem witness_members : (∀ k < 4, let c := member k 0 []
      c.started = true ∧ c.status = none ∧ c.todo = [] ∧ c.inbox = [] ∧ c.tell = [] ∧ c.meet = []) ∧
    1 ∈ (member 0 0 [1, 2]).meet ∧ 1 ∉ (member 0 0 [2]).meet ∧ { Claims.fieldsOf (member 0 0 []) with seq := 1 } ≠ Claims.fieldsOf (member 0 0 []) ∧
    (inRing (member 0 0 [])).block? 0 0 = some demoBlock ∧ ((inRing (member 0 0 [])).ctx 0).st = .running ∧ (member 0 0 []).seen = [] := by
  decide +kernel

/-- Blocks 1 and 2 of a reduction: the last place and one before it; a unit of another's part, and one of the root's. -/
theorem witness_blocks : (∀ n ∈ [1, 2], let c := member 0 0 []
      n < c.count / 32 ∧ (c.rank + c.g - n % c.g) % c.g = 3 - n ∧ c.g = 3 ∧
      (inRing c).bufRead demoBlock (c.p 0) (128 * n) 128 = .ok (List.replicate 128 0)) ∧
    (let c := { member 2 0 [] with seen := [2] }; 0 < c.count / 128 ∧ 3 / (c.count / 128) < c.g ∧ 3 / (c.count / 128) ≠ c.rank ∧ 3 - 1 ∈ c.seen) ∧
    (let c := { member 3 1 [] with seen := [0] }; c.rank ≠ 0 ∧ 1 < c.count / 128 ∧ 1 ∉ c.seen ∧ 1 - 1 ∈ c.seen) := by decide +kernel

/-- Port 1 of L-die 0 with a command of each operation: reserved bits, an operation that a context without privilege may
not use, and each operation with its peer record. -/
def uePort (priv : Bool) (f : W64) : State :=
  { demo with
    cmds := [{ portCmd .coll [0x1000000000000000, 0x1000000000000000, f] with port := 1 }]
    ports := List.replicate 26 { st := .up }
    windows := ({ owner := some 0, key := 0, base := 0x10040, len := 64 } : RmaWin) :: List.replicate 63 {}
    ctxs := { st := .running, priv := priv } :: List.replicate 63 {} }
theorem witness_ue_port : (∀ n ∈ [0x100000010, 0x10, 0x4000000000000010, 0x8000000000000010, 0xC000000000000000], let f := BitVec.ofNat 64 n
      AtHead (uePort true f) 0 1 { portCmd .coll [0x1000000000000000, 0x1000000000000000, f] with port := 1 } demoBlock
        [0x1000000000000000, 0x1000000000000000, f]) ∧
    (let s := uePort true 0x10
     Peer s demoBlock 0x1000000000000000 (List.replicate 64 0) ∧ ueBad demoBlock 0x1000000000000000 16 false = none ∧
     ueBad demoBlock 0x1000000000000000 16 true = none ∧ s.bufRead demoBlock 0x1000000000000000 0 16 = .ok (List.replicate 16 0) ∧
     portLdie (18 + 0) = 0 ∧ (s.port 18).st = .up ∧ s.windows.length = 64 ∧ (win s 0).owner = some 0 ∧ (win s 1).owner = none ∧
     (s.ctx 0).priv = true ∧ ((uePort false 0).ctx 0).priv = false ∧ (∀ j < 1, (win s j).owner ≠ none)) ∧
    (let s := { demo with windows := List.replicate 64 { owner := some 0 } }; ∀ w ∈ s.windows, w.owner ≠ none) := by
  unfold AtHead Peer; decide +kernel

/-- Packets for a window that reach it and that do not, and messages. -/
theorem witness_ue_packets : let s := { uePort true 0 with rxBase := 0x10000, rxBufs := [false], hrq := [] }
    s.memsOk = true ∧ (win s 0).owner = some 0 ∧ (win s 0).key = 0 ∧ 8 + 4 ≤ (win s 0).len ∧ ¬ 61 + 4 ≤ (win s 0).len ∧
    (win s 0).base.extractLsb' 60 4 = 0 ∧ s.bad 0x10048 4 = false ∧ (s.port 18).st = .up ∧ s.hrq.length < 256 ∧
    s.rxBufs[0]? = some false ∧ s.rxBase.extractLsb' 60 4 = 0 := by decide +kernel
theorem witness_on_line : let s := { mapped with rxBase := 0x10000 }
    OnLine s 0 0x10048 4 .write 0x210048 ∧ OnLine s 0 0x10048 4 .read 0x210048 ∧ OnLine s 0 0x10000 64 .write 0x210000 :=
  ⟨⟨⟨21, 0x200000, 0x20000F⟩, by decide +kernel⟩, ⟨⟨21, 0x200000, 0x20000F⟩, by decide +kernel⟩, ⟨⟨21, 0x200000, 0x20000F⟩, by decide +kernel⟩⟩

/-! ### Traps, special registers and contexts -/

/-- The demo device after traps of its fibres, and with a trap vector. -/
def trapped : State :=
  device { demoBlock with
    fibres := (List.range 4).map fun i => { demoFibre i with x := { xf0 := 0x40000000, xcause := 8, xpc := 16 } }
    xvec := some 0x40 } (.part 0)
theorem witness_trapped : Issuing trapped { demoBlock with
      fibres := (List.range 4).map fun i => { demoFibre i with x := { xf0 := 0x40000000, xcause := 8, xpc := 16 } }
      xvec := some 0x40 } demoPart ∧
    (trapped.act {}).length = 4 ∧ (∀ x ∈ trapped.act {}, x.2.x.xcause.extractLsb' 0 8 ≠ 0) ∧
    resumeAt false { xf0 := 0x40000000, xpc := 16 } = 16 ∧ resumeAt true { xf0 := 0x40000000, xpc := 16 } = 28 :=
  ⟨⟨by decide +kernel, rfl, by decide +kernel⟩, by decide +kernel⟩
theorem witness_last_view : ((demo.views {}).getLast?).isSome ∧ ((demoCox.views {}).getLast?).isSome ∧ demo.views {} ≠ [] ∧
    (0x0A : BitVec 8) ≠ 0x09 := by decide +kernel

/-- Context 0, created by context 1, whose fault queue has room. -/
def overseen (s : State) : State :=
  { s with ctxs := { st := .running, priv := true, creator := some 1 } :: List.replicate 63 { st := .running, priv := true } }
theorem witness_faults : QueueRoom (overseen demo) 0 1 ∧ (overseen demo).me = some demoBlock ∧ (demoBlock.fib? 1).isSome ∧
    demoBlock.xvec = none ∧ (∃ b ∈ trapped.me, b.xvec = some 0x40 ∧ (b.fib? 1).isSome) ∧ (overseen demoCox).cur.th = .cox ∧
    (overseen demoCox).me = some demoBlock ∧ (0x11 : BitVec 8) ≠ 0x06 := by unfold QueueRoom; decide +kernel

/-- Context 0, whose cox thread issues, and a context 3 in a state of its own: created by 0, or by 1. -/
def ward (st : CtxSt) : Ctx := { st := st, creator := some 0, root := some 0x20000 }
def governed (s : State) (c : Ctx) : State :=
  { s with ctxs := { st := .running, priv := true } :: {} :: {} :: c :: List.replicate 60 {} }
theorem supervises (st : CtxSt) : Supervises (governed demoCox (ward st)) demoBlock :=
  ⟨⟨by cases st <;> decide +kernel, rfl⟩, by cases st <;> decide +kernel, by cases st <;> decide +kernel, by decide,
    by cases st <;> decide +kernel⟩
theorem supervises_other : Supervises (governed demoCox { ward .ready with creator := some 1 }) demoBlock :=
  ⟨⟨by decide +kernel, rfl⟩, by decide +kernel, by decide +kernel, by decide, by decide +kernel⟩
theorem witness_context_forms : named demoBlock 6 = 3 ∧ (ctxOps (.ctxctlStart {} 10 6 0)).isSome ∧ (ctxOps (.ctxctlReflect {} 10 6 0)).isSome ∧
    (∀ st, ((governed demoCox (ward st)).ctx 3).creator = some 0) ∧ (∀ st, ((governed demoCox (ward st)).ctx 3).st = st) ∧
    ((governed demoCox { ward .ready with creator := some 1 }).ctx 3).creator ≠ some 0 ∧
    ((governed demoCox (ward .ready)).ctx 3).root ≠ none := by
  refine ⟨by decide +kernel, rfl, rfl, fun st => by cases st <;> decide +kernel, fun st => by cases st <;> decide +kernel, by decide +kernel,
    by decide +kernel⟩

/-- A creation: one that asks for a privilege that its context has not, one with no context free, and one with context 1 free. -/
theorem witness_creations :
    (let s := { demoCox with ctxs := { st := .running } :: List.replicate 63 {} }
     (s.ctx 0).priv = false ∧ (demoBlock.cox.reg 6).getLsbD 0 = true ∧ (demoBlock.cox.reg 0).getLsbD 0 = false) ∧
    (∀ m < 64, (({ demoCox with ctxs := List.replicate 64 { st := .running, priv := true } } : State).ctx m).st ≠ .free) ∧
    (let s := governed demoCox (ward .ready); (s.ctx 1).st = .free ∧ (s.ctx 0).priv = true ∧ ∀ m < 1, (s.ctx m).st ≠ .free) := by
  decide +kernel

/-- A running context 3 with a block on core 1, whose fibres and cox thread are parked, and one that waits for a page. -/
def wardBlock (cox : Bool) : Block :=
  { demoBlock with
    core := 1, ctx := 3, xvec := some 0x40
    fibres := (List.range 4).map fun i => { demoFibre i with life := .parked, wait := some (.fault 6 1 5) }
    cox := if cox then { demoCoxThread with wait := some (.fault 6 1 5) } else demoCoxThread }
def wardState (st : CtxSt) : State := let s := governed demoCox (ward st); { s with blocks := s.blocks ++ [wardBlock true] }
theorem witness_parked : let s := wardState .running
    Supervises s demoBlock ∧ s.block? 1 0 = some (wardBlock true) ∧ (wardBlock true).ctx = 3 ∧ (wardBlock true).xvec = some 0x40 ∧
    (∀ f ∈ (wardBlock true).fibres, s.heldBack 3 1 0 (.fib f.fid) = false ∧ (wardBlock true).fib? f.fid = some f ∧
      f.wait = some (.fault 6 1 5)) ∧ s.heldBack 3 1 0 .cox = false ∧ (wardBlock true).cox.wait = some (.fault 6 1 5) ∧
    ∀ f ∈ demoBlock.fibres, f.wait = none := by
  refine ⟨⟨⟨by decide +kernel, rfl⟩, by decide +kernel, by decide +kernel, by decide, by decide +kernel⟩, by decide +kernel⟩

/-- A stopped context that has a block on a becalmed core. -/
theorem witness_becalmed_stopped : let s := { wardState .stopped with cores := (wardState .stopped).cores.set 1 { becalmed := true, wake := 1 } }
    (s.ctx 3).st = .stopped ∧ wardBlock true ∈ s.blocks ∧ (s.core 1).becalmed = true ∧ (s.core 1).wake ≠ 0 := by decide +kernel

/-- Drains that are not over, and that are: of a context to stop and of one to end. -/
theorem witness_drains : (wardState .running).shapeOk = true ∧
    ({ wardState .draining with pends := [{ loadPend with core := 1 }] } : State).drained' 3 = false ∧
    (wardState .draining).drained' 3 = true ∧ ((wardState .draining).ctx 3).st = .draining ∧
    (wardState .killing).drained' 3 = true ∧ ((wardState .killing).ctx 3).st = .killing ∧ demoBlock.ctx ≠ 3 ∧
    ∀ x ∈ (wardState .killing).blocks, x.ctx = 3 → x.core ≠ demoBlock.core ∨ x.slot ≠ demoBlock.slot := by decide +kernel

/-- An area that is not aligned, and one that is; the image is as long as its opaque length says, so that an area of no
room either lacks room or has it. -/
theorem witness_images : let s := governed demoCox (ward .stopped)
    (∀ n, s.areaOk demoBlock 0x10040 n .write = some false) ∧ s.areaOk demoBlock 0x10000 (Nat.min (imageLen (s.ctx 3).imgSeed) 0) .write = some true ∧
    (0 < imageLen (s.ctx 3).imgSeed ∨ imageLen (s.ctx 3).imgSeed ≤ 0) := by
  refine ⟨fun n => rfl, ?_, by omega⟩
  have : Nat.min (imageLen ((governed demoCox (ward .stopped)).ctx 3).imgSeed) 0 = 0 := Nat.min_zero _
  simp only [this]; decide +kernel

/-- A saved context of one block, with an image of n bytes. -/
def savedOf (n : Nat) : Saved :=
  { ctx := 3, va := 0x10000, len := n, seed := 0, blocks := [wardBlock false], groups := [], arrs := [], banks := [], cmds := [], drains := [], lates := [] }
def savedState (n : Nat) (v : Byte) : State := let s := governed demoCox (ward .saved); { s with saved := [savedOf n], mem := if v = 0 then [] else [(0x10000, v)] }
theorem witness_saved : let s := savedState 1 0
    (s.saved.find? fun y => y.ctx == 3) = some (savedOf 1) ∧ (s.ctx 3).st = .saved ∧ s.areaOk demoBlock 0x10040 1 .read = some false ∧
    s.areaOk demoBlock 0x10000 1 .read = some true ∧ s.fitAll (savedOf 1).blocks = true ∧
    ({ s with blocks := s.blocks ++ [wardBlock false] } : State).fitAll (savedOf 1).blocks = false := by decide +kernel
/-- Whatever the byte of the opaque image is, one memory holds it and one does not. -/
theorem witness_image_bytes : (∃ v, (savedState 1 v).getArea demoBlock 0x10000 1 = [Config.imageByte 0 0]) ∧
    ∃ v, (savedState 1 v).getArea demoBlock 0x10000 1 ≠ [Config.imageByte 0 0] := by
  have h : ∀ n < 256, (savedState 1 (BitVec.ofNat 8 n)).getArea demoBlock 0x10000 1 = [BitVec.ofNat 8 n] := by decide +kernel
  have g : ∀ v : Byte, (savedState 1 v).getArea demoBlock 0x10000 1 = [v] := fun v => by
    simpa using h v.toNat v.isLt
  exact ⟨⟨_, g _⟩, Config.imageByte 0 0 + 1, by rw [g]; simp⟩
theorem witness_roots : (demoBlock.cox.reg 0).extractLsb' 0 12 = 0 ∧ (demoBlock.cox.reg 4).extractLsb' 0 12 ≠ 0 ∧
    (let s := governed demoCox (ward .ready); ∀ e ∈ (s.ctx 3).eddy, e.cmds = [] ∨ e.xl = []) := by decide +kernel

theorem witness_strokes : let s := { demo with cdies := List.replicate 4 { strokeDue := true }, ldies := List.replicate 2 { strokeDue := true } }
    s.shapeOk = true ∧ (s.cdie 0).strokeDue = true ∧ (s.ldie 0).strokeDue = true ∧ s.mgWaiting = [] ∧ 0 < s.ctxs.length := by decide +kernel

/-! ### Translations, handles and kernels -/

/-- A translation that is there and one that is not; a pointer of another device. -/
theorem witness_translations : demo.look 0 0 0x10040 = some ⟨12, 0x10000, 0x1000F⟩ ∧ tableVa demo 0x10040 = some 0x10040 ∧
    demo.look 0 0 0x90040 = none ∧ tableVa demo 0x1000000000000010 = none ∧ tableVa demo 0x00E0040000000000 = none ∧
    0x10000 + 0x10040 % 2 ^ 12 < 2 ^ 46 := by decide +kernel
theorem performed_governed : performedAt (governed demoCox (ward .ready)) demoBlock .cox .sys := performed_quiet (by decide +kernel)
theorem witness_invalidations : (demoCox.ctx 3).st = .free ∧ ((governed demoCox { ward .ready with creator := some 1 }).ctx 3).creator ≠ some 0 ∧
    (let s := governed demoCox (ward .ready); named demoBlock 6 = 3 ∧ (s.ctx 3).st ≠ .free ∧ (s.ctx 3).creator = some 0 ∧ ∀ e ∈ (s.ctx 3).eddy, e.cmds = [] ∨ e.xl = []) ∧
    (let x := demoBlock.cox.reg 0; x.extractLsb' 56 8 = 0 ∧ x.extractLsb' 0 12 = 0) ∧
    ¬ ((demoBlock.cox.reg 4).extractLsb' 0 12 = 0) := by
  decide +kernel

/-- Context 0 with a table of one entry in the page at 0x10000: a handle to the line at 0x10040. -/
def handles : State :=
  { device { demoBlock with fibres := (List.range 4).map fun i =>
        { demoFibre i with regs := ((demoFibre i).regs.set 12 0).set 13 0x00010000 } } (.part 0) with
    mem := Mem.write [] 0x10000 (leBytes 8 0x10040 ++ leBytes 4 64 ++ leBytes 2 1 ++ [0, 1])
    ctxs := { st := .running, priv := true, hbase := 0x10000, hcount := 1 } :: List.replicate 63 {} }
theorem witness_handles : ∃ b ∈ handles.me, ∃ e,
    (match handles.getHandle b (.fib 0) 0 with | .ok e' => decide (e' = e) | _ => false) = true ∧ e.valid = true ∧
    handleInfo e 0x0001000000000000 0 4 = 0 ∧ handleInfo e 0x0001000000000000 64 4 = 1 ∧ (handles.ctx b.ctx).hcount ≤ 1 ∧
    Derefs handles {} b 12 1 4 false fun _ => .glob 0x10040 := by
  refine ⟨_, rfl, tableEntry 0 0 0x10040 64 1 0 1 (List.replicate 16 0), ?_⟩
  exact ⟨by decide +kernel, by decide +kernel, by decide +kernel, by decide +kernel, by decide +kernel, fun x hx =>
    ⟨some 0x10040, some (tableEntry 0 0 0x10040 64 1 0 1 (List.replicate 16 0)), by revert x; decide +kernel⟩⟩

/-- Forms that wait: for accesses still on their way and with none, to drop table entries and after that, and for a launch
that still runs and one that is over. -/
def lateTurn (k : LateKind) (ps : List Pend) : State :=
  { demo with agenda := [.late 0], pends := ps, lates := [{ issue := 7, core := 0, slot := 0, reg := 10, v := 0, kind := k }] }
theorem witness_lates : (lateTurn (.inval 0 9) []).inFlight 0 9 = false ∧
    (lateTurn (.inval 0 9) [{ loadPend with issue := 8 }]).inFlight 0 9 = true ∧
    (lateTurn (.launch 0 1) []).lates[0]? = some { issue := 7, core := 0, slot := 0, reg := 10, v := 0, kind := .launch 0 1 } ∧
    (lateTurn (.launch 0 0) []).agenda.head? = some (.late 0) ∧ (lateTurn (.handles 0 9 none false) []).stage ≠ .halted ∧
    (lateTurn (.handles 0 9 (some 1) true) []).inFlight 0 9 = false := by decide +kernel

/-! ### Launches, tiles and stages -/

/-- The bytes of a record with one fibre of 8 registers, one block and no relation. -/
def recBytes (nfib : Nat) (gbar : Byte) : List Byte :=
  leBytes 8 0x10000 ++ List.replicate 32 0 ++ leBytes 8 0x10000 ++ leBytes 4 32 ++ leBytes 4 0 ++ leBytes 4 0 ++ leBytes 4 nfib ++
  leBytes 4 1 ++ leBytes 4 1 ++ leBytes 2 1 ++ leBytes 2 8 ++ [0, 0, 0, 0, 0, gbar] ++ [4, 0, 0, 0, 0, 0, 0, 0] ++ List.replicate 6 0 ++
  leBytes 4 0 ++ List.replicate 28 0xFF
/-- A cox thread whose S4 points to a record; the launch is for its own context (S0). -/
def launcher (x : List Byte) (gown : Option Nat) : State :=
  { demoCox with
    mem := Mem.write [] 0x10040 x
    launches := []
    ctxs := { st := .running, priv := true, gown := List.replicate 4 gown } :: List.replicate 63 {} }
theorem witness_launcher : CoxIssuing (launcher (recBytes 1 0) none) demoBlock ∧ Released (launcher (recBytes 1 0) none) demoBlock :=
  ⟨⟨by decide +kernel, rfl⟩, by unfold noReads; decide +kernel, performed_quiet (by decide +kernel)⟩
theorem witness_launch : (launcher (recBytes 1 0) none).shapeOk = true ∧
    (∀ x ∈ [recBytes 1 0, recBytes 8193 0, recBytes 1 1, List.replicate 128 0], recordBytes (launcher x none) demoBlock 0x10040 x) ∧
    (krecOf (List.replicate 128 0)).invalid ≠ none ∧ (krecOf (recBytes 1 0)).invalid = none ∧
    128 * Nat.min 64 (4096 / (krecOf (recBytes 8193 0)).w.toNat) < (krecOf (recBytes 8193 0)).nfib.toNat ∧
    (∃ j < 4, (krecOf (recBytes 1 1)).gbar.getLsbD j = true ∧ (((launcher [] (some 1)).ctx 0).gown[j]?).getD none ≠ none) ∧
    (match (launcher (recBytes 1 0) none).launchChk demoBlock 0 0x10040 with
      | .ok r args => decide (r = krecOf (recBytes 1 0) ∧ args = [])
      | _ => false) = true := by
  unfold recordBytes; decide +kernel
/-- Launches turned away: of a context that is not a child, in a state without launches, with 16 of them. -/
theorem witness_launch_refused : (demoCox.ctx 3).creator ≠ some 0 ∧
    (let s := governed demoCox (ward .saved); (s.ctx 3).creator = some 0 ∧ ¬ ((s.ctx 3).st = .ready ∨ (s.ctx 3).st = .running)) ∧
    ¬ ((({ demoCox with launches := List.replicate 16 { ctx := 0, num := 1, kr := demoKernel, args := [] } } : State).launches.filter
      fun l => l.ctx == 0).length < 16) ∧ (demoBlock.cox.reg 2).extractLsb' 56 8 ≠ 0 := by decide +kernel

def waitingLaunch : Launch := { ctx := 0, num := 1, kr := krecOf (recBytes 1 0), args := [] }
def unplaced : State := { demo with blocks := [], launches := [waitingLaunch] }
def unplacedBlock : Block := waitingLaunch.block 0 (unplaced.freeSlot 0)
  (waitingLaunch.kr.blkAt (waitingLaunch.next * 2 ^ waitingLaunch.kr.clusz.toNat)) unplaced.nextId
/-- A launch that can be placed, with all its windows; with constants on no page; and with constants on another device, of which the
first line must be read. -/
theorem witness_placement : unplaced.nextLaunch = some waitingLaunch ∧ waitingLaunch.positions.length = 1 ∧ unplaced.placePtr < 16 ∧
    unplaced.clusterFor waitingLaunch.kr 1 0 = some [0] ∧ (0 + 15 - unplaced.placePtr) % 16 = 0 ∧
    (∀ q ∈ unplaced.blocks, q.core ≠ 0) ∧
    (match unplaced.imaged [] unplacedBlock with
      | .ok b => b.fibres.all fun f => f.win
      | _ => false) = true ∧
    (let place := fun (a : W64) => unplaced.imaged [] { unplacedBlock with kr := { unplacedBlock.kr with const := a, csize := 64 } }
     (match place 0x900000 with
       | .none => true
       | _ => false) = true ∧
     (match place 0x00E0040000000040 with
       | .need dev va n => dev == 1 && va == 0x40 && 0 < n
       | _ => false) = true) ∧
    (∀ o ∈ unplaced.outstanding, o.dev ≠ 1) ∧ Room (linked upPort) 0 2 ∧ NextUp (linked upPort) 1 1 1 := by
  refine ⟨by decide +kernel, by decide +kernel, by decide +kernel, by decide +kernel, by decide +kernel, by decide +kernel, by decide +kernel,
    by decide +kernel, by decide +kernel, by unfold Room; decide +kernel, by decide, by unfold usable; decide +kernel, fun m hm => ?_⟩
  have := hm.1; omega

/-- A killed context whose finished launch waits to write its record. -/
theorem witness_parked_launch : let s := { wardState .running with launches := [{ waitingLaunch with ctx := 3, st := .finishing 0, parked := true }] }
    (∃ l ∈ s.launches, l.ctx = 3 ∧ l.parked = true ∧ l.st = .finishing 0) ∧ (s.ctx 3).st ∈ [.running, .draining, .stopped, .saved] := by
  decide +kernel

/-- A block that is done and one that is not; a launch whose record is due, to a page that it may write and to one it may not. -/
def doneBlock : Block := { demoBlock with fibres := [], cox := { demoCoxThread with ended := true } }
def ending (done : W64) : Launch := { waitingLaunch with kr := { waitingLaunch.kr with done := done }, st := .finishing 1, ndone := 1 }
theorem witness_completion : (let s := device doneBlock .none; s.blockDone doneBlock = true ∧ (launchOf s 0 1 { waitingLaunch with kr := doneBlock.kr, st := .active, next := 1 })) ∧
    demo.blockDone demoBlock = false ∧ (demo.ctx 0).st ≠ .killing ∧
    (let s := overseen { demo with blocks := [], launches := [ending 0x10000] }
     s.memsOk = true ∧ launchOf s 0 1 (ending 0x10000) ∧ (match s.xl 0 0 0x10000 .write false with | .ok pa => pa == 0x10000 | _ => false) = true ∧
     isMg 0x10000 = false ∧ s.lineHeld 0 0x10000 = false) ∧
    (let s := overseen { demo with blocks := [], launches := [ending 0x90000] }
     launchOf s 0 1 (ending 0x90000) ∧ QueueRoom s 0 1 ∧ (match s.xl 0 0 0x90000 .write false with | .fault _ => true | _ => false) = true) := by
  unfold launchOf QueueRoom; decide +kernel

theorem witness_walks : let w : Walker := { n0 := 2, n1 := 2, n2 := 1, gone := [0, 3] }
    w.gone.Pairwise (· < ·) ∧ (∀ g ∈ w.gone, g < 4) ∧ w.gone.length < 4 ∧ w.n0 ≤ 2 ^ 20 ∧ ({ gone := [] } : Walker).gone.length = 0 * 0 * 0 := by
  decide +kernel
theorem witness_stages : (2 : BitVec 3).toNat < Nat.max ({ demoKernel with nstage := 3 } : KRec).nstage.toNat 1 ∧
    ¬ (2 : BitVec 3).toNat < Nat.max demoKernel.nstage.toNat 1 := by decide +kernel

/-! ### Bring-up, management and steps -/

theorem witness_stage0 : State.reset.stage = .stage0 ∧ demo.stage ≠ .stage0 ∧ State.reset.ctxs.length = 64 := by decide +kernel
/-- An image is in one of the four cases, whatever the opaque parts of its checks say. -/
theorem witness_firmware (x : List Byte) : Config.imageWellFormed x = false ∨ (Config.imageWellFormed x = true ∧ ¬ RsaSigned x) ∨
    (Config.imageWellFormed x = true ∧ RsaSigned x ∧ ¬ SlhSigned x) ∨ (Config.imageWellFormed x = true ∧ RsaSigned x ∧ SlhSigned x) := by
  cases Config.imageWellFormed x <;> by_cases h : RsaSigned x <;> by_cases g : SlhSigned x <;> simp [h, g]
theorem witness_booting : let s := { State.reset with stage := .stage1 }
    s.stage = .stage1 ∧ s.mgErr ≠ 4 ∧ s.shapeOk = true ∧ passed 0xF 0xFFF 0 ∧ ¬ passed 0xE 0xFFF 0 ∧ (s.port 0).st = .down ∧
    early 0x1000 ∧ ¬ early (2 ^ 45) := by unfold passed early; decide +kernel
theorem witness_temperatures : (let s := { demo with mgTemp := [115, 100, 0, 0], cdies := List.replicate 4 { hot := true } }
      s.stage = .stage2 ∧ 115 ≤ (byteAt s.mgTemp 0).toNat ∧ (byteAt s.mgTemp 1).toNat ≤ 100 ∧ (s.cdie 1).hot = true ∧ (s.cdie 0).hot = true ∧
      100 < (byteAt s.mgTemp 0).toNat ∧ 0 < s.cdies.length) := by decide +kernel
def aRecord : Rec := { w0 := 0, w1 := 0, w2 := 0, w3 := 0 }
theorem witness_error_records : demo.mgWaiting = [] ∧ (let s := { demo with mgWaiting := [aRecord], mgRecs := List.replicate 64 aRecord }
    s.mgRecs.length ≤ 64 ∧ s.mgRecs ≠ []) ∧ (let s := edState (edSlot 0 0) (edCmd .norm); s.shapeOk = true ∧ (s.ed 0 0).st = .ready ∧ 0 < 2 ^ (s.ed 0 0).ge) := by
  decide +kernel
theorem witness_canonical : (Mem.write [] 5 [1, 0, 2]).wf = true ∧ (Mem.write [] 5 [1, 0, 2]) = [(5, 1), (7, 2)] := by decide +kernel

/-- A step from a sound state. -/
theorem witness_step : let s := { demo with agenda := [.drain 0 0] }
    s.memsOk = true ∧ s.shapeOk = true ∧ s.placesOk = true ∧ (match step s with | .next _ => true | _ => false) = true := by decide +kernel

/-- Reset with an instruction placed, and its clauses: the turn, the checks, and each place where a fetch ends. -/
def placed (w : Nat) : State := State.reset.withFetchWord 64 w
def fetching (s : State) : State := { begun s [] with cur := { core := 0, slot := 0, th := .part 0 } }
theorem witness_turns : Turned (placed 0x00000014100C0080) (.issuePart 0 0 0) [] ∧ Offers 0 0 (.issuePart 0 0 0) (.part 0) ∧ Offers 0 0 (.issueCox 0 0) .cox :=
  ⟨⟨by decide +kernel, by decide +kernel⟩, .part, .cox⟩
theorem witness_fetch : let s := placed 0x00000014100C0080
    let s2 := fetching s
    outranked (begun s []) 0 0 (.part 0) = false ∧ s2.selectable = true ∧ s2.me = some oneBlock ∧ s2.threadPc.toNat = 0 ∧
    (match s2.xl 0 0 0x10000 .fetch false with | .ok pa => pa == 0x10000 | _ => false) = true ∧ s2.windowsOf 0 0 (.part 0) = [] ∧
    (let bytes := blockBytes (s2.codeBytes 0 0 0x10000 0x10000)
     let f := fieldsAt bytes 0
     let k := oneBlock.dctx true .fibre
     (match decode k bytes with | .ok (i, _, _) => i == .add {} { ty := .i32, d := 3, a := 4, b := .reg 5 } | _ => false) = true ∧
      s2.stateCheck oneBlock k f = none ∧ s2.scoreboard f.hd (readsAll f) (readNames k { d := .v 1 1, a := .v 1 1, b := .v 1 1 } f) = false) := by decide +kernel
theorem witness_fetch_ends : let s := placed 0x00000014100C0080
    (fetching { s with cores := List.replicate 128 {} }).selectable = false ∧
    (match (fetching { s with cores := List.replicate 128 { becalmed := false } }).xl 0 0 0x10000 .fetch false with
      | .fault _ => true | _ => false) = true ∧ (24 < 28 % 32) := by decide +kernel
/-- An issue that used its slot, with another group of the partition that was ready and one that was not. -/
theorem witness_counts : 0 < demo.cores.length ∧ demoBlock ∈ demo.blocks ∧ demoBlock.core = 0 ∧ (demoBlock.parts[0]?).isSome ∧
    (0, 0) ∈ ([(0, 0)] : List (Nat × Nat)) ∧ (0, 0) ∉ ([] : List (Nat × Nat)) := by decide +kernel
theorem witness_halt : let s := { demo with stage := .halted, agenda := [.drain 0 0] }
    s.stage = .halted ∧ s.agenda = .drain 0 0 :: [] ∧ worksHalted (.drain 0 0) = false ∧ demo.stage ≠ .halted := by decide +kernel
theorem witness_encodes : (Instr.add {} { ty := .i32, d := 3, a := 4, b := .reg 5 }).wf (DCtx.wide .fibre) = true ∧
    (encode (.add {} { ty := .i32, d := 3, a := 4, b := .reg 5 })).isSome ∧
    (match decode (DCtx.wide .fibre) (leBytes 8 0x00000014100C0080) with | .ok _ => true | _ => false) = true := by decide +kernel

/-! ### Well-formedness: an ill-formed term for each check -/

/-- A fibre with 32 registers, and a cox thread, of a kernel of 256 bytes of code with one relation and grid barrier 0. -/
def narrow : DCtx := { stream := .fibre, priv := false, w := 32, extent := 0x100, rels := [⟨false, false, [], [], []⟩], gbar := 1 }
def coxOnly : DCtx := { narrow with stream := .cox }
def boss : DCtx := { coxOnly with priv := true }

/-- Every term is ill formed, and its neighbour that differs in the operand checked is well formed. -/
def refuses (k : DCtx) (l : List (Instr × Instr)) : Bool := l.all fun x => !x.1.wf k && x.2.wf k

theorem test_wf_registers : refuses narrow [
    (.add {} { ty := .i32, d := 32, a := 0, b := .reg 0 }, .add {} { ty := .i32, d := 31, a := 0, b := .reg 0 }),
    (.add {} { ty := .i64, d := 1, a := 0, b := .reg 0 }, .add {} { ty := .i64, d := 2, a := 0, b := .reg 0 }),
    (.add {} { ty := .i32, d := 0, a := 0, b := .reg 32 }, .add {} { ty := .i32, d := 0, a := 0, b := .imm8 32 }),
    (.ld {} none .b128 6 2 (.d8 0), .ld {} none .b128 8 2 (.d8 0)),
    (.ld {} none .b32 8 3 (.d8 0), .ld {} none .b32 8 2 (.d8 0)),
    (.st {} none .b128 2 30 (.d8 0), .st {} none .b128 2 28 (.d8 0)),
    (.hld {} .b128 6 2 0, .hld {} .b128 8 2 0),
    (.setp {} .eq { ty := .i32, d := 8, a := 0, b := .reg 0 }, .setp {} .eq { ty := .i32, d := 7, a := 0, b := .reg 0 }),
    (.zrd {} 8 0 0, .zrd {} 16 0 0), (.zrd {} 16 0 24, .zrd {} 16 0 23),
    (.spawn {} 0 31 2 0, .spawn {} 0 30 2 0), (.spawn {} 0 1 0 0, .spawn {} 0 0 0 0)] = true := by decide +kernel

theorem test_wf_heads : refuses narrow [
    (.add { la := 1 } { ty := .i32, d := 0, a := 0, b := .reg 0 }, .add {} { ty := .i32, d := 0, a := 0, b := .reg 0 }),
    (.kend {}, .exit {}), (.ctxprio {} 0 0, .yield {}), (.hrecv {} false 0 0, .qpop {} false false 0 0)] = true ∧
  refuses coxOnly [
    (.add { pg := 1 } { ty := .i32, d := 0, a := 0, b := .reg 0 }, .add {} { ty := .i32, d := 0, a := 0, b := .reg 0 }),
    (.exit {}, .kend {}), (.ctxprio {} 0 0, .yield {}), (.ld {} none .b128 8 2 (.d8 0), .ld {} none .b64 8 2 (.d8 0)),
    (.hst {} .b128 2 4 8, .hst {} .b64 2 4 8), (.qpush {} true 0 0, .qpush {} false 0 0), (.qpop {} false true 0 0, .qpop {} false false 0 0),
    (.cbrd {} true 0 0, .cbrd {} false 0 0), (.mov {} .n32 64 (.reg 0), .mov {} .n32 63 (.reg 0))] = true ∧
  refuses boss [(.frpop {} 2, .frpop {} 4), (.frpop {} 64, .frpop {} 60)] = true := by decide +kernel

theorem test_wf_forms : refuses narrow [
    (.mul {} { ty := .i32, sat := true, d := 0, a := 0, b := .reg 0 }, .mul {} { ty := .i32, d := 0, a := 0, b := .reg 0 }),
    (.mulwide {} { ty := .i64, d := 0, a := 0, b := .reg 0 }, .mulwide {} { ty := .i32, d := 0, a := 0, b := .reg 0 }),
    (.bfi {} { ty := .i32, d := 0, a := 0, b := 0, c := .reg 0 }, .bfi {} { ty := .n32, d := 0, a := 0, b := 0, c := .reg 0 }),
    (.fmaF32 {} { rnd := .rne, d := 0, a := 0, b := .imm 0 } (.reg 0), .fmaF32 {} { rnd := .rne, d := 0, a := 0, b := .reg 0 } (.imm 0)),
    (.cvt {} .rne true 0 .i32 .f32 0 0, .cvt {} .rne true 0 .i32 .i64 0 0), (.cvt {} .rne false 2 .f32 .f16 0 0, .cvt {} .rne false 1 .f32 .f16 0 0),
    (.bra {} 0x102, .bra {} 0x44), (.bra {} 0x100, .bra {} 0xFC), (.brx {} 0 8 0, .brx {} 0 7 0), (.brx {} 0 1 4, .brx {} 0 1 32),
    (.renter {} 1, .renter {} 0), (.srd {} 0 0x0C, .srd {} 0 0x02), (.srd {} 1 0x07, .srd {} 2 0x07), (.srd {} 0 0x18, .srd {} 0 0x16),
    (.gbarSync {} false 0 1 (.imm 4), .gbarSync {} false 0 0 (.imm 4)), (.scpf {} 2 0, .scpf {} 2 1)] = true ∧
  refuses coxOnly [(.barinit {} .clu 0 8, .barinit {} .clu 0 7), (.barinit {} .grid 0 1, .barinit {} .grid 0 0)] = true := by decide +kernel

theorem test_wf_memory : refuses narrow [
    (.cpa {} { scope := .sys } 0 2 4 6, .cpa {} { rel := true, scope := .sys } 0 2 4 6),
    (.atomXor {} { ty := .i32, o := {}, d := 0, a := 2, b := 4, disp := .d8 0 }, .atomXor {} { ty := .n32, o := {}, d := 0, a := 2, b := 4, disp := .d8 0 }),
    (.atomCas {} { ty := .n64, o := {}, d := 0, a := 2, b := 6, disp := .d8 0 }, .atomCas {} { ty := .n64, o := {}, d := 0, a := 2, b := 8, disp := .d8 0 }),
    (.atomAddF32 {} { num := true, o := {}, d := 0, a := 2, b := 4, disp := .d8 0 }, .atomAddF32 {} { num := false, o := {}, d := 0, a := 2, b := 4, disp := .d8 0 }),
    (.embsw {} .core 0 2 4, .embsw {} .core 0 2 8), (.edgate {} {} 3 0 0 0 0, .edgate {} {} 0 0 0 0 0),
    (.ednorm {} { acq := true, scope := .clu } 0 0, .ednorm {} { acq := true, scope := .die } 0 0), (.edsync {} .clu 0, .edsync {} .die 0),
    (.collRed {} { acq := true, scope := .die } 0 2, .collRed {} { acq := true, scope := .dev } 0 2)] = true := by decide +kernel

/-- A product of one step of 32 columns whose B comes from registers. -/
def product : MmaOps :=
  { z := 0, a := 0, b := 100, c := 0, pair := false, th := false, sa := false, sb := false, init := true, mult := 0, nx := 48, kb := 1, k64 := false
    afmt := .e4m3, bfmt := .e4m3 }
theorem test_wf_mma : refuses (DCtx.wide .fibre) [
    (.mma {} { product with a := 225 }, .mma {} { product with a := 224 }),
    (.mma {} { product with c := 2 }, .mma {} { product with c := 2, sa := true }), (.mma {} { product with sb := true }, .mma {} { product with sb := true, th := true }),
    (.mma {} { product with afmt := .bf16, bfmt := .e4m3 }, .mma {} { product with afmt := .bf16, bfmt := .bf16 }),
    (.mma {} { product with afmt := .bf16, bfmt := .bf16, sa := true }, .mma {} { product with bfmt := .e5m2 }),
    (.mma {} { product with nx := 49 }, .mma {} { product with pair := true, nx := 96 }),
    (.mma {} { product with kb := 2 }, .mma {} { product with k64 := true, kb := 2 }),
    (.mma {} { product with th := true, b := 3 }, .mma {} { product with th := true, b := 4 })] = true := by decide +kernel

/-! ### Words: those that the spec writes out, and one for every constructor from the encoding tables -/

/-- Whether every word decodes to its instruction. -/
def reads (l : List (Nat × Nat × Instr)) : Bool := l.all fun x => decide (decodeTableWord x.1 x.2.1 = some x.2.2)

/-- The words of the spec's examples and of its Tables 14-4, 15-5, 16-3, 17-4, 18-2 and 21-4. -/
theorem test_spec_words_1 : reads [
    (64, 0x00001C00001003C0, .srd {} 4 7),
    (64, 0x00000014100803CC, .launch {} false 2 4 5),
    (96, 0x00000140080000000C000005, .braNz {} 3 0x140),
    (96, 0x0000030000000C0010240041, .spawn {} 9 4 3 0x300),
    (64, 0x0400000000004040, .exit { pg := 1 }),
    (64, 0x0400080000000048, .rfold {} 2),
    (96, 0x000004C000000C0000000049, .rjoin {} 3 0x4C0),
    (64, 0x00000C0018040240, .barSync {} false 1 3 (.reg 6)),
    (96, 0x0000008000000400000C0249, .gbarSync {} false 3 1 (.imm 128)),
    (64, 0x000414002400024C, .barinit {} .clu 9 5),
    (64, 0x0000000000080250, .rjset {} 2),
    (64, 0x0400000008000250, .rjw {} 2),
    (64, 0x000018040C080280, .qbind {} 2 3 1 6),
    (64, 0x00000000180C0284, .qpush {} false 3 6),
    (64, 0x0404000008200284, .qpop {} true false 8 2),
    (64, 0x0000000014000288, .dqPush {} 5),
    (64, 0x0000000000100290, .hrecv {} false 4 0),
    (64, 0x00000014100C0080, .add {} { ty := .i32, d := 3, a := 4, b := .reg 5 }),
    (64, 0x0243FC00100C0080, .add {} { ty := .i32, sat := true, d := 3, a := 4, b := .imm8 255 }),
    (96, 0x3F0000000E04000C081800C1, .fmaF32 {} { rnd := .rz, d := 6, a := 2, b := .reg 3 } (.imm 0x3F000000))] = true := by decide +kernel

theorem test_spec_words_2 : reads [
    (64, 0x000420000C080100, .cvt {} .rz false 0 .i8 .f32 2 3),
    (64, 0x00200000081C0144, .red {} (.addF .rne) 7 2),
    (64, 0x0000000010240150, .conf {} false 9 4),
    (64, 0x0060480820A00158, .mvWt {} { bf16 := false, bias := true, relu := true, rnd := .rne, d := 40, a := 8, b := 2, m1 := 1, k1 := 2 }),
    (64, 0x00000000081803C8, .xlat {} 6 2),
    (64, 0x10000010082003C8, .hld {} .b32 8 2 4),
    (64, 0x0400000C080403C8, .tinv {} false 1 2 3),
    (64, 0x0010400008200180, .ld {} none .b32 8 2 (.d8 16)),
    (64, 0x0210001408240184, .stTag {} none .b32 9 2 5 (.d8 0)),
    (64, 0x00001808103001C0, .cpa {} {} 12 4 2 6),
    (64, 0x09500014081C01C4, .gthx {} { cls := .keep, sz := .b32, sh := 2, r := 7, a := 2, b := 5, disp := .d8 0 }),
    (64, 0x00900020081801C8, .cst {} false 2 6 2 8 (.d8 0)),
    (64, 0x00083020081001CC, .embpool {} 4 2 8 12 2),
    (64, 0x0004001808280200, .atomAdd {} { ty := .n32, o := {}, d := 10, a := 2, b := 6, disp := .d8 0 }),
    (64, 0x080C00000000420C, .fenceSc { pg := 1 } .dev),
    (64, 0x000800000000020C, .fenceRel {} .die),
    (64, 0x0C000C00084002C4, .zrd {} 16 2 3),
    (64, 0x00040000000C02C8, .plse {} true false 3),
    (64, 0x04000000000C02C8, .plrl {} 3),
    (64, 0x00001804100002D0, .zq {} false 4 1 6)] = true := by decide +kernel

theorem test_spec_words_3 : reads [
    (64, 0x0000000C08040300, .cbcfg {} 1 2 3),
    (64, 0x0000000020500304, .cbpush {} 20 8),
    (64, 0x0000000820500340, .edgate {} {} 0 20 8 2 0),
    (64, 0x000004000C500344, .edmeas {} {} 20 3 1),
    (64, 0x0400040000140344, .ednorm {} {} 5 1),
    (64, 0x0400000018100348, .edmapRd {} 4 6 0),
    (64, 0x0C0000001C180348, .edswap {} 6 7 0),
    (64, 0x0000000008040348, .edmapInit {} 1 2 0),
    (64, 0x000C00000000034C, .edsync {} .dev 0),
    (64, 0x004C000010500380, .collRed {} { rel := true, scope := .dev } 20 4),
    (64, 0x0000000008300384, .xdisp {} {} 12 2),
    (64, 0x0400000018340384, .xfix {} {} 13 6),
    (64, 0x0000000014100388, .lkst {} 4 5),
    (64, 0x040C000C08040388, .lkctlPost {} 1 2 3),
    (64, 0x0210102C08500184, .stTag {} none .b32 20 2 11 (.d8 4)),
    (64, 0x0C0000000000020C, .fenceAck {}),
    (64, 0x0004002810000208, .mredAdd {} .n32 {} 4 10 (.d8 0)),
    (64, 0x1804002C08500200, .atomExch {} { ty := .n32, o := {}, d := 20, a := 2, b := 11, disp := .d8 0 }),
    (64, 0x00F0000010300180, .ld {} (some .dev) .b32 12 4 (.d8 0)),
    (64, 0x000400000020028C, .dqPop {} true 8)] = true := by decide +kernel

theorem test_spec_words_4 : reads [
    (64, 0x0800000408080090, .plog {} .and 2 2 1),
    (64, 0x000000000838014C, .ballot {} 14 2),
    (64, 0x04000000083C014C, .pfxpop {} 15 2),
    (64, 0x00900030201801C8, .cst {} false 2 6 8 12 (.d8 0)),
    (64, 0x00000800000403C0, .srd {} 1 2),
    (64, 0x0014400008500180, .ld {} none .b64 20 2 (.d8 16)),
    (64, 0x0400000000024040, .exit { pg := 1, pn := true }),
    (64, 0x040000004008C150, .confFirst { pg := 3 } false 2 16),
    (64, 0x2000004448000208, .mredAddF32 {} {} 18 17 (.d8 0)),
    (64, 0x00740000080C0180, .ld {} (some .clu) .b64 3 2 (.d8 0)),
    (64, 0x0018000038104180, .ld { pg := 1 } none .b128 4 14 (.d8 0)),
    (64, 0x000000000000C044, .renter { pg := 3 } 0),
    (64, 0x000004000002C044, .renter { pg := 3, pn := true } 1),
    (64, 0x0000080000000049, .rjoin {} 2 0),
    (64, 0x0004004008000208, .mredAdd {} .n32 {} 2 16 (.d8 0)),
    (64, 0x040000000040028C, .dqPopf {} false 16),
    (64, 0x08000020142400C0, .mulF32 {} { rnd := .rne, d := 9, a := 5, b := .reg 8 }),
    (64, 0x0C101C3418380084, .mad {} { ty := .n32, d := 14, a := 6, b := 13, c := .reg 7 }),
    (64, 0x00000004000C0300, .cbcfg {} 3 0 1),
    (64, 0x000000000C000288, .dqPush {} 3)] = true := by decide +kernel

theorem test_spec_words_5 : reads [
    (64, 0x08000000000003D0, .kend {}),
    (64, 0x000000000004028C, .dqPop {} false 1),
    (64, 0x0018000018200180, .ld {} none .b128 8 6 (.d8 0)),
    (64, 0x040000001804030C, .cbsave {} 1 6),
    (64, 0x0010000418004184, .st { pg := 1 } none .b32 6 1 (.d8 0))] = true := by decide +kernel

theorem test_words_control : reads [
    (64, 0x0000000000008000, .nop { pg := 2 }),
    (96, 0x000000000000000000000001, .nopW12 {}),
    (128, 0x00000000000000000000000000000002, .nopW16 {}),
    (96, 0x000001400000000000000005, .bra {} 0x140),
    (96, 0x00000140040000000C000005, .braZ {} 3 0x140),
    (96, 0x00000140080000000C000005, .braNz {} 3 0x140),
    (96, 0x000001400C00000014000005, .braAny {} 5 0x140),
    (96, 0x000001401000000014024005, .braAll { pg := 1, pn := true } 5 0x140),
    (96, 0x0000014000000000001C0009, .call {} 7 0x140),
    (64, 0x04000000241C0008, .callR {} 7 9),
    (64, 0x0800000024000008, .ret {} 9),
    (96, 0x00000140000030002400000D, .brx {} 9 12 0x140)] = true := by decide +kernel

theorem test_words_fibres : reads [
    (96, 0x0000030000000C0010240041, .spawn {} 9 4 3 0x300),
    (64, 0x0400000000000040, .exit {}),
    (64, 0x0800000018140040, .kill {} 5 6),
    (64, 0x0000040000000044, .renter {} 1),
    (64, 0x0400080000000044, .rleave {} 2),
    (96, 0x000004C000000C0000000049, .rjoin {} 3 0x4C0),
    (64, 0x0400080000000C48, .rfold { la := 3 } 2),
    (64, 0x000400001820004C, .matchAny {} true 8 6),
    (64, 0x04000000180C004C, .matchAll {} false 3 6),
    (64, 0x080014001820004C, .rprobe {} 8 6 5),
    (64, 0x0000500000000050, .compact {} 20),
    (64, 0x0400500000000050, .regroup {} 20),
    (64, 0x0804500018000050, .regroupKey {} true 6 20)] = true := by decide +kernel

theorem test_words_integer_1 : reads [
    (64, 0x00000014100C0080, .add {} ⟨.i32, false, 3, 4, .reg 5⟩),
    (64, 0x0243FC00100C0080, .add {} ⟨.i32, true, 3, 4, .imm8 0xFF⟩),
    (96, 0x89ABCDEF06100000100C0081, .sub {} ⟨.n32, false, 3, 4, .imm32 0x89ABCDEF⟩),
    (64, 0x0860000010080080, .neg {} ⟨.i64, true, 2, 4⟩),
    (64, 0x0C30000010080080, .abs {} ⟨.n64, false, 2, 4⟩),
    (64, 0x10000014100C0080, .min {} ⟨.i32, false, 3, 4, .reg 5⟩),
    (64, 0x14100014100C0080, .max {} ⟨.n32, false, 3, 4, .reg 5⟩),
    (64, 0x00000014100C0084, .mul {} ⟨.i32, false, 3, 4, .reg 5⟩),
    (64, 0x04100014100C0084, .mulhi {} ⟨.n32, false, 3, 4, .reg 5⟩),
    (64, 0x0800001410080084, .mulwide {} ⟨.i32, false, 2, 4, .reg 5⟩),
    (64, 0x0C101C3418380084, .mad {} ⟨.n32, 14, 6, 13, .reg 7⟩),
    (64, 0x00000014100C0888, .div { la := 2 } ⟨.i32, false, 3, 4, .reg 5⟩),
    (64, 0x0430001810080088, .rem {} ⟨.n64, false, 2, 4, .reg 6⟩),
    (64, 0x00100014100C008C, .and {} ⟨.b32, 3, 4, .reg 5⟩),
    (64, 0x043000181008008C, .or {} ⟨.b64, 2, 4, .reg 6⟩),
    (64, 0x0A103C00100C008C, .xor {} ⟨.b32, 3, 4, .imm8 0x0F⟩),
    (64, 0x0C100000100C008C, .not {} ⟨.b32, 3, 4⟩),
    (64, 0x10100014100C008C, .andn {} ⟨.b32, 3, 4, .reg 5⟩),
    (64, 0x16100C00100C008C, .shl {} ⟨.n32, false, 3, 4, .imm8 3⟩),
    (64, 0x182000141008008C, .shr {} ⟨.i64, false, 2, 4, .reg 5⟩)] = true := by decide +kernel

theorem test_words_integer_2 : reads [
    (64, 0x00800014100C0090, .setp {} .lt ⟨.i32, false, 3, 4, .reg 5⟩),
    (64, 0x04001814100C0090, .sel {} .i32 3 4 5 6),
    (64, 0x0880000C08040090, .plog {} .xor 1 2 3),
    (64, 0x00300000100C0094, .popc {} ⟨.b64, 3, 4⟩),
    (64, 0x04100000100C0094, .clz {} ⟨.b32, 3, 4⟩),
    (64, 0x08100000100C0094, .ctz {} ⟨.b32, 3, 4⟩),
    (64, 0x0C100000100C0094, .brev {} ⟨.b32, 3, 4⟩),
    (64, 0x10101400100C0094, .bfe {} ⟨.n32, false, 3, 4, .reg 5⟩),
    (64, 0x14101814100C0094, .bfi {} ⟨.n32, 3, 4, 5, .reg 6⟩),
    (64, 0x00000000100C0098, .mov {} .i32 3 (.reg 4)),
    (128, 0x0123456789ABCDEF040000000010009A, .movx {} 4 0x0123456789ABCDEF)] = true := by decide +kernel

theorem test_words_float : reads [
    (64, 0x00000014100C00C0, .addF32 {} ⟨.rne, 3, 4, .reg 5⟩),
    (64, 0x040C0014100C00C0, .subF32 {} ⟨.rd, 3, 4, .reg 5⟩),
    (96, 0x3F0000000A080000100C00C1, .mulF32 {} ⟨.ru, 3, 4, .imm 0x3F000000⟩),
    (96, 0x3F0000000E04000C081800C1, .fmaF32 {} ⟨.rz, 6, 2, .reg 3⟩ (.imm 0x3F000000)),
    (64, 0x00000014100C00CC, .divF32 {} ⟨.rne, 3, 4, .reg 5⟩),
    (64, 0x04040000100C00CC, .sqrtF32 {} ⟨.rz, 3, 4⟩),
    (64, 0x08000000100C00CC, .rcpF32 {} ⟨.rne, 3, 4⟩),
    (64, 0x0C000000100C00CC, .rsqrtF32 {} ⟨.rne, 3, 4⟩),
    (64, 0x00100014100C00C8, .minF32 {} true 3 4 (.reg 5)),
    (64, 0x04000014100C00C8, .maxF32 {} false 3 4 (.reg 5)),
    (64, 0x09C00014100C00C8, .setpF32 {} .num 3 4 (.reg 5)),
    (64, 0x0C000000100C00C8, .classF32 {} 3 4),
    (64, 0x00000018100800D0, .caddC64 {} ⟨.rne, 2, 4, 6⟩),
    (64, 0x04000018100800D0, .cmulC64 {} ⟨.rne, 2, 4, 6⟩),
    (64, 0x08042018100800D0, .cfmaC64 {} ⟨.rz, 2, 4, 6⟩ 8),
    (64, 0x00100014100C00C4, .addF16 {} ⟨.bf16, .rne, 3, 4, 5⟩),
    (64, 0x04000014100C00C4, .subF16 {} ⟨.f16, .rne, 3, 4, 5⟩),
    (64, 0x08000014100C00C4, .mulF16 {} ⟨.f16, .rne, 3, 4, 5⟩),
    (64, 0x0C041814100C00C4, .fmaF16 {} ⟨.f16, .rz, 3, 4, 5⟩ 6)] = true := by decide +kernel

theorem test_words_convert : reads [
    (64, 0x000420000C080100, .cvt {} .rz false 0 .i8 .f32 2 3),
    (64, 0x00304C000C080100, .cvt {} .rne true 1 .n8 .n16 2 3),
    (96, 0x000076540200000804100105, .prmt {} 4 1 2 (.imm 0x7654)),
    (64, 0x04140014100C0104, .packF16 {} .bf16 .rz 3 4 5),
    (64, 0x08300018100C0104, .packF8 {} .e5m2 true .rne 3 4 6),
    (64, 0x0C2000000C100104, .unpack {} .e4m3 4 3),
    (64, 0x00100000100C0108, .mxq {} .e5m2 3 4),
    (64, 0x04000014100C0108, .mxw {} .e4m3 3 4 5)] = true := by decide +kernel

theorem test_words_lanes : reads [
    (64, 0x0004001410080140, .shflIdx {} true 2 4 (.reg 5)),
    (64, 0x04000014100C0140, .shflUp {} false 3 4 (.reg 5)),
    (96, 0x000000010A000000100C0141, .shflDown {} false 3 4 (.imm 1)),
    (64, 0x0C000014100C0140, .shflXor {} false 3 4 (.reg 5)),
    (64, 0x00200000081C0144, .red {} (.addF .rne) 7 2),
    (64, 0x04500000081C0144, .scan {} .minN 7 2),
    (64, 0x09500000081C0144, .scanx {} .xorB 7 2),
    (64, 0x00000000100C0148, .qxH {} false 3 4),
    (64, 0x0404000010080148, .qxV {} true 2 4),
    (64, 0x08000000100C0148, .qxD {} false 3 4),
    (64, 0x0C000800100C0148, .qbc {} false 3 4 2),
    (64, 0x000000000838014C, .ballot {} 14 2),
    (64, 0x04000000083C014C, .pfxpop {} 15 2),
    (64, 0x0000000010240150, .conf {} false 9 4),
    (64, 0x040000004008C150, .confFirst { pg := 3 } false 2 16),
    (64, 0x00007C14100C0154, .bpcnt {} 3 4 5 31),
    (64, 0x04000414100C0154, .bpmatch {} 3 4 5 1),
    (64, 0x0034DC0C40200158, .mvWt {} ⟨true, true, false, .rz, 8, 16, 3, 3, 7⟩)] = true := by decide +kernel

theorem test_words_memory : reads [
    (64, 0x00F0000010300180, .ld {} (some .dev) .b32 12 4 (.d8 0)),
    (96, 0xFFFFFFF000040000100C0181, .ld {} none .i8 3 4 (.d32 0xFFFFFFF0)),
    (64, 0x0074401810000184, .st {} (some .clu) .b64 4 6 (.d8 0x10)),
    (64, 0x0210102C08500184, .stTag {} none .b32 20 2 11 (.d8 4)),
    (64, 0x00080800140C0188, .ldc {} .n16 3 5 (.d8 2)),
    (64, 0x00001808103001C0, .cpa {} {} 12 4 2 6),
    (64, 0x05A84018103001C0, .cpaReg {} ⟨true, false, .die⟩ 12 4 6 16 3),
    (64, 0x00302000100C01C4, .gth {} ⟨.stream, .b32, 3, 4, .d8 8⟩),
    (64, 0x04102014100001C4, .sct {} ⟨.normal, .b32, 5, 4, .d8 8⟩),
    (64, 0x09500014081C01C4, .gthx {} ⟨.keep, .b32, 2, 7, 2, 5, .d8 0⟩),
    (64, 0x0DF40014082001C4, .sctx {} ⟨.bypass, .b64, 3, 8, 2, 5, .d8 0⟩),
    (64, 0x00900020081801C8, .cst {} false 2 6 2 8 (.d8 0)),
    (64, 0x00083020081001CC, .embpool {} 4 2 8 12 2),
    (64, 0x040C0020080C01CC, .embsw {} .dev 3 2 8)] = true := by decide +kernel

theorem test_words_atomics_1 : reads [
    (64, 0x0004001808280200, .atomAdd {} ⟨.n32, {}, 10, 2, 6, .d8 0⟩),
    (64, 0x0404001808280200, .atomMin {} ⟨.n32, {}, 10, 2, 6, .d8 0⟩),
    (64, 0x0804001808280200, .atomMax {} ⟨.n32, {}, 10, 2, 6, .d8 0⟩),
    (64, 0x0C04001808280200, .atomAnd {} ⟨.n32, {}, 10, 2, 6, .d8 0⟩),
    (64, 0x1004001808280200, .atomOr {} ⟨.n32, {}, 10, 2, 6, .d8 0⟩),
    (64, 0x1404001808280200, .atomXor {} ⟨.n32, {}, 10, 2, 6, .d8 0⟩),
    (64, 0x1804001808280200, .atomExch {} ⟨.n32, {}, 10, 2, 6, .d8 0⟩),
    (64, 0x1D3FE02008280200, .atomCas {} ⟨.n64, ⟨true, true, .sys⟩, 10, 2, 8, .d8 0xF8⟩),
    (64, 0x0000001808280204, .atomAddF32 {} ⟨false, {}, 10, 2, 6, .d8 0⟩),
    (64, 0x0600001808280204, .atomMinF32 {} ⟨true, {}, 10, 2, 6, .d8 0⟩),
    (64, 0x0800001808280204, .atomMaxF32 {} ⟨false, {}, 10, 2, 6, .d8 0⟩),
    (64, 0x0004002810000208, .mredAdd {} .n32 {} 4 10 (.d8 0)),
    (64, 0x0404002810000208, .mredMin {} .n32 {} 4 10 (.d8 0)),
    (64, 0x0804002810000208, .mredMax {} .n32 {} 4 10 (.d8 0)),
    (64, 0x0C04002810000208, .mredAnd {} .n32 {} 4 10 (.d8 0)),
    (64, 0x1004002810000208, .mredOr {} .n32 {} 4 10 (.d8 0)),
    (64, 0x1404002810000208, .mredXor {} .n32 {} 4 10 (.d8 0)),
    (64, 0x2000004448000208, .mredAddF32 {} {} 18 17 (.d8 0)),
    (64, 0x2600004448000208, .mredMinF32 {} true {} 18 17 (.d8 0)),
    (64, 0x28A0004448000208, .mredMaxF32 {} false ⟨false, true, .die⟩ 18 17 (.d8 0))] = true := by decide +kernel

theorem test_words_atomics_2 : reads [
    (64, 0x000800000000020C, .fenceRel {} .die),
    (64, 0x040400000000020C, .fenceAcq {} .clu),
    (64, 0x080C00000000420C, .fenceSc { pg := 1 } .dev),
    (64, 0x0C0000000000020C, .fenceAck {}),
    (64, 0x100000000000020C, .fenceEng {} .core)] = true := by decide +kernel

theorem test_words_barriers : reads [
    (64, 0x00000C0018040240, .barSync {} false 1 3 (.reg 6)),
    (96, 0x0000002804043C0000100241, .barArrive {} true 4 15 (.imm 40)),
    (64, 0x08000C0018040240, .barWait {} false 1 6 3),
    (64, 0x00001C0018040244, .cbarSync {} false 1 7 (.reg 6)),
    (64, 0x04001C0018100244, .cbarArrive {} false 4 7 (.reg 6)),
    (64, 0x08041C0018040244, .cbarWait {} true 1 6 7),
    (96, 0x0000008000000400000C0249, .gbarSync {} false 3 1 (.imm 128)),
    (64, 0x04000C0018100248, .gbarArrive {} false 4 3 (.reg 6)),
    (64, 0x08000C0018040248, .gbarWait {} false 1 6 3),
    (64, 0x000414001800024C, .barinit {} .clu 6 5),
    (64, 0x040808000000024C, .barinv {} .grid 2),
    (64, 0x0000000000040250, .rjset {} 1),
    (64, 0x0400000004000250, .rjw {} 1)] = true := by decide +kernel

theorem test_words_queues : reads [
    (64, 0x000018040C080280, .qbind {} 2 3 1 6),
    (64, 0x0400002400080280, .qunbind {} 2 9),
    (64, 0x00000000180C0284, .qpush {} false 3 6),
    (64, 0x040C000008200284, .qpop {} true true 8 2),
    (64, 0x0800000008200284, .qdrain {} 8 2),
    (64, 0x0000000014000288, .dqPush {} 5),
    (64, 0x000400000020028C, .dqPop {} true 8),
    (64, 0x040000000040028C, .dqPopf {} false 16),
    (64, 0x0004000000100290, .hrecv {} true 4 0)] = true := by decide +kernel

theorem test_words_matrix : reads [
    (128, 0x3F80000000182800003C1820800802C2, .mma {} { z := 2, a := 32, b := 8, c := 6, pair := true, th := true, sa := true, sb := true, init := false, mult := 0x3F800000, nx := 96, kb := 2, k64 := true, afmt := .e4m3, bfmt := .e4m3 }),
    (64, 0x00000000000402C4, .zzero {} 1),
    (64, 0x04000018100402C4, .zld {} 1 4 6),
    (64, 0x08000018100802C4, .zst {} 4 2 6),
    (64, 0x0C000C00084002C4, .zrd {} 16 2 3),
    (64, 0x00040000000C02C8, .plse {} true false 3),
    (64, 0x04000000000C02C8, .plrl {} 3),
    (64, 0x00000000000002CC, .scinv {}),
    (64, 0x0403FC00100002CC, .scpf {} 4 255),
    (64, 0x00041804100002D0, .zq {} true 4 1 6)] = true := by decide +kernel

theorem test_words_bank : reads [
    (64, 0x0000000C08040300, .cbcfg {} 1 2 3),
    (64, 0x04000000000C0300, .cbclr {} 3),
    (64, 0x08000000000C0300, .cbrel {} 3),
    (64, 0x0C000000000C0300, .cbstat {} 3),
    (64, 0x0000000020500304, .cbpush {} 20 8),
    (64, 0x00000000000C0308, .cbmerge {} 3),
    (64, 0x000400001420030C, .cbrd {} true 8 5),
    (64, 0x040000001804030C, .cbsave {} 1 6),
    (64, 0x080000001804030C, .cbrest {} 1 6)] = true := by decide +kernel

theorem test_words_eddy : reads [
    (64, 0x0000000820500340, .edgate {} {} 0 20 8 2 0),
    (64, 0x006804000C500344, .edmeas {} ⟨true, true, .die⟩ 20 3 1),
    (64, 0x0400040000140344, .ednorm {} {} 5 1),
    (64, 0x0000000008040348, .edmapInit {} 1 2 0),
    (64, 0x0400000018100348, .edmapRd {} 4 6 0),
    (64, 0x08000C0018100348, .edmapWr {} 4 6 3),
    (64, 0x0C0000001C180348, .edswap {} 6 7 0),
    (64, 0x1000080000180348, .edmapFree {} 6 2),
    (64, 0x000C00000000034C, .edsync {} .dev 0)] = true := by decide +kernel

theorem test_words_links : reads [
    (64, 0x004C000010500380, .collRed {} ⟨false, true, .dev⟩ 20 4),
    (64, 0x0400000010500380, .collRs {} {} 20 4),
    (64, 0x0800000010500380, .collAg {} {} 20 4),
    (64, 0x0C30000010500380, .collBc {} ⟨true, false, .sys⟩ 20 4),
    (64, 0x0000000008300384, .xdisp {} {} 12 2),
    (64, 0x0400000018340384, .xfix {} {} 13 6),
    (64, 0x0000000014100388, .lkst {} 4 5),
    (64, 0x0400000C08040388, .lkctlUp {} 1 2 3),
    (64, 0x0404000C08040388, .lkctlDown {} 1 2 3),
    (64, 0x0408000C08040388, .lkctlRxbuf {} 1 2 3),
    (64, 0x040C000C08040388, .lkctlPost {} 1 2 3),
    (64, 0x0410000C08040388, .lkctlClr {} 1 2 3)] = true := by decide +kernel

theorem test_words_system_1 : reads [
    (64, 0x00001C00001003C0, .srd {} 4 7),
    (64, 0x04002400100003C0, .swr {} 4 9),
    (96, 0x0000024000000000000003C5, .xvec {} 0x240),
    (64, 0x04000000000003C4, .xvecClr {}),
    (64, 0x08000000000003C4, .xret {}),
    (64, 0x0C000000000003C4, .xretSkip {}),
    (64, 0x10000000000003C4, .yield {}),
    (64, 0x0000000C080403E0, .ctxctlCreate {} 1 2 3),
    (64, 0x0004000C080403E0, .ctxctlStart {} 1 2 3),
    (64, 0x0008000C080403E0, .ctxctlStop {} 1 2 3),
    (64, 0x000C000C080403E0, .ctxctlResume {} 1 2 3),
    (64, 0x0010000C080403E0, .ctxctlKill {} 1 2 3),
    (64, 0x0014000C080403E0, .ctxctlFree {} 1 2 3),
    (64, 0x0018000C080403E0, .ctxctlReflect {} 1 2 3),
    (64, 0x0400100C080403E0, .ctxsave {} 1 2 3 4),
    (64, 0x0800000C080403E0, .ctxrest {} 1 2 3),
    (64, 0x0C00000C080403E0, .ptroot {} 1 2 3),
    (64, 0x00000000001003E4, .frpop {} 4),
    (64, 0x041C000C080003E4, .bgset {} .hbm 2 3),
    (64, 0x08240000080403E4, .bgrd {} .flit 1 2)] = true := by decide +kernel

theorem test_words_system_2 : reads [
    (64, 0x0C00000C080003E4, .ctxprio {} 2 3)] = true := by decide +kernel

theorem test_words_pages : reads [
    (64, 0x00000000081803C8, .xlat {} 6 2),
    (64, 0x0400000C080403C8, .tinv {} false 1 2 3),
    (64, 0x0800000C080403C8, .htab {} 1 2 3),
    (64, 0x0C040000080403C8, .hinv {} true 1 2),
    (64, 0x10000010082003C8, .hld {} .b32 8 2 4),
    (64, 0x14082010080003C8, .hst {} .b128 2 4 8)] = true := by decide +kernel

theorem test_words_kernels : reads [
    (64, 0x00040014100803CC, .launch {} true 2 4 5),
    (64, 0x04000C08040003CC, .walkInit {} 1 2 3),
    (64, 0x08000000000C03CC, .walkNext {} 3),
    (64, 0x00000400001C03D0, .stgq {} 7 1),
    (64, 0x04001800140003D0, .stgres {} 5 6),
    (64, 0x08000000000003D0, .kend {})] = true := by decide +kernel

/-! ### Single steps of the spec's examples -/

/-- The demo block whose fibre i holds values in V2, V4 and V7 and up. -/
def holding (rs : List (List (Nat × W32))) : Block :=
  { demoBlock with
    fibres := (List.range 4).map fun i => { demoFibre i with regs := ((rs[i]?).getD []).foldl (fun l x => l.set x.1 x.2) (demoFibre i).regs } }
def lanes (rs : List (List (Nat × W32))) : State := device (holding rs) (.part 0)
def first (l : List (Nat × W32)) : State := lanes [l]

-- The examples of spec/10_arithmetic.md after R217.
theorem test_add_saturates : vAfter (first [(4, 0x80000000)]) (.add {} { ty := .i32, sat := true, d := 3, a := 4, b := .imm8 0xFF }) 0 3 =
    some 0x80000000 := by decide +kernel
theorem test_bfe : vAfter (first [(7, 0x68)]) (.bfe {} { ty := .i32, d := 2, a := 7, b := .imm32 0x403 }) 0 2 = some 0xFFFFFFFD := by decide +kernel
theorem test_div : vAfter (first [(2, -7), (3, 2)]) (.div {} { ty := .i32, d := 1, a := 2, b := .reg 3 }) 0 1 = some (-3) := by decide +kernel
theorem test_rem : vAfter (first [(2, -7), (3, 2)]) (.rem {} { ty := .i32, d := 1, a := 2, b := .reg 3 }) 0 1 = some (-1) := by decide +kernel
-- The examples of the floating forms.
theorem test_fma_rz : vAfter (first [(2, 0x40400000), (3, 0x3F800001)])
    (.fmaF32 {} { rnd := .rz, d := 6, a := 2, b := .reg 3 } (.imm 0x3F000000)) 0 6 = some 0x40600001 := by decide +kernel
theorem test_fma_rne : vAfter (first [(2, 0x40400000), (3, 0x3F800001)])
    (.fmaF32 {} { rnd := .rne, d := 6, a := 2, b := .reg 3 } (.imm 0x3F000000)) 0 6 = some 0x40600002 := by decide +kernel
theorem test_cvt_clamps : vAfter (first [(3, 0xC302B333)]) (.cvt {} .rz false 0 .i8 .f32 2 3) 0 2 = some 0xFFFFFF80 := by decide +kernel
theorem test_cvt_e4m3 : vAfter (first [(3, 0x43960000)]) (.cvt {} .rne false 0 .e4m3 .f32 2 3) 0 2 = some 0x79 := by decide +kernel
theorem test_prmt : vAfter (first [(1, 0x44332211), (2, 0x88776655)]) (.prmt {} 4 1 2 (.imm 0x7654)) 0 4 = some 0x88776655 := by decide +kernel
-- The examples of the lane forms: the reduction, the conflict masks, the match, and a quantised block.
theorem test_red : vAfter (lanes [[(2, 0x4B800000)], [(2, 0x3F800000)], [(2, 0x3F800000)], [(2, 0x40000000)]]) (.red {} (.addF .rne) 7 2) 0 7 =
    some 0x4B800001 := by decide +kernel
theorem test_conf : (List.range 4).map (vAfter (lanes [[(4, 3)], [(4, 1)], [(4, 3)], [(4, 3)]]) (.conf {} false 9 4) · 9) =
    [some 0, some 0, some 1, some 5] := by decide +kernel
theorem test_match : (List.range 4).map (vAfter (lanes [[(2, 6)], [(2, 9)], [(2, 6)], [(2, 6)]]) (.matchAny {} false 7 2) · 7) =
    [some 13, some 2, some 13, some 13] := by decide +kernel
theorem test_mxq : (List.range 2).map (vAfter (device { holding [[(2, 0x3F8CCCCD)], [(2, 0x40400000)]] with
      parts := [{ demoPart with lanes := [(0, 0), (1, 1)] }] } (.part 0)) (.mxq {} .e4m3 7 2) · 7) = [some 0x7871, some 0x787C] := by decide +kernel
-- `walk.init`, `walk.next` of an empty nest (R133).
theorem test_walk_init : (after { demoCox with blocks := [{ demoBlock with cox := { demoCoxThread with s := 0x0000010000200002 :: List.replicate 63 0 } }] }
    (.walkInit {} 0 1 2)).me.map (fun b => (b.walker.n0, b.walker.n1, b.walker.n2)) = some (2, 2, 1) := by decide +kernel
theorem test_walk_done : sAfter demoCox (.walkNext {} 9) 9 = some 0x8000000000000000 := by decide +kernel
-- The walk of spec/12_page.md, after R256: `xlat` of its pointer.
theorem test_xlat : vAfter { first [(2, 0x20001234), (3, 0x7F00)] with
      cores := { becalmed := false, tlb := [{ ctx := 0, va := 0x7F0020000000, sh := 21, pa := 0x080000400000, leaf := 0x08000040000B }] } :: List.replicate 127 {} }
    (.xlat {} 6 2) 0 7 = some 0x48000800 := by decide +kernel
-- The dataflow queue: a token of 0x0000000100000007 gives 7.
theorem test_dq_pop : vAfter (device { demoBlock with dq := [0x0000000100000007] } (.part 0)) (.dqPop {} false 2) 1 2 = some 7 := by decide +kernel
-- The pointers of spec/11_memory.md after R234: reserved space 5 has INFO 0x0005, which the handler finds in `%xcause` (Table 5-2).
theorem test_trap : ((after (device { holding [[(2, 0x40), (3, 0x50000000)]] with xvec := some 0x40 } (.part 0)) (.ld {} none .b32 20 2 (.d8 0))).myFib 0).map
    (fun f => (f.pc, f.x.xcause)) = some (0x40, 0x00050007) := by decide +kernel
/-! ### The catalogue of chapter 14 (R292–R310)

Each test gives the events of an outcome, from where each read takes its value, and the order of the writes; its verdict is
the catalogue's. -/

def mA (core : Nat) : MParty := .fibre core 0 0
def mx : List MByte := [(0, 0)]
def my : List MByte := [(0, 128)]
def mSt (p : MParty) (b : List MByte) (v : Byte) (rel : Option Scope) (issue : Nat) : MEvent :=
  { party := p, kind := .write, bytes := b, put := [v], rel := rel, issue := some issue }
def mLd (p : MParty) (b : List MByte) (v : Byte) (acq : Option Scope) : MEvent := { party := p, kind := .read, bytes := b, got := [v], acq := acq }
def mFence (p : MParty) (f : MFence) (s : Scope) : MEvent := { party := p, kind := .fence f, rel := some s, acq := if f == .ack then none else some s }
def mpRun (a b : MParty) (rel acq : Option Scope) : MExec :=
  { events := [mSt a mx 1 none 1, mSt a my 1 rel 2, mLd b my 1 acq, mLd b mx 0 none]
    rf := [(2, (0, 128), some 1), (3, (0, 0), none)], co := [((0, 0), [0]), ((0, 128), [1])] }

/-- MP.core: a cycle in core-tso. -/
theorem test_mp_core : (mpRun (.fibre 3 0 0) (.fibre 3 0 1) none none).ok = false ∧
    (mpRun (.fibre 3 0 0) (.fibre 3 0 1) none none).coreTsoOk = false := by decide +kernel
/-- MP.die, and the rows of MP.scope. -/
theorem test_mp_die : (mpRun (mA 0) (mA 8) (some .die) (some .die)).ok = false ∧ (mpRun (mA 0) (mA 8) none none).ok = true := by decide +kernel
theorem test_mp_scope : (mpRun (mA 0) (mA 8) (some .clu) (some .clu)).ok = true ∧ (mpRun (mA 0) (mA 8) (some .dev) (some .clu)).ok = true ∧
    (mpRun (mA 0) (mA 8) (some .die) (some .dev)).causality = false := by decide +kernel

def sbRun (a b : MParty) (between : MParty → List MEvent) (acq : Option Scope) : MExec :=
  let es := [mSt a mx 1 none 1] ++ between a ++ [mLd a my 0 acq]
  { events := es ++ [mSt b my 1 none 2] ++ between b ++ [mLd b mx 0 acq]
    rf := [(es.length - 1, (0, 128), none), (2 * es.length - 1, (0, 0), none)], co := [((0, 0), [0]), ((0, 128), [es.length])] }
/-- SB.core: allowed, and forbidden with `fence.sc.core` between. -/
theorem test_sb_core : (sbRun (.fibre 3 0 0) (.fibre 3 0 1) (fun _ => []) none).ok = true ∧
    (sbRun (.fibre 3 0 0) (.fibre 3 0 1) (fun p => [mFence p .sc .core]) none).ok = false := by decide +kernel
/-- SB.dev: with `fence.ack` allowed for plain loads and forbidden for acquires; forbidden with `fence.sc.dev`. -/
theorem test_sb_dev : (sbRun (mA 5) (mA 40) (fun p => [mFence p .ack .sys]) none).ok = true ∧
    (sbRun (mA 5) (mA 40) (fun p => [mFence p .ack .sys]) (some .clu)).ackOk = false ∧
    (sbRun (mA 5) (mA 40) (fun p => [mFence p .sc .dev]) none).scFence = false := by decide +kernel

def wrcRun (rel : Option Scope) : MExec :=
  { events := [mSt (mA 5) mx 1 none 1, mLd (mA 40) mx 1 none, mSt (mA 40) my 1 rel 2, mLd (mA 70) my 1 (some .dev), mLd (mA 70) mx 0 none]
    rf := [(1, (0, 0), some 0), (3, (0, 128), some 2), (4, (0, 0), none)], co := [((0, 0), [0]), ((0, 128), [2])] }
theorem test_wrc_dev : (wrcRun (some .dev)).causality = false ∧ (wrcRun none).ok = true := by decide +kernel

def iriwRun (acq : Option Scope) (between : MParty → List MEvent) : MExec :=
  let n := (between (mA 70)).length
  { events := [mSt (mA 5) mx 1 none 1, mSt (mA 40) my 1 none 2, mLd (mA 70) mx 1 acq] ++ between (mA 70) ++ [mLd (mA 70) my 0 acq,
      mLd (mA 100) my 1 acq] ++ between (mA 100) ++ [mLd (mA 100) mx 0 acq]
    rf := [(2, (0, 0), some 0), (3 + n, (0, 128), none), (4 + n, (0, 128), some 1), (5 + 2 * n, (0, 0), none)]
    co := [((0, 0), [0]), ((0, 128), [1])] }
theorem test_iriw_dev : (iriwRun (some .dev) fun _ => []).ok = true ∧ (iriwRun none fun p => [mFence p .sc .dev]).scFence = false := by
  decide +kernel

def corrRun (v w : Byte) (f g : Option Nat) : MExec :=
  { events := [mSt (mA 5) mx 1 none 1, mLd (mA 40) mx v none, mLd (mA 40) mx w none]
    rf := [(1, (0, 0), f), (2, (0, 0), g)], co := [((0, 0), [0])] }
theorem test_corr_dev : (corrRun 1 0 (some 0) none).coherence = false ∧ (corrRun 0 1 none (some 0)).ok = true := by decide +kernel

/-- LB.dev: allowed, and forbidden when each stores what it has read. -/
def lbRun (da db : List Nat) : MExec :=
  { events := [mLd (mA 5) mx 1 none, { mSt (mA 5) my 1 none 1 with deps := da }, mLd (mA 40) my 1 none, { mSt (mA 40) mx 1 none 2 with deps := db }]
    rf := [(0, (0, 0), some 3), (2, (0, 128), some 1)], co := [((0, 0), [3]), ((0, 128), [1])] }
theorem test_lb_dev : (lbRun [] []).ok = true ∧ (lbRun [0] [2]).noThinAir = false := by decide +kernel

/-- ATOM.dev: two additions of 1 that both receive 0 are forbidden; 0 and 1 are allowed. -/
def atomRunOf (v : Byte) (src : Option Nat) : MExec :=
  let u := fun (p : MParty) (v : Byte) (n : Nat) => ({ party := p, kind := .rmw, bytes := mx, got := [v], put := [v + 1], issue := some n } : MEvent)
  { events := [u (mA 5) 0 1, u (.remote 9) v 2], rf := [(0, (0, 0), none), (1, (0, 0), src)], co := [((0, 0), [0, 1])] }
theorem test_atom_dev : (atomRunOf 1 (some 0)).ok = true ∧ (atomRunOf 0 none).atomicity = false := by decide +kernel

/-- SECT.flag: the copy of core 5 writes sector 0 and sector 3 of d. -/
def sectRun (v w : Byte) (acq : Option Scope) : MExec :=
  let c := fun (b : MByte) (k n : Nat) => ({ party := .engine 5 1, kind := .write, bytes := [b], put := [1], unit := some (1, k), issue := some n } : MEvent)
  { events := [c (0, 0) 0 1, c (0, 96) 3 2, mLd (mA 40) [(0, 96)] v acq, mLd (mA 40) [(0, 0)] w none]
    rf := [(2, (0, 96), if v = 1 then some 1 else none), (3, (0, 0), if w = 1 then some 0 else none)], co := [((0, 0), [0]), ((0, 96), [1])] }
theorem test_sect_flag : (sectRun 1 0 (some .dev)).sector = false ∧ (sectRun 1 0 none).ok = true ∧ (sectRun 0 1 (some .dev)).ok = true := by
  decide +kernel

/-- ENG.acq: the copy may not read x from before the store when its last push released; without `.acq` it may. -/
def engRun (acq : Option Scope) : MExec :=
  { events := [mSt (mA 5) mx 1 none 1, { party := mA 5, kind := .point, points := [.pushes 1] },
      { mLd (.engine 5 1) mx 0 none with points := [.starts 1 acq] }, { mSt (.engine 5 1) my 0 none 3 with points := [.stops 1 (some .core)] },
      mFence (mA 5) .eng .core, mLd (mA 5) my 0 none]
    rf := [(2, (0, 0), none), (5, (0, 128), some 3)], co := [((0, 0), [0]), ((0, 128), [3])] }
theorem test_eng_acq : (engRun (some .core)).causality = false ∧ (engRun none).ok = true := by decide +kernel

/-- DQ.core: the push releases and the pop of its token acquires. -/
def dqRun (v : Byte) (src : Option Nat) : MExec :=
  { events := [mSt (.cox 3 0) mx 1 none 1, { party := .cox 3 0, kind := .point, points := [.gives (.token 0) .core] },
      { party := mA 3, kind := .point, points := [.takes (.token 0) .core] }, mLd (mA 3) mx v none]
    rf := [(3, (0, 0), src)], co := [((0, 0), [0])] }
theorem test_dq_core : (dqRun 0 none).causality = false ∧ (dqRun 1 (some 0)).ok = true := by decide +kernel

/-- R292: three lanes of a returning atomic, two of them at one address: two U events, of the lowest lanes' fibres. -/
def atomLane (lane fid : Nat) (b : List MByte) (got put : Byte) : MLane := { lane := lane, fid := fid, kind := .rmw, bytes := b, got := [got], put := [put] }
theorem test_aggregated_events : (fibreEvents (.atomAdd {} { ty := .n32, d := 8, a := 2, b := 4, disp := .d8 0, o := { acq := true, scope := .dev } }) 5 0 7
      [atomLane 0 8 mx 0 1, atomLane 1 9 my 0 1, atomLane 2 10 mx 1 2]).map (fun e => (e.party, e.put, e.acq, e.lane)) =
    [(.fibre 5 0 8, [2], some .dev, 0), (.fibre 5 0 9, [1], some .dev, 1)] := by decide +kernel

/-! ### The assembler (R25–R52) -/

def asmText (ls : List String) : String := String.join (ls.map fun l => l ++ "\n")

/-- A kernel around a fibre section. -/
def asmKernel (fib : List String) : String :=
  asmText ([".kernel k", ".window 32", ".cox", "kend", ".fibre"] ++ fib ++ [".endk"])

def loadAt (text : String) (base : Nat) : Option Loaded := match assemble "t.tws" text with
  | .ok o => loadObj o base
  | .error _ => none

/-- The code of the first kernel in 32-bit words, from an offset. -/
def codeWords (text : String) (o n : Nat) : List Nat := match (loadAt text 0).bind fun l => l.kerns.head? with
  | some k => (List.range n).map fun i => fieldAt k.code (o + 4 * i) 4
  | none => []

/-- The errors of a text. -/
def asmErrs (text : String) : List Nat := match assemble "t.tws" text with
  | .ok _ => []
  | .error e => e.map fun x => x.2

/-- Table 2-4, with the word at offset 12 as the loader writes it (R42). -/
theorem test_asm_data :
    ((loadAt (asmText ["        .data", "        .align  16", "tab:    .b32    1, -1, 0x7FC0_0000, lo(tab + 8)       // 01",
        "vals:   .f32    1.5, -0.1, inf                        // 02", "cnt:    .b32    sizeof(vals) / 4                      // 03"])
      0x00007F0020000000).map fun l => (List.range 8).map fun i => fieldAt l.data (4 * i) 4) =
    some [0x00000001, 0xFFFFFFFF, 0x7FC00000, 0x20000008, 0x3FC00000, 0xBDCCCCCD, 0x7F800000, 0x00000003] := by decide +kernel

/-- Table 2-5: the padding before C, E and G, and at the end of the section. -/
theorem test_asm_layout : padsBefore 20 8 = [12] ∧ padsBefore 40 16 = [] ∧ padsBefore 56 12 = [8] ∧ padsBefore 76 12 = [] ∧
    padsBefore 88 16 = [8] ∧ padsTo 32 112 = [8, 8] := by decide +kernel

/-- The instructions of Table 2-5 in a fibre section at 32: a label after E has the offset of F, 32 + 76. -/
theorem test_asm_label :
    codeWords (asmKernel ["add.n32 V5, V4, V6", "mov.n32 V1, #1000", "add.n32 V5, V4, V6", "movx V2, #0", "mov.n32 V1, #1000",
      "f: mov.n32 V1, #f", "movx V2, #f"]) (32 + 76 + 8) 1 = [32 + 76] := by decide +kernel

/-- R45's example: a load of V8, three instructions on V10–V15, and one that reads V8 give LA = 3. -/
theorem test_asm_lookahead :
    codeWords (asmKernel ["ld.b32 V8, [V2]", "add.n32 V10, V11, V12", "add.n32 V13, V14, V15", "add.n32 V10, V11, V12",
      "add.n32 V16, V8, V8", "exit"]) 32 1 = [0x08200D80] := by decide +kernel

/-- Words that the chapters list: `atom.add.n32` of R289 and `cst.b32` of Table 16-3, with their LA capped at 0. -/
theorem test_asm_words :
    codeWords (asmKernel ["atom.add.n32.la0 V10, [V2], V6", "cst.b32.la0 V6, [V8], V12, P2", "?!P1 exit", "exit"]) 32 6 =
      [0x08280200, 0x00040018, 0x201801C8, 0x00900030, 0x00024040, 0x04000000] := by decide +kernel

/-- Errors: a register at W, an S register in a fibre section, an unknown modifier, `.laN` above the value of R45, and a name
defined twice (R27, R31, R46). -/
theorem test_asm_errors :
    asmErrs (asmKernel ["a: mov.n32 V32, #0", "mov.n32 S1, #0", "mov.q32 V1, #0", "ld.b32.la2 V8, [V2]", "a: add.n32 V8, V8, V8"]) = [7, 8, 10, 6, 9] := by
  decide +kernel

/-- A name that an earlier fibre line defines is no forward reference in a cox section that follows: `mov` takes its 64-bit form
(R33). A last line without its end is an error of that line, beside the others (R25, R37). -/
theorem test_asm_order :
    codeWords (asmText [".kernel k", ".window 8", ".fibre", ".equ X, 5", "exit", ".cox", "mov.n32 S1, #X", "kend", ".endk"]) 0 3 =
      codeWords (asmText [".kernel k", ".window 8", ".cox", "mov.n32 S1, #5", "kend", ".fibre", "exit", ".endk"]) 0 3 ∧
    asmErrs (asmText [".window 8"] ++ ".data") = [1, 2] := by decide +kernel

/-- Values at the edge of 64 bits (R34, R35): the remainder of -2^63 by -1 is 0, its quotient and its log2 are errors. -/
theorem test_asm_edges : binVal "%" (-0x8000000000000000) (-1) = some 0 ∧ binVal "/" (-0x8000000000000000) (-1) = none ∧
    log2Val (-0x8000000000000000) = none ∧ log2Val 0x4000000000000000 = some 62 := by decide +kernel

/-- A relation table is read back by the machine's own loader as declared (R40, R50). -/
theorem test_asm_relation :
    ((loadAt (asmText [".kernel k", ".window 32", ".relation A, key=V10", ".relation B, key=V2:V3, V4=count, V6:V7=add.i64",
        ".cox", "kend", ".fibre", "exit", ".endk"]) 0).map fun l => l.kerns.map fun k => k.rels.drop 4) =
      some [[0xFF, 0xFF, 1, 0, 0, 0, 10, 1, 4, 0, 0, 0, 0xFF, 0xFF, 3, 0, 0, 0, 2, 2, 0, 0, 4, 9, 0, 3, 6, 5]] := by decide +kernel

/-- Rounding of decimal literals: a tie to even, the least subnormal, a value that rounds to zero, and one that rounds to
infinity (R28). -/
theorem test_asm_floats : decF32 16777217 0 = some 0x4B800000 ∧ decF32 1 (-45) = some 1 ∧ decF32 1 (-46) = some 0 ∧
    decF32 4 38 = none := by decide +kernel

/-! ### The mesh of compute dies (R8) -/

/-- With C-die 3 out of service, traffic from C-die 2 to C-die 1 passes through C-die 0 (R420). -/
theorem test_mesh_out : let s := { demo with stage := .stage2, miss := 8 }
    s.routeOf 2 1 = [0, 1] ∧ s.routeOf 1 2 = [0, 2] := by decide +kernel

/-- Traffic from C-die 1 to C-die 2 passes through C-die 0, and from C-die 2 to C-die 1 through C-die 3. -/
theorem test_mesh : meshRoute 1 2 = [0, 2] ∧ meshRoute 2 1 = [3, 1] ∧ passesDie 1 2 0 = true ∧ passesDie 2 1 3 = true ∧
    ((List.range 16).all fun i => (meshBridges (i / 4) (i % 4)).all fun x => bridged x.1 x.2) = true := by decide +kernel

/-! ### More states for the statements: boundaries, and what waits -/

/-- A part whose lanes stand at two places, n more parts of its origin, and m more of another. -/
def apartBlock (n m : Nat) : Block :=
  { demoBlock with
    fibres := (List.range 4).map fun i => { demoFibre i with pc := if i = 3 then 8 else 0 }
    parts := demoPart :: ((List.range n).map fun i => { demoPart with id := 1 + i, lanes := [] }) ++
      (List.range m).map fun i => { demoPart with id := 100 + i, origin := 1, lanes := [] } }
/-- k = 2 with 7 parts and 8, with one record free and with none; a part in serial mode; and one that stands together. -/
theorem witness_splits : (∀ x ∈ [((6 : Nat), (0 : Nat)), (7, 0), (0, 46), (0, 47)], let b := apartBlock x.1 x.2
      let s := device b (.part 0)
      s.block? 0 0 = some b ∧ b.part? 0 = some demoPart ∧ demoPart.serial = false ∧ standing b demoPart = 2 ∧
      originParts s b demoPart = x.1 + 1 ∧ s.freeRecords 0 0 = 47 - x.1 - x.2) ∧
    standing demoBlock demoPart = 1 ∧ { demoPart with serial := true }.serial = true := by
  unfold originParts; decide +kernel

/-- Fibres in a trap, and a rejoin of which three lanes have not arrived. -/
theorem witness_split_causes :
    (∀ x ∈ (device { demoBlock with fibres := (List.range 4).map fun i => { demoFibre i with x := { xcause := 3 } } } (.part 0)).act {},
      x.2.x.xcause.extractLsb' 0 8 ≠ 0) ∧
    (let o : Origin := { id := 0, part := 0, j := { set := 0xF, arv := 1 } :: List.replicate 7 {} }
     let b := { demoBlock with origins := [o] }
     let s := device b (.part 0)
     Issuing s b demoPart ∧ b.origin? 0 = some o ∧ o.j.length = 8 ∧
       ((o.mask 0).arv ||| lanesOf ((s.act { pg := 1 }).filter fun y => (o.mask 0).set.getLsbD y.1 && !(o.mask 0).arv.getLsbD y.1)) ≠
         (o.mask 0).set) :=
  ⟨by decide +kernel, ⟨by decide +kernel, rfl, by decide +kernel⟩, by decide +kernel, by decide +kernel, by decide +kernel⟩

/-- Every format is in the table, with both zeros; and an infinity, a NaN and the largest of E4M3 (R53, R54). -/
theorem witness_formats : (∀ x ∈ formats, (x.1.decode 0).isZero ∧ (x.1.decode (2 ^ (x.2.1 + x.2.2.1))).negative = true ∧
      (x.1.decode (2 ^ (x.2.1 + x.2.2.1))).isZero ∧ (x.1.decode x.2.2.2.2.1).isNan) ∧
    Fmt.f32.decode 0xFF800000 = .inf true ∧ Fmt.f32.decode 0x7F800000 = .inf false ∧ (Fmt.e4m3fmt.decode 0x7E).nonFinite = false := by
  decide +kernel
theorem real_neg_zero : real (Fmt.f32.decode 0x80000000) = 0 := by
  rw [show Fmt.f32.decode 0x80000000 = .fin true 0 (-149) by decide +kernel]; simp [real]
/-- Sums of two zeros of one sign and of both, and of terms that cancel (R66). -/
theorem witness_zero_sums : let Z := real (Fmt.f32.decode 0)
    let N := real (Fmt.f32.decode 0x80000000)
    let A := real (Fmt.f32.decode 0x3F800000)
    let M := real (Fmt.f32.decode 0xBF800000)
    Z + Z = 0 ∧ N + N = 0 ∧ Z - Z = 0 ∧ A + M = 0 ∧ A - A = 0 ∧ A * A + M = 0 := by
  simp only [real_zero, real_neg_zero, real_one, real_minus_one]; norm_num

/-- Parties that a fence finds with a load pending, with nothing under a scoreboard bit and no command at a port; a collector entry of
theirs and one of another block's. -/
def gathering : Pend := { loadPend with kind := .load (.glob 0x10040) .b32 none (some .normal) false }
theorem witness_fence_waits : let s := { waiting gathering with cores :=
      ({ becalmed := false, tlb := [demoTlb], coll := [{ line := 0x10000, write := false, start := 0, reqs := [(gathering.issue, gathering.lane)] },
        { line := 0x10080, write := false, start := 0, pools := [(3, .fib 0, .normal)] }] } : Core) :: List.replicate 127 {} }
    (∃ x ∈ s.views {}, ¬ noReads s demoBlock x.2.1) ∧ (∀ f ∈ demoBlock.fibres, f.sb = []) ∧ s.cmds = [] ∧
    (s.core 0).coll.map (fun e => decide (holdsOf s demoBlock ((s.views {}).map (·.2.1)) e = true)) = [true, false] := by
  refine ⟨⟨(1, .fib 1, .fib (demoFibre 1)), by decide +kernel, ?_⟩, by decide +kernel⟩
  intro h
  exact h gathering (by decide +kernel) rfl rfl rfl

/-- A `cst` whose elements lie on another device. -/
def farBlock : Block := { demoBlock with fibres := (List.range 4).map fun i =>
  let f := demoFibre i
  { f with regs := (f.regs.set 4 0x40).set 5 0x00E00400 } }
theorem witness_cst_far : let s := device farBlock (.part 0)
    ptrCheck farBlock [0, 1, 2, 3] 0x00E0040000000040 0 4 true = .ok 0 0x00E0040000000040 ∧
    (∀ y ∈ chosen s {} 0, cstChk s farBlock { demoFibre 0 with regs := ((demoFibre 0).regs.set 4 0x40).set 5 0x00E00400 } 4 (.d8 0) 4 y =
      .ok (.remote 1 (0x40 + 4 * y.2)) none) ∧ (chosen s {} 0).length = 4 := by decide +kernel

/-- The second read of an embedding record: its first 32 bytes have come. -/
theorem witness_embpool_scale : let y : PoolBuf := { slot := 0, who := .fib 0, pa := 0x10040, isRec := true, data := embRecord.take 32 }
    let s := embState [y]
    isRecOf 0 (.fib 0) y = true ∧ y.bad = [] ∧ y.data.length = 32 ∧ s.mayReadNow embBlock (.fib 0) = true ∧ (s.core 0).paths = [] ∧
    s.readHeld 0 0 (0x10040 + 32) = false ∧ isMg (0x10040 + 32) = false := by decide +kernel

/-- An UNBORN fibre whose initial state is still to be saved. -/
theorem witness_unborn : let f := { demoFibre 4 with life := .unborn, win := false }
    let b := { demoBlock with fibres := demoBlock.fibres ++ [f], nextFid := 5 }
    let s := windowState b
    s.block? 0 0 = some b ∧ b.fib? 4 = some f ∧ f.regs ≠ [] ∧ f.stuck = false ∧ SpillMapped s b f .write 0x224000 := by
  unfold SpillMapped; decide +kernel

/-- A fold whose lowest fibre is SWAPPED, with its image in memory. -/
def swapFold : Block :=
  { relBlock 2 .emitting [{ fold := true, rel := 0, st := .emit }] with
    fibres := [{ demoFibre 0 with life := .swapped, win := false, regs := [], wait := some (.relation true 0 0 true false), next := 8 },
      { demoFibre 1 with life := .parked, wait := some (.relation true 0 0 true false), next := 8 }]
    parts := [{ demoPart with lanes := [(1, 1)] }] }
theorem witness_swapped_survivor : let s := windowState swapFold
    s.block? 0 0 = some swapFold ∧ s.shapeOk = true ∧ swapFold.rels[0]? = some keyed ∧ s.mem.wf = true ∧ swapFold.kr.w.toNat ≤ 256 ∧
    (∀ f ∈ swapFold.fib? 0, f.life = .swapped ∧ f.win = false ∧ f.held = [] ∧ SpillMapped s swapFold f .read 0x204000 ∧
      SpillMapped s swapFold f .write 0x204000) ∧ 0x204000 + 1112 ≤ mgBase ∧
    (∀ c ∈ keyed.clauses, c.vd.toNat < swapFold.kr.w.toNat ∧ ¬ (c.arg.toNat = 3 ∨ c.arg.toNat = 4)) ∧
    (∀ k ∈ swapFold.keys, k.rel = 0 ∧ ∃ f ∈ swapFold.fib? k.fid, f.wait = some (.relation true 0 0 true false) ∧ f.stuck = false) := by
  unfold SpillMapped; decide +kernel

/-- A vector's header at the bank's port 0 without its vector. -/
def headBlock : Block := { demoBlock with q := { bind := some (.engine .bank 0 0), push := [{ v := 0x1000000000000000 }], pushed := 1 } :: List.replicate 15 {} }
theorem witness_port_head : let s := { banked (bankOf 0 0 [zeroEnt, {}] []) .none with blocks := [headBlock] }
    s.block? 0 0 = some headBlock ∧ s.offersHead .bank 0 0 headBlock 0 = true ∧ dimOf s 0 = 1 ∧
    (∀ c ∈ s.blocks, ∀ j < 16, ((s.offer .bank 0 0 c j).isSome = true ∨ s.offersHead .bank 0 0 c j = true) →
      turnOf s .bank 0 0 headBlock 0 ≤ turnOf s .bank 0 0 c j) := by unfold dimOf; decide +kernel

/-- An arrival of another part, which an instruction of the cox thread may pass, and one of the cox thread. -/
theorem witness_bank_clear :
    (let s := banked (bankOf 0 0 [zeroEnt, {}] [{ issue := 7, slot := 0, kind := .merge, dest := .regs [(.fib 0, 9)], src := 1, cyc := 5 }]) .cox
     clear s demoBlock [.cox] ∧ ¬ quiet s demoBlock) ∧
    (let s := banked (bankOf 0 0 [zeroEnt, {}] [{ issue := 7, slot := 0, kind := .merge, dest := .regs [(.cox, 9)], src := 0, cyc := 5 }]) .cox
     ¬ clear s demoBlock [.cox]) := by
  unfold clear quiet ahead sent; decide +kernel

/-- Refused operands of Eddy's commands, and a descriptor with a device bit whose table lies in memory, runs past the scratchpad, or is
in a space of its own (R380, R390–R392). -/
theorem witness_eddy_refused : gateRefused (edSlot 0 0) 1 13 ∧ gateRefused (edSlot 0 0) 2 0x0101 ∧ gateRefused (edSlot 0 0) 1 0x40 ∧
    swapRefused (edSlot 0 0) 0x0D00 ∧ swapRefused (edSlot 0 0) 0x0101 ∧ measRefused (edSlot 0 0) 13 ∧ measRefused (edSlot 0 0) 0x40 :=
  ⟨.inr (.inl ⟨0, by decide, by decide⟩), .inr (.inr ⟨0, 1, by decide, by decide, by decide⟩),
    .inl ⟨6, by decide, by decide, fun m hm => .inr (by omega)⟩, by unfold swapRefused; decide, by unfold swapRefused; decide,
    by unfold measRefused; decide, by unfold measRefused; decide⟩
def edDescOf (tab : Nat) : List Byte := leBytes 8 0x10000 ++ leBytes 8 tab ++ [0, 0, 1, 0] ++ List.replicate 12 0
theorem witness_eddy_devices : (∀ tab ∈ [0x10100, 0x1000000000000FFE, 0x4000000000000000],
      let s := { demo with mem := Mem.write [] 0x10040 (edDescOf tab) }
      s.getSpan demoBlock (.fib 0) (s.chkSpan demoBlock 0x10040 32 false) = .ok (edDescOf tab)) ∧
    ptrCheck demoBlock [0, 1, 2] 0x4000000000000000 0 1 false = .bad 0 4 ∧
    ptrCheck demoBlock [0, 1, 2] 0x1000000000000FFE 0 1 false = .ok 1 0xFFE ∧ limitOf demoBlock 1 false < 0xFFE + 2 * 2 ^ 1 ∧
    ptrCheck demoBlock [0, 1, 2] 0x10100 0 1 false = .ok 0 0x10100 ∧ 0x10100 + 2 * 2 ^ 1 ≤ limitOf demoBlock 0 false ∧
    demo.getSpan demoBlock (.fib 0) (demo.chkSpan demoBlock 0x10100 4 false) = .ok [0, 0, 0, 0] := by decide +kernel
/-- Parties with a command in a slot that is READY, and in one that is FREE. -/
theorem witness_edsync_waits : (∀ st ∈ [EdSt.ready, .free], let s := edState { edSlot 0 0 with st := st } (edCmd .norm)
      (∃ c ∈ (s.ed 0 0).cmds, c.core = demoBlock.core ∧ c.slot = demoBlock.slot ∧ ∃ w ∈ c.parties, w ∈ s.issuers)) ∧
    qubits (edSlot 1 0) = 14 ∧ near (edSlot 1 0) = 13 ∧ ¬ swapRefused (edSlot 1 0) 0x0D00 ∧ near (edSlot 1 0) ≤ ((0x0D00 : W32).extractLsb' 8 6).toNat := by
  unfold swapRefused; decide +kernel
theorem region_norms : let s := edWaiting .norm (.sums [(1, 2)]); Region s 0 (s.ed 0 0) :=
  region_of _ _ 512 (by decide +kernel) (by decide) (by decide +kernel) (by decide) (by decide +kernel) (by decide +kernel)

/-- Receive regions that fit and that do not: off 64 KiB, without a buffer, and at another device's addresses. -/
theorem witness_rx : RxFits demoCox 0x10000 1 ∧ RxFits demoCox 0x10000 256 ∧ ¬ RxFits demoCox 0x10040 1 ∧ ¬ RxFits demoCox 0x10000 257 ∧
    ¬ RxFits demoCox 0x10000 512 ∧ ¬ RxFits demoCox 0x00E0040000000000 1 ∧ RxFits demoCox 0x00E0000000000000 1 := by
  unfold RxFits; decide +kernel

/-- A request whose sector failed, once and again; one that fetches code, whose page has the X right, and one that asks for the W
right. -/
theorem witness_remote_sector : let s := { linked upPort with outstanding := [asked] }
    s.shapeOk = true ∧ s.strays = [] ∧ asked.retried = false ∧ asked.image = false ∧ asked.coll = none ∧ NextUp s 0 0 0 ∧ Room s 0 0 ∧
    { asked with retried := true }.retried = true ∧ (∀ p ∈ s.pends, p.cstOf asked.core asked.issue = false) ∧
    (request (.read 4) false).intact = true ∧ { request (.read 4) false with intact := false }.intact = false ∧
    (⟨12, 0x10000, 0x1000F⟩ : Leaf).check .fetch false 0x5040 = .ok 0x10040 ∧ remote.bad 0x10040 32 = false ∧
    { remote with poison := [0x10040 / 8] }.bad 0x10040 32 = true := by
  refine ⟨by decide +kernel, rfl, rfl, rfl, rfl, ⟨by decide, by unfold usable; decide +kernel, fun m hm => ?_⟩, by unfold Room; decide +kernel,
    by decide +kernel⟩
  have := hm.1; omega

/-- A walk at a controller that is held, so that a translation and an area wait. -/
def heldWalk : State :=
  { mapped with ctxs := { st := .running, priv := true, root := some 0x20000, eff := List.replicate 6 (List.replicate 10 0) } :: List.replicate 63 {} }
theorem witness_held_walk : heldWalk.walkHeld 0 0 0x40000 = true ∧ mapped.walkHeld 0 0 0x40000 = false ∧
    heldWalk.areaOk demoBlock 0x40000 256 .read = none ∧ heldWalk.areaOk demoBlock 0x40000 256 .write = none := by decide +kernel

/-! ### Fetching -/

/-- The thread of a placed instruction with windows: its form is still open, has instructions left, or neither. -/
def windowed (w : Nat) (ws : List Window) : State :=
  let s := placed w
  fetching { s with blocks := s.blocks.map fun b => { b with parts := b.parts.map fun p => { p with windows := ws } }
                    pends := [{ loadPend with issue := 9 }] }
def openWin (left : Nat) (names : List RName) : Window := { issue := 9, names := names, left := left, pos := 2 }
/-- The branches, names and guards of a violation, and one window that neither shares a register nor meets a branch (R87). -/
theorem witness_windows_break : let k := oneBlock.dctx true .fibre
    let f := fieldsAt (leBytes 8 0x00000014100C0080) 0
    let an : Ana := { d := .v 1 1, a := .v 1 1, b := .v 1 1 }
    Breaks k an f (openWin 1 [.v 4]) ∧ ¬ Breaks k an f (openWin 0 [.v 4]) ∧ ¬ Breaks k an f (openWin 1 [.v 9]) ∧ regOf k an f (openWin 1 [.v 4]) = 4 ∧
    Breaks k an { f with opc := 1 } (openWin 1 []) ∧ regOf k an { f with opc := 1 } (openWin 1 []) = 0xFE ∧
    Breaks k an { f with pg := 1 } (openWin 1 [.p 1]) ∧ regOf k an { f with pg := 1 } (openWin 1 [.p 1]) = 0xFF := by
  unfold Breaks regOf; decide +kernel
theorem witness_windows_open : let s := windowed 0x00000014100C0080 [openWin 0 [], openWin 2 [.v 9]]
    (s.windowsOf 0 0 (.part 0)).filter (fun w => w.left ≠ 0 || s.pending w.issue) = [openWin 0 [], openWin 2 [.v 9]] ∧ s.busy = true := by
  decide +kernel
/-- Each check of Table 4-5 that fails by its word alone: LEN 3, an unassigned major, a privileged form, and one that runs past its
block; and a form that stage 1 refuses (R92, R429). -/
theorem witness_checks_fail : let k := oneBlock.dctx false .fibre
    (match decode k (leBytes 32 3) with | .error (.illegal n) => n == 1 | _ => false) = true ∧
    (match decode k (leBytes 32 0x3FC) with | .error .privilege => true | .error (.illegal n) => n == 2 | _ => false) = true ∧
    (match decode { k with stream := .cox } (leBytes 32 0x3E0) with | .error .privilege => true | _ => false) = true ∧
    (match decode k (leBytes 8 0x00000014100C0081) with | .error .malformed => true | _ => false) = true ∧
    ({ State.reset with stage := .stage1 }.stateCheck oneBlock k (fieldsAt (leBytes 8 0x004C000010500380) 0)) = some 2 := by
  decide +kernel
/-- Code on another device: a core that has a copy of it, one that has not, and what a request has brought; and code in held and in bad
memory. -/
theorem witness_far_code : let at_ := 0x00E0040000010000
    isRemote at_ = true ∧ BitVec.extractLsb' 42 10 (BitVec.ofNat 64 at_) ≠ demo.devNum ∧ at_ % 2 ^ 42 = 0x10000 ∧
    demo.codeMiss 0 0 at_ = true ∧ { demo with cores := [{ icache := [(0, at_, 0)] }] }.codeMiss 0 0 at_ = false ∧
    1 ∈ { demo with lostDevs := [1] }.lostDevs ∧ 1 ∉ demo.lostDevs ∧
    (let r : RBuf := { slot := 0, who := .fib 0, dev := 1, va := 0x10000, data := List.replicate 32 0 }
     r.bad = none ∧ r.slot = 0 ∧ demo.issuers.contains r.who = true ∧ { r with bad := some (6, 0) }.bad ≠ none) ∧
    ({ demo with poison := [0x10000 / 8] }.bad 0x10000 32 = true ∧ demo.bad 0x10000 32 = false ∧ heldWalk.lineHeld 0 0x210000 = true) := by
  decide +kernel

/-! ### Digests -/

/-- The check value of this CRC, and FIPS 180-4's digest of "abc". -/
theorem test_crc : crc32 [0x31, 0x32, 0x33, 0x34, 0x35, 0x36, 0x37, 0x38, 0x39] = 0xFC891918 := by decide +kernel
theorem test_sha384 : sha384 [0x61, 0x62, 0x63] =
    bigBytes 48 0xCB00753F45A35E8BB5A03D699AC65007272C32AB0EDED1631A8B605A43FF5BED8086072BA1E7CC2358BAECA134C825A7 := by decide +kernel

/-! ### Areas on other devices -/

/-- Answers that a cox thread holds from device 1. -/
def answered (rs : List RBuf) : State := let s := savedState 1 0
  { s with cores := s.cores.set 0 { (s.core 0) with rbuf := rs } }
def answerOf (va : Nat) (x : List Byte) (bad : Option (Nat × Nat)) : RBuf := { slot := 0, who := .cox, dev := 1, va := va, data := x, bad := bad }
/-- An area on device 1: no answer yet, a failed one, and all of them; and areas on this device, one of bad data. -/
theorem witness_far_area : let far := 0x00E0040000010000
    let s := answered []
    s.areaOk demoBlock (BitVec.ofNat 64 far) 1 .read = some true ∧ s.farAsk demoBlock (s.farReads far 1) = .need 1 0x10000 (.read 1) ∧
    (answered [answerOf 0x10000 [] (some (6, 0))]).farAsk demoBlock (s.farReads far 1) = .bad 6 ∧
    (answered [answerOf 0x10000 [] (some (0x11, 0))]).farAsk demoBlock (s.farReads far 1) = .bad 0x11 ∧
    (answered [answerOf 0x10000 [7] none]).farAsk demoBlock (s.farReads far 1) = .done ∧
    (answered [answerOf 0x10000 [7] none]).getArea demoBlock far 1 = [7] ∧
    s.farAsk demoBlock (s.farReads 0x10000 1) = .done ∧ s.areaBad demoBlock 0x10000 1 = false ∧
    { s with poison := [0x10000 / 8] }.areaBad demoBlock 0x10000 1 = true := by decide +kernel
theorem witness_far_save : let far := 0x00E0040000010000
    let s := governed demoCox (ward .stopped)
    (∀ n, s.farAsk demoBlock (s.farRights 0x10000 (Nat.min n 0)) = .done) ∧ (∀ n, s.farAsk demoBlock (s.farRights far (Nat.min n 0)) = .done) ∧
    s.farAsk demoBlock (s.farRights far 1) = .need 1 0x10000 (.write []) ∧
    (answered [answerOf 0x10000 [] none]).farAsk demoBlock (s.farRights far 1) = .done ∧
    (answered [answerOf 0x10000 [] (some (6, 3))]).farAsk demoBlock (s.farRights far 1) = .bad 6 ∧
    ∃ op, s.farAsk demoBlock (s.farWrites far 256 0) = .need 1 0x10000 op := by
  have h : ∀ n, Nat.min n 0 = 0 := fun n => Nat.min_zero n
  simp only [h]
  refine ⟨fun _ => by decide +kernel, fun _ => by decide +kernel, by decide +kernel, by decide +kernel, by decide +kernel, ?_⟩
  exact ⟨_, rfl⟩
/-- A device to ask, a port to it, and a free tag. -/
theorem witness_far_ask : let s := linked upPort
    s.shapeOk = true ∧ NextUp s 1 ((1 + 0x10000 / 128 % 64) % 18) 1 ∧ Room s 0 1 ∧ s.outstanding = [] ∧ demoBlock.ctx = 0 := by
  refine ⟨by decide +kernel, ⟨by decide, by unfold usable; decide +kernel, fun m hm => ?_⟩, by unfold Room; decide +kernel, by decide +kernel, rfl⟩
  omega

end Sys2Proof.Tests
end

section

/-! ## The tile walker, the stages and the end of the cox thread (R129, R133–R135) -/

namespace Sys2Proof.Machine

open Sys2Proof Sys2Proof.Claims

/-! ### What an update of the running block leaves still -/

/-- Modifying one element is not seen through a view that the modification keeps. -/
theorem map_modify_of_kept {α β : Type} (v : α → β) (f : α → α) (hf : ∀ a, v (f a) = v a) (l : List α) :
    ∀ n, (l.modify n f).map v = l.map v := by
  induction l with
  | nil => intro n; cases n <;> rfl
  | cons a r ih =>
    intro n
    cases n with
    | zero => simp [hf]
    | succ n => simp [ih]

/-- A block that keeps what an issue leaves alone of it keeps its place. -/
theorem Block.place_of_still {a b : Block} (h : a.still = b.still) : a.core = b.core ∧ a.slot = b.slot := by
  have core : a.still.core = b.still.core := by rw [h]
  have slot : a.still.slot = b.still.slot := by rw [h]
  exact ⟨core, slot⟩

theorem State.still_updCore (s : State) (n c l : Nat) (f : Core → Core) (hf : ∀ x, (f x).still = x.still) :
    (s.updCore n f).still c l = s.still c l :=
  congrArg (fun cs => { s.still c l with cores := cs }) (map_modify_of_kept Core.still f hf s.cores n)

theorem State.still_updCtx (s : State) (n c l : Nat) (f : Ctx → Ctx) (hf : ∀ x, (f x).still = x.still) :
    (s.updCtx n f).still c l = s.still c l :=
  congrArg (fun cs => { s.still c l with ctxs := cs }) (map_modify_of_kept Ctx.still f hf s.ctxs n)

theorem State.still_charge (s : State) (x d n c l : Nat) (k : BClass) : (s.charge x d k n).still c l = s.still c l :=
  s.still_updCtx x c l _ (by intro x; rfl)

theorem State.still_updBlock (s : State) (c l : Nat) (f : Block → Block) (hf : ∀ b, (f b).still = b.still) :
    (s.updBlock c l f).still c l = s.still c l := by
  have place : ∀ b, (f b).at c l = b.at c l := fun b => by
    obtain ⟨hc, hl⟩ := Block.place_of_still (hf b)
    simp [Block.at, hc, hl]
  have blocks : ((s.updBlock c l f).blocks.map fun b => if b.at c l then b.still else b) =
      s.blocks.map fun b => if b.at c l then b.still else b := by
    simp only [State.updBlock, List.map_map]
    refine List.map_congr_left fun b _ => ?_
    by_cases h : b.at c l = true <;> simp [h, place, hf]
  exact congrArg (fun bs => { s.still c l with blocks := bs }) blocks

/-- Two updates of the running block are one. -/
theorem State.updMe_updMe (s : State) (f g : Block → Block) (hf : ∀ b, (f b).core = b.core ∧ (f b).slot = b.slot) :
    (s.updMe f).updMe g = s.updMe fun b => g (f b) := by
  have place : ∀ b c l, (f b).at c l = b.at c l := fun b c l => by simp [Block.at, hf b]
  have blocks : ((s.updMe f).updMe g).blocks = (s.updMe fun b => g (f b)).blocks := by
    simp only [State.updMe, State.updBlock, List.map_map]
    refine List.map_congr_left fun b _ => ?_
    by_cases h : b.at s.cur.core s.cur.slot = true <;> simp [h, place]
  exact congrArg (fun bs => { s with blocks := bs }) blocks

/-- Accounting for an issue of the cox thread: its number is taken, its core and its charges are updated, and the thread's lookahead
windows pass the instruction. -/
theorem State.account_cox (s : State) (th : s.cur.th = .cox) (h : Hd) :
    ∃ (f : Core → Core) (ws : Cox → List Window), (∀ x, (f x).still = x.still) ∧
    s.account h false =
      (({ s with nextId := s.nextId + 1, cur := { s.cur with went := true } }.updCore s.cur.core f).updMe fun b =>
        b.updCox fun c => { c with windows := ws c, yielded := false }).charge s.myCtx s.myDie .cox 1 := by
  unfold State.account
  rw [th]
  refine ⟨_, _, ?_, rfl⟩
  intro x; rfl

/-! ### An issue of the cox thread -/

/-- An issue of the cox thread, with what it makes of the thread. -/
def State.coxIssue (s : State) (h : Hd) (f : Cox → Cox) : State := (s.account h false).updMe fun b => b.updCox f

/-- What an instruction's writes and its step to the next instruction make of a cox thread. -/
def Cox.wrTo (ws : List Wr) (pc : W64) (c : Cox) : Cox := { ws.foldl Cox.wr c with pc := pc }

/-- Retiring writes of the cox thread is an issue of it. -/
theorem State.commit_cox {s : State} {k : Block} (hs : CoxIssuing s k) (h : Hd) (ws : List Wr) :
    s.commit h [(.cox, .ok ws)] = s.coxIssue h (Cox.wrTo ws s.nextPc) := by
  have issuers : s.issuers = [.cox] := by unfold State.issuers; rw [hs.me, hs.th]
  have pc : (s.account h false).nextPc = s.nextPc := by unfold State.nextPc; rw [s.cur_account]
  have th : (s.account h false).cur.th = .cox := by rw [s.cur_account]; exact hs.th
  have retire : s.commit h [(.cox, .ok ws)] =
      (((s.account h false).updMe fun b => b.apply [(.cox, .ok ws)]).advance [.cox]).tidy := by
    unfold State.commit; rw [issuers]; rfl
  rw [retire]
  unfold State.tidy State.advance
  simp only [State.updMe_cur, th]
  rw [State.updMe_updMe _ _ _ (by intro b; exact ⟨rfl, rfl⟩), ← pc]
  rfl

theorem State.skip_eq_commit (s : State) (h : Hd) : s.skip h = s.commit h [(.cox, .ok [])] := rfl

/-- Writes are made alike to a cox thread and to what it is without its windows. -/
theorem Cox.bare_wrs (ws : List Wr) : ∀ c : Cox, (ws.foldl Cox.wr c).bare = ws.foldl Cox.wr c.bare := by
  induction ws with
  | nil => exact fun _ => rfl
  | cons w r ih => intro c; cases w <;> exact ih _

theorem Cox.bare_wrTo (ws : List Wr) (pc : W64) (c : Cox) : (c.wrTo ws pc).bare = c.bare.wrTo ws pc := by
  rw [Cox.wrTo, Cox.wrTo, ← Cox.bare_wrs]; rfl

end Sys2Proof.Machine

namespace Sys2Proof.Claims

open Sys2Proof Sys2Proof.Machine

section

variable {s : State} {k : Block} (hs : CoxIssuing s k)

include hs

theorem CoxIssuing.place : s.cur.core = k.core ∧ s.cur.slot = k.slot := by
  have found := List.find?_some hs.me
  simp only [Block.at, Bool.and_eq_true, beq_iff_eq] at found
  exact ⟨found.1.symm, found.2.symm⟩

theorem CoxIssuing.myCox : s.myCox = some k.cox := congrArg (Option.map fun b : Block => b.cox) hs.me

theorem CoxIssuing.myFib (fid : Nat) : s.myFib fid = k.fib? fid :=
  congrArg (Option.bind · fun b : Block => b.fib? fid) hs.me

/-- The running block after an issue of its cox thread: only the thread has changed, by way of its lookahead windows and its place
among the yielded. -/
theorem CoxIssuing.me_coxIssue (h : Hd) (f : Cox → Cox) :
    ∃ ws, (s.coxIssue h f).me = some { k with cox := f { k.cox with windows := ws, yielded := false } } := by
  have account : ∃ ws, (s.account h false).me = some { k with cox := { k.cox with windows := ws, yielded := false } } := by
    obtain ⟨g, ws, -, eq⟩ := s.account_cox hs.th h
    rw [eq, State.charge_me, State.me_updMe _ _ (by intro b; exact ⟨rfl, rfl⟩), State.me_updCore]
    exact ⟨_, congrArg (Option.map _) hs.me⟩
  obtain ⟨ws, hws⟩ := account
  refine ⟨ws, ?_⟩
  rw [State.coxIssue, State.me_updMe _ _ (by intro b; exact ⟨rfl, rfl⟩), hws]
  rfl

theorem CoxIssuing.still_coxIssue (h : Hd) (f : Cox → Cox) :
    (s.coxIssue h f).still k.core k.slot = s.still k.core k.slot := by
  obtain ⟨hc, hl⟩ := hs.place
  have account : (s.account h false).still s.cur.core s.cur.slot = s.still s.cur.core s.cur.slot := by
    obtain ⟨g, ws, keeps, eq⟩ := s.account_cox hs.th h
    rw [eq, State.still_charge]
    exact (State.still_updBlock _ _ _ _ (by intro b; rfl)).trans (State.still_updCore _ _ _ _ g keeps)
  have place : (s.account h false).cur.core = s.cur.core ∧ (s.account h false).cur.slot = s.cur.slot := by
    rw [s.cur_account]; exact ⟨rfl, rfl⟩
  rw [← hc, ← hl, ← account, State.coxIssue, State.updMe, place.1, place.2]
  exact State.still_updBlock _ _ _ _ (by intro b; rfl)

/-- The threads of the running block after an issue of its cox thread whose effect does not look at what `Cox.bare` drops. -/
theorem CoxIssuing.threads_coxIssue (h : Hd) (f : Cox → Cox) (hf : ∀ c, (f c).bare = f c.bare) :
    (s.coxIssue h f).myCox.map Cox.bare = s.myCox.map (fun c => f c.bare) ∧
    ∀ fid, (s.coxIssue h f).myFib fid = s.myFib fid := by
  obtain ⟨ws, me⟩ := hs.me_coxIssue h f
  have cox : (s.coxIssue h f).myCox = some (f { k.cox with windows := ws, yielded := false }) :=
    congrArg (Option.map fun b : Block => b.cox) me
  refine ⟨?_, fun fid => ?_⟩
  · rw [cox, hs.myCox, Option.map_some, Option.map_some, hf]; rfl
  · rw [hs.myFib]; exact congrArg (Option.bind · fun b : Block => b.fib? fid) me

/-- Retiring writes of the cox thread makes them, goes on, and leaves alone all that an issue leaves alone. -/
theorem CoxIssuing.coxGets_commit (h : Hd) (ws : List Wr) :
    CoxGets s (s.commit h [(.cox, .ok ws)]) ws ∧
    (s.commit h [(.cox, .ok ws)]).still k.core k.slot = s.still k.core k.slot := by
  rw [State.commit_cox hs]
  obtain ⟨cox, fibs⟩ := hs.threads_coxIssue h _ (Cox.bare_wrTo ws s.nextPc)
  refine ⟨⟨?_, fibs⟩, hs.still_coxIssue h _⟩
  simpa only [Cox.bare_wrs, Cox.wrTo] using cox

end

end Sys2Proof.Claims

/-! ### Setting the registers of a block that its programs set -/

namespace Sys2Proof.Machine

open Sys2Proof Sys2Proof.Claims

/-- A block without the registers that its programs set. -/
def Block.unset (b : Block) : Block := { b with scb := 0, scs := 0, xvec := none, walker := {}, stgres := [] }

theorem Block.of_unset {a b : Block} (h : a.unset = b.unset) :
    a.core = b.core ∧ a.slot = b.slot ∧ a.cox = b.cox ∧ a.fibres = b.fibres ∧ a.still.unset = b.still.unset := by
  have core : a.unset.core = b.unset.core := by rw [h]
  have slot : a.unset.slot = b.unset.slot := by rw [h]
  have cox : a.unset.cox = b.unset.cox := by rw [h]
  have fibres : a.unset.fibres = b.unset.fibres := by rw [h]
  have still : a.unset.still = b.unset.still := by rw [h]
  exact ⟨core, slot, cox, fibres, still⟩

/-- What `besideBlock` leaves out of the running block, an update may set. -/
theorem State.besideBlock_updMe (s : State) (g : Block → Block) (hg : ∀ b, (g b).unset = b.unset) :
    besideBlock (s.updMe g) s.cur.core s.cur.slot = besideBlock s s.cur.core s.cur.slot := by
  have place : ∀ b c l, (g b).at c l = b.at c l := fun b c l => by
    obtain ⟨hc, hl, -⟩ := Block.of_unset (hg b)
    simp [Block.at, hc, hl]
  have placeStill : ∀ b c l, (Block.still b).at c l = b.at c l := fun _ _ _ => rfl
  have kept : ∀ b, (g b).still.unset = b.still.unset := fun b => by
    obtain ⟨-, -, -, -, still⟩ := Block.of_unset (hg b)
    exact still
  have blocks : (((s.updMe g).blocks.map fun b => if b.at s.cur.core s.cur.slot then b.still else b).map fun b =>
      if b.at s.cur.core s.cur.slot then b.unset else b) =
      (s.blocks.map fun b => if b.at s.cur.core s.cur.slot then b.still else b).map fun b =>
        if b.at s.cur.core s.cur.slot then b.unset else b := by
    simp only [State.updMe, State.updBlock, List.map_map]
    refine List.map_congr_left fun b _ => ?_
    by_cases h : b.at s.cur.core s.cur.slot = true <;> simp [h, place, placeStill, kept]
  exact congrArg (fun bs => { s.still s.cur.core s.cur.slot with blocks := bs }) blocks

end Sys2Proof.Machine

namespace Sys2Proof.Claims

open Sys2Proof Sys2Proof.Machine

section

variable {s : State} {k : Block} (hs : CoxIssuing s k) (g : Block → Block) (hg : ∀ b, (g b).unset = b.unset)

include hs hg

theorem CoxIssuing.updMe : CoxIssuing (s.updMe g) (g k) where
  me := by
    have place : ∀ b, (g b).core = b.core ∧ (g b).slot = b.slot := fun b => by
      obtain ⟨hc, hl, -⟩ := Block.of_unset (hg b)
      exact ⟨hc, hl⟩
    rw [s.me_updMe g place, hs.me]; rfl
  th := hs.th

/-- The cox thread sets registers of its block and makes its writes: it goes on, and only those registers have changed. -/
theorem CoxIssuing.sets_commit (h : Hd) (ws : List Wr) :
    CoxGets s ((s.updMe g).commit h [(.cox, .ok ws)]) ws ∧
    ∃ c, Keeps s ((s.updMe g).commit h [(.cox, .ok ws)]) k { g k with cox := c } := by
  have hs' := hs.updMe g hg
  obtain ⟨hc, hl, hcox, hfibs, -⟩ := Block.of_unset (hg k)
  obtain ⟨⟨cox, fibs⟩, still⟩ := hs'.coxGets_commit h ws
  obtain ⟨w, me⟩ := hs'.me_coxIssue h (Cox.wrTo ws (s.updMe g).nextPc)
  rw [← State.commit_cox hs'] at me
  have myCox : (s.updMe g).myCox = s.myCox := by rw [hs'.myCox, hs.myCox, hcox]
  have myFib : ∀ fid, (s.updMe g).myFib fid = s.myFib fid := fun fid => by
    rw [hs'.myFib, hs.myFib, Block.fib?, Block.fib?, hfibs]
  have beside : ∀ t u : State, t.still k.core k.slot = u.still k.core k.slot →
      besideBlock t k.core k.slot = besideBlock u k.core k.slot := fun t u e => by
    unfold besideBlock; rw [e]
  obtain ⟨pc, pl⟩ := hs.place
  refine ⟨⟨?_, fun fid => (fibs fid).trans (myFib fid)⟩, _, me, ?_⟩
  · rw [cox, myCox]; rfl
  · rw [hc, hl] at still
    rw [beside _ _ still, ← pc, ← pl, s.besideBlock_updMe g hg]

end

end Sys2Proof.Claims

/-! ### The order of the tiles (R129) -/

namespace Sys2Proof.Machine

open Sys2Proof Sys2Proof.Claims

theorem insertBy_perm {α : Type} (key : α → Nat) (x : α) (l : List α) : (insertBy key x l).Perm (x :: l) := by
  induction l with
  | nil => exact .refl _
  | cons y r ih =>
    rw [insertBy]
    split
    · exact .refl _
    · exact (ih.cons y).trans (.swap x y r)

/-- Inserting a new number keeps a list in rising order. -/
theorem insertBy_pairwise_lt (x : Nat) (l : List Nat) (hl : l.Pairwise (· < ·)) (hx : x ∉ l) :
    (insertBy id x l).Pairwise (· < ·) := by
  induction l with
  | nil => exact List.pairwise_singleton _ _
  | cons y r ih =>
    obtain ⟨low, hr⟩ := List.pairwise_cons.mp hl
    obtain ⟨ne, hxr⟩ := not_or.mp (mt List.mem_cons.mpr hx)
    rw [insertBy]
    split
    case isTrue lt =>
      refine List.pairwise_cons.mpr ⟨fun z hz => ?_, hl⟩
      rcases List.mem_cons.mp hz with rfl | hz
      · exact lt
      · exact Nat.lt_trans lt (low z hz)
    case isFalse ge =>
      refine List.pairwise_cons.mpr ⟨fun z hz => ?_, ih hr hxr⟩
      rcases List.mem_cons.mp ((insertBy_perm id x r).mem_iff.mp hz) with rfl | hz
      · simp only [id_eq] at ge; omega
      · exact low z hz

/-- Below all the numbers gone nothing is skipped. -/
theorem nthLeft_of_lt (gone : List Nat) (x : Nat) (h : ∀ g ∈ gone, x < g) : nthLeft gone x = x := by
  induction gone with
  | nil => rfl
  | cons g r ih =>
    have hg : ¬ g ≤ x := Nat.not_le.mpr (h g List.mem_cons_self)
    rw [nthLeft, List.foldl_cons, if_neg hg]
    exact ih fun y hy => h y (List.mem_cons_of_mem g hy)

theorem nthLeft_cons (g : Nat) (r : List Nat) (x : Nat) :
    nthLeft (g :: r) x = nthLeft r (if g ≤ x then x + 1 else x) := rfl

/-- At most the numbers gone are skipped. -/
theorem nthLeft_bounds (gone : List Nat) : ∀ x, x ≤ nthLeft gone x ∧ nthLeft gone x ≤ x + gone.length := by
  induction gone with
  | nil => exact fun x => ⟨Nat.le_refl x, Nat.le_refl x⟩
  | cons g r ih =>
    intro x
    rw [nthLeft_cons, List.length_cons]
    split
    · have := ih (x + 1); omega
    · have := ih x; omega

theorem nthLeft_lt (gone : List Nat) (all x : Nat) (hx : x < all - gone.length) : nthLeft gone x < all := by
  have := (nthLeft_bounds gone x).2
  omega

/-- A number that is left is not among those gone. -/
theorem nthLeft_not_mem (gone : List Nat) (h : gone.Pairwise (· < ·)) : ∀ x, nthLeft gone x ∉ gone := by
  induction gone with
  | nil => exact fun x => List.not_mem_nil
  | cons g r ih =>
    obtain ⟨low, hr⟩ := List.pairwise_cons.mp h
    intro x
    rw [nthLeft_cons]
    refine List.not_mem_cons_of_ne_of_not_mem ?_ (ih hr _)
    split
    case isTrue le => have := (nthLeft_bounds r (x + 1)).1; omega
    case isFalse gt =>
      rw [nthLeft_of_lt r x fun y hy => Nat.lt_trans (Nat.not_le.mp gt) (low y hy)]
      omega

/-- The tile of a linear number below the number of tiles: its three coordinates. -/
theorem Walker.tile_coords (w : Walker) (t : Nat) (ht : t < w.n0 * w.n1 * w.n2) : ∃ i0 i1 i2, i0 < w.n0 ∧ i1 < w.n1 ∧
    i2 < w.n2 ∧ i0 + w.n0 * (i1 + w.n1 * i2) = t ∧ w.tile t = BitVec.ofNat 64 (i0 + i1 * 2 ^ 20 + i2 * 2 ^ 40) := by
  have pos : 0 < w.n0 * w.n1 * w.n2 := Nat.zero_lt_of_lt ht
  have pos01 : 0 < w.n0 * w.n1 := Nat.pos_of_mul_pos_right pos
  refine ⟨t % w.n0, t / w.n0 % w.n1, t / w.n0 / w.n1, Nat.mod_lt _ (Nat.pos_of_mul_pos_right pos01),
    Nat.mod_lt _ (Nat.pos_of_mul_pos_left pos01), ?_, ?_, rfl⟩
  · rw [Nat.div_div_eq_div_mul]; exact Nat.div_lt_of_lt_mul ht
  · rw [Nat.mod_add_div, Nat.mod_add_div]

/-! ### What the instructions set -/

/-- A field of a register, as a number. -/
theorem bits_toNat (x : W64) (hi lo : Nat) : bits x.toNat hi lo = (x.extractLsb' lo (hi + 1 - lo)).toNat :=
  (BitVec.extractLsb'_toNat ..).symm

theorem State.updMe_self (s : State) : (s.updMe fun b => b) = s := by
  have blocks : (s.updMe fun b => b).blocks = s.blocks := by simp [State.updMe, State.updBlock]
  exact congrArg (fun bs => { s with blocks := bs }) blocks

/-- The walk that `walk.init` sets up from its registers (R133). -/
def Walker.nest (x hint sh : W64) : Walker :=
  { n0 := (x.extractLsb' 0 20).toNat, n1 := (x.extractLsb' 20 20).toNat, n2 := (x.extractLsb' 40 20).toNat
    hint := hint, hsh := sh.extractLsb' 0 6 }

/-- A walk after a tile has been returned. -/
def Walker.took (w : Walker) (g : Nat) : Walker := { w with gone := insertBy id g w.gone }

def Block.updWalker (b : Block) (f : Walker → Walker) : Block := { b with walker := f b.walker }
def Block.updStgres (b : Block) (f : List Nat → List Nat) : Block := { b with stgres := f b.stgres }

theorem Block.unset_updWalker (f : Walker → Walker) (b : Block) : (b.updWalker f).unset = b.unset := rfl
theorem Block.unset_updStgres (f : List Nat → List Nat) (b : Block) : (b.updStgres f).unset = b.unset := rfl

/-- The reservations of a kernel's stages after `stgres` of stage n (R134). -/
def KRec.reserve (r : KRec) (n v : Nat) (l : List Nat) : List Nat :=
  if n < Nat.max r.nstage.toNat 1 then l.set n (Nat.min 8 v) else l

theorem KRec.reserve_of_stage (r : KRec) (n v : Nat) (hn : n < Nat.max r.nstage.toNat 1) :
    r.reserve n v = fun l => l.set n (Nat.min 8 v) := funext fun _ => if_pos hn

theorem KRec.reserve_of_no_stage (r : KRec) (n v : Nat) (hn : ¬ n < Nat.max r.nstage.toNat 1) :
    r.reserve n v = fun l => l := funext fun _ => if_neg hn

end Sys2Proof.Machine

/-! ### The instructions (R133–R135) -/

namespace Sys2Proof.Claims

open Sys2Proof Sys2Proof.Machine

/-- `kend` ends the thread where it stands (R135). -/
theorem exec_kend (s : State) (h : Hd) : exec (.kend h) s = .next (s.coxIssue h fun c => { c with ended := true }) := rfl

section

variable {s : State} {k : Block} (hs : CoxIssuing s k)

include hs

theorem CoxIssuing.exec_walkInit (h : Hd) (a b c : RegNo) : exec (.walkInit h a b c) s = .next
    ((s.updMe fun b' => b'.updWalker fun _ => .nest (k.cox.reg a.toNat) (k.cox.reg b.toNat) (k.cox.reg c.toNat)).commit h
      [(.cox, .ok [])]) := by
  change execWalkInit h a b c s = _
  unfold execWalkInit
  rw [hs.me]
  simp only [bits_toNat, State.skip_eq_commit]
  rfl

/-- With tiles left, `walk.next` takes one that it has not returned (R133). -/
theorem CoxIssuing.exec_walkNext_left (h : Hd) (d : RegNo) (sorted : k.walker.gone.Pairwise (· < ·))
    (left : k.walker.gone.length < k.walker.n0 * k.walker.n1 * k.walker.n2) :
    ∃ g < k.walker.n0 * k.walker.n1 * k.walker.n2, g ∉ k.walker.gone ∧ exec (.walkNext h d) s = .next
      ((s.updMe fun b => b.updWalker fun w => w.took g).commit h [(.cox, .ok [.s d.toNat (k.walker.tile g)])]) := by
  have some_left : k.walker.n0 * k.walker.n1 * k.walker.n2 - k.walker.gone.length ≠ 0 := by omega
  have pick := Nat.mod_lt (Config.pick s.tick) (Nat.pos_of_ne_zero some_left)
  refine ⟨_, nthLeft_lt _ _ _ pick, nthLeft_not_mem _ sorted _, ?_⟩
  change execWalkNext h d s = _
  unfold execWalkNext
  rw [hs.me]
  exact if_neg some_left

/-- With no tile left, `walk.next` gives the done value (R133). -/
theorem CoxIssuing.exec_walkNext_done (h : Hd) (d : RegNo) (done : k.walker.gone.length = k.walker.n0 * k.walker.n1 * k.walker.n2) :
    exec (.walkNext h d) s = .next (s.commit h [(.cox, .ok [.s d.toNat 0x8000000000000000])]) := by
  change execWalkNext h d s = _
  unfold execWalkNext
  rw [hs.me]
  exact if_pos (by omega)

theorem CoxIssuing.exec_stgq (h : Hd) (d : RegNo) (n : BitVec 3) : let live := k.fibres.countP fun f => f.stage == n.toNat
    ∃ x < 65536, (live < 65536 → x = live) ∧
      exec (.stgq h d n) s = .next (s.commit h [(.cox, .ok [.s d.toNat (if n.toNat < Nat.max k.kr.nstage.toNat 1 then
        BitVec.ofNat 64 (((k.stageQ[n.toNat]?).getD []).length + 2 ^ 16 * x + 2 ^ 32 * k.stageRecords n.toNat) else 0)])]) := by
  intro live
  refine ⟨if live < 65536 then live else Config.pick s.tick % 65536, ?_, fun hlive => if_pos hlive, ?_⟩
  · split
    · assumption
    · exact Nat.mod_lt _ (by decide)
  · change execStgq h d n s = _
    unfold execStgq
    rw [hs.me]
    simp only [KRec.stages, ← List.countP_eq_length_filter, Nat.mul_comm (2 ^ 16), Nat.mul_comm (2 ^ 32)]
    by_cases hn : n.toNat < Nat.max k.kr.nstage.toNat 1
    · rw [if_neg (Nat.not_le.mpr hn), if_pos hn]
    · rw [if_pos (Nat.not_lt.mp hn), if_neg hn]
      rfl

/-- `stgres` sets the reservation of a stage that the block has, and ignores another (R134). -/
theorem CoxIssuing.exec_stgres (h : Hd) (a : RegNo) (n : BitVec 3) : exec (.stgres h a n) s = .next
    ((s.updMe fun b => b.updStgres (k.kr.reserve n.toNat ((k.cox.reg a.toNat).extractLsb' 0 4).toNat)).commit h [(.cox, .ok [])]) := by
  change execStgres h a n s = _
  unfold execStgres
  rw [hs.me]
  simp only [KRec.stages, bits_toNat, State.skip_eq_commit]
  by_cases hn : n.toNat < Nat.max k.kr.nstage.toNat 1
  · simp only [if_neg (Nat.not_le.mpr hn), k.kr.reserve_of_stage _ _ hn, Nat.min_comm 8]
    rfl
  · rw [if_pos (Nat.not_lt.mp hn), k.kr.reserve_of_no_stage _ _ hn]
    have same : (s.updMe fun b => b.updStgres fun l => l) = s := s.updMe_self
    rw [same]

end

end Sys2Proof.Claims

open Sys2Proof Sys2Proof.Machine Sys2Proof.Claims

/-- Settles O49: each instruction is one issue of the cox thread, and the tile that `walk.next` picks is a number below the number of
tiles that is not among those gone. -/
theorem tilesAndStages : Obligations.TilesAndStages := by
  unfold Obligations.TilesAndStages
  refine ⟨fun h a b c s k hs => ?_, fun h d s k hs sorted _ _ _ _ => ⟨fun done => ?_, fun left => ?_⟩, fun h d n s k hs => ?_,
    fun h a n s k hs => ?_, fun h s k hs => ?_⟩
  · obtain ⟨gets, c', keeps⟩ := hs.sets_commit _ (Block.unset_updWalker _) h []
    exact ⟨_, _, hs.exec_walkInit h a b c, gets, keeps, rfl, rfl, rfl, rfl, rfl⟩
  · exact ⟨_, hs.exec_walkNext_done h d done, hs.coxGets_commit h _⟩
  · obtain ⟨g, hg, new, exec⟩ := hs.exec_walkNext_left h d sorted left
    obtain ⟨i0, i1, i2, h0, h1, h2, eq, tile⟩ := k.walker.tile_coords g hg
    rw [tile] at exec
    obtain ⟨gets, c', keeps⟩ := hs.sets_commit _ (Block.unset_updWalker _) h _
    refine ⟨_, _, i0, i1, i2, exec, keeps, rfl, rfl, rfl, rfl, h0, h1, h2, ?_⟩
    simp only [eq]
    exact ⟨new, insertBy_perm id _ _, insertBy_pairwise_lt _ _ sorted new, gets⟩
  · obtain ⟨x, hx, live, exec⟩ := hs.exec_stgq h d n
    obtain ⟨gets, still⟩ := hs.coxGets_commit h _
    exact ⟨_, x, exec, still, hx, live, gets⟩
  · obtain ⟨gets, c', keeps⟩ := hs.sets_commit _ (Block.unset_updStgres _) h []
    exact ⟨_, _, hs.exec_stgres h a n, gets, keeps, rfl, rfl, rfl, rfl, rfl⟩
  · obtain ⟨cox, fibs⟩ := hs.threads_coxIssue h (fun c => { c with ended := true }) fun _ => rfl
    exact ⟨_, exec_kend s h, hs.still_coxIssue h _, cox, fibs⟩

end

section

/-! ## The integer instructions (R210–R217) -/

/-! ### An issue whose lanes only write -/

namespace Sys2Proof.Machine

open Sys2Proof Sys2Proof.Claims

/-- A state with another number for its next operation. -/
def State.numbered (s : State) (n : Nat) : State := { s with nextId := n }

theorem State.still_numbered (s : State) (n c l : Nat) : (s.numbered n).still c l = s.still c l := rfl

/-- A block with other parts, and another count of cycles without an issue. -/
def Block.inParts (b : Block) (ps : List Part) (idle : Nat) : Block := { b with parts := ps, idle := idle }

theorem Block.still_inParts (b : Block) (ps : List Part) (n : Nat) : (b.inParts ps n).still = b.still := rfl
theorem Block.place_inParts (b : Block) (ps : List Part) (n : Nat) :
    (b.inParts ps n).core = b.core ∧ (b.inParts ps n).slot = b.slot := ⟨rfl, rfl⟩

/-- A state that differs from s only in the parts of a block and in the numbering. -/
def State.Reparted (s : State) (c l : Nat) (t : State) : Prop :=
  ∃ (n : Nat) (ps : Block → List Part), t = (s.numbered n).updBlock c l fun b => b.inParts (ps b) b.idle

theorem State.reparted_self (s : State) (c l : Nat) : s.Reparted c l s := by
  refine ⟨s.nextId, fun b => b.parts, ?_⟩
  simp [State.numbered, Block.inParts, State.updBlock]

theorem State.Reparted.ite {s x y : State} {c l : Nat} {q : Prop} [Decidable q] (hx : s.Reparted c l x)
    (hy : s.Reparted c l y) : s.Reparted c l (if q then x else y) := by
  split
  · exact hx
  · exact hy

/-- Putting a part in order changes only the parts of its block and the numbering. -/
theorem State.reparted_settle (s : State) (c l id : Nat) : s.Reparted c l (s.settle c l id) := by
  unfold State.settle
  cases s.block? c l with
  | none => exact s.reparted_self c l
  | some b =>
    simp only []
    cases b.part? id with
    | none => exact s.reparted_self c l
    | some p =>
      refine .ite ⟨_, _, rfl⟩ (.ite ⟨_, _, rfl⟩ (.ite (s.reparted_self c l) (.ite ?_ ⟨_, _, rfl⟩)))
      split
      · exact s.reparted_self c l
      · exact ⟨_, _, rfl⟩

/-- Accounting for an issue of a part: its number is taken, its core and its charges are updated, and the part's lookahead windows
pass the instruction. -/
theorem State.account_part (s : State) (id : Nat) (th : s.cur.th = .part id) (h : Hd) :
    ∃ (f : Core → Core) (ps : Block → List Part), (∀ x, (f x).still = x.still) ∧
    s.account h false =
      (({ s with nextId := s.nextId + 1, cur := { s.cur with went := true } }.updCore s.cur.core f).updMe fun b =>
        b.inParts (ps b) 0).charge s.myCtx s.myDie .grp 1 := by
  unfold State.account
  rw [th]
  refine ⟨_, _, ?_, rfl⟩
  intro x; rfl

theorem State.account_place (s : State) (h : Hd) :
    (s.account h false).cur.core = s.cur.core ∧ (s.account h false).cur.slot = s.cur.slot := by
  rw [s.cur_account]; exact ⟨rfl, rfl⟩

/-- What the threads of a block make of it when their issue retires: they write, and the issuing parties go on. -/
def Block.retire (b : Block) (os : List (Who × LOut)) (ws : List Who) (pc : W64) : Block :=
  ws.foldl (fun b w => b.jump w pc) (b.apply os)

theorem Block.still_wr (b : Block) (w : Who) (ws : List Wr) : (b.wr w ws).still = b.still := by cases w <;> rfl

theorem Block.still_jump (b : Block) (w : Who) (pc : W64) : (b.jump w pc).still = b.still := by cases w <;> rfl

theorem Block.still_apply (os : List (Who × LOut)) : ∀ b : Block, (b.apply os).still = b.still := by
  induction os with
  | nil => exact fun _ => rfl
  | cons o r ih =>
    obtain ⟨w, x⟩ := o
    intro b
    cases x with
    | ok ws => exact (ih (b.wr w ws)).trans (b.still_wr w ws)
    | trap f => exact ih b

theorem Block.still_retire (b : Block) (os : List (Who × LOut)) (ws : List Who) (pc : W64) :
    (b.retire os ws pc).still = b.still := by
  have jumps : ∀ b : Block, (ws.foldl (fun b w => b.jump w pc) b).still = b.still := by
    induction ws with
    | nil => exact fun _ => rfl
    | cons w r ih => exact fun b => (ih (b.jump w pc)).trans (b.still_jump w pc)
  exact (jumps (b.apply os)).trans (Block.still_apply os b)

/-- Retiring an issue of a part without faults: its parties retire, and the part is put in order. -/
theorem State.commit_part {s : State} {id : Nat} (th : s.cur.th = .part id) (h : Hd) (os : List (Who × LOut))
    (ok : outTraps os = []) : s.commit h os =
      ((s.account h false).updMe fun b => b.retire os s.issuers s.nextPc).settle s.cur.core s.cur.slot id := by
  have pc : (s.account h false).nextPc = s.nextPc := by unfold State.nextPc; rw [s.cur_account]
  have cur : (s.account h false).cur = { s.cur with went := true } := s.cur_account h false
  have retire : s.commit h os = (((s.account h false).updMe fun b => b.apply os).advance s.issuers).tidy := by
    unfold State.commit
    simp only [ok, List.isEmpty_nil, Bool.not_true, Bool.false_and, Bool.false_eq_true, if_false, List.any_nil, Bool.not_false,
      List.filter_true]
    rfl
  have same : ((s.account h false).updMe fun b => b.apply os).advance s.issuers =
      (s.account h false).updMe fun b => b.retire os s.issuers s.nextPc := by
    unfold State.advance
    rw [State.updMe_updMe _ _ _ fun b => Block.place_of_still (Block.still_apply os b), ← pc]
    rfl
  rw [retire, same, State.tidy]
  simp only [State.updMe_cur, cur, th]

/-! ### What a part's lanes write -/

theorem Block.fid_of_fib? {b : Block} {fid : Nat} {f : Fibre} (hf : b.fib? fid = some f) : f.fid = fid := by
  simpa using List.find?_some hf

theorem Fibre.fid_wrs (f : Fibre) (ws : List Wr) : (f.wrs ws).fid = f.fid := by
  have each : ∀ f : Fibre, (ws.foldl Fibre.wr f).fid = f.fid := by
    induction ws with
    | nil => exact fun _ => rfl
    | cons w r ih =>
      intro f
      refine (ih (f.wr w)).trans ?_
      cases w <;> simp [Fibre.wr]
  unfold Fibre.wrs
  split
  · exact each f
  · rfl

/-- A fibre none of whose lanes writes stays as it is. -/
theorem written_of_idle (g : LaneWrites) (ls : List (Nat × Fibre)) (f : Fibre) (idle : ∀ x ∈ ls, x.2.fid ≠ f.fid) :
    written ls g f = f := by
  have each : ∀ (ws : Nat × Fibre → List Wr) (l : List (Nat × Fibre)), (∀ x ∈ l, x.2.fid ≠ f.fid) →
      l.foldl (fun f x => if x.2.fid = f.fid then f.wrs (ws x) else f) f = f := by
    intro ws l
    induction l with
    | nil => exact fun _ => rfl
    | cons x r ih =>
      intro idle
      obtain ⟨hx, hr⟩ := List.forall_mem_cons.mp idle
      rw [List.foldl_cons, if_neg hx]
      exact ih hr
  exact each (g ls) ls idle

/-- A fibre of a block after lanes have written: its own lanes have. -/
theorem Block.fib?_apply (g : Nat × Fibre → List Wr) (fid : Nat) (ls : List (Nat × Fibre)) : ∀ b : Block,
    (b.apply (ls.map fun x => (.fib x.2.fid, .ok (g x)))).fib? fid = (b.fib? fid).map (written ls fun _ => g) := by
  induction ls with
  | nil => exact fun b => (Option.map_id' (x := b.fib? fid)).symm
  | cons x r ih =>
    intro b
    have step : (b.wr (.fib x.2.fid) (g x)).fib? fid = (b.fib? fid).map fun f => if x.2.fid = f.fid then f.wrs (g x) else f := by
      refine (b.fib?_updFib x.2.fid fid _ fun f => f.fid_wrs (g x)).trans ?_
      cases hf : b.fib? fid with
      | none => simp
      | some f => simp only [Option.map_some, Block.fid_of_fib? hf]; split <;> rfl
    refine (ih (b.wr (.fib x.2.fid) (g x))).trans ?_
    rw [step, Option.map_map]
    rfl

/-- A fibre of a block after parties have gone on. -/
theorem Block.fib?_jumps (pc : W64) (fid : Nat) (ws : List Who) : ∀ b : Block,
    (ws.foldl (fun b w => b.jump w pc) b).fib? fid =
      (b.fib? fid).map fun f => if .fib fid ∈ ws then { f with pc := pc } else f := by
  induction ws with
  | nil => intro b; simp
  | cons w r ih =>
    intro b
    refine (ih (b.jump w pc)).trans ?_
    cases w with
    | cox => simp [Block.jump]
    | fib i =>
      have step : (b.jump (.fib i) pc).fib? fid = if i = fid then (b.fib? fid).map fun f => { f with pc := pc } else b.fib? fid :=
        b.fib?_updFib i fid _ fun _ => rfl
      rw [step]
      by_cases e : fid = i
      · subst e; cases b.fib? fid <;> simp
      · simp [e, Ne.symm e]

/-- Fibres that retire leave the cox thread alone. -/
theorem Block.cox_retire (g : Nat × Fibre → List Wr) (ls : List (Nat × Fibre)) (ids : List Nat) (pc : W64) (b : Block) :
    (b.retire (ls.map fun x => (.fib x.2.fid, .ok (g x))) (ids.map Who.fib) pc).cox = b.cox := by
  have apply : ∀ b : Block, (b.apply (ls.map fun x => (.fib x.2.fid, .ok (g x)))).cox = b.cox := by
    induction ls with
    | nil => exact fun _ => rfl
    | cons x r ih => exact fun b => ih (b.wr (.fib x.2.fid) (g x))
  have jumps : ∀ b : Block, ((ids.map Who.fib).foldl (fun b w => b.jump w pc) b).cox = b.cox := by
    induction ids with
    | nil => exact fun _ => rfl
    | cons i r ih => exact fun b => ih (b.jump (.fib i) pc)
  exact (jumps _).trans (apply b)

end Sys2Proof.Machine

namespace Sys2Proof.Claims

open Sys2Proof Sys2Proof.Machine

section

variable {s : State} {k : Block} {p : Part} (hs : Issuing s k p)

include hs

theorem Issuing.issuers : s.issuers = p.issuing.map fun x => Who.fib x.2 := by
  unfold State.issuers
  simp only [hs.me, hs.th, hs.part]

theorem Issuing.views (h : Hd) : s.views h = (s.act h).map fun x => (x.1, .fib x.2.fid, .fib x.2) := by
  unfold State.views
  simp only [hs.me, hs.th]

/-- An active lane's fibre is among the issuing ones. -/
theorem Issuing.mem_issuers_of_act {h : Hd} {x : Nat × Fibre} (hx : x ∈ s.act h) : Who.fib x.2.fid ∈ s.issuers := by
  have part : s.part? = some (k, p) := by unfold State.part?; simp only [hs.me, hs.th, hs.part, Option.map_some]
  rw [State.act, part] at hx
  obtain ⟨y, hy, found⟩ := List.mem_filterMap.mp (List.mem_of_mem_filter hx)
  obtain ⟨f, hf, rfl⟩ := Option.map_eq_some_iff.mp found
  rw [hs.issuers, Block.fid_of_fib? hf]
  exact List.mem_map_of_mem hy

/-- The running block after its part has been accounted for. -/
theorem Issuing.me_account (h : Hd) : ∃ ps, (s.account h false).me = some (k.inParts ps 0) := by
  obtain ⟨f, ps, -, account⟩ := s.account_part p.id hs.th h
  refine ⟨ps k, ?_⟩
  rw [account, State.charge_me, State.me_updMe _ _ fun b => b.place_inParts _ _, State.me_updCore]
  exact congrArg (Option.map _) hs.me

theorem Issuing.still_account (h : Hd) :
    (s.account h false).still s.cur.core s.cur.slot = s.still s.cur.core s.cur.slot := by
  obtain ⟨f, ps, keeps, account⟩ := s.account_part p.id hs.th h
  rw [account, State.still_charge]
  exact (State.still_updBlock _ _ _ _ fun b => b.still_inParts _ _).trans (State.still_updCore _ _ _ _ f keeps)

/-- The running block after its part has retired: but for the parts and the count of idle cycles it is the block whose parties have
retired. -/
theorem Issuing.me_commit (h : Hd) (os : List (Who × LOut)) (ok : outTraps os = []) : ∃ ps ps' n,
    (s.commit h os).me = some (((k.inParts ps 0).retire os s.issuers s.nextPc).inParts ps' n) := by
  obtain ⟨ps, account⟩ := hs.me_account h
  have retired : ((s.account h false).updMe fun b => b.retire os s.issuers s.nextPc).me =
      some ((k.inParts ps 0).retire os s.issuers s.nextPc) :=
    (State.me_updMe _ _ fun b => Block.place_of_still (b.still_retire _ _ _)).trans (congrArg (Option.map _) account)
  obtain ⟨n, ps', settle⟩ := State.reparted_settle ((s.account h false).updMe fun b => b.retire os s.issuers s.nextPc)
    s.cur.core s.cur.slot p.id
  obtain ⟨hc, hl⟩ := s.account_place h
  have ordered := (State.me_updMe (((s.account h false).updMe fun b => b.retire os s.issuers s.nextPc).numbered n)
    (fun b => b.inParts (ps' b) b.idle) fun b => b.place_inParts _ _).trans (congrArg (Option.map _) retired)
  rw [State.commit_part hs.th h os ok, settle, ← hc, ← hl]
  exact ⟨ps, _, _, ordered⟩

theorem Issuing.still_commit (h : Hd) (os : List (Who × LOut)) (ok : outTraps os = []) :
    (s.commit h os).still s.cur.core s.cur.slot = s.still s.cur.core s.cur.slot := by
  obtain ⟨n, ps', settle⟩ := State.reparted_settle ((s.account h false).updMe fun b => b.retire os s.issuers s.nextPc)
    s.cur.core s.cur.slot p.id
  obtain ⟨hc, hl⟩ := s.account_place h
  rw [State.commit_part hs.th h os ok, settle, ← hs.still_account h]
  refine (State.still_updBlock _ _ _ _ fun b => b.still_inParts _ _).trans ?_
  rw [State.still_numbered, State.updMe, hc, hl]
  exact State.still_updBlock _ _ _ _ fun b => b.still_retire _ _ _

/-- The active lanes of a part retire their writes. -/
theorem Issuing.writes_commit (h : Hd) (g : LaneWrites) :
    Writes s (s.commit h ((s.act h).map fun x => (.fib x.2.fid, .ok (g (s.act h) x)))) h g := by
  have ok := outTraps_writes (s.act h) (fun x => Who.fib x.2.fid) (g (s.act h))
  obtain ⟨ps, ps', n, me⟩ := hs.me_commit h _ ok
  have ids : s.issuers = (p.issuing.map fun x => x.2).map Who.fib := by rw [hs.issuers, List.map_map]; rfl
  have myFib : ∀ fid, s.myFib fid = k.fib? fid := fun fid => congrArg (Option.bind · fun b : Block => b.fib? fid) hs.me
  have myCox : s.myCox = some k.cox := congrArg (Option.map fun b : Block => b.cox) hs.me
  have cur := s.cur_commit h _ ok
  refine ⟨fun fid => ?_, ?_, by rw [cur]; exact ⟨rfl, rfl⟩, hs.still_commit h _ ok⟩
  · refine (congrArg (Option.bind · fun b : Block => b.fib? fid) me).trans ?_
    refine (Block.fib?_jumps s.nextPc fid s.issuers _).trans ?_
    rw [Block.fib?_apply (g (s.act h)) fid, Option.map_map, myFib]
    refine Option.map_congr fun f hf => ?_
    by_cases goes : Who.fib fid ∈ s.issuers
    · simp only [Function.comp_apply, goes, if_true]
      rfl
    · simp only [Function.comp_apply, goes, if_false]
      refine written_of_idle _ _ f fun x hx e => goes ?_
      rw [← Block.fid_of_fib? hf, ← e]
      exact hs.mem_issuers_of_act hx
  · refine (congrArg (Option.map fun b : Block => b.cox) me).trans ?_
    rw [myCox, ids]
    exact congrArg some (Block.cox_retire (g (s.act h)) _ _ _ _)

end

theorem CoxIssuing.coxWrites_commit {s : State} {k : Block} (hs : CoxIssuing s k) (h : Hd) (ws : List Wr) :
    CoxWrites s (s.commit h [(.cox, .ok ws)]) ws := by
  obtain ⟨⟨cox, fibs⟩, still⟩ := hs.coxGets_commit h ws
  obtain ⟨hc, hl⟩ := hs.place
  have cur := s.cur_commit h [(.cox, .ok ws)] rfl
  exact ⟨cox, fibs, by rw [cur]; exact ⟨rfl, rfl⟩, by rw [hc, hl]; exact still⟩

/-- An instruction with only register writes makes the writes of its active lanes. -/
theorem Issuing.writes_pure1 {s : State} {k : Block} {p : Part} (hs : Issuing s k p) (h : Hd) (g : View → List Wr) :
    ∃ t, s.pure1 h g = .next t ∧ Writes s t h fun _ x => g (.fib x.2) := by
  refine ⟨_, rfl, ?_⟩
  rw [hs.views, List.map_map]
  exact hs.writes_commit h fun _ x => g (.fib x.2)

theorem CoxIssuing.coxWrites_pure1 {s : State} {k : Block} (hs : CoxIssuing s k) (h : Hd) (g : View → List Wr) :
    ∃ t, s.pure1 h g = .next t ∧ CoxWrites s t (g (.cox k.cox)) := by
  have views : s.views h = [(0, .cox, .cox k.cox)] := by unfold State.views; simp only [hs.me, hs.th]
  refine ⟨_, rfl, ?_⟩
  rw [views]
  exact hs.coxWrites_commit h _

/-- An instruction of both streams that only writes registers computes what it writes. -/
theorem computes_of_pure1 {i : Instr} {h : Hd} {g : View → List Wr} (hi : ∀ s, exec i s = s.pure1 h g) : Computes i h g := by
  intro s k
  rw [hi]
  exact ⟨fun hs => hs.coxWrites_pure1 h g, fun p hs => hs.writes_pure1 h g⟩

/-- The same with the writes in another form. -/
theorem computes_of_writes {i : Instr} {h : Hd} {g g' : View → List Wr} (hi : ∀ s, exec i s = s.pure1 h g)
    (hg : ∀ v, g v = g' v) : Computes i h g' :=
  funext hg ▸ computes_of_pure1 hi

end Sys2Proof.Claims

/-! ### Integers as bits -/

namespace Sys2Proof.Claims

open Sys2Proof Sys2Proof.Machine

/-- The value that n bits have under a type, signed or unsigned (R210). -/
def valBits (sg : Bool) {n : Nat} (a : BitVec n) : Int := if sg then a.toInt else a.toNat

/-- The least and greatest values of n bits (R214). -/
def leastVal (sg : Bool) (n : Nat) : Int := if sg then -(2 ^ (n - 1)) else 0
def greatestVal (sg : Bool) (n : Nat) : Int := if sg then 2 ^ (n - 1) - 1 else 2 ^ n - 1

/-- The n bits of an exact result: clamped under `.sat`, else modulo 2^n (R210, R214). -/
def finishBits (sg sat : Bool) (n : Nat) (z : Int) : BitVec n :=
  BitVec.ofInt n (if sat then clampInt (leastVal sg n) (greatestVal sg n) z else z)

/-! ### The model's integers are these -/

theorem tySigned_eq (ty : IntTy) : tySigned ty = signedTy ty := by cases ty <;> rfl

theorem tyWidth_pos (ty : IntTy) : 0 < tyWidth ty := by cases ty <;> decide

theorem two_pow_pred {n : Nat} (hn : 0 < n) : 2 * 2 ^ (n - 1) = 2 ^ n := by
  rw [← Nat.pow_succ', Nat.succ_eq_add_one, Nat.sub_add_cancel hn]

theorem two_pow_pred_int {n : Nat} (hn : 0 < n) : (2 : Int) * 2 ^ (n - 1) = 2 ^ n := by exact_mod_cast two_pow_pred hn

theorem tyVal_toNat (ty : IntTy) (x : BitVec (tyWidth ty)) : tyVal ty x.toNat = valBits (signedTy ty) x := by
  have half := two_pow_pred (tyWidth_pos ty)
  rw [tyVal, tySigned_eq, valBits]
  cases signedTy ty with
  | false => rfl
  | true =>
    have low : 2 * x.toNat < 2 ^ tyWidth ty ↔ ¬ 2 ^ (tyWidth ty - 1) ≤ x.toNat := by omega
    simp only [BitVec.toInt_eq_toNat_cond, low, Bool.true_and, decide_eq_true_eq, if_true, ite_not]
    norm_cast

theorem ofNat_tyBitsOf (ty : IntTy) (z : Int) : BitVec.ofNat (tyWidth ty) (tyBitsOf ty z) = BitVec.ofInt (tyWidth ty) z := by
  have bits : tyBitsOf ty z = (BitVec.ofInt (tyWidth ty) z).toNat := by rw [BitVec.toNat_ofInt, tyBitsOf]; push_cast; rfl
  rw [bits, BitVec.ofNat_toNat, BitVec.setWidth_eq]

theorem ofNat_finishInt (ty : IntTy) (sat : Bool) (z : Int) :
    BitVec.ofNat (tyWidth ty) (finishInt ty sat z) = finishBits (signedTy ty) sat (tyWidth ty) z := by
  rw [finishInt, ofNat_tyBitsOf, finishBits, tySat, tyMin, tyMax, tySigned_eq]
  rfl

/-! ### Values and their bits -/

section

variable (sg : Bool) {n : Nat}

theorem ofInt_valBits (a : BitVec n) : BitVec.ofInt n (valBits sg a) = a := by
  cases sg
  · exact (BitVec.ofInt_natCast n a.toNat).trans (by simp)
  · exact BitVec.ofInt_toInt

theorem widen_eq_ofInt (m : Nat) (a : BitVec n) : widen sg m a = BitVec.ofInt m (valBits sg a) := by
  cases sg
  · exact (BitVec.ofNat_toNat m a).symm
  · rfl

theorem valBits_bounds (a : BitVec n) : leastVal sg n ≤ valBits sg a ∧ valBits sg a ≤ greatestVal sg n := by
  cases sg with
  | false =>
    have := a.isLt
    simp only [leastVal, valBits, greatestVal, Bool.false_eq_true, if_false]
    zify at this
    omega
  | true => exact ⟨a.le_toInt, a.toInt_le⟩

theorem ltBits_eq (a b : BitVec n) : ltBits sg a b = decide (valBits sg a < valBits sg b) := by
  cases sg
  · simp [ltBits, valBits, BitVec.ult]
  · rfl

theorem valBits_neg (a : BitVec n) : valBits sg a < 0 ↔ (sg && a.msb) = true := by
  cases sg
  · simp [valBits]
  · simp [valBits, BitVec.msb_eq_toInt]

theorem valBits_zero : valBits sg (0 : BitVec n) = 0 := by cases sg <;> simp [valBits]

/-! ### Clamping -/

theorem clampInt_of_bounds {lo hi z : Int} (hz : lo ≤ z ∧ z ≤ hi) : clampInt lo hi z = z := by
  unfold clampInt
  rw [if_neg (by omega), if_neg (by omega)]

/-- A result in the range of its type is its own bits, saturating or not. -/
theorem finishBits_of_bounds (sat : Bool) {z : Int} (hz : leastVal sg n ≤ z ∧ z ≤ greatestVal sg n) :
    finishBits sg sat n z = BitVec.ofInt n z := by
  rw [finishBits, clampInt_of_bounds hz, ite_self]

theorem finishBits_valBits (sat : Bool) (a : BitVec n) : finishBits sg sat n (valBits sg a) = a := by
  rw [finishBits_of_bounds sg sat (valBits_bounds sg a), ofInt_valBits]

theorem finishBits_wrapping (z : Int) : finishBits sg false n z = BitVec.ofInt n z := rfl

end

theorem ofInt_least (n : Nat) : BitVec.ofInt n (-(2 ^ (n - 1))) = lowest n := BitVec.intMin_eq_neg_two_pow.symm

theorem ofInt_greatest (n : Nat) : BitVec.ofInt n (2 ^ (n - 1) - 1) = highest n := by
  rw [highest, BitVec.not_eq_neg_add, BitVec.intMin_eq_neg_two_pow, ← BitVec.ofInt_neg, Int.neg_neg, Int.sub_eq_add_neg,
    BitVec.ofInt_add, BitVec.sub_eq_add_neg, BitVec.ofInt_neg]
  rfl

theorem ofInt_allOnes (n : Nat) : BitVec.ofInt n (2 ^ n - 1) = BitVec.allOnes n := by
  apply BitVec.eq_of_toNat_eq
  have pos := Nat.two_pow_pos n
  rw [BitVec.toNat_allOnes, BitVec.toNat_ofInt, ← Int.toNat_natCast (2 ^ n - 1)]
  congr 1
  have cast : ((2 ^ n - 1 : Nat) : Int) = 2 ^ n - 1 := by push_cast [pos]; rfl
  have pos' : (0 : Int) < 2 ^ n := by positivity
  rw [cast, Int.emod_eq_of_lt] <;> push_cast <;> omega

/-- A signed sum that saturates is the lowest value where it overflows from a negative one, else the highest. -/
theorem finishBits_signed {n : Nat} (a : BitVec n) (c : Int) (hc : -2 ^ (n - 1) ≤ c ∧ c ≤ 2 ^ (n - 1)) :
    finishBits true true n (a.toInt + c) =
      if a.toInt + c ≥ 2 ^ (n - 1) ∨ a.toInt + c < -2 ^ (n - 1) then (if a.msb then lowest n else highest n)
      else BitVec.ofInt n (a.toInt + c) := by
  have msb : a.msb = true ↔ a.toInt < 0 := by simp [BitVec.msb_eq_toInt]
  simp only [msb, ← ofInt_least, ← ofInt_greatest, finishBits, clampInt, leastVal, greatestVal, if_true]
  rcases lt_or_ge (a.toInt + c) (-2 ^ (n - 1)) with low | low
  · have neg : a.toInt < 0 := by omega
    rw [if_pos low, if_pos (.inr low), if_pos neg]
  · rw [if_neg (Int.not_lt.mpr low)]
    rcases le_or_gt (2 ^ (n - 1)) (a.toInt + c) with high | high
    · have nonneg : ¬ a.toInt < 0 := by omega
      have above : a.toInt + c > 2 ^ (n - 1) - 1 := by omega
      rw [if_pos above, if_pos (.inl high), if_neg nonneg]
    · have fits : ¬ a.toInt + c > 2 ^ (n - 1) - 1 := by omega
      have inside : ¬ (a.toInt + c ≥ 2 ^ (n - 1) ∨ a.toInt + c < -2 ^ (n - 1)) := by omega
      rw [if_neg fits, if_neg inside]

/-- An unsigned result that saturates is 0 or all ones where it overflows. -/
theorem finishBits_unsigned {n : Nat} (z : Int) : finishBits false true n z =
    if z < 0 then 0 else if 2 ^ n ≤ z then BitVec.allOnes n else BitVec.ofInt n z := by
  have pos : (0 : Int) < 2 ^ n := by positivity
  unfold finishBits clampInt leastVal greatestVal
  simp only [if_true, Bool.false_eq_true, if_false]
  rcases lt_or_ge z 0 with low | low
  · rw [if_pos low, if_pos low]; rfl
  · have high : z > 2 ^ n - 1 ↔ 2 ^ n ≤ z := by omega
    simp only [high, if_neg (Int.not_lt.mpr low), ← ofInt_allOnes]
    split <;> rfl

/-! ### Arithmetic (R214, R215) -/

section

variable (sg sat : Bool) {n : Nat} (a b : BitVec n)

theorem ofInt_sub (x y : Int) : BitVec.ofInt n (x - y) = BitVec.ofInt n x - BitVec.ofInt n y := by
  rw [Int.sub_eq_add_neg, BitVec.ofInt_add, BitVec.ofInt_neg, BitVec.sub_eq_add_neg]

theorem ofInt_valBits_add : BitVec.ofInt n (valBits sg a + valBits sg b) = a + b := by
  rw [BitVec.ofInt_add, ofInt_valBits, ofInt_valBits]

theorem ofInt_valBits_sub : BitVec.ofInt n (valBits sg a - valBits sg b) = a - b := by
  rw [ofInt_sub, ofInt_valBits, ofInt_valBits]

theorem ofInt_valBits_mul : BitVec.ofInt n (valBits sg a * valBits sg b) = a * b := by
  rw [BitVec.ofInt_mul, ofInt_valBits, ofInt_valBits]

theorem finishBits_add : finishBits sg sat n (valBits sg a + valBits sg b) = addBits sg sat a b := by
  obtain ⟨la, ha⟩ := valBits_bounds sg a
  obtain ⟨lb, hb⟩ := valBits_bounds sg b
  have bits := ofInt_valBits_add sg a b
  cases sat with
  | false => simp [addBits, finishBits_wrapping, bits]
  | true =>
    cases sg with
    | true =>
      simp only [valBits, leastVal, greatestVal, if_true] at *
      rw [finishBits_signed a _ ⟨lb, by omega⟩, bits]
      simp [addBits, BitVec.saddOverflow]
    | false =>
      simp only [valBits, leastVal, greatestVal, Bool.false_eq_true, if_false] at *
      have nonneg : ¬ (a.toNat : Int) + b.toNat < 0 := by omega
      have exceeds : (2 : Int) ^ n ≤ (a.toNat : Int) + b.toNat ↔ 2 ^ n ≤ a.toNat + b.toNat := by norm_cast
      rw [finishBits_unsigned, if_neg nonneg, bits]
      simp [addBits, BitVec.uaddOverflow, exceeds]

theorem finishBits_sub : finishBits sg sat n (valBits sg a - valBits sg b) = subBits sg sat a b := by
  obtain ⟨la, ha⟩ := valBits_bounds sg a
  obtain ⟨lb, hb⟩ := valBits_bounds sg b
  have bits := ofInt_valBits_sub sg a b
  cases sat with
  | false => simp [subBits, finishBits_wrapping, bits]
  | true =>
    cases sg with
    | true =>
      simp only [valBits, leastVal, greatestVal, if_true, Int.sub_eq_add_neg] at *
      rw [finishBits_signed a _ ⟨by omega, by omega⟩, bits]
      simp [subBits, BitVec.ssubOverflow, Int.sub_eq_add_neg]
    | false =>
      simp only [valBits, leastVal, greatestVal, Bool.false_eq_true, if_false] at *
      have fits : ¬ (2 : Int) ^ n ≤ (a.toNat : Int) - b.toNat := by omega
      have under : (a.toNat : Int) - b.toNat < 0 ↔ a.toNat < b.toNat := by omega
      rw [finishBits_unsigned, if_neg fits, bits]
      simp [subBits, BitVec.usubOverflow, under]

theorem finishBits_neg : finishBits sg sat n (-valBits sg a) = negBits sg sat a := by
  rw [negBits, ← finishBits_sub sg sat, valBits_zero, Int.zero_sub]

/-- |a|: the negation of a negative value, and any other value as it is. -/
theorem finishBits_abs :
    finishBits sg sat n (if valBits sg a < 0 then -valBits sg a else valBits sg a) = absBits sg sat a := by
  by_cases neg : valBits sg a < 0
  · rw [if_pos neg, absBits, if_pos ((valBits_neg sg a).mp neg), finishBits_neg sg sat]
  · rw [if_neg neg, absBits, if_neg (mt (valBits_neg sg a).mpr neg), finishBits_valBits sg sat]

theorem finishBits_min :
    finishBits sg sat n (if valBits sg b < valBits sg a then valBits sg b else valBits sg a) = minBits sg a b := by
  simp only [minBits, ltBits_eq, decide_eq_true_eq]
  split <;> exact finishBits_valBits sg sat _

theorem finishBits_max :
    finishBits sg sat n (if valBits sg a < valBits sg b then valBits sg b else valBits sg a) = maxBits sg a b := by
  simp only [maxBits, ltBits_eq, decide_eq_true_eq]
  split <;> exact finishBits_valBits sg sat _

end

end Sys2Proof.Claims

namespace Sys2Proof.Claims

open Sys2Proof Sys2Proof.Machine

/-! ### Products, quotients and remainders (R214, R215) -/

section

variable (sg : Bool) {n : Nat} (a b : BitVec n)

/-- The bits of an integer from bit n up are those of its quotient by 2^n. -/
theorem extractLsb'_ofInt (z : Int) : (BitVec.ofInt (2 * n) z).extractLsb' n n = BitVec.ofInt n (z / 2 ^ n) := by
  apply BitVec.eq_of_toNat_eq
  have pos : (0 : Int) < 2 ^ n := by positivity
  have square : ((2 ^ (2 * n) : Nat) : Int) = 2 ^ n * 2 ^ n := by push_cast; rw [Nat.two_mul, pow_add]
  have digit : z % (2 ^ n * 2 ^ n) / 2 ^ n = z / 2 ^ n % 2 ^ n := by
    rw [Int.emod_def, ← Int.ediv_ediv_of_nonneg pos.le, Int.mul_assoc, Int.sub_mul_ediv_left _ _ pos.ne', ← Int.emod_def]
  have nonneg : 0 ≤ z % (2 ^ n * 2 ^ n) := Int.emod_nonneg _ (by positivity)
  rw [BitVec.extractLsb'_toNat, BitVec.toNat_ofInt, BitVec.toNat_ofInt, square, Nat.shiftRight_eq_div_pow]
  zify
  rw [Int.toNat_of_nonneg nonneg, digit, Int.emod_emod, Int.toNat_of_nonneg (Int.emod_nonneg _ pos.ne')]

/-- The high half of an exact product is in the range of its type. -/
theorem valBits_mul_bounds (hn : 0 < n) : leastVal sg n ≤ valBits sg a * valBits sg b / 2 ^ n ∧
    valBits sg a * valBits sg b / 2 ^ n ≤ greatestVal sg n := by
  have pos : (0 : Int) < 2 ^ n := by positivity
  refine ⟨(Int.le_ediv_iff_mul_le pos).mpr ?_, Int.le_of_lt_add_one ((Int.ediv_lt_iff_lt_mul pos).mpr ?_)⟩
  all_goals cases sg
  all_goals simp only [leastVal, greatestVal, valBits, Bool.false_eq_true, if_false, if_true, Int.sub_add_cancel]
  case refine_1.false => rw [zero_mul]; positivity
  case refine_2.false => exact_mod_cast Nat.mul_lt_mul'' a.isLt b.isLt
  all_goals
    have half : (2 : Int) ^ (n - 1) * 2 ^ n = 2 * 2 ^ (n * 2 - 2) := by
      rw [← pow_add, ← pow_succ']; congr 1; omega
    have small : (0 : Int) < 2 ^ (n * 2 - 2) := by positivity
  case refine_1.true => have := a.le_toInt_mul_toInt (y := b); rw [Int.neg_mul]; omega
  case refine_2.true => have := a.toInt_mul_toInt_le (y := b); omega

theorem finishBits_mulhi (sat : Bool) (hn : 0 < n) :
    finishBits sg sat n (valBits sg a * valBits sg b / 2 ^ n) = highBits sg a b := by
  rw [finishBits_of_bounds sg sat (valBits_mul_bounds sg a b hn), highBits, widen_eq_ofInt, widen_eq_ofInt, ← BitVec.ofInt_mul,
    extractLsb'_ofInt]

theorem ofInt_mulwide (m : Nat) : BitVec.ofInt m (valBits sg a * valBits sg b) = widen sg m a * widen sg m b := by
  rw [BitVec.ofInt_mul, widen_eq_ofInt, widen_eq_ofInt]

theorem valBits_eq_zero : valBits sg b = 0 ↔ b = 0 := by
  cases sg
  · simp [valBits, BitVec.toNat_eq]
  · simp [valBits, ← BitVec.toInt_inj]

theorem ofInt_div : BitVec.ofInt n (divVal (valBits sg a) (valBits sg b)) = divBits sg a b := by
  unfold divVal divBits
  simp only [valBits_eq_zero]
  by_cases zero : b = 0
  · rw [if_pos zero, if_pos zero, ← BitVec.neg_one_eq_allOnes, BitVec.ofInt_neg]; rfl
  · rw [if_neg zero, if_neg zero]
    cases sg with
    | true =>
      refine BitVec.eq_of_toInt_eq ?_
      rw [BitVec.toInt_ofInt, if_pos rfl, BitVec.toInt_sdiv]; rfl
    | false =>
      rw [if_neg Bool.false_ne_true, ← ofInt_valBits false (a.udiv b)]
      exact congrArg (BitVec.ofInt n) (Int.ofNat_tdiv _ _).symm

theorem ofInt_rem : BitVec.ofInt n (remVal (valBits sg a) (valBits sg b)) = remBits sg a b := by
  unfold remVal remBits
  simp only [valBits_eq_zero, ← Int.tmod_def]
  by_cases zero : b = 0
  · rw [if_pos zero, if_pos zero, ofInt_valBits]
  · rw [if_neg zero, if_neg zero]
    cases sg with
    | true =>
      rw [if_pos rfl, ← ofInt_valBits true (a.srem b)]
      exact congrArg (BitVec.ofInt n) (BitVec.toInt_srem a b).symm
    | false =>
      rw [if_neg Bool.false_ne_true, ← ofInt_valBits false (a.umod b)]
      exact congrArg (BitVec.ofInt n) (Int.ofNat_tmod _ _).symm

end

/-! ### Bitwise forms (R214) -/

section

variable {n : Nat} (a b : BitVec n)

theorem ofNat_toNat_self : BitVec.ofNat n a.toNat = a := by rw [BitVec.ofNat_toNat, BitVec.setWidth_eq]

theorem ofNat_and : BitVec.ofNat n (a.toNat &&& b.toNat) = a &&& b := by
  rw [← BitVec.toNat_and, ofNat_toNat_self]

theorem ofNat_or : BitVec.ofNat n (a.toNat ||| b.toNat) = a ||| b := by
  rw [← BitVec.toNat_or, ofNat_toNat_self]

theorem ofNat_xor : BitVec.ofNat n (a.toNat ^^^ b.toNat) = a ^^^ b := by
  rw [← BitVec.toNat_xor, ofNat_toNat_self]

theorem ofNat_not : BitVec.ofNat n (2 ^ n - 1 - a.toNat) = ~~~a := by
  rw [← BitVec.toNat_not, ofNat_toNat_self]

/-- The bits of a less those it shares with b. -/
theorem ofNat_andn : BitVec.ofNat n (a.toNat - (a.toNat &&& b.toNat)) = a &&& ~~~b := by
  have parts : (a &&& ~~~b) + (a &&& b) = a := by
    rw [BitVec.add_eq_or_of_and_eq_zero]
    · ext i hi; simp; grind
    · ext i hi; simp; grind
  have le : a &&& b ≤ a := Nat.and_le_left
  rw [BitVec.eq_sub_iff_add_eq.mpr parts, ← BitVec.toNat_and, ← BitVec.toNat_sub_of_le le, ofNat_toNat_self]

theorem bitRev_succ (x w m : Nat) : bitRev x w (m + 1) = 2 ^ m * (x.testBit (w - 1 - m)).toNat + bitRev x w m := by
  rw [bitRev]
  cases x.testBit (w - 1 - m) <;> simp [Nat.add_comm]

theorem bitRev_lt (x w m : Nat) : bitRev x w m < 2 ^ m := by
  induction m with
  | zero => exact Nat.one_pos
  | succ m ih =>
    rw [bitRev, Nat.pow_succ]
    split <;> omega

theorem testBit_bitRev (x w m k : Nat) : (bitRev x w m).testBit k = (decide (k < m) && x.testBit (w - 1 - k)) := by
  induction m with
  | zero => simp [bitRev]
  | succ m ih =>
    rw [bitRev_succ, Nat.testBit_two_pow_mul_add _ (bitRev_lt x w m)]
    rcases Nat.lt_trichotomy k m with lt | rfl | gt
    · simp [ih, lt, Nat.lt_succ_of_lt lt]
    · cases x.testBit (w - 1 - k) <;> simp
    · have above : k - m ≠ 0 := by omega
      have beyond : ¬ k < m + 1 := by omega
      simp [Nat.testBit_bool_toNat, gt.le.not_gt, above, beyond]

theorem ofNat_bitRev : BitVec.ofNat n (bitRev a.toNat n n) = a.reverse := by
  refine BitVec.eq_of_getLsbD_eq fun i hi => ?_
  rw [BitVec.getLsbD_ofNat, testBit_bitRev, BitVec.getLsbD_reverse, BitVec.getMsbD, BitVec.testBit_toNat]
  simp [hi]

end

/-! ### Shifts (R214) -/

section

variable (sg : Bool) {n : Nat} (a : BitVec n) (k : Nat)

theorem ofNat_shl : BitVec.ofNat n (if n ≤ k then 0 else a.toNat * 2 ^ k % 2 ^ n) = a <<< k := by
  apply BitVec.eq_of_toNat_eq
  rw [BitVec.toNat_ofNat, BitVec.toNat_shiftLeft, Nat.shiftLeft_eq]
  split
  case isTrue big =>
    obtain ⟨j, rfl⟩ := Nat.exists_eq_add_of_le big
    rw [Nat.pow_add, Nat.mul_left_comm, Nat.mul_mod_right]; rfl
  case isFalse => exact Nat.mod_mod _ _

/-- A quotient by a power of two that no value reaches: the sign alone. -/
theorem ediv_two_pow_of_bounds {v : Int} {j : Nat} (hv : -2 ^ j ≤ v ∧ v < 2 ^ j) : v / 2 ^ j = if v < 0 then -1 else 0 := by
  have pos : (0 : Int) < 2 ^ j := by positivity
  obtain ⟨low, high⟩ := hv
  split
  · exact Int.ediv_eq_neg_one_of_neg_of_le (by assumption) (by omega)
  · exact Int.ediv_eq_zero_of_lt (by omega) high

theorem valBits_within : -2 ^ n ≤ valBits sg a ∧ valBits sg a < 2 ^ n := by
  cases sg with
  | false =>
    have := a.isLt
    simp only [valBits, Bool.false_eq_true, if_false]
    zify at this
    omega
  | true =>
    have := a.le_two_mul_toInt
    have := a.two_mul_toInt_lt
    have : (0 : Int) < 2 ^ n := by positivity
    simp only [valBits, if_true]
    omega

/-- A shift by the width or more leaves the sign alone. -/
theorem valBits_ediv_min : valBits sg a / 2 ^ Nat.min k n = valBits sg a / 2 ^ k := by
  rcases Nat.le_total k n with le | le
  · rw [show Nat.min k n = k from Nat.min_eq_left le]
  · have wide : (2 : Int) ^ n ≤ 2 ^ k := pow_le_pow_right₀ (by decide) le
    have bounds := valBits_within sg a
    rw [show Nat.min k n = n from Nat.min_eq_right le, ediv_two_pow_of_bounds bounds,
      ediv_two_pow_of_bounds ⟨by omega, by omega⟩]

theorem ofInt_shr (k : W32) : BitVec.ofInt n (valBits sg a / 2 ^ Nat.min k.toNat n) = shrBits sg a k := by
  rw [valBits_ediv_min, shrBits]
  cases sg with
  | true =>
    rw [if_pos rfl, BitVec.sshiftRight, Int.shiftRight_eq_div_pow]
    push_cast; rfl
  | false =>
    rw [if_neg Bool.false_ne_true, ← ofInt_valBits false (a >>> k.toNat), valBits, valBits, BitVec.toNat_ushiftRight,
      Nat.shiftRight_eq_div_pow]
    push_cast; rfl

end

/-! ### Counts (R214) -/

section

variable {n : Nat} (a : BitVec n)

theorem cpopNatRec_eq_popCount (m : Nat) : a.cpopNatRec m 0 = popCount a.toNat m := by
  induction m with
  | zero => rfl
  | succ m ih =>
    rw [BitVec.cpopNatRec_succ, BitVec.cpopNatRec_eq, ih, popCount, BitVec.testBit_toNat]
    cases a.getLsbD m <;> simp

theorem cpop_eq : a.cpop = BitVec.ofNat n (popCount a.toNat n) := by
  rw [BitVec.cpop, cpopNatRec_eq_popCount]

theorem clzAuxRec_eq_leadZeros (m : Nat) (hm : m < n) :
    a.clzAuxRec m = BitVec.ofNat n (n - 1 - m + leadZeros a.toNat (m + 1)) := by
  induction m with
  | zero =>
    rw [BitVec.clzAuxRec_zero, leadZeros, leadZeros, BitVec.testBit_toNat]
    split
    · rfl
    · congr 1; omega
  | succ m ih =>
    rw [BitVec.clzAuxRec_succ, leadZeros, BitVec.testBit_toNat, ih (by omega)]
    split
    · rfl
    · congr 1; omega

theorem clz_eq (hn : 0 < n) : a.clz = BitVec.ofNat n (leadZeros a.toNat n) := by
  rw [BitVec.clz, clzAuxRec_eq_leadZeros a _ (by omega), Nat.sub_self, Nat.zero_add, Nat.sub_add_cancel hn]

/-- Trailing zeros are the leading zeros of the bits in reverse. -/
theorem trailZeros_eq_leadZeros (m : Nat) (hm : m ≤ n) : trailZeros a.toNat n m = leadZeros a.reverse.toNat m := by
  induction m with
  | zero => rfl
  | succ m ih =>
    have bit : a.reverse.toNat.testBit m = a.toNat.testBit (n - (m + 1)) := by
      rw [BitVec.testBit_toNat, BitVec.testBit_toNat, BitVec.getLsbD_reverse, BitVec.getMsbD, Nat.sub_sub, Nat.add_comm 1]
      simp [show m < n from hm]
    rw [trailZeros, leadZeros, bit, ih (by omega)]

theorem ctz_eq (hn : 0 < n) : a.ctz = BitVec.ofNat n (trailZeros a.toNat n n) := by
  rw [BitVec.ctz, clz_eq _ hn, trailZeros_eq_leadZeros a n le_rfl]

end

/-! ### Fields (R216) -/

theorem fieldSel_eq (n : Nat) (c : W32) : fieldSel n c = fieldAt n c := by
  have field : ∀ hi lo, bits c.toNat hi lo = (c.extractLsb' lo (hi + 1 - lo)).toNat := fun hi lo =>
    (BitVec.extractLsb'_toNat ..).symm
  simp only [fieldSel, fieldAt, field]

/-- A field ends within its operand. -/
theorem fieldAt_le (n : Nat) (c : W32) : (fieldAt n c).1 + (fieldAt n c).2 ≤ n := by
  have hp : (fieldAt n c).1 ≤ n := Nat.min_le_right _ _
  have hk : (fieldAt n c).2 ≤ n - (fieldAt n c).1 := Nat.min_le_right _ _
  omega

section

variable (sg : Bool) {n : Nat} (a b : BitVec n) (p k : Nat)

/-- The value of a field of a number, extended from its top bit under a signed type. -/
def fieldVal (x : Nat) : Int :=
  if k ≠ 0 && sg && (x / 2 ^ p % 2 ^ k).testBit (k - 1) then ((x / 2 ^ p % 2 ^ k : Nat) : Int) - 2 ^ k
  else (x / 2 ^ p % 2 ^ k : Nat)

theorem fieldVal_of_empty (x : Nat) : fieldVal sg p 0 x = 0 := by simp [fieldVal, Nat.mod_one]

theorem toNat_field : (a.extractLsb' p k).toNat = a.toNat / 2 ^ p % 2 ^ k := by
  rw [BitVec.extractLsb'_toNat, Nat.shiftRight_eq_div_pow]

theorem fieldVal_eq : fieldVal sg p k a.toNat = valBits sg (a.extractLsb' p k) := by
  rw [fieldVal, ← toNat_field, BitVec.testBit_toNat, ← BitVec.msb_eq_getLsbD_last, valBits]
  cases sg with
  | false => simp
  | true =>
    rw [if_pos rfl, BitVec.toInt_eq_msb_cond]
    rcases Nat.eq_zero_or_pos k with rfl | pos
    · simp
    · simp [pos.ne']

/-- Shifting a field to the top and back extends it. -/
theorem shifts_eq_widen (hpk : p + k ≤ n) (hk : k ≠ 0) :
    (if sg then (a <<< (n - p - k)).sshiftRight (n - k) else (a <<< (n - p - k)) >>> (n - k)) =
      widen sg n (a.extractLsb' p k) := by
  have up : ∀ i < k, (a <<< (n - p - k)).getLsbD (n - k + i) = a.getLsbD (p + i) := by
    intro i hi
    have inside : n - k + i < n := by omega
    have above : ¬ n - k + i < n - p - k := by omega
    rw [BitVec.getLsbD_shiftLeft, show n - k + i - (n - p - k) = p + i by omega]
    simp [inside, above]
  cases sg with
  | false =>
    refine BitVec.eq_of_getLsbD_eq fun i hi => ?_
    simp only [Bool.false_eq_true, if_false, widen, BitVec.getLsbD_ushiftRight, BitVec.getLsbD_setWidth,
      BitVec.getLsbD_extractLsb', hi, decide_true, Bool.true_and]
    by_cases low : i < k
    · simp [low, up i low]
    · rw [BitVec.getLsbD_of_ge _ _ (by omega)]; simp [low]
  | true =>
    have top : (a <<< (n - p - k)).msb = (a.extractLsb' p k).msb := by
      have := up (k - 1) (by omega)
      rw [BitVec.msb_eq_getLsbD_last, BitVec.msb_eq_getLsbD_last, BitVec.getLsbD_extractLsb', ← this]
      simp [show n - k + (k - 1) = n - 1 by omega, Nat.pos_of_ne_zero hk]
    refine BitVec.eq_of_getLsbD_eq fun i hi => ?_
    simp only [if_true, widen, BitVec.getLsbD_sshiftRight, BitVec.getLsbD_signExtend, BitVec.getLsbD_extractLsb', top]
    by_cases low : i < k
    · have inside : n - k + i < n := by omega
      simp only [hi, low, inside, up i low, Nat.not_le.mpr hi, decide_true, decide_false, if_true]
      rfl
    · simp [hi, low, show ¬ n - k + i < n by omega]

theorem bfeBits_eq (c : W32) :
    BitVec.ofInt n (fieldVal sg (fieldAt n c).1 (fieldAt n c).2 a.toNat) = bfeBits sg a c := by
  have bfe : bfeBits sg a c = if (fieldAt n c).2 = 0 then 0 else if sg then
      (a <<< (n - (fieldAt n c).1 - (fieldAt n c).2)).sshiftRight (n - (fieldAt n c).2)
      else (a <<< (n - (fieldAt n c).1 - (fieldAt n c).2)) >>> (n - (fieldAt n c).2) := rfl
  rw [bfe]
  split
  case isTrue zero => rw [zero, fieldVal_of_empty]; rfl
  case isFalse nonzero => rw [fieldVal_eq, ← widen_eq_ofInt, shifts_eq_widen sg a _ _ (fieldAt_le n c) nonzero]

/-- A number whose field has been replaced by the low bits of another. -/
def insertVal (p k x y : Nat) : Nat := y - y / 2 ^ p % 2 ^ k * 2 ^ p + x % 2 ^ k * 2 ^ p

/-- The parts of a number below, in and above a field. -/
theorem insertVal_eq (x y : Nat) :
    insertVal p k x y = 2 ^ p * (2 ^ k * (y / 2 ^ p / 2 ^ k) + x % 2 ^ k) + y % 2 ^ p := by
  have outer := Nat.div_add_mod y (2 ^ p)
  have inner := Nat.div_add_mod (y / 2 ^ p) (2 ^ k)
  rw [insertVal, Nat.mul_comm _ (2 ^ p), Nat.mul_comm _ (2 ^ p), Nat.mul_add]
  rw [← inner, Nat.mul_add] at outer
  omega

theorem testBit_insertVal (x y i : Nat) : (insertVal p k x y).testBit i =
    if p ≤ i ∧ i < p + k then x.testBit (i - p) else y.testBit i := by
  rw [insertVal_eq, Nat.testBit_two_pow_mul_add _ (Nat.mod_lt _ (Nat.two_pow_pos p)),
    Nat.testBit_two_pow_mul_add _ (Nat.mod_lt _ (Nat.two_pow_pos k)), Nat.testBit_mod_two_pow, Nat.testBit_mod_two_pow,
    Nat.testBit_div_two_pow, Nat.testBit_div_two_pow]
  by_cases below : i < p
  · simp [below, Nat.not_le.mpr below]
  · by_cases inside : i - p < k
    · simp [below, inside, show p ≤ i ∧ i < p + k by omega]
    · simp [below, inside, show ¬ i < p + k by omega, show i - p - k + k + p = i by omega]

theorem bfiBits_eq (c : W32) :
    BitVec.ofNat n (insertVal (fieldAt n c).1 (fieldAt n c).2 a.toNat b.toNat) = bfiBits a b c := by
  have fits := fieldAt_le n c
  have bfi : bfiBits a b c =
      (b &&& ~~~((BitVec.allOnes n >>> (n - (fieldAt n c).2)) <<< (fieldAt n c).1)) |||
        ((a <<< (fieldAt n c).1) &&& ((BitVec.allOnes n >>> (n - (fieldAt n c).2)) <<< (fieldAt n c).1)) := rfl
  generalize (fieldAt n c).1 = p, (fieldAt n c).2 = k at *
  refine BitVec.eq_of_getLsbD_eq fun i hi => ?_
  have mask : ((BitVec.allOnes n >>> (n - k)) <<< p).getLsbD i = decide (p ≤ i ∧ i < p + k) := by
    simp only [BitVec.getLsbD_shiftLeft, BitVec.getLsbD_ushiftRight, BitVec.getLsbD_allOnes, hi, decide_true, Bool.true_and]
    rw [← decide_not, ← Bool.decide_and, decide_eq_decide]
    omega
  rw [BitVec.getLsbD_ofNat, testBit_insertVal, bfi, BitVec.getLsbD_or, BitVec.getLsbD_and, BitVec.getLsbD_and,
    BitVec.getLsbD_not, mask]
  by_cases inside : p ≤ i ∧ i < p + k
  · have low : i - p < n := by omega
    simp [hi, inside, BitVec.testBit_toNat, Nat.not_lt.mpr inside.1, BitVec.getLsbD_eq_getElem low]
  · simp [hi, inside, BitVec.testBit_toNat]

end

end Sys2Proof.Claims

namespace Sys2Proof.Claims

open Sys2Proof Sys2Proof.Machine

/-! ### Operands and results at the width of their type (R210–R212) -/

/-- A register operand of a type. -/
def regTy (v : View) : (ty : IntTy) → RegNo → BitVec (tyWidth ty)
  | .i32, r | .n32, r => v.r32 r
  | .i64, r | .n64, r => v.r64 r

/-- The last source of a type. -/
def lastTy (v : View) : (ty : IntTy) → Src → BitVec (tyWidth ty)
  | .i32, b => last32 v true b
  | .n32, b => last32 v false b
  | .i64, b => last64 v true b
  | .n64, b => last64 v false b

/-- The writes of a result of a type. -/
def putBits (v : View) : (ty : IntTy) → RegNo → BitVec (tyWidth ty) → List Wr
  | .i32, d, x => [v.w32s d x]
  | .n32, d, x => [v.w32 d x]
  | .i64, d, x | .n64, d, x => v.w64 d x

section

variable (v : View) (ty : IntTy) (d a b : RegNo) (c : Src)

theorem rawReg_eq : rawReg v ty a = (regTy v ty a).toNat := by cases ty <;> rfl

theorem putTy_eq (x : Nat) : putTy v ty d x = putBits v ty d (BitVec.ofNat (tyWidth ty) x) := by cases ty <;> rfl

theorem toNat_widen (sg : Bool) {n : Nat} (m : Nat) (hm : n ≤ m) (x : BitVec n) :
    (widen sg m x).toNat = if sg then (x.toInt % 2 ^ m).toNat else x.toNat := by
  cases sg with
  | true => simp [widen, BitVec.signExtend]
  | false => simpa [widen] using Nat.mod_eq_of_lt (x.isLt.trans_le (Nat.pow_le_pow_right (by decide) hm))

theorem widen_self (sg : Bool) {n : Nat} (x : BitVec n) : widen sg n x = x := by cases sg <;> simp [widen]

theorem lastTy_imm8 (x : BitVec 8) : lastTy v ty (.imm8 x) = widen (signedTy ty) (tyWidth ty) x := by cases ty <;> rfl

theorem lastTy_imm32 (x : BitVec 32) : lastTy v ty (.imm32 x) = widen (signedTy ty) (tyWidth ty) x := by
  cases ty
  case i32 | n32 => exact (widen_self _ x).symm
  case i64 | n64 => rfl

theorem srcBits_eq : srcBits v ty c = (lastTy v ty c).toNat := by
  have wide : 32 ≤ tyWidth ty := by cases ty <;> decide
  cases c with
  | reg r => rw [srcBits, rawReg_eq]; cases ty <;> rfl
  | imm8 x => rw [lastTy_imm8, toNat_widen _ _ (by omega), srcBits, tySigned_eq]; rfl
  | imm32 x => rw [lastTy_imm32, toNat_widen _ _ wide, srcBits, tySigned_eq]; rfl

theorem selBits_eq : selBits v ty c = last32 v (signedTy ty) c := by cases ty <;> cases c <;> rfl

theorem src1Bits_eq : src1Bits v c = count32 v c := by cases c <;> rfl

theorem one_eq (f : {n : Nat} → BitVec n → BitVec n) : one v ty d a f = putBits v ty d (f (regTy v ty a)) := by
  cases ty <;> rfl

theorem two_eq (f : {n : Nat} → BitVec n → BitVec n → BitVec n) :
    two v ty d a c f = putBits v ty d (f (regTy v ty a) (lastTy v ty c)) := by
  cases ty <;> rfl

theorem three_eq (f : {n : Nat} → BitVec n → BitVec n → BitVec n → BitVec n) :
    three v ty d a b c f = putBits v ty d (f (regTy v ty a) (regTy v ty b) (lastTy v ty c)) := by
  cases ty <;> rfl

theorem tyVal_rawReg : tyVal ty (rawReg v ty a) = valBits (signedTy ty) (regTy v ty a) := by rw [rawReg_eq, tyVal_toNat]

theorem tyVal_srcBits : tyVal ty (srcBits v ty c) = valBits (signedTy ty) (lastTy v ty c) := by rw [srcBits_eq, tyVal_toNat]

end

/-! ### The shapes of the instructions -/

section

variable {i : Instr} {h : Hd}

/-- A form with two sources computes, when its exact result has the bits of f. -/
theorem computes_of_intBin {o : IBin} {F : Int → Int → Int} (hi : ∀ s, exec i s = intBin s h o F)
    (f : {n : Nat} → BitVec n → BitVec n → BitVec n) (hf : ∀ x y : BitVec (tyWidth o.ty),
      finishBits (signedTy o.ty) o.sat (tyWidth o.ty) (F (valBits (signedTy o.ty) x) (valBits (signedTy o.ty) y)) = f x y) :
    Computes i h fun v => two v o.ty o.d o.a o.b f := by
  refine computes_of_pure1 fun s => (hi s).trans (congrArg (s.pure1 h) (funext fun v => ?_))
  rw [putTy_eq, ofNat_finishInt, tyVal_rawReg, tyVal_srcBits, hf, two_eq]

/-- A form with one source computes, when its exact result has the bits of f. -/
theorem computes_of_intUn {o : IUn} {F : Int → Int} (hi : ∀ s, exec i s = intUn s h o F)
    (f : {n : Nat} → BitVec n → BitVec n) (hf : ∀ x : BitVec (tyWidth o.ty),
      finishBits (signedTy o.ty) o.sat (tyWidth o.ty) (F (valBits (signedTy o.ty) x)) = f x) :
    Computes i h fun v => one v o.ty o.d o.a f := by
  refine computes_of_pure1 fun s => (hi s).trans (congrArg (s.pure1 h) (funext fun v => ?_))
  rw [putTy_eq, ofNat_finishInt, tyVal_rawReg, hf, one_eq]

theorem bwTy_eq (w : BW) : w.ty = bwTy w := by cases w <;> rfl

theorem bwWidth_eq (w : BW) : bwWidth w = tyWidth (bwTy w) := by cases w <;> rfl

theorem computes_of_bitBin {o : BBin} {F : Nat → Nat → Nat} (hi : ∀ s, exec i s = bitBin s h o F)
    (f : {n : Nat} → BitVec n → BitVec n → BitVec n)
    (hf : ∀ {n : Nat} (x y : BitVec n), BitVec.ofNat n (F x.toNat y.toNat) = f x y) :
    Computes i h fun v => two v (bwTy o.bw) o.d o.a o.b f := by
  refine computes_of_pure1 fun s => (hi s).trans (congrArg (s.pure1 h) (funext fun v => ?_))
  rw [putTy_eq, bwTy_eq, rawReg_eq, srcBits_eq, hf, two_eq]

theorem computes_of_bitUn {o : BUn} {F : Nat → Nat} (hi : ∀ s, exec i s = bitUn s h o F)
    (f : {n : Nat} → BitVec n → BitVec n)
    (hf : ∀ x : BitVec (tyWidth (bwTy o.bw)), BitVec.ofNat (tyWidth (bwTy o.bw)) (F x.toNat) = f x) :
    Computes i h fun v => one v (bwTy o.bw) o.d o.a f := by
  refine computes_of_pure1 fun s => (hi s).trans (congrArg (s.pure1 h) (funext fun v => ?_))
  rw [putTy_eq, bwTy_eq, rawReg_eq, hf, one_eq]

/-- A count of the bits of a register or pair computes, when f counts alike at both widths. -/
theorem computes_of_bitCount {o : BUn} {F : Nat → Nat → Nat} (hi : ∀ s, exec i s = bitCount s h o fun x => F x (bwWidth o.bw))
    (f : {n : Nat} → BitVec n → BitVec n) (hf : ∀ {n : Nat} (x : BitVec n), 0 < n → f x = BitVec.ofNat n (F x.toNat n)) :
    Computes i h fun v => [v.w32 o.d (match o.bw with
      | .b32 => f (v.r32 o.a)
      | .b64 => (f (v.r64 o.a)).truncate 32)] := by
  refine computes_of_pure1 fun s => (hi s).trans (congrArg (s.pure1 h) (funext fun v => ?_))
  cases o.bw with
  | b32 => exact congrArg (fun x => [v.w32 o.d x]) (hf (v.r32 o.a) (by decide)).symm
  | b64 =>
    simp only [hf (v.r64 o.a) (by decide), BitVec.truncate, BitVec.setWidth_ofNat_of_le (show 32 ≤ 64 by decide)]
    rfl

end

end Sys2Proof.Claims

/-! ### The meaning of each instruction of class 0x2 -/

namespace Sys2Proof.Machine

open Sys2Proof

section

variable (h : Hd)

theorem exec_add (o : IBin) (s : State) : exec (.add h o) s = execAdd h o s := rfl
theorem exec_sub (o : IBin) (s : State) : exec (.sub h o) s = execSub h o s := rfl
theorem exec_neg (o : IUn) (s : State) : exec (.neg h o) s = execNeg h o s := rfl
theorem exec_abs (o : IUn) (s : State) : exec (.abs h o) s = execAbs h o s := rfl
theorem exec_min (o : IBin) (s : State) : exec (.min h o) s = execMin h o s := rfl
theorem exec_max (o : IBin) (s : State) : exec (.max h o) s = execMax h o s := rfl
theorem exec_mul (o : IBin) (s : State) : exec (.mul h o) s = execMul h o s := rfl
theorem exec_mulhi (o : IBin) (s : State) : exec (.mulhi h o) s = execMulhi h o s := rfl
theorem exec_mulwide (o : IBin) (s : State) : exec (.mulwide h o) s = execMulwide h o s := rfl
theorem exec_mad (o : ITri) (s : State) : exec (.mad h o) s = execMad h o s := rfl
theorem exec_div (o : IBin) (s : State) : exec (.div h o) s = execDiv h o s := rfl
theorem exec_rem (o : IBin) (s : State) : exec (.rem h o) s = execRem h o s := rfl
theorem exec_and (o : BBin) (s : State) : exec (.and h o) s = execAnd h o s := rfl
theorem exec_or (o : BBin) (s : State) : exec (.or h o) s = execOr h o s := rfl
theorem exec_xor (o : BBin) (s : State) : exec (.xor h o) s = execXor h o s := rfl
theorem exec_not (o : BUn) (s : State) : exec (.not h o) s = execNot h o s := rfl
theorem exec_andn (o : BBin) (s : State) : exec (.andn h o) s = execAndn h o s := rfl
theorem exec_shl (o : IBin) (s : State) : exec (.shl h o) s = execShl h o s := rfl
theorem exec_shr (o : IBin) (s : State) : exec (.shr h o) s = execShr h o s := rfl
theorem exec_brev (o : BUn) (s : State) : exec (.brev h o) s = execBrev h o s := rfl
theorem exec_bfe (o : IBin) (s : State) : exec (.bfe h o) s = execBfe h o s := rfl
theorem exec_bfi (o : ITri) (s : State) : exec (.bfi h o) s = execBfi h o s := rfl
theorem exec_popc (o : BUn) (s : State) : exec (.popc h o) s = execPopc h o s := rfl
theorem exec_clz (o : BUn) (s : State) : exec (.clz h o) s = execClz h o s := rfl
theorem exec_ctz (o : BUn) (s : State) : exec (.ctz h o) s = execCtz h o s := rfl
theorem exec_setp (c : ICc) (o : IBin) (s : State) : exec (.setp h c o) s = execSetp h c o s := rfl
theorem exec_sel (ty : IntTy) (d a b c : RegNo) (s : State) : exec (.sel h ty d a b c) s = execSel h ty d a b c s := rfl
theorem exec_mov (ty : IntTy) (d : RegNo) (a : Src) (s : State) : exec (.mov h ty d a) s = execMov h ty d a s := rfl
theorem exec_movx (d : RegNo) (x : W64) (s : State) : exec (.movx h d x) s = execMovx h d x s := rfl
theorem exec_plog (op : PlogOp) (d a b : BitVec 3) (s : State) : exec (.plog h op d a b) s = execPlog h op d a b s := rfl

end

end Sys2Proof.Machine

namespace Sys2Proof.Claims

open Sys2Proof Sys2Proof.Machine

/-! ### The instructions of class 0x2 -/

theorem iccHolds_valBits (cc : ICc) (sg : Bool) {n : Nat} (a b : BitVec n) :
    iccHolds cc (valBits sg a) (valBits sg b) = iccBits cc sg a b := by
  have same : valBits sg a = valBits sg b ↔ a = b := by
    refine ⟨fun e => ?_, congrArg _⟩
    rw [← ofInt_valBits sg a, e, ofInt_valBits]
  cases cc
  case eq => simp [iccHolds, iccBits, same]
  case ne => simp [iccHolds, iccBits, same, bne]
  case lt | gt => simp [iccHolds, iccBits, ltBits_eq]
  case le | ge => simp [iccHolds, iccBits, ltBits_eq, ← decide_not]

theorem putFlag_eq (v : View) (d : RegNo) (x : Bool) : putFlag v d x = flagWr v d x := by cases v <;> rfl

section

variable (h : Hd)

theorem computes_mul (o : IBin) (wraps : o.sat = false) :
    Computes (.mul h o) h fun v => two v o.ty o.d o.a o.b fun a b => a * b :=
  computes_of_intBin (exec_mul h o) _ fun x y => by rw [wraps]; exact ofInt_valBits_mul _ x y

theorem computes_div (o : IBin) (wraps : o.sat = false) :
    Computes (.div h o) h fun v => two v o.ty o.d o.a o.b (divBits (signedTy o.ty)) :=
  computes_of_intBin (exec_div h o) _ fun x y => by rw [wraps]; exact ofInt_div _ x y

theorem computes_rem (o : IBin) (wraps : o.sat = false) :
    Computes (.rem h o) h fun v => two v o.ty o.d o.a o.b (remBits (signedTy o.ty)) :=
  computes_of_intBin (exec_rem h o) _ fun x y => by rw [wraps]; exact ofInt_rem _ x y

theorem computes_mulwide (o : IBin) (narrow : o.ty.is64 = false) : Computes (.mulwide h o) h fun v =>
    v.w64 o.d (widen (signedTy o.ty) 64 (v.r32 o.a) * widen (signedTy o.ty) 64 (last32 v (signedTy o.ty) o.b)) := by
  refine computes_of_writes (exec_mulwide h o) fun v => ?_
  rw [tyVal_rawReg, tyVal_srcBits, ofInt_mulwide]
  obtain ⟨ty, sat, d, a, b⟩ := o
  cases ty
  case i32 | n32 => rfl
  case i64 | n64 => cases narrow

theorem computes_mad (o : ITri) : Computes (.mad h o) h fun v => three v o.ty o.d o.a o.b o.c fun a b c => a * b + c := by
  refine computes_of_writes (exec_mad h o) fun v => ?_
  rw [putTy_eq, ofNat_tyBitsOf, tyVal_rawReg, tyVal_rawReg, tyVal_srcBits, BitVec.ofInt_add, ofInt_valBits_mul, ofInt_valBits,
    three_eq]

theorem computes_shl (o : IBin) :
    Computes (.shl h o) h fun v => one v o.ty o.d o.a fun a => a <<< (count32 v o.b).toNat := by
  refine computes_of_writes (exec_shl h o) fun v => ?_
  rw [putTy_eq, rawReg_eq, src1Bits_eq, ofNat_shl, one_eq]

theorem computes_shr (o : IBin) :
    Computes (.shr h o) h fun v => one v o.ty o.d o.a fun a => shrBits (signedTy o.ty) a (count32 v o.b) := by
  refine computes_of_writes (exec_shr h o) fun v => ?_
  rw [putTy_eq, ofNat_tyBitsOf, tyVal_rawReg, src1Bits_eq, ofInt_shr, one_eq]

theorem computes_bfe (o : IBin) : Computes (.bfe h o) h fun v =>
    one v o.ty o.d o.a fun a => bfeBits (signedTy o.ty) a (last32 v (signedTy o.ty) o.b) := by
  refine computes_of_writes (g := fun v => let pk := fieldSel (tyWidth o.ty) (selBits v o.ty o.b)
    putTy v o.ty o.d (tyBitsOf o.ty (fieldVal (tySigned o.ty) pk.1 pk.2 (rawReg v o.ty o.a)))) (fun _ => rfl) fun v => ?_
  rw [putTy_eq, ofNat_tyBitsOf, rawReg_eq, selBits_eq, fieldSel_eq, tySigned_eq, bfeBits_eq, one_eq]

theorem computes_bfi (o : ITri) : Computes (.bfi h o) h fun v =>
    let c := last32 v (signedTy o.ty) o.c
    if o.ty.is64 then v.w64 o.d (bfiBits (v.r64 o.a) (v.r64 o.b) c)
    else [result32 v (signedTy o.ty) o.d (bfiBits (v.r32 o.a) (v.r32 o.b) c)] := by
  refine computes_of_writes (g := fun v => let pk := fieldSel (tyWidth o.ty) (selBits v o.ty o.c)
    putTy v o.ty o.d (insertVal pk.1 pk.2 (rawReg v o.ty o.a) (rawReg v o.ty o.b))) (fun _ => rfl) fun v => ?_
  rw [putTy_eq, rawReg_eq, rawReg_eq, selBits_eq, fieldSel_eq, bfiBits_eq]
  cases o.ty <;> rfl

theorem computes_setp (cc : ICc) (o : IBin) : Computes (.setp h cc o) h fun v =>
    [flagWr v o.d (if o.ty.is64 then iccBits cc (signedTy o.ty) (v.r64 o.a) (last64 v (signedTy o.ty) o.b)
      else iccBits cc (signedTy o.ty) (v.r32 o.a) (last32 v (signedTy o.ty) o.b))] := by
  refine computes_of_writes (exec_setp h cc o) fun v => ?_
  rw [putFlag_eq, tyVal_rawReg, tyVal_srcBits, iccHolds_valBits]
  cases o.ty <;> rfl

theorem computes_sel (ty : IntTy) (d a b c : RegNo) : Computes (.sel h ty d a b c) h fun v =>
    one v ty d (if (match v with
      | .cox x => x.reg c.toNat != 0
      | .fib f => f.pred c.toNat) then a else b) fun x => x := by
  refine computes_of_writes (exec_sel h ty d a b c) fun v => ?_
  rw [← apply_ite, putTy_eq, rawReg_eq, ofNat_toNat_self, one_eq]
  cases v <;> rfl

theorem computes_mov (ty : IntTy) (d : RegNo) (a : Src) : Computes (.mov h ty d a) h fun v => two v ty d 0 a fun _ b => b := by
  refine computes_of_writes (exec_mov h ty d a) fun v => ?_
  rw [putTy_eq, srcBits_eq, ofNat_toNat_self, two_eq]

theorem computes_movx (d : RegNo) (x : W64) : Computes (.movx h d x) h fun v => v.w64 d x :=
  computes_of_pure1 fun _ => rfl

/-- What the model writes for `plog`. -/
def plogWrites (op : PlogOp) (pd pa pb : BitVec 3) : View → List Wr
  | .fib f => [.p pd.toNat (plogHolds op (f.pred pa.toNat) (f.pred pb.toNat))]
  | .cox _ => []

theorem crosses_plog (op : PlogOp) (pd pa pb : BitVec 3) : Crosses (.plog h op pd pa pb) h fun _ x => [.p pd.toNat (match op with
    | .and => x.2.pred pa.toNat && x.2.pred pb.toNat
    | .or => x.2.pred pa.toNat || x.2.pred pb.toNat
    | .xor => x.2.pred pa.toNat ^^ x.2.pred pb.toNat
    | .andn => x.2.pred pa.toNat && !x.2.pred pb.toNat)] := by
  intro s k p hs
  have writes := hs.writes_pure1 h (plogWrites op pd pa pb)
  cases op <;> exact writes

end

/-! ### The three tables -/

theorem integerArithmetic : IntegerArithmetic := by
  intro i h g hg
  unfold arithmetic at hg
  split at hg
  case h_1 h o => cases hg; exact computes_of_intBin (exec_add h o) _ (finishBits_add _ _)
  case h_2 h o => cases hg; exact computes_of_intBin (exec_sub h o) _ (finishBits_sub _ _)
  case h_3 h o => cases hg; exact computes_of_intUn (exec_neg h o) _ (finishBits_neg _ _)
  case h_4 h o => cases hg; exact computes_of_intUn (exec_abs h o) _ (finishBits_abs _ _)
  case h_5 h o => cases hg; exact computes_of_intBin (exec_min h o) _ (finishBits_min _ _)
  case h_6 h o => cases hg; exact computes_of_intBin (exec_max h o) _ (finishBits_max _ _)
  case h_7 h o =>
    split at hg
    case isTrue => cases hg
    case isFalse wraps => cases hg; exact computes_mul h o (Bool.not_eq_true _ ▸ wraps)
  case h_8 h o => cases hg; exact computes_of_intBin (exec_mulhi h o) _ fun x y => finishBits_mulhi _ x y _ (tyWidth_pos _)
  case h_9 h o =>
    simp only [] at hg
    split at hg
    case isTrue => cases hg
    case isFalse narrow => cases hg; exact computes_mulwide h o (Bool.not_eq_true _ ▸ narrow)
  case h_10 h o => cases hg; exact computes_mad h o
  case h_11 h o =>
    split at hg
    case isTrue => cases hg
    case isFalse wraps => cases hg; exact computes_div h o (Bool.not_eq_true _ ▸ wraps)
  case h_12 h o =>
    split at hg
    case isTrue => cases hg
    case isFalse wraps => cases hg; exact computes_rem h o (Bool.not_eq_true _ ▸ wraps)
  case h_13 => cases hg

theorem integerBits : IntegerBits := by
  intro i h g hg
  unfold bitwise at hg
  split at hg
  case h_1 h o => cases hg; exact computes_of_bitBin (exec_and h o) _ ofNat_and
  case h_2 h o => cases hg; exact computes_of_bitBin (exec_or h o) _ ofNat_or
  case h_3 h o => cases hg; exact computes_of_bitBin (exec_xor h o) _ ofNat_xor
  case h_4 h o => cases hg; exact computes_of_bitUn (exec_not h o) _ fun x => by rw [bwWidth_eq, ofNat_not]
  case h_5 h o => cases hg; exact computes_of_bitBin (exec_andn h o) _ ofNat_andn
  case h_6 h o => cases hg; exact computes_shl h o
  case h_7 h o => cases hg; exact computes_shr h o
  case h_8 h o => cases hg; exact computes_of_bitUn (exec_brev h o) _ fun x => by rw [bwWidth_eq, ofNat_bitRev]
  case h_9 h o => cases hg; exact computes_bfe h o
  case h_10 h o => cases hg; exact computes_bfi h o
  case h_11 h o => cases hg; exact computes_of_bitCount (exec_popc h o) BitVec.cpop fun x _ => cpop_eq x
  case h_12 h o => cases hg; exact computes_of_bitCount (exec_clz h o) BitVec.clz clz_eq
  case h_13 h o =>
    cases hg
    exact computes_of_bitCount (F := fun x n => trailZeros x n n) (exec_ctz h o) BitVec.ctz ctz_eq
  case h_14 => cases hg

theorem integerSelection : IntegerSelection := by
  refine ⟨fun i h g hg => ?_, fun h op pd pa pb => crosses_plog h op pd pa pb⟩
  unfold selection at hg
  split at hg
  case h_1 h cc o => cases hg; exact computes_setp h cc o
  case h_2 h ty d a b c => cases hg; exact computes_sel h ty d a b c
  case h_3 h ty d a => cases hg; exact computes_mov h ty d a
  case h_4 h d x => cases hg; exact computes_movx h d x
  case h_5 => cases hg

end Sys2Proof.Claims

open Sys2Proof Sys2Proof.Machine Sys2Proof.Claims

/-- Settles O1: every form is one issue that only writes registers, and what the model computes of integers are the bits that each
table gives. -/
theorem integerResults : Obligations.IntegerResults := by
  unfold Obligations.IntegerResults
  exact ⟨integerArithmetic, integerBits, integerSelection⟩

end
